-- ==== Sys2Proof/Word.lean ====
section
/-! DEFINITION. The words of the machine: bytes, 32-bit registers and instruction words, 64-bit
addresses and pointer registers (R8 and R10 of spec/00_scope.md, R31 of spec/02_execution_model.md). -/

namespace Sys2Proof

/-- A byte of memory (R10). -/
abbrev Byte := BitVec 8

/-- An instruction word, an x or k register, a mask of 32 threads (R8, R149). -/
abbrev Word := BitVec 32

/-- A pointer register, a PC, a virtual address (R31, R86). -/
abbrev DWord := BitVec 64

/-- A 7-bit register field: 0 to 95 name the x window, 96 to 127 the k window (R154). -/
abbrev Field := BitVec 7

end Sys2Proof
end

