-- ==== Sys2Proof/Machine/Numbers.lean ====
section
/-! DEFINITION. Number formats and rounding (R126 to R148): exact values, the storage formats, the one
rounding procedure, shared-exponent blocks, and the functions of R142 and R143. -/

namespace Sys2Proof.Machine

/-- An exact value: a NaN, an infinity, or a signed fraction num / den with den positive; a zero keeps
its sign (R136, R139). -/
inductive Val
  | nan
  | inf (neg : Bool)
  | fin (neg : Bool) (num den : Nat)
deriving DecidableEq, Repr, Inhabited

/-- FPSTAT's flags: bit 0 NV, 1 DZ, 2 OF, 3 UF, 4 NX, 5 SAT (R141). -/
abbrev Flags := BitVec 6

/-- Invalid. -/
def flagNV : Flags := 1#6
/-- Exact infinity from finite operands. -/
def flagDZ : Flags := 2#6
/-- Overflow. -/
def flagOF : Flags := 4#6
/-- Underflow. -/
def flagUF : Flags := 8#6
/-- Inexact. -/
def flagNX : Flags := 16#6
/-- Clamped by a saturate flag. -/
def flagSAT : Flags := 32#6

/-- A flag when the condition holds. -/
def flagIf (b : Bool) (f : Flags) : Flags := if b then f else 0#6

/-- Rounding mode with the random word of the stochastic mode (R133, R136, R138). -/
inductive Mode
  | rne
  | rtz
  | sr (w : Nat)
deriving DecidableEq, Repr

/-- A binary floating-point format (R127, R128). -/
structure Fmt where
  eb : Nat
  mb : Nat
  bias : Nat
  /-- Code of the largest finite value. -/
  top : Nat
  hasInf : Bool
  /-- Code of the canonical NaN. -/
  nan : Nat
deriving DecidableEq, Repr

/-- binary32. -/
def fp32 : Fmt := { eb := 8, mb := 23, bias := 127, top := 0x7F7FFFFF, hasInf := true, nan := 0x7FC00000 }
/-- binary16. -/
def fp16 : Fmt := { eb := 5, mb := 10, bias := 15, top := 0x7BFF, hasInf := true, nan := 0x7E00 }
/-- BF16. -/
def bf16 : Fmt := { eb := 8, mb := 7, bias := 127, top := 0x7F7F, hasInf := true, nan := 0x7FC0 }
/-- E4M3. -/
def e4m3 : Fmt := { eb := 4, mb := 3, bias := 7, top := 0x7E, hasInf := false, nan := 0x7F }
/-- E5M2. -/
def e5m2 : Fmt := { eb := 5, mb := 2, bias := 15, top := 0x7B, hasInf := true, nan := 0x7E }

/-- Width of a format in bits. -/
def Fmt.width (f : Fmt) : Nat := f.eb + f.mb + 1

/-- The sign bit's weight. -/
def Fmt.signBit (f : Fmt) : Nat := 2 ^ (f.eb + f.mb)

/-- m × 2^x as a fraction. -/
def scaled (neg : Bool) (m : Nat) (x : Int) : Val :=
  if 0 ≤ x then .fin neg (m * 2 ^ x.toNat) 1 else .fin neg m (2 ^ (-x).toNat)

/-- The value of a code of a format (R127, R128, R139). -/
def Fmt.value (f : Fmt) (code : Nat) : Val :=
  let neg : Bool := code / f.signBit % 2 = 1
  let e := code / 2 ^ f.mb % 2 ^ f.eb
  let m := code % 2 ^ f.mb
  if e = 2 ^ f.eb - 1 && f.hasInf then (if m = 0 then .inf neg else .nan)
  else if !f.hasInf && code % f.signBit = f.nan then .nan
  else if e = 0 then scaled neg m (1 - (f.bias : Int) - f.mb)
  else scaled neg (2 ^ f.mb + m) ((e : Int) - f.bias - f.mb)

/-- ⌊log2 (num / den)⌋ of a positive fraction. -/
def floorLog2 (num den : Nat) : Int :=
  let e : Int := (num.log2 : Int) - (den.log2 : Int)
  let ge : Bool := if 0 ≤ e then den * 2 ^ e.toNat ≤ num else den ≤ num * 2 ^ (-e).toNat
  if ge then e else e - 1

/-- Quotient, remainder and divisor of (num / den) ÷ 2^u. -/
def quotAt (num den : Nat) (u : Int) : Nat × Nat × Nat :=
  let n := num * 2 ^ (-u).toNat
  let d := den * 2 ^ u.toNat
  (n / d, n % d, d)

/-- Whether a magnitude q + r / d rounds up (R136, R138): d discarded bits of R138 are taken as 32
whatever is left, which decides alike. -/
def roundsUp (m : Mode) (q r d : Nat) : Bool := match m with
  | .rne => d < 2 * r || (2 * r = d && q % 2 = 1)
  | .rtz => false
  | .sr w => r ≠ 0 && 2 ^ 32 ≤ r * 2 ^ 32 / d + w / 2 ^ 32

/-- A fraction of a positive divisor rounded to an integer. -/
def roundQuot (m : Mode) (num den : Nat) (u : Int) : Nat × Bool :=
  let (q, r, d) := quotAt num den u
  (if roundsUp m q r d then q + 1 else q, r ≠ 0)

/-- A code with its sign. -/
def Fmt.signed (f : Fmt) (neg : Bool) (code : Nat) : Nat := if neg then f.signBit + code else code

/-- Code of an infinity. -/
def Fmt.inf (f : Fmt) (neg : Bool) : Nat := f.signed neg ((2 ^ f.eb - 1) * 2 ^ f.mb)

/-- The result of a magnitude beyond the largest finite value (R136 step 2), or of an infinite
value (step 3). -/
def Fmt.excess (f : Fmt) (m : Mode) (sat neg infinite : Bool) : Nat × Flags :=
  if sat then
    (f.signed neg f.top, if infinite then flagSAT ||| flagNX else flagSAT ||| flagOF ||| flagNX)
  else if infinite then (if f.hasInf then (f.inf neg, 0) else (f.nan, flagNV))
  else if m = .rtz then (f.signed neg f.top, flagOF ||| flagNX)
  else if f.hasInf then (f.inf neg, flagOF ||| flagNX)
  else (f.nan, flagOF ||| flagNX ||| flagNV)

/-- Rounding into a floating-point format (R136): code and flags. -/
def Fmt.round (f : Fmt) (m : Mode) (sat : Bool) : Val → Nat × Flags
  | .nan => (f.nan, 0)
  | .inf neg => f.excess m sat neg true
  | .fin neg num den =>
    if num = 0 then (f.signed neg 0, 0)
    else
      let umin : Int := 1 - (f.bias : Int) - f.mb
      let u : Int := max (floorLog2 num den - (f.mb : Int)) umin
      let (mag, nx) := roundQuot m num den u
      let code := (u - umin).toNat * 2 ^ f.mb + mag
      if f.top < code then f.excess m sat neg false
      else (f.signed neg code, flagIf nx flagNX ||| flagIf (nx && code < 2 ^ f.mb) flagUF)

/-- RoundFP32 of the glossary (R136): T = FP32, SAT = 0. -/
def roundFP32 (m : Mode) (v : Val) : Word × Flags :=
  let r := fp32.round m false v
  (BitVec.ofNat 32 r.1, r.2)

/-- The value of an FP32 pattern (R246). -/
def f32 (w : Word) : Val := fp32.value w.toNat

/-- The canonical NaN of FP32. -/
def nan32 : Word := 0x7FC00000#32

/-! Exact arithmetic on values. The second component is NV where an operation makes a NaN from
operands none of which is NaN (R139). -/

/-- The value is NaN. -/
def Val.isNan : Val → Bool
  | .nan => true
  | _ => false

/-- The value is a zero. -/
def Val.isZero : Val → Bool
  | .fin _ 0 _ => true
  | _ => false

/-- The sign of a value. -/
def Val.neg : Val → Bool
  | .nan => false
  | .inf n => n
  | .fin n _ _ => n

/-- A value with its sign inverted. -/
def Val.flip : Val → Val
  | .nan => .nan
  | .inf n => .inf !n
  | .fin n a d => .fin (!n) a d

/-- Exact sum of two fractions: a zero sum is −0 only when both are −0 (R142). -/
def addFin (n₁ : Bool) (a₁ d₁ : Nat) (n₂ : Bool) (a₂ d₂ : Nat) : Val :=
  let x := a₁ * d₂
  let y := a₂ * d₁
  let d := d₁ * d₂
  if n₁ = n₂ then .fin n₁ (x + y) d
  else if x = y then .fin false 0 1
  else if y < x then .fin n₁ (x - y) d
  else .fin n₂ (y - x) d

/-- Exact sum. -/
def vadd : Val → Val → Val × Flags
  | .nan, _ | _, .nan => (.nan, 0)
  | .inf a, .inf b => if a = b then (.inf a, 0) else (.nan, flagNV)
  | .inf a, _ | _, .inf a => (.inf a, 0)
  | .fin n₁ a₁ d₁, .fin n₂ a₂ d₂ => (addFin n₁ a₁ d₁ n₂ a₂ d₂, 0)

/-- Exact product. -/
def vmul : Val → Val → Val × Flags
  | .nan, _ | _, .nan => (.nan, 0)
  | .inf a, .inf b => (.inf (a != b), 0)
  | .inf a, .fin b n _ | .fin b n _, .inf a =>
      if n = 0 then (.nan, flagNV) else (.inf (a != b), 0)
  | .fin n₁ a₁ d₁, .fin n₂ a₂ d₂ => (.fin (n₁ != n₂) (a₁ * a₂) (d₁ * d₂), 0)

/-- Exact quotient with the special results of R143. -/
def vdiv : Val → Val → Val × Flags
  | .nan, _ | _, .nan => (.nan, 0)
  | .inf _, .inf _ => (.nan, flagNV)
  | .inf a, .fin b _ _ => (.inf (a != b), 0)
  | .fin a _ _, .inf b => (.fin (a != b) 0 1, 0)
  | .fin n₁ a₁ d₁, .fin n₂ a₂ d₂ =>
      if a₂ = 0 then (if a₁ = 0 then (.nan, flagNV) else (.inf (n₁ != n₂), flagDZ))
      else (.fin (n₁ != n₂) (a₁ * d₂) (d₁ * a₂), 0)

/-- Exact a × b + c; 0 × ∞ sets NV whatever c is (R139, R247). -/
def vfma (a b c : Val) : Val × Flags :=
  let (p, f) := vmul a b
  let (s, g) := vadd p c
  (s, f ||| g)

/-- Ordered comparison a < b of values that are not NaN; −0 equals +0. -/
def vlt : Val → Val → Bool
  | .nan, _ | _, .nan => false
  | .inf a, .inf b => a && !b
  | .inf a, .fin .. => a
  | .fin .., .inf b => !b
  | .fin n₁ a₁ d₁, .fin n₂ a₂ d₂ =>
      let x := a₁ * d₂
      let y := a₂ * d₁
      if x = 0 && y = 0 then false
      else if n₁ && !n₂ then true
      else if !n₁ && n₂ then false
      else if n₁ then y < x
      else x < y

/-- Ordered equality; −0 equals +0. -/
def veq (a b : Val) : Bool := !a.isNan && !b.isNan && !vlt a b && !vlt b a

/-- |a| < |b| for finite and infinite values; a NaN is above every number (R259). -/
def magLt (a b : Val) : Bool := match a, b with
  | .nan, _ => false
  | _, .nan => true
  | .inf _, _ => false
  | .fin .., .inf _ => true
  | .fin _ a₁ d₁, .fin _ a₂ d₂ => a₁ * d₂ < a₂ * d₁

/-! FP32 operations (R142, R143, R247 to R249): result pattern and flags. -/

/-- One rounding of an exact result, with the flags that forming it raised. -/
def finish32 (r : Val × Flags) : Word × Flags :=
  let (w, f) := roundFP32 .rne r.1
  (w, r.2 ||| f)

/-- FADD. -/
def fAdd (a b : Word) : Word × Flags := finish32 (vadd (f32 a) (f32 b))
/-- FSUB. -/
def fSub (a b : Word) : Word × Flags := finish32 (vadd (f32 a) (f32 b).flip)
/-- FMUL. -/
def fMul (a b : Word) : Word × Flags := finish32 (vmul (f32 a) (f32 b))
/-- FFMA. -/
def fFma (a b c : Word) : Word × Flags := finish32 (vfma (f32 a) (f32 b) (f32 c))
/-- FDIV. -/
def fDiv (a b : Word) : Word × Flags := finish32 (vdiv (f32 a) (f32 b))

/-- minimumNumber (R142): one NaN yields the other operand, −0 is below +0. -/
def fMin (a b : Word) : Word :=
  if (f32 a).isNan then (if (f32 b).isNan then nan32 else b)
  else if (f32 b).isNan then a
  else if vlt (f32 a) (f32 b) then a
  else if vlt (f32 b) (f32 a) then b
  else if (f32 a).neg then a else b

/-- maximumNumber (R142). -/
def fMax (a b : Word) : Word :=
  if (f32 a).isNan then (if (f32 b).isNan then nan32 else b)
  else if (f32 b).isNan then a
  else if vlt (f32 a) (f32 b) then b
  else if vlt (f32 b) (f32 a) then a
  else if (f32 a).neg then b else a

/-- Rounding of a fraction to an integer in a mode of FROUND and F2I (R170). -/
def roundInt (m : Nat) (neg : Bool) (num den : Nat) : Nat × Bool :=
  let q := num / den
  let r := num % den
  let up : Bool := match m with
    | 0 => den < 2 * r || (2 * r = den && q % 2 = 1)
    | 1 => false
    | 2 => neg && r ≠ 0
    | _ => !neg && r ≠ 0
  (if up then q + 1 else q, r ≠ 0)

/-- Integer square root by bits, `fuel` bits from the top. -/
def isqrtGo : Nat → Nat → Nat → Nat
  | 0, _, r => r
  | k + 1, n, r =>
    let c := r + 2 ^ k
    isqrtGo k n (if c * c ≤ n then c else r)

/-- ⌊√n⌋. -/
def isqrt (n : Nat) : Nat := isqrtGo (n.log2 / 2 + 1) n 0

/-- √(num / den) to far more bits than FP32 has, with one sticky bit when it is not exact. -/
def sqrtFrac (num den : Nat) : Val :=
  let s := den.log2 + 200
  let n := num * 2 ^ (2 * s)
  let r := isqrt (n / den)
  if r * r * den = n then .fin false r (2 ^ s) else .fin false (2 * r + 1) (2 ^ (s + 1))

/-- FSQRT (R143). -/
def fSqrt (a : Word) : Word × Flags := match f32 a with
  | .nan => (nan32, 0)
  | .inf neg => if neg then (nan32, flagNV) else (a, 0)
  | .fin neg num den =>
    if num = 0 then (a, 0) else if neg then (nan32, flagNV) else finish32 (sqrtFrac num den, 0)

/-- FRSQ (R143). -/
def fRsq (a : Word) : Word × Flags := match f32 a with
  | .nan => (nan32, 0)
  | .inf neg => if neg then (nan32, flagNV) else (0, 0)
  | .fin neg num den =>
    if num = 0 then (BitVec.ofNat 32 (fp32.inf neg), flagDZ)
    else if neg then (nan32, flagNV) else finish32 (sqrtFrac den num, 0)

/-- FRCP (R143). -/
def fRcp (a : Word) : Word × Flags := finish32 (vdiv (.fin false 1 1) (f32 a))

/-- Fraction bits of the fixed-point sums below. -/
def fixBits : Nat := 420

/-- ⌊π × 2^420⌋. -/
def fixPi : Nat := 0x3243f6a8885a308d313198a2e03707344a4093822299f31d0082efa98ec4e6c89452821e638d01377be5466cf34e90c6cc0ac29b7c

/-- ⌊ln 2 × 2^420⌋. -/
def fixLn2 : Nat := 0xb17217f7d1cf79abc9e3b39803f2f6af40f343267298b62d8a0d175b8baafa2be7b876206debac98559552fb4afa1b10ed2eae35c

/-- Σ t·z^k / k! in fixed point from term k on: the exponential series. -/
def expGo : Nat → Nat → Nat → Nat → Nat → Nat
  | 0, _, _, _, acc => acc
  | n + 1, z, k, t, acc => expGo n z (k + 1) (t * z / 2 ^ fixBits / (k + 1)) (acc + t)

/-- e^z of a fixed-point z below 1. -/
def fixExp (z : Nat) : Nat := expGo 110 z 0 (2 ^ fixBits) 0

/-- Σ z^(2k+1) / (2k+1): the series of atanh, t the current power of z. -/
def atanhGo : Nat → Nat → Nat → Nat → Nat → Nat
  | 0, _, _, _, acc => acc
  | n + 1, z2, k, t, acc => atanhGo n z2 (k + 2) (t * z2 / 2 ^ fixBits) (acc + t / k)

/-- Alternating series of cos (k even) or sin (k odd): positive and negative sums. -/
def trigGo : Nat → Nat → Nat → Nat → Nat × Nat → Nat × Nat
  | 0, _, _, _, acc => acc
  | n + 1, z2, k, t, (p, q) =>
    trigGo n z2 (k + 2) (t * z2 / 2 ^ fixBits / ((k + 1) * (k + 2))) (q, p + t)

/-- A fixed-point magnitude that is not exact, as a value between two multiples of its last bit. -/
def sticky (neg : Bool) (f : Nat) : Val := .fin neg (2 * f + 1) (2 ^ (fixBits + 1))

/-- A value scaled by a power of two. -/
def Val.scale2 (v : Val) (x : Int) : Val := match v with
  | .fin n a d => if 0 ≤ x then .fin n (a * 2 ^ x.toNat) d else .fin n a (d * 2 ^ (-x).toNat)
  | v => v

/-- 2^(num / den), with sign (R249): the exponent is split into an integer and a fraction. -/
def exp2Frac (neg : Bool) (num den : Nat) : Val :=
  let q := num / den
  let r := num % den
  let (n, f) : Int × Nat := if r = 0 then (if neg then -(q : Int) else q, 0)
    else if neg then (-(q : Int) - 1, den - r) else (q, r)
  let n := max (min n 200) (-200)
  if f = 0 then scaled false 1 n
  else (sticky false (fixExp (f * fixLn2 / den))).scale2 n

/-- FEXP2 (R143). -/
def fExp2 (a : Word) : Word × Flags := match f32 a with
  | .nan => (nan32, 0)
  | .inf neg => if neg then (0, 0) else (a, 0)
  | .fin neg num den => finish32 (exp2Frac neg num den, 0)

/-- log2 (num / den) of a positive fraction (R249): exponent, then ln of the significand. -/
def log2Frac (num den : Nat) : Val :=
  let e := floorLog2 num den
  let (m, d) := if 0 ≤ e then (num, den * 2 ^ e.toNat) else (num * 2 ^ (-e).toNat, den)
  if m = d then .fin (e < 0) e.natAbs 1
  else
    let z := (m - d) * 2 ^ fixBits / (m + d)
    let l := 2 * atanhGo 140 (z * z / 2 ^ fixBits) 1 z 0 * 2 ^ fixBits / fixLn2
    let s : Int := e * 2 ^ fixBits + l
    if 0 ≤ s then sticky false s.toNat else sticky true ((-s).toNat - 1)

/-- FLOG2 (R143). -/
def fLog2 (a : Word) : Word × Flags := match f32 a with
  | .nan => (nan32, 0)
  | .inf neg => if neg then (nan32, flagNV) else (a, 0)
  | .fin neg num den =>
    if num = 0 then (BitVec.ofNat 32 (fp32.inf true), flagDZ)
    else if neg then (nan32, flagNV)
    else if num = den then (0, 0)
    else finish32 (log2Frac num den, 0)

/-- sin (turns) of a fraction f / d of a quarter turn with 0 < f < d, and the cosine beside it. -/
def quarterTrig (f d : Nat) : Nat × Nat :=
  let z := fixPi / 2 * f / d
  let z2 := z * z / 2 ^ fixBits
  let s := trigGo 120 z2 1 z (0, 0)
  let c := trigGo 120 z2 0 (2 ^ fixBits) (0, 0)
  (s.1 - s.2, c.1 - c.2)

/-- sin 2πx or cos 2πx of x = ±num / den (R143, R249). -/
def trigFrac (cos neg : Bool) (num den : Nat) : Val :=
  let r := num % den * 4
  let k := r / den
  let f := r % den
  if f = 0 then
    if cos then (match k with
      | 0 => .fin false 1 1
      | 2 => .fin true 1 1
      | _ => .fin false 0 1)
    else (match k with
      | 1 => .fin neg 1 1
      | 3 => .fin (!neg) 1 1
      | _ => .fin neg 0 1)
  else
    let (s, c) := quarterTrig f den
    if cos then (match k with
      | 0 => sticky false c
      | 1 => sticky true s
      | 2 => sticky true c
      | _ => sticky false s)
    else (match k with
      | 0 => sticky neg s
      | 1 => sticky neg c
      | 2 => sticky (!neg) s
      | _ => sticky (!neg) c)

/-- FSIN (cos false) and FCOS. -/
def fTrig (cos : Bool) (a : Word) : Word × Flags := match f32 a with
  | .nan => (nan32, 0)
  | .inf _ => (nan32, flagNV)
  | .fin neg num den => finish32 (trigFrac cos neg num den, 0)

/-! Slots and storage formats (R126, R129 to R135, R140). -/

/-- A slot's storage type (R126). -/
inductive SlotTy | fp32 | fp16 | bf16 | e4m3 | e5m2 | int8 | int4 | sxm2 | sxm4 | sxm7
deriving DecidableEq, Repr

/-- The type code of FSn<3:0> (R126); a reserved code never reaches a slot (R49). -/
def slotTyOf : Nat → SlotTy
  | 0 => .fp32 | 1 => .fp16 | 2 => .bf16 | 3 => .e4m3 | 4 => .e5m2 | 5 => .int8 | 6 => .int4
  | 7 => .sxm2 | 8 => .sxm4 | _ => .sxm7

/-- The floating-point format of a type. -/
def SlotTy.fmt : SlotTy → Option Fmt
  | .fp32 => some Machine.fp32
  | .fp16 => some Machine.fp16
  | .bf16 => some Machine.bf16
  | .e4m3 => some Machine.e4m3
  | .e5m2 => some Machine.e5m2
  | _ => none

/-- Fraction bits b of a shared-exponent type (R130); 0 for the others. -/
def SlotTy.block : SlotTy → Nat
  | .sxm2 => 2
  | .sxm4 => 4
  | .sxm7 => 7
  | _ => 0

/-- Storage bits of one element; a block's elements have no bits of their own. -/
def SlotTy.bits : SlotTy → Nat
  | .fp32 => 32
  | .fp16 | .bf16 => 16
  | .e4m3 | .e5m2 | .int8 => 8
  | .int4 => 4
  | _ => 0

/-- Bytes of a block (R126). -/
def SlotTy.blockBytes (t : SlotTy) : Nat := 2 * (t.block + 1) + 2

/-- Bytes that n elements take (R126). -/
def SlotTy.bytes (t : SlotTy) (n : Nat) : Nat :=
  if t.block ≠ 0 then n / 16 * t.blockBytes else (n * t.bits + 7) / 8

/-- The value of an element of a type that has elements of its own (R127 to R129). -/
def SlotTy.value (t : SlotTy) (code : Nat) : Val := match t.fmt with
  | some f => f.value code
  | none =>
    let w := t.bits
    let c := code % 2 ^ w
    if 2 ^ (w - 1) ≤ c then .fin true (2 ^ w - c) 1 else .fin false c 1

/-- A two's-complement number of w bits as an exact integer. -/
def sxInt (w c : Nat) : Int := if 2 ^ (w - 1) ≤ c then (c : Int) - 2 ^ w else c

/-- The value of element i of a block given as one number (R130, R131). -/
def blockValue (b blk i : Nat) : Val :=
  let e := blk % 256
  let sg := blk / 2 ^ (8 + 2 * (i / 4)) % 4
  let n := sxInt (b + 1) (blk / 2 ^ (16 + i * (b + 1)) % 2 ^ (b + 1))
  if e = 255 then .nan
  else if n = 0 then .fin false 0 1
  else scaled (n < 0) n.natAbs ((e : Int) - 126 - sg - b)

/-- A slot scale is valid when it is a positive normal FP32 value (R134). -/
def scaleOk (s : Word) : Bool := 0x00800000 ≤ s.toNat && s.toNat ≤ 0x7F7FFFFF

/-- Conversion of an exact value into INT8 or INT4 (R140), w bits: code and flags. -/
def roundToInt (w : Nat) (m : Mode) (sat : Bool) : Val → Nat × Flags
  | .nan => (0, flagNV)
  | .inf neg =>
    if sat then (if neg then 2 ^ (w - 1) else 2 ^ (w - 1) - 1, flagNV ||| flagSAT) else (0, flagNV)
  | .fin neg num den =>
    let (q, nx) := roundQuot m num den 0
    let out : Bool := if neg then 2 ^ (w - 1) < q else 2 ^ (w - 1) ≤ q
    if out then
      if sat then (if neg then 2 ^ (w - 1) else 2 ^ (w - 1) - 1, flagNV ||| flagSAT)
      else ((if neg then 2 ^ w - q % 2 ^ w else q) % 2 ^ w, flagNV)
    else ((if neg then 2 ^ w - q else q) % 2 ^ w, flagIf nx flagNX)

/-- Encoding of an exact quotient q into a type with elements of its own (R136, R140). -/
def SlotTy.encode (t : SlotTy) (m : Mode) (sat : Bool) (q : Val) : Nat × Flags := match t.fmt with
  | some f => f.round m sat q
  | none => roundToInt t.bits m sat q

/-- What a conversion into a slot with an invalid scale produces (R134). -/
def SlotTy.invalid (t : SlotTy) : Nat := match t.fmt with
  | some f => f.nan
  | none => 0

/-- Round(x, σ) of R132: the element as a signed integer, and whether bits were lost. -/
def blockRound (b : Nat) (m : Mode) (e sg : Int) : Val → Int × Bool
  | .fin neg num den =>
    let (q, nx) := roundQuot m num den (e - 126 - sg - b)
    (if neg then -(q : Int) else q, nx)
  | _ => (0, false)

/-- The rounded element fits (R132). -/
def blockFits (b : Nat) (n : Int) : Bool := -(2 ^ b : Int) ≤ n && n < 2 ^ b

/-- The largest σ from 3 down to 0 at which four elements fit; 0 when none does (R132 step 6). -/
def quadShift (b : Nat) (e : Int) (qs : List (Val × Mode)) : Nat → Nat
  | 0 => 0
  | s + 1 => if qs.all (fun x => blockFits b (blockRound b x.2 e (s + 1 : Nat) x.1).1) then s + 1
      else quadShift b e qs s

/-- Steps 6 to 8 of R132 from exponent e: exponent, shifts, elements with their loss, and whether an
element was clamped; none for a NaN block. A clamped element counts among those that lost bits (DESIGN CHOICE, log
entry 111). -/
def blockTry (b : Nat) (sat : Bool) (qs : List (Val × Mode)) :
    Nat → Int → Option (Int × List Nat × List (Int × Bool) × Bool)
  | 0, _ => none
  | fuel + 1, e =>
    let quads := [qs.take 4, (qs.drop 4).take 4, (qs.drop 8).take 4, (qs.drop 12).take 4]
    let sh := quads.map fun q => quadShift b e q 3
    let ns := ((quads.zip sh).map fun (q, s) => q.map fun x => blockRound b x.2 e s x.1).flatten
    if ns.all (fun n => blockFits b n.1) then some (e, sh, ns, false)
    else if e < 254 then blockTry b sat qs fuel (e + 1)
    else if sat then
      some (e, sh, ns.map (fun n => if blockFits b n.1 then n
        else (if n.1 < 0 then -(2 ^ b : Int) else 2 ^ b - 1, true)), true)
    else none

/-- The block's bits from exponent, shifts and elements (R130). -/
def blockBits (b : Nat) (e : Nat) (sh : List Nat) (ns : List Int) : Nat :=
  e + (sh.zipIdx.map fun (s, q) => s * 2 ^ (8 + 2 * q)).sum
    + (ns.zipIdx.map fun (n, i) => (n % (2 ^ (b + 1) : Int)).toNat * 2 ^ (16 + i * (b + 1))).sum

/-- The largest magnitude of a list of values. -/
def maxMag (qs : List Val) : Val := qs.foldl (fun a v => if magLt a v then v else a) (.fin false 0 1)

/-- R132: sixteen exact quotients, each with its rounding mode, to one block and flags. An element that a clamp
changed, an infinity too, sets NX beside SAT (DESIGN CHOICE, log entry 111). -/
def encodeBlock (b : Nat) (sat : Bool) (qs : List (Val × Mode)) : Nat × Flags :=
  let isInf : Val → Bool := fun v => match v with
    | .inf _ => true
    | _ => false
  if qs.any (fun x => x.1.isNan) then (255, 0)
  else if qs.any (fun x => isInf x.1) && !sat then (255, flagNV)
  else
    let hadInf := qs.any (fun x => isInf x.1)
    let qs := qs.map fun x => (match x.1 with
      | .inf n => Val.fin n (2 ^ 254) 1
      | v => v, x.2)
    match maxMag (qs.map (·.1)) with
    | .fin _ num den =>
      if num = 0 then (blockBits b 0 [3, 3, 3, 3] (List.replicate 16 0), 0)
      else
        let e := max (floorLog2 num den + 127) 0
        if 254 < e && !sat then (255, flagNV)
        else match blockTry b sat qs 300 (min e 254) with
          | none => (255, flagNV)
          | some (e, sh, ns, clamped) =>
            (blockBits b e.toNat sh (ns.map (·.1)),
              flagIf (ns.any (·.2) || hadInf) flagNX ||| flagIf clamped flagSAT)
    | _ => (255, 0)

/-! Random words (R137). -/

/-- Mix64 (R137). -/
def mix64 (z : Nat) : Nat :=
  let z := (z ^^^ (z / 2 ^ 30)) * 0xBF58476D1CE4E5B9 % 2 ^ 64
  let z := (z ^^^ (z / 2 ^ 27)) * 0x94D049BB133111EB % 2 ^ 64
  z ^^^ (z / 2 ^ 31)

/-- W(n) under key K (R137). -/
def randomWord (key n : Nat) : Nat := mix64 ((key + n * 0x9E3779B97F4A7C15) % 2 ^ 64)

/-- K of R137. -/
def randomKey (jseed : DWord) (lcore tid : Word) : DWord :=
  jseed ^^^ (lcore.setWidth 64 <<< 32) ^^^ tid.setWidth 64

/-- The mode of FSn<5:4> with the random word of the n-th rounded value (R133, R136, R138). -/
def slotMode (fs : Word) (key n : Nat) : Mode := match fs.toNat / 16 % 4 with
  | 0 => .rne
  | 1 => .rtz
  | _ => .sr (randomWord key n)

/-- The slot rounds stochastically. -/
def slotStochastic (fs : Word) : Bool := fs.toNat / 16 % 4 = 2

/-- FSn.SAT. -/
def slotSat (fs : Word) : Bool := fs.toNat / 64 % 2 = 1

/-- FSn.TYPE. -/
def slotTy (fs : Word) : SlotTy := slotTyOf (fs.toNat % 16)

end Sys2Proof.Machine
end

