-- ==== Sys2Proof/Syntax.lean ====
section
/-! DEFINITION. The operations of the Vilpepel 9400: one constructor per row of
spec/opcode_table.json. The first part holds the instructions of LPI with the fields of their words
and prefixes (R149 to R173 of spec/06_encoding_and_assembly.md); the second part holds the steps of
the device's other agents, with arguments that say which instance takes the step. -/

namespace Sys2Proof

/-- Integer type of a kind 0 prefix's TY field (R157). -/
inductive Ty | s32 | n32 | s64 | n64 | s16 | n16 | s8 | n8
deriving DecidableEq, Repr

/-- Ordering kind of a kind 0 prefix (R157). -/
inductive Ord | rlx | acq | rel | ar
deriving DecidableEq, Repr

/-- Scope of a kind 0 prefix; dflt is the instruction's default scope (R7, R157, R160). -/
inductive Scope | dflt | grp | blk | clu | die | dev | sys
deriving DecidableEq, Repr

/-- Ordering kind and scope of an access (R110). -/
structure MemOrd where
  ord   : Ord := .rlx
  scope : Scope := .dflt
deriving DecidableEq, Repr

/-- Condition of CMP and CMPI (R171). -/
inductive Cond | eq | ne | lt | le | gt | ge
deriving DecidableEq, Repr

/-- Condition of FCMP (R171). -/
inductive FCond | eq | ne | lt | le | gt | ge | un | or
deriving DecidableEq, Repr

/-- Rounding-mode field of FROUND and F2I (R170). -/
inductive RMode | rn | rz | rd | ru
deriving DecidableEq, Repr

/-- The sz field of loads and stores (R153). -/
inductive Size | b | h | w | d | q | o | s8 | s16
deriving DecidableEq, Repr

/-- The sz field of LDGS (R153). -/
inductive GSize | w | d | q | o | l
deriving DecidableEq, Repr

/-- The size code of LDT (R168). -/
inductive TkSize | w | d | q | o | v
deriving DecidableEq, Repr

/-- The operation of an atomic (R169). -/
inductive AtomOp | add | addF32 | min | max | and | or | xor | swap | cas
deriving DecidableEq, Repr

/-- The structured-sparsity pattern of PRUNE and MMAS (R170, R159). -/
inductive Pattern | k2of4 | k1of4 | k4of8 | k2of8
deriving DecidableEq, Repr

/-- The pointer addressing modes (R167): an offset in units of the size, post-increment, and a
pre-increment by a register. -/
inductive PtrMode
  | off (o : BitVec 34)
  | inc
  | idx (f : Field)
deriving DecidableEq, Repr

/-- The array hit by an uncorrectable error and the place in it (R358, R360, R389). -/
inductive ErrSite
  /-- Absolute x register n of thread t of group g. -/
  | xReg (g t n : Nat)
  /-- Absolute k register n of group g. -/
  | kReg (g n : Nat)
  /-- The PC or slot state of thread t of group g, or else its XWB, STATUS, FPSTAT, a p or a c register. -/
  | threadState (g t : Nat) (pc : Bool)
  /-- Of group g: mask n for n from 0 to 11, KWB for 12, and an arrival set, credit or start index above. -/
  | groupState (g n : Nat)
  /-- The SPM line of a block. -/
  | spmLine (blk line : Nat)
  /-- Word w of bank b of an engine's AM. -/
  | amWord (e w : Nat)
  /-- A 512-byte granule of an engine's WB. -/
  | wbGranule (e gr : Nat)
  /-- Word wa of a cluster's L1 data array. -/
  | l1Data (c wa : Nat)
  /-- The lines of one set of a cluster's L1 tag array, by a line address in it. -/
  | l1Tag (c line : Nat)
  /-- An L2 word. -/
  | l2Data (wa : Nat)
  /-- A word of HBM4. -/
  | hbm (wa : Nat)
  /-- The directory entry of a line. -/
  | directory (line : Nat)
  /-- The payload of ticket-table entry k of a slice. -/
  | ticketPayload (slice entry : Nat)
  /-- Generation, owner, state or END of a ticket-table entry. -/
  | ticketMeta (slice entry : Nat)
  /-- A microword of a control store: of the request n of a texture or traversal unit, of the next primitive of
  bin block n (kind 0), or of its next pixel write (kind 1). -/
  | controlStore (kind n : Nat)
  /-- Storage of the entry at place n of a copy queue. -/
  | copyEntry (q n : Nat)
  /-- Entry n of the scatter buffers. -/
  | scatter (n : Nat)
  /-- An RCB in the cache of die d's scheduler. -/
  | rcbCache (d rcb : Nat)
  /-- AM handle table, proofer arming, Stitcher request or dependence-table entry of a region, in a unit. -/
  | regionTable (unit rcb : Nat)
  /-- An L0, TLB or clean word: dropped or fetched again. -/
  | refetched
deriving DecidableEq, Repr

/-- The operations, one constructor per row of the opcode table. -/
inductive Instr
  -- integer R group, major 0x01 (R162, R188, R189)
  | add (ty : Ty) (d a b : Field)
  | sub (ty : Ty) (d a b : Field)
  | mul (ty : Ty) (d a b : Field)
  | mulhi (ty : Ty) (d a b : Field)
  | mad (ty : Ty) (d a b : Field)
  | div (ty : Ty) (d a b : Field)
  | rem (ty : Ty) (d a b : Field)
  | min (ty : Ty) (d a b : Field)
  | max (ty : Ty) (d a b : Field)
  | abs (ty : Ty) (d a : Field)
  | neg (ty : Ty) (d a : Field)
  | and (ty : Ty) (d a b : Field)
  | or (ty : Ty) (d a b : Field)
  | xor (ty : Ty) (d a b : Field)
  | andn (ty : Ty) (d a b : Field)
  | shl (ty : Ty) (d a b : Field)
  | shr (ty : Ty) (d a b : Field)
  | sar (ty : Ty) (d a b : Field)
  | fshl (ty : Ty) (d a b : Field)
  | fshr (ty : Ty) (d a b : Field)
  | popc (ty : Ty) (d a : Field)
  | clz (ty : Ty) (d a : Field)
  | ctz (ty : Ty) (d a : Field)
  | brev (ty : Ty) (d a : Field)
  | bfx (ty : Ty) (d a b : Field)
  | bfi (ty : Ty) (d a b : Field)
  | sext (ty : Ty) (d a : Field)
  | zext (ty : Ty) (d a : Field)
  | sel (ty : Ty) (d a b : Field) (c : BitVec 3)
  | mov (ty : Ty) (d a : Field)
  | lea (ty : Ty) (d a b : Field)
  | cmp (ty : Ty) (cc : Cond) (c : BitVec 3) (a b : Field)
  -- immediate forms, majors 0x02 to 0x0C (R190, R191)
  | addi (d a : Field) (imm : Word)
  | andi (d a : Field) (imm : Word)
  | ori (d a : Field) (imm : Word)
  | xori (d a : Field) (imm : Word)
  | shli (d a : Field) (n : BitVec 5)
  | shri (d a : Field) (n : BitVec 5)
  | sari (d a : Field) (n : BitVec 5)
  | cmpi (ty : Ty) (cc : Cond) (c : BitVec 3) (a : Field) (imm : Word)
  | movi (d : Field) (imm : Word)
  | movhi (d : Field) (h : BitVec 13)
  | addpc (d : Field) (off : BitVec 44)
  | lut3 (table : BitVec 8) (d a b : Field)
  -- transfers and control, majors 0x18 to 0x1E (R193 to R203)
  | bra (off : BitVec 48)
  | brc (c : BitVec 3) (off : BitVec 48)
  | brcNot (c : BitVec 3) (off : BitVec 48)
  | call (off : BitVec 48)
  | jmpr (a : Field)
  | callr (a : Field)
  | ret
  | exit
  | yield
  | fork (d a b : Field)
  | join (a : Field)
  | setwb (n : BitVec 5)
  | setkb (n : BitVec 3)
  | mjoin (m : BitVec 4)
  | mleave (m : BitVec 4)
  | mwait (m : BitVec 4)
  | mread (d : Field) (m : BitVec 4)
  | mwrite (m : BitVec 4) (a : Field)
  | voteAny (d a : BitVec 3)
  | voteAll (d a : BitVec 3)
  | voteBallot (d : Field) (a : BitVec 3)
  | shflIdx (d a b : Field)
  | shflUp (d a b : Field)
  | shflDown (d a b : Field)
  | shflXor (d a b : Field)
  | plop (d a b : BitVec 3) (table : BitVec 4)
  | bmov (d a b : Field)
  | bfill (d a b : Field)
  | migr (id : BitVec 12)
  -- loads and stores, majors 0x20 to 0x27 (R217 to R220)
  | ld (mo : MemOrd) (d a : Field) (off : BitVec 34) (sz : Size)
  | st (mo : MemOrd) (d a : Field) (off : BitVec 34) (sz : Size)
  | lds (mo : MemOrd) (d a : Field) (off : BitVec 34) (sz : Size)
  | sts (mo : MemOrd) (d a : Field) (off : BitVec 34) (sz : Size)
  | ldPointer (mo : MemOrd) (d : Field) (spm : Bool) (mode : PtrMode) (n : BitVec 3) (sz : Size)
  | stPointer (mo : MemOrd) (d : Field) (spm : Bool) (mode : PtrMode) (n : BitVec 3) (sz : Size)
  | ldPf (mo : MemOrd) (mode : PtrMode) (n : BitVec 3) (sz : Size)
  | ldc (mo : MemOrd) (d a : Field) (off : BitVec 34) (sz : Size)
  | ldgs (mo : MemOrd) (d a : Field) (off : BitVec 34) (sz : GSize)
  -- queue, barrier, mailbox and launch group, major 0x28 (R221 to R229, R235 to R245)
  | waitf (a : Field)
  | sete (a : Field)
  | acpy (mo : MemOrd) (q : BitVec 2) (a : Field)
  | qjoin (qs : BitVec 4)
  | qwait (q : BitVec 2) (a : Field)
  | fence (mo : MemOrd)
  | bara (a : Field)
  | baraTx (a b : Field)
  | barw (a b : Field)
  | msend (n : BitVec 4) (a b : Field)
  | mrecv (d a : Field)
  | mfree (a : Field)
  | launch (a : Field)
  | stitch (nr : BitVec 4) (na1 : BitVec 3) (a b : Field)
  | pfarm (a : Field)
  | pfstop (a : Field)
  | cflush (a : Field)
  -- tickets, major 0x29 (R230 to R232)
  | ldt (mo : MemOrd) (d a : Field) (sz : TkSize)
  | rdm (d a : Field)
  | rdmSpm (d a : Field)
  | tkdrop (a : Field)
  -- atomics, majors 0x2A and 0x2B (R233)
  | atom (mo : MemOrd) (ty : Ty) (op : AtomOp) (d a b : Field)
  | atomSpm (mo : MemOrd) (ty : Ty) (op : AtomOp) (d a b : Field)
  | red (mo : MemOrd) (ty : Ty) (op : AtomOp) (a b : Field)
  | redSpm (mo : MemOrd) (ty : Ty) (op : AtomOp) (a b : Field)
  -- vector groups, majors 0x2C to 0x30 (R246 to R259)
  | fadd (d a b : Field)
  | fsub (d a b : Field)
  | fmul (d a b : Field)
  | ffma (d a b : Field)
  | fmin (d a b : Field)
  | fmax (d a b : Field)
  | fabs (d a : Field)
  | fneg (d a : Field)
  | fcmp (cc : FCond) (c : BitVec 3) (a b : Field)
  | fclass (d a : Field)
  | fround (m : RMode) (d a : Field)
  | fdiv (d a b : Field)
  | frcp (d a : Field)
  | frsq (d a : Field)
  | fsqrt (d a : Field)
  | fexp2 (d a : Field)
  | flog2 (d a : Field)
  | fsin (d a : Field)
  | fcos (d a : Field)
  | f2i (ty : Ty) (m : RMode) (d a : Field)
  | i2f (ty : Ty) (d a : Field)
  | cvtTo (d a : Field) (s : BitVec 3)
  | cvtFrom (d a : Field) (s : BitVec 3)
  | pack (d a : Field) (s : BitVec 3)
  | unpk (d a : Field) (s : BitVec 3)
  | hadd2F16 (d a b : Field)
  | hmul2F16 (d a b : Field)
  | hfma2F16 (d a b : Field)
  | hadd2Bf16 (d a b : Field)
  | hmul2Bf16 (d a b : Field)
  | hfma2Bf16 (d a b : Field)
  | dot4 (s : BitVec 3) (d a b : Field)
  | dot4S8 (d a b : Field)
  | cdet (d a : Field)
  | scanIncF32 (d a : Field)
  | scanExcF32 (d a : Field)
  | scanIncS32 (d a : Field)
  | scanExcS32 (d a : Field)
  | merge (d a b : Field)
  | mergeKz (d a b : Field)
  | prune (p : Pattern) (s : BitVec 3) (d a : Field)
  -- matrix, majors 0x34 to 0x37 (R260 to R275)
  | mma (sa sb : BitVec 3) (h a b : Field) (t : BitVec 10)
  | mmaR (sa sb : BitVec 3) (h a b : Field) (t : BitVec 10)
  | mmas (sa sb : BitVec 3) (p : Pattern) (h a b e : Field) (t : BitVec 10)
  | amalloc (d a : Field)
  | amfree (a : Field)
  | amshape (a b : Field)
  | amrd (d a b : Field)
  | amwr (d a b : Field)
  | amzero (a b : Field)
  | amdrain (d a b : Field)
  | amdrainAdd (d a b : Field)
  | wbld (mo : MemOrd) (s : BitVec 3) (d a b : Field)
  | mq (mo : MemOrd) (d a : Field)
  | lrset (l : BitVec 3) (a : Field)
  | mqwait (a : Field)
  -- texture, hash grid, raster, control store, majors 0x3B and 0x3C (R283, R293 to R308)
  | tex (d a b : Field)
  | tld (d a b : Field)
  | tgath (d a b : Field)
  | hgf (d a b : Field)
  | hgs (mo : MemOrd) (d a b : Field)
  | hgsDet (mo : MemOrd) (d a b : Field)
  | hgsfence
  | trav (d a b : Field)
  | rscb
  | rsce
  | pixout (flags : BitVec 2) (d a : Field)
  | csld (a : Field)
  | csrel (a : Field)
  -- system, major 0x3D (R197, R198, R209)
  | csrr (d : Field) (n : BitVec 9)
  | csrw (n : BitVec 9) (a : Field)
  | svc (code : BitVec 9)
  | eret
  | bkpt (code : BitVec 9)
  -- faults and failures of threads (R391, R378, R351)
  | illegalOp
  | replyTrap (g t : Nat)
  | trapAreaTimeout (rcb : Nat)
  -- supervisor commands at the head of a die's queue (R312)
  | register (die : Nat)
  | retire (die : Nat)
  | preempt (die : Nat)
  | shoot (die : Nat)
  | image (die : Nat)
  | peer (die : Nat)
  | launchCommand (die : Nat)
  -- management core (R321)
  | attestationReportWritten (die : Nat)
  -- region scheduler (R48, R65, R69, R71, R81, R85, R361, R365, R386)
  | launchArrival (inbox : Nat)
  | periodicReading (die : Nat)
  | decrementReading (die : Nat)
  | blockPlacement (die : Nat)
  | swarmBlockPlacement (die : Nat)
  | restore (die : Nat)
  | blockCompletion (blk : Nat)
  | preemptionCheck (blk : Nat)
  | saveComplete (blk : Nat)
  | flushComplete (blk : Nat)
  | budgetHold (rcb : Nat)
  | retireSweep (rcb : Nat)
  -- issue scheduling (R32, R72) and matrix units (R75, R145, R273)
  | activeTimeout (g : Nat)
  | groupReady (g : Nat)
  | contextSwitch (core : Nat)
  | matrixTurn (e : Nat)
  | quarterOperation (e : Nat)
  | sequencerItem (e : Nat)
  -- Stitcher and migration (R53, R57)
  | stwaitExpiry (c target : Nat)
  | stitchedGroupStart (c : Nat)
  | migrationMove (g t : Nat)
  -- translation and placement of pages (R88, R92, R95, R97)
  | pageWalk (k : Nat)
  | shootdownComplete (k : Nat)
  | kneaderEpochEnd (die : Nat)
  | pageMoveComplete (k : Nat)
  | pageMoveAbandon (k : Nat)
  -- copy queues and asynchronous writers (R216, R226 to R228)
  | copyEntry (q : Nat)
  | joinMarker (m : Nat)
  | multicastCredit (q : Nat)
  | elementLanding (k n : Nat)
  | entryCompletion (q : Nat)
  -- proofers, weight-buffer loader (R242, R243, R269)
  | prooferInstanceStart (k : Nat)
  | prooferWatchdog (g : Nat)
  | wbLoaderEntry (e : Nat)
  -- tickets (R383, R385)
  | ageSweep (slice : Nat)
  -- microcoded requests (R281)
  | microcodeRequest (k : Nat)
  | microcodeWatchdog (k : Nat)
  -- raster bins (R289, R291, R292, R294, R404)
  | binStart (blk : Nat)
  | primitive (blk : Nat)
  | pixelGroupStart (blk : Nat)
  | pixelWrite (blk : Nat)
  | sectionWatchdog (g t : Nat)
  -- boot (R320, R412)
  | dieRelease (die : Nat)
  -- messages in flight, by place n: coherence (R97, R102 to R108, R123, R379)
  | gets (n : Nat)
  | geto (n : Nat)
  | data (n : Nat)
  | grant (n : Nat)
  | inv (n : Nat)
  | iack (n : Nat)
  | recallMsg (n : Nat)
  | wb (n : Nat)
  | wback (n : Nat)
  | atomMessage (n : Nat)
  | atomr (n : Nat)
  | retry (n : Nat)
  | storeFailure (n : Nat)
  -- uncached accesses, and stores that reach device-register pages (R90, R275, R284, R311, R321)
  | uncachedAccess (n : Nat)
  | freeq (n : Nat)
  | seqCmdMma (n : Nat)
  | seqCmdAmzero (n : Nat)
  | seqCmdAmdrain (n : Nat)
  | seqCmdAmdrainAdd (n : Nat)
  | draw (n : Nat)
  | nonce (n : Nat)
  | deviceRegisterWrite (n : Nat)
  -- atomics of agents, tickets, mailboxes, the Stitcher and gradients (R53, R55, R124, R230, R231, R307)
  | hostAtomic (n : Nat)
  | ldtArrival (n : Nat)
  | ticketReturn (n : Nat)
  | redemption (n : Nat)
  | payloadDelivery (n : Nat)
  | messageArrival (n : Nat)
  | stitchRequestArrival (n : Nat)
  | hgsContribution (n : Nat)
  -- evictions, errors, and inputs of the board, the host and peers (R106, R314 to R323, R358, R412)
  | l1Eviction (c line : Nat)
  | directoryEviction (line : Nat)
  | linkDown (link : Nat)
  | uncorrectableError (site : ErrSite)
  | correctedError (unit : Nat)
  | powerMeasurement (watts10ms tempC : Nat)
  | packageReset
  | i3cPrivateRead
  | partitionConfiguration (parts : List Nat) (hostPorts : List Nat)
  | i3cAttestationRequest (nonce : List Byte) (dest : Nat)
  | capabilityWord (w : Word)
  | hostSnoop (pa : Nat) (excl : Bool)
  | hostAccess (port pa size : Nat) (store : Option (List Byte))
  | peerAccess (port pa size : Nat) (store : Option (List Byte)) (rmw : Option (AtomOp × Bool))
  | refreshManagementRequest (die stack : Nat)
  | imageKeyEnrolment (key : List Byte)
deriving DecidableEq, Repr

end Sys2Proof
end

