-- ==== Sys2Proof/Machine/Fields.lean ====
section
/-! DEFINITION. The operand fields of each instruction: which registers a word names (R155, R162 to
R173), which instructions a swarm core does not run (R33, R174), which one issue serves a whole
bundle (R36), and the limits on numbers and runs that make a word's fields legal (R155, R156). -/

namespace Sys2Proof

/-- Operation width in bits (R157, R187). -/
def Ty.width : Ty → Nat
  | .s8 | .n8 => 8
  | .s16 | .n16 => 16
  | .s32 | .n32 => 32
  | .s64 | .n64 => 64

/-- The type is an `.s` type (R187). -/
def Ty.signed : Ty → Bool
  | .s8 | .s16 | .s32 | .s64 => true
  | .n8 | .n16 | .n32 | .n64 => false

/-- Registers that an operand of the type takes: operands of a 64-bit type are pairs (R155). -/
def Ty.regs (ty : Ty) : Nat := if ty.width = 64 then 2 else 1

/-- Access size in bytes of the sz field (R153). -/
def Size.bytes : Size → Nat
  | .b | .s8 => 1
  | .h | .s16 => 2
  | .w => 4
  | .d => 8
  | .q => 16
  | .o => 32

/-- Registers that a load or store of the size names (R153). -/
def Size.regs (z : Size) : Nat := if z.bytes ≤ 4 then 1 else z.bytes / 4

/-- A store accepts the size: sz 6 and 7 are reserved there (R153). -/
def Size.stores : Size → Bool
  | .s8 | .s16 => false
  | _ => true

/-- Access size in bytes of LDGS (R153). -/
def GSize.bytes : GSize → Nat
  | .w => 4
  | .d => 8
  | .q => 16
  | .o => 32
  | .l => 128

/-- Payload size in bytes of LDT (R168). -/
def TkSize.bytes : TkSize → Nat
  | .w => 4
  | .d => 8
  | .q => 16
  | .o => 32
  | .v => 64

namespace Machine

/-- The field names a k register (R154). -/
def isK (f : Field) : Bool := 96 ≤ f.toNat

/-- A run of n registers from field f lies in one window (R155). -/
def runOk (f : Field) (n : Nat) : Bool :=
  if isK f then f.toNat + n ≤ 128 else f.toNat + n ≤ 96

/-- Two field runs name a common field. -/
def runsMeet (f : Field) (n : Nat) (g : Field) (m : Nat) : Bool :=
  f.toNat < g.toNat + m && g.toNat < f.toNat + n

/-- Width in bits of a system register, none for an unassigned number (R210). -/
def csrWidth (n : Nat) : Option Nat :=
  if n = 0x000 || n = 0x001 || n = 0x008 || n = 0x009 || n = 0x010 || n = 0x011 || n = 0x013
      || n = 0x015 || n = 0x030 || n = 0x100 || n = 0x101 || (0x020 ≤ n && n ≤ 0x02F) then some 32
  else if n = 0x002 || n = 0x003 || n = 0x004 || n = 0x012 || n = 0x014 || n = 0x040 then some 64
  else none

/-- Registers that a CSRR or CSRW of the number names (R209). -/
def csrRegs (n : Nat) : Nat := match csrWidth n with
  | some 64 => 2
  | _ => 1

/-- The register operands of an instruction, as first field and length of each run (R155). Runs
whose length only the values fix (R393) stand with the part that every value needs. -/
def uses : Instr → List (Field × Nat)
  | .add ty d a b | .sub ty d a b | .mul ty d a b | .mulhi ty d a b | .mad ty d a b
  | .div ty d a b | .rem ty d a b | .min ty d a b | .max ty d a b | .and ty d a b | .or ty d a b
  | .xor ty d a b | .andn ty d a b | .sel ty d a b _ => [(d, ty.regs), (a, ty.regs), (b, ty.regs)]
  | .abs ty d a | .neg ty d a | .popc ty d a | .clz ty d a | .ctz ty d a | .brev ty d a
  | .mov ty d a => [(d, ty.regs), (a, ty.regs)]
  | .shl ty d a b | .shr ty d a b | .sar ty d a b | .bfx ty d a b | .bfi ty d a b =>
      [(d, ty.regs), (a, ty.regs), (b, 1)]
  | .fshl _ d a b | .fshr _ d a b => [(d, 1), (a, 1), (b, 1)]
  | .sext ty d a | .zext ty d a => [(d, ty.regs), (a, 1)]
  | .lea _ d a b => [(d, 2), (a, 2), (b, 1)]
  | .cmp ty _ _ a b => [(a, ty.regs), (b, ty.regs)]
  | .addi d a _ | .andi d a _ | .ori d a _ | .xori d a _ | .shli d a _ | .shri d a _
  | .sari d a _ => [(d, 1), (a, 1)]
  | .cmpi ty _ _ a _ => [(a, ty.regs)]
  | .movi d _ | .movhi d _ => [(d, 1)]
  | .addpc d _ => [(d, 2)]
  | .lut3 _ d a b => [(d, 1), (a, 1), (b, 1)]
  | .bra _ | .brc _ _ | .brcNot _ _ | .call _ => []
  | .jmpr a | .callr a => [(a, 2)]
  | .ret | .exit | .yield => []
  | .fork d a b => [(d, 2), (a, 1), (b, 4)]
  | .join a => [(a, 2)]
  | .setwb _ | .setkb _ | .mjoin _ | .mleave _ | .mwait _ => []
  | .mread d _ => [(d, 1)]
  | .mwrite _ a => [(a, 1)]
  | .voteAny _ _ | .voteAll _ _ => []
  | .voteBallot d _ => [(d, 1)]
  | .shflIdx d a b | .shflUp d a b | .shflDown d a b | .shflXor d a b => [(d, 1), (a, 1), (b, 1)]
  | .plop _ _ _ _ => []
  | .bmov d a b => [(d, 2), (a, 2), (b, 1)]
  | .bfill d a b => [(d, 2), (a, 1), (b, 1)]
  | .migr _ => []
  | .ld _ d a _ sz | .st _ d a _ sz | .ldc _ d a _ sz => [(d, sz.regs), (a, 2)]
  | .lds _ d a _ sz | .sts _ d a _ sz => [(d, sz.regs), (a, 1)]
  | .ldPointer _ d _ m _ sz | .stPointer _ d _ m _ sz => (d, sz.regs) :: (match m with
      | .idx f => [(f, 1)]
      | _ => [])
  | .ldPf _ m _ _ => match m with
      | .idx f => [(f, 1)]
      | _ => []
  | .ldgs _ d a _ _ => [(d, 1), (a, 2)]
  | .waitf a | .sete a | .bara a | .mfree a | .pfstop a => [(a, 1)]
  | .acpy _ _ a => [(a, 8)]
  | .qjoin _ => []
  | .qwait _ a => [(a, 1)]
  | .fence _ => []
  | .baraTx a b | .barw a b => [(a, 1), (b, 1)]
  | .msend n a b => [(a, 1), (b, n.toNat)]
  | .mrecv d a => [(d, 8), (a, 1)]
  | .launch a | .cflush a => [(a, 2)]
  | .stitch _ na1 a b => [(a, 2), (b, na1.toNat + 1)]
  | .pfarm a => [(a, 4)]
  | .ldt _ d a _ => [(d, 1), (a, 2)]
  | .rdm d a | .rdmSpm d a => [(d, 1), (a, 1)]
  | .tkdrop a => [(a, 1)]
  | .atom _ ty _ d a b => [(d, ty.regs), (a, 2), (b, ty.regs)]
  | .atomSpm _ ty _ d a b => [(d, ty.regs), (a, 1), (b, ty.regs)]
  | .red _ ty _ a b => [(a, 2), (b, ty.regs)]
  | .redSpm _ ty _ a b => [(a, 1), (b, ty.regs)]
  | .fadd d a b | .fsub d a b | .fmul d a b | .ffma d a b | .fmin d a b | .fmax d a b
  | .fdiv d a b => [(d, 1), (a, 1), (b, 1)]
  | .fabs d a | .fneg d a | .fclass d a | .fround _ d a | .frcp d a | .frsq d a | .fsqrt d a
  | .fexp2 d a | .flog2 d a | .fsin d a | .fcos d a => [(d, 1), (a, 1)]
  | .fcmp _ _ a b => [(a, 1), (b, 1)]
  | .f2i ty _ d a => [(d, ty.regs), (a, 1)]
  | .i2f ty d a => [(d, 1), (a, ty.regs)]
  | .cvtTo d a _ | .cvtFrom d a _ | .pack d a _ | .unpk d a _ => [(d, 1), (a, 1)]
  | .hadd2F16 d a b | .hmul2F16 d a b | .hfma2F16 d a b | .hadd2Bf16 d a b | .hmul2Bf16 d a b
  | .hfma2Bf16 d a b | .dot4 _ d a b | .dot4S8 d a b => [(d, 1), (a, 1), (b, 1)]
  | .cdet d a | .scanIncF32 d a | .scanExcF32 d a | .scanIncS32 d a | .scanExcS32 d a =>
      [(d, 1), (a, 1)]
  | .merge d a b | .mergeKz d a b => [(d, 1), (a, 4), (b, 1)]
  | .prune _ _ d a => [(d, 2), (a, 8)]
  | .mma _ _ h a b _ | .mmaR _ _ h a b _ => [(h, 1), (a, 1), (b, 1)]
  | .mmas _ _ _ h a b e _ => [(h, 1), (a, 1), (b, 1), (e, 1)]
  | .amalloc d a => [(d, 1), (a, 1)]
  | .amfree a => [(a, 1)]
  | .amshape a b | .amzero a b => [(a, 1), (b, 1)]
  | .amrd d a b | .amwr d a b => [(d, 16), (a, 1), (b, 1)]
  | .amdrain d a b | .amdrainAdd d a b => [(d, 1), (a, 1), (b, 1)]
  | .wbld _ _ d a b => [(d, 1), (a, 1), (b, 1)]
  | .mq _ d a => [(d, 1), (a, 8)]
  | .lrset _ a | .mqwait a => [(a, 1)]
  | .tex d a b | .tld d a b | .tgath d a b => [(d, 4), (a, 3), (b, 2)]
  | .hgf d a b | .hgs _ d a b | .hgsDet _ d a b => [(d, 1), (a, 4), (b, 2)]
  | .hgsfence => []
  | .trav d a b => [(d, 4), (a, 8), (b, 2)]
  | .rscb | .rsce => []
  | .pixout _ d a => [(d, 4), (a, 1)]
  | .csld a | .csrel a => [(a, 1)]
  | .csrr d n => [(d, csrRegs n.toNat)]
  | .csrw n a => [(a, csrRegs n.toNat)]
  | .svc _ | .eret | .bkpt _ => []
  | _ => []

/-- A swarm core does not run the instruction (R33, R174): majors 0x34 to 0x37, 0x3B, 0x3C, VOTE,
SHFL and SCAN. -/
def simtOnly : Instr → Bool
  | .voteAny _ _ | .voteAll _ _ | .voteBallot _ _ => true
  | .shflIdx _ _ _ | .shflUp _ _ _ | .shflDown _ _ _ | .shflXor _ _ _ => true
  | .scanIncF32 _ _ | .scanExcF32 _ _ | .scanIncS32 _ _ | .scanExcS32 _ _ => true
  | .mma .. | .mmaR .. | .mmas .. => true
  | .amalloc .. | .amfree .. | .amshape .. | .amrd .. | .amwr .. | .amzero .. | .amdrain ..
  | .amdrainAdd .. | .wbld .. | .mq .. | .lrset .. | .mqwait .. => true
  | .tex .. | .tld .. | .tgath .. | .hgf .. | .hgs .. | .hgsDet .. | .hgsfence | .trav .. => true
  | .rscb | .rsce | .pixout .. | .csld .. | .csrel .. => true
  | _ => false

/-- The instruction is a memory, matrix, texture or raster instruction, or one that goes down a
lane pipeline whatever its registers are (R36, R217); MIGR names no register and is none of them. -/
def laneOnly : Instr → Bool
  | .call _ | .callr _ | .ret | .fork .. | .join _ | .bmov .. | .bfill .. => true
  | .ld .. | .st .. | .lds .. | .sts .. | .ldPointer .. | .stPointer .. | .ldPf .. | .ldc ..
  | .ldgs .. => true
  | .waitf _ | .sete _ | .acpy .. | .qjoin _ | .qwait .. | .fence _ | .bara _ | .baraTx .. | .barw ..
  | .msend .. | .mrecv .. | .mfree _ | .launch _ | .stitch .. | .pfarm _ | .pfstop _ | .cflush _ =>
      true
  | .ldt .. | .rdm .. | .rdmSpm .. | .tkdrop _ | .atom .. | .atomSpm .. | .red .. | .redSpm .. => true
  | .merge .. | .mergeKz .. => true
  | .mma .. | .mmaR .. | .mmas .. => true
  | .amalloc .. | .amfree .. | .amshape .. | .amrd .. | .amwr .. | .amzero .. | .amdrain ..
  | .amdrainAdd .. | .wbld .. | .mq .. | .lrset .. | .mqwait .. => true
  | .tex .. | .tld .. | .tgath .. | .hgf .. | .hgs .. | .hgsDet .. | .hgsfence | .trav .. => true
  | .rscb | .rsce | .pixout .. | .csld .. | .csrel .. => true
  | _ => false

/-- The instruction issues once for its whole bundle (R36): every register it names is a k
register, or it names none, and it is none of the excepted kinds. -/
def uniformPipe (i : Instr) : Bool :=
  !laneOnly i && (uses i).all fun u => isK u.1

/-- An ordering kind that R159 allows to loads: 0 or 1. -/
def ordLoad (m : MemOrd) : Bool := m.ord = .rlx || m.ord = .acq

/-- An ordering kind that R159 allows to stores, RED and queue entries: 0 or 2. -/
def ordStore (m : MemOrd) : Bool := m.ord = .rlx || m.ord = .rel

/-- FSHL and FSHR accept only the 32-bit types (R162). -/
def ty32 : Ty → Bool
  | .s32 | .n32 => true
  | _ => false

/-- The types that F2I and the atomics accept: 32 and 64 bits (R233, R250). -/
def tyWord (ty : Ty) : Bool := 32 ≤ ty.width

/-- The TY limits of an atomic operation: `.f32` takes only TY 0 (R169). -/
def atomTyOk (ty : Ty) (op : AtomOp) : Bool := match op with
  | .addF32 => ty = .s32
  | _ => tyWord ty

/-- RED has no swap and no cas (R169). -/
def redOp : AtomOp → Bool
  | .swap | .cas => false
  | _ => true

/-- The limits on an instruction's numbers, suffixes and fields beyond those that its types give
and the run limits of R155 (R156, R159, R162 to R173, R207, R396). -/
def numbersOk : Instr → Bool
  | .fshl ty _ _ _ | .fshr ty _ _ _ => ty32 ty
  | .fork d _ _ => d.toNat ≤ 62
  | .setkb n => n.toNat ≤ 4
  | .mjoin m | .mleave m | .mwrite m _ => 1 ≤ m.toNat && m.toNat ≤ 11
  | .mwait m | .mread _ m => m.toNat ≤ 11
  | .bmov d a b => !isK d && !isK a && !isK b && !runsMeet d 2 a 2 && !runsMeet d 2 b 1
      && !runsMeet a 2 b 1
  | .bfill d a b => !isK d && !isK a && !isK b && !runsMeet d 2 a 1 && !runsMeet d 2 b 1
      && !runsMeet a 1 b 1
  | .ld mo _ _ _ _ | .lds mo _ _ _ _ | .ldc mo _ _ _ _ | .ldPointer mo _ _ _ _ _ | .ldPf mo _ _ _
  | .ldt mo _ _ _ => ordLoad mo
  | .st mo _ _ _ sz | .sts mo _ _ _ sz | .stPointer mo _ _ _ _ sz => ordStore mo && sz.stores
  | .ldgs mo _ _ _ _ | .acpy mo _ _ | .wbld mo _ _ _ _ | .mq mo _ _ | .hgs mo _ _ _
  | .hgsDet mo _ _ _ => ordStore mo
  | .qjoin qs => qs.toNat ≠ 0
  | .msend n _ _ => 1 ≤ n.toNat && n.toNat ≤ 8
  | .stitch nr _ _ _ => nr.toNat ≤ 8
  | .atom _ ty op _ _ _ | .atomSpm _ ty op _ _ _ => atomTyOk ty op
  | .red mo ty op _ _ | .redSpm mo ty op _ _ => ordStore mo && redOp op && atomTyOk ty op
  | .f2i ty _ _ _ => tyWord ty
  | .csrr _ n | .csrw n _ => (csrWidth n.toNat).isSome
  | _ => true

/-- No field of the instruction is reserved: its numbers are in range and each run lies in one
window (R155, R156, R174). -/
def fieldsOk (i : Instr) : Bool := numbersOk i && (uses i).all fun u => runOk u.1 u.2

/-- The row is an instruction that words encode, not a step of another agent. -/
def isLpi : Instr → Bool
  | .illegalOp | .replyTrap .. | .trapAreaTimeout .. | .register .. | .retire .. | .preempt ..
  | .shoot .. | .image .. | .peer .. | .launchCommand .. | .freeq .. | .seqCmdMma ..
  | .seqCmdAmzero .. | .seqCmdAmdrain .. | .seqCmdAmdrainAdd .. | .draw .. | .nonce ..
  | .deviceRegisterWrite .. | .attestationReportWritten .. | .launchArrival .. | .periodicReading ..
  | .decrementReading .. | .blockPlacement .. | .swarmBlockPlacement .. | .restore ..
  | .blockCompletion .. | .preemptionCheck .. | .saveComplete .. | .flushComplete .. | .budgetHold ..
  | .retireSweep .. | .activeTimeout .. | .groupReady .. | .contextSwitch .. | .matrixTurn ..
  | .quarterOperation .. | .sequencerItem .. | .stitchRequestArrival .. | .stwaitExpiry ..
  | .stitchedGroupStart .. | .messageArrival .. | .migrationMove .. | .gets .. | .geto .. | .data ..
  | .grant .. | .inv .. | .iack .. | .recallMsg .. | .wb .. | .wback .. | .atomMessage .. | .atomr ..
  | .retry .. | .storeFailure .. | .l1Eviction .. | .directoryEviction .. | .pageWalk ..
  | .shootdownComplete .. | .kneaderEpochEnd .. | .pageMoveComplete .. | .pageMoveAbandon ..
  | .copyEntry .. | .joinMarker .. | .multicastCredit .. | .elementLanding .. | .entryCompletion ..
  | .prooferInstanceStart .. | .prooferWatchdog .. | .wbLoaderEntry .. | .ldtArrival ..
  | .redemption .. | .payloadDelivery .. | .ageSweep .. | .hgsContribution .. | .microcodeRequest ..
  | .microcodeWatchdog .. | .binStart .. | .primitive .. | .pixelGroupStart .. | .pixelWrite ..
  | .sectionWatchdog .. | .linkDown .. | .uncorrectableError .. | .powerMeasurement ..
  | .packageReset | .dieRelease .. | .i3cPrivateRead | .partitionConfiguration ..
  | .i3cAttestationRequest .. | .capabilityWord .. | .hostSnoop .. | .hostAccess .. | .hostAtomic ..
  | .ticketReturn .. | .peerAccess .. | .uncachedAccess .. | .correctedError ..
  | .refreshManagementRequest .. | .imageKeyEnrolment .. => false
  | _ => true

end Machine
end Sys2Proof
end

