-- ==== Sys2Proof/Machine/Lists.lean ====
section
/-! DEFINITION. Keyed lists and byte stores: lookup and update by key, stores in one canonical form
(keys strictly rising, no entry equal to what an unlisted key reads as), and little-endian numbers
(R10). -/

namespace Sys2Proof.Machine

/-- The value of a key. -/
def lget {α : Type} (k : Nat) : List (Nat × α) → Option α
  | [] => none
  | (j, v) :: r => if j = k then some v else lget k r

/-- The list with key k bound to v; keys that rise stay so. -/
def lput {α : Type} (k : Nat) (v : α) : List (Nat × α) → List (Nat × α)
  | [] => [(k, v)]
  | (j, w) :: r =>
    if k = j then (k, v) :: r
    else if k < j then (k, v) :: (j, w) :: r
    else (j, w) :: lput k v r

/-- The list without key k. -/
def ldel {α : Type} (k : Nat) (l : List (Nat × α)) : List (Nat × α) := l.filter fun e => e.1 ≠ k

/-- The value of a key, with a default. -/
def lgetD {α : Type} (k : Nat) (l : List (Nat × α)) (d : α) : α := (lget k l).getD d

/-- The list with the value of key k changed, an absent one taken as d. -/
def lmod {α : Type} (k : Nat) (d : α) (f : α → α) (l : List (Nat × α)) : List (Nat × α) :=
  lput k (f (lgetD k l d)) l

/-- Binding in a store whose unlisted keys read as d: the value d is not listed. -/
def sput {α : Type} [DecidableEq α] (d : α) (k : Nat) (v : α) (l : List (Nat × α)) :
    List (Nat × α) := if v = d then ldel k l else lput k v l

/-- Keys strictly rising from a bound. -/
def risingFrom {α : Type} : Nat → List (Nat × α) → Bool
  | _, [] => true
  | b, (k, _) :: r => b ≤ k && risingFrom (k + 1) r

/-- The canonical form of a store whose unlisted keys read as d. -/
def canonical {α : Type} [DecidableEq α] (d : α) (l : List (Nat × α)) : Bool :=
  risingFrom 0 l && l.all fun e => e.2 ≠ d

/-- The canonical form of a byte store (an unlisted byte is 0). -/
def Memory.wf (m : List Host.Cell) : Bool := canonical (0 : Byte) m

/-- A byte of a store. -/
def readByte (m : List Host.Cell) (a : Nat) : Byte := lgetD a m 0

/-- A store with byte a replaced. -/
def writeByte (m : List Host.Cell) (a : Nat) (b : Byte) : List Host.Cell := sput 0 a b m

/-- n bytes from address a. -/
def readBytes (m : List Host.Cell) : Nat → Nat → List Byte
  | _, 0 => []
  | a, n + 1 => readByte m a :: readBytes m (a + 1) n

/-- A store with bytes written from address a. -/
def writeBytes (m : List Host.Cell) : Nat → List Byte → List Host.Cell
  | _, [] => m
  | a, b :: r => writeBytes (writeByte m a b) (a + 1) r

/-- The number that bytes hold, little-endian (R10). -/
def ofBytes : List Byte → Nat
  | [] => 0
  | b :: r => b.toNat + 256 * ofBytes r

/-- The n bytes of a number, little-endian (R10). -/
def toBytes : Nat → Nat → List Byte
  | 0, _ => []
  | n + 1, v => BitVec.ofNat 8 v :: toBytes n (v / 256)

/-- The 32-bit words of bytes, n words. -/
def wordsOf : Nat → List Byte → List Word
  | 0, _ => []
  | n + 1, bs => BitVec.ofNat 32 (ofBytes (bs.take 4)) :: wordsOf n (bs.drop 4)

/-- The bytes of words. -/
def bytesOf (ws : List Word) : List Byte := (ws.map fun w => toBytes 4 w.toNat).flatten

/-- 0 to n − 1. -/
def upTo (n : Nat) : List Nat := List.range n

/-- Bit i of a number. -/
def bit (v i : Nat) : Bool := v / 2 ^ i % 2 = 1

/-- Bits hi:lo of a number (R3). -/
def bits (v hi lo : Nat) : Nat := v / 2 ^ lo % 2 ^ (hi + 1 - lo)

/-- The number with bit i set. -/
def withBit (v i : Nat) : Nat := if bit v i then v else v + 2 ^ i

/-- An element of a list, with the default 0. -/
def at0 (l : List Nat) (i : Nat) : Nat := l.getD i 0

/-- The first element with the least measure. -/
def leastBy {α : Type} (f : α → Nat) : List α → Option α
  | [] => none
  | a :: r => match leastBy f r with
    | none => some a
    | some b => if f b < f a then some b else some a

/-- The first element with the greatest measure. -/
def greatestBy {α : Type} (f : α → Int) : List α → Option α
  | [] => none
  | a :: r => match greatestBy f r with
    | none => some a
    | some b => if f a < f b then some b else some a

/-- Insertion in ascending order of a measure, after equals. -/
def insertBy {α : Type} (f : α → Nat) (a : α) : List α → List α
  | [] => [a]
  | b :: r => if f a < f b then a :: b :: r else b :: insertBy f a r

/-- A list in ascending order of a measure; equals keep their order. -/
def sortBy {α : Type} (f : α → Nat) (l : List α) : List α :=
  l.foldl (fun acc a => insertBy f a acc) []

/-- The sublists of n elements, those with earlier elements first. -/
def choose {α : Type} : Nat → List α → List (List α)
  | 0, _ => [[]]
  | _ + 1, [] => []
  | n + 1, a :: r => (choose n r).map (a :: ·) ++ choose (n + 1) r

/-- The list without its element i. -/
def dropAt {α : Type} (i : Nat) (l : List α) : List α := l.take i ++ l.drop (i + 1)

end Sys2Proof.Machine
end

