-- ==== Sys2Proof/Config.lean ====
section
/-! DEFINITION. What an implementation fixes and the manual leaves open: the free values. None of
them has a body, so no proof can see a value of one (log entries 2 and 7). -/

namespace Sys2Proof.Config

/-- The n-th free choice of a run: which of the outcomes that the governing rule lists is taken.
Used by LDC and descriptor reads (R218, R297), by a JOIN that meets a failed link (R378) and by the
restore of a changed save record (R422). Log entry 2. -/
opaque freeBit : Nat → Bool

/-- The n-th free pick of a run among several equal things, as a number taken modulo their count: which of the
free entries of its table an LDT takes (R230). Log entry 103. -/
opaque freePick : Nat → Nat

/-- Which of several entries or lines a full cache, directory or table gives up for a new one, which the spec leaves
open: by the clock and the address of the new one, as a number taken modulo their count. Log entry 104. -/
opaque victim : Nat → Nat → Nat

/-- What a load of a device-register page reads at a physical address that holds no readable register
(R275, R284, R311, R321). Log entry 13. -/
opaque openByte : Nat → Byte

/-- CAUSE of the failed item of a multicast target that is not Resident on the issuer's die, which R226
does not state. Log entry 14. -/
opaque multicastCause : Byte

/-- CAUSE of a microcode request that fails on a push onto its full stack, which R280 does not state. Log
entry 16. -/
opaque stackCause : Byte

/-- What a result register receives that a registered image ends without having pushed, which R280 does not
state: by the count of free values so far. Log entry 16. -/
opaque unpushed : Nat → Word

/-- A byte of a save record whose layout each implementation fixes for itself (R422), by the save and the
byte's offset. Log entry 19. -/
opaque savedByte : Nat → Byte

/-- ML-DSA-65 verification (FIPS 204, named by R278 and R320): key, message, signature.
The standard's text is not in spec/. Log entry 7. -/
opaque mldsaVerify : List Byte → List Byte → List Byte → Bool

/-- The ML-DSA-65 signature of an attestation report by the device identity key (R321). Log entry 7. -/
opaque reportSignature : Nat → List Byte → List Byte

/-- SHAKE256 of FIPS 202 (named by R277, R320): message and output length in bytes. Log entry 7. -/
opaque shake256 : List Byte → Nat → List Byte

/-- The firmware image's digest D and the id 0 microcode digests, in the order in which R320
measures them. Log entry 7. -/
opaque bootDigests : List (List Byte)

/-- Lumgar's image key (R278), an ML-DSA-65 public key. Log entry 7. -/
opaque imageKey : List Byte

/-- Microwords of the shipped image of a unit kind before the bound of R276 on the total over the four kinds.
Log entry 20. -/
opaque shippedLen : Nat → BitVec 13

/-- The digest of a partition configuration that the ROM extends into M (R320). Log entry 7. -/
opaque divisionDigest : List Nat → List Byte

/-- The 4 bytes of an attestation report that hold the partition configuration and the die mask, whose layout
R321 does not give. Log entry 21. -/
opaque divisionWord : List Nat → Nat → Word

/-- The set of a cluster L1 to which a line belongs, whose associativity R21 does not give. Log entry 23. -/
opaque l1Set : Nat → BitVec 14

/-- The bank of a cluster L1 that serves a line, which R21 does not give. Log entry 23. -/
opaque l1Bank : Nat → BitVec 4

/-- What decides the status code of die d after its ROM boot: every check of R320 passed, or one failed as R412's
codes list them. Log entry 7. -/
opaque bootCode : Nat → Byte

/-- The id 0 images of die d that match their digests before one that does not. Log entry 7. -/
opaque bootImages : Nat → BitVec 2

end Sys2Proof.Config
end

