-- ==== Sys2Proof/Machine/State.lean ====
section
/-! DEFINITION. The state of the package, as plain data (INVENTORY.md, "State"). Sparse stores are
lists in which an unlisted key has the value its docstring names. -/

namespace Sys2Proof.Machine

/-- Why a step stops the machine. -/
inductive Fault
  /-- The management core stopped the package: a die sensor was above 105 °C (R323). Raised by
  `step` alone. Safe: the spec stops the package there. -/
  | packageStopped
deriving DecidableEq, Repr

/-- Why a step has no meaning. -/
inductive Refusal
  /-- No meaning has been written for the instruction. Raised only by an arm of `exec`. Safe. -/
  | notModelled (mnemonic : String)
deriving DecidableEq, Repr

/-- State of a thread slot (R60). -/
inductive Slot | live | trapped | migrated | exited
deriving DecidableEq, Repr

/-- What a thread waits on: `wait until` of an entry (R175), and the waits of R72. -/
inductive WaitOn
  /-- Walk k of the walker pool (R92). -/
  | walk (k : Nat)
  /-- Every earlier load, LDT and atomic of the thread has its value (R102, R235). -/
  | loads
  /-- Every earlier acquire of the thread has its value (R113). -/
  | acquire
  /-- Every reply that writes a register of the thread has arrived (R378). -/
  | replies
  /-- Room in the store replay queue of cluster c (R102). -/
  | replay (c : Nat)
  /-- Pending grants of a line of cluster c (R245). -/
  | grants (c line : Nat)
  /-- The write-back of a line of cluster c (R245). -/
  | flushed (c line : Nat)
  /-- A release fence: every entry and dirty word of cluster c up to the epoch (R105, R235). -/
  | fence (c epoch : Nat)
  /-- FULL of a line of a block's SPM (R216). -/
  | full (blk line : Nat)
  /-- The pending count of a line leaves 15 (R216). -/
  | count (blk line : Nat)
  /-- Room in the copy queues of the set, cluster c, and the turn of the thread's region there (R227). -/
  | queues (c set : Nat)
  /-- No copy queue of the set, cluster c, is full (R228). -/
  | joinRoom (c set : Nat)
  /-- The values of loads that port p of the crossbar has sent to the L1 bank of a line before (R23). -/
  | port (p line : Nat)
  /-- OUT of queue q at or below n (R229). -/
  | out (q n : Nat)
  /-- The phase word at an SPM address differs from n (R237). -/
  | phase (blk a n : Nat)
  /-- Room in the mailbox that the address names (R55). -/
  | mailRoom (addr : Nat)
  /-- A message in the thread's own mailbox (R239). -/
  | mail
  /-- A free slot in the thread's own mailbox (R241). -/
  | slot
  /-- The stitched thread's result message (R241). -/
  | stitched
  /-- Room in task inbox i (R240). -/
  | inbox (i : Nat)
  /-- A free proofer range or arming of the unit (R242). -/
  | proofer (u : Nat)
  /-- Fewer than 256 outstanding LDGS on engine e (R220). -/
  | ldgs (e : Nat)
  /-- Room in the WB loader of engine e (R269). -/
  | loader (e : Nat)
  /-- No entry of the WB loader of engine e covers a granule from lo to hi (R270). -/
  | wb (e lo hi : Nat)
  /-- n free dispatch entries of partition p of engine e (R75). -/
  | dispatch (e p n : Nat)
  /-- Room in the matrix sequencer queue of engine e (R272). -/
  | sequencer (e : Nat)
  /-- Command n of engine e completed (R274). -/
  | command (e n : Nat)
  /-- No pending use of tile t of handle entry h of engine e (R74). -/
  | tile (e h t : Nat)
  /-- No pending tile of handle entry h of engine e and no queued command that names it (R262). -/
  | handle (e h : Nat)
  /-- The wait of an MWAIT on mask m, which ends by R39. -/
  | mask (m : Nat)
  /-- An idle swarm context of the cluster, for a MIGR (R57); ended by MIGRATION_MOVE. -/
  | migrate (id : Nat)
  /-- The turns of earlier primitives at the thread's pixel (R295). -/
  | turn
  /-- The arrival of the HGS.det contributions that an HGSFENCE of launch l covers (R308): those of
  requests with an id below n. -/
  | scatter (l n : Nat)
  /-- The reply of RET or JOIN, whose continuation depends on it (R378). -/
  | reply
  /-- Room in the trap area of the region (R351). -/
  | trapArea (rcb : Nat)
  /-- The thread's earlier uncached accesses to a physical page (R90). -/
  | uncached (page : Nat)
  /-- The atomics of the thread that have not been performed (R102, R113). -/
  | atomics
  /-- Thread t of the group, which waits at the same instruction and comes first in its bundle (R35). -/
  | behind (t : Nat)
deriving DecidableEq, Repr

/-- A trap in hand: cause, address and auxiliary value (R348). -/
structure TrapInfo where
  cause : Nat
  addr : Nat := 0
  aux : Nat := 0
deriving DecidableEq, Repr, Inhabited

/-- A failed reply that waits for its thread's next boundary (R378): the cause, and PC and words of
the failed instruction. -/
structure ReplyFail where
  info : TrapInfo
  pc : Nat
  words : List Word
  /-- STATUS before trap entry, of a record that waits for room (R351). -/
  status : Word := 0
  /-- CYCLE at the event, of a record that waits for room (R352). -/
  at_ : Nat := 0
  /-- The trap ends its thread, and its record waits for room (R347, R351, R360). -/
  nested : Bool := false
  /-- The thread's own state is lost (R360). -/
  lost : Bool := false
  /-- The pointer register of a pointer load, and its value from before the load (R167, R368). -/
  ptr : Option (Nat × DWord) := none
deriving DecidableEq, Repr

/-- An instruction that a restored thread executes again (R368): its PC, and for a pointer load the register, its value
from before the load, and the value that it has once the load is done. -/
structure Redo where
  pc : Nat
  ptr : Option (Nat × DWord × DWord) := none
deriving DecidableEq, Repr

/-- A thread's identity (R30, R54). -/
structure Ident where
  tid : Word := 0
  gid : Word := 0
  bid : DWord := 0
  lcore : Word := 0
  jseed : DWord := 0
  mbox : Word := 0
deriving DecidableEq, Repr, Inhabited

/-- What the raster sequencer gave a pixel thread (R291, R293, R295, R404). -/
structure Pixel where
  /-- Primitive index. -/
  prim : Nat
  /-- Pixel within the tile: 64·ly + lx. -/
  at_ : Nat
  /-- x3 at the start: the interpolated depth. -/
  z : Word
  /-- PIXOUT executed. -/
  out : Bool := false
  /-- The turn has passed. -/
  passed : Bool := false
  /-- Inside a raster-ordered section. -/
  section_ : Bool := false
  /-- Instructions issued in the section. -/
  issued : Nat := 0
deriving DecidableEq, Repr

/-- A value that a word had until a store at a clock (R115, R302). -/
structure Older where
  wa : Nat
  at_ : Nat
  val : Word
deriving DecidableEq, Repr

/-- A thread (R31, R60, R74, R210 to R213, R227). -/
structure Thread where
  slot : Slot := .live
  pc : DWord := 0
  /-- The allocation, by absolute number. -/
  x : List Word := []
  p : List DWord := []
  /-- c0 to c6. -/
  c : List Bool := []
  xwb : BitVec 8 := 0
  fpstat : Word := 0
  status : Word := 0
  trapcause : Word := 0
  trappc : DWord := 0
  trapaddr : DWord := 0
  trapaux : DWord := 0
  ident : Ident := {}
  /-- Absolute x registers with the pending bit set (R74). -/
  pendX : List Nat := []
  /-- Predicates with the pending bit set. -/
  pendC : List Nat := []
  /-- Outstanding copy entries by queue (R227). -/
  out : List Nat := [0, 0, 0, 0]
  /-- Entries placed so far, by SOURCE × 4 + queue (R354). -/
  ent : List (Nat × Nat) := []
  wait : Option WaitOn := none
  /-- The pointer register and its value before the update of R167 that a trap undoes (R393). -/
  undo : Option (Nat × DWord) := none
  /-- Failed replies not yet trapped for, in order of arrival (R378). -/
  failed : List ReplyFail := []
  /-- Instructions that the thread executes again before it goes on at the PC given (R368). -/
  redo : List Redo := []
  resume : DWord := 0
  /-- A trap whose record waits for room (R351): the cause, and PC and words of the instruction. -/
  held : Option ReplyFail := none
  /-- Absolute x registers that read as uncorrectable (R358). -/
  badX : List Nat := []
  /-- On a swarm context: the reserved slot, as group and thread (R57). -/
  home : Option (Nat × Nat) := none
  /-- The slot's thread runs on this group (R57). -/
  away : Option Nat := none
  pixel : Option Pixel := none
  /-- Stores since the thread's last release fence at `.clu` or wider: a word and its value from before each
  store, latest first, which a texture read or a copy without `.rel` may still return (R115, R302). -/
  unfenced : List Older := []
  /-- The same since the last release fence at `.blk` or wider, for the thread's copies (R115). -/
  uncopied : List Older := []
  /-- Of a stitched thread: result count and the group of the issuer (R53, R54). -/
  stitch : Option (Nat × Nat) := none
  /-- Of a stitched thread: its issuer's FS0 to FS7 and FSSC0 to FSSC7 (R53); other threads have their group's. -/
  slots : Option (List Word × List Word) := none
deriving DecidableEq, Repr, Inhabited

/-- A mailbox message (R55, R238): sender and target addresses, words, and whether it bounced. -/
structure Message where
  sender : Nat
  target : Nat
  words : List Word
  bounced : Bool := false
  /-- The result message of a stitched thread, which takes the reserved slot (R241). -/
  result : Bool := false
  /-- The region of the sender. -/
  rcb : Nat
deriving DecidableEq, Repr

/-- What a group is: a SIMT group of an engine's partition, a swarm context, or an instance of a
proofer (unit 2e + q of engine e's cluster, or 512 + swarm proofer). -/
inductive GroupKind
  | simt (e part : Nat)
  | swarm (core ctx : Nat)
  | proofer (unit : Nat)
deriving DecidableEq, Repr, Inhabited

/-- State of a group (R61). -/
inductive GroupState | active | pending | waiting | saved | retired
deriving DecidableEq, Repr

/-- A group: 32 threads of an engine, or a group of one (R31, R33, R34, R38, R39, R54, R61). -/
structure Group where
  key : Nat
  kind : GroupKind
  /-- The block that the group belongs to. -/
  blk : Nat
  /-- The region's RCB. -/
  rcb : Nat
  /-- Launch-record address. -/
  lr : Nat
  /-- ENTRY, or the STITCH target (R181). -/
  entry : DWord := 0
  /-- x registers of a thread's allocation. -/
  alloc : Nat := 64
  fs : List Word := []
  fssc : List Word := []
  /-- Local group number. -/
  gid : Nat := 0
  /-- Logical engine or context number (R70). -/
  lcore : Nat := 0
  /-- Logical group slot (R70). -/
  lslot : Nat := 0
  k : List Word := []
  kwb : BitVec 8 := 0
  /-- m0 is computed; entry n is m(n + 1). -/
  masks : List Word := []
  /-- Arrival sets of m0 to m11 (R39). -/
  arrive : List Word := []
  /-- Credits of m0 to m11 (R39). -/
  credit : List Word := []
  start : Nat := 0
  pendK : List Nat := []
  mail : List Message := []
  /-- A mailbox slot reserved by STITCH (R241). -/
  reserved : Bool := false
  gstate : GroupState := .waiting
  /-- CYCLE at which the group became Active (R72). -/
  since : Nat := 0
  badK : List Nat := []
  threads : List Thread := []
  /-- A proofer instance: instructions executed, and its item (line index or message number). -/
  executed : Nat := 0
  item : Nat := 0
  /-- The group no longer issues: its block is saving, flushing or aborted (R81, R357). -/
  stopped : Bool := false
  /-- Masks (0 to 11) and KWB (12) that read as uncorrectable (R344, R358; log entry 122). -/
  bad : List Nat := []
  /-- Of a FORK member: the block whose thread recruited it, which completes after it (R338). -/
  fork : Option Nat := none
deriving DecidableEq, Repr, Inhabited

/-- The instruction that issues: group, bundle, PC, words and NPC (R34, R175). -/
structure Issue where
  g : Nat := 0
  ts : List Nat := []
  pc : DWord := 0
  words : List Word := []
  npc : DWord := 0
deriving DecidableEq, Repr, Inhabited

/-- A partition (R72, R73). -/
structure Partition where
  /-- Active-set positions, as group keys; none for an empty position. -/
  active : List (Option Nat) := []
  /-- Position that issued last. -/
  last : Nat := 0
  /-- The ready queue. -/
  ready : List Nat := []
deriving DecidableEq, Repr, Inhabited

/-- A swarm core (R22, R32, R94). -/
structure Core where
  ctx : Nat := 0
  /-- Instructions issued in a row from the running context. -/
  run : Nat := 0
  /-- The running context gave up the core (R32). -/
  yielded : Bool := false
  /-- L0 data words: word address and value. -/
  l0 : List (Nat × Word) := []
deriving DecidableEq, Repr, Inhabited

/-- State of an SPM line (R215). -/
structure Line where
  full : Bool := true
  poison : Bool := false
  count : Nat := 0
deriving DecidableEq, Repr, Inhabited

/-- State of a block (R62). -/
inductive BlockState | queued | resident | draining | saving | flushing | saved | completed
deriving DecidableEq, Repr

/-- Pre-emption method (R80). -/
inductive Method | drain | save | flush
deriving DecidableEq, Repr

/-- A pre-emption in hand (R76 to R83, R364 to R366). -/
structure Preemption where
  method : Method
  /-- METHOD of R364 so far. -/
  report : Nat
  bound : Option Nat
  est : Option Nat
  at_ : Nat
  reqlr : Nat
  /-- The die whose scheduler decided it. -/
  die : Nat
  /-- The die whose PREEMPT command asked for it. -/
  cmd : Option Nat
  /-- The launch that the victim makes room for (R76). -/
  requester : Option Nat := none
  /-- No method was feasible or available (R366). -/
  infeasible : Bool
  /-- Place in the order of saves (R83). -/
  turn : Nat
  /-- The check at which a drain may switch is past (R365). -/
  checked : Bool := false
deriving DecidableEq, Repr

/-- A raster primitive in hand: its pixels, as depth and attributes of covered pixels by quad. -/
structure Quad where
  prim : Nat
  /-- Quad index within the primitive, in the order of R291. -/
  index : Nat
  /-- Covered pixels: 64·ly + lx and the start registers x0 upward. -/
  pixels : List (Nat × List Word)
deriving DecidableEq, Repr

/-- A pixel write at the output-merge sequencer (R293, R294). -/
structure PixelOut where
  prim : Nat
  at_ : Nat
  colour : List Word
  z : Word
deriving DecidableEq, Repr

/-- Raster state of a bin block (R285, R291, R296, R405). -/
structure Bin where
  started : Bool := false
  /-- The bin record's bytes (R285). -/
  table : List Byte := []
  query : Nat := 0
  /-- Depth read at the start, for EARLYZ (R292). -/
  depth : List Word := []
  nextPrim : Nat := 0
  /-- Quads set up and not yet given to a group slot. -/
  quads : List Quad := []
  outs : List PixelOut := []
  /-- PRIMIN, CULLED, INVOC, OCCL. -/
  shadow : List Nat := [0, 0, 0, 0]
  /-- Words that a bound image has pushed to output ports 1 to 3 and that make up no whole item yet (R280). -/
  ports : List (List Word) := [[], [], []]
  /-- Image ids bound at acceptance, by unit kind (R283). -/
  binds : List Nat := [0, 0, 0, 0]
  /-- Failed primitives and pixel writes, for the bin's records: INDEX, item and failure (R353, R403). -/
  fails : List (Nat × Nat × TrapInfo) := []
deriving DecidableEq, Repr, Inhabited

/-- What a block is for. -/
inductive BlockKind | grid | swarm | stitched | bin
deriving DecidableEq, Repr, Inhabited

/-- Resources of an engine that a draining block has freed and that are reserved for the launch that asked for the
drain, or for nobody where the supervisor did (R62, R81): group slots and x registers of a partition, SPM lines and AM
banks. -/
structure Freed where
  e : Nat
  part : Nat := 0
  groups : Nat := 0
  regs : Nat := 0
  lines : Nat := 0
  banks : List Nat := []
deriving DecidableEq, Repr

/-- A saved group's state stands in the block; a block (R62, R43, R79, R85, R215, R226). -/
structure Block where
  key : Nat
  launch : Nat
  bid : Nat
  rcb : Nat
  kind : BlockKind := .grid
  bstate : BlockState := .resident
  /-- Engines in LCORE order; for a swarm block the core (as 16·core + ctx). -/
  engines : List Nat := []
  lcores : List Nat := []
  /-- SPM lines of the whole block. -/
  lines : Nat := 0
  /-- SPM bytes that are not zero. -/
  spm : List Host.Cell := []
  /-- Lines whose state is not FULL, unpoisoned, count 0. -/
  lineState : List (Nat × Line) := []
  /-- AM banks reserved on each engine of the block. -/
  banks : List (List Nat) := []
  /-- Multicast credits by token (R226). -/
  credits : List (Nat × Nat) := []
  /-- Barriers updated in a clock, by SPM address: the clock, the four words from before it, the arrivals and bytes of the
  clock so far, and the four words as the last update left them (R237). -/
  bars : List (Nat × List Nat) := []
  since : Nat := 0
  telapsed : Nat := 0
  pre : Option Preemption := none
  /-- Save-record address of each share, for a saved block. -/
  records : List Nat := []
  /-- AM words of a saved block, by share, bank index in the reservation and word. -/
  savedAm : List (Nat × Word) := []
  /-- AM words of a saved block that read as uncorrectable. -/
  savedBad : List Nat := []
  /-- Handle entries of a saved block by share and entry: generation, bank bits, shape. -/
  savedHandles : List (Nat × (Nat × Nat × Nat)) := []
  bin : Option Bin := none
  /-- Place in the order of placements (R76). -/
  placed : Nat := 0
  /-- Place in the order of saving, of a saved block (R66). -/
  order : Nat := 0
  /-- The L1 epoch that the release at the block's completion waits for, and that it has begun (R48). -/
  fence : Option (Option Nat) := none
  /-- What the block has freed while it drains for the supervisor: no block is placed on it (R62, R81). -/
  freed : List Freed := []
deriving DecidableEq, Repr, Inhabited

/-- State of a launch (R63). -/
inductive LaunchState | parked | ready | running | completed | refused
deriving DecidableEq, Repr

/-- A launch that a region scheduler holds (R47, R63, R65, R66, R78). -/
structure Launch where
  key : Nat
  /-- Launch-record address as submitted. -/
  lr : Nat
  die : Nat
  rcb : Nat
  entry : DWord := 0
  jseed : DWord := 0
  args : DWord := 0
  grid : List Nat := [1, 1, 1]
  block : List Nat := [1, 1, 1]
  /-- x registers per thread ÷ 8. -/
  regs : Nat := 8
  flags : Nat := 0
  ambanks : Nat := 0
  spmlines : Nat := 0
  stksz : Nat := 0
  stkoff : Nat := 0
  cells : List Nat := []
  fs : List Word := []
  fssc : List Word := []
  lstate : LaunchState := .ready
  tavg : Option Nat := none
  /-- Order in which launches became Ready. -/
  order : Nat := 0
  /-- The cluster on which a pre-emption makes room for the launch's next block (R76). -/
  claim : Option Nat := none
  /-- What drains have freed for the launch's next block (R81). -/
  freed : List Freed := []
  /-- Next BID not yet placed for the first time. -/
  next : Nat := 0
  /-- BIDs returned by flush, at the head. -/
  again : List Nat := []
  done : Nat := 0
  /-- Engines on which the grid has started (R297). -/
  started : List Nat := []
  raster : Bool := false
  binds : List Nat := [0, 0, 0, 0]
deriving DecidableEq, Repr, Inhabited

/-- The common header of a record (R352), without CYCLE. -/
structure RecHead where
  kind : Nat
  cause : Nat
  flags : Nat := 0
  unit : Nat := 0
  lr : Nat := 0
  bid : Nat := 0
  tid : Nat := 0
  lcore : Nat := 0
  pc : Nat := 0
  addr : Nat := 0
  aux : Nat := 0
deriving DecidableEq, Repr, Inhabited

/-- A writer that waits for room in a trap area (R351): the header of its record, CYCLE at the event (R352), and the
CYCLE since which it has found no room. -/
structure AreaWait where
  head : RecHead
  at_ : Nat
  since : Nat
deriving DecidableEq, Repr, Inhabited

/-- A record that no item or thread holds and that waits for room in a trap area (R351): die, region, header, the
bytes from 0x40, and CYCLE at the event. -/
structure Untold where
  d : Nat
  rcb : Nat
  head : RecHead
  tail : List Byte
  at_ : Nat
deriving DecidableEq, Repr

/-- A region as its scheduler caches it (R44, R45, R46, R64, R70, R84, R361). -/
structure Region where
  rcb : Nat
  parent : Nat := 0
  /-- Root table, for a root region. -/
  table : Nat := 0
  ovr : Nat := 0
  prio : Nat := 0
  fdom : Nat := 0
  flags : Nat := 0
  kpol : Nat := 0
  pbound : Nat := 0
  tkq : Nat := 0
  cycles : Nat := 0
  regq : Nat := 0
  spmq : Nat := 0
  amq : Nat := 0
  cqshare : Nat := 1
  forkcap : Nat := 1
  savearea : Nat := 0
  traparea : Nat := 0
  handler : Nat := 0
  stackarea : Nat := 0
  stwait : Nat := 0
  stregs : Nat := 1
  stspm : Nat := 0
  cycused : Nat := 0
  tkreclaim : Nat := 0
  state : Nat := 0
  depth : Nat := 0
  /-- The region's own cycle limit holds its subtree (R361). -/
  hold : Bool := false
  /-- The die whose count first reached the region's cycle limit (R361). -/
  reached : Option Nat := none
  /-- Cause of the abort of the region's domain (R357). -/
  abort : Option Nat := none
  /-- Image bound for each unit kind, of a graphics context's root (R283). -/
  binds : List Nat := [0, 0, 0, 0]
  /-- Logical numbers given to engines and to swarm contexts: physical and logical number (R70). -/
  engines : List (Nat × Nat) := []
  contexts : List (Nat × Nat) := []
  /-- Writers that found the trap area full (R351). -/
  full : List AreaWait := []
  /-- Headers of written records of entries whose further records wait for room (R351, R353). -/
  told : List RecHead := []
  /-- The area of an aborted domain has stayed full: its writers no longer wait (R351, R357). -/
  mute : Bool := false
  /-- The die whose scheduler registered the RCB (R64, R312). -/
  die : Nat := 0
  /-- A retire sweep is due (R46, R386). -/
  retiring : Bool := false
deriving DecidableEq, Repr, Inhabited

/-- An L1 word that is not invalid (R99, R104, R359): value, valid bytes, dirty bytes. -/
structure L1Word where
  val : Word := 0
  valid : BitVec 4 := 0
  dirty : BitVec 4 := 0
  owned : Bool := false
  epoch : Nat := 0
  poison : Bool := false
  /-- Epoch of a release held in the word (R104). -/
  rel : Option Nat := none
  /-- A WB of the word has been sent and its WBACK has not come (R106). -/
  leaving : Bool := false
deriving DecidableEq, Repr, Inhabited

/-- Who wrote the words of a replay entry (R379). -/
structure Owner where
  rcb : Nat := 0
  lr : Nat := 0
  bid : Nat := 0
  tid : Nat := 0
  lcore : Nat := 0
  pc : Nat := 0
  /-- Of an uncached store of a copy queue or sequencer: its entry or command, and the items whose bytes it holds with
  their addresses (R354). -/
  job : Option (Nat × List (Nat × Nat)) := none
deriving DecidableEq, Repr, Inhabited

/-- An entry of a store replay queue (R102, R104, R380). -/
structure Replay where
  words : List Nat
  epoch : Nat
  rel : Bool
  /-- The release's GETO has been sent. -/
  sent : Bool
  who : Owner
deriving DecidableEq, Repr

/-- A hand-over in progress (R105): the release word, its epoch, and whether a RECALL waits for it. -/
structure HandOver where
  word : Nat
  epoch : Nat
  keep : Bool
deriving DecidableEq, Repr

/-- A cluster L1 (R21, R99 to R108, R245). -/
structure L1 where
  words : List (Nat × L1Word) := []
  epoch : Nat := 0
  replay : List Replay := []
  hand : List HandOver := []
  /-- Epochs that fences write back (R105, R235). -/
  drains : List Nat := []
  /-- Words whose GETO is outstanding. -/
  asked : List Nat := []
deriving DecidableEq, Repr, Inhabited

/-- Directory state of a word that a cluster owns (R99); rel marks OWNREL. -/
structure OwnerState where
  cluster : Nat
  rel : Bool
deriving DecidableEq, Repr

/-- Who takes the result of an atomic, or of a uncached or host access. -/
inductive ReplyTo
  /-- Thread t of group g, request id. -/
  | thread (g t id : Nat)
  /-- No reply; failures are reported for the owner, with SOURCE 10, UNIT, ENT, INDEX and item (R354). -/
  | record (who : Owner) (unit ent index item : Nat)
  /-- The host or a peer. -/
  | outside
deriving DecidableEq, Repr

/-- An atomic on global memory on its way (R123, R233). -/
structure AtomReq where
  pa : Nat
  va : Nat
  width : Nat
  op : AtomOp
  signed : Bool
  b : Nat
  e : Nat
  mo : MemOrd
  sink : ReplyTo
deriving DecidableEq, Repr

/-- A ticketed load on its way to its slice (R230). -/
structure LdtReq where
  g : Nat
  t : Nat
  id : Nat
  pa : Nat
  va : Nat
  size : Nat
  rcb : Nat
  mo : MemOrd
  /-- The ticket of the entry that the slice has allocated; 0 before that. -/
  ticket : Nat := 0
deriving DecidableEq, Repr

/-- What a home does for a line (R101, R103, R105, R106, R123, R230, R97). -/
inductive HomeReq
  | gets (c : Nat) (words : List Nat)
  | geto (c : Nat) (words : List Nat) (rel : Bool)
  | atom (rs : List AtomReq)
  | ldt (r : LdtReq)
  /-- A unit of the device asks for the line's values at home. -/
  | evict
  /-- A host snoop (R314); excl asks for invalidation. -/
  | snoop (excl : Bool)
  /-- The page move k holds and recalls the line (R97). -/
  | move (k : Nat)
  /-- A directory entry is rebuilt after an error (R389). -/
  | rebuild
deriving DecidableEq, Repr

/-- The transaction in hand for a line at its home, and the requests waiting behind it (R101). -/
structure Tx where
  line : Nat
  req : HomeReq
  /-- Clusters whose IACK is awaited. -/
  acks : List Nat
  /-- Words awaited from a cluster by WB. -/
  recalls : List (Nat × Nat)
  queue : List HomeReq
  /-- Atomics of the request that the host agent has yet to let the device perform (R124). -/
  asked : Bool := false
  /-- The device holds the host line until the atomics that wait for it are performed (R124). -/
  held : Bool := false
  /-- Words of the held host line that atomics have read or written so far (R388). -/
  wrote : List Nat := []
deriving DecidableEq, Repr

/-- A word value on its way: value and poison mark. -/
structure WordVal where
  word : Nat
  val : Word
  poison : Bool := false
deriving DecidableEq, Repr

/-- A contribution to a gradient word on its way to its slice, or buffered there (R307, R308, R407). -/
structure Contribution where
  /-- The request, and the launch. -/
  req : Nat
  launch : Nat
  det : Bool
  /-- Key of R307 as one number. -/
  key : Nat
  pa : Nat
  va : Nat
  /-- Gradient, and weight as a fraction. -/
  grad : Word
  wnum : Nat
  wden : Nat
  who : Owner
  ent : Nat
  item : Nat
deriving DecidableEq, Repr

/-- What a message carries (R100, and the messages of the other mechanisms). -/
inductive Body
  | gets (line : Nat) (words : List Nat) (rcb : Nat)
  | geto (line : Nat) (words : List Nat) (rel : Bool) (rcb : Nat)
  | data (line : Nat) (vals : List WordVal)
  | grant (line : Nat) (words : List Nat) (vals : List WordVal) (rel : Bool)
  | inv (line : Nat) (words : List Nat)
  | iack (line : Nat) (words : List Nat) (lost : Bool)
  /-- For a cluster's request, or for the home itself. -/
  | recallMsg (line : Nat) (words : List Nat) (keep : Bool) (asker : Option Nat)
  | wb (line : Nat) (vals : List WordVal)
  | wback (line : Nat) (words : List Nat)
  /-- Atomics on words of one line, performed together (R123). -/
  | atom (rs : List AtomReq)
  | atomr (r : AtomReq) (old : Nat) (fail : Option TrapInfo)
  | retry (line : Nat) (req : HomeReq)
  /-- A GETO that came back failed (R379): words and cause; who wrote an uncached store that failed. -/
  | storeFail (line : Nat) (words : List Nat) (cause : Nat) (who : Option Owner)
  /-- A load that came back failed (R378): line, words, cause and auxiliary value. -/
  | loadFail (line : Nat) (words : List Nat) (cause aux : Nat)
  /-- An uncached load of the request id. -/
  | uload (g t id pa size : Nat)
  /-- Its value. -/
  | uvalue (g t id : Nat) (bytes : List Byte) (fail : Option TrapInfo)
  /-- An uncached store, with the thread that made it. -/
  | ustore (pa : Nat) (bytes : List Byte) (who : Owner)
  /-- Atomics on host or peer memory that its agent performs, or for which it gives the device the line
  (R124, R315). -/
  | hostAtom (rs : List AtomReq) (own : Bool)
  | ldt (r : LdtReq)
  | ticket (g t id : Nat) (val : Nat) (fail : Option TrapInfo)
  | redeem (g t id : Nat) (ticket : Nat) (rcb : Nat) (spm : Option Nat) (drop : Bool)
  | payload (g t id : Nat) (ticket : Nat) (bytes : List Byte) (spm : Option Nat)
      (fail : Option TrapInfo)
  | message (m : Message)
  | stitch (cluster target : Nat) (args : List Word) (nr g rcb : Nat)
  | hgs (c : Contribution)
deriving DecidableEq, Repr

/-- A message in flight, its channel, and the dies it goes between; messages of one channel arrive
in order (R101). -/
structure Msg where
  chan : Nat
  src : Nat
  dst : Nat
  body : Body
deriving DecidableEq, Repr

/-- An outstanding load, LDT, RDM or atomic that writes registers of a thread (R74, R217). -/
structure LoadReq where
  id : Nat
  g : Nat
  t : Nat
  pc : Nat
  words : List Word
  va : Nat
  pa : Nat
  size : Nat
  /-- The destination registers: 2 n for x register n, 2 n + 1 for k register n. -/
  dst : List Nat
  sext : Bool := false
  acquire : Bool := false
  /-- RET pops and jumps; JOIN continues or ends (R378). -/
  ret : Bool := false
  join : Bool := false
  cas : Bool := false
  /-- A load, an LDT, an RDM or an atomic. -/
  kind : Nat := 0
  /-- Destinations that a higher thread of the bundle has written already (R35). -/
  skip : List Nat := []
  /-- The pointer register of a pointer load, and its value from before the load (R167, R368). -/
  ptr : Option (Nat × DWord) := none
deriving DecidableEq, Repr

/-- A TLB entry (R92): unit (engine, or 256 + core), root table, page base, log2 size, physical base
and leaf bits. -/
structure TlbEntry where
  unit : Nat
  table : Nat
  va : Nat
  bits : Nat
  pa : Nat
  leaf : Nat
  /-- Address of the leaf entry. -/
  slot : Nat
  level : Nat
deriving DecidableEq, Repr

/-- A walk in the die's pool (R92): for a unit, the tree's table, the address, the access kind of
R349 and the level. -/
structure Walk where
  id : Nat
  unit : Nat
  table : Nat
  va : Nat
  acc : Nat
  user : Bool
  g : Nat
  t : Nat
deriving DecidableEq, Repr

/-- A finished walk that faulted: taken by its thread when it issues again (R91). -/
structure WalkFault where
  g : Nat
  t : Nat
  va : Nat
  acc : Nat
  info : TrapInfo
deriving DecidableEq, Repr

/-- State of a ticket entry (R383). -/
inductive TicketState | free | held | claimed
deriving DecidableEq, Repr

/-- END of a ticket entry (R383). -/
inductive TicketEnd | none_ | delivered | dropped | aged | reclaimed
deriving DecidableEq, Repr

/-- Who has claimed a ticket entry whose payload is still to be read (R231): group, thread, request or landing,
the place in SPM, and the cluster. -/
structure Redeemer where
  g : Nat
  t : Nat
  id : Nat
  spm : Option Nat
  cluster : Nat
deriving DecidableEq, Repr

/-- A ticket-table entry that has been used (R121, R230, R383, R385). -/
structure Ticket where
  gen : Nat
  rcb : Nat
  tstate : TicketState
  end_ : TicketEnd
  payload : List Byte := []
  bad : Bool := false
  /-- The payload read met a link that is down: the link's unit (R387). -/
  link : Option Nat := none
  /-- The payload read has been performed. -/
  ready : Bool := false
  /-- The redemption that waits for the payload read. -/
  claim : Option Redeemer := none
  born : Nat := 0
  limit : Nat := 0
  /-- Taken out of use (R389). -/
  dead : Bool := false
deriving DecidableEq, Repr

/-- A copy command (R222, R223) in its queue, or a join marker (R228). -/
inductive CqItem
  | entry (id : Nat)
  | marker (join : Nat)
deriving DecidableEq, Repr

/-- A copy-queue entry (R222 to R227). -/
structure CqEntry where
  id : Nat
  g : Nat
  t : Nat
  q : Nat
  blk : Nat
  w : List Word
  who : Owner
  ent : Nat
  mo : MemOrd
  /-- The entry stands at the head and its elements are performed. -/
  begun : Bool := false
  /-- Elements done or failed. -/
  done : List Nat := []
  /-- Failed items with their cause and address (R353). -/
  fails : List (Nat × TrapInfo) := []
  /-- Target blocks of a multicast, by bit of TMASK, once it has begun (R226). -/
  targets : List (Nat × Nat) := []
  /-- The tile of a multicast, once it has been read: SPM address and bytes of each element, and the elements that
  failed. -/
  tile : Option (List (Nat × List Byte) × List (Nat × TrapInfo)) := none
  /-- Stores of the issuer that the entry is not ordered after, as words and values from before (R115). -/
  olds : List Older := []
deriving DecidableEq, Repr

/-- An outstanding LDGS, of a thread or of a proofer instance (R220, R243). -/
structure Landing where
  id : Nat
  e : Nat
  blk : Nat
  spm : Nat
  va : Nat
  size : Nat
  who : Owner
  /-- What the address was translated to at issue: physical address and memory type (R91, R220). -/
  pa : Nat
  mt : Nat
  rcb : Nat
  ent : Nat
  source : Nat
  index : Nat
  first : Nat
  /-- Stores of the issuer that the LDGS is not ordered after (R115). -/
  olds : List Older := []
deriving DecidableEq, Repr

/-- Element type and slot of a matrix operand: the slot's FS and FSSC words (R133). -/
structure SlotVal where
  fs : Word
  scale : Word
deriving DecidableEq, Repr, Inhabited

/-- A quarter operation in a dispatch queue (R75, R267, R268). -/
structure QuarterOp where
  part : Nat
  blk : Nat
  /-- Handle entry, and tile. -/
  entry : Nat
  tile : Nat
  sa : SlotVal
  sb : SlotVal
  /-- Bytes of A's rows 0 to 15. -/
  rows : List (List Byte)
  /-- Bytes of B's columns, when they come from registers. -/
  cols : List (List Byte)
  /-- WB offset, when B comes from the weight buffer. -/
  wb : Option Nat
  /-- Pattern and metadata words of each row, for MMAS. -/
  sparse : Option (Pattern × List (List Word))
  /-- Issue serial number, for the order of R270. -/
  serial : Nat
deriving DecidableEq, Repr

/-- An entry of a weight-buffer loader (R269). -/
structure WbEntry where
  blk : Nat
  offset : Nat
  spm : Nat
  n : Nat
  raw : Bool
  slot : SlotVal
  srn : Nat
  key : DWord
  who : Owner
  ent : Nat
  serial : Nat
deriving DecidableEq, Repr

/-- A matrix sequencer command (R271 to R273, R275). -/
structure SeqCmd where
  number : Nat
  w : List Word
  bounds : List Nat
  /-- The block that owns the handle, or that of the queueing thread. -/
  blk : Nat
  /-- Handle entry, none for an invalid handle of an AMDRAIN. -/
  entry : Option Nat
  who : Owner
  /-- Issue serial number, for the order of R270. -/
  serial : Nat
  /-- Next item, counted with i2 fastest. -/
  item : Nat := 0
  fails : List (Nat × TrapInfo) := []
deriving DecidableEq, Repr

/-- An AM handle entry (R260 to R263). -/
structure Handle where
  gen : Nat := 0
  banks : List Nat := []
  shape : Word := 0
  blk : Option Nat := none
deriving DecidableEq, Repr, Inhabited

/-- An armed proofer range or mailbox (R242). -/
structure Arming where
  unit : Nat
  blk : Nat
  entry : DWord
  start : Nat
  stop : Nat
  /-- The context's group, of a swarm arming. -/
  g : Nat
  ident : Ident
  rcb : Nat
  lr : Nat
  ent : Nat
  /-- Format slots that an instance reads: the arming thread's (R133, R242). -/
  slots : List Word × List Word := ([], [])
  /-- Messages since arming. -/
  count : Nat := 0
  /-- The model's own: the order of arming (R242). -/
  order : Nat := 0
deriving DecidableEq, Repr

/-- An instance that an armed range or mailbox has called for and that has not started (R242). -/
structure Due where
  arming : Arming
  item : Nat
  x : List Word
deriving DecidableEq, Repr

/-- A request of a microcoded unit in a thread's texture queue (R277, R281, R302). -/
structure MicroReq where
  id : Nat
  /-- Function of major 0x3B: 0 TEX, 1 TLD, 2 TGATH, 3 HGF, 4 HGS, 5 HGS.det, 7 TRAV. -/
  fn : Nat
  /-- Image of the unit when the request was issued (R283). -/
  image : Nat
  e : Nat
  g : Nat
  t : Nat
  launch : Nat
  table : Nat
  /-- The input words: the A run, the B pair, then the gradients of HGS. -/
  input : List Word
  /-- Absolute numbers of the result registers, as in LoadReq. -/
  dst : List Nat
  who : Owner
  ent : Nat
  mo : MemOrd
  /-- Words that the thread stored without a release fence since, with their values from before (R302). -/
  olds : List Older := []
  /-- Contributions of an HGS that have not reached their slices, once it has been performed. -/
  left : Option Nat := none
  /-- Destinations that a higher thread of the bundle has written already (R35). -/
  skip : List Nat := []
  /-- Its contributions that failed: the unit that reports each, its item number and its failure (R353). -/
  fails : List (Nat × Nat × TrapInfo) := []
deriving DecidableEq, Repr

/-- An engine's memories, queues and registers (R24). -/
structure Engine where
  /-- AM words that are not zero: 4,096·bank + word. -/
  am : List (Nat × Word) := []
  amBad : List Nat := []
  handles : List (Nat × Handle) := []
  wb : List Host.Cell := []
  /-- Tags of WB granules: launch-record address and BID (R270). -/
  wbTag : List (Nat × (Nat × Nat)) := []
  loader : List WbEntry := []
  dispatch : List QuarterOp := []
  turn : Nat := 0
  used : Nat := 0
  /-- The matrix sequencer has taken the turn (R75). -/
  seqTurn : Bool := false
  li : List Word := [0, 0, 0, 0, 0, 0, 0, 0]
  seq : Nat := 0
  done : Nat := 0
  disc : Nat := 0
  queue : List SeqCmd := []
  /-- What the constant and descriptor caches may still hold (R218, R297): the words written in the
  package since a grid last started on the engine, with their values from before. -/
  olds : List (Nat × Word) := []
  arms : List Arming := []
deriving DecidableEq, Repr, Inhabited

/-- A Stitcher request (R53). -/
structure StitchReq where
  cluster : Nat
  target : Nat
  args : List Word
  nr : Nat
  g : Nat
  rcb : Nat
  at_ : Nat
deriving DecidableEq, Repr

/-- A Kneader count of a page from a die (R68, R95). -/
structure KCount where
  page : Nat
  die : Nat
  cur : Nat
  prev : Nat
  rcb : Nat
deriving DecidableEq, Repr

/-- A page move in hand (R97). -/
structure Move where
  id : Nat
  page : Nat
  frame : Nat
  die : Nat
  at_ : Nat
  /-- Lines not yet quiet. -/
  left : List Nat
deriving DecidableEq, Repr

/-- A shootdown in hand (R92, R312). -/
structure Shoot where
  id : Nat
  table : Nat
  va : Nat
  /-- 4 KiB pages; 0 for the whole space. -/
  pages : Nat
  die : Nat
  dies : List Nat
deriving DecidableEq, Repr

/-- A command at a supervisor page (R311, R312). -/
structure Command where
  w : List Word
  /-- The effect has begun and completes later. -/
  begun : Bool := false
  missed : Bool := false
deriving DecidableEq, Repr

/-- A die's registers and scheduler state (R214, R284, R311, R321, R412). -/
structure Die where
  tkage : Nat := 0x4000
  cmds : List Command := []
  stat : Nat := 0
  err : Nat := 0
  frees : List Nat := []
  kskip : Nat := 0
  draw : List (Nat × Nat) := []
  acc : Nat := 0
  drawDone : Nat := 0
  drawDisc : Nat := 0
  nonce : List Byte := []
  dest : Nat := 0
  reports : Nat := 0
  /-- A report being written, with its nonce, destination and source die or I3C. -/
  reporting : Option (List Byte × Nat) := none
  status : Nat := 0xFF
  m : List Byte := List.replicate 64 0
  corrected : List (Nat × Nat) := []
  /-- A decrement or JOIN was performed since the last reading (R65). -/
  reread : Bool := false
  /-- RCBs that the scheduler caches, the most recently used first (R64). -/
  rcbs : List Nat := []
deriving DecidableEq, Repr, Inhabited

/-- A domain abort whose items have yet to settle (R357): what its KIND 5 record and its interrupt will say. -/
structure Aborting where
  d : Nat
  root : Nat
  head : RecHead
  tail : List Byte
  nested : List Nat
  /-- The area whose own failure caused the abort, to which nothing is written any more (R357). -/
  silent : Option Nat := none
deriving DecidableEq, Repr

/-- Interrupts to the host, I3C alerts and answers sent (R314, R315, R322, R357, R410, R413). -/
inductive Notice
  | abort (fdom cause root : Nat)
  /-- A system event, as an interrupt through a host port. -/
  | system (port event aux : Nat)
  /-- A system event, as an I3C alert of a die. -/
  | alert (die event aux : Nat)
  | report (cause : Nat)
  | clock (mhz : Nat)
  | stopped
  | status (codes : List Nat)
  /-- What an access of the host or a peer through a port reads; none where the access, a load or a store, fails. -/
  | value (port pa : Nat) (bytes : Option (List Byte))
  /-- The response to a snoop of a host line (R314). -/
  | snooped (line : Nat)
  /-- Average power and the hottest sensor, as the board manager reads them (R322). -/
  | power (watts temp : Nat)
  /-- The corrected errors of a die's units, as the board manager reads them (R358). -/
  | corrected (die : Nat) (counts : List (Nat × Nat))
deriving DecidableEq, Repr

/-- An image resident in the control stores (R276 to R278). -/
structure Image where
  kind : Nat
  id : Nat
  len : Nat
  entries : List Nat
  words : List (BitVec 64)
deriving DecidableEq, Repr

/-- Who issues next. -/
inductive Issuer
  | part (e p : Nat)
  | core (c : Nat)
  | proofer (g : Nat)
deriving DecidableEq, Repr

/-- What a turn of the schedule does: an issue of a unit, the arrival of the message at a place of those in
flight, a step of another agent, or nothing. -/
inductive Act
  | issue (u : Issuer)
  | arrival (n : Nat)
  | event (i : Instr)
  | idle
deriving DecidableEq, Repr

/-- A turn of the schedule: how many clocks pass, then what acts (R421; log entry 1). -/
structure Turn where
  clocks : Nat
  act : Act
deriving DecidableEq, Repr

/-- The package. -/
structure State where
  cycle : Nat
  mhz : Nat
  /-- Average power and the hottest sensor as they were measured last (R322, R323). -/
  watts : Nat
  temp : Nat
  stopped : Bool
  /-- The model's own: the turns to come, the next free value, the next key, the instruction that
  issues (log entries 1 to 3). -/
  agenda : List Turn
  free : Nat
  nextKey : Nat
  iss : Issue
  groups : List (Nat × Group)
  parts : List (Nat × Partition)
  cores : List (Nat × Core)
  blocks : List (Nat × Block)
  launches : List (Nat × Launch)
  regions : List (Nat × Region)
  /-- Task inboxes: engine e is e, core c is 256 + c; launch-record address and issuer's RCB. -/
  inboxes : List (Nat × List (Nat × Nat))
  engines : List (Nat × Engine)
  dies : List (Nat × Die)
  /-- Memory by physical address (R18, R309); an unlisted byte is 0. -/
  mem : List Host.Cell
  /-- Word addresses with a poison mark (R359). -/
  marks : List Nat
  /-- Lines of HBM4 in the L2 slices (R20, R94), and whether the L2's copy is newer than the stack's. -/
  l2 : List (Nat × Bool)
  l1s : List (Nat × L1)
  owners : List (Nat × OwnerState)
  sharers : List (Nat × List Nat)
  txs : List Tx
  flight : List Msg
  loads : List LoadReq
  tlb : List TlbEntry
  walks : List Walk
  walkFaults : List WalkFault
  /-- Ticket entries by 1,024·(64·die + slice) + entry. -/
  tickets : List (Nat × Ticket)
  queues : List (Nat × List CqItem)
  /-- Of each copy queue, the region that was admitted last of those that waited, and its turns left (R227). -/
  cqTurns : List (Nat × (Nat × Nat))
  /-- The model's own: by copy queue and word (queue · 2^64 + word), the clock before which no later entry of the queue
  may find the word's value (R115). -/
  cqFloors : List (Nat × Nat)
  copies : List CqEntry
  lands : List Landing
  micro : List MicroReq
  /-- Buffered HGS.det contributions by slice, in order of arrival. -/
  scatter : List (Nat × Contribution)
  /-- Launches overflowed at a slice (R407): slice and launch. -/
  overflow : List (Nat × Nat)
  stitches : List StitchReq
  /-- Formed groups that wait for an engine with room (R53). -/
  formed : List (List StitchReq)
  swarmArms : List Arming
  due : List Due
  kcounts : List KCount
  moves : List Move
  /-- Pages moved, and the epoch of the move (R95). -/
  moved : List (Nat × Nat)
  shoots : List Shoot
  images : List Image
  keys : List (List Byte)
  /-- Link status of R411. -/
  links : Nat
  /-- Partitions as die masks now and at the next reset, and host ports (R319, R322). -/
  division : List Nat
  nextDivision : List Nat
  hostPorts : List Nat
  nextPorts : List Nat
  /-- Peer number and port (R312, R315). -/
  peers : List (Nat × Nat)
  natop : Nat
  /-- Issue serial of each engine's WBLD and MMA (R270); the model's own order count. -/
  serial : Nat
  notices : List Notice
  /-- Records that wait for room (R351). -/
  untold : List Untold
  /-- Domain aborts that have not been reported yet (R357). -/
  aborts : List Aborting
deriving DecidableEq, Repr

/-- The machine right after reset (R211, R214, R275, R276, R284, R311, R315, R319 to R321, R383):
nothing is resident, memory is clear, and the management cores have not answered yet. -/
def State.reset : State :=
  { cycle := 0, mhz := 1500, watts := 0, temp := 0, stopped := false, agenda := [], free := 0, nextKey := 0
    iss := {}, groups := [], parts := [], cores := [], blocks := [], launches := [], regions := []
    l2 := [], inboxes := [], engines := [], dies := [], mem := [], marks := [], l1s := [], owners := []
    sharers := [], txs := [], flight := [], loads := [], tlb := [], walks := [], walkFaults := []
    tickets := [], queues := [], cqTurns := [], cqFloors := [], copies := [], lands := [], micro := [], scatter := []
    overflow := [], stitches := [], formed := [], swarmArms := [], due := [], kcounts := []
    moves := [], moved := [], shoots := [], images := [], keys := [], links := 0xFF
    division := [0xF], nextDivision := [0xF], hostPorts := [0], nextPorts := [0], peers := []
    natop := 0, serial := 0, notices := [], untold := [], aborts := [] }

end Sys2Proof.Machine
end

