-- ==== Sys2Proof/Machine/Access.lean ====
section
/-! DEFINITION. The one home of every register and table: accessors of groups, threads, registers and
masks, cause codes (R348), unit identifiers (R26), and the lookups of regions, blocks and engines. -/

namespace Sys2Proof.Machine

/-! ## Cause codes (R348) -/

/-- ILLEGAL_OP. -/
def cILLEGAL : Nat := 0x01
/-- RESERVED_FIELD. -/
def cRESERVED : Nat := 0x02
/-- PRIV_OP. -/
def cPRIV : Nat := 0x03
/-- NOT_ON_SWARM. -/
def cNOSWARM : Nat := 0x04
/-- REG_OUTSIDE_ALLOC. -/
def cREGOUT : Nat := 0x05
/-- MISALIGNED. -/
def cMISALIGN : Nat := 0x06
/-- PAGE_NOT_PRESENT. -/
def cNOTPRES : Nat := 0x10
/-- PAGE_PROTECTION. -/
def cPROT : Nat := 0x11
/-- SPM_BOUND. -/
def cSPM : Nat := 0x12
/-- AM_UNALLOC_WRITE. -/
def cAMUNALLOC : Nat := 0x13
/-- AM_BAND_OWNER. -/
def cAMBAND : Nat := 0x14
/-- POISON. -/
def cPOISON : Nat := 0x15
/-- WB_BOUND. -/
def cWB : Nat := 0x16
/-- TICKET_CONSUMED. -/
def cTKCONSUMED : Nat := 0x20
/-- TICKET_STALE. -/
def cTKSTALE : Nat := 0x21
/-- TICKET_EXPIRED. -/
def cTKEXPIRED : Nat := 0x22
/-- TICKET_FOREIGN. -/
def cTKFOREIGN : Nat := 0x23
/-- TICKET_TABLE_FULL. -/
def cTKFULL : Nat := 0x24
/-- MIGR_UNMARKED. -/
def cMIGR : Nat := 0x30
/-- MIGR_LIVE_OVERFLOW. -/
def cMIGRLIVE : Nat := 0x31
/-- BUDGET. -/
def cBUDGET : Nat := 0x40
/-- WATCHDOG. -/
def cWATCHDOG : Nat := 0x41
/-- PREEMPT_BOUND_MISSED. -/
def cPREEMPT : Nat := 0x42
/-- LINK_FAILURE. -/
def cLINK : Nat := 0x50
/-- UNCORRECTABLE_ECC. -/
def cECC : Nat := 0x51
/-- HOST_ATOMIC_DENIED. -/
def cHOSTDENY : Nat := 0x52
/-- HGS_BUFFER_FULL. -/
def cHGSFULL : Nat := 0x60
/-- CONTROL_STORE_IMAGE. -/
def cIMAGE : Nat := 0x61
/-- BREAKPOINT. -/
def cBREAK : Nat := 0x70
/-- SERVICE_CALL. -/
def cSERVICE : Nat := 0x71

/-! ## Places and unit identifiers (R14, R20, R21, R26) -/

/-- The identifier of a unit: die, cluster on the die, kind, index (R26). -/
def unitId (die cluster kind index : Nat) : Nat :=
  die * 16384 + cluster * 1024 + kind * 256 + index

/-- Identifier of engine e of the package, which is engine e mod 4 of cluster e div 4. -/
def unitEngine (e : Nat) : Nat := unitId (e / 64) (e / 4 % 16) 0 (e % 4)

/-- Identifier of swarm core c of the package, core c mod 64 of cluster c div 64. -/
def unitCore (c : Nat) : Nat := unitId (c / 1024) (c / 64 % 16) 1 (c % 64)

/-- Identifier of a unit of cluster c of the package. -/
def unitCluster (c index : Nat) : Nat := unitId (c / 16) (c % 16) 2 index

/-- Identifier of a unit of a die. -/
def unitDie (d index : Nat) : Nat := unitId d 0 3 index

/-- The cluster of the package on which a group runs. -/
def GroupKind.cluster : GroupKind → Nat
  | .simt e _ => e / 4
  | .swarm core _ => core / 64
  | .proofer u => if u < 512 then u / 2 / 4 else (u - 512) / 4

/-- The die on which a group runs. -/
def GroupKind.die (k : GroupKind) : Nat := k.cluster / 16

/-- The group is a swarm context. -/
def GroupKind.isSwarm : GroupKind → Bool
  | .swarm _ _ => true
  | _ => false

/-- The group is a proofer instance. -/
def GroupKind.isProofer : GroupKind → Bool
  | .proofer _ => true
  | _ => false

/-- The engine of a group; an engine proofer's engine. A swarm context has none and answers 256. -/
def GroupKind.engine : GroupKind → Nat
  | .simt e _ => e
  | .swarm _ _ => 256
  | .proofer u => if u < 512 then u / 2 else 256

/-- The unit that runs a group's threads (R26, R210). -/
def GroupKind.unit : GroupKind → Nat
  | .simt e _ => unitEngine e
  | .swarm core _ => unitCore core
  | .proofer u =>
    if u < 512 then unitCluster (u / 2 / 4) (8 + 2 * (u / 2 % 4) + u % 2)
    else unitCluster ((u - 512) / 4) (4 + (u - 512) % 4)

/-- The TLB that translates a group's accesses: its engine's, or its core's (R92). Of a swarm proofer, which the spec
gives no TLB (R22, R24, R92), it is that of the first core of the proofer's cores (DESIGN CHOICE,
log entry 106). -/
def GroupKind.tlb : GroupKind → Nat
  | .simt e _ => e
  | .swarm core _ => 256 + core
  | .proofer u => if u < 512 then u / 2 else 256 + 16 * (u - 512)

/-- The port of the cluster crossbar that carries a group's requests: its engine's, or that of 16 swarm cores and
their proofer (R23). -/
def GroupKind.port : GroupKind → Nat
  | .simt e _ => e
  | .swarm core _ => 256 + core / 16
  | .proofer u => if u < 512 then u / 2 else 256 + (u - 512)

/-! ## Groups and threads -/

namespace State

/-- A group by key. -/
def group (s : State) (g : Nat) : Group := lgetD g s.groups default

/-- The state with group g changed; nothing where g is no group. -/
def modGroup (s : State) (g : Nat) (f : Group → Group) : State := match lget g s.groups with
  | some x => { s with groups := lput g (f x) s.groups }
  | none => s

/-- Thread t of group g. -/
def thread (s : State) (g t : Nat) : Thread := (s.group g).threads.getD t default

/-- The state with thread t of group g changed. -/
def modThread (s : State) (g t : Nat) (f : Thread → Thread) : State :=
  s.modGroup g fun G => { G with threads := G.threads.modify t f }

/-- The state with a fresh key: the key, and the state after. -/
def fresh (s : State) : Nat × State := (s.nextKey, { s with nextKey := s.nextKey + 1 })

/-- The next free choice of a run (R2, "unspecified"; log entry 2). -/
def freeBit (s : State) : Bool × State := (Config.freeBit s.free, { s with free := s.free + 1 })

/-- The group that issues. -/
def cur (s : State) : Group := s.group s.iss.g

/-- A thread of the group that issues. -/
def th (s : State) (t : Nat) : Thread := s.thread s.iss.g t

/-- The state with a thread of the issuing group changed. -/
def modTh (s : State) (t : Nat) (f : Thread → Thread) : State := s.modThread s.iss.g t f

/-- The state with the PC of a thread of the issuing group set. -/
def setPc (s : State) (t : Nat) (pc : DWord) : State := s.modTh t fun h => { h with pc := pc }

/-! ## Registers (R154, R155) -/

/-- Absolute number of the x register that field f names for a thread. -/
def xnum (s : State) (g t : Nat) (f : Nat) : Nat := (s.thread g t).xwb.toNat + f

/-- Absolute number of the k register that field f names. -/
def knum (s : State) (g : Nat) (f : Nat) : Nat := (s.group g).kwb.toNat + f - 96

/-- The register that field f names for thread t of group g (R154). -/
def readRegOf (s : State) (g t : Nat) (f : Nat) : Word :=
  if f < 96 then (s.thread g t).x.getD (s.xnum g t f) 0 else (s.group g).k.getD (s.knum g f) 0

/-- The state with the absolute x register n of a thread written; the write clears an uncorrectable
error of the register (R358). -/
def writeX (s : State) (g t n : Nat) (v : Word) : State :=
  s.modThread g t fun h => { h with x := h.x.set n v, badX := h.badX.filter (· ≠ n) }

/-- The state with the absolute k register n of a group written (R358). -/
def writeK (s : State) (g n : Nat) (v : Word) : State :=
  s.modGroup g fun G => { G with k := G.k.set n v, badK := G.badK.filter (· ≠ n) }

/-- The state with the register that field f names written. -/
def writeRegOf (s : State) (g t : Nat) (f : Nat) (v : Word) : State :=
  if f < 96 then s.writeX g t (s.xnum g t f) v else s.writeK g (s.knum g f) v

/-- Opnd(t, f) of the issuing group (R175). -/
def reg (s : State) (t : Nat) (f : Field) : Word := s.readRegOf s.iss.g t f.toNat

/-- Register i of the run at field f. -/
def regAt (s : State) (t : Nat) (f : Field) (i : Nat) : Word := s.readRegOf s.iss.g t (f.toNat + i)

/-- Pair(t, f): the higher field holds the more significant half (R155). -/
def pair (s : State) (t : Nat) (f : Field) : DWord := s.regAt t f 1 ++ s.reg t f

/-- Pair(t, f + 2 i) of a run. -/
def pairAt (s : State) (t : Nat) (f : Field) (i : Nat) : DWord := s.regAt t f (i + 1) ++ s.regAt t f i

/-- Run(t, f, n). -/
def run (s : State) (t : Nat) (f : Field) (n : Nat) : List Word := (upTo n).map fun i => s.regAt t f i

/-- Write of Opnd(t, f). -/
def setReg (s : State) (t : Nat) (f : Field) (v : Word) : State := s.writeRegOf s.iss.g t f.toNat v

/-- Write of Run(t, f, n) from a list. -/
def setRun (s : State) (t : Nat) (f : Field) (vs : List Word) : State :=
  ((upTo vs.length).foldl fun st i => st.writeRegOf s.iss.g t (f.toNat + i) (vs.getD i 0)) s

/-- Write of Pair(t, f). -/
def setPair (s : State) (t : Nat) (f : Field) (v : DWord) : State :=
  s.setRun t f [v.setWidth 32, (v >>> 32).setWidth 32]

/-- P(t, n) (R31, R175). -/
def ptr (s : State) (t : Nat) (n : Nat) : DWord := (s.th t).p.getD n 0

/-- Write of P(t, n). -/
def setPtr (s : State) (t : Nat) (n : Nat) (v : DWord) : State :=
  s.modTh t fun h => { h with p := h.p.set n v }

/-- C(t, n); c7 reads true (R8). -/
def pred (s : State) (t : Nat) (c : BitVec 3) : Bool :=
  if c = 7#3 then true else (s.th t).c.getD c.toNat false

/-- Write of C(t, n); a write to c7 has no effect (R8, R189). -/
def setPred (s : State) (t : Nat) (c : BitVec 3) (v : Bool) : State :=
  s.modTh t fun h => { h with c := h.c.set c.toNat v }

/-- Numbers of the registers of a run: 2 n for x register n, 2 n + 1 for k register n. -/
def runNums (s : State) (g t : Nat) (f n : Nat) : List Nat :=
  (upTo n).map fun i => if f < 96 then 2 * s.xnum g t (f + i) else 2 * s.knum g (f + i) + 1

/-! ## Masks (R38) -/

end State

/-- The bits of the threads that satisfy a test. -/
def threadBits (ts : List Thread) (p : Thread → Bool) : Nat :=
  (upTo ts.length).foldl (fun a i => if p (ts.getD i default) then a + 2 ^ i else a) 0

/-- m0: the live threads. -/
def Group.m0 (G : Group) : Nat := threadBits G.threads fun h => h.slot = .live

/-- Trapped(g) (R203). -/
def Group.trappedBits (G : Group) : Nat := threadBits G.threads fun h => h.slot = .trapped

/-- M(g, n). -/
def Group.mask (G : Group) (n : Nat) : Nat :=
  if n = 0 then G.m0 else (G.masks.getD (n - 1) 0).toNat

/-- The group with m(n) set, for n from 1 to 11. -/
def Group.setMask (G : Group) (n : Nat) (v : Nat) : Group :=
  { G with masks := G.masks.set (n - 1) (BitVec.ofNat 32 v) }

/-- A(n). -/
def Group.arrived (G : Group) (n : Nat) : Nat := (G.arrive.getD n 0).toNat

/-- The group with A(n) set. -/
def Group.setArrived (G : Group) (n : Nat) (v : Nat) : Group :=
  { G with arrive := G.arrive.set n (BitVec.ofNat 32 v) }

/-- The threads that hold a credit for mask n. -/
def Group.credits (G : Group) (n : Nat) : Nat := (G.credit.getD n 0).toNat

/-- The group with the credits for mask n set. -/
def Group.setCredits (G : Group) (n : Nat) (v : Nat) : Group :=
  { G with credit := G.credit.set n (BitVec.ofNat 32 v) }

/-- A number without bit i. -/
def clearBit (v i : Nat) : Nat := if bit v i then v - 2 ^ i else v

/-- v without the bits of w. -/
def andNot (v w : Nat) : Nat := v - Nat.land v w

/-- The completion test of R39 for mask n: the wait completes when A(n) holds every live member. -/
def Group.complete (G : Group) (n : Nat) : Group :=
  let a := G.arrived n
  if a = 0 ∨ andNot (Nat.land (G.mask n) G.m0) a ≠ 0 then G
  else
    let lucky := if n = 0 then 0 else Nat.land (G.mask n) G.trappedBits
    let ts := (upTo G.threads.length).map fun i =>
      let h := G.threads.getD i default
      if bit a i then { h with wait := none, pc := h.pc + 4 } else h
    ({ G with threads := ts }.setArrived n 0).setCredits n (Nat.lor (G.credits n) lucky)

/-- The completion tests of every mask, which a departure from m0 can satisfy (R40). -/
def Group.completeAll (G : Group) : Group := (upTo 12).foldl (fun G n => G.complete n) G

/-- Thread t taken out of every arrival set. -/
def Group.unarrive (G : Group) (t : Nat) : Group :=
  { G with arrive := G.arrive.map fun a => BitVec.ofNat 32 (clearBit a.toNat t) }

/-- Thread t taken out of every mask, arrival set and credit for good (R40). -/
def Group.forget (G : Group) (t : Nat) : Group :=
  let G := G.unarrive t
  { G with masks := G.masks.map fun a => BitVec.ofNat 32 (clearBit a.toNat t)
           credit := G.credit.map fun a => BitVec.ofNat 32 (clearBit a.toNat t) }

namespace State

/-! ## Tables -/

/-- A block by key. -/
def block (s : State) (b : Nat) : Block := lgetD b s.blocks default
/-- A change of a block that is there. -/
def modBlock (s : State) (b : Nat) (f : Block → Block) : State := match lget b s.blocks with
  | some x => { s with blocks := lput b (f x) s.blocks }
  | none => s
/-- A launch by key. -/
def launch (s : State) (l : Nat) : Launch := lgetD l s.launches default
/-- A change of a launch that is there. -/
def modLaunch (s : State) (l : Nat) (f : Launch → Launch) : State := match lget l s.launches with
  | some x => { s with launches := lput l (f x) s.launches }
  | none => s
/-- A region by RCB address. -/
def region (s : State) (r : Nat) : Region := lgetD r s.regions default
/-- A change of a region that is there. -/
def modRegion (s : State) (r : Nat) (f : Region → Region) : State := match lget r s.regions with
  | some x => { s with regions := lput r (f x) s.regions }
  | none => s
/-- An engine. -/
def engine (s : State) (e : Nat) : Engine := lgetD e s.engines default
/-- A change of an engine. -/
def modEngine (s : State) (e : Nat) (f : Engine → Engine) : State :=
  { s with engines := lmod e default f s.engines }
/-- A die. -/
def die (s : State) (d : Nat) : Die := lgetD d s.dies default
/-- A change of a die. -/
def modDie (s : State) (d : Nat) (f : Die → Die) : State := { s with dies := lmod d default f s.dies }
/-- A cluster's L1. -/
def l1 (s : State) (c : Nat) : L1 := lgetD c s.l1s default
/-- A change of a cluster's L1. -/
def modL1 (s : State) (c : Nat) (f : L1 → L1) : State := { s with l1s := lmod c default f s.l1s }
/-- A swarm core. -/
def core (s : State) (c : Nat) : Core := lgetD c s.cores default
/-- A change of a swarm core. -/
def modCore (s : State) (c : Nat) (f : Core → Core) : State :=
  { s with cores := lmod c default f s.cores }
/-- A partition, by 4 e + p. -/
def part (s : State) (k : Nat) : Partition := lgetD k s.parts default
/-- A change of a partition. -/
def modPart (s : State) (k : Nat) (f : Partition → Partition) : State :=
  { s with parts := lmod k default f s.parts }

/-- The state after a notice to the host or the board manager. -/
def notify (s : State) (n : Notice) : State := { s with notices := s.notices ++ [n] }

/-! ## The region tree (R44, R45, R356) -/

/-- The path from a region towards the root, nearest first; at most 8 nodes. -/
def pathFrom (s : State) : Nat → Nat → List Nat
  | 0, _ => []
  | n + 1, r => if (s.region r).parent = 0 then [r] else r :: pathFrom s n (s.region r).parent

/-- The path from region r to its root. -/
def path (s : State) (r : Nat) : List Nat := s.pathFrom 8 r

/-- The root of region r's tree. -/
def rootOf (s : State) (r : Nat) : Nat := (s.path r).getLastD r

/-- The RCB that supplies the field with inherit bit b (R45). -/
def supplier (s : State) (r b : Nat) : Nat :=
  ((s.path r).find? fun q => bit (s.region q).ovr b || (s.region q).parent = 0).getD r

/-- The region whose fields hold the resolved value of inherit bit b. -/
def resolved (s : State) (r b : Nat) : Region := s.region (s.supplier r b)

/-- The resolved GFX bit (R44). -/
def gfx (s : State) (r : Nat) : Bool := bit (s.resolved r 16).flags 1

/-- The resolved SUPH bit. -/
def suph (s : State) (r : Nat) : Bool := bit (s.resolved r 1).flags 0

/-- The RCBs of the chain that limit a budget: those whose OVR bit b is set, and the root (R45). -/
def limiters (s : State) (r b : Nat) : List Nat :=
  (s.path r).filter fun q => bit (s.region q).ovr b || (s.region q).parent = 0

/-- Region q lies in the subtree of region r. -/
def under (s : State) (r q : Nat) : Bool := (s.path q).contains r

/-- The domain root of a region (R356). -/
def domainRoot (s : State) (r : Nat) : Nat := s.supplier r 1

/-- The root table of a region's tree (R86). -/
def tableOf (s : State) (r : Nat) : Nat := (s.region (s.rootOf r)).table

/-- Two owners are the same thread, wherever it ran. -/
def sameThread (a b : Owner) : Bool := a.rcb = b.rcb && a.lr = b.lr && a.bid = b.bid && a.tid = b.tid

/-- The launch record of a thread: of a stitched thread, its issuer's (R372). -/
def threadLr (s : State) (g t : Nat) : Nat := match (s.thread g t).stitch with
  | some (_, issuer) => (s.group issuer).lr
  | none => (s.group g).lr

/-- Who acts when thread t of group g does (R379). -/
def owner (s : State) (g t : Nat) : Owner :=
  let G := s.group g
  let h := s.thread g t
  { rcb := G.rcb, lr := s.threadLr g t, bid := h.ident.bid.toNat, tid := h.ident.tid.toNat
    lcore := h.ident.lcore.toNat, pc := h.pc.toNat }

/-- The owner of the instruction that issues, for thread t. -/
def who (s : State) (t : Nat) : Owner := { s.owner s.iss.g t with pc := s.iss.pc.toNat }

end State
end Sys2Proof.Machine
end

