-- ==== Sys2Proof/Machine/Memory.lean ====
section
/-! DEFINITION. Physical memory: the address map (R18, R309, R310, R315, R319), routes and link
failures (R15, R316, R411), the value that every agent finds at the home of a word (R99), and the
reads and writes that units of the device make there. -/

namespace Sys2Proof.Machine

/-- What a physical address names. -/
inductive Target
  /-- HBM4 of a die. -/
  | hbm (die : Nat)
  /-- Host memory, through a port. -/
  | host (port : Nat)
  /-- A peer package, through a port. -/
  | peer (port : Nat)
  /-- A device-register page: unit, page and offset. -/
  | dev (unit page off : Nat)
  /-- Unpopulated. -/
  | nothing
deriving DecidableEq, Repr

namespace State

/-! ## Partitions, ports and routes -/

/-- The partition of a die, as a die mask (R319). -/
def partitionOf (s : State) (d : Nat) : Nat := (s.division.find? fun m => bit m d).getD (2 ^ d)

/-- Dies d and e lie in one partition. -/
def together (s : State) (d e : Nat) : Bool := bit (s.partitionOf d) e

/-- The die's management core has released the die: it has answered with status 0x00 (R320, R412). -/
def running (s : State) (d : Nat) : Bool := (s.die d).status = 0

/-- The dies of a die's partition, in ascending order. -/
def partitionDies (s : State) (d : Nat) : List Nat := (upTo 4).filter fun e => s.together d e

/-- The host ports on the dies of a die's partition, in ascending order (R314). -/
def hostPortsOf (s : State) (d : Nat) : List Nat :=
  (upTo 4).filter fun p => s.hostPorts.contains p && s.together d p

/-- The host port of a host line for a die's partition (R314). -/
def hostPortFor (s : State) (d pa : Nat) : Nat := match s.hostPortsOf d with
  | [] => 0
  | [p] => p
  | p :: q :: _ => if bit pa 12 then q else p

end State

/-- The hops of a fixed route: the die left, the status bit of the link (R411), and the index of the
link's unit on that die (R15, R26). -/
def hops : Nat → Nat → List (Nat × Nat × Nat)
  | 0, 1 => [(0, 4, 72)]
  | 1, 0 => [(1, 4, 72)]
  | 0, 2 => [(0, 5, 73)]
  | 2, 0 => [(2, 5, 73)]
  | 1, 3 => [(1, 6, 73)]
  | 3, 1 => [(3, 6, 73)]
  | 2, 3 => [(2, 7, 72)]
  | 3, 2 => [(3, 7, 72)]
  | 0, 3 => [(0, 4, 72), (1, 6, 73)]
  | 3, 0 => [(3, 7, 72), (2, 5, 73)]
  | 1, 2 => [(1, 4, 72), (0, 5, 73)]
  | 2, 1 => [(2, 7, 72), (3, 6, 73)]
  | _, _ => []

/-- The home slice of an HBM4 line on its die, by R18's formula. -/
def sliceOf (pa : Nat) : Nat :=
  [bits pa 12 7, bits pa 18 13, bits pa 24 19, bits pa 30 25, bits pa 36 31].foldl Nat.xor 0

/-- The stack of its die that holds an HBM4 address (R18). -/
def stackOf (pa : Nat) : Nat := bits pa 37 12 % 3

/-- The line of an address. -/
def lineOf (pa : Nat) : Nat := pa / 128 * 128

/-- The word addresses that n bytes from pa touch. -/
def wordsIn (pa n : Nat) : List Nat :=
  if n = 0 then [] else (upTo ((pa % 4 + n + 3) / 4)).map fun i => pa / 4 * 4 + 4 * i

/-- The word addresses that n bytes from pa fill wholly. -/
def fullWordsIn (pa n : Nat) : List Nat :=
  (wordsIn pa n).filter fun wa => pa ≤ wa && wa + 4 ≤ pa + n

/-- Bits of a word's bytes that n bytes from pa cover. -/
def byteMask (pa n wa : Nat) : BitVec 4 :=
  BitVec.ofNat 4 ((upTo 4).foldl (fun a i => if pa ≤ wa + i && wa + i < pa + n then a + 2 ^ i else a) 0)

/-- A word with the bytes of a mask taken from another word. -/
def mergeBytes (m : BitVec 4) (new old : Word) : Word :=
  (upTo 4).foldl (fun a i =>
    let k := BitVec.ofNat 32 (0xFF * 2 ^ (8 * i))
    if m.getLsbD i then (a &&& ~~~k) ||| (new &&& k) else a) old

/-- The word at wa that bytes from pa give, where they cover it. -/
def wordFrom (pa : Nat) (bs : List Byte) (wa : Nat) : Word :=
  BitVec.ofNat 32 (ofBytes ((upTo 4).map fun i =>
    if pa ≤ wa + i then bs.getD (wa + i - pa) 0 else 0))

namespace State

/-- The unit of the first down link on the route from die d to die e (R316). -/
def routeFail (s : State) (d e : Nat) : Option Nat :=
  ((hops d e).find? fun h => !bit s.links h.2.1).map fun h => unitDie h.1 h.2.2

/-- The unit of a down link between two dies, in either direction (R390). -/
def pairFail (s : State) (d e : Nat) : Option Nat := match s.routeFail d e with
  | some u => some u
  | none => s.routeFail e d

/-- The first die of a die's partition. -/
def firstDie (s : State) (d : Nat) : Nat := (s.partitionDies d).headD d

/-- The key under which the model holds host and peer memory: partitions share neither (R319), so the address has
the first die of the partition above its 52 bits. HBM4 and device registers keep their address. -/
def ownAddr (s : State) (d pa : Nat) : Nat :=
  if bits pa 51 48 = 1 ∨ bits pa 51 48 = 2 then pa % 2 ^ 52 + 2 ^ 52 * s.firstDie d else pa

/-- The physical address of a key: what records and notices name (R312). -/
def physOf (key : Nat) : Nat := key % 2 ^ 52

/-- The port to which a die's partition has bound a peer number, by 16 · first die + number (R312). -/
def peerPort (s : State) (d n : Nat) : Option Nat := lget (16 * s.firstDie d + n) s.peers

/-- A page of a unit that exists (R310). -/
def pageExists (unit page : Nat) : Bool :=
  let kind := unit / 256 % 4
  let index := unit % 256
  (kind = 2 && 24 ≤ index && index ≤ 27 && page = 0)
    || (kind = 3 && unit / 1024 % 16 = 0 && ((index = 64 && page ≤ 1) || (index = 67 && page = 0)))

/-- The target of a physical address, for an agent on die d (R18, R309, R310, R315, R319). -/
def target (s : State) (d pa : Nat) : Target :=
  if pa / 2 ^ 40 = 0 then
    let e := bits pa 39 38
    if bits pa 37 0 < 0x2400000000 ∧ s.together d e then .hbm e else .nothing
  else if bits pa 51 48 = 1 then .host (s.hostPortFor d pa)
  else if bits pa 51 48 = 2 ∧ bits pa 43 40 = 0 then match s.peerPort d (bits pa 47 44) with
    | some p =>
      if s.together d p ∧ p ≠ 0 ∧ ¬ s.hostPorts.contains p then .peer p else .nothing
    | none => .nothing
  else if bits pa 51 48 = 0xF ∧ bits pa 47 30 = 0 then
    let unit := bits pa 27 12
    if pageExists unit (bits pa 29 28) ∧ s.together d (unit / 16384) then
      .dev unit (bits pa 29 28) (bits pa 11 0)
    else .nothing
  else .nothing

/-- The die of an address's home: of its stacks, or of the port that reaches it (R18, R124). -/
def homeDie (s : State) (d pa : Nat) : Nat := match s.target d pa with
  | .hbm e => e
  | .host p | .peer p => p
  | .dev u _ _ => u / 16384
  | .nothing => d

/-- The home slice of an address, numbered 64 · die + slice (R18, R124). -/
def homeSlice (s : State) (d pa : Nat) : Nat := 64 * s.homeDie d pa + sliceOf pa

/-- The unit of the down link that an access from die d to an address meets (R316, R411). -/
def accessFail (s : State) (d pa : Nat) : Option Nat :=
  match s.pairFail d (s.homeDie d pa) with
  | some u => some u
  | none => match s.target d pa with
    | .host p | .peer p => if bit s.links p then none else some (unitDie p 80)
    | _ => none

/-! ## The value at home -/

/-- The word of the cluster that owns it, where its L1 holds it. -/
def ownedWord (s : State) (wa : Nat) : Option L1Word := match lget wa s.owners with
  | some o => match lget wa (s.l1 o.cluster).words with
    | some w => if w.owned then some w else none
    | none => none
  | none => none

/-- A word on its way home. -/
def flyingHome (s : State) (wa : Nat) : Option WordVal :=
  s.flight.findSome? fun m => match m.body with
    | .wb _ vals => vals.find? fun v => v.word = wa
    | _ => none

/-- The current value of a word: its owner's, or the one on its way home, or the home's (R99). -/
def homeWord (s : State) (wa : Nat) : WordVal := match s.ownedWord wa with
  | some w => { word := wa, val := w.val, poison := w.poison }
  | none => match s.flyingHome wa with
    | some v => v
    | none => { word := wa, val := BitVec.ofNat 32 (ofBytes (readBytes s.mem wa 4))
                poison := s.marks.contains wa }

/-- A byte at its home. -/
def homeByte (s : State) (a : Nat) : Byte :=
  BitVec.ofNat 8 ((s.homeWord (a / 4 * 4)).val.toNat / 2 ^ (8 * (a % 4)))

/-- n bytes at their home. -/
def homeBytes (s : State) (a n : Nat) : List Byte := (upTo n).map fun i => s.homeByte (a + i)

/-- A word among n bytes from a carries a poison mark (R359). -/
def markedIn (s : State) (a n : Nat) : Bool := (wordsIn a n).any fun wa => (s.homeWord wa).poison

/-- A word that bytes from pa overwrite: the covered bytes replaced, the mark cleared when all four
are (R359). -/
def patchVal (pa : Nat) (bs : List Byte) (v : WordVal) : WordVal :=
  let m := byteMask pa bs.length v.word
  { v with val := mergeBytes m (wordFrom pa bs v.word) v.val, poison := v.poison && m ≠ 15#4 }

/-- An L1 word that a write at home overtakes: the bytes written locally and not yet owned stay. -/
def patchL1 (pa : Nat) (bs : List Byte) (wa : Nat) (w : L1Word) : L1Word :=
  let m := byteMask pa bs.length wa
  let m := if w.owned then m else m &&& w.valid &&& ~~~w.dirty
  { w with val := mergeBytes m (wordFrom pa bs wa) w.val
           poison := w.poison && byteMask pa bs.length wa ≠ 15#4 }

/-- A message whose values a write at home overtakes. -/
def patchMsg (pa : Nat) (bs : List Byte) (m : Msg) : Msg := match m.body with
  | .data l vals => { m with body := .data l (vals.map (patchVal pa bs)) }
  | .grant l ws vals rel => { m with body := .grant l ws (vals.map (patchVal pa bs)) rel }
  | .wb l vals => { m with body := .wb l (vals.map (patchVal pa bs)) }
  | _ => m

/-- Words dropped from every L0 of a cluster (R94). -/
def dropL0 (s : State) (c : Nat) (ws : List Nat) : State :=
  { s with cores := s.cores.map fun e =>
      if e.1 / 64 = c then (e.1, { e.2 with l0 := e.2.l0.filter fun w => !ws.contains w.1 }) else e }

/-- Words dropped from every L0 of the package. -/
def dropAllL0 (s : State) (ws : List Nat) : State :=
  { s with cores := s.cores.map fun e =>
      (e.1, { e.2 with l0 := e.2.l0.filter fun w => !ws.contains w.1 }) }

/-- An L1 that a write at home overtakes. -/
def patchAll (pa : Nat) (bs : List Byte) (ws : List Nat) (l : L1) : L1 :=
  let words := l.words.map fun w => if ws.contains w.1 then (w.1, patchL1 pa bs w.1 w.2) else w
  { l with words := words }

/-- The values of words from before a write, kept for the engines' constant caches (R218). -/
def noteOld (s : State) (ws : List Nat) : State :=
  let keep := fun (olds : List (Nat × Word)) => ws.foldl (fun acc wa =>
    if (lget wa acc).isSome then acc else lput wa (s.homeWord wa).val acc) olds
  { s with engines := s.engines.map fun e => (e.1, { e.2 with olds := keep e.2.olds }) }

/-- Lines that an L2 slice holds: 1.5 MiB (R20). -/
def l2Lines : Nat := 12288

/-- The L2's list without a line that a full slice writes back to its stack for a new line (R20); which one the spec
leaves open (log entry 104). -/
def l2Room (cycle line : Nat) (l : List (Nat × Bool)) : List (Nat × Bool) :=
  if l.length < l2Lines then l
  else
    let mine := l.filter fun e => e.1 / 2 ^ 38 = line / 2 ^ 38 && sliceOf e.1 = sliceOf line
    if mine.length < l2Lines || mine.any (fun e => e.1 = line) then l
    else ldel (mine.getD (Config.victim cycle line % mine.length) (0, false)).1 l

/-- A line of HBM4 in its L2 slice (R94); newer says that the slice's copy is from now on newer than the stack's. -/
def noteL2 (s : State) (newer : Bool) (line : Nat) : State :=
  if line / 2 ^ 40 ≠ 0 then s
  else { s with l2 := lput line (newer || lgetD line s.l2 false) (l2Room s.cycle line s.l2) }

/-- The lines that n bytes from pa touch. -/
def linesOf (pa n : Nat) : List Nat :=
  if n = 0 then [] else (upTo ((pa % 128 + n + 127) / 128)).map fun i => lineOf pa + 128 * i

/-- A write performed at home that every agent sees from now on: the home's bytes, and the bytes of
every copy. DEDUCED (log entry 8): a unit of the device that writes memory recalls and invalidates
copies first, and the model takes that as part of the write. -/
def homeWrite (s : State) (pa : Nat) (bs : List Byte) : State :=
  let ws := wordsIn pa bs.length
  let full := fullWordsIn pa bs.length
  { s.dropAllL0 ws with
    mem := writeBytes s.mem pa bs
    marks := s.marks.filter fun wa => !full.contains wa
    l1s := s.l1s.map fun e => (e.1, patchAll pa bs ws e.2)
    flight := s.flight.map (patchMsg pa bs)
    engines := (s.noteOld ws).engines
    l2 := ((linesOf pa bs.length).foldl (noteL2 · true) s).l2 }

/-- A write of the words of a line or tile, as a number of n bytes. -/
def homeWriteNat (s : State) (pa n v : Nat) : State := s.homeWrite pa (toBytes n v)

/-- A little-endian number of n bytes at home. -/
def homeNat (s : State) (pa n : Nat) : Nat := ofBytes (s.homeBytes pa n)

/-! ## Reads and writes of a unit on a die, by physical address -/

/-- Why a unit on die d cannot read n bytes: the failed link, or a poison mark and its home slice
(R348, R359, R390). -/
def readFail (s : State) (d pa n : Nat) : Option (Nat × Nat) :=
  match s.accessFail d pa with
  | some u => some (cLINK, u)
  | none =>
    if s.markedIn pa n then some (cECC, unitDie (s.homeDie d pa) (sliceOf pa)) else none

/-- n bytes at a physical address for a unit on die d, or the cause and unit of the failure. -/
def readPhys (s : State) (d pa n : Nat) : Except (Nat × Nat) (List Byte) := match s.readFail d pa n with
  | some f => .error f
  | none => .ok (s.homeBytes pa n)

/-- A write at a physical address by a unit on die d. -/
def writePhys (s : State) (d pa : Nat) (bs : List Byte) : Except (Nat × Nat) State :=
  match s.accessFail d pa with
  | some u => .error (cLINK, u)
  | none => .ok (s.homeWrite pa bs)

/-! ## Messages (R101) -/

/-- A message sent; messages of one channel stay in order. -/
def post (s : State) (chan src dst : Nat) (b : Body) : State :=
  { s with flight := s.flight ++ [{ chan := chan, src := src, dst := dst, body := b }] }

/-- Message n and the state without it, where it is the first of its channel. -/
def take (s : State) (n : Nat) : Option (Msg × State) := match s.flight[n]? with
  | some m =>
    if (s.flight.take n).any fun e => e.chan = m.chan then none
    else some (m, { s with flight := dropAt n s.flight })
  | none => none

end State

/-- The channel from cluster c to home slice h, and back (R101). -/
def chanUp (c h : Nat) : Nat := 4 * (64 * h + c)
/-- The channel from home slice h to cluster c. -/
def chanDown (c h : Nat) : Nat := 4 * (64 * h + c) + 1
/-- The cluster of a channel between a cluster and a home slice. -/
def chanCluster (k : Nat) : Nat := k / 4 % 64
/-- The home slice of a channel between a cluster and a home slice. -/
def chanSlice (k : Nat) : Nat := k / 4 / 64
/-- The channel of a group to an uncached page: its threads' accesses to the page are performed in the order in which
they were issued, those of a bundle in ascending thread order (R35, R90). -/
def chanPage (g page : Nat) : Nat := 4 * (page + 2 ^ 40 * g) + 2
/-- The channel on which the values of a group's uncached loads come back. -/
def chanBack (g : Nat) : Nat := 4 * (2 ^ 75 + g) + 3
/-- The channel of a unit's stores to uncached pages: copy queue q of the package is unit q, the matrix sequencer of
engine e unit 256 + e, and the other units of cluster c are unit 512 + c. -/
def chanUnit (u : Nat) : Nat := 4 * (2 ^ 74 + u) + 3
/-- The unit of a channel of a unit's stores. -/
def unitOfChan (k : Nat) : Nat := k / 4 - 2 ^ 74
/-- The cluster of a unit that stores to uncached pages. -/
def storeUnitCluster (u : Nat) : Nat := if u < 512 then (if u < 256 then u / 4 else (u - 256) / 4) else u - 512
/-- Where a report waits for room in a region's trap area, or an entry's failures for its other results, so that it holds
up no channel of the protocol (R101, R351): k is the cluster of a failed store, 64 for atomics, 65 for payloads. -/
def chanWait (k rcb : Nat) : Nat := 4 * (2 ^ 76 + 128 * rcb + k) + 3
/-- A channel is one of those. -/
def isWait (k : Nat) : Bool := k % 4 = 3 && 2 ^ 76 ≤ k / 4
/-- A message that cannot be dealt with yet leaves its channel, whose receiver always accepts (R101), and waits aside. -/
def State.setAside (s s' : State) (m : Msg) (k : Nat) : State := if isWait m.chan then s else s'.post k m.src m.dst m.body

/-- The channel from a mailbox to a mailbox, and other one-way channels (R55). -/
def chanMail (a b : Nat) : Nat := 4 * (b + 2 ^ 33 * a) + 3

end Sys2Proof.Machine
end

