-- ==== Sys2Proof/Machine/Translate.lean ====
section
/-! DEFINITION. Address translation (R86 to R92): the page walk, permissions, accessed and dirty bits,
TLBs and the walker pool. -/

namespace Sys2Proof.Machine

/-- The index fields of the four levels: level, and the bits of the address that index it (R87). -/
def walkLevels : List (Nat × Nat × Nat) := [(0, 56, 39), (1, 38, 30), (2, 29, 21), (3, 20, 12)]

/-- The translation word of R349. -/
def xword (user : Bool) (lvl acc : Nat) : Nat := (if user then 16 else 0) + 4 * lvl + acc

/-- The entry carries a reserved bit that makes it not present (R88). -/
def pteBad (e : Nat) : Bool := !bit e 0 || bits e 57 52 ≠ 0 || bit e 11

/-- A leaf's frame is aligned to its page, and its memory type is not reserved (R88). -/
def leafOk (lvl e : Nat) : Bool :=
  bits e 9 8 < 2 && (match lvl with
    | 1 => bits e 29 12 = 0
    | 2 => bits e 20 12 = 0
    | _ => true)

namespace State

/-- The 16 entries of a 64 KiB page agree (R89): the group's first entry address and the entry. -/
def groupOk (s : State) (slot : Nat) : Bool :=
  let base := slot / 128 * 128
  let e0 := s.homeNat base 8
  let mask := fun e => e % 4096 - (if bit e 6 then 64 else 0) - (if bit e 7 then 128 else 0)
  bits e0 15 12 = 0 && (upTo 16).all fun i =>
    let e := s.homeNat (base + 8 * i) 8
    bit e 5 && mask e = mask e0 && bits e 51 12 = bits e0 51 12 + i

/-- The leaf that a walk finds, or the level at which it stops (R87 to R89, R19). The index is added to the table's
address as it is given: R87 aligns the root table to 2 MiB and does not say what a root table at another address
comes to (DESIGN CHOICE, log entry 105). -/
def walkGo (s : State) (d unit table va : Nat) : List (Nat × Nat × Nat) → Nat → Except Nat TlbEntry
  | [], _ => .error 3
  | (lvl, hi, lo) :: rest, tab =>
    let slot := tab + 8 * bits va hi lo
    let e := if s.target d slot = .nothing then 0 else s.homeNat slot 8
    if pteBad e then .error lvl
    else if lvl < 3 ∧ ¬ bit e 1 then s.walkGo d unit table va rest (s.ownAddr d (bits e 51 12 * 4096))
    else if lvl = 0 ∨ ¬ leafOk lvl e ∨ (lvl = 3 ∧ bit e 5 ∧ ¬ s.groupOk slot) then .error lvl
    else
      let pa := s.ownAddr d (bits e 51 12 * 4096)
      let hit : TlbEntry := { unit := unit, table := table, va := va / 2 ^ lo * 2 ^ lo, bits := lo
                              pa := pa, leaf := e % 4096, slot := slot, level := lvl }
      match s.target d (pa + va % 2 ^ lo) with
      | .nothing => .error lvl
      | .peer _ => if bits e 9 8 = 0 then .error lvl else .ok hit
      | _ => .ok hit

/-- The link or mark that stops the walker's reads, level by level. -/
def walkFail (s : State) (d va : Nat) : List (Nat × Nat × Nat) → Nat → Option (Nat × Nat)
  | [], _ => none
  | (lvl, hi, lo) :: rest, tab =>
    let slot := tab + 8 * bits va hi lo
    if s.target d slot = .nothing then none
    else match s.readFail d slot 8 with
      | some f => some f
      | none =>
        let e := s.homeNat slot 8
        if pteBad e || 3 ≤ lvl || bit e 1 then none
        else s.walkFail d va rest (s.ownAddr d (bits e 51 12 * 4096))

/-- The page fault of R349 at a level. -/
def notPresent (va lvl acc : Nat) (user : Bool) : TrapInfo :=
  { cause := cNOTPRES, addr := va, aux := xword user lvl acc }

/-- Leaf permissions and the checks that depend on the target (R19, R90, R91, R230, R315): the physical
address, or the fault. A leaf that maps an unpopulated range, or a peer as cacheable, is not present. -/
def permit (s : State) (d : Nat) (h : TlbEntry) (va acc : Nat) (user ldt : Bool) :
    Except TrapInfo Nat :=
  let bad : TrapInfo := { cause := cPROT, addr := va, aux := xword user h.level acc }
  let pa := h.pa + va % 2 ^ h.bits
  let absent : Bool := match s.target d pa with
    | .nothing => true
    | .peer _ => bits h.leaf 9 8 = 0
    | _ => false
  if absent then .error (notPresent va h.level acc user)
  else if (acc = 1 ∨ acc = 2) ∧ ¬ bit h.leaf 2 then .error bad
  else if acc = 3 ∧ ¬ bit h.leaf 3 then .error bad
  else if user ∧ bit h.leaf 4 then .error bad
  else match s.target d pa with
    | .dev .. => if acc = 2 ∨ ldt then .error bad else .ok pa
    | .peer _ => if ldt then .error bad else .ok pa
    | _ => .ok pa

/-- The leaf's A bit, and D for a write or atomic, set by the walker (R88). -/
def touch (s : State) (h : TlbEntry) (acc : Nat) : State :=
  let want := if acc = 1 ∨ acc = 2 then 0xC0 else 0x40
  if Nat.land h.leaf want = want then s
  else
    let b := s.homeByte h.slot ||| BitVec.ofNat 8 want
    { s.homeWrite h.slot [b] with
      tlb := s.tlb.map fun e => if e.slot = h.slot then { e with leaf := Nat.lor e.leaf want } else e }

/-- A whole translation by a unit that walks for itself (R91): the state with A and D set, the
physical address and the memory type. -/
def walkNow (s : State) (d table va acc : Nat) (user : Bool) (ldt : Bool := false) :
    Except TrapInfo (State × Nat × Nat) :=
  if 2 ^ 57 ≤ va then .error (notPresent va 0 acc user)
  else match s.walkFail d va walkLevels table with
  | some f => .error { cause := f.1, addr := va, aux := f.2 }
  | none => match s.walkGo d 0 table va walkLevels table with
    | .error lvl => .error (notPresent va lvl acc user)
    | .ok h => match s.permit d h va acc user ldt with
      | .error ti => .error ti
      | .ok pa => .ok (s.touch h acc, pa, bits h.leaf 9 8)

/-- A read by a unit on die d of n bytes at a virtual address of a tree, as runs within 4 KiB pages
that the caller's alignment keeps; at user level unless it says otherwise. -/
def readVirt (s : State) (d table va n : Nat) (user : Bool := true) :
    Except TrapInfo (State × List Byte) :=
  match s.walkNow d table va 0 user with
  | .error ti => .error ti
  | .ok (s', pa, _) => match s'.readPhys d pa n with
    | .error f => .error { cause := f.1, addr := va, aux := f.2 }
    | .ok bs => .ok (s', bs)

/-- A write by a unit on die d at a virtual address of a tree. -/
def writeVirt (s : State) (d table va : Nat) (bs : List Byte) (user : Bool := true) :
    Except TrapInfo State :=
  match s.walkNow d table va 1 user with
  | .error ti => .error ti
  | .ok (s', pa, _) => match s'.writePhys d pa bs with
    | .error f => .error { cause := f.1, addr := va, aux := f.2 }
    | .ok s'' => .ok s''

end State

/-- The translation of a thread's access: done, failed, or waiting for a walk (R91, R92). -/
inductive XRes
  | ok (s : State) (pa mt : Nat)
  | fault (ti : TrapInfo)
  | wait (s : State) (w : WaitOn)

namespace State

/-- The TLB entry of a unit that covers an address. -/
def tlbFind (s : State) (unit table va : Nat) : Option TlbEntry :=
  s.tlb.find? fun e => e.unit = unit && e.table = table && va / 2 ^ e.bits * 2 ^ e.bits = e.va

/-- Entries a TLB holds (R92). -/
def tlbSize (unit : Nat) : Nat := if unit < 256 then 2048 else 64

/-- The TLBs with an entry added. DESIGN CHOICE (log entry 104): a full TLB loses its oldest entry, where the spec names
no order of replacement; a translation found again is the same while no shootdown is due. -/
def tlbAdd (s : State) (h : TlbEntry) : State :=
  let same := s.tlb.filter fun e => e.unit = h.unit
  let s := if tlbSize h.unit ≤ same.length then match same.head? with
    | some old => { s with tlb := s.tlb.erase old }
    | none => s
    else s
  { s with tlb := s.tlb ++ [h] }

/-- The die of a TLB's unit. -/
def tlbDie (unit : Nat) : Nat := if unit < 256 then unit / 64 else (unit - 256) / 1024

/-- The die's walker pool has no walk free for a unit that translates for itself (R92). -/
def poolFull (s : State) (d : Nat) : Bool := 64 ≤ (s.walks.filter fun w => tlbDie w.unit = d).length

/-- Thread t of group g runs at user level (R211). -/
def userLevel (s : State) (g t : Nat) : Bool := !(s.thread g t).status.getLsbD 0

/-- Translation of an access of thread t of group g: kind of access as in R349. A miss starts a walk,
or waits for one already under way, and the thread tries again when it has ended. -/
def translate (s : State) (g t va acc : Nat) (ldt : Bool := false) : XRes :=
  let G := s.group g
  let user := s.userLevel g t
  let unit := G.kind.tlb
  let d := G.kind.die
  let table := s.tableOf G.rcb
  if 2 ^ 57 ≤ va then .fault (notPresent va 0 acc user)
  else match s.tlbFind unit table va with
  | some h => match s.permit d h va acc user ldt with
    | .error ti => .fault ti
    | .ok pa => .ok (s.touch h acc) pa (bits h.leaf 9 8)
  | none => match s.walkFaults.find? fun f => f.g = g && f.t = t && f.va = va && f.acc = acc with
    | some f => .fault f.info
    | none =>
      let mine := s.walks.filter fun w => tlbDie w.unit = d
      match mine.find? fun w => w.unit = unit && w.table = table && w.va / 4096 = va / 4096 with
      | some w => .wait s (.walk w.id)
      | none => match mine with
        | w :: _ => if 64 ≤ mine.length then .wait s (.walk w.id) else startWalk s
        | [] => startWalk s
where
  startWalk (s : State) : XRes :=
    let G := s.group g
    let w : Walk := { id := s.nextKey, unit := G.kind.tlb, table := s.tableOf G.rcb, va := va
                      acc := acc, user := s.userLevel g t, g := g, t := t }
    .wait { s.fresh.2 with walks := s.walks ++ [w] } (.walk w.id)

/-- The end of walk k: its leaf enters the TLB, or its fault waits for the thread (R92). -/
def endWalk (s : State) (k : Nat) : State := match s.walks.find? fun w => w.id = k with
  | none => s
  | some w =>
    let d := tlbDie w.unit
    let s := { s with walks := s.walks.filter fun x => x.id ≠ k }
    let fail := fun (ti : TrapInfo) =>
      { s with walkFaults := s.walkFaults ++
          [{ g := w.g, t := w.t, va := w.va, acc := w.acc, info := ti }] }
    match s.walkFail d w.va walkLevels w.table with
    | some f => fail { cause := f.1, addr := w.va, aux := f.2 }
    | none => match s.walkGo d w.unit w.table w.va walkLevels w.table with
      | .error lvl => fail (notPresent w.va lvl w.acc w.user)
      | .ok h => match s.permit d h w.va w.acc w.user false with
        | .error ti => fail ti
        | .ok _ => (s.tlbAdd h).touch h w.acc

end State
end Sys2Proof.Machine
end

