-- ==== Sys2Proof/Machine/Ops.lean ====
section
/-! DEFINITION. The shared operations of the chapter "Faults, traps and reporting" and of issue:
records (R350 to R352), domain aborts (R356, R357, R424), the end of a thread (R40, R195), taking a trap
(R343 to R347) and returning from one (R198), and the combinator that runs a meaning for the threads of
a bundle (R35, R174, R344). -/

namespace Sys2Proof.Machine

/-! ## Records -/

/-- Bytes padded with zeros to a length. -/
def padTo (n : Nat) (bs : List Byte) : List Byte := (bs ++ List.replicate (n - bs.length) 0).take n

/-- The 128 bytes of a record: header at CYCLE, then the bytes from 0x40 (R352). -/
def recordBytes (cycle : Nat) (h : RecHead) (tail : List Byte) : List Byte :=
  toBytes 1 h.kind ++ toBytes 1 h.cause ++ toBytes 2 h.flags ++ toBytes 2 h.unit ++ toBytes 2 0
    ++ toBytes 8 cycle ++ toBytes 8 h.lr ++ toBytes 8 h.bid ++ toBytes 4 h.tid ++ toBytes 4 h.lcore
    ++ toBytes 8 h.pc ++ toBytes 8 h.addr ++ toBytes 8 h.aux ++ padTo 64 tail

/-- A partition without the groups that satisfy a test. -/
def Partition.without (p : Partition) (gone : Nat → Bool) : Partition :=
  { p with active := p.active.map (fun a => a.filter fun g => !gone g)
           ready := p.ready.filter fun g => !gone g }

/-- The end of an attempt to write a record (R351): written, no room, or a failing area with the
origin code, cause and address of R424. -/
inductive Wrote
  | ok (s : State)
  | full
  | bad (origin acause faddr : Nat)

/-- A position is a slot of an area of a size (R350, R351). -/
def slotPos (size p : Nat) : Bool := p % 128 = 0 && 128 ≤ p && p + 128 ≤ size

/-- The position after p (R350). -/
def nextPos (size p : Nat) : Nat := if size < p + 256 then 128 else p + 128

namespace State

/-- TRAPAREA of a region (R44). -/
def trapArea (s : State) (rcb : Nat) : Nat := (s.resolved rcb 10).traparea

/-- A record written to the trap area of a region by a writer on die d (R350, R351). DEDUCED (log
entry 9): the area is reached through the region's tree at supervisor level. -/
def writeRecord (s : State) (d rcb : Nat) (bytes : List Byte) : Wrote :=
  let area := s.trapArea rcb
  if area = 0 ∨ area % 128 ≠ 0 then .bad 3 0 0
  else match s.readVirt d (s.tableOf rcb) area 32 false with
  | .error ti => .bad 4 ti.cause ti.addr
  | .ok (s, hdr) =>
    let size := ofBytes (hdr.take 8)
    let wr := ofBytes ((hdr.drop 8).take 8)
    let rd := ofBytes ((hdr.drop 16).take 8)
    let total := ofBytes ((hdr.drop 24).take 8)
    if size % 128 ≠ 0 ∨ size < 384 ∨ ¬ slotPos size wr ∨ ¬ slotPos size rd then .bad 3 0 0
    else if nextPos size wr = rd then .full
    else match s.writeVirt d (s.tableOf rcb) (area + wr) bytes false with
    | .error ti => .bad 4 ti.cause ti.addr
    | .ok s => match s.writeVirt d (s.tableOf rcb) (area + 8) (toBytes 8 (nextPos size wr)) false with
      | .error ti => .bad 4 ti.cause ti.addr
      | .ok s => match s.writeVirt d (s.tableOf rcb) (area + 24) (toBytes 8 (total + 1)) false with
        | .error ti => .bad 4 ti.cause ti.addr
        | .ok s => .ok s

/-! ## The active set and the ready queue of a partition (R61, R72) -/

/-- The partition of a SIMT group. -/
def partOf (s : State) (g : Nat) : Option Nat := match (s.group g).kind with
  | .simt e p => some (4 * e + p)
  | _ => none

/-- Pending for the first 8 entries of a ready queue, Waiting for the others (R61). -/
def relabel (s : State) (k : Nat) : State :=
  let q := (s.part k).ready
  (upTo q.length).foldl (fun s i => s.modGroup (q.getD i 0) fun G =>
    { G with gstate := if i < 8 then .pending else .waiting }) s

/-- The active set with a group at its first empty position. -/
def seat (g : Nat) : List (Option Nat) → List (Option Nat)
  | [] => [some g]
  | none :: r => some g :: r
  | some h :: r => some h :: seat g r

/-- One swap event: the head of the ready queue enters an active set of fewer than 8 groups. -/
def swapIn (s : State) (k : Nat) : State :=
  let q := s.part k
  match q.ready with
  | g :: rest =>
    if (q.active.filter Option.isSome).length < 8 then
      let s := s.modPart k fun q => { q with active := seat g q.active, ready := rest }
      s.modGroup g fun G => { G with gstate := .active, since := s.cycle }
    else s
  | [] => s

/-- Swap events while a position is empty and a group is ready; the ready queue's states follow. -/
def fillActive (s : State) (k : Nat) : State := ((upTo 8).foldl (fun s _ => s.swapIn k) s).relabel k

/-- A group that leaves the active set, to the tail of the ready queue when it is ready. -/
def leaveActive (s : State) (g : Nat) (ready : Bool) : State := match s.partOf g with
  | none => s
  | some k =>
    let s := s.modPart k fun q =>
      let q := q.without fun h => h = g
      if ready then { q with ready := q.ready ++ [g] } else q
    (s.modGroup g fun G => { G with gstate := .waiting }).fillActive k

/-! ## Domain aborts -/

/-- The regions of a subtree. -/
def subtree (s : State) (root : Nat) : List Nat :=
  (s.regions.map Prod.fst).filter fun q => s.under root q

/-- Nested domain roots strictly inside a domain (R356). -/
def nestedRoots (s : State) (root : Nat) : List Nat :=
  (s.subtree root).filter fun q => q ≠ root && bit (s.region q).ovr 1

/-- The save area of a region, by the RCB that supplies it, holds a live record (R79). -/
def liveRecords (s : State) (sup : Nat) : Bool := s.blocks.any fun b =>
  b.2.bstate = .saved && s.supplier b.2.rcb 9 = sup

/-- NEXT of a save area without live records returns to 64 (R79). -/
def freeArea (s : State) (d sup : Nat) : State :=
  if s.liveRecords sup then s
  else match s.writeVirt d (s.tableOf sup) ((s.region sup).savearea + 8) (toBytes 8 64) false with
    | .ok s => s
    | .error _ => s

/-- A region's stops and drops, steps 1 and 4 of R357: groups end, blocks settle and are then discarded
(FLUSH_COMPLETE), launches are dropped, buffered contributions are discarded (R408). Proofer instances, those due among
them, are asynchronous items and run on. -/
def dropWork (s : State) (rs : List Nat) : State :=
  let mine := fun (r : Nat) => rs.contains r
  let gone := (s.groups.filter fun e => mine e.2.rcb && !e.2.kind.isProofer).map Prod.fst
  let flush := fun (e : Nat × Block) =>
    if mine e.2.rcb then (e.1, { e.2 with bstate := .flushing, pre := none }) else e
  let drop := fun (e : Nat × Launch) =>
    if mine e.2.rcb then (e.1, { e.2 with lstate := .refused, again := [] }) else e
  let disarm := fun (e : Nat × Engine) =>
    (e.1, { e.2 with arms := e.2.arms.filter fun a => !mine a.rcb })
  let mail := (s.groups.filter fun e => gone.contains e.1).flatMap fun e =>
    e.2.mail.map fun m => (e.2.kind.die, m)
  let areas := (s.blocks.filter fun e => mine e.2.rcb && e.2.bstate = .saved).map fun e =>
    ((s.launch e.2.launch).die, s.supplier e.2.rcb 9)
  let blocks := (s.blocks.filter fun e => !(mine e.2.rcb && e.2.bstate = .saved)).map flush
  let held := (blocks.filter fun e => mine e.2.rcb).map fun e => e.2.launch
  let s : State := { s with
    groups := s.groups.filter fun e => !gone.contains e.1
    parts := s.parts.map fun e => (e.1, e.2.without fun g => gone.contains g)
    blocks := blocks
    launches := (s.launches.filter fun e => !mine e.2.rcb || held.contains e.1).map drop
    loads := s.loads.filter fun q => !gone.contains q.g
    walks := s.walks.filter fun w => !gone.contains w.g
    walkFaults := s.walkFaults.filter fun w => !gone.contains w.g
    stitches := s.stitches.filter fun q => !mine q.rcb
    formed := s.formed.map fun l => l.filter fun q => !mine q.rcb
    swarmArms := s.swarmArms.filter fun a => !mine a.rcb
    engines := s.engines.map disarm
    scatter := s.scatter.filter fun c => !mine c.2.who.rcb }
  -- unread messages go back, and are discarded where their senders are gone (R375)
  let s := mail.foldl (fun (s : State) x =>
    s.post (chanMail x.2.target x.2.sender) x.1 x.1 (.message { x.2 with bounced := true })) s
  let s := s.parts.foldl (fun s e => s.fillActive e.1) s
  areas.foldl (fun s a => s.freeArea a.1 a.2) s

/-- The KIND 5 record of R424. -/
def abortTail (origin acause nest area faddr root : Nat) : List Byte :=
  toBytes 1 origin ++ toBytes 1 acause ++ toBytes 1 nest ++ toBytes 5 0 ++ toBytes 8 area
    ++ toBytes 8 faddr ++ toBytes 8 (physOf root)

/-- The fields that a scheduler writes back to an RCB (R44, R64). -/
def rcbTail (r : Region) : List Byte :=
  toBytes 8 r.cycused ++ toBytes 4 r.tkreclaim ++ toBytes 1 r.state ++ toBytes 1 r.depth ++ toBytes 18 0

/-- The fields at 0x60 of a registered RCB written back by the scheduler that registered it, or the cause of the
failure (R64, R312). -/
def putTail (s : State) (rcb : Nat) : Except Nat State := match lget rcb s.regions with
  | none => .ok s
  | some r =>
    let pa := s.ownAddr r.die (rcb + 0x60)
    if s.markedIn pa 32 then .error cECC
    else match s.writePhys r.die pa (rcbTail r) with
      | .ok s => .ok s
      | .error f => .error f.1

/-- The header of a region scheduler's own record (R424). -/
def schedHead (d kind cause : Nat) : RecHead := { kind := kind, cause := cause, unit := unitDie d 64 }

/-- The domain has no block left that settles or waits to be discarded. -/
def settledDomain (s : State) (root : Nat) : Bool := s.blocks.all fun e => !s.under root e.2.rcb

/-- The end of a domain abort, steps 5 to 7 of R357: STATE 2 is written back, the KIND 5 record goes to the root's area
and a copy to those of nested roots, and the interrupt follows; where an area has no room, or its own failure caused
the abort, the interrupt alone reports. -/
def tellAbort (s : State) (a : Aborting) : State :=
  let s := { s with aborts := s.aborts.erase a }
  let s := (s.subtree a.root).foldl (fun s q => match s.putTail q with
    | .ok s' => s'
    | .error _ => s) s
  let tell := fun (s : State) (sink nest : Nat) =>
    let tail := a.tail.take 2 ++ toBytes 1 nest ++ a.tail.drop 3
    if a.silent = some (s.trapArea sink) then s
    else match s.writeRecord a.d sink (recordBytes s.cycle a.head tail) with
    | .ok s' => s'
    | _ => s
  let s := tell s a.root 0
  let s := a.nested.foldl (fun s q => tell s q 1) s
  s.notify (.abort a.head.aux a.head.cause (physOf a.root))

/-- The aborts whose domains have settled are reported. -/
def tellAborts (s : State) : State :=
  s.aborts.foldl (fun s a => if s.settledDomain a.root then s.tellAbort a else s) s

/-- The header of the KIND 5 record: that of the thread or item whose fault triggered the abort, with NESTED as in its
own record, or the region scheduler's (R424). -/
def abortHead (d rcb cause fdom : Nat) (h : RecHead) : RecHead :=
  let h := if h.kind = 1 || h.kind = 2 then { h with flags := h.flags % 4 } else schedHead d 5 cause
  { h with kind := 5, cause := cause, addr := physOf rcb, aux := fdom }

/-- A domain abort (R357): the region where it began, the triggering cause and its header, and R424's
ORIGIN, ACAUSE, AREA and FADDR. A second abort of an aborted domain adds nothing. -/
def abort (s : State) (d rcb cause : Nat) (head : RecHead) (origin : Nat) (acause area faddr : Nat := 0) :
    State :=
  let root := s.domainRoot rcb
  if (lget root s.regions).isNone ∨ (s.region root).abort.isSome then s
  else
    let rs := s.subtree root
    let a : Aborting :=
      { d := d, root := root, head := abortHead d rcb cause (s.region root).fdom head
        tail := abortTail origin acause 0 area faddr root, nested := s.nestedRoots root
        silent := if origin = 3 ∨ origin = 4 then some (s.trapArea rcb) else none }
    let mark := fun (e : Nat × Region) =>
      if rs.contains e.1 then
        (e.1, { e.2 with state := if e.2.state = 3 then 3 else 2, abort := some cause, hold := false })
      else e
    let s := s.dropWork rs
    { s with regions := s.regions.map mark, aborts := s.aborts ++ [a] }.tellAborts

/-- RCB_WRITE_BACK: a failure aborts the region's domain (R64, R424). -/
def writeBack (s : State) (rcb : Nat) : State := match s.putTail rcb with
  | .ok s' => s'
  | .error cause =>
    let d := (s.region rcb).die
    s.abort d rcb cause (schedHead d 5 cause) 7

/-! ## Cycles (R46, R361) -/

/-- Cycles used by a region's subtree. -/
def cyclesUnder (s : State) (rcb : Nat) : Nat := ((s.subtree rcb).map fun q => (s.region q).cycused).sum

/-- The region limits cycles by itself, and its subtree's use has reached the limit. -/
def spent (s : State) (rcb : Nat) : Bool :=
  let r := s.region rcb
  (bit r.ovr 3 || r.parent = 0) && Nat.max 1 r.cycles ≤ s.cyclesUnder rcb

/-- The die on which cycles of a region have just been counted, kept by every limit that they reach first (R361). -/
def noteReached (s : State) (d rcb : Nat) : State := (s.path rcb).foldl (fun (s : State) q =>
  if (s.region q).reached.isNone && s.spent q then s.modRegion q fun r => { r with reached := some d } else s) s

/-- What follows cycles that a region's work has used on a die: limits, and the RCB's fields (R46, R64, R361). -/
def counted (s : State) (d rcb : Nat) : State := (s.noteReached d rcb).writeBack rcb

/-- Cycles that a region's own work consumes on a die (R46). -/
def spend (s : State) (d rcb n : Nat) : State :=
  (s.modRegion rcb fun r => { r with cycused := r.cycused + n }).counted d rcb

/-- Records of one event or entry that a unit on die d writes in order: headers, and the bytes from 0x40. -/
abbrev Records := Nat × List (RecHead × List Byte)

/-- What writing records comes to: all written, or the records, of which one finds no room and must wait. -/
abbrev Told := Except Records State

/-- A record that finds a region's trap area full waits (R351). -/
def awaitArea (s : State) (rcb : Nat) (h : RecHead) : State := s.modRegion rcb fun r =>
  if r.full.any fun w => w.head = h then r
  else { r with full := r.full ++ [{ head := h, at_ := s.cycle, since := s.cycle }] }

/-- CYCLE at the event of a record: that of the attempt after which it has waited, if it has (R352). -/
def eventCycle (s : State) (rcb : Nat) (h : RecHead) : Nat :=
  (((s.region rcb).full.find? fun w => w.head = h).map AreaWait.at_).getD s.cycle

/-- A record that has been written waits no longer. -/
def noteWritten (s : State) (rcb : Nat) (h : RecHead) : State := match lget rcb s.regions with
  | none => s
  | some r => if r.full = [] then s
      else s.modRegion rcb fun r => { r with full := r.full.filter fun w => w.head ≠ h }

/-- A record of a unit on die d for a region, as of a cycle; a failing area aborts the domain (R351). An aborted
region whose area has stayed full holds nobody up. -/
def reportAt (s : State) (d rcb cycle : Nat) (h : RecHead) (tail : List Byte) : Told :=
  match s.writeRecord d rcb (recordBytes cycle h tail) with
  | .ok s' => .ok (s'.noteWritten rcb h)
  | .full => if (s.region rcb).mute then .ok s else .error (d, [(h, tail)])
  | .bad origin acause faddr =>
    .ok ((s.noteWritten rcb h).abort d rcb h.cause h origin acause (s.trapArea rcb) faddr)

/-- A record of a unit on die d for a region. -/
def report (s : State) (d rcb : Nat) (h : RecHead) (tail : List Byte) : Told :=
  s.reportAt d rcb (s.eventCycle rcb h) h tail

/-- A record that stands in the area already: an earlier attempt of its entry has written it (R351, R353). -/
def wasTold (s : State) (rcb : Nat) (h : RecHead) : Bool := (s.region rcb).told.contains h

/-- The records of an entry that have not been written yet, written in order. -/
def reportRest (s : State) (d rcb : Nat) : List (RecHead × List Byte) → Told
  | [] => .ok s
  | (h, tail) :: rest =>
    if s.wasTold rcb h then s.reportRest d rcb rest
    else match s.report d rcb h tail with
    | .ok s' => s'.reportRest d rcb rest
    | .error x => .error x

/-- Headers that need no longer be kept. -/
def forgetTold (s : State) (rcb : Nat) (hs : List RecHead) : State :=
  if (s.region rcb).told = [] then s
  else s.modRegion rcb fun r => { r with told := r.told.filter fun h => !hs.contains h }

/-- Several records in order: all written, or those of an entry that waits for room. -/
def reportAll (s : State) (d rcb : Nat) (l : List (RecHead × List Byte)) : Told :=
  match s.reportRest d rcb l with
  | .ok s' => .ok (s'.forgetTold rcb (l.map Prod.fst))
  | .error _ => .error (d, l)

/-- The records of an event or entry that finds a region's trap area full: those for which there is room are written,
the others wait, each with CYCLE at the event (R351, R352). -/
def noteRest (s : State) (d rcb : Nat) : List (RecHead × List Byte) → State
  | [] => s
  | (h, tail) :: rest =>
    if s.wasTold rcb h then s.noteRest d rcb rest
    else match s.report d rcb h tail with
    | .ok s' => (s'.modRegion rcb fun r => { r with told := r.told ++ [h] }).noteRest d rcb rest
    | .error _ => (rest.map Prod.fst).foldl (fun s h => s.awaitArea rcb h) (s.awaitArea rcb h)

/-- Records that wait for room in a region's trap area. -/
def noteFull (s : State) (rcb : Nat) (x : Records) : State := s.noteRest x.1 rcb x.2

/-- A step that must write records of a region, or wait for room in its trap area. -/
def orFull (s : State) (rcb : Nat) : Told → State
  | .ok s' => s'
  | .error h => s.noteFull rcb h

/-- A record that holds nobody up: where the area is full it waits there (R351). -/
def leaveRecord (s : State) (d rcb : Nat) (h : RecHead) (tail : List Byte) : State :=
  match s.report d rcb h tail with
  | .ok s' => s'
  | .error _ => { s.awaitArea rcb h with
      untold := s.untold ++ [{ d := d, rcb := rcb, head := h, tail := tail, at_ := s.cycle }] }

/-! ## Mailboxes (R54, R55, R238, R375) -/

/-- The group that carries a mailbox address in a region (R54, R70). -/
def groupAt (s : State) (rcb addr : Nat) : Option Nat :=
  (s.groups.find? fun e => e.2.rcb = rcb && !e.2.kind.isProofer && e.2.gstate ≠ .retired &&
    (if bit addr 31 then e.2.kind.isSwarm && e.2.lcore = addr % 2 ^ 24
     else !e.2.kind.isSwarm && e.2.lcore = addr / 256 % 65536 && e.2.lslot = addr % 256)).map Prod.fst

/-- The mailbox address of a group. -/
def mailboxOf (G : Group) : Nat :=
  if G.kind.isSwarm then 2 ^ 31 + G.lcore else G.lcore * 256 + G.lslot

/-- The discarded message of R375, reported with EVENT 7. -/
def discardMessage (s : State) (d : Nat) (m : Message) : State :=
  let tail := toBytes 1 7 ++ toBytes 3 0 ++ toBytes 4 m.target ++ toBytes 4 m.words.length
    ++ toBytes 4 m.sender ++ bytesOf (m.words.take 8)
  s.leaveRecord d m.rcb (schedHead d 6 cRESERVED) tail

/-- A message sent on its way. -/
def sendMessage (s : State) (src dst : Nat) (m : Message) : State :=
  s.post (chanMail m.sender m.target) src dst (.message m)

/-- An undelivered message returned to its sender, or discarded when it had bounced before (R238,
R375). -/
def bounceMessage (s : State) (d : Nat) (m : Message) : State :=
  if m.bounced then s.discardMessage d m
  else match s.groupAt m.rcb m.sender with
    | none => s.discardMessage d m
    | some g => s.post (chanMail m.target m.sender) d (s.group g).kind.die
        (.message { m with bounced := true })

/-- The unread messages of a block's groups when it is flushed: those that had been bounced to it, or that it sent
itself, are discarded, and so are those on their way back to it; the others are returned (R371, R375). -/
def flushMail (s : State) (gs : List Nat) : State :=
  let own := fun (s : State) (m : Message) => ((s.groupAt m.rcb m.sender).map fun h => gs.contains h) = some true
  let back := fun (s : State) (m : Msg) => match m.body with
    | .message x => x.bounced && own s x
    | _ => false
  let lost := (s.flight.filter (back s)).filterMap fun m => match m.body with
    | .message x => some (m.dst, x)
    | _ => none
  let s := { s with flight := s.flight.filter fun m => !back s m }
  let s := lost.foldl (fun (s : State) x => s.discardMessage x.1 x.2) s
  gs.foldl (fun (s : State) g =>
    let G := s.group g
    let s := s.modGroup g fun G => { G with mail := [] }
    G.mail.foldl (fun (s : State) m =>
      if own s m then s.discardMessage G.kind.die m else s.bounceMessage G.kind.die m) s) s

/-- A group whose mailbox ends: its unread messages are returned (R238, R375). -/
def returnMail (s : State) (g : Nat) : State :=
  let G := s.group g
  let s := s.modGroup g fun G => { G with mail := [] }
  G.mail.foldl (fun s m => s.bounceMessage G.kind.die m) s

/-! ## The end of a thread (R40, R54, R60, R195) -/

/-- A group taken from its partition's lists, whose place others take. -/
def leavePart (s : State) (g : Nat) : State := match s.partOf g with
  | none => s
  | some k => (s.modPart k fun q => q.without fun h => h = g).fillActive k

/-- What a block that drains has freed on an engine is kept for the launch that asked for it; for nobody where the
supervisor did, until the block completes (R62, R81). -/
def keepFreed (s : State) (B : Block) (f : Freed) : State := match B.bstate, B.pre.bind Preemption.requester with
  | .draining, some l => s.modLaunch l fun L => { L with freed := L.freed ++ [f] }
  | .draining, none => s.modBlock B.key fun b => { b with freed := b.freed ++ [f] }
  | _, _ => s

/-- The slot and registers of a retired group; those of a bin are held until the block completes (R291). -/
def keepSlot (s : State) (G : Group) : State :=
  let B := s.block G.blk
  match G.kind with
  | .simt e p => if B.kind = .bin then s else s.keepFreed B { e := e, part := p, groups := 1, regs := 32 * G.alloc }
  | _ => s

/-- A group all of whose slots are Exited is Retired (R61). -/
def retireIfDone (s : State) (g : Nat) : State :=
  let G := s.group g
  if G.threads.all (fun h => h.slot = .exited) && G.gstate ≠ .retired then
    (((s.returnMail g).modGroup g fun G => { G with gstate := .retired }).keepSlot G).leavePart g
  else s

/-- A SIMT slot becomes Exited. -/
def exitSlot (s : State) (g t : Nat) : State :=
  let clear := fun (h : Thread) => { h with
    slot := .exited, wait := none, undo := none, failed := [], held := none, away := none
    pixel := h.pixel.map fun p => { p with passed := true } }
  (s.modGroup g fun G =>
    (({ G with threads := G.threads.modify t clear }).forget t).completeAll).retireIfDone g

/-- The message of a stitched thread's results (R54): its x0 to x(m − 1), which stand at its window (R8). -/
def sendResults (s : State) (g t : Nat) : State :=
  let G := s.group g
  let h := s.thread g t
  match h.stitch with
  | none => s
  | some (m, issuer) =>
    let I := s.group issuer
    s.sendMessage G.kind.die I.kind.die
      { sender := h.ident.mbox.toNat, target := mailboxOf I, words := (upTo m).map fun i => s.readRegOf g t i, result := true
        rcb := G.rcb }

/-- A swarm context or proofer instance that ends: it is freed (R195, R242). -/
def freeContext (s : State) (g : Nat) : State :=
  let s := s.returnMail g
  { s with
    groups := ldel g s.groups
    swarmArms := s.swarmArms.filter fun a => a.g ≠ g
    loads := s.loads.filter fun q => q.g ≠ g
    walks := s.walks.filter fun w => w.g ≠ g
    walkFaults := s.walkFaults.filter fun w => w.g ≠ g }

/-- The thread ends as by EXIT (R195). -/
def endThread (s : State) (g t : Nat) : State :=
  let G := s.group g
  let h := s.thread g t
  let s := { s with loads := s.loads.filter fun q => !(q.g = g && q.t = t)
                    walkFaults := s.walkFaults.filter fun w => !(w.g = g && w.t = t) }
  match G.kind with
  | .simt _ _ => (s.sendResults g t).exitSlot g t
  | _ =>
    let s := s.sendResults g t
    let s := match h.home with
      | some (g0, t0) => s.exitSlot g0 t0
      | none => s
    s.freeContext g

/-! ## Traps (R343 to R347) -/

end State

/-- A domain abort that a trap calls for: die, region, record header, and R424's fields. -/
structure Doom where
  d : Nat
  rcb : Nat
  head : RecHead
  origin : Nat
  acause : Nat := 0
  area : Nat := 0
  faddr : Nat := 0
deriving DecidableEq, Repr

namespace State

/-- The record header of thread t of group g (R352). -/
def trapHead (s : State) (g t : Nat) (f : ReplyFail) (nested : Bool) : RecHead :=
  let G := s.group g
  let h := s.thread g t
  { kind := 1, cause := f.info.cause, flags := (if nested then 1 else 0) + 2 * f.status.toNat % 4
    unit := G.kind.unit, lr := s.threadLr g t, bid := h.ident.bid.toNat, tid := h.ident.tid.toNat
    lcore := h.ident.lcore.toNat, pc := f.pc, addr := f.info.addr, aux := f.info.aux }

/-- The bytes of a trap record from 0x40: WORDS, then STATUS from before trap entry (R352). -/
def trapTail (f : ReplyFail) : List Byte := padTo 12 (bytesOf (f.words.take 3)) ++ toBytes 4 f.status.toNat

/-- The trap registers, STATUS, the slot and the mask views at trap entry: steps 2 to 4 of R343. The
pointer update of an instruction that waited is undone (R393). -/
def enterTrap (s : State) (g t : Nat) (f : ReplyFail) (trapPc : DWord) : State :=
  let sup := s.suph (s.group g).rcb
  let enter := fun (h : Thread) => { h with
    trapcause := BitVec.ofNat 32 f.info.cause
    trappc := trapPc
    trapaddr := BitVec.ofNat 64 f.info.addr
    trapaux := BitVec.ofNat 64 f.info.aux
    status := (h.status &&& 0xFFFFFEFC#32) ||| (if h.status.getLsbD 0 then 0x100#32 else 0#32)
      ||| (if sup then 1#32 else 0#32) ||| 2#32
    slot := .trapped
    wait := none
    undo := none
    p := match h.undo with
      | some (n, v) => h.p.set n v
      | none => h.p
    failed := h.failed.drop 1 }
  s.modGroup g fun G => (({ G with threads := G.threads.modify t enter }).unarrive t).completeAll

/-- The end of trap entry once the record stands: the handler, or an abort where there is none (R343,
R347). -/
def startHandler (s : State) (g t : Nat) (f : ReplyFail) : State × List Doom :=
  let G := s.group g
  let handler := (s.resolved G.rcb 11).handler
  let s' := s.modThread g t fun h => { h with wait := none, held := none }
  if handler = 0 then (s', [{ d := G.kind.die, rcb := G.rcb, head := s.trapHead g t f false, origin := 1 }])
  else (s'.modThread g t fun h => { h with pc := BitVec.ofNat 64 handler }, [])

/-- The trap record, and then the handler; a full area makes the thread wait (R351). -/
def recordTrap (s : State) (g t : Nat) (f : ReplyFail) : State × List Doom :=
  let G := s.group g
  let head := s.trapHead g t f false
  match s.writeRecord G.kind.die G.rcb (recordBytes f.at_ head (trapTail f)) with
  | .ok s' => (s'.noteWritten G.rcb head).startHandler g t f
  | .full => ((s.awaitArea G.rcb head).modThread g t fun h =>
      { h with held := some f, wait := some (.trapArea G.rcb) }, [])
  | .bad origin acause faddr =>
    (s, [{ d := G.kind.die, rcb := G.rcb, head := head, origin := origin, acause := acause
           area := s.trapArea G.rcb, faddr := faddr }])

/-- A trap that ends its thread: a nested one, with NESTED in its record (R347), or one for the loss of the thread's
state, without it (R360). The record, the end of the thread, the abort; a full area makes the thread wait (R351). -/
def nestedTrap (s : State) (g t : Nat) (f : ReplyFail) : State × List Doom :=
  let G := s.group g
  let head := s.trapHead g t f !f.lost
  let doom := fun (s : State) origin acause area faddr =>
    let x : Doom :=
      { d := G.kind.die, rcb := G.rcb, head := head, origin := origin, acause := acause, area := area, faddr := faddr }
    ((s.noteWritten G.rcb head).endThread g t, [x])
  match s.writeRecord G.kind.die G.rcb (recordBytes f.at_ head (trapTail f)) with
  | .ok s' => doom s' (if f.lost then 5 else 1) 0 0 0
  | .full => ((s.awaitArea G.rcb head).modThread g t fun h =>
      { h with held := some { f with nested := true }, wait := some (.trapArea G.rcb) }, [])
  | .bad o a fa => doom s o a (s.trapArea G.rcb) fa

/-- A failure of a proofer instance ends it and is reported in a completion record (R243). -/
def failInstance (s : State) (g : Nat) (ti : TrapInfo) : State :=
  let G := s.group g
  let h := s.thread g 0
  let (src, index) := match G.kind with
    | .proofer u => if u < 512 then (2, u % 2) else (3, (u - 512) % 4)
    | _ => (2, 0)
  let ent := match h.ent with
    | (_, n) :: _ => n
    | [] => 0
  let first := G.item / 512 * 512
  let head : RecHead :=
    { kind := 2, cause := ti.cause, flags := 0, unit := G.kind.unit, lr := G.lr
      bid := h.ident.bid.toNat, tid := h.ident.tid.toNat, lcore := h.ident.lcore.toNat
      pc := G.entry.toNat, addr := ti.addr
      aux := ent % 65536 * 2 ^ 48 + index * 2 ^ 40 + src * 2 ^ 32 + first }
  match s.report G.kind.die G.rcb head (toBytes 64 (2 ^ (G.item - first))) with
  | .ok s' => s'.freeContext g
  | .error x => (s.noteFull G.rcb x).modThread g 0 fun h => { h with wait := some (.trapArea G.rcb) }

/-- Thread t of group g traps (R343): the cause, PC and words of the record, and TRAPPC. The aborts that
follow are left to the end of the instruction, after the other threads' records (R344). -/
def trapWith (s : State) (g t : Nat) (ti : TrapInfo) (recPc : DWord) (words : List Word)
    (trapPc : DWord) (late : Nat := 0) : State × List Doom :=
  let h := s.thread g t
  let f : ReplyFail :=
    { info := ti, pc := recPc.toNat, words := words, status := h.status, at_ := s.cycle + late }
  if (s.group g).kind.isProofer then (s.failInstance g ti, [])
  else if h.status.getLsbD 1 then s.nestedTrap g t f
  else (s.enterTrap g t f trapPc).recordTrap g t f

/-- The aborts left by traps. -/
def doomAll (s : State) (l : List Doom) : State :=
  l.foldl (fun s x => s.abort x.d x.rcb x.head.cause x.head x.origin x.acause x.area x.faddr) s

/-- Threads of group g trap, in order, and then the aborts follow. Each trap of one instruction is a clock after the
one before it (R419; log entry 123). -/
def trapAll (s : State) (g : Nat) (l : List (Nat × TrapInfo)) (recPc : DWord) (words : List Word)
    (trapPc : TrapInfo → DWord) : State :=
  let r := l.zipIdx.foldl (fun (r : State × List Doom) x =>
    let q := r.1.trapWith g x.1.1 x.1.2 recPc words (trapPc x.1.2) x.2
    (q.1, r.2 ++ q.2)) (s, [])
  r.1.doomAll r.2

/-- Threads of the issuing group trap on the instruction that issues. -/
def trapLanes (s : State) (l : List (Nat × TrapInfo)) : State :=
  s.trapAll s.iss.g l s.iss.pc s.iss.words fun ti =>
    if ti.cause = cSERVICE then s.iss.npc else s.iss.pc

/-- A trapped thread returns (R198, R40): it keeps its memberships and credits and re-enters m0. A
thread on a swarm context returns there. -/
def eret (s : State) (g t : Nat) : State := s.modThread g t fun h => { h with
  status := (h.status &&& 0xFFFFFFFC#32) ||| (if h.status.getLsbD 8 then 1#32 else 0#32)
  pc := h.trappc
  slot := .live }

end State

/-! ## Running a meaning for a bundle (R35, R174, R343, R344) -/

/-- What an instruction does for one thread: completes, traps, or waits and is tried again; part is a
trap after the partial effect that the entry states (R208, R258). -/
inductive LaneRes
  | ok (s : State)
  | trap (ti : TrapInfo)
  | wait (s : State) (w : WaitOn)
  | part (s : State) (ti : TrapInfo)

/-- The lowest register outside the allocation that an instruction names for a thread (R154). -/
def regOutside (s : State) (g t : Nat) (i : Instr) : Option Nat :=
  leastBy id ((uses i).filterMap fun u =>
    let lo := s.xnum g t u.1.toNat
    if isK u.1 || lo + u.2 ≤ (s.group g).alloc then none
    else some (Nat.max lo (s.group g).alloc))

/-- The destination-only runs of an instruction: fields written and not read. -/
def dests : Instr → List (Field × Nat)
  | .mad .. | .bfi .. | .fshl .. | .fshr .. | .lut3 .. | .movhi .. | .ffma .. | .hfma2F16 ..
  | .hfma2Bf16 .. | .dot4 .. | .dot4S8 .. | .st .. | .sts .. | .stPointer .. | .ldgs .. | .bmov ..
  | .bfill .. | .rdmSpm .. | .amwr .. | .amdrain .. | .amdrainAdd .. | .wbld .. | .mma .. | .mmaR ..
  | .mmas .. | .hgs .. | .hgsDet .. | .pixout .. | .cmp .. | .cmpi .. | .fcmp .. => []
  | .jmpr .. | .callr .. | .join .. | .mwrite .. | .waitf .. | .sete .. | .bara .. | .mfree ..
  | .pfstop .. | .acpy .. | .qwait .. | .baraTx .. | .barw .. | .msend .. | .launch .. | .cflush ..
  | .stitch .. | .pfarm .. | .tkdrop .. | .red .. | .redSpm .. | .amfree .. | .amshape .. | .amzero ..
  | .lrset .. | .mqwait .. | .csld .. | .csrel .. | .csrw .. | .ldPf .. => []
  | .atom _ ty op d _ _ | .atomSpm _ ty op d _ _ => match op with
    | .cas => []
    | _ => [(d, ty.regs)]
  | .mrecv d a => [(d, 8), (a, 1)]
  | .prune .. => []
  | i => (uses i).take 1

/-- The runs that an instruction reads: a source may be the destination's own run. -/
def readRuns (i : Instr) : List (Field × Nat) := (dests i).foldl List.erase (uses i)

/-- A k register that a bundle reads and that is uncorrectable (R358, R360). -/
def badKRead (s : State) (g : Nat) (i : Instr) : Option TrapInfo :=
  let G := s.group g
  ((readRuns i).findSome? fun u => if isK u.1 then
      ((upTo u.2).map fun j => s.knum g (u.1.toNat + j)).find? fun n => G.badK.contains n
    else none).map fun n => { cause := cECC, addr := n, aux := G.kind.unit }

/-- An x register that a thread reads and that is uncorrectable (R358, R360). -/
def badXRead (s : State) (g t : Nat) (i : Instr) : Option TrapInfo :=
  let h := s.thread g t
  ((readRuns i).findSome? fun u => if isK u.1 then none else
      ((upTo u.2).map fun j => s.xnum g t (u.1.toNat + j)).find? fun n => h.badX.contains n).map
    fun n => { cause := cECC, addr := n, aux := (s.group g).kind.unit }

/-- The masks, by number, and KWB, as 12, that an instruction reads. -/
def groupReads (i : Instr) : List Nat :=
  (if (uses i).any fun u => isK u.1 then [12] else []) ++ match i with
    | .mjoin m | .mleave m | .mwait m | .mread _ m => [m.toNat]
    | .csrr _ n => if n = 0x009#9 then [12] else []
    | _ => []

/-- A mask or KWB that a bundle reads and that is uncorrectable (R344, R358): no register is named (log entry 122). -/
def badGroupRead (s : State) (g : Nat) (i : Instr) : Option TrapInfo :=
  let G := s.group g
  if G.bad ≠ [] && (groupReads i).any fun n => G.bad.contains n then some { cause := cECC, aux := G.kind.unit } else none

/-- The instructions that a proofer instance runs (R185, R243). -/
def prooferRuns : Instr → Bool
  | .add .. | .sub .. | .mul .. | .mulhi .. | .mad .. | .div .. | .rem .. | .min .. | .max .. | .abs ..
  | .neg .. | .and .. | .or .. | .xor .. | .andn .. | .shl .. | .shr .. | .sar .. | .fshl .. | .fshr ..
  | .popc .. | .clz .. | .ctz .. | .brev .. | .bfx .. | .bfi .. | .sext .. | .zext .. | .sel ..
  | .mov .. | .lea .. | .cmp .. | .addi .. | .andi .. | .ori .. | .xori .. | .shli .. | .shri ..
  | .sari .. | .cmpi .. | .movi .. | .movhi .. | .addpc .. | .lut3 .. | .bra .. | .brc .. | .brcNot ..
  | .exit | .csrr .. | .ld .. | .ldc .. | .ldPf .. | .ldgs .. => true
  | .ldPointer _ _ spm _ _ _ => !spm
  | _ => false

/-- What a proofer instance does not run: ILLEGAL_OP, or RESERVED_FIELD for a k register (R243). -/
def prooferCheck (i : Instr) : Option TrapInfo :=
  if !prooferRuns i then some { cause := cILLEGAL }
  else if (uses i).any fun u => isK u.1 then some { cause := cRESERVED }
  else none

/-- System registers that software may write (R210). -/
def csrWritable (n : Nat) : Bool :=
  n = 0x001 || n = 0x002 || n = 0x003 || n = 0x004 || n = 0x030 || n = 0x100

/-- The check of R174's step 4: what a thread at its level may not do (R198, R209). -/
def privCheck (s : State) (t : Nat) (i : Instr) : Option TrapInfo :=
  let st := (s.th t).status
  match i with
  | .csrr _ n => if n.toNat = 0x101 && !st.getLsbD 0 then some { cause := cPRIV, aux := n.toNat } else none
  | .csrw n _ =>
    if !csrWritable n.toNat || (n.toNat = 0x100 && !st.getLsbD 0) then
      some { cause := cPRIV, aux := n.toNat }
    else none
  | .eret => if st.getLsbD 1 then none else some { cause := cPRIV }
  | _ => none

/-- The checks of R174 and R358 that come before an instruction's own, for one thread. -/
def laneCheck (i : Instr) (s : State) (t : Nat) : Option TrapInfo :=
  let g := s.iss.g
  if simtOnly i && (s.group g).kind.isSwarm then some { cause := cNOSWARM }
  else if (s.group g).kind.isProofer && (prooferCheck i).isSome then prooferCheck i
  else if (privCheck s t i).isSome then privCheck s t i
  else match regOutside s g t i with
  | some n => some { cause := cREGOUT, aux := n }
  | none => match badGroupRead s g i with
    | some ti => some ti
    | none => match badKRead s g i with
    | some ti => some ti
    | none => badXRead s g t i

namespace State

/-- Thread t moves past the instruction. -/
def advance (s : State) (t : Nat) : State := s.modTh t fun h => { h with pc := s.iss.npc, wait := none }

/-- The faults of ended walks that thread t has taken. -/
def dropFaults (s : State) (t : Nat) : State :=
  { s with walkFaults := s.walkFaults.filter fun w => !(w.g = s.iss.g && w.t = t) }

/-- Thread t has done the instruction: nothing of a wait is left. -/
def settle (s : State) (t : Nat) : State :=
  (s.dropFaults t).modTh t fun h => { h with undo := none }

/-- The step that ends a wait ends the instruction too: it is not issued again. -/
def endsHere : WaitOn → Bool
  | .reply | .mask _ | .migrate _ => true
  | _ => false

/-- A raster-ordered section of a thread whose instruction must be issued again, which has not counted yet (R404). -/
def uncounted (w : WaitOn) (p : Option Pixel) : Option Pixel := if endsHere w then p else p.map fun p =>
  if p.section_ then { p with issued := p.issued - 1 } else p

/-- Thread t stays at the instruction until the wait ends. -/
def stay (s : State) (t : Nat) (w : WaitOn) : State :=
  s.modTh t fun h => { h with pc := s.iss.pc, wait := some w, pixel := uncounted w h.pixel }

end State

/-- The instructions whose threads act in ascending order where one must wait (R35): those that write memory, send or
queue something, and those that write a k register. -/
def inOrder : Instr → Bool
  | .st .. | .sts .. | .stPointer .. | .atom .. | .atomSpm .. | .red .. | .redSpm .. | .join _ | .ldt .. | .rdm ..
  | .rdmSpm .. | .tkdrop _ | .msend .. | .launch _ | .stitch .. | .fork .. | .acpy .. | .qjoin _ | .ldgs .. | .bmov ..
  | .bfill .. | .amdrain .. | .amdrainAdd .. | .call .. | .callr .. | .merge .. | .mergeKz .. | .amfree _
  | .mq .. => true
  | i => (dests i).any fun u => isK u.1

/-- The instruction acts on several lines of SPM for one thread. -/
def manyLines : Instr → Bool
  | .amdrain .. | .amdrainAdd .. | .merge .. | .mergeKz .. => true
  | _ => false

/-- The later threads of a bundle wait behind a thread that waits. A thread that waits for a reply has acted; one that
waits for a line of SPM to be full holds up only accesses to that line, which wait for it themselves, those that act on
several lines, and writes of a k register. -/
def holdsBack (i : Instr) : WaitOn → Bool
  | .reply => false
  | .full _ _ => manyLines i || (dests i).any fun u => isK u.1
  | _ => inOrder i

/-- The bundle part way: the state, the threads that trap, and the thread that the later ones wait behind. -/
structure Lanes where
  s : State
  traps : List (Nat × TrapInfo) := []
  first : Option Nat := none

/-- One thread of the bundle runs the instruction: f reads operands from the state s0 before the
bundle and acts on the state that the threads before it left (R35, R175). -/
def laneStep (i : Instr) (f : State → State → Nat → LaneRes) (s0 : State) (a : Lanes) (t : Nat) : Lanes :=
  match laneCheck i s0 t with
  | some ti => { a with traps := a.traps ++ [(t, ti)] }
  | none => match a.first with
    | some u => { a with s := a.s.stay t (.behind u) }
    | none => match f s0 (a.s.advance t) t with
      | .ok s' => { a with s := s'.settle t }
      | .trap ti => { s := a.s.dropFaults t, traps := a.traps ++ [(t, ti)] }
      | .wait s' w => { a with s := s'.stay t w, first := if holdsBack i w then some t else none }
      | .part s' ti => { s := s'.dropFaults t, traps := a.traps ++ [(t, ti)] }

/-- An instruction run for the threads of the bundle that issues, in ascending order; then the threads
for which a cause arose trap, as if they were not in the bundle (R35, R343, R344). -/
def runLanes (i : Instr) (f : State → State → Nat → LaneRes) (s : State) :
    Host.Outcome State Fault Refusal :=
  let a := s.iss.ts.foldl (laneStep i f s) { s := s }
  .next (a.s.trapLanes a.traps)

/-- The threads of the bundle that pass the checks of R174, which the cross-thread instructions see
(R205). -/
def lanesOk (i : Instr) (s : State) : List Nat := s.iss.ts.filter fun t => (laneCheck i s t).isNone

end Sys2Proof.Machine
end

