-- ==== Sys2Proof/Machine/Coherence.lean ====
section
/-! DEFINITION. Coherence (R99 to R109, R123, R379, R380, R390): the cluster L1 with its store replay
queue, releases, hand-overs and fences, and the home directory with one transaction for a line at a time. -/

namespace Sys2Proof.Machine

/-! ## Atomic operations (R233) -/

/-- A number of w bytes read with a signedness. -/
def signedOf (signed : Bool) (w v : Nat) : Int :=
  if signed ∧ 2 ^ (8 * w - 1) ≤ v then (v : Int) - 2 ^ (8 * w) else v

/-- The value that an atomic writes, none for a failed cas (R233). -/
def atomNew (op : AtomOp) (signed : Bool) (w old b e : Nat) : Option Nat := match op with
  | .add => some ((old + b) % 2 ^ (8 * w))
  | .addF32 => some (fAdd (BitVec.ofNat 32 old) (BitVec.ofNat 32 b)).1.toNat
  | .min => some (if signedOf signed w b < signedOf signed w old then b else old)
  | .max => some (if signedOf signed w old < signedOf signed w b then b else old)
  | .and => some (Nat.land old b)
  | .or => some (Nat.lor old b)
  | .xor => some (Nat.xor old b)
  | .swap => some b
  | .cas => if old = e then some b else none

/-- The native operation's bit of NATOP (R315). -/
def nativeBit (op : AtomOp) (width : Nat) : Option Nat := match op with
  | .add => some (if width = 4 then 0 else 1)
  | .swap => some (if width = 4 then 2 else 3)
  | .cas => some (if width = 4 then 4 else 5)
  | _ => none

/-! ## The ticket word (R121) -/

/-- The slice of a ticket, numbered 64 · die + slice. -/
def ticketSlice (k : Nat) : Nat := bits k 31 24
/-- The die of a ticket. -/
def ticketDie (k : Nat) : Nat := bits k 31 30
/-- The table slot of a ticket: 1,024 · slice + entry. -/
def ticketSlot (k : Nat) : Nat := bits k 31 14
/-- The generation of a ticket. -/
def ticketGen (k : Nat) : Nat := bits k 13 0
/-- The ticket of a slot and a generation. -/
def ticketOf (slot gen : Nat) : Nat := slot * 16384 + gen

/-- An entry that has never been used (R383). -/
def freshTicket : Ticket := { gen := 0, rcb := 0, tstate := .free, end_ := .none_ }

namespace State

/-! ## Replies to threads (R74, R378) -/

/-- A thread's pending bits of registers cleared; x register n is numbered 2 n, and k register n is 2 n + 1. A k
register pends until the replies of every thread of the bundle have come. -/
def clearPend (s : State) (g t : Nat) (dst : List Nat) : State :=
  (s.modThread g t fun h => { h with pendX := h.pendX.filter fun n => !dst.contains (2 * n) }).modGroup g
    fun G => { G with pendK := (dst.filter (· % 2 = 1)).foldl (fun l n => l.erase (n / 2)) G.pendK }

/-- A thread's pending bits of registers set. -/
def setPend (s : State) (g t : Nat) (dst : List Nat) : State :=
  (s.modThread g t fun h => { h with pendX := h.pendX ++ (dst.filter (· % 2 = 0)).map (· / 2) }).modGroup g
    fun G => { G with pendK := G.pendK ++ (dst.filter (· % 2 = 1)).map (· / 2) }

/-- Registers written by absolute number, one word each. -/
def writeDst (s : State) (g t : Nat) (dst : List Nat) (vs : List Word) : State :=
  (upTo dst.length).foldl (fun s i =>
    let n := dst.getD i 0
    let v := vs.getD i 0
    if n % 2 = 0 then s.writeX g t (n / 2) v else s.writeK g (n / 2) v) s

/-- A reply has written k registers: replies of lower threads of the bundle that are still to come do not write
them any more, so that the value of the highest thread remains (R35). -/
def strikeLower (s : State) (g t : Nat) (dst : List Nat) : State :=
  let ks := dst.filter (· % 2 = 1)
  if ks = [] then s
  else { s with
    loads := s.loads.map fun q => if q.g = g && q.t < t then { q with skip := q.skip ++ ks } else q
    micro := s.micro.map fun q => if q.g = g && q.t < t then { q with skip := q.skip ++ ks } else q }

/-- A reply's registers written, but those that a higher thread of the bundle has written. -/
def landDst (s : State) (g t : Nat) (skip dst : List Nat) (vs : List Word) : State :=
  let left := if skip = [] then (dst, vs) else ((dst.zip vs).filter fun x => !skip.contains x.1).unzip
  (s.writeDst g t left.1 left.2).strikeLower g t dst

/-- A reply reports a failure: the destinations keep their values and the thread traps at its next
boundary (R378). A thread that waits for this very reply stops waiting. -/
def failReply (s : State) (q : LoadReq) (ti : TrapInfo) : State :=
  let f : ReplyFail := { info := ti, pc := q.pc, words := q.words, ptr := q.ptr }
  let s := { s with loads := s.loads.filter fun x => x.id ≠ q.id }
  (s.clearPend q.g q.t q.dst).modThread q.g q.t fun h =>
    { h with failed := h.failed ++ [f], pendC := if q.cas then h.pendC.erase 0 else h.pendC
             wait := if q.ret || q.join then none else h.wait }

/-- The words that a load writes: zero- or sign-extended below 4 bytes (R217). -/
def loadWords (size : Nat) (sext : Bool) (bs : List Byte) : List Word :=
  if size < 4 then
    let v := ofBytes bs
    let v := if sext ∧ 2 ^ (8 * size - 1) ≤ v then v + 2 ^ 32 - 2 ^ (8 * size) else v
    [BitVec.ofNat 32 v]
  else wordsOf (size / 4) bs

/-- A load's value arrives: registers, pending bits, and the jump of a RET (R194, R217). -/
def finishLoad (s : State) (q : LoadReq) (bs : List Byte) : State :=
  let s := { s with loads := s.loads.filter fun x => x.id ≠ q.id }
  if q.ret then s.modThread q.g q.t fun h =>
    { h with pc := BitVec.ofNat 64 (ofBytes bs), p := h.p.modify 7 (· + 8), wait := none }
  else (s.clearPend q.g q.t q.dst).landDst q.g q.t q.skip q.dst (loadWords q.size q.sext bs)

/-! ## The cluster L1 -/

/-- A word's record in a cluster's L1; an unlisted word is invalid. -/
def l1Word (s : State) (c wa : Nat) : L1Word := lgetD wa (s.l1 c).words {}

/-- The bytes of a word that the L1 serves: the valid ones, until the word is on its way home (R99, R106). -/
def l1Valid (s : State) (c wa : Nat) : BitVec 4 :=
  let w := s.l1Word c wa
  if w.owned && w.leaving then 0 else w.valid

/-- Every byte of an access is valid in the L1. -/
def l1Has (s : State) (c pa n : Nat) : Bool := (wordsIn pa n).all fun wa =>
  byteMask pa n wa &&& s.l1Valid c wa = byteMask pa n wa

/-- The bytes of an access as the L1 holds them. -/
def l1Bytes (s : State) (c pa n : Nat) : List Byte := (upTo n).map fun i =>
  BitVec.ofNat 8 ((s.l1Word c ((pa + i) / 4 * 4)).val.toNat / 2 ^ (8 * ((pa + i) % 4)))

/-- A word of the access is marked in the L1. -/
def l1Marked (s : State) (c pa n : Nat) : Bool := (wordsIn pa n).any fun wa => (s.l1Word c wa).poison

/-- A byte as an agent of a cluster sees it: the L1's when valid, else the home's. -/
def clusterByte (s : State) (c a : Nat) : Byte :=
  if s.l1Has c a 1 then (s.l1Bytes c a 1).getD 0 0 else s.homeByte a

/-- n bytes for a unit of a cluster, or the cause and unit of the failure. -/
def readCluster (s : State) (c pa n : Nat) : Except (Nat × Nat) (List Byte) :=
  if s.l1Has c pa n then
    if s.l1Marked c pa n then .error (cECC, unitDie (s.homeDie (c / 16) pa) (sliceOf pa))
    else .ok (s.l1Bytes c pa n)
  else match s.readFail (c / 16) pa n with
    | some f => .error f
    | none => .ok ((upTo n).map fun i => s.clusterByte c (pa + i))

/-- A message from a cluster to a line's home, or its failure where the route is down (R316, R387). -/
def toHome (s : State) (c line : Nat) (b : Body) (failed : Nat → Body) : State :=
  let d := c / 16
  let h := s.homeSlice d line
  match s.accessFail d line with
  | some u => s.post (chanDown c h) d d (failed u)
  | none => s.post (chanUp c h) d (s.homeDie d line) b

/-- GETS for the words of an access that the L1 lacks (R103). -/
def sendGets (s : State) (c pa n rcb : Nat) : State :=
  let line := lineOf pa
  let ws := (wordsIn pa n).filter fun wa => !s.l1Has c wa 4
  s.toHome c line (.gets line ws rcb) fun u => .loadFail line ws cLINK u

/-- GETO for words (R102, R104). -/
def sendGeto (s : State) (c line : Nat) (ws : List Nat) (rel : Bool) (rcb : Nat) : State :=
  if ws = [] then s
  else
    (s.modL1 c fun l => { l with asked := l.asked ++ ws }).toHome c line (.geto line ws rel rcb)
      fun _ => .storeFail line ws cLINK none

/-- Dirty words of the L1 whose epoch is at most e, except one word (R105). -/
def dirtyUpTo (s : State) (c e : Nat) (except_ : List Nat) : List Nat :=
  ((s.l1 c).words.filter fun w =>
    (w.2.dirty ≠ 0#4 || w.2.leaving) && w.2.epoch ≤ e && !except_.contains w.1).map Prod.fst

/-- WB of owned words that have not left yet; the words leave until their WBACK (R105, R106). -/
def sendWb (s : State) (c : Nat) (ws : List Nat) : State :=
  ws.foldl (fun s wa =>
    let w := s.l1Word c wa
    if w.owned && !w.leaving then
      let s := (s.modL1 c fun l => { l with words := lput wa { w with leaving := true } l.words }).dropL0 c [wa]
      let line := lineOf wa
      s.toHome c line (.wb line [{ word := wa, val := w.val, poison := w.poison }])
        fun _ => .wback line [wa]
    else s) s

/-- A release word written back at the end of its hand-over: kept clean when the RECALL asks (R105). It leaves
until its WBACK. -/
def giveUp (s : State) (c wa : Nat) (keep : Bool) : State :=
  let w := s.l1Word c wa
  let line := lineOf wa
  let s := s.modL1 c fun l =>
    { l with words := lput wa { w with owned := !keep, dirty := if keep then 0 else w.dirty, rel := none
                                       leaving := true } l.words }
  let s := if keep then s else s.dropL0 c [wa]
  s.toHome c line (.wb line [{ word := wa, val := w.val, poison := w.poison }]) fun _ => .wback line [wa]

/-- Every replay entry of an epoch up to e is settled, but those that a test excuses (R380). -/
def settledUpTo (s : State) (c e : Nat) (excuse : Replay → Bool) : Bool :=
  (s.l1 c).replay.all fun r => e < r.epoch || excuse r

/-- A hand-over asked for (R105). -/
def startHand (s : State) (c wa : Nat) (keep : Bool) : State :=
  let e := ((s.l1Word c wa).rel).getD 0
  if (s.l1 c).hand.any fun x => x.word = wa then s
  else s.modL1 c fun l => { l with hand := l.hand ++ [{ word := wa, epoch := e, keep := keep }] }

/-- Releases of an earlier epoch are handed over too, and before (R105). -/
def startOlder (s : State) (c : Nat) : State :=
  let l := s.l1 c
  let older := fun (e : Nat) => l.hand.any fun h => e < h.epoch
  (l.words.filter fun w => (w.2.rel.map older).getD false).foldl (fun s w => s.startHand c w.1 false) s

/-- Hand-overs go on: every dirty word up to the epoch goes home and is acknowledged, and then the
release word goes (R105). The words of one release do not wait for each other. -/
def stepHand (s : State) (c : Nat) (h : HandOver) : State :=
  if s.settledUpTo c h.epoch (fun _ => false) then
    let left := (s.dirtyUpTo c h.epoch [h.word]).filter fun wa => (s.l1Word c wa).rel ≠ some h.epoch
    if left = [] then
      (s.modL1 c fun l => { l with hand := l.hand.erase h }).giveUp c h.word h.keep
    else s.sendWb c (left.filter fun wa => (s.l1Word c wa).rel.isNone)
  else s

/-- A fence's write-back up to an epoch goes on; done when nothing of the epoch is left (R235). -/
def stepDrain (s : State) (c e : Nat) : State :=
  if s.settledUpTo c e (fun _ => false) then
    let left := s.dirtyUpTo c e []
    if left = [] then s.modL1 c fun l => { l with drains := l.drains.erase e }
    else
      let plain := left.filter fun wa => (s.l1Word c wa).rel.isNone
      let rels := left.filter fun wa => (s.l1Word c wa).rel.isSome
      rels.foldl (fun s wa => s.startHand c wa false) (s.sendWb c plain)
  else s

/-- Release registrations whose covered entries are settled send their GETO (R104, R380). -/
def stepReleases (s : State) (c : Nat) : State :=
  ((s.l1 c).replay.filter fun r => r.rel && !r.sent).foldl (fun s r =>
    if s.settledUpTo c r.epoch (fun x => x = r) then
      let s := s.modL1 c fun l =>
        { l with replay := l.replay.map fun x => if x = r then { r with sent := true } else x }
      match r.words with
      | wa :: _ => s.sendGeto c (lineOf wa) r.words true r.who.rcb
      | [] => s
    else s) s

/-- Lines that a cluster L1 holds: 2 MiB (R21). -/
def l1Lines : Nat := 16384

/-- Everything of a cluster's L1 that an event may have freed to go on. -/
def l1Advance (s : State) (c : Nat) : State :=
  let s := s.stepReleases c
  let s := ((s.l1 c).drains.foldl (fun s e => s.stepDrain c e) s).startOlder c
  (s.l1 c).hand.foldl (fun s h => s.stepHand c h) s

/-- A line evicted from a cluster L1: clean words are dropped, owned ones written back first, release words handed
over; pending words stay (R106). -/
def evictL1 (s : State) (c line : Nat) : State :=
  let mine := (s.l1 c).words.filter fun e => lineOf e.1 = line
  let rels := (mine.filter fun e => e.2.owned && e.2.rel.isSome && !e.2.leaving).map Prod.fst
  let plain := (mine.filter fun e => e.2.owned && e.2.rel.isNone).map Prod.fst
  let s := s.modL1 c fun l =>
    { l with words := l.words.filter fun e => lineOf e.1 ≠ line || e.2.dirty ≠ 0#4 || e.2.leaving }
  (rels.foldl (fun s wa => s.startHand c wa false) (s.sendWb c plain)).l1Advance c

/-- Room for a new line in a cluster L1: a full one evicts a line that holds no pending word (R21, R106); which one
the spec leaves open (log entry 104). A line that leaves word by word is in the L1 until its last WBACK: it is named
until then. -/
def l1Room (s : State) (c line : Nat) : State × Option Nat :=
  let words := (s.l1 c).words
  if words.length < l1Lines || words.any (fun e => lineOf e.1 = line) then (s, none)
  else
    let lines := (words.map fun e => lineOf e.1).eraseDups
    let held := ((words.filter fun e => !e.2.leaving).map fun e => lineOf e.1).eraseDups
    let pending := ((words.filter fun e => e.2.dirty ≠ 0#4 && !e.2.owned).map fun e => lineOf e.1).eraseDups
    let free := held.filter fun ln => !pending.contains ln
    if lines.length < l1Lines then (s, none)
    else if free = [] then (s, lines.head?)
    else
      let out := free.getD (Config.victim s.cycle line % free.length) 0
      let s := s.evictL1 c out
      (s, if (s.l1 c).words.any fun e => lineOf e.1 = out then some out else none)

end State

/-- A store into the L1: done, or waiting. -/
inductive StoreRes
  | ok (s : State)
  | wait (s : State) (w : WaitOn)

namespace State

/-- The record of a word after a store of bytes to it (R102, R104, R359): the epoch of a dirty word stays
that of its first unwritten store (log entry 10). -/
def storeWord (cur : Nat) (pa : Nat) (bs : List Byte) (wa : Nat) (w : L1Word) : L1Word :=
  let m := byteMask pa bs.length wa
  { w with
    val := mergeBytes m (wordFrom pa bs wa) w.val
    valid := w.valid ||| m
    dirty := if w.owned then 15#4 else w.dirty ||| m
    epoch := if w.dirty = 0#4 then cur else Nat.min w.epoch cur
    poison := w.poison && m ≠ 15#4 }

/-- The words of a release are not owned when it is written, so that no RECALL meets a release that is not yet
registered (R104): owned ones go home first. -/
def giveForRelease (s : State) (c : Nat) (ws : List Nat) : State :=
  let give := fun (s : State) wa =>
    let w := s.l1Word c wa
    if !w.owned then s else if w.rel.isSome then s.startHand c wa false else s.sendWb c [wa]
  (ws.foldl give s).l1Advance c

/-- Aligned pairs of words that bytes from pa fill wholly; each is written as one (R110). -/
def pairsIn (pa n : Nat) : List Nat :=
  (wordsIn pa n).filter fun wa => wa % 8 = 0 && pa ≤ wa && wa + 8 ≤ pa + n

/-- One word of a pair is owned and the other is not, so that the two would not be written as one (R110). -/
def splitPair (s : State) (c wa : Nat) : Bool := (s.l1Word c wa).owned != (s.l1Word c (wa + 4)).owned

/-- A word of a pair has been asked for, or waits for a release's GETO, without the other, so that the two would not
be granted as one (R110). -/
def tornPair (s : State) (c wa : Nat) : Bool :=
  let l := s.l1 c
  let asked := fun (wa : Nat) => l.asked.contains wa || ((s.l1Word c wa).rel.isSome && !(s.l1Word c wa).owned)
  (asked wa || asked (wa + 4)) && !l.replay.any fun r => r.words.contains wa && r.words.contains (wa + 4)

/-- The cluster's releases outstanding, oldest first: each has its own epoch (R104). -/
def releaseEpochs (l : L1) : List Nat := sortBy id ((l.words.filterMap fun w => w.2.rel).eraseDups)

/-- Bytes stored by an agent of cluster c (R102 to R104): owned words are written, others become
pending with an entry in the store replay queue; a release takes the epoch and closes it. A word that waits for
a release's grant is not asked for again. -/
def storeL1 (s : State) (c pa : Nat) (bs : List Byte) (who : Owner) (rel : Bool := false) : StoreRes :=
  let ws := wordsIn pa bs.length
  let line := lineOf pa
  let l := s.l1 c
  let lacking := ws.filter fun wa => !(s.l1Word c wa).owned
  let entry := rel || lacking ≠ []
  let pairs := pairsIn pa bs.length
  let split := pairs.filter (s.splitPair c)
  if ws.any fun wa => (s.l1Word c wa).leaving then .wait s (.flushed c line)
  else if split ≠ [] then
    .wait (s.giveForRelease c (split.flatMap fun wa => [wa, wa + 4])) (.flushed c line)
  else if pairs.any (s.tornPair c) then .wait s (.grants c line)
  else if rel && lacking ≠ ws then .wait (s.giveForRelease c ws) (.flushed c line)
  else if rel && ws.any fun wa => (s.l1Word c wa).rel.isSome then .wait s (.grants c line)
  else if entry && 256 ≤ l.replay.length then .wait s (.replay c)
  else if rel && 64 ≤ (releaseEpochs l).length then
    let e := (releaseEpochs l).headD 0
    let first := (l.words.filter fun w => w.2.rel = some e).map Prod.fst
    .wait ((first.foldl (fun s wa => s.startHand c wa false) s).l1Advance c) (.fence c e)
  else match s.l1Room c line with
  | (s, some out) => .wait s (.flushed c out)
  | (s, none) =>
    let s := (s.noteOld ws).dropL0 c ws
    let put := fun (words : List (Nat × L1Word)) wa =>
      let w := storeWord l.epoch pa bs wa (lgetD wa words {})
      lput wa (if rel then { w with rel := some l.epoch } else w) words
    let s := s.modL1 c fun l =>
      { l with
        words := ws.foldl put l.words
        replay := if entry then
            l.replay ++ [{ words := if rel then ws else lacking, epoch := l.epoch, rel := rel
                           sent := false, who := who }]
          else l.replay
        epoch := if rel then l.epoch + 1 else l.epoch }
    let ask := fun wa => !l.asked.contains wa && (lgetD wa l.words {}).rel.isNone
    if rel then .ok (s.l1Advance c) else .ok (s.sendGeto c line (lacking.filter ask) false who.rcb)

/-- A fence's epoch closed and its write-back begun (R104, R235): the epoch to wait for, none where
nothing is dirty. -/
def closeEpoch (s : State) (c : Nat) : Option Nat × State :=
  let e := (s.l1 c).epoch
  if s.dirtyUpTo c e [] = [] && s.settledUpTo c e (fun _ => false) then (none, s)
  else
    let s := s.modL1 c fun l => { l with epoch := e + 1, drains := l.drains ++ [e] }
    (some e, s.l1Advance c)

/-! ## The home (R101, R103, R105, R106, R123) -/

/-- A poison mark set at home (R390). -/
def poisonHome (s : State) (wa : Nat) : State :=
  { s with marks := if s.marks.contains wa then s.marks else insertBy id wa s.marks }

/-- The sharers of a line. -/
def sharersOf (s : State) (line : Nat) : List Nat := lgetD line s.sharers []

/-- A sharer added. -/
def addSharer (s : State) (line c : Nat) : State :=
  { s with sharers := lput line (let l := s.sharersOf line
                                 if l.contains c then l else insertBy id c l) s.sharers }

/-- The 32 words of a line. -/
def lineWords (line : Nat) : List Nat := (upTo 32).map fun i => line + 4 * i

/-- The die of a line's home as its own slice sees it. -/
def dieOfLine (s : State) (line : Nat) : Nat :=
  if line / 2 ^ 40 = 0 then bits line 39 38 else s.homeDie (line / 2 ^ 52) line

/-- What a request needs first: words to recall and from whom (a cluster that the recall passes over),
whether the owner keeps a clean copy, and the words and cluster to invalidate or pass over. -/
def needs (line : Nat) : HomeReq → List Nat × Option Nat × Bool × List Nat × Option Nat
  | .gets _ ws => (ws, none, true, [], none)
  | .geto c ws _ => (ws, some c, false, ws, some c)
  | .atom rs =>
    let ws := (rs.map fun r => wordsIn r.pa r.width).flatten
    (ws, none, false, ws, none)
  | .ldt r => (wordsIn r.pa r.size, none, true, [], none)
  | .snoop excl => (lineWords line, none, !excl, if excl then lineWords line else [], none)
  | .evict | .move _ | .rebuild => (lineWords line, none, false, lineWords line, none)

/-- The cluster for whose request a home recalls words (R100); none for the home's own. -/
def askerOf (s : State) : HomeReq → Option Nat
  | .gets c _ | .geto c _ _ => some c
  | .atom (r :: _) => match r.sink with
    | .thread g _ _ => some (s.group g).kind.cluster
    | .record _ unit _ _ _ => some (unit / 1024)
    | .outside => none
  | .ldt r => some (s.group r.g).kind.cluster
  | _ => none

/-- Recalls and invalidations sent for a transaction; a cluster out of reach loses its words (R390). -/
def openTx (s : State) (line : Nat) (req : HomeReq) (queue : List HomeReq) : State :=
  let d := s.dieOfLine line
  let h := 64 * d + sliceOf line
  let (ws, skip, keep, iws, iskip) := needs line req
  let owners := (ws.filterMap fun wa => (lget wa s.owners).map fun o => (o.cluster, wa)).filter
    fun p => some p.1 ≠ skip
  let clusters := (owners.map Prod.fst).eraseDups
  let sharers := if iws = [] then [] else (s.sharersOf line).filter fun c => some c ≠ iskip
  let lost := fun c => (s.pairFail d (c / 16)).isSome
  let s := clusters.foldl (fun s c =>
    let mine := (owners.filter fun p => p.1 = c).map Prod.snd
    if lost c then
      mine.foldl (fun s wa => { s.poisonHome wa with owners := ldel wa s.owners }) s
    else s.post (chanDown c h) d (c / 16) (.recallMsg line mine keep (s.askerOf req))) s
  let s := sharers.foldl (fun s c =>
    if lost c then { s with sharers := lput line ((s.sharersOf line).erase c) s.sharers }
    else s.post (chanDown c h) d (c / 16) (.inv line iws)) s
  { s with txs := { line := line, req := req, acks := sharers.filter fun c => !lost c
                    recalls := owners.filter fun p => !lost p.1, queue := queue } :: s.txs }

/-- Every scheduler reads its parked launches' cells again (R65). -/
def rereadAll (s : State) : State :=
  (upTo 4).foldl (fun (s : State) d => s.modDie d fun D => { D with reread := true }) s

/-- The atomic is the decrement of a JOIN. -/
def isJoin (s : State) (r : AtomReq) : Bool := match r.sink with
  | .thread g t id => s.loads.any fun q => q.id = id && q.g = g && q.t = t && q.join
  | _ => false

/-- One atomic performed at its home (R233, R359, R388): the old value or the failure goes to its
issuer. -/
def performAtom (s : State) (d : Nat) (r : AtomReq) : State :=
  let fail : Option TrapInfo :=
    if s.markedIn r.pa r.width then
      some { cause := cECC, addr := r.va, aux := unitDie d (sliceOf r.pa) }
    else none
  let old := s.homeNat r.pa r.width
  let s := match fail, atomNew r.op r.signed r.width old r.b r.e with
    | none, some v => s.homeWriteNat r.pa r.width v
    | _, _ => s
  let s := if s.isJoin r && fail.isNone then s.rereadAll else s
  match r.sink, fail with
  | .record .., none => s
  | .outside, _ => s
  | .thread g t _, _ =>
    let k := (s.group g).kind
    let fail := match s.routeFail d k.die with
      | some u => some { cause := cLINK, addr := r.va, aux := u }
      | none => fail
    s.post (chanDown k.cluster (64 * d + sliceOf r.pa) + 4 * 2 ^ 20 * (t + 1)) d k.die (.atomr r old fail)
  | .record w .., some _ => s.post (chanWait 64 w.rcb) d d (.atomr r old fail)

/-! ## Ticket tables (R121, R230 to R232, R382) -/

/-- A ticket-table entry by slot. -/
def ticket (s : State) (slot : Nat) : Ticket := lgetD slot s.tickets freshTicket

/-- A change of a ticket-table entry. -/
def modTicket (s : State) (slot : Nat) (f : Ticket → Ticket) : State :=
  { s with tickets := lmod slot freshTicket f s.tickets }

/-- An entry freed, with its END. -/
def freeTicket (s : State) (slot : Nat) (e : TicketEnd) : State :=
  s.modTicket slot fun k => { k with tstate := .free, end_ := e }

/-- Entries that the subtree of a region holds (R382). -/
def ticketsHeld (s : State) (rcb : Nat) : Nat :=
  (s.tickets.filter fun k => k.2.tstate ≠ .free && s.under rcb k.2.rcb).length

/-- The RCB whose TKQ limit one more entry of a region would pass (R45, R382). -/
def ticketLimit (s : State) (rcb : Nat) : Option Nat :=
  (s.limiters rcb 8).find? fun q => (s.region q).tkq < s.ticketsHeld q + 1

/-- Entries of a slice that are free for use, in ascending order. -/
def freeSlots (s : State) (slice : Nat) : List Nat :=
  ((upTo 1024).map fun i => 1024 * slice + i).filter fun n =>
    (s.ticket n).tstate = .free && !(s.ticket n).dead

/-- The free entry that an LDT takes, which R230 leaves open (log entry 103). -/
def takeSlot (s : State) (slice : Nat) : Option (Nat × State) := match s.freeSlots slice with
  | [] => none
  | ks => some (ks.getD (Config.freePick s.free % ks.length) 0, { s with free := s.free + 1 })

/-- The ticket of an LDT on its way back, or its failure. -/
def returnTicket (s : State) (r : LdtReq) (val : Nat) (fail : Option TrapInfo) : State :=
  let k := (s.group r.g).kind
  let d := s.homeDie k.die r.pa
  match s.routeFail d k.die with
  | some u => s.post (chanDown k.cluster (s.homeSlice k.die r.pa)) d k.die
      (.ticket r.g r.t r.id 0 (some { cause := cLINK, addr := r.va, aux := u }))
  | none => s.post (chanDown k.cluster (s.homeSlice k.die r.pa)) d k.die (.ticket r.g r.t r.id val fail)

/-- A payload on its way to the thread or line that redeems it, once it has been read; where the way back is down the
entry ends as delivered (R231, R384). -/
def sendPayload (s : State) (slot : Nat) (c : Redeemer) : State :=
  let d := slot / 65536
  let k := ticketOf slot (s.ticket slot).gen
  let send := fun (s : State) fail =>
    s.post (chanDown c.cluster (slot / 1024)) d (c.cluster / 16) (.payload c.g c.t c.id k [] c.spm fail)
  match s.routeFail d (c.cluster / 16) with
  | some u => send (s.freeTicket slot .delivered) (some { cause := cLINK, aux := u })
  | none => match (s.ticket slot).link with
    | some u => send (s.freeTicket slot .delivered) (some { cause := cLINK, aux := u })
    | none => send s none

/-- The payload of a ticket read for an LDT (R230, R382), and sent where a redemption waits for it. The read of an
entry that has been freed since is discarded (R232). A read whose port is down fails with LINK_FAILURE (R387). -/
def readPayload (s : State) (r : LdtReq) : State :=
  let slot := ticketSlot r.ticket
  let k := s.ticket slot
  if k.gen ≠ ticketGen r.ticket || k.tstate = .free then s
  else
    let s := s.modTicket slot fun k =>
      { k with payload := s.homeBytes r.pa r.size, bad := s.markedIn r.pa r.size, ready := true, claim := none
               link := s.accessFail (slot / 65536) r.pa }
    match k.claim with
    | some c => s.sendPayload slot c
    | none => s

/-- An LDT takes an entry of its slice: the ticket goes back, or TICKET_TABLE_FULL (R230, R382). The request with its
ticket, none where it has failed. -/
def allocTicket (s : State) (d : Nat) (r : LdtReq) : State × Option LdtReq :=
  match s.takeSlot (64 * d + sliceOf r.pa) with
  | none => (s.returnTicket r 0 (some { cause := cTKFULL, addr := r.va }), none)
  | some (slot, s) =>
    let gen := if (s.ticket slot).gen = 16383 then 1 else (s.ticket slot).gen + 1
    let k : Ticket :=
      { gen := gen, rcb := r.rcb, tstate := .held, end_ := (s.ticket slot).end_, born := s.cycle
        limit := (s.die d).tkage }
    let r' := { r with ticket := ticketOf slot gen }
    ((s.modTicket slot fun _ => k).returnTicket r (ticketOf slot gen) none, some r')

/-- The transaction of a line. -/
def txOf (s : State) (line : Nat) : Option Tx := s.txs.find? fun x => x.line = line

/-- No transaction is in hand for the lines of an access (R101). -/
def lineFree (s : State) (pa n : Nat) : Bool :=
  (s.txOf (lineOf pa)).isNone && (s.txOf (lineOf (pa + n - 1))).isNone

/-- Lines for which a slice holds directory entries (R99). -/
def dirLines : Nat := 16384

/-- The lines of a slice that the directory holds an entry for. -/
def entryLines (s : State) (h : Nat) : List Nat :=
  (((s.sharers.filter fun e => e.2 ≠ []).map Prod.fst ++ s.owners.map fun e => lineOf e.1).filter fun l =>
    64 * s.dieOfLine l + sliceOf l = h).eraseDups

/-- A directory entry for a new line: a full slice evicts another entry (R99, R106); which one the spec leaves open
(log entry 104). -/
def roomFor (s : State) (line : Nat) : State :=
  if s.sharers.length + s.owners.length < dirLines then s
  else
    let lines := s.entryLines (64 * s.dieOfLine line + sliceOf line)
    let free := lines.filter fun l => (s.txOf l).isNone && l ≠ line
    if lines.contains line || lines.length < dirLines || free = [] then s
    else
      let out := free.getD (Config.victim s.cycle line % free.length) 0
      let s := s.openTx out .evict []
      match s.txOf out with
      | some x =>
        if x.acks = [] ∧ x.recalls = [] then
          { s with txs := s.txs.filter fun y => y.line ≠ out, sharers := ldel out s.sharers }
        else s
      | none => s

/-- The host agent has declared an operation (R124, R315). -/
def isNative (s : State) (op : AtomOp) (width : Nat) : Bool := match nativeBit op width with
  | some b => bit s.natop b
  | none => false

/-- Every atomic of a request is one that the host agent performs (R124). -/
def allNative (s : State) (rs : List AtomReq) : Bool := rs.all fun r => s.isNative r.op r.width

/-- The effect of a request whose recalls and invalidations are done. -/
def performTx (s : State) (line : Nat) : HomeReq → State
  | .gets c ws =>
    let d := s.dieOfLine line
    let vals := (ws.filter fun wa => (lget wa s.owners).isNone).map s.homeWord
    (((s.roomFor line).noteL2 false line).addSharer line c).post (chanDown c (64 * d + sliceOf line)) d (c / 16) (.data line vals)
  | .geto c ws rel =>
    let d := s.dieOfLine line
    -- a cluster asks for a word that it owns only when it has lost it (R389)
    let gone := ws.filter fun wa => match lget wa s.owners with
      | some o => o.cluster = c
      | none => false
    let s := gone.foldl (fun s wa => s.poisonHome wa) ((s.roomFor line).noteL2 false line)
    let vals := ws.map s.homeWord
    let own := fun (l : List (Nat × OwnerState)) wa =>
      let was := match lget wa l with
        | some o => o.cluster = c && o.rel
        | none => false
      lput wa { cluster := c, rel := rel || was } l
    { s with owners := ws.foldl own s.owners }.post (chanDown c (64 * d + sliceOf line)) d (c / 16)
      (.grant line ws vals rel)
  | .atom rs =>
    let d := s.dieOfLine line
    -- native atomics on host memory go on to their agent once the package's copies are home (R124)
    if line / 2 ^ 40 ≠ 0 && rs ≠ [] && s.allNative rs then s.post (chanMail (2 ^ 40 + line) 0) d d (.hostAtom rs false)
    else rs.foldl (fun s r => s.performAtom d r) s
  | .ldt r =>
    if r.ticket ≠ 0 then s.readPayload r
    else match s.allocTicket (s.dieOfLine line) r with
      | (s, some r) => s.readPayload r
      | (s, none) => s
  | .evict => { s with sharers := ldel line s.sharers }
  -- the device home responds on the link (R314)
  | .snoop excl => { s with sharers := if excl then ldel line s.sharers else s.sharers }.notify (.snooped line)
  | .rebuild | .move _ => { s with sharers := ldel line s.sharers }

/-- A request that the device performs in a host line, for which it must hold the line (R124). -/
def mustOwn (s : State) (line : Nat) : HomeReq → Bool
  | .atom rs => line / 2 ^ 40 ≠ 0 && !s.allNative rs
  | _ => false

/-- A page move that holds its line. -/
def isMove : HomeReq → Bool
  | .move _ => true
  | _ => false

/-- A page move holds a line: new requests for it wait (R97). -/
def moving (s : State) (line : Nat) : Bool := match s.txOf line with
  | some x => (x.req :: x.queue).any isMove
  | none => false

/-- A request of atomics. -/
def isAtom : HomeReq → Bool
  | .atom _ => true
  | _ => false

/-- The request that a line takes next, and those that go on waiting: while the device holds a host line, the host's
snoops wait behind the atomics (R124). -/
def nextReq (held : Bool) (queue : List HomeReq) : Option (HomeReq × List HomeReq) :=
  let first := match queue with
    | .snoop _ :: _ => if held then queue.find? isAtom else none
    | _ => none
  match first, queue with
  | some r, _ => some (r, queue.erase r)
  | none, r :: rest => some (r, rest)
  | none, [] => none

/-- The words that a request's atomics act on. -/
def atomWords : HomeReq → List Nat
  | .atom rs => rs.flatMap fun r => wordsIn r.pa r.width
  | _ => []

/-- The transaction of a line changed. -/
def modTx (s : State) (line : Nat) (f : Tx → Tx) : State :=
  { s with txs := s.txs.map fun x => if x.line = line then f x else x }

/-- The device asks the host for the line of atomics that it performs itself (R124). -/
def askHost (s : State) (line : Nat) : HomeReq → State
  | .atom rs =>
    let d := s.dieOfLine line
    (s.modTx line fun y => { y with asked := true }).post (chanMail (2 ^ 40 + line) 0) d d (.hostAtom rs true)
  | _ => s

/-- A line's transactions, one after another while nothing is awaited; a page move holds its line, and atomics that
the device performs in a host line wait until it holds the line. The fuel counts the requests that wait. -/
def runTx (s : State) (line : Nat) : Nat → State
  | 0 => s
  | n + 1 => match s.txOf line with
    | none => s
    | some x =>
      if x.acks ≠ [] ∨ x.recalls ≠ [] ∨ x.asked = true then s
      else match x.req with
        | .move k =>
          { s with moves := s.moves.map fun m =>
              if m.id = k then { m with left := m.left.erase line } else m }
        | req =>
          if s.mustOwn line req && !x.held then s.askHost line req
          else
            let s := { s with txs := s.txs.filter fun y => y.line ≠ line }
            let s := match x.held, req with
              | true, .atom rs => rs.foldl (fun s r => s.performAtom (s.dieOfLine line) r) s
              | _, req => s.performTx line req
            match nextReq x.held x.queue with
            | none => s
            | some (r, rest) =>
              let s := s.openTx line r rest
              let s := if x.held && rest.any isAtom || x.held && isAtom r then
                  s.modTx line fun y => { y with held := true, wrote := x.wrote ++ atomWords req }
                else s
              s.runTx line n

/-- A request that reaches a line's home (R101). -/
def arrive (s : State) (line : Nat) (req : HomeReq) : State := match s.txOf line with
  | some _ => { s with txs := s.txs.map fun x =>
      if x.line = line then { x with queue := x.queue ++ [req] } else x }
  | none => (s.openTx line req []).runTx line 1

/-- A line goes on after an answer. -/
def resumeTx (s : State) (line : Nat) : State :=
  s.runTx line (match s.txOf line with
    | some x => x.queue.length + 1
    | none => 1)

/-- Answers of a cluster to a transaction: an acknowledgement of INV, or words of RECALL. -/
def answered (s : State) (line c : Nat) (ack : Bool) (ws : List Nat) : State :=
  let answer := fun (x : Tx) =>
    if x.line = line then
      { x with acks := if ack then x.acks.erase c else x.acks
               recalls := x.recalls.filter fun p => !(p.1 = c && ws.contains p.2) }
    else x
  { s with txs := s.txs.map answer }.resumeTx line

/-- An access counted by a die's Kneader share (R95); the count that rose last stands last. -/
def countAccess (s : State) (pa from_ rcb : Nat) : State :=
  if pa / 2 ^ 40 ≠ 0 then s
  else
    let page := pa / 65536
    let same := fun (k : KCount) => k.page = page && k.die = from_ && k.rcb = rcb
    let k : KCount := (s.kcounts.find? same).getD
      { page := page, die := from_, cur := 0, prev := 0, rcb := rcb }
    { s with kcounts := (s.kcounts.filter fun k => !same k) ++ [{ k with cur := k.cur + 1 }] }

end State
end Sys2Proof.Machine
end

