-- ==== Sys2Proof/Machine/Operands.lean ====
section
/-! DEFINITION. Operand forms: typed register operands (R187), address formation (R151, R167, R217),
scratchpad bounds and line state (R215, R216), and the accesses of a thread to global memory and to the
scratchpad. -/

namespace Sys2Proof.Machine

/-! ## Integers of a width (R187) -/

/-- v mod 2^w for an integer v. -/
def wrap (w : Nat) (v : Int) : Nat := (v % (2 ^ w : Int)).toNat

/-- Ext(v): v read at a width with a signedness. -/
def extOf (sg : Bool) (w v : Nat) : Int := if sg ∧ 2 ^ (w - 1) ≤ v then (v : Int) - 2 ^ w else v

namespace State

/-- Get(f) for a type: the pair, or the low bits of the register. -/
def getTy (s : State) (t : Nat) (ty : Ty) (f : Field) : Nat :=
  if ty.width = 64 then (s.pair t f).toNat else (s.reg t f).toNat % 2 ^ ty.width

/-- Put(f, v) for a type: a narrow result is extended to 32 bits by the type's signedness. -/
def putTy (s : State) (t : Nat) (ty : Ty) (f : Field) (v : Int) : State :=
  let w := ty.width
  if w = 64 then s.setPair t f (BitVec.ofNat 64 (wrap 64 v))
  else if w = 32 then s.setReg t f (BitVec.ofNat 32 (wrap 32 v))
  else s.setReg t f (BitVec.ofNat 32 (wrap 32 (extOf ty.signed w (wrap w v))))

/-! ## Addresses -/

/-- The byte offset of an M form: size × sx(off) (R151). -/
def offsetOf (size : Nat) (off : BitVec 34) : Int := size * off.toInt

/-- A global address: pair plus offset modulo 2^64 (R217). -/
def globalAddr (s : State) (t : Nat) (a : Field) (size : Nat) (off : BitVec 34) : Nat :=
  wrap 64 ((s.pair t a).toNat + offsetOf size off)

/-- An SPM address as an integer (R217). -/
def spmAddr (s : State) (t : Nat) (a : Field) (size : Nat) (off : BitVec 34) : Int :=
  (s.reg t a).toNat + offsetOf size off

end State

/-- What a pointer form gives a thread (R167): the address, and the pointer's new value. -/
structure PtrUse where
  addr : Int
  next : Option DWord
  /-- The pointer that forms an SPM address has a bit of 63:32 set. -/
  high : Bool := false

namespace State

/-- The pointer's value before a waiting instruction advanced it (R393). -/
def ptrBase (s : State) (t n : Nat) : DWord := match (s.th t).undo with
  | some (m, v) => if m = n then v else s.ptr t n
  | none => s.ptr t n

/-- The address and update of a pointer mode (R167): for SPM the address is the pointer as an
integer, so that bits 63:32 put it out of bounds. -/
def usePtr (s : State) (t : Nat) (spm : Bool) (m : PtrMode) (n size : Nat) : PtrUse :=
  let p := s.ptrBase t n
  match m with
  | .off o =>
    let a : Int := p.toNat + offsetOf size o
    { addr := if spm then a else wrap 64 a, next := none, high := spm && 2 ^ 32 ≤ p.toNat }
  | .inc => { addr := p.toNat, next := some (p + BitVec.ofNat 64 size) }
  | .idx f =>
    let q : DWord := p + BitVec.ofInt 64 (s.reg t f).toInt
    { addr := q.toNat, next := some q }

/-- The pointer updated as an instruction that completes or waits leaves it. -/
def movePtr (s : State) (t n : Nat) (u : PtrUse) : State := match u.next with
  | some v => s.setPtr t n v
  | none => s

/-- The pointer updated by an instruction that waits, with the value to return to (R393). -/
def movePtrWait (s : State) (t n : Nat) (old : DWord) (u : PtrUse) : State := match u.next with
  | some v => (s.setPtr t n v).modTh t fun h => { h with undo := some (n, old) }
  | none => s

/-! ## Scratchpad (R215, R216) -/

/-- Bytes of SPM that a group's accesses reach: its block's allocation; none on a swarm context or for
a swarm proofer (R215, R243). -/
def spmSize (s : State) (g : Nat) : Nat :=
  let G := s.group g
  match G.kind with
  | .swarm _ _ => 0
  | .proofer u => if 512 ≤ u then 0 else 128 * (s.block G.blk).lines
  | .simt _ _ => 128 * (s.block G.blk).lines

/-- The count of entries that a thread has placed in a queue, with this one (R354); key is
SOURCE × 4 + queue. -/
def nextEnt (s : State) (g t key : Nat) : Nat × State :=
  let n := lgetD key (s.thread g t).ent 0 + 1
  (n, s.modThread g t fun h => { h with ent := lput key n h.ent })

/-- The bound check of an SPM access (R215, R381). -/
def spmBad (s : State) (g : Nat) (a : Int) (n : Nat) : Option TrapInfo :=
  if a < 0 ∨ 2 ^ 32 ≤ a then some { cause := cSPM, addr := wrap 64 a }
  else if s.spmSize g < a.toNat + n then some { cause := cSPM, addr := Nat.max a.toNat (s.spmSize g) }
  else none

/-- State of a line of a block's SPM. -/
def line (s : State) (b l : Nat) : Line := lgetD l (s.block b).lineState {}

/-- A line's state changed. -/
def modLine (s : State) (b l : Nat) (f : Line → Line) : State := s.modBlock b fun x =>
  { x with lineState := sput {} l (f (lgetD l x.lineState {})) x.lineState }

/-- Bytes of a block's SPM. -/
def spmRead (s : State) (b a n : Nat) : List Byte := readBytes (s.block b).spm a n

/-- Bytes written to a block's SPM. -/
def spmWrite (s : State) (b a : Nat) (bs : List Byte) : State :=
  s.modBlock b fun x => { x with spm := writeBytes x.spm a bs }

/-- The lines that n bytes from a touch. -/
def linesIn (a n : Nat) : List Nat :=
  if n = 0 then [] else (upTo ((a + n - 1) / 128 - a / 128 + 1)).map fun i => a / 128 + i

/-- The first line of a range that is empty. -/
def emptyLine (s : State) (b a n : Nat) : Option Nat := (linesIn a n).find? fun l => !(s.line b l).full

/-- A line of a range is poisoned. -/
def poisoned (s : State) (b a n : Nat) : Bool := (linesIn a n).any fun l => (s.line b l).poison

/-- An asynchronous writer issued for a line: the count rises and FULL falls (R216). -/
def markLine (s : State) (b l : Nat) : State :=
  s.modLine b l fun x => { x with full := false, count := x.count + 1 }

/-- Instances that a line which becomes FULL without poison calls for, in arming order (R242). -/
def callProofers (s : State) (b l : Nat) : State :=
  let arms := sortBy Arming.order ((s.engines.map fun e => e.2.arms).flatten.filter fun a =>
    a.blk = b && a.start ≤ 128 * l && 128 * l < a.stop)
  let due := arms.map fun a =>
    let d : Due := { arming := a, item := (128 * l - a.start) / 128, x := wordsOf 32 (s.spmRead b (128 * l) 128) }
    d
  { s with due := s.due ++ due }

/-- An asynchronous writer done with a line, or failed for it (R216). -/
def landLine (s : State) (b l : Nat) (bad : Bool) : State :=
  let old := s.line b l
  let c := old.count - 1
  let new : Line := { full := old.full || c = 0, poison := old.poison || bad, count := c }
  let s := s.modLine b l fun _ => new
  if !old.full && new.full && !new.poison then s.callProofers b l else s

end State

/-- The state of an SPM access after its bounds are checked: ready, waiting for FULL, or poisoned. -/
inductive SpmRes
  | ok
  | wait (w : WaitOn)
  | trap (ti : TrapInfo)

namespace State

/-- The waits and the poison check of a read of SPM (R216, R393). -/
def spmReady (s : State) (b a n : Nat) : SpmRes := match s.emptyLine b a n with
  | some l => .wait (.full b l)
  | none => if s.poisoned b a n then .trap { cause := cPOISON, addr := a } else .ok

/-! ## The loads and stores of a thread on global memory -/

/-- The request is an LDT of thread t of group g; acq asks for an acquire. -/
def isLdt (acq : Bool) (g t : Nat) : HomeReq → Bool
  | .ldt r => r.g = g && r.t = t && (!acq || r.mo.ord = .acq)
  | _ => false

/-- An LDT of the thread whose payload read has not been performed (R122, R230). -/
def ldtPending (s : State) (acq : Bool) (g t : Nat) : Bool :=
  (s.txs.any fun x => isLdt acq g t x.req || x.queue.any (isLdt acq g t))
    || s.flight.any fun m => match m.body with
      | .ldt r | .retry _ (.ldt r) => isLdt acq g t (.ldt r)
      | _ => false

/-- The thread has a load, LDT or atomic without its value (R102, R235). -/
def reading (s : State) (g t : Nat) : Bool :=
  (s.loads.any fun q => q.g = g && q.t = t) || s.ldtPending false g t

/-- An atomic is one of thread t of group g. -/
def atomBy (s : State) (g t : Nat) (r : AtomReq) : Bool := match r.sink with
  | .thread g' t' _ => g' = g && t' = t
  | .record w _ _ _ _ => sameThread w (s.owner g t)
  | .outside => false

/-- Atomics that a home has yet to perform for a line. -/
def reqAtoms : HomeReq → List AtomReq
  | .atom rs => rs
  | _ => []

/-- Atomics that a message takes to the place where they are performed. -/
def bodyAtoms : Body → List AtomReq
  | .atom rs | .retry _ (.atom rs) | .hostAtom rs _ => rs
  | _ => []

/-- An atomic of the thread that satisfies a test has not been performed: a RED in flight has no reply to wait for. -/
def redding (s : State) (g t : Nat) (p : AtomReq → Bool) : Bool :=
  let mine := fun (r : AtomReq) => s.atomBy g t r && p r
  (s.flight.any fun m => (bodyAtoms m.body).any mine)
    || s.txs.any fun x => (reqAtoms x.req).any mine || x.queue.any fun q => (reqAtoms q).any mine

/-- An atomic of the thread on a word of an access has not been performed: the thread's accesses to one word keep
their order (R102). -/
def atomOn (s : State) (g t pa n : Nat) : Bool :=
  s.redding g t fun r => (wordsIn r.pa r.width).any fun wa => (wordsIn pa n).contains wa

/-- Two replies of one RED or AMDRAIN.add. -/
def sameEntry : ReplyTo → ReplyTo → Bool
  | .record w u e i _, .record w' u' e' i' _ => w = w' && u = u' && e = e' && i = i'
  | _, _ => false

/-- An atomic of an entry is still to be performed. -/
def entryBusy (s : State) (sink : ReplyTo) : Bool :=
  let mine := fun (rs : List AtomReq) => rs.any fun r => sameEntry sink r.sink
  (s.flight.any fun m => mine (bodyAtoms m.body))
    || s.txs.any fun x => mine (reqAtoms x.req) || x.queue.any fun q => mine (reqAtoms q)

/-- The message carries a failed item of an entry. -/
def isFailOf (sink : ReplyTo) (m : Msg) : Bool := match m.body with
  | .atomr r _ _ => sameEntry sink r.sink
  | _ => false

/-- The message takes an uncached access of thread t of group g to its target. -/
def uncachedBy (s : State) (g t : Nat) (m : Msg) : Bool := m.chan % 4 = 2 && match m.body with
  | .uload g' t' .. => g' = g && t' = t
  | .ustore _ _ w | .storeFail _ _ _ (some w) => sameThread w (s.owner g t)
  | .ldt r => r.g = g && r.t = t
  | b => (bodyAtoms b).any (s.atomBy g t)

/-- A page to which an uncached access of the thread is on its way (R90). -/
def uncachedBusy (s : State) (g t : Nat) : Option Nat :=
  (s.flight.find? (s.uncachedBy g t)).map fun m => m.chan / 4 % 2 ^ 40

/-- What a release of the thread waits for of what the thread has sent on its way: its uncached accesses and its
atomics (R113). -/
def sentBusy (s : State) (g t : Nat) : Option WaitOn := match s.uncachedBusy g t with
  | some page => some (.uncached page)
  | none => if s.redding g t (fun _ => true) then some .atomics else none

/-- What a release of the thread waits for before it leaves: earlier reads, and what the thread has sent. -/
def releaseWait (s : State) (g t : Nat) : Option WaitOn :=
  if s.reading g t then some .loads else s.sentBusy g t

/-- The thread has an acquire outstanding, which its later accesses follow (R113). -/
def acquiring (s : State) (g t : Nat) : Bool :=
  (s.loads.any fun q => q.g = g && q.t = t && q.acquire) || s.ldtPending true g t

/-- The swarm core that holds an L0, none for other groups. -/
def l0Of (s : State) (g : Nat) : Option Nat := match (s.group g).kind with
  | .swarm c _ => some c
  | _ => none

/-- The bytes of an access, where its core's L0 holds them all (R32, R94). -/
def l0Bytes (s : State) (g pa n : Nat) : Option (List Byte) := match s.l0Of g with
  | none => none
  | some c =>
    let l := (s.core c).l0
    if (wordsIn pa n).all fun wa => (lget wa l).isSome then
      some ((upTo n).map fun i =>
        BitVec.ofNat 8 ((lgetD ((pa + i) / 4 * 4) l 0).toNat / 2 ^ (8 * ((pa + i) % 4))))
    else none

/-- An L0's words without a line that a full L0 of 16 KiB gives up for a new one (R22); which one the spec leaves
open (log entry 104). -/
def l0Room (cycle line : Nat) (l : List (Nat × Word)) : List (Nat × Word) :=
  if l.length < 128 then l
  else
    let lines := (l.map fun e => lineOf e.1).eraseDups
    if lines.length < 128 || lines.contains line then l
    else l.filter fun e => lineOf e.1 ≠ lines.getD (Config.victim cycle line % lines.length) 0

/-- Words entered in the L0 of a group's core, as its L1 holds them. -/
def fillL0 (s : State) (g pa n : Nat) : State := match s.l0Of g with
  | some c =>
    let cl := (s.group g).kind.cluster
    let add := fun (l : List (Nat × Word)) wa =>
      if s.l1Has cl wa 4 then lput wa (s.l1Word cl wa).val l else l
    s.modCore c fun k => { k with l0 := (wordsIn pa n).foldl add (l0Room s.cycle (lineOf pa) k.l0) }
  | none => s

/-- A store goes through the L0 of its thread's core: the words that the L0 held before it keep pace with the L1
(R94). -/
def throughL0 (s0 s : State) (g pa n : Nat) : State := match s.l0Of g with
  | some c =>
    let cl := (s.group g).kind.cluster
    let was := (s0.core c).l0
    let add := fun (l : List (Nat × Word)) wa =>
      if (lget wa was).isSome && s.l1Has cl wa 4 then lput wa (s.l1Word cl wa).val l else l
    s.modCore c fun k => { k with l0 := (wordsIn pa n).foldl add k.l0 }
  | none => s

/-- The running context of a group's core gives up the core after its instruction, which leaves the core (R32). -/
def leaveCore (s : State) (g : Nat) : State := match s.l0Of g with
  | some c => s.modCore c fun k => { k with yielded := true }
  | none => s

/-- An uncached load or its value is on its way. -/
def isUncached (s : State) (id : Nat) : Bool := s.flight.any fun m => match m.body with
  | .uload _ _ k _ _ | .uvalue _ _ k _ _ => k = id
  | _ => false

/-- An earlier cached load of the thread for a word of an access waits for its value: the accesses reach the L1 in
program order (R23, R102). -/
def earlierLoad (s : State) (g t pa n : Nat) : Bool := s.loads.any fun q =>
  q.g = g && q.t = t && q.kind = 0 && ((wordsIn q.pa q.size).any fun wa => (wordsIn pa n).contains wa)
    && !s.isUncached q.id

/-- A load for the L1 that port p has sent to the bank of the line of an address (R21, R23). -/
def sameBank (s : State) (p pa : Nat) (q : LoadReq) : Bool :=
  q.kind = 0 && (s.group q.g).kind.port = p
    && (lineOf q.pa = lineOf pa || Config.l1Bank (lineOf q.pa) = Config.l1Bank (lineOf pa))

/-- A load that port p has sent to the bank of an address waits for its value: the port's requests to a bank are
performed in the order in which it issued them (R23). -/
def portBusy (s : State) (p pa : Nat) : Bool := s.loads.any fun q => s.sameBank p pa q && !s.isUncached q.id

/-- A word of an access is that of an LDT of the thread whose payload read has not been performed. -/
def ldtOn (s : State) (g t pa n : Nat) : Bool :=
  let hit := fun (q : HomeReq) => match q with
    | .ldt r => r.g = g && r.t = t && (wordsIn r.pa r.size).any fun wa => (wordsIn pa n).contains wa
    | _ => false
  (s.txs.any fun x => hit x.req || x.queue.any hit) || s.flight.any fun m => match m.body with
    | .ldt r | .retry _ (.ldt r) => hit (.ldt r)
    | _ => false

/-- A request record of thread t of the issuing group. -/
def request (s : State) (t va pa size : Nat) (dst : List Nat) : LoadReq :=
  { id := s.nextKey, g := s.iss.g, t := t, pc := s.iss.pc.toNat, words := s.iss.words, va := va
    pa := pa, size := size, dst := dst }

/-- A request sent: its destinations become pending (R74). -/
def ask (s : State) (q : LoadReq) : State :=
  { (s.setPend q.g q.t q.dst).fresh.2 with loads := s.loads ++ [q] }

/-- A target that no L1 caches: a device-register page or a peer (R90, R315). -/
def isRemote (s : State) (d pa : Nat) : Bool := match s.target d pa with
  | .dev .. | .peer _ => true
  | _ => false

/-- A device-register page (R90). -/
def isDevice (s : State) (d pa : Nat) : Bool := match s.target d pa with
  | .dev .. => true
  | _ => false

/-- The address is that of DONE of a sequencer port, whose load gives the edge of MQWAIT (R275): the thread's later
accesses follow it. -/
def isDone (s : State) (d pa n : Nat) : Bool := match s.target d pa with
  | .dev unit page off => unit / 256 % 4 = 2 && page = 0 && off < 0x28 && 0x24 < off + n
  | _ => false

/-- A load of the issuing thread at a translated address (R90, R94, R103, R217): served from the L0 or the L1
at once, or asked for; an uncached load goes to its target. -/
def loadAt (s : State) (t va pa mt size : Nat) (sext acq : Bool) (dst : List Nat)
    (ret : Bool := false) : LaneRes :=
  let g := s.iss.g
  let G := s.group g
  let c := G.kind.cluster
  let q := { s.request t va pa size dst with sext := sext, acquire := acq || s.isDone G.kind.die pa size, ret := ret }
  let dev := s.isRemote G.kind.die pa
  if s.acquiring g t then .wait s .acquire
  else if mt = 1 || dev then
    let s := (s.leaveCore g).ask q
    let d := G.kind.die
    let s := match s.accessFail d pa with
      | some u => s.post (chanBack g) d d
          (.uvalue g t q.id [] (some { cause := cLINK, addr := va, aux := u }))
      | none => s.post (chanPage g (pa / 4096)) d (s.homeDie d pa) (.uload g t q.id pa size)
    done s q
  else if s.atomOn g t pa size then .wait s .atomics
  else if s.ldtOn g t pa size then .wait s .loads
  else if s.earlierLoad g t pa size then done ((s.leaveCore g).ask q) q
  else match s.l0Bytes g pa size with
  | some bs => .ok (s.finishLoad q bs)
  | none =>
  let s := s.leaveCore g
  if s.portBusy G.kind.port pa then done (s.ask q) q
  else if s.l1Has c pa size then
    if s.l1Marked c pa size then
      let ti : TrapInfo :=
        { cause := cECC, addr := va, aux := unitDie (s.homeDie G.kind.die pa) (sliceOf pa) }
      if ret then .trap ti else .ok ((s.ask q).failReply q ti)
    else
      let bs := s.l1Bytes c pa size
      .ok ((s.fillL0 g pa size).finishLoad q bs)
  else done ((s.ask q).sendGets c pa size G.rcb) q
where
  /-- A RET does not go on before its value (R378). -/
  done (s : State) (q : LoadReq) : LaneRes := if q.ret then .wait s .reply else .ok s

/-- The words of a thread's store, with their values from before, until its next release fence (R302). -/
def noteUnfenced (s : State) (t c pa n : Nat) : State :=
  let old := fun wa => BitVec.ofNat 32 (ofBytes ((upTo 4).map fun i => s.clusterByte c (wa + i)))
  let add := (wordsIn pa n).map fun wa => ({ wa := wa, at_ := s.cycle, val := old wa } : Older)
  s.modTh t fun h => { h with unfenced := add ++ h.unfenced, uncopied := add ++ h.uncopied }

/-- What a store of a thread comes to. -/
def storeAt (s : State) (t pa mt : Nat) (bs : List Byte) (mo : MemOrd) (eager : Option Nat) : LaneRes :=
  let g := s.iss.g
  let G := s.group g
  let c := G.kind.cluster
  let rel := mo.ord = .rel && (mo.scope = .dflt || mo.scope = .die || mo.scope = .dev)
  let sys := mo.ord = .rel && mo.scope = .sys
  let dev := s.isRemote G.kind.die pa
  if s.reading g t then .wait s .loads
  else if mo.ord = .rel && (s.sentBusy g t).isSome then .wait s ((s.sentBusy g t).getD .atomics)
  else if mt = 0 && !dev && s.atomOn g t pa bs.length then .wait s .atomics
  else
    -- a release at .sys, and an uncached release, first write back every earlier epoch (R109)
    let close := if (sys || (mo.ord = .rel && (mt = 1 || dev))) && eager.isNone then s.closeEpoch c
      else (none, s)
    match close with
    | (some e, s) => .wait s (.fence c e)
    | (none, s) =>
      if mt = 1 || dev then
        let d := G.kind.die
        .ok (match s.accessFail d pa with
          | some _ => s.post (chanPage g (pa / 4096)) d d
              (.storeFail pa (wordsIn pa bs.length) cLINK (some (s.who t)))
          | none => s.post (chanPage g (pa / 4096)) d (s.homeDie d pa) (.ustore pa bs (s.who t)))
      else if s.portBusy G.kind.port pa then .wait s (.port G.kind.port (lineOf pa))
      else match (s.noteUnfenced t c pa bs.length).storeL1 c pa bs (s.who t) rel with
        | .ok s1 => .ok (throughL0 s s1 g pa bs.length)
        | .wait s w => .wait s w

end State

/-- The epoch of a fence that the thread has just waited for. -/
def fencedOn (s0 : State) (t : Nat) : Option Nat := match (s0.th t).wait with
  | some (.fence _ e) => some e
  | _ => none

/-- A translated access of a bundle's thread continues with k, or waits, or traps. -/
def withPage (r : XRes) (k : State → Nat → Nat → LaneRes) : LaneRes := match r with
  | .ok s pa mt => k s pa mt
  | .fault ti => .trap ti
  | .wait s w => .wait s w

end Sys2Proof.Machine
end

