-- ==== Sys2Proof/Machine/Flags.lean ====
section
/-! DEFINITION. FPSTAT (R141): sticky flags, the stochastic counter and the random words (R137). -/

namespace Sys2Proof.Machine
namespace State

/-- SetFlag for thread t of the issuing group: flags only ever become set (R141). -/
def setFlags (s : State) (t : Nat) (f : Flags) : State :=
  s.modTh t fun h => { h with fpstat := h.fpstat ||| f.setWidth 32 }

/-- SRN of thread t (R141). -/
def srn (s : State) (t : Nat) : Nat := (s.th t).fpstat.toNat / 256

/-- SRN advanced by k, modulo 2^24 (R137). -/
def advSrn (s : State) (t k : Nat) : State := s.modTh t fun h =>
  { h with fpstat := BitVec.ofNat 32 ((h.fpstat.toNat / 256 + k) % 2 ^ 24 * 256 + h.fpstat.toNat % 256) }

/-- The random key of thread t (R137). -/
def streamKey (s : State) (t : Nat) : Nat :=
  let d := (s.th t).ident
  (randomKey d.jseed d.lcore d.tid).toNat

/-- FS0 to FS7 and FSSC0 to FSSC7 of thread t of group g: its group's, or those of a stitched thread's issuer (R53,
R133). -/
def slotsOf (s : State) (g t : Nat) : List Word × List Word :=
  (s.thread g t).slots.getD ((s.group g).fs, (s.group g).fssc)

/-- Format slot n of thread t of group g: FS and FSSC (R133). -/
def slotAt (s : State) (g t n : Nat) : SlotVal :=
  { fs := (s.slotsOf g t).1.getD n 0, scale := (s.slotsOf g t).2.getD n 0 }

/-- Format slot n of thread t of the issuing group. -/
def slot (s : State) (t n : Nat) : SlotVal := s.slotAt s.iss.g t n

end State
end Sys2Proof.Machine
end

