-- ==== Sys2Proof/Machine/Waits.lean ====
section
/-! DEFINITION. When a wait has ended (R175), and when a thread can issue (R34, R60, R72, R74). -/

namespace Sys2Proof.Machine
namespace State

/-- The trap area of a region has room, or no longer holds anyone up (R351). -/
def areaRoom (s : State) (rcb : Nat) : Bool :=
  let area := s.trapArea rcb
  match s.readVirt (s.region rcb).die (s.tableOf rcb) area 32 false with
  | .error _ => true
  | .ok (_, hdr) =>
    let size := ofBytes (hdr.take 8)
    let wr := ofBytes ((hdr.drop 8).take 8)
    let rd := ofBytes ((hdr.drop 16).take 8)
    nextPos size wr ≠ rd || (s.region rcb).mute

/-- The words of the barrier at SPM address x of a block now, and no arrivals or bytes. -/
def barNow (s : State) (b x : Nat) : List Nat :=
  (upTo 4).map (fun i => ofBytes (s.spmRead b (x + 4 * i) 4)) ++ [0, 0]

/-- What the barrier at SPM address x of a block held before the updates of this clock, and the arrivals and bytes of
the clock so far: ARR, EXP, TX, PH, arrivals, bytes. A store or atomic to the barrier after an update begins anew. -/
def barBase (s : State) (b x : Nat) : List Nat := match lget x (s.block b).bars with
  | some (c :: l) => if c = s.cycle && l.drop 6 = (s.barNow b x).take 4 then l.take 6 else s.barNow b x
  | _ => s.barNow b x

/-- Quarter operations or sequencer items that still use a tile (R74). -/
def tilePending (s : State) (e entry tile : Nat) : Bool :=
  (s.engine e).dispatch.any fun q => q.entry = entry && q.tile = tile

/-- A handle entry is in use by a pending tile or a queued command (R262). -/
def handleBusy (s : State) (e entry : Nat) : Bool :=
  ((s.engine e).dispatch.any fun q => q.entry = entry)
    || ((s.engine e).queue.any fun q => q.entry = some entry)

/-- The ranges that an engine's proofers hold: those of its blocks that are not saved. -/
def armsHeld (s : State) (e : Nat) : List Arming :=
  (s.engine e).arms.filter fun a => (s.block a.blk).bstate ≠ .saved

/-- Ranges or mailboxes armed on a proofer unit (R242): an engine's two proofers hold 8 together. -/
def armCount (s : State) (u : Nat) : Nat :=
  if u < 256 then (s.armsHeld u).length
  else (s.swarmArms.filter fun a => a.unit = u).length

/-- A thread of an earlier primitive holds the turn at a thread's pixel (R295). -/
def turnHeld (s : State) (g t : Nat) : Bool := match (s.thread g t).pixel with
  | none => false
  | some p => (s.groups.any fun e => e.2.blk = (s.group g).blk && e.2.threads.any fun h => match h.pixel with
    | some q => q.at_ = p.at_ && q.prim < p.prim && !q.passed
    | none => false)

/-- Slots of a mailbox that are taken (R55, R241). -/
def mailCount (s : State) (g : Nat) : Nat :=
  (s.group g).mail.length + (if (s.group g).reserved then 1 else 0)

/-- Messages on their way to a mailbox. -/
def mailComing (s : State) (rcb addr : Nat) : Nat := (s.flight.filter fun m => match m.body with
  | .message x => x.rcb = rcb && !x.bounced && x.target = addr
  | _ => false).length

/-- A message that the region scheduler of a die holds, or will: bounced, for a saved group, or for an address that no
group carries (R375). -/
def isHeld (s : State) (d : Nat) (m : Msg) : Bool := match m.body with
  | .message x => m.dst = d && (x.bounced || (match s.groupAt x.rcb x.target with
    | some g => (s.group g).gstate = .saved
    | none => true))
  | _ => false

/-- A message whose mailbox is gone can go on: it is discarded, or it bounces and the scheduler that will
hold it holds fewer than 256 others that it has room for now (R375). -/
def bounceRoom (s : State) (x : Message) : Bool :=
  let sent := fun (e : Nat) (m : Msg) => match m.body with
    | .message y => m.dst = e && (y.bounced || (s.groupAt y.rcb y.target).isSome) && s.isHeld e m
    | _ => false
  x.bounced || (match s.groupAt x.rcb x.sender with
    | some g => (s.flight.filter (sent (s.group g).kind.die)).length < 256
    | none => true)

/-- The mailbox at an address takes one more message of a sender on die d; one that will be bounced needs room in the
sender's scheduler (R55, R375). -/
def mailRoom (s : State) (d rcb addr : Nat) : Bool := match s.groupAt rcb addr with
  | none => (s.flight.filter (s.isHeld d)).length < 256
  | some g =>
    if (s.group g).gstate = .saved then
      (s.flight.filter (s.isHeld (s.group g).kind.die)).length < 256
    else s.mailCount g + s.mailComing rcb addr < 4

/-- The contributions of an HGS.det are all at their slices, and some of them are still buffered there (R307). -/
def landed (s : State) (q : MicroReq) : Bool := q.left = some 0 && s.scatter.any fun c => c.2.req = q.id

/-- A reply that writes a register of the thread is outstanding (R378). -/
def awaiting (s : State) (g t : Nat) : Bool :=
  s.reading g t || s.micro.any fun q => q.g = g && q.t = t && q.dst ≠ []

/-- The die of an inbox: engine e is e, core c is 256 + c, and the draw port of die d is 5,000 + d. -/
def inboxDie (i : Nat) : Nat :=
  if i < 256 then i / 64 else if i < 5000 then (i - 256) / 1024 else i - 5000

/-- Parked launches of a die (R65). -/
def parkedOn (s : State) (d : Nat) : List Launch :=
  (s.launches.map Prod.snd).filter fun L => L.die = d && L.lstate = .parked

/-- A task inbox takes one more launch: it has room, and the dependence table is not full (R65, R240). -/
def inboxRoom (s : State) (i : Nat) : Bool :=
  (lgetD i s.inboxes []).length < 16 && (s.parkedOn (inboxDie i)).length < 1024

/-- The regions of the threads that wait for room in a copy queue, in ascending order. -/
def cqWaiters (s : State) (q : Nat) : List Nat :=
  sortBy id ((s.groups.flatMap fun e => if e.2.threads.any fun h => match h.wait with
    | some (.queues c set) => c = q / 4 && bit set (q % 4)
    | _ => false then [e.2.rcb] else []).eraseDups)

/-- The region that is admitted next to a copy queue of those that wait for it: weighted round robin over CQSHARE
(R227). -/
def cqNext (s : State) (q : Nat) : Option Nat :=
  let ws := s.cqWaiters q
  let (r, left) := lgetD q s.cqTurns (0, 0)
  if ws.contains r && 0 < left then some r
  else match ws.find? fun w => r < w with
    | some w => some w
    | none => ws.head?

/-- A thread of a region may place an entry in each copy queue of a set: there is room, and it is its region's turn. -/
def cqRoom (s : State) (c set rcb : Nat) : Bool := (upTo 4).all fun n =>
  !bit set n || ((lgetD (4 * c + n) s.queues []).length < 64
    && (s.cqNext (4 * c + n) = none || s.cqNext (4 * c + n) = some rcb))

/-- None of the copy queues of a set is full (R228). -/
def joinRoom (s : State) (c set : Nat) : Bool := (upTo 4).all fun n =>
  !bit set n || (lgetD (4 * c + n) s.queues []).length < 64

/-- A region takes its turn at a copy queue. -/
def admitCq (s : State) (q rcb : Nat) : State := match s.cqNext q with
  | none => s
  | some _ =>
    let (r, left) := lgetD q s.cqTurns (0, 0)
    let share := (s.resolved rcb 7).cqshare
    { s with cqTurns := lput q (rcb, if r = rcb ∧ 0 < left then left - 1 else share - 1) s.cqTurns }

/-- WB bytes that a loader entry writes end here. -/
def wbStop (q : WbEntry) : Nat := q.offset + (slotTy q.slot.fs).bytes q.n

/-- The wait of thread t of group g has ended, but for one behind another thread. The waits on an MWAIT, a migration and a precise reply end
by the step that ends them. -/
def metOwn (s : State) (g t : Nat) : WaitOn → Bool
  | .walk k => s.walks.all fun w => w.id ≠ k
  | .loads => !s.reading g t
  | .acquire => !s.acquiring g t
  | .replies => !s.awaiting g t
  | .replay c => (s.l1 c).replay.length < 256
  | .grants c line => (s.l1 c).asked.all (fun wa => lineOf wa ≠ line)
      && (s.l1 c).replay.all fun r => r.words.all fun wa => lineOf wa ≠ line
  | .flushed c line => (s.l1 c).words.all (fun w => lineOf w.1 ≠ line || !w.2.leaving)
      && (s.l1 c).hand.all fun h => lineOf h.word ≠ line
  | .fence c e => !(s.l1 c).drains.contains e && !((s.l1 c).hand.any fun h => h.epoch = e)
  | .full b l => (s.line b l).full
  | .count b l => (s.line b l).count < 15
  | .queues c set => s.cqRoom c set (s.group g).rcb
  | .joinRoom c set => s.joinRoom c set
  | .port p line => !s.portBusy p line
  | .out q n => at0 (s.thread g t).out q ≤ n
  -- the update of a clock is combined, and seen once the clock is over (log entry 135)
  | .phase b a n => at0 (s.barBase b a) 3 ≠ n
  | .mailRoom addr => s.mailRoom (s.group g).kind.die (s.group g).rcb addr
  | .mail => (s.group g).mail ≠ []
  | .slot => s.mailCount g < 4
  | .stitched => !(s.group g).reserved
  | .inbox i => s.inboxRoom i
  | .proofer u => s.armCount u < (if u < 256 then 8 else 16)
  | .ldgs e => (s.lands.filter fun x => x.e = e && x.source ≠ 9).length < 256
  | .loader e => (s.engine e).loader.length < 16
  | .wb e lo hi => (s.engine e).loader.all fun q => wbStop q ≤ 512 * lo || 512 * (hi + 1) ≤ q.offset
  | .dispatch e p n => ((s.engine e).dispatch.filter fun q => q.part = p).length + n ≤ 32
  | .sequencer e => (s.engine e).queue.length < 64
  | .command e n => ((s.engine e).done + 2 ^ 32 - n) % 2 ^ 32 < 2 ^ 31
  | .tile e h x => !s.tilePending e h x
  | .handle e h => !s.handleBusy e h
  | .turn => !s.turnHeld g t
  | .scatter l n => s.micro.all fun q => q.fn ≠ 5 || q.launch ≠ l || n ≤ q.id || s.landed q
  | .trapArea rcb => s.areaRoom rcb
  | .uncached page => s.flight.all fun m => m.chan ≠ chanPage g page || !s.uncachedBy g t m
  | .atomics => !s.redding g t fun _ => true
  | .behind _ | .mask _ | .migrate _ | .reply => false

/-- The wait of thread t of group g has ended; one behind another thread of the bundle ends when that thread can go
on, so that the two issue together again (R35). -/
def met (s : State) (g t : Nat) : WaitOn → Bool
  | .behind u => match (s.thread g u).wait with
    | none => true
    | some w => s.metOwn g u w
  | w => s.metOwn g t w

/-- Issue of a group is stopped: its block is being saved or flushed, or a cycle limit holds its
region's subtree (R81, R357, R361). -/
def halted (s : State) (g : Nat) : Bool :=
  let G := s.group g
  G.stopped || G.gstate = .saved || G.gstate = .retired
    || ((s.path G.rcb).any fun r => (s.region r).hold)

/-- Thread t of group g has nothing before its next instruction: it is Live or runs a handler, no wait
holds it, and no failed reply or unwritten trap record comes first (R60, R345, R378). -/
def ready (s : State) (g t : Nat) : Bool :=
  let h := s.thread g t
  (h.slot = .live || h.slot = .trapped) && h.failed = [] && h.held.isNone
    && (match h.wait with
      | none => true
      | some w => s.met g t w)

end State

/-- Predicates that an instruction reads (R74). -/
def predsRead : Instr → List (BitVec 3)
  | .brc c _ | .brcNot c _ => [c]
  | .sel _ _ _ _ c => [c]
  | .voteAny _ a | .voteAll _ a | .voteBallot _ a => [a]
  | .plop _ a b _ => [a, b]
  | _ => []

/-- Predicates that an instruction writes (R74). -/
def predsWritten : Instr → List (BitVec 3)
  | .cmp _ _ c _ _ | .cmpi _ _ c _ _ | .fcmp _ c _ _ => [c]
  | .voteAny d _ | .voteAll d _ => [d]
  | .plop d _ _ _ => [d]
  | .atom _ _ op _ _ _ | .atomSpm _ _ op _ _ _ => match op with
    | .cas => [0#3]
    | _ => []
  | .amalloc .. | .cdet .. => [0#3]
  | _ => []

end Sys2Proof.Machine
end

