-- ==== Sys2Proof/Machine/Device.lean ====
section
/-! DEFINITION. Loads of device-register pages (R275, R284, R310, R311, R321), uncached reads, and reads
and writes over page boundaries. -/

namespace Sys2Proof.Machine

/-- The engine whose sequencer port a unit identifier names (R26, R310). -/
def portEngine (unit : Nat) : Nat :=
  unit / 16384 * 64 + unit / 1024 % 16 * 4 + (unit % 256 - 24)

namespace State

/-- The 4-byte register at an offset of a device-register page, none where no readable one stands. -/
def devReg (s : State) (unit page off : Nat) : Option Nat :=
  let d := s.die (unit / 16384)
  if unit / 256 % 4 = 2 then
    let e := s.engine (portEngine unit)
    if off < 0x20 then some (e.li.getD (off / 4) 0).toNat
    else if off = 0x20 then some e.seq
    else if off = 0x24 then some e.done
    else if off = 0x28 then some e.disc
    else none
  else if unit % 256 = 64 ∧ page = 0 then
    if off = 0x20 then some d.stat
    else if off = 0x24 then some d.err
    else if off = 0x48 then some d.frees.length
    else if off = 0x4C then some d.kskip
    else none
  else if unit % 256 = 64 ∧ page = 1 then
    if off = 0x08 then some d.acc
    else if off = 0x0C then some d.drawDone
    else if off = 0x10 then some d.drawDisc
    else none
  else if unit % 256 = 67 ∧ off = 0x28 then some d.reports
  else none

/-- A byte of a device-register page; free where no readable register stands (log entry 13). -/
def devByte (s : State) (unit page off : Nat) : Byte := match s.devReg unit page (off / 4 * 4) with
  | some v => BitVec.ofNat 8 (v / 2 ^ (8 * (off % 4)))
  | none => Config.openByte (unit * 2 ^ 14 + page * 2 ^ 12 + off)

/-- An uncached read performed at its target by an agent on die d (R90, R314, R315). -/
def uncachedRead (s : State) (d pa n : Nat) : Except (Nat × Nat) (List Byte) :=
  match s.target d pa with
  | .dev unit page off => match s.accessFail d pa with
    | some u => .error (cLINK, u)
    | none => .ok ((upTo n).map fun i => s.devByte unit page (off + i))
  | _ => s.readPhys d pa n

/-- n bytes at a virtual address for a unit on die d, page by page; the fuel counts pages. -/
def readSpan (d table : Nat) (user : Bool) : Nat → State → Nat → Nat → Except TrapInfo (State × List Byte)
  | 0, s, _, _ => .ok (s, [])
  | k + 1, s, va, n =>
    if n = 0 then .ok (s, [])
    else
      let m := Nat.min n (4096 - va % 4096)
      match s.readVirt d table va m user with
      | .error ti => .error ti
      | .ok (s, bs) => match readSpan d table user k s ((va + m) % 2 ^ 64) (n - m) with
        | .error ti => .error ti
        | .ok (s, cs) => .ok (s, bs ++ cs)

/-- n bytes at a virtual address of a tree, over as many pages as they touch. -/
def readFar (s : State) (d table va n : Nat) (user : Bool := true) : Except TrapInfo (State × List Byte) :=
  readSpan d table user (n / 4096 + 2) s va n

end State

/-- Byte ranges of an access, cut at page boundaries: at most two for up to 4,096 bytes. -/
def pagePieces (va n : Nat) : List (Nat × Nat) :=
  let m := Nat.min n (4096 - va % 4096)
  if n = 0 then [] else if m = n then [(va, n)] else [(va, m), ((va + m) % 2 ^ 64, n - m)]

/-- Translated pieces of an access: virtual address, physical address, memory type and length. -/
inductive Pieces
  | ok (s : State) (ps : List (Nat × Nat × Nat × Nat))
  | fault (ti : TrapInfo)
  | wait (s : State) (w : WaitOn)

/-- The pieces of an access of thread t of group g translated one after another (R91). -/
def translatePieces (g t acc : Nat) : State → List (Nat × Nat) → Pieces
  | s, [] => .ok s []
  | s, (va, n) :: rest => match s.translate g t va acc with
    | .fault ti => .fault ti
    | .wait s w => .wait s w
    | .ok s pa mt => match translatePieces g t acc s rest with
      | .ok s ps => .ok s ((va, pa, mt, n) :: ps)
      | r => r

end Sys2Proof.Machine
end

