-- ==== Sys2Proof/Machine/LoadStore.lean ====
section
/-! DEFINITION. Loads, stores and the scratchpad's lines (R167, R215 to R221). -/

namespace Sys2Proof.Machine

/-- The alignment check that comes first (R217). -/
def misaligned (a : Int) (size : Nat) : Option TrapInfo :=
  if a % size ≠ 0 then some { cause := cMISALIGN, addr := wrap 64 a } else none

/-! ## Accesses of one thread -/

/-- A global load (R217). -/
def loadGlobal (s : State) (t : Nat) (a : Int) (size : Nat) (sext acq : Bool) (dst : List Nat) : LaneRes :=
  match misaligned a size with
  | some ti => .trap ti
  | none => withPage (s.translate s.iss.g t a.toNat 0) fun s pa mt =>
    s.loadAt t a.toNat pa mt size sext acq dst

/-- A global store (R217). -/
def storeGlobal (s0 s : State) (t : Nat) (a : Int) (bs : List Byte) (mo : MemOrd) : LaneRes :=
  match misaligned a bs.length with
  | some ti => .trap ti
  | none => withPage (s.translate s.iss.g t a.toNat 1) fun s pa mt =>
    s.storeAt t pa mt bs mo (fencedOn s0 t)

/-- The checks of an SPM access: alignment, then bounds; a pointer with a bit of 63:32 set is out of
bounds (R167, R215, R217). -/
def spmCheck (s : State) (a : Int) (high : Bool) (size : Nat) : Option TrapInfo :=
  match misaligned a size with
  | some ti => some ti
  | none => if high then some { cause := cSPM, addr := wrap 64 a } else s.spmBad s.iss.g a size

/-- An SPM load: it waits while a line is empty and traps on poison (R216). -/
def loadSpm (s : State) (t : Nat) (a : Int) (high : Bool) (size : Nat) (sext : Bool)
    (dst : List Nat) : LaneRes :=
  let g := s.iss.g
  let b := (s.group g).blk
  match spmCheck s a high size with
  | some ti => .trap ti
  | none =>
    if s.acquiring g t then .wait s .acquire
    else match s.spmReady b a.toNat size with
    | .wait w => .wait s w
    | .trap ti => .trap ti
    | .ok => .ok (s.landDst g t [] dst (State.loadWords size sext (s.spmRead b a.toNat size)))

/-- An SPM store: FULL and POISON stay, and nothing of the line is waited for (R216); like every write
it follows the values of the thread's earlier loads (R114), and a release the thread's uncached stores. -/
def storeSpm (s0 s : State) (t : Nat) (a : Int) (high : Bool) (bs : List Byte) (mo : MemOrd) : LaneRes :=
  let g := s.iss.g
  match spmCheck s a high bs.length with
  | some ti => .trap ti
  | none =>
    if s.reading g t then .wait s .loads
    else if mo.ord = .rel && (s.sentBusy g t).isSome then .wait s ((s.sentBusy g t).getD .atomics)
    else
      -- a release at .sys first writes back every earlier epoch (R109)
      let close := if mo.ord = .rel && mo.scope = .sys && (fencedOn s0 t).isNone then
          s.closeEpoch (s.group g).kind.cluster
        else (none, s)
      match close with
      | (some e, s) => .wait s (.fence (s.group g).kind.cluster e)
      | (none, s) => .ok (s.spmWrite (s.group g).blk a.toNat bs)

/-- A size that extends a negative number (R153). -/
def Size.isSigned : Size → Bool
  | .s8 | .s16 => true
  | _ => false

/-- Absolute numbers of the registers that a load writes. -/
def loadDst (s : State) (t : Nat) (d : Field) (sz : Size) : List Nat :=
  s.runNums s.iss.g t d.toNat sz.regs

/-- The bytes that a store takes from its registers. -/
def storeBytes (s : State) (t : Nat) (d : Field) (sz : Size) : List Byte :=
  (bytesOf (s.run t d sz.regs)).take sz.bytes

/-! ## LD, ST, LDS, STS -/

/-- LD. -/
def execLd (mo : MemOrd) (d a : Field) (off : BitVec 34) (sz : Size) (s : State) :
    Host.Outcome State Fault Refusal :=
  runLanes (.ld mo d a off sz) (fun s0 s t =>
    loadGlobal s t (s0.globalAddr t a sz.bytes off) sz.bytes (Size.isSigned sz) (mo.ord = .acq)
      (loadDst s0 t d sz)) s

/-- ST. -/
def execSt (mo : MemOrd) (d a : Field) (off : BitVec 34) (sz : Size) (s : State) :
    Host.Outcome State Fault Refusal :=
  runLanes (.st mo d a off sz) (fun s0 s t =>
    storeGlobal s0 s t (s0.globalAddr t a sz.bytes off) (storeBytes s0 t d sz) mo) s

/-- LDS. -/
def execLds (mo : MemOrd) (d a : Field) (off : BitVec 34) (sz : Size) (s : State) :
    Host.Outcome State Fault Refusal :=
  runLanes (.lds mo d a off sz) (fun s0 s t =>
    loadSpm s t (s0.spmAddr t a sz.bytes off) false sz.bytes (Size.isSigned sz) (loadDst s0 t d sz)) s

/-- STS. -/
def execSts (mo : MemOrd) (d a : Field) (off : BitVec 34) (sz : Size) (s : State) :
    Host.Outcome State Fault Refusal :=
  runLanes (.sts mo d a off sz) (fun s0 s t =>
    storeSpm s0 s t (s0.spmAddr t a sz.bytes off) false (storeBytes s0 t d sz) mo) s

/-- The pointer update around an access: made when the access is done or waits after its address checks,
not while it waits for a page walk (R167, R393). -/
def withPtr (s0 : State) (t n : Nat) (u : PtrUse) : LaneRes → LaneRes
  | .ok s => .ok (s.movePtr t n u)
  | .wait s (.walk k) => .wait s (.walk k)
  | .wait s w => .wait (s.movePtrWait t n (s0.ptrBase t n) u) w
  | r => r

/-- The requests and failures of the pointer load of thread t at a PC keep what its pointer n was, for a save
(R368). -/
def notePtr (s : State) (t n : Nat) (v : DWord) (pc : Nat) : State :=
  let g := s.iss.g
  let load := fun (q : LoadReq) =>
    if q.g = g && q.t = t && q.pc = pc && q.ptr = none then { q with ptr := some (n, v) } else q
  let fail := fun (f : ReplyFail) => if f.pc = pc && f.ptr = none then { f with ptr := some (n, v) } else f
  { s with loads := s.loads.map load }.modTh t fun h => { h with failed := h.failed.map fail }

/-- The load that has just been issued keeps what its pointer was. -/
def keepPtr (t n : Nat) (v : DWord) (pc : Nat) : LaneRes → LaneRes
  | .ok s => .ok (notePtr s t n v pc)
  | r => r

/-- LD and LDS through a pointer. DESIGN CHOICE (log entry 137): where the reply fails later (R378), the pointer keeps what
the load made of it. -/
def execLdPointer (mo : MemOrd) (d : Field) (spm : Bool) (mode : PtrMode) (n : BitVec 3) (sz : Size)
    (s : State) : Host.Outcome State Fault Refusal :=
  runLanes (.ldPointer mo d spm mode n sz) (fun s0 s t =>
    let u := s0.usePtr t spm mode n.toNat sz.bytes
    let dst := loadDst s0 t d sz
    let sg := Size.isSigned sz
    withPtr s0 t n.toNat u
      (if spm then loadSpm s t u.addr u.high sz.bytes sg dst
       else keepPtr t n.toNat (s0.ptrBase t n.toNat) s0.iss.pc.toNat
         (loadGlobal s t u.addr sz.bytes sg (mo.ord = .acq) dst))) s

/-- ST and STS through a pointer. -/
def execStPointer (mo : MemOrd) (d : Field) (spm : Bool) (mode : PtrMode) (n : BitVec 3) (sz : Size)
    (s : State) : Host.Outcome State Fault Refusal :=
  runLanes (.stPointer mo d spm mode n sz) (fun s0 s t =>
    let u := s0.usePtr t spm mode n.toNat sz.bytes
    let bs := storeBytes s0 t d sz
    withPtr s0 t n.toNat u
      (if spm then storeSpm s0 s t u.addr u.high bs mo else storeGlobal s0 s t u.addr bs mo)) s

/-- The line that a prefetch asks for, when its address translates (R219). -/
def prefetch (s : State) (t va : Nat) : State :=
  let g := s.iss.g
  let G := s.group g
  let go := fun (s : State) pa mt =>
    if mt = 1 || s.isRemote G.kind.die pa || s.l1Has G.kind.cluster (lineOf pa) 128 then s
    else (s.leaveCore g).sendGets G.kind.cluster (lineOf pa) 128 G.rcb
  match s.translate g t va 0 with
  | .ok s pa mt => go s pa mt
  | .fault _ => s
  -- a miss of the TLB is off-core (R32); where the pool has no walk free the prefetch is dropped (R92)
  | .wait _ _ =>
    let s := s.leaveCore g
    if s.poolFull G.kind.die then s
    else match s.walkNow G.kind.die (s.tableOf G.rcb) va 0 (s.userLevel g t) with
    | .ok (s, pa, mt) => go s pa mt
    | .error _ => s

/-- LD.pf: it never waits and never traps. Its pointer moves also where the prefetch is dropped, which R219 does not
say, and where the walker pool is full it is dropped (DESIGN CHOICE, log entry 113). -/
def execLdPf (mo : MemOrd) (mode : PtrMode) (n : BitVec 3) (sz : Size) (s : State) :
    Host.Outcome State Fault Refusal :=
  runLanes (.ldPf mo mode n sz) (fun s0 s t =>
    let u := s0.usePtr t false mode n.toNat sz.bytes
    .ok ((prefetch s t u.addr.toNat).movePtr t n.toNat u)) s

/-! ## LDC (R218) -/

/-- Bytes with the words that a constant cache may still hold in their old values. -/
def oldBytes (s : State) (e c pa n : Nat) : List Byte := (upTo n).map fun i =>
  match lget ((pa + i) / 4 * 4) (s.engine e).olds with
  | some w => BitVec.ofNat 8 (w.toNat / 2 ^ (8 * ((pa + i) % 4)))
  | none => s.clusterByte c (pa + i)

/-- A load through the constant cache: where a word of it was written since a grid last started on the
engine, the value from before is one of the two that R218 allows, and a free choice takes it. -/
def constAt (s : State) (t va pa mt size : Nat) (sext : Bool) (dst : List Nat) : LaneRes :=
  let g := s.iss.g
  let G := s.group g
  let e := G.kind.engine
  let old := (wordsIn pa size).any fun wa => (lget wa (s.engine e).olds).isSome
  if mt = 1 || s.isRemote G.kind.die pa || G.kind.isSwarm || !old || s.acquiring g t then
    s.loadAt t va pa mt size sext false dst
  else
    let (b, s) := s.freeBit
    if b then .ok (s.landDst g t [] dst (State.loadWords size sext (oldBytes s e G.kind.cluster pa size)))
    else s.loadAt t va pa mt size sext false dst

/-- LDC. -/
def execLdc (mo : MemOrd) (d a : Field) (off : BitVec 34) (sz : Size) (s : State) :
    Host.Outcome State Fault Refusal :=
  runLanes (.ldc mo d a off sz) (fun s0 s t =>
    let va := s0.globalAddr t a sz.bytes off
    let dst := loadDst s0 t d sz
    if mo.ord = .acq then loadGlobal s t va sz.bytes (Size.isSigned sz) true dst
    else match misaligned va sz.bytes with
    | some ti => .trap ti
    | none => withPage (s.translate s.iss.g t va 0) fun s pa mt =>
      constAt s t va pa mt sz.bytes (Size.isSigned sz) dst) s

/-! ## LDGS, WAITF, SETE (R220, R221) -/

/-- SOURCE, INDEX and FIRST of an LDGS's record: a thread's, or a proofer instance's (R354). -/
def landSource (G : Group) : Nat × Nat × Nat := match G.kind with
  | .proofer u => if u < 512 then (2, u % 2, G.item) else (3, (u - 512) % 4, G.item)
  | _ => (1, 0, 0)

/-- An LDGS sent on its way: its line is marked and the request joins the engine's queue. -/
def sendLanding (s : State) (t spm va pa mt size : Nat) (olds : List Older) : State :=
  let g := s.iss.g
  let G := s.group g
  let (source, index, first) := landSource G
  let (ent, s) := if G.kind.isProofer then (((s.thread g t).ent.head?.map Prod.snd).getD 0, s)
    else s.nextEnt g t 4
  let l : Landing :=
    { id := s.nextKey, e := G.kind.engine, blk := G.blk, spm := spm, va := va, size := size
      who := if G.kind.isProofer then { s.who t with pc := G.entry.toNat } else s.who t
      pa := pa, mt := mt, rcb := G.rcb, ent := ent, source := source, index := index, first := first
      olds := olds }
  { (s.markLine G.blk (spm / 128)).fresh.2 with lands := s.lands ++ [l] }

/-- LDGS. An instance's LDGS that fails also poisons the line that it targets (R243). -/
def execLdgs (mo : MemOrd) (d a : Field) (off : BitVec 34) (sz : GSize) (s : State) :
    Host.Outcome State Fault Refusal :=
  runLanes (.ldgs mo d a off sz) (fun s0 s t =>
    let g := s.iss.g
    let G := s.group g
    let size := sz.bytes
    let va := s0.globalAddr t a size off
    let spm := (s0.reg t d).toNat
    let e := G.kind.engine
    let fail := fun (s : State) ti =>
      if G.kind.isProofer && (s.spmBad g spm size).isNone then
        LaneRes.part (s.modLine G.blk (spm / 128) fun x => { x with poison := true }) ti
      else .trap ti
    match misaligned va size with
    | some ti => fail s ti
    | none => match misaligned spm size with
    | some ti => fail s ti
    | none => match s.translate g t va 0 with
    | .fault ti => fail s ti
    | .wait s w => .wait s w
    | .ok s pa mt => match s.spmBad g spm size with
    | some ti => .trap ti
    | none =>
      if mo.ord = .rel && (s.releaseWait g t).isSome then .wait s ((s.releaseWait g t).getD .loads)
      else if s.acquiring g t then .wait s .acquire
      else if !s.met g t (.ldgs e) then .wait s (.ldgs e)
      else if !s.met g t (.count G.blk (spm / 128)) then .wait s (.count G.blk (spm / 128))
      else .ok (sendLanding s t spm va pa mt size (if mo.ord = .rel then [] else (s.th t).uncopied))) s

/-- WAITF: poison does not trap. -/
def execWaitf (a : Field) (s : State) : Host.Outcome State Fault Refusal :=
  runLanes (.waitf a) (fun s0 s t =>
    let g := s.iss.g
    let b := (s.group g).blk
    let x := (s0.reg t a).toNat
    match s.spmBad g x 1 with
    | some ti => .trap ti
    | none => if (s.line b (x / 128)).full then .ok s else .wait s (.full b (x / 128))) s

/-- SETE. -/
def execSete (a : Field) (s : State) : Host.Outcome State Fault Refusal :=
  runLanes (.sete a) (fun s0 s t =>
    let g := s.iss.g
    let x := (s0.reg t a).toNat
    match s.spmBad g x 1 with
    | some ti => .trap ti
    | none =>
      if s.reading g t then .wait s .loads
      else .ok (s.modLine (s.group g).blk (x / 128) fun l => { l with full := false, poison := false })) s

end Sys2Proof.Machine
end

