-- ==== Sys2Proof/Machine/Atomics.lean ====
section
/-! DEFINITION. Atomics and JOIN at their issuer (R91, R123, R124, R200, R233, R234), FENCE (R235) and
CFLUSH (R245). -/

namespace Sys2Proof.Machine

/-- The ordering kind releases. -/
def Ord.releases : Ord → Bool
  | .rel | .ar => true
  | _ => false

/-- The ordering kind acquires. -/
def Ord.acquires : Ord → Bool
  | .acq | .ar => true
  | _ => false

/-- The scope reaches beyond the cluster; the default scope is .dev (R7, R160). -/
def Scope.wide : Scope → Bool
  | .grp | .blk | .clu => false
  | _ => true

/-- What a release must wait for before its write leaves the thread (R102, R104, R113, R235): uncached stores and
atomics on their way, and, beyond the cluster, the write-back of every earlier epoch. -/
def releaseFirst (s0 s : State) (t : Nat) (mo : MemOrd) : State × Option WaitOn :=
  let g := s.iss.g
  let c := (s.group g).kind.cluster
  if !Ord.releases mo.ord then (s, none)
  else match s.sentBusy g t with
  | some w => (s, some w)
  | none =>
    if !Scope.wide mo.scope || (fencedOn s0 t).isSome then (s, none)
    else match s.closeEpoch c with
    | (some e, s) => (s, some (.fence c e))
    | (none, s) => (s, none)

/-! ## Global atomics -/

namespace State

/-- Words of a line that wait for their grant in a cluster (R102). -/
def lineBusy (s : State) (c line : Nat) : Bool := !s.met 0 0 (.grants c line)

/-- Atomics on one line sent together: to its home, and in the channel ch of the page where it is uncached or of a
peer (R90, R123); host memory refuses an uncached operation that is not native at once (R124, R315, R388). -/
def sendAtoms (s : State) (ch c mt : Nat) (rs : List AtomReq) : State := match rs with
  | [] => s
  | r :: _ =>
    let d := c / 16
    let home := s.homeDie d r.pa
    let up := chanUp c (s.homeSlice d r.pa)
    let fail := fun (s : State) (cause aux : Nat) (r : AtomReq) =>
      s.post (chanDown c (s.homeSlice d r.pa)) d d
        (.atomr r 0 (some { cause := cause, addr := r.va, aux := aux }))
    match s.accessFail d r.pa with
    | some u => rs.foldl (fun s r => fail s cLINK u r) s
    | none => match s.target d r.pa with
      | .peer _ => s.post ch d home (.hostAtom rs false)
      | .host _ =>
        if mt = 0 then s.post up d home (.atom rs)
        else if s.allNative rs then s.post ch d home (.hostAtom rs false)
        else rs.foldl (fun s r => fail s cHOSTDENY 0 r) s
      | _ => s.post (if mt = 0 then up else ch) d home (.atom rs)

/-- One atomic of a thread of group g sent. -/
def sendAtom (s : State) (g mt : Nat) (r : AtomReq) : State :=
  s.sendAtoms (chanPage g (r.pa / 4096)) (s.group g).kind.cluster mt [r]

end State

/-- An atomic's operands, as one request (R233). -/
def atomReq (s : State) (t pa va : Nat) (mo : MemOrd) (ty : Ty) (op : AtomOp) (d b : Field)
    (sink : ReplyTo) : AtomReq :=
  let w := 4 * ty.regs
  { pa := pa, va := va, width := w, op := op, signed := ty.signed, b := s.getTy t ty b
    e := match op with
      | .cas => s.getTy t ty d
      | _ => 0
    mo := mo, sink := sink }

/-- Page walks started for the atomics of a bundle: the state, and a walk that one of them waits for
(R91). -/
def startWalks (i : Instr) (addr : State → Nat → Nat) (width : Nat) (s : State) : State × Option Nat :=
  (lanesOk i s).foldl (fun (r : State × Option Nat) t =>
    let a := addr s t
    if a % width ≠ 0 then r
    else match r.1.translate s.iss.g t a 2 with
    | .wait s' (.walk k) => (s', some k)
    | _ => r) (s, none)

/-- The atomics of a bundle: none leaves before every thread has translated its address (R91). -/
def atomLanes (i : Instr) (addr : State → Nat → Nat) (width : Nat)
    (go : State → State → Nat → Nat → Nat → LaneRes) (s : State) : Host.Outcome State Fault Refusal :=
  let (s, walk) := startWalks i addr width s
  runLanes i (fun s0 s t =>
    let a := addr s0 t
    match misaligned a width with
    | some ti => .trap ti
    | none => match walk with
    | some k => .wait s (.walk k)
    | none => withPage (s.translate s.iss.g t a 2) fun s pa mt => go s0 s t pa mt) s

/-- The waits of an atomic before it leaves: earlier loads (R102), an acquire (R113), the release part,
and the grants of its line in the cluster's L1; the thread's earlier atomics on a word are before it on its channel. -/
def atomWaits (s0 s : State) (t pa : Nat) (mo : MemOrd) : State × Option WaitOn :=
  let g := s.iss.g
  let c := (s.group g).kind.cluster
  if s.reading g t then (s, some .loads)
  else match releaseFirst s0 s t mo with
  | (s, some w) => (s, some w)
  | (s, none) => if s.lineBusy c (lineOf pa) then (s, some (.grants c (lineOf pa))) else (s, none)

/-- ATOM on global memory. -/
def execAtom (mo : MemOrd) (ty : Ty) (op : AtomOp) (d a b : Field) (s : State) :
    Host.Outcome State Fault Refusal :=
  atomLanes (.atom mo ty op d a b) (fun s t => (s.pair t a).toNat) (4 * ty.regs) (fun s0 s t pa mt =>
    match atomWaits s0 s t pa mo with
    | (s, some w) => .wait s w
    | (s, none) =>
      let g := s.iss.g
      let va := (s0.pair t a).toNat
      let cas := match op with
        | .cas => true
        | _ => false
      let q := { s.request t va pa (4 * ty.regs) (s0.runNums g t d.toNat ty.regs) with
        acquire := Ord.acquires mo.ord, cas := cas, kind := 1 }
      let r := atomReq s0 t pa va mo ty op d b (.thread g t q.id)
      let s := s.ask q
      let s := if cas then s.modTh t fun h => { h with pendC := 0 :: h.pendC } else s
      .ok (s.sendAtom g mt r)) s

/-- RED on global memory: a failure is reported with SOURCE 10 (R354). -/
def execRed (mo : MemOrd) (ty : Ty) (op : AtomOp) (a b : Field) (s : State) :
    Host.Outcome State Fault Refusal :=
  atomLanes (.red mo ty op a b) (fun s t => (s.pair t a).toNat) (4 * ty.regs) (fun s0 s t pa mt =>
    match atomWaits s0 s t pa mo with
    | (s, some w) => .wait s w
    | (s, none) =>
      let g := s.iss.g
      let (ent, s) := s.nextEnt g t 40
      let r := atomReq s0 t pa (s0.pair t a).toNat mo ty op a b
        (.record (s.who t) (s.group g).kind.unit ent 0 0)
      .ok (s.sendAtom g mt r)) s

/-- JOIN: an atomic decrement of the cell's lower word, whose result ends the thread or lets it go on
(R52, R200). As the thread may end by it, it waits for the replies that EXIT waits for. -/
def execJoin (a : Field) (s : State) : Host.Outcome State Fault Refusal :=
  let mo : MemOrd := { ord := .ar, scope := .dev }
  atomLanes (.join a) (fun s t => (s.pair t a).toNat) 8 (fun s0 s t pa mt =>
    if s.awaiting s.iss.g t then .wait s .replies
    else match atomWaits s0 s t pa mo with
    | (s, some w) => .wait s w
    | (s, none) =>
      let g := s.iss.g
      let va := (s0.pair t a).toNat
      let q := { s.request t va pa 4 [] with acquire := true, join := true, kind := 1 }
      let r : AtomReq :=
        { pa := pa, va := va, width := 4, op := .add, signed := false, b := 2 ^ 32 - 1, e := 0, mo := mo
          sink := .thread g t q.id }
      .wait ((s.ask q).sendAtom g mt r) .reply) s

/-! ## SPM atomics -/

/-- An atomic performed at the SPM: the old value and the state after it (R123, R216, R233). -/
def spmAtomic (s0 s : State) (t : Nat) (mo : MemOrd) (ty : Ty) (op : AtomOp) (d a b : Field)
    (k : State → Nat → AtomReq → LaneRes) : LaneRes :=
  let g := s.iss.g
  let blk := (s.group g).blk
  let w := 4 * ty.regs
  let x := (s0.reg t a).toNat
  match spmCheck s x false w with
  | some ti => .trap ti
  | none =>
    if s.reading g t then .wait s .loads
    else match releaseFirst s0 s t mo with
    | (s, some q) => .wait s q
    | (s, none) => match s.spmReady blk x w with
    | .wait q => .wait s q
    | .trap ti => .trap ti
    | .ok =>
      let r := atomReq s0 t x x {} ty op d b .outside
      let old := ofBytes (s.spmRead blk x w)
      let s := match atomNew op ty.signed w old r.b r.e with
        | some v => s.spmWrite blk x (toBytes w v)
        | none => s
      k s old r

/-- ATOM on SPM. -/
def execAtomSpm (mo : MemOrd) (ty : Ty) (op : AtomOp) (d a b : Field) (s : State) :
    Host.Outcome State Fault Refusal :=
  runLanes (.atomSpm mo ty op d a b) (fun s0 s t =>
    spmAtomic s0 s t mo ty op d a b fun s old r =>
      let s := if ty.regs = 2 then s.setPair t d (BitVec.ofNat 64 old)
        else s.setReg t d (BitVec.ofNat 32 old)
      .ok (match op with
        | .cas => s.setPred t 0#3 (old = r.e)
        | _ => s)) s

/-- RED on SPM. -/
def execRedSpm (mo : MemOrd) (ty : Ty) (op : AtomOp) (a b : Field) (s : State) :
    Host.Outcome State Fault Refusal :=
  runLanes (.redSpm mo ty op a b) (fun s0 s t =>
    spmAtomic s0 s t mo ty op a a b fun s _ _ => .ok s) s

/-! ## FENCE and CFLUSH -/

/-- The ordering of a FENCE: ORD 0 is sequentially consistent (R160). -/
def fenceOrd (mo : MemOrd) : MemOrd := match mo.ord with
  | .rlx => { mo with ord := .ar }
  | _ => mo

/-- FENCE: the acquire part waits for earlier reads, those of REDs among them, the release part for the write-back of earlier
epochs (R235); SC is both, with the replay queue settled. A release fence orders every earlier event, loads among them,
before the LAUNCH or queue entry that follows it (R115, R118), so it waits for them too (DEDUCED, log entry 125). -/
def execFence (mo : MemOrd) (s : State) : Host.Outcome State Fault Refusal :=
  runLanes (.fence mo) (fun s0 s t =>
    let o := fenceOrd mo
    if s.reading s.iss.g t then .wait s .loads
    else if Ord.acquires o.ord && s.redding s.iss.g t (fun _ => true) then .wait s .atomics
    else match releaseFirst s0 s t o with
    | (s, some w) => .wait s w
    | (s, none) =>
      let far := Ord.releases o.ord && (o.scope = .clu || Scope.wide o.scope)
      let near := Ord.releases o.ord && o.scope ≠ .grp
      .ok (if near then s.modTh t fun h =>
          { h with unfenced := if far then [] else h.unfenced, uncopied := [] }
        else s)) s

/-- Dirty words of a line in a cluster's L1. -/
def dirtyIn (s : State) (c line : Nat) : List (Nat × L1Word) :=
  (s.l1 c).words.filter fun w => lineOf w.1 = line && w.2.dirty ≠ 0#4

/-- A line dropped from a cluster's L1 and from its L0s. -/
def dropLine (s : State) (c line : Nat) : State :=
  (s.modL1 c fun l => { l with words := l.words.filter fun w => lineOf w.1 ≠ line }).dropL0 c
    (State.lineWords line)

/-- CFLUSH of a line: grants, hand-overs and write-backs are waited for, and the line is dropped. -/
def flushLine (s : State) (c line : Nat) : LaneRes :=
  let dirty := dirtyIn s c line
  if s.lineBusy c line then .wait s (.grants c line)
  else if !s.met 0 0 (.flushed c line) then .wait s (.flushed c line)
  else if dirty = [] then .ok (dropLine s c line)
  else
    let rels := (dirty.filter fun w => w.2.rel.isSome).map Prod.fst
    let plain := (dirty.filter fun w => w.2.rel.isNone).map Prod.fst
    let s := rels.foldl (fun s wa => s.startHand c wa false) (s.sendWb c plain)
    .wait (s.l1Advance c) (.flushed c line)

/-- CFLUSH. -/
def execCflush (a : Field) (s : State) : Host.Outcome State Fault Refusal :=
  runLanes (.cflush a) (fun s0 s t =>
    let g := s.iss.g
    let k := (s.group g).kind
    withPage (s.translate g t (s0.pair t a).toNat 0) fun s pa mt =>
      if mt = 1 || s.isRemote k.die pa then .ok s else flushLine s k.cluster (lineOf pa)) s

end Sys2Proof.Machine
end

