-- ==== Sys2Proof/Machine/Sync.lean ====
section
/-! DEFINITION. SPM barriers (R236, R237), completion records (R353, R354), and the reads and writes of a
cluster's units (R91, R99). -/

namespace Sys2Proof.Machine

/-! ## Barriers -/

namespace State

/-- The combined update of the barrier at SPM address x of a block: the clock's arrivals are subtracted from ARR and
its bytes added to TX modulo 2^32, then the single test (R237). Updates of one clock count together, from the words
before the first of them, unless something else writes the barrier between them. -/
def barrier (s : State) (b x arrivals bytes : Nat) : State :=
  let base := s.barBase b x
  let na := at0 base 4 + arrivals
  let nb := at0 base 5 + bytes
  let arr := (at0 base 0 + 2 ^ 32 - na % 2 ^ 32) % 2 ^ 32
  let tx := (at0 base 2 + nb) % 2 ^ 32
  let done : Bool := arr = 0 && tx = 0
  let arr' := if done then at0 base 1 else arr
  let ph' := if done then (at0 base 3 + 1) % 2 ^ 32 else at0 base 3
  (((s.spmWrite b x (toBytes 4 arr')).spmWrite b (x + 8) (toBytes 4 tx)).spmWrite b (x + 12)
    (toBytes 4 ph')).modBlock b fun B => { B with
      bars := lput x (s.cycle :: base.take 4 ++ [na, nb, arr', at0 base 1, tx, ph']) B.bars }

end State

/-- The checks of a barrier address (R236). -/
def barrierCheck (s : State) (x : Nat) : Option TrapInfo := match misaligned x 16 with
  | some ti => some ti
  | none => s.spmBad s.iss.g x 16

/-- What an arrival, a release at `.blk` scope, waits for. -/
def arrivalWait (s : State) (t : Nat) : Option WaitOn := s.releaseWait s.iss.g t

/-- The threads of a bundle that arrive at one barrier together. -/
def arrivers (i : Instr) (s0 : State) (a : Field) (x : Nat) : List Nat :=
  (lanesOk i s0).filter fun t => (s0.reg t a).toNat = x && (arrivalWait s0 t).isNone

/-- BARA and BARA.tx: the lowest thread that arrives at a barrier makes the combined update of all of
them (R237). -/
def arrive (i : Instr) (a : Field) (bytes : State → Nat → Nat) (s : State) :
    Host.Outcome State Fault Refusal :=
  runLanes i (fun s0 s t =>
    let x := (s0.reg t a).toNat
    match barrierCheck s x with
    | some ti => .trap ti
    | none => match arrivalWait s t with
    | some w => .wait s w
    | none =>
      let all := arrivers i s0 a x
      if all.head? = some t then
        .ok (s.barrier (s.group s.iss.g).blk x all.length ((all.map (bytes s0)).sum))
      else .ok s) s

/-- BARA. -/
def execBara (a : Field) (s : State) : Host.Outcome State Fault Refusal :=
  arrive (.bara a) a (fun _ _ => 0) s

/-- BARA.tx. -/
def execBaraTx (a b : Field) (s : State) : Host.Outcome State Fault Refusal :=
  arrive (.baraTx a b) a (fun s t => (s.reg t b).toNat) s

/-- BARW. -/
def execBarw (a b : Field) (s : State) : Host.Outcome State Fault Refusal :=
  runLanes (.barw a b) (fun s0 s t =>
    let g := s.iss.g
    let x := (s0.reg t a).toNat
    let n := (s0.reg t b).toNat
    match barrierCheck s x with
    | some ti => .trap ti
    | none =>
      let w : WaitOn := .phase (s.group g).blk x n
      if s.met g t w then .ok s else .wait s w) s

/-! ## Completion records -/

/-- The place of an entry in its queue: die and unit that performed it, region, SOURCE, INDEX and ENT. -/
structure EntryId where
  d : Nat
  unit : Nat
  rcb : Nat
  source : Nat
  index : Nat
  ent : Nat
deriving DecidableEq, Repr

/-- The map of failed items of one window (R353). -/
def itemMap (first : Nat) (items : List Nat) : List Byte :=
  toBytes 64 (items.foldl (fun a i => Nat.lor a (2 ^ (i - first))) 0)

/-- The windows and causes that hold a failed item, in ascending order of window. -/
def recordKeys (fails : List (Nat × TrapInfo)) : List (Nat × Nat) :=
  sortBy (fun k => k.1) ((fails.map fun f => (f.1 / 512 * 512, f.2.cause)).eraseDups)

/-- The completion records of an entry's failed items, one for each window and cause (R353, R354). UNIT is the unit that
performed the items, or for UNCORRECTABLE_ECC the array that lost the first of them (R348); of the store replay queue it
is the cluster's (R379). -/
def completionRecords (e : EntryId) (who : Owner) (fails : List (Nat × TrapInfo)) :
    List (RecHead × List Byte) :=
  let keys := recordKeys fails
  (upTo keys.length).map fun n =>
    let (first, cause) := keys.getD n (0, 0)
    let mine := sortBy Prod.fst
      (fails.filter fun f => f.1 / 512 * 512 = first && f.2.cause = cause)
    let (addr, array) := match mine with
      | f :: _ => (f.2.addr, f.2.aux)
      | [] => (0, 0)
    let unit := if cause = cECC && e.source ≠ 11 then array else e.unit
    ({ kind := 2, cause := cause, flags := if n + 1 < keys.length then 4 else 0, unit := unit
       lr := who.lr, bid := who.bid, tid := who.tid, lcore := who.lcore, pc := who.pc, addr := addr
       aux := e.ent % 65536 * 2 ^ 48 + e.index * 2 ^ 40 + e.source * 2 ^ 32 + first },
      itemMap first (mine.map Prod.fst))

/-- The records of an entry written, or the header of one that finds no room (R355). -/
def State.complete (s : State) (e : EntryId) (who : Owner) (fails : List (Nat × TrapInfo)) :
    State.Told := s.reportAll e.d e.rcb (completionRecords e who fails)

/-! ## Accesses of a cluster's units -/

/-- The queue that a read belongs to, where its entries are ordered (R115): a thread's texture requests, or the copy queue
of an entry. -/
inductive Reader
  | alone
  | texture (g t : Nat)
  | copy (q id : Nat)
deriving DecidableEq, Repr

/-- An access cut at multiples of 128 bytes: at most two pieces for up to 128 bytes. -/
def linePieces (va n : Nat) : List (Nat × Nat) :=
  let m := Nat.min n (128 - va % 128)
  if n = 0 then [] else if m = n then [(va, n)] else [(va, m), ((va + m) % 2 ^ 64, n - m)]

/-- What a unit's write comes to: done, failed, or not possible yet. -/
inductive UnitRes
  | ok (s : State)
  | fail (ti : TrapInfo)
  | wait (s : State)

namespace State

/-- The value of a word for an agent that is not ordered after the stores of a list: none for the word's value now, or
one from before one of the stores; the n-th free pick chooses (R115, R302). -/
def oldWord (olds : List Older) (wa n : Nat) : Option Older :=
  let mine := olds.filter fun o => o.wa = wa
  (none :: mine.map some).getD (Config.freePick n % (mine.length + 1)) none

/-- A value that a later entry of a queue may still find, once an entry has found others: for each word, the value now or
one from until a clock (R115). -/
def stillFound (found : List (Nat × Option Nat)) (o : Older) : Bool := match lget o.wa found with
  | none => true
  | some none => false
  | some (some n) => n ≤ o.at_

/-- What an entry of a queue has found is not older for the entries after it, which its events precede (R115, R302): a
thread's texture requests, or the entries of a copy queue, whichever threads place them. -/
def afterRead (s : State) (found : List (Nat × Option Nat)) : Reader → State
  | .alone => s
  | .texture g t =>
    let keep := fun (l : List Older) => l.filter (stillFound found)
    { s.modThread g t fun h => { h with unfenced := keep h.unfenced } with
      micro := s.micro.map fun q => if q.g = g && q.t = t then { q with olds := keep q.olds } else q }
  | .copy q id =>
    let old := fun wa => s.groups.any fun g => g.2.threads.any fun h => h.uncopied.any fun o => o.wa = wa
    { s with
      copies := s.copies.map fun e =>
        if e.q = q && e.id ≠ id then { e with olds := e.olds.filter (stillFound found) } else e
      cqFloors := (found.filter fun f => old f.1).foldl (fun l f =>
          lmod (q * 2 ^ 64 + f.1) 0 (Nat.max · (f.2.getD s.cycle)) l)
        (s.cqFloors.filter fun f => old (f.1 % 2 ^ 64)) }

/-- Bytes at a physical address, where words of a list may still read as before: a free choice for each such word
(R115, R297, R302). -/
def stale (s : State) (olds : List Older) (pa : Nat) (bs : List Byte) (rd : Reader := .alone) : State × List Byte :=
  let all := wordsIn pa bs.length
  let ws := all.filter fun wa => olds.any fun o => o.wa = wa
  let pick := fun wa => if ws.contains wa then oldWord olds wa (s.free + ws.findIdx (· = wa)) else none
  let found := all.map fun wa => (wa, (pick wa).map Older.at_)
  let s := if ws = [] then s else { s with free := s.free + ws.length }
  (s.afterRead found rd, if ws = [] then bs else bs.zipIdx.map fun x =>
    let a := pa + x.2
    match pick (a / 4 * 4) with
    | some o => BitVec.ofNat 8 (o.val.toNat / 2 ^ (8 * (a % 4)))
    | none => x.1)

/-- n bytes at a translated address for a unit of cluster cl: from the cluster's L1 or from the home, where the access
counts (R95), or from the target of an uncached page. -/
def unitAt (s : State) (cl rcb pa mt n : Nat) : State × Except (Nat × Nat) (List Byte) :=
  if mt = 1 || s.isRemote (cl / 16) pa then
    let s := s.countAccess pa (cl / 16) rcb
    (s, s.uncachedRead (cl / 16) pa n)
  else
    let s := if s.l1Has cl pa n then s else s.countAccess pa (cl / 16) rcb
    (s, s.readCluster cl pa n)

/-- n bytes read by a unit of cluster cl for a region at user level (R91); a failure carries the address of
the access. -/
def unitRead (s : State) (cl table rcb va : Nat) (olds : List Older) (rd : Reader) :
    List (Nat × Nat) → Except TrapInfo (State × List Byte)
  | [] => .ok (s, [])
  | (a, n) :: rest => match s.walkNow (cl / 16) table a 0 true with
    | .error ti => .error { ti with addr := va }
    | .ok (s', pa, mt) => match s'.unitAt cl rcb pa mt n with
      | (_, .error f) => .error { cause := f.1, addr := va, aux := f.2 }
      | (s', .ok bs) =>
        let (s', bs) := s'.stale olds pa bs rd
        match s'.unitRead cl table rcb va olds rd rest with
        | .error ti => .error ti
        | .ok (s'', cs) => .ok (s'', bs ++ cs)

/-- n bytes read by a unit of a cluster. -/
def unitBytes (s : State) (cl table rcb va n : Nat) (olds : List Older := []) (rd : Reader := .alone) :
    Except TrapInfo (State × List Byte) := s.unitRead cl table rcb va olds rd (linePieces va n)

/-- A store of another copy queue to a word of an uncached access is on its way: a word takes each entry's write as a
whole (R117). -/
def queueStore (s : State) (u pa n : Nat) : Bool := u < 256 && s.flight.any fun m => match m.body with
  | .ustore pa' bs w => w.job.isSome && m.chan ≠ chanUnit u && unitOfChan m.chan < 256
      && (wordsIn pa' bs.length).any fun wa => (wordsIn pa n).contains wa
  | _ => false

/-- Bytes written by unit u at user level in a tree: through its cluster's L1, or to the target of an uncached page on
the unit's own channel. A write whose route is down fails with LINK_FAILURE, so that the unit's item
fails (R387, R390). -/
def unitWrite (s : State) (u table va : Nat) (who : Owner) : List Byte → List (Nat × Nat) → UnitRes
  | _, [] => .ok s
  | bs, (a, n) :: rest =>
    let cl := storeUnitCluster u
    match s.walkNow (cl / 16) table a 1 true with
    | .error ti => .fail { ti with addr := va }
    | .ok (s', pa, mt) =>
      let now := bs.take n
      let d := cl / 16
      match s'.accessFail d pa with
      | some u => .fail { cause := cLINK, addr := va, aux := u }
      | none =>
        if mt = 1 || s'.isRemote d pa then
          if s'.queueStore u pa n then .wait s'
          else (s'.post (chanUnit u) d (s'.homeDie d pa) (.ustore pa now who)).unitWrite u table va who
            (bs.drop n) rest
        else match s'.storeL1 cl pa now { who with job := none } with
          | .wait s'' _ => .wait s''
          | .ok s'' => s''.unitWrite u table va who (bs.drop n) rest

/-- Bytes written by a unit. -/
def unitStore (s : State) (u table va : Nat) (who : Owner) (bs : List Byte) : UnitRes :=
  s.unitWrite u table va who bs (linePieces va bs.length)

/-- Stores of unit u to uncached pages that have not been performed, or whose failure has not been reported. -/
def unitStoring (s : State) (u : Nat) : Bool := s.flight.any fun m => m.chan = chanUnit u

end State
end Sys2Proof.Machine
end

