-- ==== Sys2Proof/Machine/Copy.lean ====
section
/-! DEFINITION. Copy queues (R115, R222 to R229, R387) and the landing of asynchronous writers (R216,
R220). -/

namespace Sys2Proof.Machine

/-! ## The command words (R222, R223) -/

/-- Word i of a command as a number. -/
def cw (w : List Word) (i : Nat) : Nat := (w.getD i 0).toNat
/-- KIND. -/
def cqKind (w : List Word) : Nat := bits (cw w 0) 3 0
/-- DIR. -/
def cqOut (w : List Word) : Bool := bit (cw w 0) 4
/-- ESZb. -/
def cqSize (w : List Word) : Nat := 2 ^ bits (cw w 0) 6 5
/-- BAR. -/
def cqBar (w : List Word) : Bool := bit (cw w 0) 7
/-- SPM address of the barrier. -/
def cqBarrier (w : List Word) : Nat := 16 * bits (cw w 0) 31 15
/-- G, or the source of kind 5. -/
def cqG (w : List Word) : Nat := cw w 1 + cw w 2 * 2 ^ 32
/-- The low half of word i. -/
def cwLo (w : List Word) (i : Nat) : Nat := bits (cw w i) 15 0
/-- The high half of word i. -/
def cwHi (w : List Word) (i : Nat) : Nat := bits (cw w i) 31 16
/-- The destination of kind 5. -/
def cqDest (w : List Word) : Nat := cw w 5 + cw w 6 * 2 ^ 32
/-- BW, BH and BN of a gather. -/
def cqBW (w : List Word) : Nat := bits (cw w 7) 7 0 + 1
/-- BH. -/
def cqBH (w : List Word) : Nat := bits (cw w 7) 15 8 + 1
/-- BN. -/
def cqBN (w : List Word) : Nat := bits (cw w 7) 19 16 + 1

/-- Elements of a command (R224, R225); of a multicast, elements of its tile. -/
def cqCount (w : List Word) : Nat := match cqKind w with
  | 1 | 4 => cwLo w 4 * cwHi w 4
  | 2 => cwLo w 4 * cwHi w 4 * cwLo w 5
  | 3 => cwLo w 4 * cqBW w * cqBH w * cqBN w
  | _ => cw w 4

/-- The address of pixel element i of a gather, none for padding (R225). -/
def gatherAt (w : List Word) (i : Nat) : Option Nat :=
  let e := cqSize w
  let c := cwLo w 4
  let x := i / c % cqBW w
  let y := i / (c * cqBW w) % cqBH w
  let n := i / (c * cqBW w * cqBH w)
  let xs : Int := extOf true 16 (cwLo w 6) + x
  let ys : Int := extOf true 16 (cwHi w 6) + y
  let width := cwLo w 5
  let height := cwHi w 5
  if 0 ≤ xs ∧ xs < width ∧ 0 ≤ ys ∧ ys < height ∧ n < bits (cw w 7) 31 20 then
    let p := c * e
    some ((cqG w + n * (height * (width * p)) + ys.toNat * (width * p) + xs.toNat * p + i % c * e) % 2 ^ 64)
  else none

/-- The global address of element i, none for padding (R224, R225). -/
def cqGlobal (w : List Word) (i : Nat) : Option Nat :=
  let e := cqSize w
  match cqKind w with
  | 1 | 2 | 4 =>
    let x := i % cwLo w 4
    let y := i / cwLo w 4 % cwHi w 4
    let z := i / (cwLo w 4 * cwHi w 4)
    some (wrap 64 (cqG w + e * x + extOf true 32 (cw w 6) * y
      + (if cqKind w = 2 then extOf true 32 (cw w 7) * z else 0)))
  | 3 => gatherAt w i
  | _ => some ((cqG w + e * i) % 2 ^ 64)

/-- The padding element (R225). -/
def padElement (w : List Word) : List Byte :=
  let e := cqSize w
  if e = 1 then toBytes 1 (cwHi w 4 / 256) else toBytes e (cwHi w 4 * 2 ^ (8 * (e - 2)))

/-- The words and bits that a kind reserves are zero, and DIR and BAR stand only where R222 allows them. -/
def cqFieldsOk (w : List Word) : Bool :=
  let k := cqKind w
  let zero := fun (i : Nat) => cw w i = 0
  k ≤ 5 && bits (cw w 0) 14 8 = 0
    && !(cqOut w && 3 ≤ k) && !(cqBar w && (cqOut w || 4 ≤ k))
    && (match k with
      | 0 => zero 5 && zero 6 && zero 7
      | 1 => zero 5 && zero 7
      | 2 => cwHi w 5 = 0
      | 5 => zero 3 && zero 7
      | _ => true)

/-- The entry reads or writes the issuer's SPM. -/
def cqSpm (w : List Word) : Bool := cqKind w ≠ 5

/-- The entry writes lines of the issuer's SPM, which are marked when it is issued. -/
def cqMarks (w : List Word) : Bool := cqKind w ≤ 3 && !cqOut w

/-- The lines of SPM that the entry's bytes lie in. -/
def cqLines (w : List Word) : List Nat := State.linesIn (cw w 3) (cqCount w * cqSize w)

/-- The operand checks of ACPY in the order of R393 (R227). -/
def copyCheck (s : State) (w : List Word) : Option TrapInfo :=
  let g := s.iss.g
  let e := cqSize w
  if !cqFieldsOk w then some { cause := cRESERVED }
  else match misaligned (cqG w) e with
  | some ti => some ti
  | none => match misaligned (if cqSpm w then cw w 3 else cqDest w) e with
  | some ti => some ti
  | none =>
    let n := cqCount w * e
    let bound := if cqSpm w && n ≠ 0 then s.spmBad g (cw w 3) n else none
    match bound with
    | some ti => some ti
    | none => if cqBar w then s.spmBad g (cqBarrier w) 16 else none

/-! ## ACPY, QJOIN, QWAIT, MFREE -/

namespace State

/-- Copy entries by id. -/
def copy? (s : State) (id : Nat) : Option CqEntry := s.copies.find? fun q => q.id = id

/-- A change of a copy entry. -/
def modCopy (s : State) (id : Nat) (f : CqEntry → CqEntry) : State :=
  { s with copies := s.copies.map fun q => if q.id = id then f q else q }

/-- An item at the tail of a copy queue. -/
def pushCq (s : State) (q : Nat) (x : CqItem) : State :=
  { s with queues := lmod q [] (· ++ [x]) s.queues }

/-- The head of a copy queue removed. -/
def popCq (s : State) (q : Nat) : State := { s with queues := lmod q [] (·.drop 1) s.queues }

/-- The entry at place n of a copy queue. -/
def entryAt (s : State) (q n : Nat) : Option CqEntry := match (lgetD q s.queues [])[n]? with
  | some (.entry id) => s.copy? id
  | _ => none

/-- The entry at the head of a copy queue. -/
def headEntry (s : State) (q : Nat) : Option CqEntry := match lgetD q s.queues [] with
  | .entry id :: _ => s.copy? id
  | _ => none

end State

/-- The waits of a release before an entry is queued (R115). -/
def entryWait (s0 s : State) (t : Nat) (mo : MemOrd) : State × Option WaitOn :=
  if mo.ord = .rel then
    if s.reading s.iss.g t then (s, some .loads) else releaseFirst s0 s t mo
  else (s, none)

/-- A checked command enters queue n of the issuer's cluster (R227). -/
def enqueueCopy (s : State) (t n : Nat) (mo : MemOrd) (w : List Word) : State :=
  let g := s.iss.g
  let G := s.group g
  let (ent, s) := s.nextEnt g t n
  let (id, s) := s.fresh
  let q := 4 * G.kind.cluster + n
  let e : CqEntry :=
    { id := id, g := g, t := t, q := q, blk := G.blk, w := w, who := s.who t, ent := ent, mo := mo
      olds := if mo.ord = .rel then [] else (s.th t).uncopied.filter fun o => lgetD (q * 2 ^ 64 + o.wa) s.cqFloors 0 ≤ o.at_ }
  let s := if cqMarks w then (cqLines w).foldl (fun s l => s.markLine G.blk l) s else s
  let s := { s with copies := s.copies ++ [e] }.pushCq q (.entry id)
  s.modTh t fun h => { h with out := h.out.modify n (· + 1) }

/-- The items of an entry: its elements, or the targets of a multicast that is not empty (R226, R354). -/
def copyItems (w : List Word) : Nat :=
  if cqKind w = 4 then (if cqCount w = 0 then 0 else 16) else cqCount w

/-- ACPY. -/
def execAcpy (mo : MemOrd) (q : BitVec 2) (a : Field) (s : State) : Host.Outcome State Fault Refusal :=
  runLanes (.acpy mo q a) (fun s0 s t =>
    let g := s.iss.g
    let G := s.group g
    let w := s0.run t a 8
    let n := q.toNat
    match copyCheck s w with
    | some ti => .trap ti
    | none => match entryWait s0 s t mo with
    | (s, some x) => .wait s x
    | (s, none) =>
      let room : WaitOn := .queues G.kind.cluster (2 ^ n)
      -- the thread itself counts among those that wait for the queue
      let s1 := s.stay t room
      let lines := if cqMarks w then cqLines w else []
      match lines.find? fun l => 15 ≤ (s.line G.blk l).count with
      | some l => .wait s (.count G.blk l)
      | none =>
        -- an entry with no elements completes at once
        if copyItems w = 0 then .ok (s.nextEnt g t n).2
        else if s1.cqRoom G.kind.cluster (2 ^ n) G.rcb then
          .ok (enqueueCopy { s with cqTurns := (s1.admitCq (4 * G.kind.cluster + n) G.rcb).cqTurns } t n mo w)
        else .wait s room) s

/-- QJOIN: one marker in each named queue, in one step. -/
def execQjoin (qs : BitVec 4) (s : State) : Host.Outcome State Fault Refusal :=
  runLanes (.qjoin qs) (fun _ s _ =>
    let g := s.iss.g
    let cl := (s.group g).kind.cluster
    if s.joinRoom cl qs.toNat then
      let (id, s) := s.fresh
      .ok (((upTo 4).filter fun q => qs.getLsbD q).foldl (fun s q => s.pushCq (4 * cl + q) (.marker id)) s)
    else .wait s (.joinRoom cl qs.toNat)) s

/-- QWAIT. -/
def execQwait (q : BitVec 2) (a : Field) (s : State) : Host.Outcome State Fault Refusal :=
  runLanes (.qwait q a) (fun s0 s t =>
    let w : WaitOn := .out q.toNat (s0.reg t a).toNat
    if s.met s.iss.g t w then .ok s else .wait s w) s

/-- MFREE: one credit for the token, at most 15 (R226). -/
def execMfree (a : Field) (s : State) : Host.Outcome State Fault Refusal :=
  runLanes (.mfree a) (fun s0 s t =>
    let token := (s0.reg t a).toNat % 65536
    .ok (s.modBlock (s.group s.iss.g).blk fun b =>
      { b with credits := lmod token 0 (fun n => Nat.min 15 (n + 1)) b.credits })) s

/-! ## The queue's own steps -/

/-- The identity of an entry for its records. -/
def copyId (q : CqEntry) : EntryId :=
  { d := q.q / 64, unit := unitCluster (q.q / 4) (q.q % 4), rcb := q.who.rcb, source := 0
    index := q.q % 4, ent := q.ent }

/-- The block of the issuer's launch with an index, Resident on a die. -/
def residentAt (s : State) (launch bid d : Nat) : Option Nat :=
  (s.blocks.find? fun e => e.2.launch = launch && e.2.bid = bid && e.2.bstate = .resident
    && e.2.kind ≠ .swarm && (e.2.engines.head?.map (· / 64)) = some d).map Prod.fst

/-- The targets of a multicast: bits of TMASK and their blocks; and the bits whose target is not Resident
(R226). -/
def castTargets (s : State) (q : CqEntry) : List (Nat × Nat) × List Nat :=
  let launch := (s.block q.blk).launch
  let named := (upTo 16).filter fun i => bit (cwLo q.w 5) i
  let find := fun i => residentAt s launch (cw q.w 7 + i) (q.q / 64)
  (named.filterMap fun i => (find i).map fun b => (i, b), named.filter fun i => (find i).isNone)

/-- The failure of a multicast target that is not Resident (log entry 14). -/
def castFail (i : Nat) : Nat × TrapInfo := (i, { cause := Config.multicastCause.toNat })

/-- COPY_ENTRY: the entry at the head of queue q begins. A multicast fails its absent targets, and bits of
TMASK that are clear count as done. -/
def execCopyEntry (q : Nat) (s : State) : Host.Outcome State Fault Refusal :=
  match s.headEntry q with
  | none => .next s
  | some e =>
    if e.begun then .next s
    else if cqKind e.w = 4 && cqCount e.w ≠ 0 then
      let (targets, gone) := castTargets s e
      let idle := (upTo 16).filter fun i => !bit (cwLo e.w 5) i
      .next (s.modCopy e.id fun x =>
        { x with begun := targets = [], targets := targets, done := idle ++ gone
                 fails := gone.map castFail })
    else .next (s.modCopy e.id fun x => { x with begun := true })

/-- MULTICAST_CREDIT: every remaining target holds a credit and its lines have room; one credit of each is
taken and the lines are marked. A target that is no longer Resident fails (R226). -/
def execMulticastCredit (q : Nat) (s : State) : Host.Outcome State Fault Refusal :=
  match s.headEntry q with
  | none => .next s
  | some e =>
    let token := cwHi e.w 5
    let here := fun (x : Nat × Nat) =>
      residentAt s (s.block e.blk).launch (cw e.w 7 + x.1) (q / 64) = some x.2
    let live := e.targets.filter here
    let gone := (e.targets.filter fun x => !here x).map Prod.fst
    let credit := fun (x : Nat × Nat) => 0 < lgetD token (s.block x.2).credits 0
    let room := fun (x : Nat × Nat) => (cqLines e.w).all fun l => (s.line x.2 l).count < 15
    if e.begun || cqKind e.w ≠ 4 || e.targets = [] then .next s
    else
      let s := s.modCopy e.id fun x =>
        { x with targets := live, done := x.done ++ gone, fails := x.fails ++ gone.map castFail
                 begun := live = [] }
      if live = [] || !(live.all credit && live.all room) then .next s
      else
        let s := live.foldl (fun s x =>
          let s := s.modBlock x.2 fun b => { b with credits := lmod token 0 (· - 1) b.credits }
          (cqLines e.w).foldl (fun s l => s.markLine x.2 l) s) s
        .next (s.modCopy e.id fun x => { x with begun := true })

/-- Bytes that land at an SPM address of a block, with the barrier's byte count when BAR is set (R222). -/
def landBytes (s : State) (e : CqEntry) (x : Nat) (bs : List Byte) : State :=
  let s := s.spmWrite e.blk x bs
  if cqBar e.w then s.barrier e.blk (cqBarrier e.w) 0 (2 ^ 32 - bs.length) else s

/-- What the read of an element comes to. -/
inductive ReadRes
  | ok (s : State) (bs : List Byte)
  | fail (ti : TrapInfo)
  | wait

/-- The one read of element i of an entry of kinds 0 to 3 and 5 (R224, R225). -/
def readElement (s : State) (e : CqEntry) (i : Nat) : ReadRes :=
  let n := cqSize e.w
  let x := cw e.w 3 + n * i
  match cqGlobal e.w i with
  | none => .ok s (padElement e.w)
  | some va =>
    if cqOut e.w then
      if (s.emptyLine e.blk x n).isSome then .wait
      else if s.poisoned e.blk x n then .fail { cause := cPOISON, addr := x }
      else .ok s (s.spmRead e.blk x n)
    else match s.unitBytes (e.q / 4) (s.tableOf e.who.rcb) e.who.rcb va n e.olds (.copy e.q e.id) with
      | .error ti => .fail ti
      | .ok (s, bs) => .ok s bs

/-- An entry writes global memory. -/
def cqStores (w : List Word) : Bool := cqOut w || cqKind w = 5

/-- The global address that element i of an entry writes. -/
def cqTarget (w : List Word) (i : Nat) : Nat :=
  if cqKind w = 5 then (cqDest w + cqSize w * i) % 2 ^ 64 else (cqGlobal w i).getD 0

/-- Elements read in one step: the state, the bytes of those that could be read, and the elements that failed; none where
one must wait. -/
def readElements (e : CqEntry) : List Nat → State → Option (State × List (Nat × List Byte) × List (Nat × TrapInfo))
  | [], s => some (s, [], [])
  | i :: rest, s => match readElement s e i with
    | .wait => none
    | .fail ti => (readElements e rest s).map fun r => (r.1, r.2.1, (i, ti) :: r.2.2)
    | .ok s bs => (readElements e rest s).map fun r => (r.1, (i, bs) :: r.2.1, r.2.2)

/-- The runs of bytes that are there, from an address upward. -/
def byteRuns : Nat → List (Option Byte) → List (Nat × List Byte)
  | _, [] => []
  | a, none :: rest => byteRuns (a + 1) rest
  | a, some b :: rest => match byteRuns (a + 1) rest with
    | (a', bs) :: runs => if a' = a + 1 then (a, b :: bs) :: runs else (a, [b]) :: (a', bs) :: runs
    | [] => [(a, [b])]

/-- The bytes that elements of one word write there, as runs; of elements that write one byte the last counts. -/
def wordRuns (w : List Word) (data : List (Nat × List Byte)) : List (Nat × List Byte) :=
  match data with
  | [] => []
  | (i, bs) :: _ =>
    let lo := if bs.length < 4 then cqTarget w i / 4 * 4 else cqTarget w i
    let cell := fun k => (data.reverse.find? fun x =>
      cqTarget w x.1 ≤ lo + k && lo + k < cqTarget w x.1 + x.2.length).map fun x =>
        x.2.getD (lo + k - cqTarget w x.1) 0
    byteRuns lo ((upTo (Nat.max 4 bs.length)).map cell)

/-- Runs written to global memory for an entry: done, failed, or not possible yet. -/
def storeRuns (e : CqEntry) (data : List (Nat × List Byte)) : List (Nat × List Byte) → State → UnitRes
  | [], s => .ok s
  | (va, bs) :: rest, s =>
    let mine := data.filter fun x => cqTarget e.w x.1 < va + bs.length && va < cqTarget e.w x.1 + x.2.length
    let who := { e.who with job := some (e.id, mine.map fun x => (x.1, cqTarget e.w x.1)) }
    match s.unitStore e.q (s.tableOf e.who.rcb) va who bs with
    | .ok s => storeRuns e data rest s
    | r => r

/-- Elements performed in one step: the state and the elements that failed, none where one must wait. Elements of a
device-register page are written one by one (R90). -/
def copyElements (e : CqEntry) (is : List Nat) (s : State) : Option (State × List (Nat × TrapInfo)) :=
  match readElements e is s with
  | none => none
  | some (s, data, bad) =>
    if !cqStores e.w then
      some (data.foldl (fun s x => landBytes s e (cw e.w 3 + cqSize e.w * x.1) x.2) s, bad)
    else
      let dev := match s.walkNow (e.q / 64) (s.tableOf e.who.rcb) (cqTarget e.w (is.headD 0)) 1 true with
        | .ok (_, pa, _) => s.isDevice (e.q / 64) pa
        | .error _ => false
      let runs := if dev then data.map fun x => (cqTarget e.w x.1, x.2) else wordRuns e.w data
      match storeRuns e data runs s with
      | .ok s => some (s, bad)
      | .fail ti => some (s, bad ++ data.map fun x => (x.1, { ti with addr := cqTarget e.w x.1 }))
      | .wait _ => none

/-- The tile of a multicast, read once: SPM address and bytes of every element that can be read, and the elements that
failed (R226, R387). The fuel counts elements. -/
def readTile (e : CqEntry) : Nat → Nat → State → State × List (Nat × List Byte) × List (Nat × TrapInfo)
  | 0, _, s => (s, [], [])
  | k + 1, i, s =>
    let n := cqSize e.w
    match cqGlobal e.w i with
    | none => readTile e k (i + 1) s
    | some va => match s.unitBytes (e.q / 4) (s.tableOf e.who.rcb) e.who.rcb va n e.olds (.copy e.q e.id) with
      | .error ti =>
        let (s, ok, bad) := readTile e k (i + 1) s
        (s, ok, (i, ti) :: bad)
      | .ok (s, bs) =>
        let (s, ok, bad) := readTile e k (i + 1) s
        (s, (cw e.w 3 + n * i, bs) :: ok, bad)

/-- The word that element i of an entry writes, in SPM or in global memory; none for an element of whole words. -/
def smallWord (w : List Word) (i : Nat) : Option Nat :=
  let n := cqSize w
  if 4 ≤ n then none
  else if cqOut w then (cqGlobal w i).map (· / 4)
  else if cqKind w = 5 then some ((cqDest w + n * i) % 2 ^ 64 / 4)
  else some ((cw w 3 + n * i) / 4)

/-- The elements performed with element i: bytes and halfwords of one word are one write, so that no word holds bytes
of two entries' writes (R117). -/
def elementsWith (e : CqEntry) (i : Nat) : List Nat := match smallWord e.w i with
  | none => [i]
  | some wa => (upTo (cqCount e.w)).filter fun j => !e.done.contains j && smallWord e.w j = some wa

/-- An element of a copy entry lands or fails. The lines that the entry writes are set FULL at its completion, after
its records (R355; log entry 15). -/
def landCopy (s : State) (e : CqEntry) (i : Nat) : State :=
  if !e.begun || e.done.contains i || copyItems e.w ≤ i then s
  else if cqKind e.w = 4 then
    match lget i e.targets with
    | none => s
    | some blk =>
      let (s, data, bad) := match e.tile with
        | some r => (s, r)
        | none => readTile e (cqCount e.w) 0 s
      let s := data.foldl (fun s x => s.spmWrite blk x.1 x.2) s
      s.modCopy e.id fun x =>
        { x with done := i :: x.done, fails := x.fails ++ (bad.take 1).map (fun f => (i, f.2)), tile := some (data, bad) }
  else
    let is := elementsWith e i
    match copyElements e is s with
    | some (s, bad) => s.modCopy e.id fun x => { x with done := is.reverse ++ x.done, fails := x.fails ++ bad }
    | none => s

/-- An LDGS lands: its bytes and its line, or poison and its record first (R216, R220, R355). -/
def landLdgs (s : State) (x : Landing) : State :=
  let done := fun (s : State) bad =>
    { s.landLine x.blk (x.spm / 128) bad with lands := s.lands.filter fun y => y.id ≠ x.id }
  match s.unitAt (x.e / 4) x.rcb x.pa x.mt x.size with
  | (s, .ok bs) =>
    let (s, bs) := s.stale x.olds x.pa bs
    done (s.spmWrite x.blk x.spm bs) false
  | (s, .error f) =>
    let ti : TrapInfo := { cause := f.1, addr := x.va, aux := f.2 }
    let unit := if x.source = 2 then unitCluster (x.e / 4) (8 + 2 * (x.e % 4) + x.index) else unitEngine x.e
    let id : EntryId :=
      { d := x.e / 64, unit := unit, rcb := x.rcb, source := x.source, index := x.index, ent := x.ent }
    match s.complete id x.who [(x.first, ti)] with
    | .ok s => done s true
    | .error h => s.noteFull x.rcb h

/-- An LDGS is the oldest of its thread, or of its proofer, which are queues (R115, R220). -/
def landFirst (s : State) (x : Landing) : Bool :=
  let same := fun (y : Landing) => y.source = x.source && y.index = x.index && y.e = x.e
    && (x.source ≠ 1 || State.sameThread y.who x.who)
  (s.lands.find? same).map Landing.id = some x.id

/-- ELEMENT_LANDING: element i of copy entry k, or the LDGS k. -/
def execElementLanding (k i : Nat) (s : State) : Host.Outcome State Fault Refusal :=
  match s.copy? k, s.lands.find? fun x => x.id = k && x.source ≠ 9 with
  | some e, _ =>
    if (s.headEntry e.q).map CqEntry.id = some k && !s.poolFull (e.q / 64) then .next (landCopy s e i) else .next s
  | none, some x => .next (if landFirst s x then landLdgs s x else s)
  | none, none => .next s

/-- The lines that an entry has written, landed at its completion; those of failed elements take poison (R216, R387). -/
def landLines (s : State) (e : CqEntry) : State :=
  let bad := fun (fails : List (Nat × TrapInfo)) =>
    (fails.map fun f => (cw e.w 3 + cqSize e.w * f.1) / 128).eraseDups
  let land := fun (s : State) blk (lines : List Nat) =>
    (cqLines e.w).foldl (fun s l => s.landLine blk l (lines.contains l)) s
  if cqKind e.w = 4 then
    let lines := bad ((e.tile.map Prod.snd).getD [])
    e.targets.foldl (fun s x => land s x.2 lines) s
  else if cqMarks e.w then land s e.blk (bad e.fails)
  else s

/-- ENTRY_COMPLETION: every element of the head entry is done or failed, its uncached stores among them; its records are written, its lines
land, OUT falls and the entry leaves the queue (R227, R355). -/
def execEntryCompletion (q : Nat) (s : State) : Host.Outcome State Fault Refusal :=
  match s.headEntry q with
  | none => .next s
  | some e =>
    if !e.begun || e.done.length < copyItems e.w || s.unitStoring q then .next s
    else match s.complete (copyId e) e.who e.fails with
      | .error h => .next (s.noteFull e.who.rcb h)
      | .ok s =>
        let s := (landLines s e).popCq q
        let s := { s with copies := s.copies.filter fun x => x.id ≠ e.id }
        .next (s.modThread e.g e.t fun h => { h with out := h.out.modify (q % 4) (· - 1) })

/-- JOIN_MARKER: the markers of a QJOIN leave when each stands at the head of its queue (R228). -/
def execJoinMarker (m : Nat) (s : State) : Host.Outcome State Fault Refusal :=
  let has := fun (e : Nat × List CqItem) => e.2.any fun x => x = .marker m
  let heads := (s.queues.filter has).all fun e => e.2.head? = some (.marker m)
  if heads then
    .next { s with queues := s.queues.map fun e => if has e then (e.1, e.2.drop 1) else e }
  else .next s

end Sys2Proof.Machine
end

