-- ==== Sys2Proof/Machine/Tickets.lean ====
section
/-! DEFINITION. Tickets (R121, R122, R230 to R232, R382 to R385): ticketed loads, redemption and the ticket
tables of the slices. -/

namespace Sys2Proof.Machine

/-! ## LDT -/

/-- A release of the line whose GETO has not been sent (R104, R230). -/
def unsentRelease (s : State) (c line : Nat) : Bool := (s.l1 c).replay.any fun r =>
  r.rel && !r.sent && r.words.any fun wa => lineOf wa = line

/-- LDT leaves its issuer: to the slice, in order with the thread's other accesses where the page is uncached (R90), or
failed where the route is down. -/
def sendLdt (s : State) (t va pa mt size : Nat) (dst : List Nat) (mo : MemOrd) : State :=
  let g := s.iss.g
  let G := s.group g
  let d := G.kind.die
  let q := { s.request t va pa size dst with acquire := mo.ord = .acq, kind := 2 }
  let r : LdtReq := { g := g, t := t, id := q.id, pa := pa, va := va, size := size, rcb := G.rcb, mo := mo }
  let s := s.ask q
  let h := s.homeSlice d pa
  match s.accessFail d pa with
  | some u => s.post (chanDown G.kind.cluster h) d d
      (.ticket g t q.id 0 (some { cause := cLINK, addr := va, aux := u }))
  | none => s.post (if mt = 1 then chanPage g (pa / 4096) else chanUp G.kind.cluster h) d (s.homeDie d pa) (.ldt r)

/-- LDT. -/
def execLdt (mo : MemOrd) (d a : Field) (sz : TkSize) (s : State) : Host.Outcome State Fault Refusal :=
  runLanes (.ldt mo d a sz) (fun s0 s t =>
    let g := s.iss.g
    let G := s.group g
    let va := (s0.pair t a).toNat
    match misaligned va sz.bytes with
    | some ti => .trap ti
    | none => withPage (s.translate g t va 0 true) fun s pa mt =>
      match s.ticketLimit G.rcb with
      | some q => .trap { cause := cBUDGET, addr := State.physOf q, aux := 1 }
      | none =>
        if s.acquiring g t then .wait s .acquire
        else if s.earlierLoad g t pa sz.bytes || s.ldtOn g t pa sz.bytes then .wait s .loads
        else if mt = 0 && s.atomOn g t pa sz.bytes then .wait s .atomics
        else if unsentRelease s G.kind.cluster (lineOf pa) then
          .wait s (.grants G.kind.cluster (lineOf pa))
        else .ok (sendLdt s t va pa mt sz.bytes (s0.runNums g t d.toNat 1) mo)) s

/-- LDT_ARRIVAL: message n reaches its slice, which allocates an entry and reads the payload (R230); a line that
moves holds it (R97). One of an uncached page is performed when it arrives, in order with the other accesses to the
page (R90), which does not move (R95). -/
def execLdtArrival (n : Nat) (s : State) : Host.Outcome State Fault Refusal :=
  match s.take n with
  | some (m, s') => match m.body with
    | .ldt r =>
      let line := lineOf r.pa
      let slice := 64 * m.dst + sliceOf r.pa
      let c := chanCluster m.chan
      if m.chan % 4 = 2 then
        if s.lineFree r.pa r.size then match (s'.countAccess r.pa m.src r.rcb).allocTicket m.dst r with
          | (s', some r) => .next (s'.arrive line (.ldt r))
          | (s', none) => .next s'
        else .next s
      else if s.homeSlice m.src r.pa ≠ slice then
        .next (s'.post (chanDown c (chanSlice m.chan)) m.dst m.src (.retry line (.ldt r)))
      else
        let s' := s'.countAccess r.pa m.src r.rcb
        -- a line that moves holds the request (R97)
        if s.moving line then .next (s'.arrive line (.ldt r))
        else match s'.allocTicket m.dst r with
        | (s', some r) => .next (s'.arrive line (.ldt r))
        | (s', none) => .next s'
    | _ => .next s
  | none => .next s

/-- TICKET_RETURN: message n brings the ticket, or the failure, to the issuing thread (R230, R378). -/
def execTicketReturn (n : Nat) (s : State) : Host.Outcome State Fault Refusal :=
  match s.take n with
  | some (m, s') => match m.body with
    | .ticket _ _ id val fail => match s'.loads.find? fun q => q.id = id, fail with
      | none, _ => .next s'
      | some q, some ti => .next (s'.failReply q ti)
      | some q, none => .next (s'.finishLoad { q with size := 4 } (toBytes 4 val))
    | _ => .next s
  | none => .next s

/-! ## RDM, RDM.spm, TKDROP -/

/-- The ticket checks at the issuer: rows 1 and 2 of R383. -/
def ticketCheck (s : State) (k : Nat) : Option TrapInfo :=
  if k = 0 then some { cause := cTKSTALE }
  else if !s.together (s.group s.iss.g).kind.die (ticketDie k) then some { cause := cTKFOREIGN, aux := k }
  else none

/-- A request to a ticket's slice, or its failure where the route is down (R384). -/
def sendRedeem (s : State) (t id k : Nat) (spm : Option Nat) (drop : Bool) : State :=
  let g := s.iss.g
  let G := s.group g
  let d := G.kind.die
  let e := ticketDie k
  match s.routeFail d e with
  | some u =>
    if drop then s
    else s.post (chanDown G.kind.cluster (ticketSlice k)) d d
      (.payload g t id k [] spm (some { cause := cLINK, addr := 0, aux := u }))
  | none => s.post (chanUp G.kind.cluster (ticketSlice k)) d e (.redeem g t id k G.rcb spm drop)

/-- Registers from field d that a run may take: those of its window that the allocation holds (R155). -/
def redeemRun (s : State) (g t : Nat) (d : Field) : List Nat :=
  let room := if isK d then 128 - d.toNat
    else Nat.min (96 - d.toNat) ((s.group g).alloc - s.xnum g t d.toNat)
  s.runNums g t d.toNat (Nat.min 16 room)

/-- RDM: the registers of the largest payload stay pending until it arrives. -/
def execRdm (d a : Field) (s : State) : Host.Outcome State Fault Refusal :=
  runLanes (.rdm d a) (fun s0 s t =>
    let g := s.iss.g
    let k := (s0.reg t a).toNat
    match ticketCheck s k with
    | some ti => .trap ti
    | none =>
      let window := if isK d then 128 - d.toNat else 96 - d.toNat
      let q := { s.request t 0 window 0 (redeemRun s0 g t d) with kind := 3 }
      .ok (sendRedeem (s.ask q) t q.id k none false)) s

/-- RDM.spm: the line is marked, and the redemption's record has SOURCE 9 (R231, R354). -/
def execRdmSpm (d a : Field) (s : State) : Host.Outcome State Fault Refusal :=
  runLanes (.rdmSpm d a) (fun s0 s t =>
    let g := s.iss.g
    let G := s.group g
    let k := (s0.reg t a).toNat
    let x := (s0.reg t d).toNat
    match misaligned x 64 with
    | some ti => .trap ti
    | none => match s.spmBad g x 64 with
    | some ti => .trap ti
    | none => match ticketCheck s k with
    | some ti => .trap ti
    | none =>
      if !s.met g t (.count G.blk (x / 128)) then .wait s (.count G.blk (x / 128))
      else
        let (ent, s) := s.nextEnt g t 36
        let (id, s) := (s.markLine G.blk (x / 128)).fresh
        let l : Landing :=
          { id := id, e := G.kind.engine, blk := G.blk, spm := x, va := 0, size := 64, who := s.who t
            pa := 0, mt := 0, rcb := G.rcb, ent := ent, source := 9, index := 0, first := 0 }
        .ok (sendRedeem { s with lands := s.lands ++ [l] } t id k (some x) false)) s

/-- TKDROP: nothing is reported. -/
def execTkdrop (a : Field) (s : State) : Host.Outcome State Fault Refusal :=
  runLanes (.tkdrop a) (fun s0 s t =>
    let k := (s0.reg t a).toNat
    .ok (if (ticketCheck s k).isSome then s else sendRedeem s t 0 k none true)) s

/-- The decision of rows 3 to 8 of R383: the cause, or none for a held entry. A generation is never 0 (R121), so no
ticket names an entry that has none. -/
def ticketVerdict (s : State) (k rcb : Nat) : Option Nat :=
  let e := s.ticket (ticketSlot k)
  if e.dead || e.gen = 0 || e.gen ≠ ticketGen k then some cTKSTALE
  else if s.rootOf e.rcb ≠ s.rootOf rcb then some cTKFOREIGN
  else match e.tstate, e.end_ with
    | .held, _ => none
    | .claimed, _ => some cTKCONSUMED
    | .free, .aged | .free, .reclaimed => some cTKEXPIRED
    | .free, _ => some cTKCONSUMED

/-- REDEMPTION: message n reaches its slice (R383). A held entry is claimed, and its payload goes out once
it has been read: until then it waits in the entry, not on the channel, whose receiver always accepts (R101); where
the way back is down the entry ends as delivered (R384). -/
def execRedemption (n : Nat) (s : State) : Host.Outcome State Fault Refusal :=
  match s.take n with
  | some (m, s') => match m.body with
    | .redeem g t id k rcb spm drop =>
      let slot := ticketSlot k
      let kind := (s.group g).kind
      let send := fun (s : State) fail =>
        s.post (chanDown kind.cluster (ticketSlice k)) m.dst m.src (.payload g t id k [] spm fail)
      match drop, ticketVerdict s' k rcb with
      | true, none => .next (s'.freeTicket slot .dropped)
      | true, some _ => .next s'
      | false, some c => .next (send s' (some { cause := c, aux := k }))
      | false, none => match s'.routeFail m.dst m.src with
        | some u => .next (send (s'.freeTicket slot .delivered) (some { cause := cLINK, aux := u }))
        | none =>
          let c : Redeemer := { g := g, t := t, id := id, spm := spm, cluster := kind.cluster }
          let s' := s'.modTicket slot fun e => { e with tstate := .claimed }
          .next (if (s'.ticket slot).ready then s'.sendPayload slot c
            else s'.modTicket slot fun e => { e with claim := some c })
    | _ => .next s
  | none => .next s

/-! ## PAYLOAD_DELIVERY -/

/-- A redemption into registers ends: the payload, or the failure (R231, R384). -/
def deliverRegs (s : State) (q : LoadReq) (k : Nat) (fail : Option TrapInfo) : State :=
  let slot := ticketSlot k
  let e := s.ticket slot
  match fail with
  | some ti => s.failReply q ti
  | none =>
    let n := e.payload.length / 4
    if e.bad then
      (s.freeTicket slot .delivered).failReply q
        { cause := cECC, aux := unitDie (ticketDie k) (ticketSlice k % 64) }
    else if q.dst.length < n then
      (if e.dead then s else s.modTicket slot fun e => { e with tstate := .held }).failReply q
        { cause := if q.pa < n then cRESERVED else cREGOUT, aux := k }
    else
      let s := { s.freeTicket slot .delivered with loads := s.loads.filter fun x => x.id ≠ q.id }
      (s.clearPend q.g q.t q.dst).landDst q.g q.t q.skip (q.dst.take n) (wordsOf n e.payload)

/-- A redemption into SPM ends: the bytes and the line, or poison after its record (R216, R231, R384). -/
def deliverSpm (s : State) (l : Landing) (k : Nat) (fail : Option TrapInfo) : State.Told :=
  let slot := ticketSlot k
  let e := s.ticket slot
  let ecc : TrapInfo := { cause := cECC, aux := unitDie (ticketDie k) (ticketSlice k % 64) }
  let fail := if fail.isNone && e.bad then some ecc else fail
  let s' := if fail.isNone || fail = some ecc then s.freeTicket slot .delivered else s
  let done := fun (s : State) bad =>
    { s.landLine l.blk (l.spm / 128) bad with lands := s.lands.filter fun x => x.id ≠ l.id }
  match fail with
  | none => .ok (done (s'.spmWrite l.blk l.spm e.payload) false)
  | some ti =>
    let id : EntryId :=
      { d := l.e / 64, unit := unitEngine l.e, rcb := l.rcb, source := 9, index := 0, ent := l.ent }
    (s'.complete id l.who [(0, { ti with addr := l.spm })]).map fun s => done s true

/-- PAYLOAD_DELIVERY: message n brings the payload (R231). -/
def execPayloadDelivery (n : Nat) (s : State) : Host.Outcome State Fault Refusal :=
  match s.take n with
  | some (m, s') => match m.body with
    | .payload _ _ id k _ spm fail =>
      match spm with
      | none => match s'.loads.find? fun q => q.id = id with
        | some q => .next (deliverRegs s' q k fail)
        | none => .next (if fail.isNone then s'.freeTicket (ticketSlot k) .delivered else s')
      | some _ => match s'.lands.find? fun l => l.id = id with
        | some l => match deliverSpm s' l k fail with
          | .ok s'' => .next s''
          | .error h => .next ((State.setAside s s' m (chanWait 65 l.rcb)).noteFull l.rcb h)
        | none => .next (if fail.isNone then s'.freeTicket (ticketSlot k) .delivered else s')
    | _ => .next s
  | none => .next s

/-! ## The age sweep (R385) -/

/-- Held entries of a slice that have reached their age limit, by slot. -/
def agedOf (s : State) (slice : Nat) : List (Nat × Ticket) := s.tickets.filter fun k =>
  k.1 / 1024 = slice && k.2.tstate = .held && k.2.ready && k.2.limit ≠ 0
    && k.2.limit * 1024 ≤ s.cycle - k.2.born

/-- Lists of at most 12 tickets. -/
def dozens : Nat → List Nat → List (List Nat)
  | 0, _ => []
  | k + 1, l => if l = [] then [] else l.take 12 :: dozens k (l.drop 12)

/-- The KIND 4 records of one region's aged entries. -/
def agedRecords (slice rcb : Nat) (tks : List Nat) : List (RecHead × List Byte) :=
  let parts := dozens (tks.length + 1) tks
  (upTo parts.length).map fun i =>
    let p := parts.getD i []
    ({ kind := 4, cause := cTKEXPIRED, flags := if i + 1 < parts.length then 4 else 0
       unit := unitDie (slice / 64) (slice % 64), addr := State.physOf rcb, aux := p.length },
      toBytes 4 p.length ++ toBytes 1 1 ++ toBytes 3 0 ++ (p.map (toBytes 4)).flatten)

/-- The aged entries of one region freed and reported; its records wait where its trap area has no room (R351). -/
def sweepRegion (slice : Nat) (s : State) (rcb : Nat) : State :=
  let mine := (agedOf s slice).filter fun k => k.2.rcb = rcb
  let tks := mine.map fun k => ticketOf k.1 k.2.gen
  (agedRecords slice rcb tks).foldl (fun s x => s.leaveRecord (slice / 64) rcb x.1 x.2)
    (mine.foldl (fun s k => s.freeTicket k.1 .aged) s)

/-- AGE_SWEEP of a slice, every 1,024 clocks. -/
def execAgeSweep (slice : Nat) (s : State) : Host.Outcome State Fault Refusal :=
  if s.cycle % 1024 ≠ 0 then .next s
  else .next (((agedOf s slice).map fun k => k.2.rcb).eraseDups.foldl (sweepRegion slice) s)

end Sys2Proof.Machine
end

