-- ==== Sys2Proof/Machine/Home.lean ====
section
/-! DEFINITION. The home's part of the protocol (R97 to R106, R123, R389, R390): requests, acknowledgements,
write-backs, atomics and directory evictions. -/

namespace Sys2Proof.Machine
namespace State

/-- A request from cluster c that arrives on channel k: served in its turn, or sent back with RETRY when its line
has moved to another home (R97, R101). -/
def requestHome (s : State) (k line rcb : Nat) (req : HomeReq) : State :=
  let c := chanCluster k
  let d := c / 16
  let h := chanSlice k
  if s.homeSlice d line ≠ h then s.post (chanDown c h) (h / 64) d (.retry line req)
  else (s.countAccess line d rcb).arrive line req

/-- The region for which an atomic is performed. -/
def atomRegion (s : State) (r : AtomReq) : Nat := match r.sink with
  | .thread g _ _ => (s.group g).rcb
  | .record w _ _ _ _ => w.rcb
  | .outside => 0

/-- The words that a line's transaction awaits from a cluster. -/
def awaited (s : State) (line c : Nat) : List Nat := match s.txOf line with
  | some x => (x.recalls.filter fun p => p.1 = c).map Prod.snd
  | none => []

/-- Words that a cluster has lost: each takes a poison mark and has no owner any more (R390). -/
def loseWords (s : State) (ws : List Nat) : State :=
  ws.foldl (fun (s : State) wa => { s.poisonHome wa with owners := ldel wa s.owners }) s

/-- A home finds that a cluster cannot answer for words of its lines: every word that the cluster owns there is lost, the
cluster shares none of its lines, and no transaction there waits for its words (R390). -/
def forgetOwner (s : State) (c h : Nat) : State :=
  let mine := (s.owners.filter fun o => o.2.cluster = c && 64 * s.dieOfLine (lineOf o.1) + sliceOf o.1 = h).map Prod.fst
  let here := fun (line : Nat) => 64 * s.dieOfLine line + sliceOf line = h
  let s := s.loseWords mine
  let s : State := { s with
    sharers := s.sharers.map fun e => if here e.1 then (e.1, e.2.filter (· ≠ c)) else e
    txs := s.txs.map fun x => if here x.line then { x with recalls := x.recalls.filter fun p => p.1 ≠ c } else x }
  ((s.txs.map Tx.line).filter here).foldl (fun s line => s.resumeTx line) s

/-- A word written back to its home: its value and its mark. -/
def takeWord (s : State) (v : WordVal) : State :=
  { s with
    mem := writeBytes s.mem v.word (toBytes 4 v.val.toNat)
    marks := if v.poison then (s.poisonHome v.word).marks else s.marks.filter (· ≠ v.word)
    owners := ldel v.word s.owners }

/-- The owner of a word is cluster c. -/
def ownedBy (s : State) (c wa : Nat) : Bool := match lget wa s.owners with
  | some o => o.cluster = c
  | none => false

end State

/-- GETS: message n asks for clean words (R103). -/
def execGets (n : Nat) (s : State) : Host.Outcome State Fault Refusal := match s.take n with
  | some (m, s') => match m.body with
    | .gets line ws rcb => .next (s'.requestHome m.chan line rcb (.gets (chanCluster m.chan) ws))
    | _ => .next s
  | none => .next s

/-- GETO: message n asks for ownership (R102, R104). -/
def execGeto (n : Nat) (s : State) : Host.Outcome State Fault Refusal := match s.take n with
  | some (m, s') => match m.body with
    | .geto line ws rel rcb => .next (s'.requestHome m.chan line rcb (.geto (chanCluster m.chan) ws rel))
    | _ => .next s
  | none => .next s

/-- IACK: message n acknowledges an INV, or says that words a RECALL named are lost, after which the home takes
all that the cluster owns there as lost (R389, R390). -/
def execIack (n : Nat) (s : State) : Host.Outcome State Fault Refusal := match s.take n with
  | some (m, s') => match m.body with
    | .iack line ws lost =>
      let c := chanCluster m.chan
      if lost then
        .next (if (s'.awaited line c).any fun wa => ws.contains wa then s'.forgetOwner c (chanSlice m.chan) else s')
      else .next (s'.answered line c true [])
    | _ => .next s
  | none => .next s

/-- WB: message n brings words home; WBACK answers it (R105, R106). A cluster that keeps clean copies shares the
line. -/
def execWb (n : Nat) (s : State) : Host.Outcome State Fault Refusal := match s.take n with
  | some (m, s') => match m.body with
    | .wb line vals =>
      let c := chanCluster m.chan
      let ws := vals.map WordVal.word
      let asked := (s'.awaited line c).any fun wa => ws.contains wa
      let keeps := match s'.txOf line with
        | some x => asked && (State.needs line x.req).2.2.1
        | none => false
      let s' := vals.foldl (fun s v => if s.ownedBy c v.word then s.takeWord v else s) s'
      let s' := if keeps then s'.addSharer line c else s'
      let s' := s'.post (chanDown c (chanSlice m.chan)) m.dst m.src (.wback line ws)
      .next (s'.answered line c false ws)
    | _ => .next s
  | none => .next s

/-- ATOM_MESSAGE: message n asks for the atomics of one line (R123). Those of an uncached page come on the page's
channel, in order with the other accesses to it, and are performed when they arrive (R90). -/
def execAtomMessage (n : Nat) (s : State) : Host.Outcome State Fault Refusal := match s.take n with
  | some (m, s') => match m.body with
    | .atom rs => match rs with
      | [] => .next s'
      | r :: _ =>
        if m.chan % 4 = 0 then .next (s'.requestHome m.chan (lineOf r.pa) (s.atomRegion r) (.atom rs))
        else if s.lineFree r.pa 1 then
          .next (rs.foldl (fun s r => s.performAtom m.dst r) (s'.countAccess r.pa m.src (s.atomRegion r)))
        else .next s
    | _ => .next s
  | none => .next s

/-- The directory holds an entry for a line. -/
def hasEntry (s : State) (line : Nat) : Bool :=
  s.sharersOf line ≠ [] || (State.lineWords line).any fun wa => (lget wa s.owners).isSome

/-- DIRECTORY_EVICTION: every owned word is recalled and every sharer invalidated (R106). -/
def execDirectoryEviction (line : Nat) (s : State) : Host.Outcome State Fault Refusal :=
  if hasEntry s line && line % 128 = 0 && (s.txOf line).isNone then .next (s.arrive line .evict) else .next s

end Sys2Proof.Machine
end

