-- ==== Sys2Proof/Machine/Caches.lean ====
section
/-! DEFINITION. The cluster L1's part of the protocol (R97, R102 to R108, R379, R380, R389): fills, grants,
invalidations, recalls, results of atomics, RETRY, failed stores and evictions. -/

namespace Sys2Proof.Machine
namespace State

/-! ## Fills -/

/-- A word with a value from its home filled in around the bytes stored locally (R99, R102). -/
def fillWord (v : WordVal) (w : L1Word) : L1Word :=
  if w.owned then w
  else { w with val := mergeBytes (~~~w.dirty) v.val w.val, valid := 15#4
                poison := v.poison && w.dirty ≠ 15#4 }

/-- Values that reach a cluster's L1. -/
def fillWords (s : State) (c : Nat) (vals : List WordVal) : State := s.modL1 c fun l =>
  { l with words := vals.foldl (fun ws v => lput v.word (fillWord v (lgetD v.word ws {})) ws) l.words }

/-- The clean words of a line dropped from a cluster's L1, without a message (R106). -/
def dropClean (s : State) (c line : Nat) : State := s.modL1 c fun l =>
  { l with words := l.words.filter fun e => lineOf e.1 ≠ line || e.2.dirty ≠ 0#4 || e.2.leaving }

/-- Cached loads of a cluster that wait for their values. -/
def cachedLoads (s : State) (c : Nat) : List LoadReq := s.loads.filter fun q =>
  q.kind = 0 && (s.group q.g).kind.cluster = c && !s.isUncached q.id

/-- Cached loads of a cluster that wait for a line. -/
def lineLoads (s : State) (c line : Nat) : List LoadReq := (s.cachedLoads c).filter fun q => lineOf q.pa = line

/-- The region of a load that waits for a line. -/
def lineRegion (s : State) (c line : Nat) : Nat := match s.lineLoads c line with
  | q :: _ => (s.group q.g).rcb
  | [] => 0

/-- A request of cluster c is a GETS. -/
def isGets (c : Nat) : HomeReq → Bool
  | .gets k _ => k = c
  | _ => false

/-- A GETS of a cluster for a line, or its answer, is on its way or waits at home. -/
def getsPending (s : State) (c line : Nat) : Bool :=
  (s.flight.any fun m => chanCluster m.chan = c && match m.body with
    | .gets l _ _ | .data l _ | .loadFail l _ _ _ => l = line
    | .retry l r => l = line && isGets c r
    | _ => false)
  || match s.txOf line with
    | some x => isGets c x.req || x.queue.any (isGets c)
    | none => false

/-- A load takes its value from the L1 (R103, R359). -/
def takeLoad (s : State) (c : Nat) (q : LoadReq) : State :=
  if s.l1Marked c q.pa q.size then
    s.failReply q { cause := cECC, addr := q.va
                    aux := unitDie (s.homeDie (c / 16) q.pa) (sliceOf q.pa) }
  else (s.fillL0 q.g q.pa q.size).finishLoad q (s.l1Bytes c q.pa q.size)

/-- A load that its port sent to the same bank before a load still waits for its value (R23). -/
def outOfTurn (s : State) (q : LoadReq) : Bool :=
  let k := (s.group q.g).kind
  (s.loads.takeWhile fun x => x.id ≠ q.id).any fun x => s.sameBank k.port q.pa x && !s.isUncached x.id

/-- The loads that wait for their values, each when it is its turn at its bank: those whose words are there take them,
and the words of the others are asked for unless an answer is still to come. -/
def serveLoads (s : State) (c : Nat) : State :=
  (s.cachedLoads c).foldl (fun (s : State) q =>
    if s.outOfTurn q then s
    else if s.l1Has c q.pa q.size then s.takeLoad c q
    else if s.getsPending c (lineOf q.pa) then s
    else s.sendGets c q.pa q.size (s.group q.g).rcb) s

/-- The loads that wait for words of a line fail (R378, R387). -/
def failLoads (s : State) (c line cause aux : Nat) : State :=
  ((s.lineLoads c line).foldl (fun (s : State) q =>
    if s.l1Has c q.pa q.size then s.takeLoad c q
    else s.failReply q { cause := cause, addr := q.va, aux := aux }) s).serveLoads c

/-- DATA at a cluster's L1 (R103): a full L1 serves the loads that wait and does not keep the line (R21). -/
def takeData (s : State) (c line : Nat) (vals : List WordVal) : State :=
  let r := s.l1Room c line
  let s := (r.1.fillWords c vals).serveLoads c
  if r.2.isSome then s.dropClean c line else s

/-! ## Grants -/

/-- A word becomes owned (R99, R102); what the L1 wrote stays. -/
def grantWord (v : WordVal) (w : L1Word) : L1Word :=
  if w.owned then w else { fillWord v w with dirty := 15#4, owned := true }

/-- The replay queue after a grant: a release's own entry leaves it, and the words leave the entries of other
stores. -/
def grantEntries (rel : Bool) (ws : List Nat) (l : List Replay) : List Replay :=
  if rel then
    match l.find? fun r => r.rel && r.sent && r.words.any fun wa => ws.contains wa with
    | some r => strike (l.erase r)
    | none => strike l
  else strike l
where
  /-- The words leave the entries of ordinary stores; entries without words leave the queue. -/
  strike (l : List Replay) : List Replay :=
    (l.map fun r => if r.rel then r else { r with words := r.words.filter fun wa => !ws.contains wa }).filter
      fun r => r.words ≠ []

/-- Ownership of words reaches a cluster's L1. -/
def takeGrant (s : State) (c : Nat) (ws : List Nat) (vals : List WordVal) (rel : Bool) : State :=
  let own := fun (l : List (Nat × L1Word)) (v : WordVal) =>
    lput v.word (grantWord v (lgetD v.word l {})) l
  let asked := fun (l : List Nat) => ws.foldl (fun l wa => l.erase wa) l
  (s.modL1 c fun l => { l with words := vals.foldl own l.words, asked := asked l.asked
                               replay := grantEntries rel ws l.replay }).l1Advance c

/-! ## Invalidations and recalls -/

/-- A word after an INV (R108): what was written locally stays. -/
def invWord (w : L1Word) : L1Word :=
  if w.owned || w.leaving then w else { w with valid := w.valid &&& w.dirty, poison := false }

/-- Words invalidated in a cluster's L1 and its L0s. -/
def invWords (s : State) (c : Nat) (ws : List Nat) : State :=
  (s.modL1 c fun l =>
    let ks := l.words.map fun e => if ws.contains e.1 then (e.1, invWord e.2) else e
    { l with words := ks.filter fun e => !ws.contains e.1 || e.2.valid ≠ 0#4 }).dropL0 c ws

/-- An answer from a cluster to the home slice of a channel; none where the route is down. -/
def answerHome (s : State) (m : Msg) (b : Body) : State :=
  let c := chanCluster m.chan
  match s.routeFail m.dst m.src with
  | some _ => s
  | none => s.post (chanUp c (chanSlice m.chan)) m.dst m.src b

/-- Ordinary owned words that a RECALL names: written back, and kept clean or dropped (R103). -/
def giveWords (s : State) (m : Msg) (line : Nat) (ws : List Nat) (keep : Bool) : State :=
  let c := chanCluster m.chan
  if ws = [] then s
  else
    let value := fun wa =>
      let w := s.l1Word c wa
      ({ word := wa, val := w.val, poison := w.poison } : WordVal)
    let clean := fun (e : Nat × L1Word) =>
      if ws.contains e.1 then (e.1, { e.2 with owned := false, dirty := 0#4 }) else e
    let vals := ws.map value
    let s := s.modL1 c fun l =>
      { l with words := if keep then l.words.map clean else l.words.filter fun e => !ws.contains e.1 }
    (if keep then s else s.dropL0 c ws).answerHome m (.wb line vals)

/-- A RECALL at the L1 (R103, R105, R389): ordinary owned words go at once, release words by hand-over; words on
their way home need no answer, and absent ones are lost. -/
def takeRecall (s : State) (m : Msg) (line : Nat) (ws : List Nat) (keep : Bool) : State :=
  let c := chanCluster m.chan
  let here := ws.filter fun wa => !(s.l1Word c wa).leaving
  let owned := here.filter fun wa => (s.l1Word c wa).owned
  let lost := here.filter fun wa => !(s.l1Word c wa).owned
  let rels := owned.filter fun wa => (s.l1Word c wa).rel.isSome
  let plain := owned.filter fun wa => (s.l1Word c wa).rel.isNone
  let s := s.giveWords m line plain keep
  let s := rels.foldl (fun s wa => s.startHand c wa keep) s
  let s := if lost = [] then s else s.answerHome m (.iack line lost true)
  s.l1Advance c

/-- WBACK at the L1 (R106): words that left are dropped; those kept clean stay. -/
def takeWback (s : State) (c : Nat) (ws : List Nat) : State :=
  let gone := ws.filter fun wa => (s.l1Word c wa).leaving && (s.l1Word c wa).owned
  let stay := fun (e : Nat × L1Word) => if ws.contains e.1 then (e.1, { e.2 with leaving := false }) else e
  let s := s.modL1 c fun l => { l with words := (l.words.filter fun e => !gone.contains e.1).map stay }
  (s.dropL0 c gone).l1Advance c

end State

/-- DATA: message n fills words, or brings the failure of a load (R103, R108, R387). -/
def execData (n : Nat) (s : State) : Host.Outcome State Fault Refusal := match s.take n with
  | some (m, s') => match m.body with
    | .data line vals => .next (s'.takeData (chanCluster m.chan) line vals)
    | .loadFail line _ cause aux => .next (s'.failLoads (chanCluster m.chan) line cause aux)
    | _ => .next s
  | none => .next s

/-- GRANT: message n makes words owned (R102). -/
def execGrant (n : Nat) (s : State) : Host.Outcome State Fault Refusal := match s.take n with
  | some (m, s') => match m.body with
    | .grant _ ws vals rel => .next (s'.takeGrant (chanCluster m.chan) ws vals rel)
    | _ => .next s
  | none => .next s

/-- INV: message n invalidates words; IACK answers at once (R108). -/
def execInv (n : Nat) (s : State) : Host.Outcome State Fault Refusal := match s.take n with
  | some (m, s') => match m.body with
    | .inv line ws => .next ((s'.invWords (chanCluster m.chan) ws).answerHome m (.iack line ws false))
    | _ => .next s
  | none => .next s

/-- RECALL: message n asks for words (R103, R105). -/
def execRecallMsg (n : Nat) (s : State) : Host.Outcome State Fault Refusal := match s.take n with
  | some (m, s') => match m.body with
    | .recallMsg line ws keep _ => .next (s'.takeRecall m line ws keep)
    | _ => .next s
  | none => .next s

/-- WBACK: message n ends a write-back (R106). -/
def execWback (n : Nat) (s : State) : Host.Outcome State Fault Refusal := match s.take n with
  | some (m, s') => match m.body with
    | .wback _ ws => .next (s'.takeWback (chanCluster m.chan) ws)
    | _ => .next s
  | none => .next s

/-! ## RETRY -/

/-- RETRY: message n sends a request again, to the line's new home (R97). -/
def execRetry (n : Nat) (s : State) : Host.Outcome State Fault Refusal := match s.take n with
  | some (m, s') => match m.body with
    | .retry line req =>
      let c := chanCluster m.chan
      .next (match req with
        | .gets _ ws => s'.toHome c line (.gets line ws (s.lineRegion c line)) fun u => .loadFail line ws cLINK u
        | .geto _ ws rel =>
          let who := (((s.l1 c).replay.find? fun r => r.words.any fun wa => ws.contains wa).map Replay.who).getD {}
          s'.toHome c line (.geto line ws rel who.rcb) fun _ => .storeFail line ws cLINK none
        | .atom (r :: rs) => s'.sendAtoms m.chan c 0 (r :: rs)
        | .ldt r => s'.toHome c line (.ldt r) fun u =>
            .ticket r.g r.t r.id 0 (some { cause := cLINK, addr := r.va, aux := u })
        | _ => s')
    | _ => .next s
  | none => .next s

/-! ## Results of atomics -/

/-- The result of an atomic, or of a JOIN, reaches its thread (R123, R200, R233). -/
def takeAtom (s : State) (q : LoadReq) (r : AtomReq) (old : Nat) : State :=
  let s := { s with loads := s.loads.filter fun x => x.id ≠ q.id }
  if q.join then
    if old = 1 then s.modThread q.g q.t fun h => { h with pc := h.pc + 4, wait := none }
    else s.endThread q.g q.t
  else
    let vs := if r.width = 8 then [BitVec.ofNat 32 old, BitVec.ofNat 32 (old / 2 ^ 32)] else [BitVec.ofNat 32 old]
    let s := (s.clearPend q.g q.t q.dst).landDst q.g q.t q.skip q.dst vs
    if q.cas then
      s.modThread q.g q.t fun h => { h with c := h.c.set 0 (old = r.e), pendC := h.pendC.erase 0 }
    else s

/-- The failed items of an entry, whose results are on their way. -/
def entryFails (s : State) (sink : ReplyTo) : List (Nat × TrapInfo) := s.flight.filterMap fun m => match m.body with
  | .atomr r _ (some ti) => match r.sink with
    | .record _ _ _ _ item => if State.sameEntry sink r.sink then some (item, ti) else none
    | _ => none
  | _ => none

namespace State

/-- Items that an entry or command counts as failed with others: an item fails once. -/
def addFails (old new : List (Nat × TrapInfo)) : List (Nat × TrapInfo) :=
  old ++ new.filter fun f => old.all fun o => o.1 ≠ f.1

/-- Items of command n of engine e's matrix sequencer fail after they were performed (R273, R353). -/
def failSeqItems (s : State) (e n : Nat) (fails : List (Nat × TrapInfo)) : State := s.modEngine e fun E =>
  { E with queue := E.queue.map fun c => if c.number = n then { c with fails := addFails c.fails fails } else c }

end State

/-- The failure of a RED or AMDRAIN.add without reply, which message m brings: reported with SOURCE 10 once every item of
the entry is done (R353, R354); of a sequencer's drain, whose INDEX here is 2 and its engine, the failure of the
command's item (R273; log entry 126). -/
def reportAtoms (s s' : State) (m : Msg) (r : AtomReq) (ti : TrapInfo) : State := match r.sink with
  | .record w unit ent index item =>
    if 2 ≤ index then s'.failSeqItems (index - 2) ent [(item, ti)]
    else
      let s := State.setAside s s' m (chanWait 64 w.rcb)
      if s.entryBusy r.sink then s
      else
        let id : EntryId := { d := unit / 16384, unit := unit, rcb := w.rcb, source := 10, index := index, ent := ent }
        s.orFull w.rcb ((s.complete id w (entryFails s r.sink)).map fun s =>
          { s with flight := s.flight.filter fun m => !State.isFailOf r.sink m })
  | _ => s'

/-- ATOMR: message n brings the result of an atomic (R123, R378, R388). -/
def execAtomr (n : Nat) (s : State) : Host.Outcome State Fault Refusal := match s.take n with
  | some (m, s') => match m.body with
    | .atomr r old fail => match r.sink with
      | .thread _ _ id => match s'.loads.find? fun q => q.id = id, fail with
        | none, _ => .next s'
        | some q, some ti => .next (s'.failReply q ti)
        | some q, none => .next (takeAtom s' q r old)
      | .record .. => .next (match fail with
        | some ti => reportAtoms s s' m r ti
        | none => s')
      | .outside => .next s'
    | _ => .next s
  | none => .next s

/-! ## Failed stores (R379, R380) -/

/-- The failed words of a line that an owner wrote, as items of its record: word index and physical address. -/
def lostItems (line : Nat) (ws : List Nat) (cause : Nat) : List (Nat × TrapInfo) := ws.map fun wa =>
  ((wa - line) / 4, { cause := cause, addr := wa })

/-- The record of failed words of a line (R379). -/
def lostRecord (c line cause : Nat) (x : Owner × List Nat) : List (RecHead × List Byte) :=
  let id : EntryId := { d := c / 16, unit := unitCluster c 19, rcb := x.1.rcb, source := 11, index := 0, ent := 0 }
  completionRecords id x.1 (lostItems line x.2 cause)

/-- Entries of the replay queue whose GETO for words has been sent, with the failed words of each. -/
def lostEntries (s : State) (c : Nat) (ws : List Nat) : List (Owner × List Nat) :=
  let hit := (s.l1 c).replay.filterMap fun r =>
    let mine := r.words.filter fun wa => ws.contains wa
    if mine = [] || (r.rel && !r.sent) then none else some (r.who, mine)
  (hit.map Prod.fst).eraseDups.map fun w =>
    (w, ((hit.filter fun x => x.1 = w).map Prod.snd).flatten.eraseDups)

/-- The pending words and their entries leave the L1; a word that a later release waits to own stays. A GETO that
has not failed itself will still be granted. -/
def dropStores (s : State) (c cause : Nat) (ws : List Nat) : State :=
  let later := (((s.l1 c).replay.filter fun r => r.rel && !r.sent).map Replay.words).flatten
  let gone := ws.filter fun wa =>
    !(s.l1Word c wa).owned && !(s.l1Word c wa).leaving && !later.contains wa
  let strike := fun (r : Replay) =>
    if r.rel && !r.sent then r else { r with words := r.words.filter fun wa => !ws.contains wa }
  ((s.modL1 c fun l =>
    { l with words := l.words.filter fun e => !gone.contains e.1
             replay := (l.replay.map strike).filter fun r => r.words ≠ []
             asked := if cause = cLINK then l.asked.filter fun wa => !ws.contains wa else l.asked }).dropL0 c ws).l1Advance c

/-- Records of several owners, all or none: the region and records of one that finds no room. -/
def reportLost (d : Nat) : State → List (Nat × List (RecHead × List Byte)) → Except (Nat × State.Records) State
  | s, [] => .ok s
  | s, (rcb, l) :: rest => match s.reportAll d rcb l with
    | .ok s => reportLost d s rest
    | .error h => .error (rcb, h)

/-- A failed store dropped and reported. -/
def failStores (s : State) (c line cause : Nat) (ws : List Nat) : Except (Nat × State.Records) State :=
  let rs := (lostEntries s c ws).map fun x => (x.1.rcb, lostRecord c line cause x)
  (reportLost (c / 16) s rs).map fun s => dropStores s c cause ws

/-- The cluster of the agent whose stores' failures come on channel k. -/
def storeCluster (s : State) (k : Nat) : Nat :=
  if isWait k then k / 4 % 128
  else if k % 4 = 2 then (s.group (k / 4 / 2 ^ 40)).kind.cluster
  else if k % 4 = 1 then chanCluster k
  else storeUnitCluster (unitOfChan k)

/-- Elements of a copy entry, or items of a sequencer command, whose uncached store has failed: they fail with the entry
(R353, R354). -/
def failJob (s : State) (u cause : Nat) (job : Nat × List (Nat × Nat)) : State :=
  let fails := job.2.map fun x =>
    let ti : TrapInfo := { cause := cause, addr := x.2 }
    (x.1, ti)
  if u < 256 then s.modCopy job.1 fun e => { e with fails := State.addFails e.fails fails }
  else s.failSeqItems (u - 256) job.1 fails

/-- STORE_FAILURE: message n brings back a failed GETO, or an uncached store that failed. While a trap area has no room
the failure waits aside. -/
def execStoreFailure (n : Nat) (s : State) : Host.Outcome State Fault Refusal := match s.take n with
  | some (m, s') => match m.body with
    | .storeFail line ws cause who =>
      let c := storeCluster s m.chan
      let aside := fun rcb x => (State.setAside s s' m (chanWait c rcb)).noteFull rcb x
      .next (match who with
        | none => match failStores s' c line cause ws with
          | .ok s' => s'
          | .error x => aside x.1 x.2
        | some w => match w.job with
          | some job => failJob s' (unitOfChan m.chan) cause job
          | none => match s'.reportAll m.src w.rcb (lostRecord c (lineOf line) cause (w, ws)) with
            | .ok s' => s'
            | .error x => aside w.rcb x)
    | _ => .next s
  | none => .next s

/-- L1_EVICTION: a cluster's L1 gives up a line (R106). -/
def execL1Eviction (c line : Nat) (s : State) : Host.Outcome State Fault Refusal :=
  .next (if c < 64 then s.evictL1 c line else s)

end Sys2Proof.Machine
end

