-- ==== Sys2Proof/WellFormed.lean ====
section
/-! DEFINITION. When an instruction is well formed: its row has words, and no field of them would be
reserved (R155, R156, R174). -/

namespace Sys2Proof

/-- The instruction has words and none of their fields is reserved. -/
def Instr.wf (i : Instr) : Bool := Machine.isLpi i && Machine.fieldsOk i

/-- The proposition behind `Instr.wf`. -/
abbrev Instr.WellFormed (i : Instr) : Prop := i.wf = true

end Sys2Proof
end

