-- ==== Sys2Proof/Decode.lean ====
section
/-! DEFINITION. The decoder and the encoder (R149 to R173, R391). A sequence of words is read up to
the word that completes it or makes it illegal (R391, R392); a complete sequence is an instruction,
an instruction with a reserved field, or no instruction at all. -/

namespace Sys2Proof

/-- What a sequence of words is. -/
inductive DecodeResult
  /-- A legal instruction, and the words after it. -/
  | instr (i : Instr) (rest : List Word)
  /-- The words of an assigned instruction with a reserved field set (RESERVED_FIELD, R174 step 3);
  i has the same row, and its fields mean nothing. -/
  | reserved (i : Instr) (rest : List Word)
  /-- No instruction (ILLEGAL_OP, R174 step 1); `n` words were read (R391). -/
  | illegal (n : Nat)
  /-- The sequence goes on after the given words: a prefix, and no instruction word yet. -/
  | truncated
deriving DecidableEq, Repr

/-- The fields of a kind 0 prefix (R157). -/
structure Prefix0 where
  e : Nat := 0
  f : Nat := 0
  slot : Nat := 0
  scope : Nat := 0
  ord : Nat := 0
  ty : Nat := 0
deriving DecidableEq, Repr

/-- The prefixes read before an instruction word: a kind 0 prefix, and IMMX of a kind 1 prefix. -/
structure Prefixes where
  p0 : Option Prefix0 := none
  x : Option Nat := none
deriving DecidableEq, Repr

/-- Major opcode, bits 31:26 (R149). -/
def wOp (w : Word) : Nat := w.toNat / 2 ^ 26
/-- Bits 25:19, the D field (R150). -/
def wD (w : Word) : Nat := w.toNat / 2 ^ 19 % 128
/-- Bits 18:12, the A field (R150). -/
def wA (w : Word) : Nat := w.toNat / 2 ^ 12 % 128
/-- Bits 11:5, the B field (R150). -/
def wB (w : Word) : Nat := w.toNat / 2 ^ 5 % 128
/-- Bits 4:0, the fn field (R150). -/
def wFn (w : Word) : Nat := w.toNat % 32

/-- The kind 0 prefix of a word of major 0x3E whose bit 25 is clear (R157). -/
def prefix0 (w : Word) : Prefix0 :=
  { e := w.toNat / 2 ^ 18 % 128, f := w.toNat / 2 ^ 11 % 128, slot := w.toNat / 2 ^ 8 % 8
    scope := w.toNat / 2 ^ 5 % 8, ord := w.toNat / 2 ^ 3 % 4, ty := w.toNat % 8 }

/-- Bit 25 of a prefix word: its kind (R157). -/
def prefixKind (w : Word) : Nat := w.toNat / 2 ^ 25 % 2

/-- IMMX of a kind 1 prefix (R157). -/
def prefixImm (w : Word) : Nat := w.toNat % 2 ^ 25

/-- The register field of a number. -/
def fieldOf (n : Nat) : Field := BitVec.ofNat 7 n

/-- TY (R157). -/
def tyOf : Nat → Ty
  | 0 => .s32 | 1 => .n32 | 2 => .s64 | 3 => .n64 | 4 => .s16 | 5 => .n16 | 6 => .s8 | _ => .n8

/-- ORD (R157). -/
def ordOf : Nat → Ord
  | 0 => .rlx | 1 => .acq | 2 => .rel | _ => .ar

/-- SCOPE; 7 is reserved (R157). -/
def scopeOf : Nat → Scope
  | 1 => .grp | 2 => .blk | 3 => .clu | 4 => .die | 5 => .dev | 6 => .sys | _ => .dflt

/-- Condition of CMP and CMPI; 6 and above are reserved (R171). -/
def condOf : Nat → Option Cond
  | 0 => some .eq | 1 => some .ne | 2 => some .lt | 3 => some .le | 4 => some .gt | 5 => some .ge
  | _ => none

/-- Condition of FCMP; 8 and above are reserved (R171). -/
def fcondOf : Nat → Option FCond
  | 0 => some .eq | 1 => some .ne | 2 => some .lt | 3 => some .le | 4 => some .gt | 5 => some .ge
  | 6 => some .un | 7 => some .or | _ => none

/-- Rounding mode of FROUND and F2I (R170). -/
def rmodeOf : Nat → RMode
  | 0 => .rn | 1 => .rz | 2 => .rd | _ => .ru

/-- The sz field (R153). -/
def sizeOf : Nat → Size
  | 0 => .b | 1 => .h | 2 => .w | 3 => .d | 4 => .q | 5 => .o | 6 => .s8 | _ => .s16

/-- The sz field of LDGS; 0, 1 and 7 are reserved (R153). -/
def gsizeOf : Nat → Option GSize
  | 2 => some .w | 3 => some .d | 4 => some .q | 5 => some .o | 6 => some .l | _ => none

/-- The size code of LDT; 0, 1 and 7 are reserved (R168). -/
def tkSizeOf : Nat → Option TkSize
  | 2 => some .w | 3 => some .d | 4 => some .q | 5 => some .o | 6 => some .v | _ => none

/-- The operation of an atomic; 9 to 15 are unassigned (R169). -/
def atomOpOf : Nat → Option AtomOp
  | 0 => some .add | 1 => some .addF32 | 2 => some .min | 3 => some .max | 4 => some .and
  | 5 => some .or | 6 => some .xor | 7 => some .swap | 8 => some .cas | _ => none

/-- The pattern of PRUNE and MMAS (R159, R170). -/
def patternOf : Nat → Pattern
  | 0 => .k2of4 | 1 => .k1of4 | 2 => .k4of8 | _ => .k2of8

/-- An assigned row with the verdict that no field of its words is reserved; none for words that are
no instruction (R174 steps 1 and 3). -/
abbrev Parsed := Option (Instr × Bool)

/-- A row that accepts no prefix (R159). -/
def noPrefix (p : Prefixes) (i : Instr) (ok : Bool) : Parsed :=
  if p.p0.isSome || p.x.isSome then none else some (i, ok)

/-- A row that accepts a kind 0 prefix and no kind 1 prefix; the row's verdict is a function of the
prefix, every field zero when there is none (R160). -/
def with0 (p : Prefixes) (k : Prefix0 → Instr × Bool) : Parsed :=
  if p.x.isSome then none else some (k (p.p0.getD {}))

/-- A row that accepts a kind 1 prefix and no kind 0 prefix. -/
def with1 (p : Prefixes) (k : Option Nat → Instr × Bool) : Parsed :=
  if p.p0.isSome then none else some (k p.x)

/-- Only TY is used (R159). -/
def onlyTy (q : Prefix0) : Bool :=
  q.e = 0 && q.f = 0 && q.slot = 0 && q.scope = 0 && q.ord = 0

/-- Only SCOPE and ORD are used (R159); SCOPE 7 is reserved. -/
def onlyMo (q : Prefix0) : Bool := q.e = 0 && q.f = 0 && q.slot = 0 && q.ty = 0 && q.scope ≠ 7

/-- SCOPE and ORD of a prefix. -/
def moOf (q : Prefix0) : MemOrd := { ord := ordOf q.ord, scope := scopeOf q.scope }

/-- A row whose kind 0 prefix carries TY alone. -/
def tyRow (p : Prefixes) (ok : Bool) (k : Ty → Instr) : Parsed :=
  with0 p fun q => (k (tyOf q.ty), ok && onlyTy q)

/-- A row whose kind 0 prefix carries SCOPE and ORD. -/
def moRow (p : Prefixes) (ok : Bool) (k : MemOrd → Instr) : Parsed :=
  with0 p fun q => (k (moOf q), ok && onlyMo q)

/-- The 34-bit offset of the M form in units of the size (R151): off9, or IMMX and off9. -/
def offOf (x : Option Nat) (off9 : Nat) : BitVec 34 := match x with
  | none => (BitVec.ofNat 9 off9).signExtend 34
  | some m => BitVec.ofNat 34 (m * 512 + off9)

/-- A row of the M form with SCOPE, ORD and the extended offset. -/
def memRow (p : Prefixes) (off9 : Nat) (k : MemOrd → BitVec 34 → Instr) : Parsed :=
  let q := p.p0.getD {}
  some (k (moOf q) (offOf p.x off9), onlyMo q)

/-- The 32-bit immediate of ADDI, ANDI and CMPI (R151). -/
def imm12s (x : Option Nat) (i : Nat) : Word := match x with
  | none => (BitVec.ofNat 12 i).signExtend 32
  | some m => BitVec.ofNat 32 (m * 4096 + i)

/-- The 32-bit immediate of ORI and XORI (R151). -/
def imm12z (x : Option Nat) (i : Nat) : Word := BitVec.ofNat 32 (x.getD 0 * 4096 + i)

/-- IMMX bits from n upward are zero (R151). -/
def immxOk (x : Option Nat) (n : Nat) : Bool := x.getD 0 < 2 ^ n

/-- The integer R group, major 0x01 (R162). -/
def parseInt (p : Prefixes) (d a b fn : Nat) : Parsed :=
  let D := fieldOf d; let A := fieldOf a; let B := fieldOf b
  match fn with
  | 0 => tyRow p true fun ty => .add ty D A B
  | 1 => tyRow p true fun ty => .sub ty D A B
  | 2 => tyRow p true fun ty => .mul ty D A B
  | 3 => tyRow p true fun ty => .mulhi ty D A B
  | 4 => tyRow p true fun ty => .mad ty D A B
  | 5 => tyRow p true fun ty => .div ty D A B
  | 6 => tyRow p true fun ty => .rem ty D A B
  | 7 => tyRow p true fun ty => .min ty D A B
  | 8 => tyRow p true fun ty => .max ty D A B
  | 9 => tyRow p (b = 0) fun ty => .abs ty D A
  | 10 => tyRow p (b = 0) fun ty => .neg ty D A
  | 11 => tyRow p true fun ty => .and ty D A B
  | 12 => tyRow p true fun ty => .or ty D A B
  | 13 => tyRow p true fun ty => .xor ty D A B
  | 14 => tyRow p true fun ty => .andn ty D A B
  | 15 => tyRow p true fun ty => .shl ty D A B
  | 16 => tyRow p true fun ty => .shr ty D A B
  | 17 => tyRow p true fun ty => .sar ty D A B
  | 18 => tyRow p true fun ty => .fshl ty D A B
  | 19 => tyRow p true fun ty => .fshr ty D A B
  | 20 => tyRow p (b = 0) fun ty => .popc ty D A
  | 21 => tyRow p (b = 0) fun ty => .clz ty D A
  | 22 => tyRow p (b = 0) fun ty => .ctz ty D A
  | 23 => tyRow p (b = 0) fun ty => .brev ty D A
  | 24 => tyRow p true fun ty => .bfx ty D A B
  | 25 => tyRow p true fun ty => .bfi ty D A B
  | 26 => tyRow p (b = 0) fun ty => .sext ty D A
  | 27 => tyRow p (b = 0) fun ty => .zext ty D A
  | 28 => with0 p fun q =>
      (.sel (tyOf q.ty) D A B (BitVec.ofNat 3 q.e),
        q.e < 8 && q.f = 0 && q.slot = 0 && q.scope = 0 && q.ord = 0)
  | 29 => tyRow p (b = 0) fun ty => .mov ty D A
  | 30 => tyRow p true fun ty => .lea ty D A B
  | 31 => tyRow p ((condOf (d / 8)).isSome) fun ty =>
      .cmp ty ((condOf (d / 8)).getD .eq) (BitVec.ofNat 3 d) A B
  | _ => none

/-- The I and L forms, majors 0x02 to 0x0C (R163, R190, R191). -/
def parseImm (p : Prefixes) (op d a b fn : Nat) : Parsed :=
  let D := fieldOf d; let A := fieldOf a
  let imm12 := b * 32 + fn
  let imm19 := a * 4096 + imm12
  match op with
  | 0x02 => with1 p fun x => (.addi D A (imm12s x imm12), immxOk x 20)
  | 0x03 => with1 p fun x => (.andi D A (imm12s x imm12), immxOk x 20)
  | 0x04 => with1 p fun x => (.ori D A (imm12z x imm12), immxOk x 20)
  | 0x05 => with1 p fun x => (.xori D A (imm12z x imm12), immxOk x 20)
  | 0x06 => noPrefix p (.shli D A (BitVec.ofNat 5 fn)) (b = 0)
  | 0x07 => noPrefix p (.shri D A (BitVec.ofNat 5 fn)) (b = 0)
  | 0x08 => noPrefix p (.sari D A (BitVec.ofNat 5 fn)) (b = 0)
  | 0x09 =>
      let q := p.p0.getD {}
      some (.cmpi (tyOf q.ty) ((condOf (d / 8)).getD .eq) (BitVec.ofNat 3 d) A (imm12s p.x imm12),
        (condOf (d / 8)).isSome && onlyTy q && immxOk p.x 20)
  | 0x0A => with1 p fun x =>
      (.movi D (match x with
        | none => (BitVec.ofNat 19 imm19).signExtend 32
        | some m => BitVec.ofNat 32 (m * 2 ^ 19 + imm19)), immxOk x 13)
  | 0x0B => noPrefix p (.movhi D (BitVec.ofNat 13 imm19)) (imm19 < 2 ^ 13)
  | 0x0C => with1 p fun x =>
      (.addpc D (match x with
        | none => (BitVec.ofNat 19 imm19).signExtend 44
        | some m => BitVec.ofNat 44 (m * 2 ^ 19 + imm19)), true)
  | _ => none

/-- The 48-bit offset of the J form in words (R151). -/
def jOff (x : Option Nat) (off23 : Nat) : BitVec 48 := match x with
  | none => (BitVec.ofNat 23 off23).signExtend 48
  | some m => BitVec.ofNat 48 (m * 2 ^ 23 + off23)

/-- The J form, majors 0x18 to 0x1B (R152). -/
def parseJump (p : Prefixes) (op d a b fn : Nat) : Parsed :=
  let cond := d / 16
  let off23 := d % 16 * 2 ^ 19 + a * 4096 + b * 32 + fn
  match op with
  | 0x18 => with1 p fun x => (.bra (jOff x off23), cond = 7)
  | 0x19 => with1 p fun x => (.brc (BitVec.ofNat 3 cond) (jOff x off23), true)
  | 0x1A => with1 p fun x => (.brcNot (BitVec.ofNat 3 cond) (jOff x off23), true)
  | 0x1B => with1 p fun x => (.call (jOff x off23), cond = 7)
  | _ => none

/-- Major 0x1C (R165). -/
def parseControl (p : Prefixes) (d a b fn : Nat) : Parsed :=
  let A := fieldOf a
  match fn with
  | 0 => noPrefix p (.jmpr A) (d = 0 && b = 0)
  | 1 => noPrefix p (.callr A) (d = 0 && b = 0)
  | 2 => noPrefix p .ret (d = 0 && a = 0 && b = 0)
  | 3 => noPrefix p .exit (d = 0 && a = 0 && b = 0)
  | 4 => noPrefix p .yield (d = 0 && a = 0 && b = 0)
  | 5 => noPrefix p (.fork (fieldOf d) A (fieldOf b)) true
  | 6 => noPrefix p (.join A) (d = 0 && b = 0)
  | 7 => noPrefix p (.setwb (BitVec.ofNat 5 b)) (d = 0 && a = 0 && b < 32)
  | 8 => noPrefix p (.setkb (BitVec.ofNat 3 b)) (d = 0 && a = 0 && b < 8)
  | _ => none

/-- A row that exists only for a mask number other than 0 (R38). -/
def maskRow (p : Prefixes) (d : Nat) (i : Instr) (ok : Bool) : Parsed :=
  if d % 16 = 0 then none else noPrefix p i ok

/-- Major 0x1D (R165); MJOIN, MLEAVE and MWRITE of mask 0 are no instructions (R38). -/
def parseMask (p : Prefixes) (d a b fn : Nat) : Parsed :=
  let D := fieldOf d; let A := fieldOf a; let B := fieldOf b
  let m := BitVec.ofNat 4 d
  match fn with
  | 0 => maskRow p d (.mjoin m) (d < 16 && a = 0 && b = 0)
  | 1 => maskRow p d (.mleave m) (d < 16 && a = 0 && b = 0)
  | 2 => noPrefix p (.mwait m) (d < 16 && a = 0 && b = 0)
  | 3 => noPrefix p (.mread D (BitVec.ofNat 4 a)) (a < 16 && b = 0)
  | 4 => maskRow p d (.mwrite m A) (d < 16 && b = 0)
  | 5 => noPrefix p (.voteAny (BitVec.ofNat 3 d) (BitVec.ofNat 3 a)) (d < 8 && a < 8 && b = 0)
  | 6 => noPrefix p (.voteAll (BitVec.ofNat 3 d) (BitVec.ofNat 3 a)) (d < 8 && a < 8 && b = 0)
  | 7 => noPrefix p (.voteBallot D (BitVec.ofNat 3 a)) (a < 8 && b = 0)
  | 8 => noPrefix p (.shflIdx D A B) true
  | 9 => noPrefix p (.shflUp D A B) true
  | 10 => noPrefix p (.shflDown D A B) true
  | 11 => noPrefix p (.shflXor D A B) true
  | 12 => noPrefix p (.plop (BitVec.ofNat 3 d) (BitVec.ofNat 3 a) (BitVec.ofNat 3 b)
      (BitVec.ofNat 4 (b / 8))) (d < 8 && a < 8)
  | 13 => noPrefix p (.bmov D A B) true
  | 14 => noPrefix p (.bfill D A B) true
  | _ => none

/-- The pointer mode of an A field and off9 (R167); false for a reserved one. -/
def pointerMode (x : Option Nat) (mode off9 : Nat) : PtrMode × Bool := match mode with
  | 0 => (.off (offOf x off9), true)
  | 1 => (.inc, off9 = 0)
  | 2 => (.idx (fieldOf off9), off9 < 128)
  | _ => (.inc, false)

/-- Loads and stores through a pointer register, majors 0x24 and 0x25 (R167). -/
def parsePointer (p : Prefixes) (op d a b fn : Nat) : Parsed :=
  let off9 := b * 4 + fn / 8
  let sz := sizeOf (fn % 8)
  let spm := a / 64 % 2 = 1
  let mode := a / 16 % 4
  let pf := a / 8 % 2 = 1
  let n := BitVec.ofNat 3 a
  let (pm, ok) := pointerMode p.x mode off9
  let q := p.p0.getD {}
  if p.x.isSome && mode ≠ 0 then none
  else if op = 0x25 then some (.stPointer (moOf q) (fieldOf d) spm pm n sz, ok && onlyMo q && !pf)
  else if pf then some (.ldPf (moOf q) pm n sz, ok && onlyMo q && d = 0 && !spm)
  else some (.ldPointer (moOf q) (fieldOf d) spm pm n sz, ok && onlyMo q)

/-- The M form, majors 0x20 to 0x27 (R153). -/
def parseMem (p : Prefixes) (op d a b fn : Nat) : Parsed :=
  let D := fieldOf d; let A := fieldOf a
  let off9 := b * 4 + fn / 8
  let sz := sizeOf (fn % 8)
  match op with
  | 0x20 => memRow p off9 fun mo o => .ld mo D A o sz
  | 0x21 => memRow p off9 fun mo o => .st mo D A o sz
  | 0x22 => memRow p off9 fun mo o => .lds mo D A o sz
  | 0x23 => memRow p off9 fun mo o => .sts mo D A o sz
  | 0x26 => memRow p off9 fun mo o => .ldc mo D A o sz
  | 0x27 => (memRow p off9 fun mo o => .ldgs mo D A o ((gsizeOf (fn % 8)).getD .w)).map
      fun r => (r.1, r.2 && (gsizeOf (fn % 8)).isSome)
  | _ => parsePointer p op d a b fn

/-- Major 0x28, the queue, barrier, mailbox and launch group (R168). -/
def parseQueue (p : Prefixes) (d a b fn : Nat) : Parsed :=
  let D := fieldOf d; let A := fieldOf a; let B := fieldOf b
  match fn with
  | 0 => noPrefix p (.waitf A) (d = 0 && b = 0)
  | 1 => noPrefix p (.sete A) (d = 0 && b = 0)
  | 2 => moRow p (d < 4 && b = 0) fun mo => .acpy mo (BitVec.ofNat 2 d) A
  | 3 => noPrefix p (.qjoin (BitVec.ofNat 4 d)) (d < 16 && a = 0 && b = 0)
  | 4 => noPrefix p (.qwait (BitVec.ofNat 2 d) A) (d < 4 && b = 0)
  | 5 => moRow p (d = 0 && a = 0 && b = 0) fun mo => .fence mo
  | 6 => noPrefix p (.bara A) (d = 0 && b = 0)
  | 7 => noPrefix p (.baraTx A B) (d = 0)
  | 8 => noPrefix p (.barw A B) (d = 0)
  | 9 => noPrefix p (.msend (BitVec.ofNat 4 d) A B) (d < 16)
  | 10 => noPrefix p (.mrecv D A) (b = 0)
  | 11 => noPrefix p (.mfree A) (d = 0 && b = 0)
  | 12 => noPrefix p (.launch A) (d = 0 && b = 0)
  | 13 => noPrefix p (.stitch (BitVec.ofNat 4 (d / 8)) (BitVec.ofNat 3 d) A B) true
  | 14 => noPrefix p (.pfarm A) (d = 0 && b = 0)
  | 15 => noPrefix p (.pfstop A) (d = 0 && b = 0)
  | 16 => noPrefix p (.cflush A) (d = 0 && b = 0)
  | _ => none

/-- Major 0x29, tickets (R168). -/
def parseTicket (p : Prefixes) (d a b fn : Nat) : Parsed :=
  let D := fieldOf d; let A := fieldOf a
  match fn with
  | 0 => moRow p ((tkSizeOf b).isSome) fun mo => .ldt mo D A ((tkSizeOf b).getD .w)
  | 1 => noPrefix p (.rdm D A) (b = 0)
  | 2 => noPrefix p (.rdmSpm D A) (b = 0)
  | 3 => noPrefix p (.tkdrop A) (d = 0 && b = 0)
  | _ => none

/-- Majors 0x2A and 0x2B, atomics (R169). -/
def parseAtomic (p : Prefixes) (spm : Bool) (d a b fn : Nat) : Parsed :=
  let D := fieldOf d; let A := fieldOf a; let B := fieldOf b
  match atomOpOf (fn % 16) with
  | none => none
  | some o => if fn < 16 then
        with0 p fun q =>
          (if spm then .atomSpm (moOf q) (tyOf q.ty) o D A B else .atom (moOf q) (tyOf q.ty) o D A B,
            q.e = 0 && q.f = 0 && q.slot = 0 && q.scope ≠ 7)
      else if !Machine.redOp o then none
      else
        with0 p fun q =>
          (if spm then .redSpm (moOf q) (tyOf q.ty) o A B else .red (moOf q) (tyOf q.ty) o A B,
            q.e = 0 && q.f = 0 && q.slot = 0 && q.scope ≠ 7 && d = 0)

/-- Major 0x2C, FP32 lane operations (R170). -/
def parseFloat (p : Prefixes) (d a b fn : Nat) : Parsed :=
  let D := fieldOf d; let A := fieldOf a; let B := fieldOf b
  match fn with
  | 0 => noPrefix p (.fadd D A B) true
  | 1 => noPrefix p (.fsub D A B) true
  | 2 => noPrefix p (.fmul D A B) true
  | 3 => noPrefix p (.ffma D A B) true
  | 4 => noPrefix p (.fmin D A B) true
  | 5 => noPrefix p (.fmax D A B) true
  | 6 => noPrefix p (.fabs D A) (b = 0)
  | 7 => noPrefix p (.fneg D A) (b = 0)
  | 8 => noPrefix p (.fcmp ((fcondOf (d / 8)).getD .eq) (BitVec.ofNat 3 d) A B)
      ((fcondOf (d / 8)).isSome)
  | 9 => noPrefix p (.fclass D A) (b = 0)
  | 10 => noPrefix p (.fround (rmodeOf (b % 4)) D A) (b < 4)
  | 11 => noPrefix p (.fdiv D A B) true
  | _ => none

/-- Major 0x2D, FP32 functions (R170). -/
def parseFunction (p : Prefixes) (d a b fn : Nat) : Parsed :=
  let D := fieldOf d; let A := fieldOf a
  match fn with
  | 0 => noPrefix p (.frcp D A) (b = 0)
  | 1 => noPrefix p (.frsq D A) (b = 0)
  | 2 => noPrefix p (.fsqrt D A) (b = 0)
  | 3 => noPrefix p (.fexp2 D A) (b = 0)
  | 4 => noPrefix p (.flog2 D A) (b = 0)
  | 5 => noPrefix p (.fsin D A) (b = 0)
  | 6 => noPrefix p (.fcos D A) (b = 0)
  | _ => none

/-- Major 0x2E, conversions (R170). -/
def parseConvert (p : Prefixes) (d a b fn : Nat) : Parsed :=
  let D := fieldOf d; let A := fieldOf a
  let s := BitVec.ofNat 3 b
  match fn with
  | 0 => tyRow p (b < 4) fun ty => .f2i ty (rmodeOf (b % 4)) D A
  | 1 => tyRow p (b = 0) fun ty => .i2f ty D A
  | 2 => noPrefix p (.cvtTo D A s) (b < 8)
  | 3 => noPrefix p (.cvtFrom D A s) (b < 8)
  | 4 => noPrefix p (.pack D A s) (b < 8)
  | 5 => noPrefix p (.unpk D A s) (b < 8)
  | _ => none

/-- Major 0x2F, packed arithmetic (R170). -/
def parsePacked (p : Prefixes) (d a b fn : Nat) : Parsed :=
  let D := fieldOf d; let A := fieldOf a; let B := fieldOf b
  match fn with
  | 0 => noPrefix p (.hadd2F16 D A B) true
  | 1 => noPrefix p (.hmul2F16 D A B) true
  | 2 => noPrefix p (.hfma2F16 D A B) true
  | 8 => noPrefix p (.hadd2Bf16 D A B) true
  | 9 => noPrefix p (.hmul2Bf16 D A B) true
  | 10 => noPrefix p (.hfma2Bf16 D A B) true
  | 16 => with0 p fun q => (.dot4 (BitVec.ofNat 3 q.slot) D A B,
      q.e = 0 && q.f = 0 && q.scope = 0 && q.ord = 0 && q.ty = 0)
  | 17 => with0 p fun q => (.dot4S8 D A B,
      q.e = 0 && q.f = 0 && q.slot = 0 && q.scope = 0 && q.ord = 0 && q.ty = 0)
  | _ => none

/-- Major 0x30, cross-thread operations (R170). -/
def parseCross (p : Prefixes) (d a b fn : Nat) : Parsed :=
  let D := fieldOf d; let A := fieldOf a; let B := fieldOf b
  let s := BitVec.ofNat 3 b
  match fn with
  | 0 => noPrefix p (.cdet D A) (b = 0)
  | 1 => noPrefix p (.scanIncF32 D A) (b = 0)
  | 2 => noPrefix p (.scanExcF32 D A) (b = 0)
  | 3 => noPrefix p (.scanIncS32 D A) (b = 0)
  | 4 => noPrefix p (.scanExcS32 D A) (b = 0)
  | 5 => noPrefix p (.merge D A B) true
  | 6 => noPrefix p (.mergeKz D A B) true
  | 7 => noPrefix p (.prune (patternOf (b / 8 % 4)) s D A) (b < 32)
  | _ => none

/-- The tile number of MMA and MMAS: IMMX<5:0> over fn<3:0> (R159). -/
def tileOf (x : Option Nat) (fn : Nat) : BitVec 10 := BitVec.ofNat 10 (x.getD 0 * 16 + fn % 16)

/-- Major 0x34, MMA (R172). -/
def parseMma (p : Prefixes) (d a b fn : Nat) : Parsed :=
  let D := fieldOf d; let A := fieldOf a; let B := fieldOf b
  let q := p.p0.getD { f := 1 }
  let ok := q.e = 0 && q.f < 8 && q.scope = 0 && q.ord = 0 && q.ty = 0 && immxOk p.x 6
  let sa := BitVec.ofNat 3 q.slot; let sb := BitVec.ofNat 3 q.f
  if fn < 16 then some (.mma sa sb D A B (tileOf p.x fn), ok)
  else some (.mmaR sa sb D A B (tileOf p.x fn), ok)

/-- Major 0x35, MMAS (R172). -/
def parseMmas (p : Prefixes) (d a b fn : Nat) : Parsed :=
  let D := fieldOf d; let A := fieldOf a; let B := fieldOf b
  let q := p.p0.getD {}
  some (.mmas (BitVec.ofNat 3 q.slot) (BitVec.ofNat 3 q.f) (patternOf (q.f / 8 % 4)) D A B
      (fieldOf q.e) (tileOf p.x fn),
    p.p0.isSome && fn < 16 && q.f < 32 && q.scope = 0 && q.ord = 0 && q.ty = 0 && immxOk p.x 6)

/-- Major 0x36, AM and the weight-buffer loader (R172). -/
def parseAm (p : Prefixes) (d a b fn : Nat) : Parsed :=
  let D := fieldOf d; let A := fieldOf a; let B := fieldOf b
  match fn with
  | 0 => noPrefix p (.amalloc D A) (b = 0)
  | 1 => noPrefix p (.amfree A) (d = 0 && b = 0)
  | 2 => noPrefix p (.amshape A B) (d = 0)
  | 3 => noPrefix p (.amrd D A B) true
  | 4 => noPrefix p (.amwr D A B) true
  | 5 => noPrefix p (.amzero A B) (d = 0)
  | 6 => noPrefix p (.amdrain D A B) true
  | 7 => noPrefix p (.amdrainAdd D A B) true
  | 8 => if p.x.isSome then none else
      let q := p.p0.getD { slot := 1 }
      some (.wbld (moOf q) (BitVec.ofNat 3 q.slot) D A B,
        q.e = 0 && q.f = 0 && q.ty = 0 && q.scope ≠ 7)
  | _ => none

/-- Major 0x37, the sequencer (R172). -/
def parseSequencer (p : Prefixes) (d a b fn : Nat) : Parsed :=
  let D := fieldOf d; let A := fieldOf a
  match fn with
  | 0 => moRow p (b = 0) fun mo => .mq mo D A
  | 1 => noPrefix p (.lrset (BitVec.ofNat 3 d) A) (d < 8 && b = 0)
  | 2 => noPrefix p (.mqwait A) (d = 0 && b = 0)
  | _ => none

/-- Major 0x3B, texture, hash grid and traversal (R173). -/
def parseTexture (p : Prefixes) (d a b fn : Nat) : Parsed :=
  let D := fieldOf d; let A := fieldOf a; let B := fieldOf b
  match fn with
  | 0 => noPrefix p (.tex D A B) true
  | 1 => noPrefix p (.tld D A B) true
  | 2 => noPrefix p (.tgath D A B) true
  | 3 => noPrefix p (.hgf D A B) true
  | 4 => moRow p true fun mo => .hgs mo D A B
  | 5 => moRow p true fun mo => .hgsDet mo D A B
  | 6 => noPrefix p .hgsfence (d = 0 && a = 0 && b = 0)
  | 7 => noPrefix p (.trav D A B) true
  | _ => none

/-- Major 0x3C, raster and control store (R173). -/
def parseRaster (p : Prefixes) (d a b fn : Nat) : Parsed :=
  let D := fieldOf d; let A := fieldOf a
  match fn with
  | 0 => noPrefix p .rscb (d = 0 && a = 0 && b = 0)
  | 1 => noPrefix p .rsce (d = 0 && a = 0 && b = 0)
  | 2 => noPrefix p (.pixout (BitVec.ofNat 2 b) D A) (b < 4)
  | 3 => noPrefix p (.csld A) (d = 0 && b = 0)
  | 4 => noPrefix p (.csrel A) (d = 0 && b = 0)
  | _ => none

/-- Major 0x3D, the S form (R166). -/
def parseSystem (p : Prefixes) (d a b fn : Nat) : Parsed :=
  let imm9 := BitVec.ofNat 9 (b * 32 + fn)
  match b / 16 with
  | 0 => noPrefix p (.csrr (fieldOf d) imm9) (a = 0)
  | 1 => noPrefix p (.csrw imm9 (fieldOf a)) (d = 0)
  | 2 => noPrefix p (.svc imm9) (d = 0 && a = 0)
  | 3 => noPrefix p .eret (d = 0 && a = 0 && b = 48 && fn = 0)
  | 4 => noPrefix p (.bkpt imm9) (d = 0 && a = 0)
  | _ => none

/-- An instruction word after its prefixes (R161); none where the map assigns nothing. -/
def parseFields (p : Prefixes) (op d a b fn : Nat) : Parsed :=
  if op = 0x01 then parseInt p d a b fn
  else if op ≤ 0x0C then parseImm p op d a b fn
  else if 0x10 ≤ op && op ≤ 0x17 then
    noPrefix p (.lut3 (BitVec.ofNat 8 ((op - 0x10) * 32 + fn)) (fieldOf d) (fieldOf a) (fieldOf b)) true
  else if 0x18 ≤ op && op ≤ 0x1B then parseJump p op d a b fn
  else if op = 0x1C then parseControl p d a b fn
  else if op = 0x1D then parseMask p d a b fn
  else if op = 0x1E then
    noPrefix p (.migr (BitVec.ofNat 12 (b * 32 + fn))) (d = 0 && a = 0)
  else if 0x20 ≤ op && op ≤ 0x27 then parseMem p op d a b fn
  else if op = 0x28 then parseQueue p d a b fn
  else if op = 0x29 then parseTicket p d a b fn
  else if op = 0x2A then parseAtomic p false d a b fn
  else if op = 0x2B then parseAtomic p true d a b fn
  else if op = 0x2C then parseFloat p d a b fn
  else if op = 0x2D then parseFunction p d a b fn
  else if op = 0x2E then parseConvert p d a b fn
  else if op = 0x2F then parsePacked p d a b fn
  else if op = 0x30 then parseCross p d a b fn
  else if op = 0x34 then parseMma p d a b fn
  else if op = 0x35 then parseMmas p d a b fn
  else if op = 0x36 then parseAm p d a b fn
  else if op = 0x37 then parseSequencer p d a b fn
  else if op = 0x3B then parseTexture p d a b fn
  else if op = 0x3C then parseRaster p d a b fn
  else if op = 0x3D then parseSystem p d a b fn
  else none

/-- An instruction word after its prefixes. -/
def parseWord (p : Prefixes) (w : Word) : Parsed :=
  parseFields p (wOp w) (wD w) (wA w) (wB w) (wFn w)

/-- The verdict on a complete sequence of n words: fields that its types cannot carry, and numbers
and runs out of range, are reserved fields (R156, R174). -/
def verdict (n : Nat) (rest : List Word) : Parsed → DecodeResult
  | none => .illegal n
  | some (i, ok) => if ok && i.wf then .instr i rest else .reserved i rest

/-- The word is a prefix (R157). -/
def isPrefix (w : Word) : Bool := wOp w = 0x3E

/-- The decoder: at most one kind 0 prefix, then at most one kind 1 prefix, then the instruction
word (R158). The first word that breaks this order makes the sequence illegal (R391). -/
def decode : List Word → DecodeResult
  | [] => .truncated
  | w0 :: r0 =>
    if !isPrefix w0 then verdict 1 r0 (parseWord {} w0)
    else match r0 with
      | [] => .truncated
      | w1 :: r1 =>
        if prefixKind w0 = 1 then
          if isPrefix w1 then .illegal 2
          else verdict 2 r1 (parseWord { x := some (prefixImm w0) } w1)
        else if !isPrefix w1 then verdict 2 r1 (parseWord { p0 := some (prefix0 w0) } w1)
        else if prefixKind w1 = 0 then .illegal 2
        else match r1 with
          | [] => .truncated
          | w2 :: r2 =>
            if isPrefix w2 then .illegal 3
            else verdict 3 r2
              (parseWord { p0 := some (prefix0 w0), x := some (prefixImm w1) } w2)

/-! The encoder. It writes the shortest sequence: a prefix only where a field of it is not its
default (R178). -/

/-- An R-form word from its fields (R150); the other forms are laid over the same fields. -/
def packR (op d a b fn : Nat) : Word :=
  BitVec.ofNat 32 (op * 2 ^ 26 + d * 2 ^ 19 + a * 2 ^ 12 + b * 2 ^ 5 + fn)

/-- A kind 0 prefix (R157). -/
def packP0 (q : Prefix0) : Word :=
  BitVec.ofNat 32 (0x3E * 2 ^ 26 + q.e * 2 ^ 18 + q.f * 2 ^ 11 + q.slot * 2 ^ 8 + q.scope * 2 ^ 5
    + q.ord * 2 ^ 3 + q.ty)

/-- A kind 1 prefix (R157). -/
def packP1 (x : Nat) : Word := BitVec.ofNat 32 (0x3E * 2 ^ 26 + 2 ^ 25 + x)

/-- A word after a kind 0 prefix that is left out when every field of it has the default d. -/
def enc0 (d q : Prefix0) (w : Word) : List Word := if q = d then [w] else [packP0 q, w]

/-- A word after its kind 0 and kind 1 prefixes. -/
def enc01 (d q : Prefix0) (x : Option Nat) (w : Word) : List Word := match x with
  | none => enc0 d q w
  | some m => if q = d then [packP1 m, w] else [packP0 q, packP1 m, w]

/-- TY's code (R157). -/
def tyCode : Ty → Nat
  | .s32 => 0 | .n32 => 1 | .s64 => 2 | .n64 => 3 | .s16 => 4 | .n16 => 5 | .s8 => 6 | .n8 => 7

/-- ORD's code (R157). -/
def ordCode : Ord → Nat
  | .rlx => 0 | .acq => 1 | .rel => 2 | .ar => 3

/-- SCOPE's code (R157). -/
def scopeCode : Scope → Nat
  | .dflt => 0 | .grp => 1 | .blk => 2 | .clu => 3 | .die => 4 | .dev => 5 | .sys => 6

/-- Condition code of CMP and CMPI (R171). -/
def condCode : Cond → Nat
  | .eq => 0 | .ne => 1 | .lt => 2 | .le => 3 | .gt => 4 | .ge => 5

/-- Condition code of FCMP (R171). -/
def fcondCode : FCond → Nat
  | .eq => 0 | .ne => 1 | .lt => 2 | .le => 3 | .gt => 4 | .ge => 5 | .un => 6 | .or => 7

/-- Rounding-mode code (R170). -/
def rmodeCode : RMode → Nat
  | .rn => 0 | .rz => 1 | .rd => 2 | .ru => 3

/-- The sz code (R153). -/
def sizeCode : Size → Nat
  | .b => 0 | .h => 1 | .w => 2 | .d => 3 | .q => 4 | .o => 5 | .s8 => 6 | .s16 => 7

/-- The sz code of LDGS (R153). -/
def gsizeCode : GSize → Nat
  | .w => 2 | .d => 3 | .q => 4 | .o => 5 | .l => 6

/-- The size code of LDT (R168). -/
def tkSizeCode : TkSize → Nat
  | .w => 2 | .d => 3 | .q => 4 | .o => 5 | .v => 6

/-- The operation code of an atomic (R169). -/
def atomOpCode : AtomOp → Nat
  | .add => 0 | .addF32 => 1 | .min => 2 | .max => 3 | .and => 4 | .or => 5 | .xor => 6 | .swap => 7
  | .cas => 8

/-- The pattern code (R159, R170). -/
def patternCode : Pattern → Nat
  | .k2of4 => 0 | .k1of4 => 1 | .k4of8 => 2 | .k2of8 => 3

/-- A row whose prefix carries TY alone. -/
def encTy (ty : Ty) (w : Word) : List Word := enc0 {} { ty := tyCode ty } w

/-- The prefix of an ordering kind and scope. -/
def moPrefix (mo : MemOrd) : Prefix0 := { scope := scopeCode mo.scope, ord := ordCode mo.ord }

/-- A row whose prefix carries SCOPE and ORD. -/
def encMo (mo : MemOrd) (w : Word) : List Word := enc0 {} (moPrefix mo) w

/-- A row of the integer R group. -/
def encInt (ty : Ty) (d a b : Field) (fn : Nat) : List Word :=
  encTy ty (packR 0x01 d.toNat a.toNat b.toNat fn)

/-- An R-form row without prefixes. -/
def encR (op d a b fn : Nat) : List Word := [packR op d a b fn]

/-- IMMX of a sign-extended immediate whose low n bits stand in the word, or none when the word's
own field is enough (R178). -/
def immxS (w n : Nat) (v : BitVec w) : Option Nat :=
  if (v.setWidth n).signExtend w = v then none else some (v.toNat / 2 ^ n)

/-- The I-form row of a sign-extended immediate. -/
def encI (op : Nat) (d a : Field) (imm : Word) : List Word :=
  enc01 {} {} (immxS 32 12 imm)
    (packR op d.toNat a.toNat (imm.toNat % 4096 / 32) (imm.toNat % 32))

/-- The I-form row of a zero-extended immediate. -/
def encIz (op : Nat) (d a : Field) (imm : Word) : List Word :=
  enc01 {} {} (if imm.toNat < 4096 then none else some (imm.toNat / 4096))
    (packR op d.toNat a.toNat (imm.toNat % 4096 / 32) (imm.toNat % 32))

/-- The L-form row of a register and a 19-bit field. -/
def encL (op : Nat) (d : Field) (x : Option Nat) (imm19 : Nat) : List Word :=
  enc01 {} {} x (packR op d.toNat (imm19 / 4096) (imm19 % 4096 / 32) (imm19 % 32))

/-- The J-form row. -/
def encJ (op cond : Nat) (off : BitVec 48) : List Word :=
  let o := off.toNat % 2 ^ 23
  enc01 {} {} (immxS 48 23 off)
    (packR op (cond * 16 + o / 2 ^ 19) (o % 2 ^ 19 / 4096) (o % 4096 / 32) (o % 32))

/-- The M-form row with the given 7-bit A field, IMMX, off9 and sz code. -/
def encM (mo : MemOrd) (op d a : Nat) (x : Option Nat) (off9 sz : Nat) : List Word :=
  enc01 {} (moPrefix mo) x (packR op d a (off9 / 4) (off9 % 4 * 8 + sz))

/-- The M-form row of an offset in units of the size. -/
def encMoff (mo : MemOrd) (op d a : Nat) (off : BitVec 34) (sz : Nat) : List Word :=
  encM mo op d a (immxS 34 9 off) (off.toNat % 512) sz

/-- A pointer row: major, D, SP, PF, mode, pointer and sz code (R167). -/
def encPtr (mo : MemOrd) (op d : Nat) (spm pf : Bool) (m : PtrMode) (n : BitVec 3) (sz : Nat) :
    List Word :=
  let a := spm.toNat * 64 + pf.toNat * 8 + n.toNat
  match m with
  | .off o => encMoff mo op d a o sz
  | .inc => encM mo op d (a + 16) none 0 sz
  | .idx f => encM mo op d (a + 32) none f.toNat sz

/-- An atomic row. -/
def encAtom (mo : MemOrd) (ty : Ty) (op d : Nat) (a b : Field) (fn : Nat) : List Word :=
  enc0 {} { scope := scopeCode mo.scope, ord := ordCode mo.ord, ty := tyCode ty }
    (packR op d a.toNat b.toNat fn)

/-- IMMX of a tile number above 15 (R266). -/
def tileX (t : BitVec 10) : Option Nat := if t.toNat < 16 then none else some (t.toNat / 16)

/-- An S-form row (R150). -/
def encS (d a : Nat) (sop : Nat) (imm9 : BitVec 9) : List Word :=
  encR 0x3D d a (sop * 16 + imm9.toNat / 32) (imm9.toNat % 32)

/-- The words of a well-formed instruction; no words for a row that has none. -/
def encode : Instr → List Word
  | .add ty d a b => encInt ty d a b 0
  | .sub ty d a b => encInt ty d a b 1
  | .mul ty d a b => encInt ty d a b 2
  | .mulhi ty d a b => encInt ty d a b 3
  | .mad ty d a b => encInt ty d a b 4
  | .div ty d a b => encInt ty d a b 5
  | .rem ty d a b => encInt ty d a b 6
  | .min ty d a b => encInt ty d a b 7
  | .max ty d a b => encInt ty d a b 8
  | .abs ty d a => encInt ty d a 0 9
  | .neg ty d a => encInt ty d a 0 10
  | .and ty d a b => encInt ty d a b 11
  | .or ty d a b => encInt ty d a b 12
  | .xor ty d a b => encInt ty d a b 13
  | .andn ty d a b => encInt ty d a b 14
  | .shl ty d a b => encInt ty d a b 15
  | .shr ty d a b => encInt ty d a b 16
  | .sar ty d a b => encInt ty d a b 17
  | .fshl ty d a b => encInt ty d a b 18
  | .fshr ty d a b => encInt ty d a b 19
  | .popc ty d a => encInt ty d a 0 20
  | .clz ty d a => encInt ty d a 0 21
  | .ctz ty d a => encInt ty d a 0 22
  | .brev ty d a => encInt ty d a 0 23
  | .bfx ty d a b => encInt ty d a b 24
  | .bfi ty d a b => encInt ty d a b 25
  | .sext ty d a => encInt ty d a 0 26
  | .zext ty d a => encInt ty d a 0 27
  | .sel ty d a b c => enc0 {} { e := c.toNat, ty := tyCode ty }
      (packR 0x01 d.toNat a.toNat b.toNat 28)
  | .mov ty d a => encInt ty d a 0 29
  | .lea ty d a b => encInt ty d a b 30
  | .cmp ty cc c a b => encTy ty
      (packR 0x01 (condCode cc * 8 + c.toNat) a.toNat b.toNat 31)
  | .addi d a imm => encI 0x02 d a imm
  | .andi d a imm => encI 0x03 d a imm
  | .ori d a imm => encIz 0x04 d a imm
  | .xori d a imm => encIz 0x05 d a imm
  | .shli d a n => encR 0x06 d.toNat a.toNat 0 n.toNat
  | .shri d a n => encR 0x07 d.toNat a.toNat 0 n.toNat
  | .sari d a n => encR 0x08 d.toNat a.toNat 0 n.toNat
  | .cmpi ty cc c a imm => enc01 {} { ty := tyCode ty } (immxS 32 12 imm)
      (packR 0x09 (condCode cc * 8 + c.toNat) a.toNat (imm.toNat % 4096 / 32) (imm.toNat % 32))
  | .movi d imm => encL 0x0A d (immxS 32 19 imm) (imm.toNat % 2 ^ 19)
  | .movhi d h => encL 0x0B d none h.toNat
  | .addpc d off => encL 0x0C d (immxS 44 19 off) (off.toNat % 2 ^ 19)
  | .lut3 t d a b => encR (0x10 + t.toNat / 32) d.toNat a.toNat b.toNat (t.toNat % 32)
  | .bra off => encJ 0x18 7 off
  | .brc c off => encJ 0x19 c.toNat off
  | .brcNot c off => encJ 0x1A c.toNat off
  | .call off => encJ 0x1B 7 off
  | .jmpr a => encR 0x1C 0 a.toNat 0 0
  | .callr a => encR 0x1C 0 a.toNat 0 1
  | .ret => encR 0x1C 0 0 0 2
  | .exit => encR 0x1C 0 0 0 3
  | .yield => encR 0x1C 0 0 0 4
  | .fork d a b => encR 0x1C d.toNat a.toNat b.toNat 5
  | .join a => encR 0x1C 0 a.toNat 0 6
  | .setwb n => encR 0x1C 0 0 n.toNat 7
  | .setkb n => encR 0x1C 0 0 n.toNat 8
  | .mjoin m => encR 0x1D m.toNat 0 0 0
  | .mleave m => encR 0x1D m.toNat 0 0 1
  | .mwait m => encR 0x1D m.toNat 0 0 2
  | .mread d m => encR 0x1D d.toNat m.toNat 0 3
  | .mwrite m a => encR 0x1D m.toNat a.toNat 0 4
  | .voteAny d a => encR 0x1D d.toNat a.toNat 0 5
  | .voteAll d a => encR 0x1D d.toNat a.toNat 0 6
  | .voteBallot d a => encR 0x1D d.toNat a.toNat 0 7
  | .shflIdx d a b => encR 0x1D d.toNat a.toNat b.toNat 8
  | .shflUp d a b => encR 0x1D d.toNat a.toNat b.toNat 9
  | .shflDown d a b => encR 0x1D d.toNat a.toNat b.toNat 10
  | .shflXor d a b => encR 0x1D d.toNat a.toNat b.toNat 11
  | .plop d a b t => encR 0x1D d.toNat a.toNat (t.toNat * 8 + b.toNat) 12
  | .bmov d a b => encR 0x1D d.toNat a.toNat b.toNat 13
  | .bfill d a b => encR 0x1D d.toNat a.toNat b.toNat 14
  | .migr id => encR 0x1E 0 0 (id.toNat / 32) (id.toNat % 32)
  | .ld mo d a off sz => encMoff mo 0x20 d.toNat a.toNat off (sizeCode sz)
  | .st mo d a off sz => encMoff mo 0x21 d.toNat a.toNat off (sizeCode sz)
  | .lds mo d a off sz => encMoff mo 0x22 d.toNat a.toNat off (sizeCode sz)
  | .sts mo d a off sz => encMoff mo 0x23 d.toNat a.toNat off (sizeCode sz)
  | .ldPointer mo d spm m n sz => encPtr mo 0x24 d.toNat spm false m n (sizeCode sz)
  | .stPointer mo d spm m n sz => encPtr mo 0x25 d.toNat spm false m n (sizeCode sz)
  | .ldPf mo m n sz => encPtr mo 0x24 0 false true m n (sizeCode sz)
  | .ldc mo d a off sz => encMoff mo 0x26 d.toNat a.toNat off (sizeCode sz)
  | .ldgs mo d a off sz => encMoff mo 0x27 d.toNat a.toNat off (gsizeCode sz)
  | .waitf a => encR 0x28 0 a.toNat 0 0
  | .sete a => encR 0x28 0 a.toNat 0 1
  | .acpy mo q a => encMo mo (packR 0x28 q.toNat a.toNat 0 2)
  | .qjoin qs => encR 0x28 qs.toNat 0 0 3
  | .qwait q a => encR 0x28 q.toNat a.toNat 0 4
  | .fence mo => encMo mo (packR 0x28 0 0 0 5)
  | .bara a => encR 0x28 0 a.toNat 0 6
  | .baraTx a b => encR 0x28 0 a.toNat b.toNat 7
  | .barw a b => encR 0x28 0 a.toNat b.toNat 8
  | .msend n a b => encR 0x28 n.toNat a.toNat b.toNat 9
  | .mrecv d a => encR 0x28 d.toNat a.toNat 0 10
  | .mfree a => encR 0x28 0 a.toNat 0 11
  | .launch a => encR 0x28 0 a.toNat 0 12
  | .stitch nr na1 a b => encR 0x28 (nr.toNat * 8 + na1.toNat) a.toNat b.toNat 13
  | .pfarm a => encR 0x28 0 a.toNat 0 14
  | .pfstop a => encR 0x28 0 a.toNat 0 15
  | .cflush a => encR 0x28 0 a.toNat 0 16
  | .ldt mo d a sz => encMo mo (packR 0x29 d.toNat a.toNat (tkSizeCode sz) 0)
  | .rdm d a => encR 0x29 d.toNat a.toNat 0 1
  | .rdmSpm d a => encR 0x29 d.toNat a.toNat 0 2
  | .tkdrop a => encR 0x29 0 a.toNat 0 3
  | .atom mo ty op d a b => encAtom mo ty 0x2A d.toNat a b (atomOpCode op)
  | .atomSpm mo ty op d a b => encAtom mo ty 0x2B d.toNat a b (atomOpCode op)
  | .red mo ty op a b => encAtom mo ty 0x2A 0 a b (16 + atomOpCode op)
  | .redSpm mo ty op a b => encAtom mo ty 0x2B 0 a b (16 + atomOpCode op)
  | .fadd d a b => encR 0x2C d.toNat a.toNat b.toNat 0
  | .fsub d a b => encR 0x2C d.toNat a.toNat b.toNat 1
  | .fmul d a b => encR 0x2C d.toNat a.toNat b.toNat 2
  | .ffma d a b => encR 0x2C d.toNat a.toNat b.toNat 3
  | .fmin d a b => encR 0x2C d.toNat a.toNat b.toNat 4
  | .fmax d a b => encR 0x2C d.toNat a.toNat b.toNat 5
  | .fabs d a => encR 0x2C d.toNat a.toNat 0 6
  | .fneg d a => encR 0x2C d.toNat a.toNat 0 7
  | .fcmp cc c a b => encR 0x2C (fcondCode cc * 8 + c.toNat) a.toNat b.toNat 8
  | .fclass d a => encR 0x2C d.toNat a.toNat 0 9
  | .fround m d a => encR 0x2C d.toNat a.toNat (rmodeCode m) 10
  | .fdiv d a b => encR 0x2C d.toNat a.toNat b.toNat 11
  | .frcp d a => encR 0x2D d.toNat a.toNat 0 0
  | .frsq d a => encR 0x2D d.toNat a.toNat 0 1
  | .fsqrt d a => encR 0x2D d.toNat a.toNat 0 2
  | .fexp2 d a => encR 0x2D d.toNat a.toNat 0 3
  | .flog2 d a => encR 0x2D d.toNat a.toNat 0 4
  | .fsin d a => encR 0x2D d.toNat a.toNat 0 5
  | .fcos d a => encR 0x2D d.toNat a.toNat 0 6
  | .f2i ty m d a => encTy ty (packR 0x2E d.toNat a.toNat (rmodeCode m) 0)
  | .i2f ty d a => encTy ty (packR 0x2E d.toNat a.toNat 0 1)
  | .cvtTo d a s => encR 0x2E d.toNat a.toNat s.toNat 2
  | .cvtFrom d a s => encR 0x2E d.toNat a.toNat s.toNat 3
  | .pack d a s => encR 0x2E d.toNat a.toNat s.toNat 4
  | .unpk d a s => encR 0x2E d.toNat a.toNat s.toNat 5
  | .hadd2F16 d a b => encR 0x2F d.toNat a.toNat b.toNat 0
  | .hmul2F16 d a b => encR 0x2F d.toNat a.toNat b.toNat 1
  | .hfma2F16 d a b => encR 0x2F d.toNat a.toNat b.toNat 2
  | .hadd2Bf16 d a b => encR 0x2F d.toNat a.toNat b.toNat 8
  | .hmul2Bf16 d a b => encR 0x2F d.toNat a.toNat b.toNat 9
  | .hfma2Bf16 d a b => encR 0x2F d.toNat a.toNat b.toNat 10
  | .dot4 s d a b => enc0 {} { slot := s.toNat } (packR 0x2F d.toNat a.toNat b.toNat 16)
  | .dot4S8 d a b => encR 0x2F d.toNat a.toNat b.toNat 17
  | .cdet d a => encR 0x30 d.toNat a.toNat 0 0
  | .scanIncF32 d a => encR 0x30 d.toNat a.toNat 0 1
  | .scanExcF32 d a => encR 0x30 d.toNat a.toNat 0 2
  | .scanIncS32 d a => encR 0x30 d.toNat a.toNat 0 3
  | .scanExcS32 d a => encR 0x30 d.toNat a.toNat 0 4
  | .merge d a b => encR 0x30 d.toNat a.toNat b.toNat 5
  | .mergeKz d a b => encR 0x30 d.toNat a.toNat b.toNat 6
  | .prune p s d a => encR 0x30 d.toNat a.toNat (patternCode p * 8 + s.toNat) 7
  | .mma sa sb h a b t => enc01 { f := 1 } { slot := sa.toNat, f := sb.toNat } (tileX t)
      (packR 0x34 h.toNat a.toNat b.toNat (t.toNat % 16))
  | .mmaR sa sb h a b t => enc01 { f := 1 } { slot := sa.toNat, f := sb.toNat } (tileX t)
      (packR 0x34 h.toNat a.toNat b.toNat (16 + t.toNat % 16))
  | .mmas sa sb p h a b e t =>
      let q : Prefix0 := { e := e.toNat, f := patternCode p * 8 + sb.toNat, slot := sa.toNat }
      let w := packR 0x35 h.toNat a.toNat b.toNat (t.toNat % 16)
      match tileX t with
      | none => [packP0 q, w]
      | some m => [packP0 q, packP1 m, w]
  | .amalloc d a => encR 0x36 d.toNat a.toNat 0 0
  | .amfree a => encR 0x36 0 a.toNat 0 1
  | .amshape a b => encR 0x36 0 a.toNat b.toNat 2
  | .amrd d a b => encR 0x36 d.toNat a.toNat b.toNat 3
  | .amwr d a b => encR 0x36 d.toNat a.toNat b.toNat 4
  | .amzero a b => encR 0x36 0 a.toNat b.toNat 5
  | .amdrain d a b => encR 0x36 d.toNat a.toNat b.toNat 6
  | .amdrainAdd d a b => encR 0x36 d.toNat a.toNat b.toNat 7
  | .wbld mo s d a b => enc0 { slot := 1 }
      { scope := scopeCode mo.scope, ord := ordCode mo.ord, slot := s.toNat }
      (packR 0x36 d.toNat a.toNat b.toNat 8)
  | .mq mo d a => encMo mo (packR 0x37 d.toNat a.toNat 0 0)
  | .lrset l a => encR 0x37 l.toNat a.toNat 0 1
  | .mqwait a => encR 0x37 0 a.toNat 0 2
  | .tex d a b => encR 0x3B d.toNat a.toNat b.toNat 0
  | .tld d a b => encR 0x3B d.toNat a.toNat b.toNat 1
  | .tgath d a b => encR 0x3B d.toNat a.toNat b.toNat 2
  | .hgf d a b => encR 0x3B d.toNat a.toNat b.toNat 3
  | .hgs mo d a b => encMo mo (packR 0x3B d.toNat a.toNat b.toNat 4)
  | .hgsDet mo d a b => encMo mo (packR 0x3B d.toNat a.toNat b.toNat 5)
  | .hgsfence => encR 0x3B 0 0 0 6
  | .trav d a b => encR 0x3B d.toNat a.toNat b.toNat 7
  | .rscb => encR 0x3C 0 0 0 0
  | .rsce => encR 0x3C 0 0 0 1
  | .pixout f d a => encR 0x3C d.toNat a.toNat f.toNat 2
  | .csld a => encR 0x3C 0 a.toNat 0 3
  | .csrel a => encR 0x3C 0 a.toNat 0 4
  | .csrr d n => encS d.toNat 0 0 n
  | .csrw n a => encS 0 a.toNat 1 n
  | .svc c => encS 0 0 2 c
  | .eret => encS 0 0 3 0
  | .bkpt c => encS 0 0 4 c
  | _ => []

/-- The instruction in a decoder's result: a legal instruction alone. -/
def DecodeResult.legal : DecodeResult → Option Instr
  | .instr i _ => some i
  | _ => none

/-- The words of a table entry's bits: nbits bits of w, bit 0 the least significant bit of the first
word, and words of zeros above them up to the longest instruction (three words, R158). -/
def tableWords (nbits w : Nat) : List Word :=
  let v := w % 2 ^ nbits
  [BitVec.ofNat 32 v, BitVec.ofNat 32 (v / 2 ^ 32), BitVec.ofNat 32 (v / 2 ^ 64)]

/-- The instruction that the decoder reads from the bits of a table entry. -/
def decodeTableWord (nbits w : Nat) : Option Instr := (decode (tableWords nbits w)).legal

end Sys2Proof
end

