-- ==== Sys2Proof/Machine/Integer.lean ====
section
/-! DEFINITION. Integer register group, immediate forms and LUT3 (R148, R164, R187 to R192). -/

namespace Sys2Proof.Machine

/-! ## Helpers of R187 to R189 -/

/-- The thread whose system registers, and whose draws, an issue on the uniform pipe takes: the lowest of the bundle
(R186; log entry 12). On a lane pipeline it is the thread itself. -/
def leadOf (i : Instr) (s : State) (t : Nat) : Nat := if uniformPipe i then s.iss.ts.headD t else t

namespace State

/-- Ext(Get(f)). -/
def int (s : State) (t : Nat) (ty : Ty) (f : Field) : Int := extOf ty.signed ty.width (s.getTy t ty f)

/-- sh of R187: the amount in B modulo the width. -/
def shiftOf (s : State) (t : Nat) (ty : Ty) (b : Field) : Nat := (s.reg t b).toNat % ty.width

end State

/-- An instruction whose effect on a thread is Put(D, v), with v read before the bundle (R187). -/
def putLanes (i : Instr) (ty : Ty) (d : Field) (v : State → Nat → Int) (s : State) :
    Host.Outcome State Fault Refusal :=
  runLanes i (fun s0 s t => .ok (s.putTy t ty d (v s0 t))) s

/-- An instruction whose effect on a thread is one 32-bit register. -/
def regLanes (i : Instr) (d : Field) (v : State → Nat → Word) (s : State) :
    Host.Outcome State Fault Refusal :=
  runLanes i (fun s0 s t => .ok (s.setReg t d (v s0 t))) s

/-- An instruction whose effect on a thread is one predicate. -/
def predLanes (i : Instr) (c : BitVec 3) (v : State → Nat → Bool) (s : State) :
    Host.Outcome State Fault Refusal :=
  runLanes i (fun s0 s t => .ok (s.setPred t c (v s0 t))) s

/-- The quotient of R148: all bits set for a zero divisor. -/
def divInt (a b : Int) : Int := if b = 0 then -1 else a.tdiv b

/-- The remainder of R148: the dividend for a zero divisor. -/
def remInt (a b : Int) : Int := if b = 0 then a else a.tmod b

/-- Set bits below width w. -/
def popCount (w v : Nat) : Nat := (upTo w).countP fun i => bit v i

/-- Leading zero bits of a number of width w. -/
def leadZeros (w v : Nat) : Nat := if v = 0 then w else w - 1 - v.log2

/-- Trailing zero bits of a number of width w. -/
def trailZeros (w v : Nat) : Nat := ((upTo w).find? fun i => bit v i).getD w

/-- Bit i moved to bit w − 1 − i. -/
def revBits (w v : Nat) : Nat := ((upTo w).map fun i => if bit v i then 2 ^ (w - 1 - i) else 0).sum

/-- L of R189, from the control word and the width. -/
def fieldLen (w : Nat) (c : Word) : Nat :=
  let pos := c.toNat % 64
  if pos < w then Nat.min (c.toNat / 256 % 64) (w - pos) else 0

/-- BFX (R189). -/
def bfxOf (sg : Bool) (w a : Nat) (c : Word) : Int :=
  let l := fieldLen w c
  let v := a / 2 ^ (c.toNat % 64) % 2 ^ l
  if l = 0 then 0 else extOf sg l v

/-- BFI (R189). -/
def bfiOf (w a d : Nat) (c : Word) : Nat :=
  let pos := c.toNat % 64
  let l := fieldLen w c
  d - d / 2 ^ pos % 2 ^ l * 2 ^ pos + a % 2 ^ l * 2 ^ pos

/-- Comparison by a condition (R171, R189). -/
def condHolds (cc : Cond) (a b : Int) : Bool := match cc with
  | .eq => a = b
  | .ne => a ≠ b
  | .lt => a < b
  | .le => a ≤ b
  | .gt => b < a
  | .ge => b ≤ a

/-! ## Register group (R188) -/

/-- ADD. -/
def execAdd (ty : Ty) (d a b : Field) (s : State) : Host.Outcome State Fault Refusal :=
  putLanes (.add ty d a b) ty d (fun s t => s.int t ty a + s.int t ty b) s

/-- SUB. -/
def execSub (ty : Ty) (d a b : Field) (s : State) : Host.Outcome State Fault Refusal :=
  putLanes (.sub ty d a b) ty d (fun s t => s.int t ty a - s.int t ty b) s

/-- MUL. -/
def execMul (ty : Ty) (d a b : Field) (s : State) : Host.Outcome State Fault Refusal :=
  putLanes (.mul ty d a b) ty d (fun s t => s.int t ty a * s.int t ty b) s

/-- MULHI. -/
def execMulhi (ty : Ty) (d a b : Field) (s : State) : Host.Outcome State Fault Refusal :=
  putLanes (.mulhi ty d a b) ty d (fun s t => s.int t ty a * s.int t ty b / 2 ^ ty.width) s

/-- MAD. -/
def execMad (ty : Ty) (d a b : Field) (s : State) : Host.Outcome State Fault Refusal :=
  putLanes (.mad ty d a b) ty d (fun s t => s.int t ty a * s.int t ty b + s.int t ty d) s

/-- DIV. -/
def execDiv (ty : Ty) (d a b : Field) (s : State) : Host.Outcome State Fault Refusal :=
  putLanes (.div ty d a b) ty d (fun s t => divInt (s.int t ty a) (s.int t ty b)) s

/-- REM. -/
def execRem (ty : Ty) (d a b : Field) (s : State) : Host.Outcome State Fault Refusal :=
  putLanes (.rem ty d a b) ty d (fun s t => remInt (s.int t ty a) (s.int t ty b)) s

/-- MIN. -/
def execMin (ty : Ty) (d a b : Field) (s : State) : Host.Outcome State Fault Refusal :=
  putLanes (.min ty d a b) ty d (fun s t => min (s.int t ty a) (s.int t ty b)) s

/-- MAX. -/
def execMax (ty : Ty) (d a b : Field) (s : State) : Host.Outcome State Fault Refusal :=
  putLanes (.max ty d a b) ty d (fun s t => max (s.int t ty a) (s.int t ty b)) s

/-- ABS. -/
def execAbs (ty : Ty) (d a : Field) (s : State) : Host.Outcome State Fault Refusal :=
  putLanes (.abs ty d a) ty d (fun s t => (s.int t ty a).natAbs) s

/-- NEG. -/
def execNeg (ty : Ty) (d a : Field) (s : State) : Host.Outcome State Fault Refusal :=
  putLanes (.neg ty d a) ty d (fun s t => -s.int t ty a) s

/-- AND. -/
def execAnd (ty : Ty) (d a b : Field) (s : State) : Host.Outcome State Fault Refusal :=
  putLanes (.and ty d a b) ty d (fun s t => (Nat.land (s.getTy t ty a) (s.getTy t ty b) : Nat)) s

/-- OR. -/
def execOr (ty : Ty) (d a b : Field) (s : State) : Host.Outcome State Fault Refusal :=
  putLanes (.or ty d a b) ty d (fun s t => (Nat.lor (s.getTy t ty a) (s.getTy t ty b) : Nat)) s

/-- XOR. -/
def execXor (ty : Ty) (d a b : Field) (s : State) : Host.Outcome State Fault Refusal :=
  putLanes (.xor ty d a b) ty d (fun s t => (Nat.xor (s.getTy t ty a) (s.getTy t ty b) : Nat)) s

/-- ANDN. -/
def execAndn (ty : Ty) (d a b : Field) (s : State) : Host.Outcome State Fault Refusal :=
  putLanes (.andn ty d a b) ty d (fun s t => (andNot (s.getTy t ty a) (s.getTy t ty b) : Nat)) s

/-- SHL. -/
def execShl (ty : Ty) (d a b : Field) (s : State) : Host.Outcome State Fault Refusal :=
  putLanes (.shl ty d a b) ty d (fun s t => (s.getTy t ty a * 2 ^ s.shiftOf t ty b : Nat)) s

/-- SHR. -/
def execShr (ty : Ty) (d a b : Field) (s : State) : Host.Outcome State Fault Refusal :=
  putLanes (.shr ty d a b) ty d (fun s t => (s.getTy t ty a / 2 ^ s.shiftOf t ty b : Nat)) s

/-- SAR, arithmetic whatever the signedness. -/
def execSar (ty : Ty) (d a b : Field) (s : State) : Host.Outcome State Fault Refusal :=
  putLanes (.sar ty d a b) ty d
    (fun s t => extOf true ty.width (s.getTy t ty a) / 2 ^ s.shiftOf t ty b) s

/-- a || b of a funnel shift. -/
def funnel (s : State) (t : Nat) (a b : Field) : Nat := (s.reg t a).toNat * 2 ^ 32 + (s.reg t b).toNat

/-- FSHL. -/
def execFshl (ty : Ty) (d a b : Field) (s : State) : Host.Outcome State Fault Refusal :=
  regLanes (.fshl ty d a b) d (fun s t =>
    BitVec.ofNat 32 (funnel s t a b * 2 ^ ((s.reg t d).toNat % 32) / 2 ^ 32)) s

/-- FSHR. -/
def execFshr (ty : Ty) (d a b : Field) (s : State) : Host.Outcome State Fault Refusal :=
  regLanes (.fshr ty d a b) d (fun s t =>
    BitVec.ofNat 32 (funnel s t a b / 2 ^ ((s.reg t d).toNat % 32))) s

/-- POPC. -/
def execPopc (ty : Ty) (d a : Field) (s : State) : Host.Outcome State Fault Refusal :=
  putLanes (.popc ty d a) ty d (fun s t => popCount ty.width (s.getTy t ty a)) s

/-- CLZ. -/
def execClz (ty : Ty) (d a : Field) (s : State) : Host.Outcome State Fault Refusal :=
  putLanes (.clz ty d a) ty d (fun s t => leadZeros ty.width (s.getTy t ty a)) s

/-- CTZ. -/
def execCtz (ty : Ty) (d a : Field) (s : State) : Host.Outcome State Fault Refusal :=
  putLanes (.ctz ty d a) ty d (fun s t => trailZeros ty.width (s.getTy t ty a)) s

/-- BREV. -/
def execBrev (ty : Ty) (d a : Field) (s : State) : Host.Outcome State Fault Refusal :=
  putLanes (.brev ty d a) ty d (fun s t => revBits ty.width (s.getTy t ty a)) s

/-- BFX (R189). -/
def execBfx (ty : Ty) (d a b : Field) (s : State) : Host.Outcome State Fault Refusal :=
  putLanes (.bfx ty d a b) ty d
    (fun s t => bfxOf ty.signed ty.width (s.getTy t ty a) (s.reg t b)) s

/-- BFI (R189). -/
def execBfi (ty : Ty) (d a b : Field) (s : State) : Host.Outcome State Fault Refusal :=
  putLanes (.bfi ty d a b) ty d
    (fun s t => bfiOf ty.width (s.getTy t ty a) (s.getTy t ty d) (s.reg t b)) s

/-- SEXT and ZEXT: the low bits of the single register A, to 32 bits or to a pair (R189). -/
def extend (i : Instr) (sg : Bool) (ty : Ty) (d a : Field) (s : State) :
    Host.Outcome State Fault Refusal :=
  let w := Nat.min ty.width 32
  runLanes i (fun s0 s t =>
    let v := extOf sg w ((s0.reg t a).toNat % 2 ^ w)
    .ok (if ty.width = 64 then s.setPair t d (BitVec.ofInt 64 v) else s.setReg t d (BitVec.ofInt 32 v))) s

/-- SEXT. -/
def execSext (ty : Ty) (d a : Field) (s : State) : Host.Outcome State Fault Refusal :=
  extend (.sext ty d a) true ty d a s

/-- ZEXT. -/
def execZext (ty : Ty) (d a : Field) (s : State) : Host.Outcome State Fault Refusal :=
  extend (.zext ty d a) false ty d a s

/-- SEL. -/
def execSel (ty : Ty) (d a b : Field) (c : BitVec 3) (s : State) : Host.Outcome State Fault Refusal :=
  putLanes (.sel ty d a b c) ty d (fun s t => if s.pred t c then s.int t ty a else s.int t ty b) s

/-- MOV. -/
def execMov (ty : Ty) (d a : Field) (s : State) : Host.Outcome State Fault Refusal :=
  putLanes (.mov ty d a) ty d (fun s t => s.int t ty a) s

/-- LEA: pair plus a scaled index, whose scale and extension the type gives (R189). -/
def execLea (ty : Ty) (d a b : Field) (s : State) : Host.Outcome State Fault Refusal :=
  runLanes (.lea ty d a b) (fun s0 s t =>
    let i := extOf ty.signed 32 (s0.reg t b).toNat
    .ok (s.setPair t d (s0.pair t a + BitVec.ofInt 64 (i * (ty.width / 8 : Nat))))) s

/-- CMP (R189). -/
def execCmp (ty : Ty) (cc : Cond) (c : BitVec 3) (a b : Field) (s : State) :
    Host.Outcome State Fault Refusal :=
  predLanes (.cmp ty cc c a b) c (fun s t => condHolds cc (s.int t ty a) (s.int t ty b)) s

/-! ## Immediate forms (R190, R191) -/

/-- ADDI. -/
def execAddi (d a : Field) (imm : Word) (s : State) : Host.Outcome State Fault Refusal :=
  regLanes (.addi d a imm) d (fun s t => s.reg t a + imm) s

/-- ANDI. -/
def execAndi (d a : Field) (imm : Word) (s : State) : Host.Outcome State Fault Refusal :=
  regLanes (.andi d a imm) d (fun s t => s.reg t a &&& imm) s

/-- ORI. -/
def execOri (d a : Field) (imm : Word) (s : State) : Host.Outcome State Fault Refusal :=
  regLanes (.ori d a imm) d (fun s t => s.reg t a ||| imm) s

/-- XORI. -/
def execXori (d a : Field) (imm : Word) (s : State) : Host.Outcome State Fault Refusal :=
  regLanes (.xori d a imm) d (fun s t => s.reg t a ^^^ imm) s

/-- SHLI. -/
def execShli (d a : Field) (n : BitVec 5) (s : State) : Host.Outcome State Fault Refusal :=
  regLanes (.shli d a n) d (fun s t => s.reg t a <<< n.toNat) s

/-- SHRI. -/
def execShri (d a : Field) (n : BitVec 5) (s : State) : Host.Outcome State Fault Refusal :=
  regLanes (.shri d a n) d (fun s t => s.reg t a >>> n.toNat) s

/-- SARI. -/
def execSari (d a : Field) (n : BitVec 5) (s : State) : Host.Outcome State Fault Refusal :=
  regLanes (.sari d a n) d (fun s t => (s.reg t a).sshiftRight n.toNat) s

/-- CMPI: the immediate is sign-extended to 64 bits and cut to the width (R190). -/
def execCmpi (ty : Ty) (cc : Cond) (c : BitVec 3) (a : Field) (imm : Word) (s : State) :
    Host.Outcome State Fault Refusal :=
  predLanes (.cmpi ty cc c a imm) c (fun s t =>
    condHolds cc (s.int t ty a) (extOf ty.signed ty.width (wrap ty.width imm.toInt))) s

/-- MOVI. -/
def execMovi (d : Field) (imm : Word) (s : State) : Host.Outcome State Fault Refusal :=
  regLanes (.movi d imm) d (fun _ _ => imm) s

/-- MOVHI: bits 31:19 replaced. -/
def execMovhi (d : Field) (h : BitVec 13) (s : State) : Host.Outcome State Fault Refusal :=
  regLanes (.movhi d h) d (fun s t => h ++ (s.reg t d).extractLsb' 0 19) s

/-- ADDPC: the PC of the first word plus four times the offset. -/
def execAddpc (d : Field) (off : BitVec 44) (s : State) : Host.Outcome State Fault Refusal :=
  runLanes (.addpc d off) (fun s0 s t =>
    .ok (s.setPair t d (s0.iss.pc + BitVec.ofInt 64 (4 * off.toInt)))) s

/-! ## LUT3 (R164, R192) -/

/-- The result of LUT3 on the old D, A and B. -/
def lutWord (table : BitVec 8) (d a b : Word) : Word :=
  BitVec.ofNat 32 (((upTo 32).map fun i =>
    let k := (if d.getLsbD i then 4 else 0) + (if a.getLsbD i then 2 else 0)
      + (if b.getLsbD i then 1 else 0)
    if table.getLsbD k then 2 ^ i else 0).sum)

/-- LUT3. -/
def execLut3 (table : BitVec 8) (d a b : Field) (s : State) : Host.Outcome State Fault Refusal :=
  regLanes (.lut3 table d a b) d (fun s t => lutWord table (s.reg t d) (s.reg t a) (s.reg t b)) s

end Sys2Proof.Machine
end

