-- ==== Sys2Proof/Machine/Float.lean ====
section
/-! DEFINITION. FP32 lane operations, conversions, packed 16-bit and dot products (R142 to R144, R246 to
R254). -/

namespace Sys2Proof.Machine

/-- What a vector instruction gives a thread: the words of its destination run, flags, and how many random
words it drew (R137, R141). -/
structure FpRes where
  words : List Word
  flags : Flags := 0
  draws : Nat := 0

/-- A vector instruction for a bundle. As it reads and writes FPSTAT it acts for every thread, in ascending order, on
the uniform pipe too (R186, R344): each thread makes its own draws and receives its own flags. -/
def fpLanes (i : Instr) (d : Field) (f : State → Nat → Except TrapInfo FpRes) (s : State) :
    Host.Outcome State Fault Refusal :=
  runLanes i (fun s0 s t =>
    match f s0 t with
    | .error ti => .trap ti
    | .ok r => .ok (((s.setRun t d r.words).setFlags t r.flags).advSrn t r.draws)) s

/-- An FP32 operation with one result word. -/
def fpOne (i : Instr) (d : Field) (f : State → Nat → Word × Flags) (s : State) :
    Host.Outcome State Fault Refusal :=
  fpLanes i d (fun s t => let r := f s t
                          .ok { words := [r.1], flags := r.2 }) s

/-! ## Arithmetic (R247) -/

/-- FADD. -/
def execFadd (d a b : Field) (s : State) : Host.Outcome State Fault Refusal :=
  fpOne (.fadd d a b) d (fun s t => fAdd (s.reg t a) (s.reg t b)) s

/-- FSUB. -/
def execFsub (d a b : Field) (s : State) : Host.Outcome State Fault Refusal :=
  fpOne (.fsub d a b) d (fun s t => fSub (s.reg t a) (s.reg t b)) s

/-- FMUL. -/
def execFmul (d a b : Field) (s : State) : Host.Outcome State Fault Refusal :=
  fpOne (.fmul d a b) d (fun s t => fMul (s.reg t a) (s.reg t b)) s

/-- FFMA. -/
def execFfma (d a b : Field) (s : State) : Host.Outcome State Fault Refusal :=
  fpOne (.ffma d a b) d (fun s t => fFma (s.reg t a) (s.reg t b) (s.reg t d)) s

/-- FMIN. -/
def execFmin (d a b : Field) (s : State) : Host.Outcome State Fault Refusal :=
  fpOne (.fmin d a b) d (fun s t => (fMin (s.reg t a) (s.reg t b), 0)) s

/-- FMAX. -/
def execFmax (d a b : Field) (s : State) : Host.Outcome State Fault Refusal :=
  fpOne (.fmax d a b) d (fun s t => (fMax (s.reg t a) (s.reg t b), 0)) s

/-- FDIV. -/
def execFdiv (d a b : Field) (s : State) : Host.Outcome State Fault Refusal :=
  fpOne (.fdiv d a b) d (fun s t => fDiv (s.reg t a) (s.reg t b)) s

/-! ## Sign, class, integral rounding, comparison (R248) -/

/-- A sign change of a pattern: a NaN gives the canonical NaN. -/
def fSign (f : Word → Word) (a : Word) : Word := if (f32 a).isNan then nan32 else f a

/-- FABS. -/
def execFabs (d a : Field) (s : State) : Host.Outcome State Fault Refusal :=
  fpOne (.fabs d a) d (fun s t => (fSign (· &&& 0x7FFFFFFF#32) (s.reg t a), 0)) s

/-- FNEG. -/
def execFneg (d a : Field) (s : State) : Host.Outcome State Fault Refusal :=
  fpOne (.fneg d a) d (fun s t => (fSign (· ^^^ 0x80000000#32) (s.reg t a), 0)) s

/-- The mode number of an RMode (R170). -/
def RMode.number : RMode → Nat
  | .rn => 0
  | .rz => 1
  | .rd => 2
  | .ru => 3

/-- FROUND of a pattern. -/
def fRound (m : RMode) (a : Word) : Word := match f32 a with
  | .nan => nan32
  | .inf _ => a
  | .fin neg num den => (roundFP32 .rne (.fin neg (roundInt (RMode.number m) neg num den).1 1)).1

/-- FROUND. -/
def execFround (m : RMode) (d a : Field) (s : State) : Host.Outcome State Fault Refusal :=
  fpOne (.fround m d a) d (fun s t => (fRound m (s.reg t a), 0)) s

/-- The class bit of a pattern. -/
def fClass (a : Word) : Word :=
  let e := a.toNat / 2 ^ 23 % 256
  let m := a.toNat % 2 ^ 23
  let neg := a.getLsbD 31
  let k := if e = 255 && m ≠ 0 then 8
    else if e = 255 then (if neg then 0 else 7)
    else if e ≠ 0 then (if neg then 1 else 6)
    else if m ≠ 0 then (if neg then 2 else 5)
    else (if neg then 3 else 4)
  BitVec.ofNat 32 (2 ^ k)

/-- FCLASS. -/
def execFclass (d a : Field) (s : State) : Host.Outcome State Fault Refusal :=
  fpOne (.fclass d a) d (fun s t => (fClass (s.reg t a), 0)) s

/-- The comparison of FCMP. -/
def fCompare (cc : FCond) (a b : Word) : Bool :=
  let x := f32 a
  let y := f32 b
  let ordered := !x.isNan && !y.isNan
  match cc with
  | .eq => veq x y
  | .ne => !veq x y
  | .lt => ordered && vlt x y
  | .le => ordered && !vlt y x
  | .gt => ordered && vlt y x
  | .ge => ordered && !vlt x y
  | .un => !ordered
  | .or => ordered

/-- FCMP. -/
def execFcmp (cc : FCond) (c : BitVec 3) (a b : Field) (s : State) : Host.Outcome State Fault Refusal :=
  predLanes (.fcmp cc c a b) c (fun s t => fCompare cc (s.reg t a) (s.reg t b)) s

/-! ## Special functions (R249) -/

/-- FRCP. -/
def execFrcp (d a : Field) (s : State) : Host.Outcome State Fault Refusal :=
  fpOne (.frcp d a) d (fun s t => fRcp (s.reg t a)) s

/-- FRSQ. -/
def execFrsq (d a : Field) (s : State) : Host.Outcome State Fault Refusal :=
  fpOne (.frsq d a) d (fun s t => fRsq (s.reg t a)) s

/-- FSQRT. -/
def execFsqrt (d a : Field) (s : State) : Host.Outcome State Fault Refusal :=
  fpOne (.fsqrt d a) d (fun s t => fSqrt (s.reg t a)) s

/-- FEXP2. -/
def execFexp2 (d a : Field) (s : State) : Host.Outcome State Fault Refusal :=
  fpOne (.fexp2 d a) d (fun s t => fExp2 (s.reg t a)) s

/-- FLOG2. -/
def execFlog2 (d a : Field) (s : State) : Host.Outcome State Fault Refusal :=
  fpOne (.flog2 d a) d (fun s t => fLog2 (s.reg t a)) s

/-- FSIN. -/
def execFsin (d a : Field) (s : State) : Host.Outcome State Fault Refusal :=
  fpOne (.fsin d a) d (fun s t => fTrig false (s.reg t a)) s

/-- FCOS. -/
def execFcos (d a : Field) (s : State) : Host.Outcome State Fault Refusal :=
  fpOne (.fcos d a) d (fun s t => fTrig true (s.reg t a)) s

/-! ## F2I, I2F (R250) -/

/-- F2I of a pattern: an integer in the type's range, and flags. -/
def fToInt (ty : Ty) (m : RMode) (a : Word) : Int × Flags :=
  let w := ty.width
  let lo : Int := if ty.signed then -(2 ^ (w - 1)) else 0
  let hi : Int := if ty.signed then 2 ^ (w - 1) - 1 else 2 ^ w - 1
  match f32 a with
  | .nan => (0, flagNV)
  | .inf neg => (if neg then lo else hi, flagNV)
  | .fin neg num den =>
    let (q, nx) := roundInt (RMode.number m) neg num den
    let v : Int := if neg then -(q : Int) else q
    if v < lo then (lo, flagNV) else if hi < v then (hi, flagNV) else (v, flagIf nx flagNX)

/-- F2I. -/
def execF2i (ty : Ty) (m : RMode) (d a : Field) (s : State) : Host.Outcome State Fault Refusal :=
  fpLanes (.f2i ty m d a) d (fun s t =>
    let r := fToInt ty m (s.reg t a)
    .ok { words := wordsOf ty.regs (toBytes 8 (wrap ty.width r.1)), flags := r.2 }) s

/-- I2F of an integer. -/
def intToF (v : Int) : Word × Flags := roundFP32 .rne (.fin (v < 0) v.natAbs 1)

/-- I2F. -/
def execI2f (ty : Ty) (d a : Field) (s : State) : Host.Outcome State Fault Refusal :=
  fpOne (.i2f ty d a) d (fun s t => intToF (s.int t ty a)) s

/-! ## Values through a slot (R133 to R136, R140, R251, R252) -/

/-- The slot holds a shared-exponent type. -/
def SlotVal.isBlock (v : SlotVal) : Bool := (slotTy v.fs).block ≠ 0

/-- Random words that n values through a slot draw. -/
def SlotVal.draws (v : SlotVal) (n : Nat) : Nat := if slotStochastic v.fs then n else 0

/-- A pattern encoded into a slot as the n-th rounded value of a stream (R134, R135, R251). -/
def SlotVal.put (v : SlotVal) (key n : Nat) (a : Word) : Nat × Flags :=
  let ty := slotTy v.fs
  if scaleOk v.scale then
    ty.encode (slotMode v.fs key n) (slotSat v.fs) (vdiv (f32 a) (f32 v.scale)).1
  else (ty.invalid, flagNV)

/-- value_T(x) × S of an element: the value, and NV where a NaN comes from no NaN (R134, R135, R139). -/
def SlotVal.get (v : SlotVal) (x : Nat) : Val × Flags :=
  let e := (slotTy v.fs).value x
  if e.isNan then (.nan, 0)
  else if scaleOk v.scale then vmul e (f32 v.scale)
  else (.nan, flagNV)

/-- RESERVED_FIELD for a slot, whose number TRAPAUX gives. -/
def badSlot (n : BitVec 3) : TrapInfo := { cause := cRESERVED, aux := n.toNat }

/-- CVT.to. -/
def execCvtTo (d a : Field) (n : BitVec 3) (s : State) : Host.Outcome State Fault Refusal :=
  fpLanes (.cvtTo d a n) d (fun s t =>
    let v := s.slot t n.toNat
    if v.isBlock then .error (badSlot n)
    else
      let r := v.put (s.streamKey t) (s.srn t) (s.reg t a)
      .ok { words := [BitVec.ofNat 32 r.1], flags := r.2, draws := v.draws 1 }) s

/-- CVT.from. -/
def execCvtFrom (d a : Field) (n : BitVec 3) (s : State) : Host.Outcome State Fault Refusal :=
  fpLanes (.cvtFrom d a n) d (fun s t =>
    let v := s.slot t n.toNat
    if v.isBlock then .error (badSlot n)
    else
      let r := finish32 (v.get ((s.reg t a).toNat % 2 ^ (slotTy v.fs).bits))
      .ok { words := [r.1], flags := r.2 }) s

/-- n of R252. -/
def SlotTy.packed : SlotTy → Nat
  | .fp32 => 1
  | .fp16 | .bf16 => 2
  | .e4m3 | .e5m2 | .int8 => 4
  | .int4 => 8
  | _ => 16

/-- Length of the storage run of R252. -/
def SlotTy.stored : SlotTy → Nat
  | .sxm2 => 2
  | .sxm4 => 3
  | .sxm7 => 5
  | _ => 1

/-- The run checks that only values fix (R155, R252, R393), and an uncorrectable register of a run that is
read (R358). -/
def runCheck (s : State) (t : Nat) (f : Field) (n : Nat) (reads : Bool) : Option TrapInfo :=
  let g := s.iss.g
  let G := s.group g
  let h := s.thread g t
  let lo := s.xnum g t f.toNat
  if !runOk f n then some { cause := cRESERVED }
  else if isK f then
    if reads then (((upTo n).map fun j => s.knum g (f.toNat + j)).find? fun m => G.badK.contains m).map
      fun m => { cause := cECC, addr := m, aux := G.kind.unit }
    else none
  else if G.alloc < lo + n then some { cause := cREGOUT, aux := Nat.max lo G.alloc }
  else if reads then (((upTo n).map (lo + ·)).find? fun m => h.badX.contains m).map
    fun m => { cause := cECC, addr := m, aux := G.kind.unit }
  else none

/-- The first failure of several run checks. -/
def runChecks (s : State) (t : Nat) (l : List (Field × Nat × Bool)) : Option TrapInfo :=
  let found := l.filterMap fun u => runCheck s t u.1 u.2.1 u.2.2
  match found.find? fun ti => ti.cause = cRESERVED with
  | some ti => some ti
  | none => match leastBy TrapInfo.aux (found.filter fun ti => ti.cause = cREGOUT) with
    | some ti => some ti
    | none => found.head?

/-- The storage words and flags of PACK for n elements (R252). -/
def packWords (v : SlotVal) (key srn : Nat) (xs : List Word) : Nat × Flags :=
  let ty := slotTy v.fs
  if ty.block ≠ 0 then
    if scaleOk v.scale then
      encodeBlock ty.block (slotSat v.fs)
        (xs.zipIdx.map fun x => ((vdiv (f32 x.1) (f32 v.scale)).1, slotMode v.fs key ((srn + x.2) % 2 ^ 24)))
    else (255, flagNV)
  else
    xs.zipIdx.foldl (fun r x =>
      let e := v.put key ((srn + x.2) % 2 ^ 24) x.1
      (r.1 + e.1 * 2 ^ (ty.bits * x.2), r.2 ||| e.2)) (0, 0)

/-- PACK. -/
def execPack (d a : Field) (n : BitVec 3) (s : State) : Host.Outcome State Fault Refusal :=
  fpLanes (.pack d a n) d (fun s t =>
    let v := s.slot t n.toNat
    let ty := slotTy v.fs
    match runChecks s t [(d, ty.stored, false), (a, ty.packed, true)] with
    | some ti => .error ti
    | none =>
      let r := packWords v (s.streamKey t) (s.srn t) (s.run t a ty.packed)
      .ok { words := wordsOf ty.stored (toBytes (4 * ty.stored) r.1), flags := r.2
            draws := v.draws ty.packed }) s

/-- The raw values of a storage run (R252). -/
def unpackVals (ty : SlotTy) (bits : Nat) : List Val :=
  (upTo ty.packed).map fun i =>
    if ty.block ≠ 0 then blockValue ty.block bits i
    else ty.value (bits / 2 ^ (ty.bits * i) % 2 ^ ty.bits)

/-- UNPK. An SXM element of −2^128, which FP32 does not hold although R252 calls every value exact, becomes −∞ and
raises no flag (DESIGN CHOICE, log entry 110). -/
def execUnpk (d a : Field) (n : BitVec 3) (s : State) : Host.Outcome State Fault Refusal :=
  fpLanes (.unpk d a n) d (fun s t =>
    let ty := slotTy (s.slot t n.toNat).fs
    match runChecks s t [(d, ty.packed, false), (a, ty.stored, true)] with
    | some ti => .error ti
    | none =>
      let bits := ofBytes (bytesOf (s.run t a ty.stored))
      .ok { words := (unpackVals ty bits).map fun v => (roundFP32 .rne v).1 }) s

/-! ## Packed 16-bit operations (R144, R253) -/

/-- One 16-bit operation on each half of the registers. -/
def halves (f : Fmt) (op : Val → Val → Val → Val × Flags) (a b d : Word) : Word × Flags :=
  let lane := fun (e : Nat) =>
    let part := fun (w : Word) => f.value (w.toNat / 2 ^ (16 * e) % 65536)
    let x := op (part a) (part b) (part d)
    let r := f.round .rne false x.1
    (r.1, r.2 ||| x.2)
  let l := lane 0
  let h := lane 1
  (BitVec.ofNat 32 (l.1 + 65536 * h.1), l.2 ||| h.2)

/-- HADD2.f16. -/
def execHadd2F16 (d a b : Field) (s : State) : Host.Outcome State Fault Refusal :=
  fpOne (.hadd2F16 d a b) d
    (fun s t => halves fp16 (fun x y _ => vadd x y) (s.reg t a) (s.reg t b) (s.reg t d)) s

/-- HMUL2.f16. -/
def execHmul2F16 (d a b : Field) (s : State) : Host.Outcome State Fault Refusal :=
  fpOne (.hmul2F16 d a b) d
    (fun s t => halves fp16 (fun x y _ => vmul x y) (s.reg t a) (s.reg t b) (s.reg t d)) s

/-- x × y + z with NV only where no operand is NaN (R139). -/
def quietFma (x y z : Val) : Val × Flags :=
  let r := vfma x y z
  (r.1, if x.isNan || y.isNan || z.isNan then 0 else r.2)

/-- HFMA2.f16. -/
def execHfma2F16 (d a b : Field) (s : State) : Host.Outcome State Fault Refusal :=
  fpOne (.hfma2F16 d a b) d
    (fun s t => halves fp16 quietFma (s.reg t a) (s.reg t b) (s.reg t d)) s

/-- HADD2.bf16. -/
def execHadd2Bf16 (d a b : Field) (s : State) : Host.Outcome State Fault Refusal :=
  fpOne (.hadd2Bf16 d a b) d
    (fun s t => halves bf16 (fun x y _ => vadd x y) (s.reg t a) (s.reg t b) (s.reg t d)) s

/-- HMUL2.bf16. -/
def execHmul2Bf16 (d a b : Field) (s : State) : Host.Outcome State Fault Refusal :=
  fpOne (.hmul2Bf16 d a b) d
    (fun s t => halves bf16 (fun x y _ => vmul x y) (s.reg t a) (s.reg t b) (s.reg t d)) s

/-- HFMA2.bf16. -/
def execHfma2Bf16 (d a b : Field) (s : State) : Host.Outcome State Fault Refusal :=
  fpOne (.hfma2Bf16 d a b) d
    (fun s t => halves bf16 quietFma (s.reg t a) (s.reg t b) (s.reg t d)) s

/-! ## Dot products (R254) -/

/-- The exact sum of values, with NV where a NaN comes from no NaN (R139). -/
def sumVals (l : List Val) : Val × Flags :=
  l.foldl (fun acc v =>
    let r := vadd acc.1 v
    (r.1, acc.2 ||| r.2)) (.fin true 0 1, 0)

/-- DOT4 of two registers and an addend: the products and d are summed exactly and rounded once. -/
def dotFour (v : SlotVal) (a b d : Word) : Word × Flags :=
  let elem := fun (w : Word) (i : Nat) => w.toNat / 2 ^ (8 * i) % 256
  let raw := fun (w : Word) (i : Nat) => (slotTy v.fs).value (elem w i)
  let prods := (upTo 4).map fun i =>
    let x := v.get (elem a i)
    let y := v.get (elem b i)
    let p := vmul x.1 y.1
    (p.1, x.2 ||| y.2 ||| p.2)
  let sum := sumVals (prods.map Prod.fst ++ [f32 d])
  let nans : Bool := (f32 d).isNan || (upTo 4).any fun i => (raw a i).isNan || (raw b i).isNan
  let flags := (prods.map Prod.snd).foldl (· ||| ·) sum.2
  let r := roundFP32 .rne sum.1
  (r.1, if nans then r.2 else r.2 ||| flags)

/-- DOT4. -/
def execDot4 (n : BitVec 3) (d a b : Field) (s : State) : Host.Outcome State Fault Refusal :=
  fpLanes (.dot4 n d a b) d (fun s t =>
    let v := s.slot t n.toNat
    match slotTy v.fs with
    | .e4m3 | .e5m2 | .int8 =>
      let r := dotFour v (s.reg t a) (s.reg t b) (s.reg t d)
      .ok { words := [r.1], flags := r.2 }
    | _ => .error (badSlot n)) s

/-- DOT4.s8. -/
def execDot4S8 (d a b : Field) (s : State) : Host.Outcome State Fault Refusal :=
  regLanes (.dot4S8 d a b) d (fun s t =>
    let elem := fun (w : Word) (i : Nat) => extOf true 8 (w.toNat / 2 ^ (8 * i) % 256)
    BitVec.ofNat 32 (wrap 32 ((s.reg t d).toNat
      + ((upTo 4).map fun i => elem (s.reg t a) i * elem (s.reg t b) i).sum))) s

end Sys2Proof.Machine
end

