-- ==== Sys2Proof/Machine/Cross.lean ====
section
/-! DEFINITION. CDET, SCAN, MERGE and PRUNE (R147, R255 to R259). -/

namespace Sys2Proof.Machine

/-- The threads that a scan sees: the bundle, or one execution on the uniform pipe (R36). -/
def scanned (i : Instr) (s : State) : List Nat :=
  if uniformPipe i then s.iss.ts.take 1 else lanesOk i s

/-- CDET: the earlier holders of a thread's value. -/
def earlier (i : Instr) (a : Field) (s : State) (t : Nat) : Nat :=
  ((lanesOk i s).map fun q => if q < t && s.reg q a = s.reg t a then 2 ^ q else 0).sum

/-- CDET. As it writes a predicate it acts for every thread, on the uniform pipe too (R186, R344). -/
def execCdet (d a : Field) (s : State) : Host.Outcome State Fault Refusal :=
  let i : Instr := .cdet d a
  runLanes i (fun s0 s t =>
    let m := earlier i a s0 t
    .ok ((s.setReg t d (BitVec.ofNat 32 m)).setPred t 0#3 (m = 0))) s

/-- The inclusive results of a scan, with the flags of each and the value before it (R256). -/
def scanFrom (add : Word → Word → Word × Flags) : Word → List (Nat × Word) → List (Nat × Word × Word × Flags)
  | _, [] => []
  | e, (t, v) :: rest =>
    let r := add e v
    (t, e, r.1, r.2) :: scanFrom add r.1 rest

/-- SCAN over the threads of the bundle (R147, R256). -/
def scan (i : Instr) (inc : Bool) (add : Word → Word → Word × Flags) (d a : Field) (s : State) :
    Host.Outcome State Fault Refusal :=
  let all := scanFrom add 0#32 ((scanned i s).map fun t => (t, s.reg t a))
  runLanes i (fun s0 s t =>
    let l := leadOf i s0 t
    match all.find? fun r => r.1 = l with
    | some (_, e, v, f) => .ok ((s.setReg t d (if inc then v else e)).setFlags t f)
    | none => .ok s) s

/-- SCAN.inc.f32. -/
def execScanIncF32 (d a : Field) (s : State) : Host.Outcome State Fault Refusal :=
  scan (.scanIncF32 d a) true fAdd d a s

/-- SCAN.exc.f32. -/
def execScanExcF32 (d a : Field) (s : State) : Host.Outcome State Fault Refusal :=
  scan (.scanExcF32 d a) false fAdd d a s

/-- SCAN.inc.s32. -/
def execScanIncS32 (d a : Field) (s : State) : Host.Outcome State Fault Refusal :=
  scan (.scanIncS32 d a) true (fun x y => (x + y, 0)) d a s

/-- SCAN.exc.s32. -/
def execScanExcS32 (d a : Field) (s : State) : Host.Outcome State Fault Refusal :=
  scan (.scanExcS32 d a) false (fun x y => (x + y, 0)) d a s

/-! ## MERGE (R257, R258) -/

/-- The operands of a MERGE: starts and counts of the two runs, and the output. -/
structure MergeArgs where
  s1 : Nat
  n1 : Nat
  s2 : Nat
  n2 : Nat
  o : Nat
deriving DecidableEq, Repr

/-- The checks before anything is read or written (R258). -/
def mergeCheck (s : State) (m : MergeArgs) : Option TrapInfo :=
  let g := s.iss.g
  let bound := fun (a n : Nat) => if n = 0 then none else s.spmBad g a n
  match [m.s1, m.s2, m.o].find? fun a => a % 8 ≠ 0 with
  | some a => some { cause := cMISALIGN, addr := a }
  | none => ([bound m.s1 (8 * m.n1), bound m.s2 (8 * m.n2), bound m.o (8 * (m.n1 + m.n2))].findSome? id)

/-- An entry of a run: index and value; none where it cannot be read. -/
def runEntry (s : State) (b a : Nat) : Nat × Word :=
  (ofBytes (s.spmRead b a 4), BitVec.ofNat 32 (ofBytes (s.spmRead b (a + 4) 4)))

/-- The first wait or poison of the lines that a step of a MERGE reads. -/
def mergeReady (s : State) (b : Nat) (reads : List Nat) : SpmRes :=
  match (reads.map fun a => s.spmReady b a 8).find? fun r => match r with
    | .ok => false
    | _ => true with
  | some r => r
  | none => .ok

/-- The steps of MERGE from positions i, j and count c (R258); the fuel counts entries. -/
def mergeGo (m : MergeArgs) (kz : Bool) (d : Field) (b t : Nat) : Nat → State → Nat → Nat → Nat → LaneRes
  | 0, s, _, _, c => .ok (s.setReg t d (BitVec.ofNat 32 c))
  | k + 1, s, i, j, c =>
    if m.n1 ≤ i ∧ m.n2 ≤ j then .ok (s.setReg t d (BitVec.ofNat 32 c))
    else
      let a1 := m.s1 + 8 * i
      let a2 := m.s2 + 8 * j
      let reads := (if i < m.n1 then [a1] else []) ++ (if j < m.n2 then [a2] else [])
      match mergeReady s b reads with
      | .wait w => .wait s w
      | .trap ti => .part s ti
      | .ok =>
        let e1 := runEntry s b a1
        let e2 := runEntry s b a2
        let one := m.n2 ≤ j || (i < m.n1 && e1.1 < e2.1)
        let two := !one && (m.n1 ≤ i || e2.1 < e1.1)
        let sum := fAdd e1.2 e2.2
        let e := if one then e1 else if two then e2 else (e1.1, sum.1)
        let s := if one || two then s else s.setFlags t sum.2
        let keep := kz || !(f32 e.2).isZero
        let s := if keep then s.spmWrite b (m.o + 8 * c) (toBytes 4 e.1 ++ toBytes 4 e.2.toNat) else s
        mergeGo m kz d b t k s (if two then i else i + 1) (if one then j else j + 1)
          (if keep then c + 1 else c)

/-- MERGE for a bundle: the threads merge one after another. One that must wait for a line has written
nothing yet, and starts again. -/
def merge (i : Instr) (kz : Bool) (d a b : Field) (s : State) : Host.Outcome State Fault Refusal :=
  runLanes i (fun s0 s t =>
    let g := s.iss.g
    let m : MergeArgs :=
      { s1 := (s0.reg t a).toNat, n1 := (s0.regAt t a 1).toNat, s2 := (s0.regAt t a 2).toNat
        n2 := (s0.regAt t a 3).toNat, o := (s0.reg t b).toNat }
    match mergeCheck s m with
    | some ti => .trap ti
    | none =>
      if s.reading g t then .wait s .loads
      else match mergeGo m kz d (s.group g).blk t (m.n1 + m.n2 + 1) s 0 0 0 with
        | .wait _ w => .wait s w
        | r => r) s

/-- MERGE. -/
def execMerge (d a b : Field) (s : State) : Host.Outcome State Fault Refusal :=
  merge (.merge d a b) false d a b s

/-- MERGE.kz. -/
def execMergeKz (d a b : Field) (s : State) : Host.Outcome State Fault Refusal :=
  merge (.mergeKz d a b) true d a b s

/-! ## PRUNE (R259) -/

/-- M, N and the number of groups of a pattern. -/
def Pattern.shape : Pattern → Nat × Nat × Nat
  | .k2of4 => (4, 2, 2)
  | .k1of4 => (4, 1, 2)
  | .k4of8 => (8, 4, 1)
  | .k2of8 => (8, 2, 1)

/-- Element i is chosen before element j: larger magnitude, ties to the lower index; a NaN is above every
number. -/
def outranks (xs : List Word) (i j : Nat) : Bool :=
  let x := f32 (xs.getD i 0)
  let y := f32 (xs.getD j 0)
  if x.isNan && y.isNan then i < j else magLt y x || (!magLt x y && i < j)

/-- The kept elements of one group in ascending index, as index in the group and value; pads follow. -/
def keptOf (m n base : Nat) (xs : List Word) (real : Nat) : List (Nat × Word) :=
  let all := (upTo m).filter fun i => base + i < real
  let kept := all.filter fun i =>
    (all.filter fun j => j ≠ i && outranks xs (base + j) (base + i)).length < n
  let got := kept.map fun i => (i, xs.getD (base + i) 0)
  (got ++ List.replicate n (m - 1, (0 : Word))).take n

/-- The kept elements of every group. -/
def pruned (p : Pattern) (xs : List Word) (real : Nat) : List (Nat × Word) :=
  let (m, n, groups) := Pattern.shape p
  ((upTo groups).map fun g => keptOf m n (m * g) xs real).flatten

/-- The metadata word. -/
def pruneMeta (p : Pattern) (kept : List (Nat × Word)) : Word :=
  let w := (Pattern.shape p).1.log2
  BitVec.ofNat 32 (kept.zipIdx.map fun x => x.1.1 * 2 ^ (w * x.2)).sum

/-- Registers that the kept elements of a PRUNE fill (R259). -/
def pruneRegs (p : Pattern) (ty : SlotTy) : Nat :=
  ((Pattern.shape p).2.1 * (Pattern.shape p).2.2 * ty.bits + 31) / 32

/-- PRUNE. -/
def execPrune (p : Pattern) (n : BitVec 3) (d a : Field) (s : State) : Host.Outcome State Fault Refusal :=
  fpLanes (.prune p n d a) d (fun s t =>
    let v := s.slot t n.toNat
    let ty := slotTy v.fs
    if v.isBlock then .error (badSlot n)
    else
      let (_, keep, groups) := Pattern.shape p
      let regs := pruneRegs p ty
      match runChecks s t [(d, 1 + regs, false)] with
      | some ti => .error ti
      | none =>
        let real := Nat.min ((s.reg t d).toNat % 16) 8
        let kept := pruned p (s.run t a 8) real
        let r := packWords v (s.streamKey t) (s.srn t) (kept.map Prod.snd)
        .ok { words := pruneMeta p kept :: wordsOf regs (toBytes (4 * regs) r.1), flags := r.2
              draws := v.draws (keep * groups) }) s

end Sys2Proof.Machine
end

