-- ==== Sys2Proof/Machine/Micro.lean ====
section
/-! DEFINITION. Control stores (R276, R283), the microword interpreter (R279 to R281), and the reads and
writes of microcoded units. -/

namespace Sys2Proof.Machine

/-! ## Bindings (R84, R282, R283) -/

namespace State

/-- The root of a region's graphics context, none where the resolved GFX is 0 (R84). -/
def context (s : State) (rcb : Nat) : Option Nat := if s.gfx rcb then some (s.supplier rcb 16) else none

/-- The image that a region's context binds for a unit kind (R282). -/
def boundImage (s : State) (rcb kind : Nat) : Nat := match s.context rcb with
  | some r => at0 (s.region r).binds kind
  | none => 0

/-- The unit kind that performs a function of major 0x3B (R277). -/
def imageKind (fn : Nat) : Nat := if fn = 7 then 3 else 2

/-- A resident image. -/
def imageAt (s : State) (kind id : Nat) : Option Image :=
  s.images.find? fun i => i.kind = kind && i.id = id

/-- An image bound for a kind in a region's context. -/
def bindImage (s : State) (rcb kind id : Nat) : State := match s.context rcb with
  | some r => s.modRegion r fun R => { R with binds := R.binds.set kind id }
  | none => s

end State

/-- CSLD. Image 0 of each kind is always present. -/
def execCsld (a : Field) (s : State) : Host.Outcome State Fault Refusal :=
  runLanes (.csld a) (fun s0 s t =>
    let rcb := (s.group s.iss.g).rcb
    let id := bits (s0.reg t a).toNat 2 0
    let kind := bits (s0.reg t a).toNat 5 4
    if !s.gfx rcb then .trap { cause := cIMAGE, aux := 0x100 }
    else if id ≠ 0 && (s.imageAt kind id).isNone then .trap { cause := cIMAGE, aux := id + 16 * kind }
    else .ok (s.bindImage rcb kind id)) s

/-- CSREL. -/
def execCsrel (a : Field) (s : State) : Host.Outcome State Fault Refusal :=
  runLanes (.csrel a) (fun s0 s t =>
    .ok (s.bindImage (s.group s.iss.g).rcb (bits (s0.reg t a).toNat 5 4) 0)) s

/-! ## Reads of a microcoded unit -/

namespace State

/-- Pieces of a read by a unit of cluster cl for a region at user level (R281). -/
def microPieces (cl table rcb : Nat) (olds : List Older) (rd : Reader) :
    State → List (Nat × Nat) → Except TrapInfo (State × List Byte)
  | s, [] => .ok (s, [])
  | s, (va, n) :: rest => match s.walkNow (cl / 16) table va 0 true with
    | .error ti => .error ti
    | .ok (s, pa, mt) => match s.unitAt cl rcb pa mt n with
      | (_, .error f) => .error { cause := f.1, addr := va, aux := f.2 }
      | (s, .ok bs) =>
        let (s, bs) := s.stale olds pa bs rd
        match microPieces cl table rcb olds rd s rest with
        | .error ti => .error ti
        | .ok (s, cs) => .ok (s, bs ++ cs)

/-- n bytes read by a microcoded unit. -/
def microRead (s : State) (cl table rcb va n : Nat) (olds : List Older := []) (rd : Reader := .alone) :
    Except TrapInfo (State × List Byte) := microPieces cl table rcb olds rd s (linePieces va n)

end State

/-- n bytes read by a request of a thread's texture queue. -/
def MicroReq.read (q : MicroReq) (s : State) (va n : Nat) : Except TrapInfo (State × List Byte) :=
  s.microRead (q.e / 4) q.table q.who.rcb va n q.olds (.texture q.g q.t)

/-! ## Microwords (R279, R280) -/

/-- A request under way: micro registers, place, flags, stack, input words left, results and words for other ports
pushed, additions to the shadow counters, and the state that its accesses have left. -/
structure Micro where
  s : State
  v : List DWord
  at_ : Nat
  z : Bool := false
  n : Bool := false
  stack : List DWord := []
  input : List Word
  results : List Word := []
  /-- Words pushed to ports 1 to 3. -/
  ports : List (Nat × Word) := []
  counts : List (Nat × DWord) := []

/-- How a run of microwords ends. -/
inductive MicroEnd
  | halted (m : Micro)
  | fault (m : Micro) (ti : TrapInfo)
  /-- 65,536 microwords were executed (R281). -/
  | spent (m : Micro)
  /-- It waits: for an input word, or for room to store. -/
  | wait

/-- What a unit is, for its requests' accesses. -/
structure MicroUnit where
  cl : Nat
  table : Nat
  who : Owner
  olds : List Older := []
  rd : Reader := .alone

/-- Fields of a microword (R279). -/
def mwOp (w : BitVec 64) : Nat := bits w.toNat 63 59
/-- DST. -/
def mwDst (w : BitVec 64) : Nat := bits w.toNat 58 53
/-- SA. -/
def mwA (w : BitVec 64) : Nat := bits w.toNat 52 47
/-- SB. -/
def mwB (w : BitVec 64) : Nat := bits w.toNat 46 41
/-- IM. -/
def mwIm (w : BitVec 64) : Bool := bit w.toNat 40
/-- CC. -/
def mwCc (w : BitVec 64) : Nat := bits w.toNat 39 37
/-- NEXT. -/
def mwNext (w : BitVec 64) : Nat := bits w.toNat 36 23
/-- IMM. -/
def mwImm (w : BitVec 64) : Nat := bits w.toNat 22 0

/-- sx(IMM). -/
def mwSx (w : BitVec 64) : DWord := (BitVec.ofNat 23 (mwImm w)).signExtend 64

/-- The result of an arithmetic operation, OP 1 to 11. -/
def microAlu (op : Nat) (a b : DWord) : DWord := match op with
  | 1 => a + b
  | 2 => a - b
  | 3 => a * b
  | 4 => a &&& b
  | 5 => a ||| b
  | 6 => a ^^^ b
  | 7 => a <<< (b.toNat % 64)
  | 8 => a >>> (b.toNat % 64)
  | 9 => a.sshiftRight (b.toNat % 64)
  | 10 => if a.toInt ≤ b.toInt then a else b
  | _ => if a.toInt ≤ b.toInt then b else a

/-- ⌊num / den⌋ of a signed fraction. -/
def floorFrac (neg : Bool) (num den : Nat) : Int :=
  if neg then -(((num + den - 1) / den : Nat) : Int) else ((num / den : Nat) : Int)

/-- FIXP: ⌊x × 2^k⌋ clamped to 64 bits, NaN as 0. -/
def microFix (a : DWord) (k : Nat) : DWord := match f32 (a.setWidth 32) with
  | .nan => 0
  | .inf neg => if neg then BitVec.ofInt 64 (-(2 ^ 63)) else BitVec.ofInt 64 (2 ^ 63 - 1)
  | .fin neg num den =>
    BitVec.ofInt 64 (max (-(2 ^ 63)) (min (2 ^ 63 - 1) (floorFrac neg (num * 2 ^ k) den)))

/-- The next microword after one, by CC (R279). -/
def microNext (w : BitVec 64) (m : Micro) : Nat :=
  let go : Bool := match mwCc w with
    | 1 => true
    | 2 => m.z
    | 3 => !m.z
    | 4 => m.n
    | 5 => !m.n
    | _ => false
  if go then mwNext w else m.at_ + 1

/-- What one microword comes to. -/
inductive MicroStep
  | go (m : Micro)
  | halt
  | fail (ti : TrapInfo)
  | wait

/-- A microword's operation (R280). -/
def microOp (u : MicroUnit) (w : BitVec 64) (m : Micro) : MicroStep :=
  let a := m.v.getD (mwA w) 0
  let b := if mwIm w then mwSx w else m.v.getD (mwB w) 0
  let d := mwDst w
  let old := m.v.getD d 0
  let put := fun (x : DWord) => MicroStep.go { m with v := m.v.set d x }
  let n := 2 ^ (mwB w % 4)
  let addr := (a + mwSx w).toNat
  let op := mwOp w
  if op = 0 then .go m
  else if op ≤ 11 then
    let r := microAlu op a b
    .go { m with v := m.v.set d r, z := r = 0, n := r.getLsbD 63 }
  else match op with
    | 12 => match m.s.microRead u.cl u.table u.who.rcb addr n u.olds u.rd with
      | .error ti => .fail ti
      | .ok (s, bs) => .go { m with s := s, v := m.v.set d (BitVec.ofNat 64 (ofBytes bs)) }
    | 13 => match m.s.unitStore (512 + u.cl) u.table addr u.who (toBytes n old.toNat) with
      | .ok s => .go { m with s := s }
      | .fail ti => .fail ti
      | .wait _ => .wait
    | 14 => put ((fFma (a.setWidth 32) (b.setWidth 32) (old.setWidth 32)).1.setWidth 64)
    | 15 => put (microFix a (mwImm w % 32))
    | 16 =>
      let x := a.toInt
      put ((roundFP32 .rne (.fin (x < 0) x.natAbs (2 ^ (mwImm w % 32)))).1.setWidth 64)
    | 17 =>
      let x := f32 (a.setWidth 32)
      let y := f32 (b.setWidth 32)
      .go { m with z := veq x y, n := vlt x y }
    | 18 => match m.input with
      | x :: rest => .go { m with v := m.v.set d (x.setWidth 64), input := rest }
      | [] => .wait
    | 19 => .go (if mwImm w % 4 = 0 then { m with results := m.results ++ [b.setWidth 32] }
      else { m with ports := m.ports ++ [(mwImm w % 4, b.setWidth 32)] })
    | 20 =>
      if 32 ≤ m.stack.length then .fail { cause := Config.stackCause.toNat }
      else .go { m with stack := b :: m.stack }
    | 21 => match m.stack with
      | x :: rest => .go { m with v := m.v.set d x, stack := rest }
      | [] => .go { m with z := true }
    | 22 => .go { m with counts := m.counts ++ [(mwImm w % 4, b)] }
    | _ => .halt

/-- Microwords executed one after another; the fuel counts them. -/
def microRun (u : MicroUnit) (img : Image) : Nat → Micro → MicroEnd
  | 0, m => .spent m
  | k + 1, m =>
    let w := img.words.getD m.at_ 0
    match microOp u w m with
    | .go m' => microRun u img k { m' with at_ := microNext w m' }
    | .halt => .halted m
    | .fail ti => .fault m ti
    | .wait => .wait

/-- A request of a kind run from its entry: the first 16 input words stand in v0 to v15, and POP takes the
others (R281; log entry 16). -/
def microStart (s : State) (u : MicroUnit) (img : Image) (kind : Nat) (input : List Word) : MicroEnd :=
  let v := ((input.take 16).map fun w => w.setWidth 64) ++ List.replicate (64 - Nat.min 16 input.length) 0
  microRun u img 65535 { s := s, v := v, at_ := img.entries.getD kind 0, input := input.drop 16 }

end Sys2Proof.Machine
end

