-- ==== Sys2Proof/Machine/Texture.lean ====
section
/-! DEFINITION. Texture requests: descriptors, texels, TEX, TLD, TGATH, TRAV (R297 to R303), and the request
queue of a thread (R281, R302). -/

namespace Sys2Proof.Machine

/-! ## Descriptors and texels (R297 to R299) -/

/-- A texture descriptor. -/
structure TexDesc where
  base : Nat
  w : Nat
  h : Nat
  fmt : Nat
  levels : Nat
  addr : Nat
  filt : Nat
  border : List Word

/-- A number of n bytes at an offset. -/
def numAt (bs : List Byte) (off n : Nat) : Nat := ofBytes ((bs.drop off).take n)

/-- A descriptor from its 64 bytes; none where a field is reserved or out of range. -/
def texDesc (bs : List Byte) : Option TexDesc :=
  let d : TexDesc :=
    { base := numAt bs 0 8, w := numAt bs 8 2 + 1, h := numAt bs 10 2 + 1, fmt := numAt bs 12 1
      levels := numAt bs 13 1, addr := numAt bs 14 1, filt := numAt bs 15 1
      border := wordsOf 4 (bs.drop 16) }
  if d.base % 64 = 0 ∧ d.w ≤ 16384 ∧ d.h ≤ 16384 ∧ d.fmt < 4 ∧ 1 ≤ d.levels ∧ d.levels ≤ 15 ∧ d.addr < 16
      ∧ d.filt < 8 ∧ numAt bs 32 32 = 0 then some d else none

/-- The 64 bytes of a descriptor for a request: as a read of the thread's queue finds them, or as the engine's cache may
still hold them (R218, R297, R302). -/
def readDesc (s : State) (q : MicroReq) (va : Nat) : Except TrapInfo (State × List Byte) :=
  if va % 64 ≠ 0 then .error { cause := cMISALIGN, addr := va }
  else
    let cached := (s.engine q.e).olds.map fun o => ({ wa := o.1, at_ := 0, val := o.2 } : Older)
    { q with olds := q.olds ++ cached }.read s va 64

/-- Width of level l. -/
def levelW (d : TexDesc) (l : Nat) : Nat := Nat.max 1 (d.w / 2 ^ l)
/-- Height of level l. -/
def levelH (d : TexDesc) (l : Nat) : Nat := Nat.max 1 (d.h / 2 ^ l)
/-- Bytes of a texel. -/
def texelBytes (fmt : Nat) : Nat := match fmt with
  | 1 => 8
  | 2 => 16
  | _ => 4
/-- RB of level l. -/
def rowPitch (d : TexDesc) (l : Nat) : Nat := 64 * ((levelW d l * texelBytes d.fmt + 63) / 64)

/-- The address of texel (i, j) of level l (R298). -/
def texelAddr (d : TexDesc) (l i j : Nat) : Nat :=
  (d.base + ((upTo l).map fun m => rowPitch d m * levelH d m).sum + j * rowPitch d l
    + i * texelBytes d.fmt) % 2 ^ 64

/-- A pattern with a NaN made canonical. -/
def canonWord (w : Word) : Word := if (f32 w).isNan then nan32 else w

/-- The channels of a texel (R298). -/
def texelChannels (fmt : Nat) (bs : List Byte) : List Word := match fmt with
  | 0 => bs.map fun b => (roundFP32 .rne (.fin false b.toNat 255)).1
  | 1 => (upTo 4).map fun k => (roundFP32 .rne (fp16.value (numAt bs (2 * k) 2))).1
  | 2 => (wordsOf 4 bs).map canonWord
  | _ => (wordsOf 1 bs).map canonWord ++ [0#32, 0#32, 0x3F800000#32]

/-- An index resolved against n texels; none reads as BORDER (R299). -/
def resolveIndex (mode : Nat) (n : Nat) (i : Int) : Option Nat := match mode with
  | 0 => some (i % n).toNat
  | 1 => some (min (max i 0) (n - 1)).toNat
  | 2 =>
    let m := (i % (2 * n : Nat)).toNat
    some (if m < n then m else 2 * n - 1 - m)
  | _ => if 0 ≤ i ∧ i < n then some i.toNat else none

/-- The channels of texel (i, j) of level l after the address modes. -/
def fetchTexel (s : State) (q : MicroReq) (d : TexDesc) (l : Nat) (i j : Int) :
    Except TrapInfo (State × List Word) :=
  match resolveIndex (d.addr % 4) (levelW d l) i, resolveIndex (d.addr / 4) (levelH d l) j with
  | some x, some y => match q.read s (texelAddr d l x y) (texelBytes d.fmt) with
    | .error ti => .error ti
    | .ok (s, bs) => .ok (s, texelChannels d.fmt bs)
  | _, _ => .ok (s, d.border.map canonWord)

/-! ## Coordinates (R300) -/

/-- A pattern as a fraction: a NaN counts as 0, an infinity as a number beyond every clamp. -/
def coordOf (w : Word) : Int × Nat := match f32 w with
  | .nan => (0, 1)
  | .inf neg => (if neg then -(2 ^ 200) else 2 ^ 200, 1)
  | .fin neg num den => (if neg then -(num : Int) else num, den)

/-- The clamp of a 16.8 position. -/
def clampPos (x : Int) : Int := max (-(2 ^ 23)) (min (2 ^ 23 - 1) x)

/-- Taps of a level: texel indices and weights × 65,536. DESIGN CHOICE (log entry 131): the position of an unfiltered tap
is clamped as that of a filtered one is, though R300's clamp names S and T, which only the filtered one forms. -/
def taps (d : TexDesc) (u v : Int × Nat) (l : Nat) (lin : Bool) : List ((Int × Int) × Nat) :=
  if lin then
    let pos := fun (c : Int × Nat) (n : Nat) => clampPos ((2 * c.1 * n - c.2) * 128 / c.2)
    let p := pos u (levelW d l)
    let r := pos v (levelH d l)
    let i := p / 256
    let j := r / 256
    let a := (p % 256).toNat
    let b := (r % 256).toNat
    [((i, j), (256 - a) * (256 - b)), ((i + 1, j), a * (256 - b)), ((i, j + 1), (256 - a) * b)
    , ((i + 1, j + 1), a * b)]
  else
    let pos := fun (c : Int × Nat) (n : Nat) => clampPos (c.1 * n * 256 / c.2) / 256
    [((pos u (levelW d l), pos v (levelH d l)), 65536)]

/-- One fused step: acc + w × f with w a fraction, rounded once (R147). -/
def fusedStep (acc : Word) (num den : Nat) (f : Word) : Word :=
  (finish32 (vadd (vmul (.fin false num den) (f32 f)).1 (f32 acc))).1

/-- The four sums over weighted texels, weights × 2^24. -/
def sampleSum (q : MicroReq) (d : TexDesc) :
    State → List Word → List (Nat × (Int × Int) × Nat) → Except TrapInfo (State × List Word)
  | s, acc, [] => .ok (s, acc)
  | s, acc, (l, (i, j), w) :: rest =>
    if w = 0 then sampleSum q d s acc rest
    else match fetchTexel s q d l i j with
      | .error ti => .error ti
      | .ok (s, ch) =>
        sampleSum q d s ((acc.zip ch).map fun x => fusedStep x.1 w (2 ^ 24) x.2) rest

/-- TEX (R300). -/
def texSample (s : State) (q : MicroReq) (d : TexDesc) : Except TrapInfo (State × List Word) :=
  let u := coordOf (q.input.getD 0 0)
  let v := coordOf (q.input.getD 1 0)
  let (ln, ld) := coordOf (q.input.getD 2 0)
  let top : Int := (d.levels : Int) - 1
  let cn : Int := min (max ln 0) (top * ld)
  let mip := bit d.filt 2
  let l0 : Nat := if mip then (cn / ld).toNat else ((2 * cn + ld) / (2 * ld)).toNat
  let β : Nat := if mip then (((cn - l0 * ld) * 256) / ld).toNat else 0
  let lin := if ln ≤ 0 then bit d.filt 0 else bit d.filt 1
  let l1 := Nat.min (l0 + 1) (d.levels - 1)
  let first := (taps d u v l0 lin).map fun x => (l0, x.1, x.2 * (256 - β))
  let second := if mip then (taps d u v l1 lin).map fun x => (l1, x.1, x.2 * β) else []
  sampleSum q d s [0#32, 0#32, 0#32, 0#32] (first ++ second)

/-- TLD (R301). -/
def texLoad (s : State) (q : MicroReq) (d : TexDesc) : Except TrapInfo (State × List Word) :=
  let i := (q.input.getD 0 0).toInt
  let j := (q.input.getD 1 0).toInt
  let l := (q.input.getD 2 0).toNat
  if d.levels ≤ l ∨ i < 0 ∨ j < 0 ∨ (levelW d l : Int) ≤ i ∨ (levelH d l : Int) ≤ j then
    .ok (s, [0#32, 0#32, 0#32, 0#32])
  else match q.read s (texelAddr d l i.toNat j.toNat) (texelBytes d.fmt) with
    | .error ti => .error ti
    | .ok (s, bs) => .ok (s, texelChannels d.fmt bs)

/-- One channel of several texels. -/
def gatherTexels (q : MicroReq) (d : TexDesc) (l ch : Nat) :
    State → List (Int × Int) → Except TrapInfo (State × List Word)
  | s, [] => .ok (s, [])
  | s, (i, j) :: rest => match fetchTexel s q d l i j with
    | .error ti => .error ti
    | .ok (s, ws) => match gatherTexels q d l ch s rest with
      | .error ti => .error ti
      | .ok (s, vs) => .ok (s, ws.getD ch 0 :: vs)

/-- TGATH (R301). -/
def texGather (s : State) (q : MicroReq) (d : TexDesc) : Except TrapInfo (State × List Word) :=
  let sel := (q.input.getD 2 0).toNat
  let l := Nat.min (bits sel 7 0) (d.levels - 1)
  let ts := taps d (coordOf (q.input.getD 0 0)) (coordOf (q.input.getD 1 0)) l true
  gatherTexels q d l (bits sel 9 8) s (ts.map Prod.fst)

/-! ## Traversal (R303) -/

/-- A ray with the closest hit so far. -/
structure Ray where
  o : List Word
  d : List Word
  tmin : Word
  best : Word
  hit : List Word

/-- a × b + c × d of the rule's forms: one exact form rounded once. -/
def crossPart (a b c d : Word) : Word :=
  (finish32 (vadd (vmul (f32 a) (f32 b)).1 (vmul (f32 c) (f32 d)).1.flip)).1

/-- Component i of a vector. -/
def vecAt (v : List Word) (i : Nat) : Word := v.getD i 0

/-- A cross product. -/
def cross3 (a b : List Word) : List Word :=
  [crossPart (vecAt a 1) (vecAt b 2) (vecAt a 2) (vecAt b 1)
  , crossPart (vecAt a 2) (vecAt b 0) (vecAt a 0) (vecAt b 2)
  , crossPart (vecAt a 0) (vecAt b 1) (vecAt a 1) (vecAt b 0)]

/-- A dot product, from +0 over x, y and z. -/
def dot3 (a b : List Word) : Word :=
  (upTo 3).foldl (fun acc i => (fFma (vecAt a i) (vecAt b i) acc).1) 0#32

/-- a − b, component by component. -/
def sub3 (a b : List Word) : List Word := (upTo 3).map fun i => (fSub (vecAt a i) (vecAt b i)).1

/-- a ≤ b as FP32, false with a NaN. -/
def fLe (a b : Word) : Bool := !(f32 a).isNan && !(f32 b).isNan && !vlt (f32 b) (f32 a)

/-- The box test: tn, where the box is hit. -/
def boxTest (r : Ray) (box : List Word) : Option Word :=
  let side := fun (i a : Nat) =>
    (fMul (fSub (vecAt box (i + a)) (vecAt r.o a)).1 (fRcp (vecAt r.d a)).1).1
  let tn := (upTo 3).foldl (fun m a => fMax m (fMin (side 0 a) (side 3 a))) r.tmin
  let tf := (upTo 3).foldl (fun m a => fMin m (fMax (side 0 a) (side 3 a))) r.best
  if fLe tn tf then some tn else none

/-- The triangle test on a record of 12 words. -/
def triTest (r : Ray) (tri : List Word) : Ray :=
  let v0 := tri.take 3
  let e1 := sub3 ((tri.drop 3).take 3) v0
  let e2 := sub3 ((tri.drop 6).take 3) v0
  let sv := sub3 r.o v0
  let p := cross3 r.d e2
  let det := dot3 e1 p
  let qv := cross3 sv e1
  let inv := (fRcp det).1
  let u := (fMul (dot3 sv p) inv).1
  let v := (fMul (dot3 r.d qv) inv).1
  let t := (fMul (dot3 e2 qv) inv).1
  if !veq (f32 det) (f32 0#32) && fLe 0#32 u && fLe 0#32 v && fLe (fAdd u v).1 0x3F800000#32
      && fLe r.tmin t && vlt (f32 t) (f32 r.best) then
    { r with best := t, hit := [tri.getD 9 0, t, u, v] }
  else r

/-- A reference: address, triangle count, kind; none where a bit is reserved. -/
def refOf (x : Nat) : Option (Nat × Nat × Nat) :=
  let n := bits x 6 4
  let k := bits x 1 0
  if bits x 3 2 ≠ 0 ∨ k = 3 ∨ (k = 2 ∧ n = 0) then none else some (x / 128 * 128, n, k)

/-- Insertion of a child in ascending order of (tn, index); the list is ascending. -/
def insertChild (x : Word × Nat) : List (Word × Nat) → List (Word × Nat)
  | [] => [x]
  | y :: rest => if vlt (f32 x.1) (f32 y.1) then x :: y :: rest else y :: insertChild x rest

/-- The references of a node's hit children, nearest first. -/
def hitChildren (r : Ray) (node : List Byte) : List Nat :=
  let ws := wordsOf 24 node
  let child := fun c =>
    let ref := numAt node (96 + 8 * c) 8
    if bits ref 1 0 = 0 then none
    else (boxTest r ((ws.drop (6 * c)).take 6)).map fun tn => (tn, ref)
  (((upTo 4).filterMap child).foldl (fun l x => insertChild x l) []).map Prod.snd

/-- References popped until the stack is empty; the fuel is the watchdog of R281, as one pop takes at least
one microword (log entry 17). DESIGN CHOICE (log entry 27): a triangle record's 8 reserved bytes are not looked at, as no
rule has the image report them. -/
def traverse (q : MicroReq) : Nat → State → Ray → List Nat → Except TrapInfo (State × Ray)
  | _, s, r, [] => .ok (s, r)
  | 0, _, _, _ :: _ => .error { cause := cWATCHDOG }
  | k + 1, s, r, x :: stack => match refOf x with
    | none => .error { cause := cRESERVED, addr := x }
    | some (a, n, kind) =>
      let size := if kind = 1 then 128 else if kind = 2 then 48 * n else 0
      match q.read s a (Nat.min size 128) with
      | .error ti => .error ti
      | .ok (s, bs) => match q.read s (a + 128) (Nat.min (size - 128) 128) with
        | .error ti => .error ti
        | .ok (s, cs) => match q.read s (a + 256) (size - 256) with
          | .error ti => .error ti
          | .ok (s, ds) =>
            let all := bs ++ cs ++ ds
            if kind = 2 then
              let tris := (upTo n).map fun i => wordsOf 12 (all.drop (48 * i))
              traverse q k s (tris.foldl triTest r) stack
            else if kind = 1 then
              let next := hitChildren r all
              if 32 < next.length + stack.length then .error { cause := Config.stackCause.toNat }
              else traverse q k s r (next ++ stack)
            else traverse q k s r stack

/-- TRAV. -/
def traceRay (s : State) (q : MicroReq) : Except TrapInfo (State × List Word) :=
  let i := q.input
  let r : Ray :=
    { o := i.take 3, d := (i.drop 3).take 3, tmin := i.getD 6 0, best := i.getD 7 0
      hit := [0xFFFFFFFF#32, nan32, nan32, nan32] }
  let root := (i.getD 8 0).toNat + (i.getD 9 0).toNat * 2 ^ 32
  match traverse q 65535 s r [root] with
  | .error ti => .error ti
  | .ok (s, r) => .ok (s, r.hit)

/-! ## The queue -/

/-- A request in a thread's texture queue, which those of the hash grid share: its results are pending (R74, R302,
R354). DESIGN CHOICE (log entry 132): a request that no CSLD happens before uses the binding that stands at its issue, of
the two that R283 allows. -/
def queueRequest (s : State) (t fn : Nat) (input : List Word) (dst : List Nat) (mo : MemOrd := {}) : State :=
  let g := s.iss.g
  let G := s.group g
  let (ent, s) := s.nextEnt g t 24
  let (id, s) := s.fresh
  let q : MicroReq :=
    { id := id, fn := fn, image := s.boundImage G.rcb (State.imageKind fn), e := G.kind.engine, g := g
      t := t, launch := (s.block G.blk).launch, table := s.tableOf G.rcb, input := input, dst := dst
      who := s.who t, ent := ent, mo := mo, olds := (s.th t).unfenced }
  { s.setPend g t dst with micro := s.micro ++ [q] }

/-- A request of four results from runs of n and 2 registers. -/
def texLane (fn n : Nat) (d a b : Field) (s0 s : State) (t : Nat) : LaneRes :=
  .ok (queueRequest s t fn (s0.run t a n ++ s0.run t b 2) (s0.runNums s.iss.g t d.toNat 4))

/-- TEX. -/
def execTex (d a b : Field) (s : State) : Host.Outcome State Fault Refusal :=
  runLanes (.tex d a b) (texLane 0 3 d a b) s

/-- TLD. -/
def execTld (d a b : Field) (s : State) : Host.Outcome State Fault Refusal :=
  runLanes (.tld d a b) (texLane 1 3 d a b) s

/-- TGATH. -/
def execTgath (d a b : Field) (s : State) : Host.Outcome State Fault Refusal :=
  runLanes (.tgath d a b) (texLane 2 3 d a b) s

/-- TRAV. -/
def execTrav (d a b : Field) (s : State) : Host.Outcome State Fault Refusal :=
  runLanes (.trav d a b) (texLane 7 8 d a b) s

/-- The address of a request's descriptor, after n words of input. -/
def descAddr (q : MicroReq) (n : Nat) : Nat := (q.input.getD n 0).toNat + (q.input.getD (n + 1) 0).toNat * 2 ^ 32

/-- TEX, TLD or TGATH with its descriptor. -/
def withDesc (s : State) (q : MicroReq) (f : State → MicroReq → TexDesc → Except TrapInfo (State × List Word)) :
    Except TrapInfo (State × List Word) :=
  match readDesc s q (descAddr q 3) with
  | .error ti => .error ti
  | .ok (s, bs) => match texDesc bs with
    | none => .error { cause := cRESERVED, addr := descAddr q 3 }
    | some d => f s q d

end Sys2Proof.Machine
end

