-- ==== Sys2Proof/Machine/HashGrid.lean ====
section
/-! DEFINITION. The hash grid (R304 to R308, R407, R408) and the performing of texture-queue requests (R281,
R302, R403). -/

namespace Sys2Proof.Machine

/-! ## Descriptors and lookups (R304, R305) -/

/-- A hash-grid descriptor. -/
structure GridDesc where
  tbase : Nat
  gbase : Nat
  d : Nat
  levels : Nat
  feat : Nat
  fmt : SlotTy
  log2t : Nat
  n : List Nat

/-- A descriptor from its 64 bytes; none where a field is reserved or out of range. -/
def gridDesc (bs : List Byte) : Option GridDesc :=
  let n := (upTo 16).map fun l => numAt bs (32 + 2 * l) 2
  let g : GridDesc :=
    { tbase := numAt bs 0 8, gbase := numAt bs 8 8, d := numAt bs 16 1, levels := numAt bs 17 1
      feat := numAt bs 18 1, fmt := if numAt bs 19 1 = 1 then .fp16 else .bf16, log2t := numAt bs 20 1
      n := n }
  let e := numAt bs 19 1
  if g.tbase % 64 = 0 ∧ (g.d = 2 ∨ g.d = 3) ∧ 1 ≤ g.levels ∧ g.levels ≤ 16
      ∧ (g.feat = 2 ∨ g.feat = 4 ∨ g.feat = 8) ∧ (e = 1 ∨ e = 2) ∧ 4 ≤ g.log2t ∧ g.log2t ≤ 24
      ∧ numAt bs 21 11 = 0 ∧ (n.take g.levels).all (0 < ·) ∧ (n.drop g.levels).all (· = 0) then some g
  else none

/-- The selector (R306): first level, number of levels, features. -/
def selLevel (sel : Word) : Nat := bits sel.toNat 3 0
/-- nl. -/
def selCount (sel : Word) : Nat := bits sel.toNat 7 4 + 1
/-- F of the selector's code; 0 for the reserved code. -/
def selFeat (sel : Word) : Nat := match bits sel.toNat 9 8 with
  | 0 => 2
  | 1 => 4
  | 2 => 8
  | _ => 0

/-- A request with its descriptor: it fails where the selector and the descriptor disagree (R306). -/
def withGrid (s : State) (q : MicroReq) : Except TrapInfo (State × GridDesc) :=
  match readDesc s q (descAddr q 4) with
  | .error ti => .error ti
  | .ok (s, bs) => match gridDesc bs with
    | none => .error { cause := cRESERVED, addr := descAddr q 4 }
    | some g =>
      let sel := q.input.getD 3 0
      if g.levels < selLevel sel + selCount sel ∨ selFeat sel ≠ g.feat then
        .error { cause := cRESERVED, addr := descAddr q 4 }
      else .ok (s, g)

/-- P_b of a coordinate at resolution n. -/
def gridPos (x : Word) (n : Nat) : Nat :=
  let (num, den) := coordOf x
  let c := min (max num 0) den
  Nat.min (c * (n * 65536) / den).toNat (n * 65536 - 1)

/-- The corners of a lookup of level l: entry index, and weight × 65,536^d (R305). -/
def corners (g : GridDesc) (xs : List Word) (l : Nat) : List (Nat × Nat) :=
  let n := at0 g.n l
  let p := (upTo g.d).map fun b => gridPos (xs.getD b 0) n
  (upTo (2 ^ g.d)).map fun k =>
    let up := fun (b : Nat) => if bit k b then 1 else 0
    let c := fun (b : Nat) => if b < g.d then at0 p b / 65536 + up b else 0
    let w := ((upTo g.d).map fun b =>
      if bit k b then at0 p b % 65536 else 65536 - at0 p b % 65536).foldl (· * ·) 1
    let idx := if (n + 1) ^ g.d ≤ 2 ^ g.log2t then c 0 + c 1 * (n + 1) + c 2 * (n + 1) ^ 2
      else (Nat.xor (Nat.xor (c 0) (c 1 * 0x9E3779B1 % 2 ^ 32)) (c 2 * 0xC2B2AE3D % 2 ^ 32)) % 2 ^ g.log2t
    (idx, w)

/-- The features of entry e of level l, as FP32. -/
def readEntry (s : State) (q : MicroReq) (g : GridDesc) (l e : Nat) : Except TrapInfo (State × List Word) :=
  let va := (g.tbase + (l * 2 ^ g.log2t + e) * g.feat * 2) % 2 ^ 64
  match q.read s va (2 * g.feat) with
  | .error ti => .error ti
  | .ok (s, bs) => .ok (s, (upTo g.feat).map fun f =>
      (roundFP32 .rne (g.fmt.value (numAt bs (2 * f) 2))).1)

/-- The corner sums of a level. -/
def cornerSum (q : MicroReq) (g : GridDesc) (l : Nat) :
    State → List Word → List (Nat × Nat) → Except TrapInfo (State × List Word)
  | s, acc, [] => .ok (s, acc)
  | s, acc, (e, w) :: rest =>
    if w = 0 then cornerSum q g l s acc rest
    else match readEntry s q g l e with
      | .error ti => .error ti
      | .ok (s, fs) =>
        cornerSum q g l s ((acc.zip fs).map fun x => fusedStep x.1 w (2 ^ (16 * g.d)) x.2) rest

/-- The features of several levels. -/
def gridLevels (q : MicroReq) (g : GridDesc) :
    State → List Nat → Except TrapInfo (State × List Word)
  | s, [] => .ok (s, [])
  | s, l :: rest =>
    match cornerSum q g l s (List.replicate g.feat 0#32) (corners g (q.input.take 3) l) with
    | .error ti => .error ti
    | .ok (s, ws) => match gridLevels q g s rest with
      | .error ti => .error ti
      | .ok (s, vs) => .ok (s, ws ++ vs)

/-- The levels that a request names. -/
def namedLevels (q : MicroReq) : List Nat :=
  let sel := q.input.getD 3 0
  (upTo (selCount sel)).map (selLevel sel + ·)

/-- HGF (R306). -/
def gridFetch (s : State) (q : MicroReq) : Except TrapInfo (State × List Word) :=
  match withGrid s q with
  | .error ti => .error ti
  | .ok (s, g) => gridLevels q g s (namedLevels q)

/-! ## Contributions (R307) -/

/-- The contributions that an HGS asks for, with their item numbers, before translation. -/
def wanted (q : MicroReq) (g : GridDesc) : List Contribution :=
  let lf := selLevel (q.input.getD 3 0)
  ((namedLevels q).map fun l =>
    ((corners g (q.input.take 3) l).zipIdx.map fun c =>
      if c.1.2 = 0 then []
      else (upTo g.feat).map fun f =>
        let x : Contribution :=
          { req := q.id, launch := q.launch, det := q.fn = 5
            key := ((q.who.bid * 2 ^ 32 + q.who.tid) * 16 + l) * 8 + c.2
            pa := 0, va := (g.gbase + ((l * 2 ^ g.log2t + c.1.1) * g.feat + f) * 4) % 2 ^ 64
            grad := q.input.getD (6 + (l - lf) * g.feat + f) 0, wnum := c.1.2, wden := 2 ^ (16 * g.d)
            who := q.who, ent := q.ent, item := ((l - lf) * 2 ^ g.d + c.2) * g.feat + f }
        x).flatten).flatten

/-- Contributions sent to their slices, or failed alone. -/
def sendContributions (q : MicroReq) :
    State → List Contribution → State × Nat × List (Nat × TrapInfo)
  | s, [] => (s, 0, [])
  | s, c :: rest =>
    let d := q.e / 64
    let fail := fun (ti : TrapInfo) =>
      let (s, n, fs) := sendContributions q s rest
      (s, n, (c.item, { ti with addr := c.va }) :: fs)
    if c.va % 4 ≠ 0 then fail { cause := cMISALIGN }
    else match s.walkNow d q.table c.va 2 true with
    | .error ti => fail ti
    | .ok (s', pa, _) => match s'.accessFail d pa with
      | some u => fail { cause := cLINK, aux := u }
      | none =>
        let s' := s'.post (chanMail (2 ^ 43 + s'.homeSlice d pa) (32 * q.g + q.t)) d (s'.homeDie d pa)
          (.hgs { c with pa := pa })
        let (s', n, fs) := sendContributions q s' rest
        (s', n + 1, fs)

/-- The word after a contribution: one exact product and sum, rounded once. -/
def applyGrad (old : Word) (c : Contribution) : Word :=
  (finish32 (vadd (vmul (.fin false c.wnum c.wden) (f32 c.grad)).1 (f32 old))).1

/-- The identity of a request for its records. -/
def requestId (q : MicroReq) : EntryId :=
  let hgs : Bool := q.fn = 4 || q.fn = 5
  { d := q.e / 64, unit := unitCluster (q.e / 4) (if q.fn = 7 then 18 else 20 + q.e % 4), rcb := q.who.rcb
    source := if hgs then 7 else 6, index := if hgs then q.fn - 4 else q.fn, ent := q.ent }

/-- The identity of a contribution's entry for the records of its slice. -/
def gradId (slice : Nat) (c : Contribution) : EntryId :=
  { d := slice / 64, unit := unitDie (slice / 64) (slice % 64), rcb := c.who.rcb, source := 7
    index := if c.det then 1 else 0, ent := c.ent }

/-- Records of one entry written one after another, each by the die of its unit; all but the last have MORE
set (R353). -/
def reportEach (s : State) (rcb : Nat) : List (RecHead × List Byte) → State.Told
  | [] => .ok s
  | (h, tail) :: rest =>
    match s.report (h.unit / 16384) rcb { h with flags := if rest = [] then 0 else 4 } tail with
    | .ok s' => reportEach s' rcb rest
    | .error h => .error h

/-- The records of a request's failed contributions, those of one unit together (R353, R407). -/
def requestRecords (q : MicroReq) : List (RecHead × List Byte) :=
  let units := sortBy (fun u => u) ((q.fails.map Prod.fst).eraseDups)
  (units.map fun u => completionRecords { requestId q with unit := u } q.who
    ((q.fails.filter fun f => f.1 = u).map Prod.snd)).flatten

/-- The word of a contribution after it, at its slice. -/
def applyContribution (s : State) (c : Contribution) : State :=
  s.homeWrite c.pa (toBytes 4 (applyGrad (BitVec.ofNat 32 (s.homeNat c.pa 4)) c).toNat)

/-- The failure of a contribution whose word is marked. -/
def gradMarked (slice : Nat) (c : Contribution) : Nat × TrapInfo :=
  (c.item, { cause := cECC, addr := c.va, aux := unitDie (slice / 64) (slice % 64) })

/-- The request with an id changed. -/
def modMicro (s : State) (k : Nat) (f : MicroReq → MicroReq) : State :=
  { s with micro := s.micro.map fun q => if q.id = k then f q else q }

/-- A contribution counted off its request once it has reached its slice, or failed on its way or there. -/
def countOff (s : State) (slice : Nat) (c : Contribution) (bad : Option (Nat × TrapInfo)) : State :=
  modMicro s c.req fun q =>
    { q with left := q.left.map (· - 1), fails := q.fails ++ (bad.map fun f => ((gradId slice c).unit, f)).toList }

/-- The end of an HGS request when each of its contributions has been applied or has failed: all its records are
written then, so that only the last has MORE clear (R353, R355). -/
def endGrads (s : State) (k : Nat) : State.Told := match s.micro.find? fun q => q.id = k with
  | none => .ok s
  | some q =>
    if q.left ≠ some 0 || s.landed q then .ok s
    else (reportEach s q.who.rcb (requestRecords q)).map fun s =>
      { s with micro := s.micro.filter fun x => x.id ≠ k }

/-- A contribution that has reached its slice, or failed on its way or there; the last one ends its request. -/
def settleContribution (s : State) (slice : Nat) (c : Contribution) (bad : Option (Nat × TrapInfo)) : State.Told :=
  endGrads (countOff s slice c bad) c.req

/-- HGS_CONTRIBUTION: message n reaches its slice and is applied, buffered, or refused (R307, R407). It counts as an
access to its page there (R95); a line that moves holds it, and after the move it goes on to the new home (R97). -/
def execHgsContribution (n : Nat) (s : State) : Host.Outcome State Fault Refusal :=
  match s.take n with
  | some (m, s') => match m.body with
    | .hgs c =>
      let slice := 64 * m.dst + sliceOf c.pa
      let home := s.homeDie m.src c.pa
      let held := (s'.scatter.filter fun x => x.1 = slice).length
      let settle := fun (s' : State) (bad : Option (Nat × TrapInfo)) =>
        Host.Outcome.next (s.orFull c.who.rcb (settleContribution s' slice c bad))
      if s.moving (lineOf c.pa) then .next s
      else if home ≠ m.dst then match s'.routeFail m.src home with
        | some u => settle s' (some (c.item, { cause := cLINK, addr := c.va, aux := u }))
        | none => .next (s'.post m.chan m.src home (.hgs c))
      else
      let s' := s'.countAccess c.pa m.src c.who.rcb
      if !c.det then
        if s'.markedIn c.pa 4 then settle s' (some (gradMarked slice c))
        else settle (applyContribution s' c) none
      else if (s'.region c.who.rcb).abort.isSome then settle s' none
      else if s'.overflow.contains (slice, c.launch) || 4096 ≤ held then
        let excess := if s'.overflow.contains (slice, c.launch) then s'.overflow
          else s'.overflow ++ [(slice, c.launch)]
        settle { s' with overflow := excess }
          (some (c.item, { cause := cHGSFULL, addr := c.va, aux := unitDie (slice / 64) (slice % 64) }))
      else settle { s' with scatter := s'.scatter ++ [(slice, c)] } none
    | _ => .next s
  | none => .next s

/-- Contributions applied one after another, and those whose word is marked. -/
def applyAll (s : State) (cs : List (Nat × Contribution)) : State × List (Nat × Contribution) :=
  cs.foldl (fun (r : State × List (Nat × Contribution)) x =>
    if r.1.markedIn x.2.pa 4 then (r.1, r.2 ++ [x]) else (applyContribution r.1 x.2, r.2)) (s, [])

/-- A buffered contribution that failed when it was applied, noted for its request's records. -/
def noteMarked (s : State) (x : Nat × Contribution) : State := modMicro s x.2.req fun q =>
  { q with fails := q.fails ++ [((gradId x.1 x.2).unit, gradMarked x.1 x.2)] }

/-- The ends of several requests in order. -/
def endAll : State → List Nat → State.Told
  | s, [] => .ok s
  | s, k :: rest => match endGrads s k with
    | .ok s => endAll s rest
    | .error h => .error h

/-- The buffered contributions of a launch from requests below n, applied in key order (R308); slices that
hold no more of the launch accept its contributions again (R407), and the requests end with their records. -/
def applyBuffered (s : State) (l n : Nat) : State.Told :=
  let mine := fun (x : Nat × Contribution) => x.2.launch = l && x.2.req < n
  let (s, bad) := applyAll s (sortBy (fun x => x.2.key) (s.scatter.filter mine))
  let s := bad.foldl noteMarked s
  let left := s.scatter.filter fun x => !mine x
  let excess := s.overflow.filter fun o =>
    o.2 ≠ l || left.any fun x => x.1 = o.1 && x.2.launch = l
  endAll { s with scatter := left, overflow := excess }
    ((s.micro.filter fun q => q.launch = l && q.id < n && q.fn = 5).map MicroReq.id)

/-- HGSFENCE. -/
def execHgsfence (s : State) : Host.Outcome State Fault Refusal :=
  runLanes .hgsfence (fun s0 s t =>
    let g := s.iss.g
    let G := s.group g
    let l := (s.block G.blk).launch
    let n := match (s0.th t).wait with
      | some (.scatter _ n) => n
      | _ => s.nextKey
    if !s.met g t (.scatter l n) then .wait s (.scatter l n)
    else match applyBuffered s l n with
      | .ok s => .ok s
      | .error h => .wait (s.noteFull G.rcb h) (.trapArea G.rcb)) s

/-! ## HGF, HGS, HGS.det at issue (R306, R307) -/

/-- The issue checks: the length of the feature run, then its registers. -/
def gridCheck (s : State) (t : Nat) (d : Field) (sel : Word) (reads : Bool) : Option TrapInfo :=
  let n := selCount sel * selFeat sel
  if n = 0 ∨ 64 < n then some { cause := cRESERVED } else runChecks s t [(d, n, reads)]

/-- HGF. -/
def execHgf (d a b : Field) (s : State) : Host.Outcome State Fault Refusal :=
  runLanes (.hgf d a b) (fun s0 s t =>
    let sel := s0.regAt t a 3
    match gridCheck s0 t d sel false with
    | some ti => .trap ti
    | none =>
      let dst := s0.runNums s.iss.g t d.toNat (selCount sel * selFeat sel)
      .ok (queueRequest s t 3 (s0.run t a 4 ++ s0.run t b 2) dst)) s

/-- HGS and HGS.det of a thread. -/
def scatterLane (fn : Nat) (mo : MemOrd) (d a b : Field) (s0 s : State) (t : Nat) : LaneRes :=
  let sel := s0.regAt t a 3
  match gridCheck s0 t d sel true with
  | some ti => .trap ti
  | none => match entryWait s0 s t mo with
    | (s, some w) => .wait s w
    | (s, none) =>
      .ok (queueRequest s t fn (s0.run t a 4 ++ s0.run t b 2 ++ s0.run t d (selCount sel * selFeat sel)) [] mo)

/-- HGS. -/
def execHgs (mo : MemOrd) (d a b : Field) (s : State) : Host.Outcome State Fault Refusal :=
  runLanes (.hgs mo d a b) (scatterLane 4 mo d a b) s

/-- HGS.det. -/
def execHgsDet (mo : MemOrd) (d a b : Field) (s : State) : Host.Outcome State Fault Refusal :=
  runLanes (.hgsDet mo d a b) (scatterLane 5 mo d a b) s

/-! ## Requests performed (R281, R282, R302) -/

/-- What a request comes to: results, contributions sent and failed, a failure, or nothing yet. -/
inductive ReqRes
  | done (s : State) (results : List Word)
  | sent (s : State) (n : Nat) (fails : List (Nat × TrapInfo))
  | fail (s : State) (ti : TrapInfo)
  | spent (s : State)
  | wait

/-- The results of a registered image for n registers; a register that it did not push to receives a free
value (log entry 16). -/
def pushedResults (n : Nat) (s : State) (ws : List Word) : State × List Word :=
  let lack := n - ws.length
  let fill := (upTo lack).map fun i => Config.unpushed (s.free + i)
  ({ s with free := s.free + lack }, ws.take n ++ fill)

/-- A request of the shipped images. -/
def shipped (s : State) (q : MicroReq) : ReqRes :=
  let out := fun (r : Except TrapInfo (State × List Word)) => match r with
    | .ok (s, ws) => ReqRes.done s ws
    | .error ti => .fail s ti
  match q.fn with
  | 0 => out (withDesc s q texSample)
  | 1 => out (withDesc s q texLoad)
  | 2 => out (withDesc s q texGather)
  | 3 => out (gridFetch s q)
  | 7 => out (traceRay s q)
  | _ => match withGrid s q with
    | .error ti => .fail s ti
    | .ok (s, g) =>
      let (s, n, fs) := sendContributions q s (wanted q g)
      .sent s n fs

/-- A request performed, by the shipped image or the one that its context bound. DESIGN CHOICE (log entry 133): such a
request has no bin, and what its CNT adds (R280) goes nowhere. -/
def performRequest (s : State) (q : MicroReq) : ReqRes :=
  if q.image = 0 then match shipped s q with
    | .fail s' ti => if ti.cause = cWATCHDOG then .spent s' else .fail s' ti
    | r => r
  else
    let u : MicroUnit := { cl := q.e / 4, table := q.table, who := q.who, olds := q.olds, rd := .texture q.g q.t }
    let img := (s.imageAt (State.imageKind q.fn) q.image).getD
      { kind := 0, id := 0, len := 0, entries := [], words := [] }
    match microStart s u img (if q.fn = 7 then 0 else q.fn) q.input with
    | .halted m =>
      let (s, ws) := pushedResults q.dst.length m.s m.results
      .done s ws
    | .fault m ti => .fail m.s ti
    | .spent m => .spent m.s
    | .wait => .wait

/-- A request leaves the queue, with its results. -/
def endRequest (s : State) (q : MicroReq) (ws : List Word) : State :=
  let s := { s with micro := s.micro.filter fun x => x.id ≠ q.id }
  if (s.thread q.g q.t).slot = .exited then s
  else (s.clearPend q.g q.t q.dst).landDst q.g q.t q.skip q.dst ws

/-- A failed request: its record, and then the canonical NaN in every result register, or TRAV's codes. -/
def failRequest (s : State) (q : MicroReq) (ti : TrapInfo) : State :=
  match s.complete (requestId q) q.who [(0, ti)] with
  | .error h => s.noteFull q.who.rcb h
  | .ok s => endRequest s q
      (if q.fn = 7 then [0xFFFFFFFE#32, nan32, nan32, nan32] else List.replicate q.dst.length nan32)

/-- The request with an id, first in its thread's queue and not yet performed. -/
def headRequest (s : State) (k : Nat) : Option MicroReq :=
  match s.micro.find? fun q => q.id = k with
  | some q =>
    let first := (s.micro.find? fun x => x.g = q.g && x.t = q.t && x.left ≠ some 0).map fun x => x.id
    if first = some k && q.left.isNone then some q else none
  | none => none

/-- The records of an HGS request that has only to write them. -/
def tellGrads (s : State) (k : Nat) : State := match s.micro.find? fun q => q.id = k with
  | some q => s.orFull q.who.rcb (endGrads s k)
  | none => s

/-- MICROCODE_REQUEST: request k, the first of its thread's texture queue, is performed; its unit translates with a
walk of its die's pool (R91, R92). An HGS whose contributions are done writes the records that it still owes. -/
def execMicrocodeRequest (k : Nat) (s : State) : Host.Outcome State Fault Refusal :=
  match headRequest s k with
  | none => .next (tellGrads s k)
  | some q => if s.poolFull (q.e / 64) then .next s else match performRequest s q with
    | .done s' ws => .next (endRequest s' q ws)
    | .fail s' ti => .next (failRequest s' q ti)
    | .sent s' n fs =>
      let q' := { q with left := some n, fails := fs.map fun f => ((requestId q).unit, f) }
      if n = 0 then match reportEach s' q.who.rcb (requestRecords q') with
        | .error h => .next (s.noteFull q.who.rcb h)
        | .ok s' => .next (endRequest s' q [])
      else .next { s' with micro := s'.micro.map fun x => if x.id = k then q' else x }
    | .spent _ | .wait => .next s

/-- MICROCODE_WATCHDOG: request k executes 65,536 microwords and fails. -/
def execMicrocodeWatchdog (k : Nat) (s : State) : Host.Outcome State Fault Refusal :=
  match headRequest s k with
  | none => .next s
  | some q => match performRequest s q with
    | .spent s' => .next (failRequest s' q { cause := cWATCHDOG })
    | _ => .next s

end Sys2Proof.Machine
end

