-- ==== Sys2Proof/Machine/Matrix.lean ====
section
/-! DEFINITION. Accumulator memory (R260 to R265), matrix products (R145, R146, R266 to R268), the matrix
unit's turns (R75) and the weight buffer (R269, R270). -/

namespace Sys2Proof.Machine

/-! ## Handles and tiles (R260, R261, R263) -/

/-- ENTRY of a handle. -/
def hEntry (h : Word) : Nat := bits h.toNat 31 26
/-- GEN of a handle. -/
def hGen (h : Word) : Nat := bits h.toNat 25 16
/-- SHARE of a handle. -/
def hShare (h : Word) : Nat := bits h.toNat 11 10
/-- TOFF of a handle. -/
def hToff (h : Word) : Nat := bits h.toNat 9 0

namespace State

/-- An AM handle entry of an engine. -/
def handle (s : State) (e n : Nat) : Handle := lgetD n (s.engine e).handles {}

/-- A change of a handle entry. -/
def modHandle (s : State) (e n : Nat) (f : Handle → Handle) : State :=
  s.modEngine e fun E => { E with handles := lmod n {} f E.handles }

/-- The index of an engine within a block (R43). -/
def shareOf (s : State) (blk e : Nat) : Nat := ((s.block blk).engines.findIdx? (· = e)).getD 4

/-- The block whose handle entry a handle names on an engine, none for an invalid handle (R260). -/
def handleOwner (s : State) (e : Nat) (h : Word) : Option Nat :=
  let H := s.handle e (hEntry h)
  match H.blk with
  | some b => if H.gen = hGen h ∧ s.shareOf b e = hShare h ∧ bits h.toNat 15 12 = 0 then some b else none
  | none => none

/-- A handle is valid for a block on an engine. -/
def handleOk (s : State) (e blk : Nat) (h : Word) : Bool := s.handleOwner e h = some blk

end State

/-- A tile of a handle is allocated. -/
def tileOk (H : Handle) (t : Nat) : Bool := t < 16 * H.banks.length

/-- Word of element (i, j) of tile t within its handle (R261). -/
def tileIndex (H : Handle) (t i j : Nat) : Nat :=
  if H.shape.getLsbD 0 then 256 * t + i + 16 * j else 256 * t + 16 * i + j

/-- AM word of element (i, j) of tile t: 4,096 · bank + word. -/
def tileWord (H : Handle) (t i j : Nat) : Nat :=
  let w := tileIndex H t i j
  4096 * H.banks.getD (w / 4096) 0 + w % 4096

namespace State

/-- Element (i, j) of tile t of a handle entry. -/
def amRead (s : State) (e n t i j : Nat) : Word := lgetD (tileWord (s.handle e n) t i j) (s.engine e).am 0

/-- An element written; the write ends an uncorrectable error of the word (R358). -/
def amWrite (s : State) (e n t i j : Nat) (v : Word) : State :=
  let w := tileWord (s.handle e n) t i j
  s.modEngine e fun E => { E with am := sput 0 w v E.am, amBad := E.amBad.filter (· ≠ w) }

/-- The elements of some rows of a tile. -/
def tileCells (rows : List Nat) : List (Nat × Nat) :=
  (rows.map fun i => (upTo 16).map fun j => (i, j)).flatten

/-- The handle's word of an element of some rows of a tile that reads as uncorrectable (R358). -/
def amBadWord (s : State) (e n t : Nat) (rows : List Nat) : Option Nat :=
  let H := s.handle e n
  ((tileCells rows).find? fun c => (s.engine e).amBad.contains (tileWord H t c.1 c.2)).map
    fun c => tileIndex H t c.1 c.2

end State

/-- UNCORRECTABLE_ECC for an AM word (R358, R360). -/
def amEcc (e w : Nat) : TrapInfo := { cause := cECC, addr := w, aux := unitEngine e }

/-- AM_UNALLOC_WRITE (R261). -/
def amUnalloc (t : Nat) : TrapInfo := { cause := cAMUNALLOC, aux := t }

/-! ## AMALLOC, AMFREE, AMSHAPE (R262, R263) -/

/-- Free banks of a block's reservation on an engine, in ascending order. -/
def freeBanks (s : State) (e blk : Nat) : List Nat :=
  let mine := (s.block blk).banks.getD (s.shareOf blk e) []
  let used := ((s.engine e).handles.filter fun h => h.2.blk = some blk).map fun h => h.2.banks
  sortBy id (mine.filter fun b => !used.flatten.contains b)

/-- AMALLOC of n banks: the handle and the state, none where it fails. -/
def allocBanks (s : State) (e blk n : Nat) : Option (Word × State) :=
  let free := freeBanks s e blk
  match (upTo 64).find? fun k => (s.handle e k).blk.isNone with
  | none => none
  | some k =>
    if n = 0 ∨ 64 < n ∨ free.length < n then none
    else
      let banks := free.take n
      let gen := if (s.handle e k).gen = 1023 then 1 else (s.handle e k).gen + 1
      let keep := fun (w : Nat) => !banks.contains (w / 4096)
      let s := s.modHandle e k fun _ => { gen := gen, banks := banks, shape := 0, blk := some blk }
      let s := s.modEngine e fun E =>
        { E with am := E.am.filter fun c => keep c.1, amBad := E.amBad.filter keep }
      some (BitVec.ofNat 32 (k * 2 ^ 26 + gen * 2 ^ 16 + s.shareOf blk e * 2 ^ 10), s)

/-- AMALLOC. -/
def execAmalloc (d a : Field) (s : State) : Host.Outcome State Fault Refusal :=
  runLanes (.amalloc d a) (fun s0 s t =>
    let G := s.group s.iss.g
    match allocBanks s G.kind.engine G.blk (s0.reg t a).toNat with
    | some (h, s) => .ok ((s.setReg t d h).setPred t 0#3 true)
    | none => .ok ((s.setReg t d 0#32).setPred t 0#3 false)) s

/-- AMFREE. -/
def execAmfree (a : Field) (s : State) : Host.Outcome State Fault Refusal :=
  runLanes (.amfree a) (fun s0 s t =>
    let G := s.group s.iss.g
    let e := G.kind.engine
    let h := s0.reg t a
    let n := hEntry h
    if !s.handleOk e G.blk h then .ok s
    else if s.handleBusy e n then .wait s (.handle e n)
    else .ok (s.modHandle e n fun H => { gen := H.gen })) s

/-- A shape word's reserved bits are zero. -/
def shapeOk (w : Word) : Bool := bits w.toNat 31 19 = 0 && bits w.toNat 10 8 ≠ 7

/-- AMSHAPE. A reserved shape bit is found before an invalid handle, an order that R263 does not give (DESIGN CHOICE,
log entry 114). -/
def execAmshape (a b : Field) (s : State) : Host.Outcome State Fault Refusal :=
  runLanes (.amshape a b) (fun s0 s t =>
    let G := s.group s.iss.g
    let e := G.kind.engine
    let h := s0.reg t a
    let n := hEntry h
    let ok := s.handleOk e G.blk h
    if ok && s.handleBusy e n then .wait s (.handle e n)
    else if !shapeOk (s0.reg t b) then .trap { cause := cRESERVED }
    else if !ok then .trap (amUnalloc 0)
    else .ok (s.modHandle e n fun H => { H with shape := s0.reg t b })) s

/-! ## AMRD, AMWR, AMZERO (R264) -/

/-- The tile that a handle and a selector name. -/
def selTile (h sel : Word) : Nat := (bits sel.toNat 9 0 + hToff h) % 1024
/-- ROW of a selector. -/
def selRow (sel : Word) : Nat := bits sel.toNat 13 10

/-- The tile that a thread names, with the wait for its pending bit (R400): k receives the entry, none for
an unallocated tile. -/
def withTile (s : State) (h : Word) (tile : Nat) (k : Option Nat → LaneRes) : LaneRes :=
  let G := s.group s.iss.g
  let e := G.kind.engine
  let n := hEntry h
  if s.handleOk e G.blk h && tileOk (s.handle e n) tile then
    if s.tilePending e n tile then .wait s (.tile e n tile) else k (some n)
  else k none

/-- AMRD. -/
def execAmrd (d a b : Field) (s : State) : Host.Outcome State Fault Refusal :=
  runLanes (.amrd d a b) (fun s0 s t =>
    let e := (s.group s.iss.g).kind.engine
    let h := s0.reg t a
    let sel := s0.reg t b
    let tile := selTile h sel
    withTile s h tile fun
      | none => .ok (s.setRun t d (List.replicate 16 0))
      | some n => match s.amBadWord e n tile [selRow sel] with
        | some w => .trap (amEcc e w)
        | none => .ok (s.setRun t d ((upTo 16).map fun j => s.amRead e n tile (selRow sel) j))) s

/-- AMWR. -/
def execAmwr (d a b : Field) (s : State) : Host.Outcome State Fault Refusal :=
  runLanes (.amwr d a b) (fun s0 s t =>
    let e := (s.group s.iss.g).kind.engine
    let h := s0.reg t a
    let sel := s0.reg t b
    let tile := selTile h sel
    withTile s h tile fun
      | none => .trap (amUnalloc tile)
      | some n => .ok ((upTo 16).foldl
          (fun s j => s.amWrite e n tile (selRow sel) j (s0.regAt t d j)) s)) s

/-- Every element of a tile zero. -/
def zeroTile (s : State) (e n tile : Nat) : State :=
  (State.tileCells (upTo 16)).foldl (fun s c => s.amWrite e n tile c.1 c.2 0#32) s

/-- AMZERO. -/
def execAmzero (a b : Field) (s : State) : Host.Outcome State Fault Refusal :=
  runLanes (.amzero a b) (fun s0 s t =>
    let e := (s.group s.iss.g).kind.engine
    let h := s0.reg t a
    let tile := selTile h (s0.reg t b)
    withTile s h tile fun
      | none => .trap (amUnalloc tile)
      | some n => .ok (zeroTile s e n tile)) s

/-! ## AMDRAIN (R265) -/

/-- Row i of a tile as words; +0 words for an unallocated tile. -/
def tileRow (s : State) (e : Nat) (n : Option Nat) (tile i : Nat) : List Word := match n with
  | none => List.replicate 16 0
  | some n => (upTo 16).map fun j => s.amRead e n tile i j

/-- The address of row i: STR of the selector. -/
def rowAt (base str i : Nat) : Nat := base + i * 64 * (str + 1)

/-- The operation of AMDRAIN.add: FP32, or s32 by the shape word of the handle entry, also for a tile that is not
allocated. DESIGN CHOICE (log entry 136): through a handle that names no entry there is no shape, and the zeros that it
drains are added as FP32. -/
def addOp (s : State) (e : Nat) (n : Option Nat) : AtomOp := match n with
  | none => .addF32
  | some n => if (s.handle e n).shape.getLsbD 1 then .add else .addF32

/-- The thread may drain the tile: OWN is clear, or its group owns the band (R263). A band whose owner is
not a group of the block has none. -/
def ownsBand (s : State) (e : Nat) (n : Option Nat) (tile : Nat) (gid : Nat) : Bool := match n with
  | none => true
  | some n =>
    let w := (s.handle e n).shape.toNat
    let band := tile / (bits w 7 2 + 1) / 2 ^ bits w 10 8
    !bit w 11 || gid = bits w 18 12 + band

/-- The atomics of a row; the reply takes the item. -/
def rowAtoms (s : State) (e : Nat) (h n : Option Nat) (tile i pa va : Nat) (sink : Nat → ReplyTo) : List AtomReq :=
  (tileRow s e n tile i).zipIdx.map fun w =>
    { pa := pa + 4 * w.2, va := va + 4 * w.2, width := 4, op := addOp s e h, signed := true, b := w.1.toNat
      e := 0, mo := {}, sink := sink (16 * i + w.2) }

/-- The atomics of the rows of a tile, given as virtual and physical address and memory type. -/
def tileAtoms (s : State) (e : Nat) (h n : Option Nat) (tile : Nat) (rows : List (Nat × Nat × Nat))
    (sink : Nat → ReplyTo) : List (Nat × AtomReq) :=
  (rows.zipIdx.map fun p => (rowAtoms s e h n tile p.2 p.1.2.1 p.1.1 sink).map fun r => (p.1.2.2, r)).flatten

/-- Atomics, each with its memory type, sent line by line, in order: those of a line together (R123). -/
def sendLines (s : State) (ch : Nat → Nat) (c : Nat) (rs : List (Nat × AtomReq)) : State :=
  ((rs.map fun r => (r.1, lineOf r.2.pa)).eraseDups).foldl (fun s l =>
    s.sendAtoms (ch (l.2 / 4096)) c l.1
      ((rs.filter fun r => (r.1, lineOf r.2.pa) = l).map Prod.snd)) s

/-- A tile added word by word to an SPM address. -/
def addSpmTile (s : State) (blk e : Nat) (h n : Option Nat) (tile base str : Nat) : State :=
  let op := addOp s e h
  (upTo 16).foldl (fun s i =>
    ((tileRow s e n tile i).zipIdx).foldl (fun s w =>
      let x := rowAt base str i + 4 * w.2
      match atomNew op true 4 (ofBytes (s.spmRead blk x 4)) w.1.toNat 0 with
      | some v => s.spmWrite blk x (toBytes 4 v)
      | none => s) s) s

/-- A tile written to an SPM address. -/
def putSpmTile (s : State) (blk e : Nat) (n : Option Nat) (tile base str : Nat) : State :=
  (upTo 16).foldl (fun s i => s.spmWrite blk (rowAt base str i) (bytesOf (tileRow s e n tile i))) s

/-- The bound check of the 16 rows in SPM. -/
def rowsBound (s : State) (g base str : Nat) : Option TrapInfo :=
  (upTo 16).findSome? fun i => s.spmBad g (rowAt base str i) 64

/-- The wait or poison of the lines that an addition to SPM reads. -/
def rowsReady (s : State) (blk base str : Nat) : SpmRes :=
  match (upTo 16).findSome? fun i => match s.spmReady blk (rowAt base str i) 64 with
    | .ok => none
    | r => some r with
  | some r => r
  | none => .ok

/-- The rows stored one after another; a row that must wait leaves the whole drain for later. -/
def storeRows (t : Nat) (bs : Nat → List Byte) : State → List (Nat × Nat × Nat × Nat) → Nat → LaneRes
  | s, [], _ => .ok s
  | s, (_, pa, mt, _) :: rest, i => match s.storeAt t pa mt (bs i) {} none with
    | .ok s => storeRows t bs s rest (i + 1)
    | r => r

/-- AMDRAIN to global memory. -/
def drainGlobal (add : Bool) (s : State) (t base str e : Nat) (h n : Option Nat) (tile : Nat) : LaneRes :=
  let g := s.iss.g
  let rows := (upTo 16).map fun i => (rowAt base str i % 2 ^ 64, 64)
  match translatePieces g t (if add then 2 else 1) s rows with
  | .fault ti => .trap ti
  | .wait s w => .wait s w
  | .ok s ps =>
    if !add then match storeRows t (fun i => bytesOf (tileRow s e n tile i)) s ps 0 with
      | .wait _ w => .wait s w
      | r => r
    else
      let c := (s.group g).kind.cluster
      let (ent, sent) := s.nextEnt g t 40
      let sink := ReplyTo.record (s.who t) (s.group g).kind.unit ent 1
      let rs := tileAtoms s e h n tile (ps.map fun p => (p.1, p.2.1, p.2.2.1)) sink
      if s.reading g t then .wait s .loads
      else match rs.find? fun r => s.lineBusy c (lineOf r.2.pa) with
      | some r => .wait s (.grants c (lineOf r.2.pa))
      | none => .ok (sendLines sent (chanPage g) c rs)

/-- AMDRAIN to SPM: without .add as STS. -/
def drainSpm (add : Bool) (s : State) (t base str e : Nat) (h n : Option Nat) (tile : Nat) : LaneRes :=
  let g := s.iss.g
  let blk := (s.group g).blk
  match rowsBound s g base str with
  | some ti => .trap ti
  | none =>
    if s.reading g t then .wait s .loads
    else if !add then .ok (putSpmTile s blk e n tile base str)
    else match rowsReady s blk base str with
      | .wait w => .wait s w
      | .trap ti => .trap ti
      | .ok => .ok (addSpmTile s blk e h n tile base str)

/-- AMDRAIN and AMDRAIN.add, with their own order of checks (R265). -/
def drain (i : Instr) (add : Bool) (d a b : Field) (s : State) : Host.Outcome State Fault Refusal :=
  runLanes i (fun s0 s t =>
    let e := (s.group s.iss.g).kind.engine
    let h := s0.reg t a
    let sel := s0.reg t b
    let tile := selTile h sel
    let spm := sel.getLsbD 14
    let str := bits sel.toNat 31 16
    match (if spm then none else runChecks s0 t [(d, 2, true)]) with
    | some ti => .trap ti
    | none => withTile s h tile fun n =>
      let base := if spm then (s0.reg t d).toNat else (s0.pair t d).toNat
      if !ownsBand s e n tile (s0.th t).ident.gid.toNat then .trap { cause := cAMBAND, aux := tile }
      else match misaligned base 64 with
      | some ti => .trap ti
      | none => match n.bind fun n => s.amBadWord e n tile (upTo 16) with
      | some w => .trap (amEcc e w)
      | none =>
        let own := if s.handleOk e (s.group s.iss.g).blk h then some (hEntry h) else none
        if spm then drainSpm add s t base str e own n tile else drainGlobal add s t base str e own n tile) s

/-- AMDRAIN. -/
def execAmdrain (d a b : Field) (s : State) : Host.Outcome State Fault Refusal :=
  drain (.amdrain d a b) false d a b s

/-- AMDRAIN.add. -/
def execAmdrainAdd (d a b : Field) (s : State) : Host.Outcome State Fault Refusal :=
  drain (.amdrainAdd d a b) true d a b s

/-! ## Products (R145, R146, R266 to R268) -/

/-- The type is an operand of a matrix product: 0 for the 16-bit class, 1 for the narrow class. -/
def matrixClass : SlotTy → Option Nat
  | .fp32 => none
  | .fp16 | .bf16 => some 0
  | _ => some 1

/-- K of a class. -/
def depthOf (ty : SlotTy) : Nat := if matrixClass ty = some 0 then 32 else 64

/-- ROWB of n elements. -/
def rowBytes (ty : SlotTy) (n : Nat) : Nat := ty.bytes n

/-- Element k of a row given as one number. -/
def rowValue (ty : SlotTy) (row k : Nat) : Val :=
  if ty.block ≠ 0 then
    let w := 8 * ty.blockBytes
    blockValue ty.block (row / 2 ^ (w * (k / 16)) % 2 ^ w) (k % 16)
  else ty.value (row / 2 ^ (ty.bits * k) % 2 ^ ty.bits)

/-- value_T(x) × S for a matrix operand (R134, R135). -/
def scaledValue (v : SlotVal) (x : Val) : Val := if scaleOk v.scale then (vmul x (f32 v.scale)).1 else .nan

/-- A finite value in units of 2^u, truncated toward zero, with its sign. -/
def truncAt (u : Int) : Val → Int
  | .fin neg num den =>
    let q := (quotAt num den u).1
    if neg then -(q : Int) else q
  | _ => 0

/-- The sum of an element's products (R145 steps 2 and 3), rounded to FP32. -/
def windowSum (ps : List Val) : Word :=
  let isInf := fun (v : Val) (n : Bool) => v = .inf n
  if ps.any Val.isNan then nan32
  else if ps.any (isInf · true) && ps.any (isInf · false) then nan32
  else if ps.any (isInf · true) then BitVec.ofNat 32 (fp32.inf true)
  else if ps.any (isInf · false) then BitVec.ofNat 32 (fp32.inf false)
  else
    let exps := ps.filterMap fun v => match v with
      | .fin _ num den => if num = 0 then none else some (floorLog2 num den)
      | _ => none
    match exps with
    | [] => if ps.all Val.neg && ps ≠ [] then 0x80000000#32 else 0#32
    | e :: rest =>
      let u := rest.foldl max e - 40
      let sum := (ps.map (truncAt u)).sum
      let v := if sum = 0 then Val.fin false 0 1 else scaled (sum < 0) sum.natAbs u
      (roundFP32 .rne v).1

/-- The integer of an INT8 or INT4 value. -/
def intValue : Val → Int
  | .fin neg num _ => if neg then -(num : Int) else num
  | _ => 0

/-- The new accumulator word of an element from its operand pairs (R145, R146). -/
def accumulate (sa sb : SlotVal) (s32 : Bool) (acc : Word) (pairs : List (Val × Val)) : Word :=
  if s32 then BitVec.ofNat 32 (wrap 32 (acc.toNat + (pairs.map fun p => intValue p.1 * intValue p.2).sum))
  else
    let ps := pairs.map fun p => (vmul (scaledValue sa p.1) (scaledValue sb p.2)).1
    (fAdd acc (windowSum ps)).1

/-- Position of stored element c of an A row in the logical depth (R268). -/
def sparseIndex (p : Pattern) (ws : List Word) (c : Nat) : Nat :=
  let (m, n, _) := Pattern.shape p
  let lg := m.log2
  m * (c / n) + ofBytes (bytesOf ws) / 2 ^ (lg * c) % 2 ^ lg

/-- Elements that an A row stores. -/
def storedDepth (ty : SlotTy) (p : Option Pattern) : Nat := match p with
  | none => depthOf ty
  | some p =>
    let (m, n, _) := Pattern.shape p
    2 * depthOf ty * n / m

/-- Elements that a B column stores in WB. -/
def columnDepth (ty : SlotTy) (sparse : Bool) : Nat := if sparse then 2 * depthOf ty else depthOf ty

/-- Bytes of B in WB. -/
def columnBytes (q : QuarterOp) : Nat := rowBytes (slotTy q.sb.fs) (columnDepth (slotTy q.sb.fs) q.sparse.isSome)

namespace State

/-- n bytes of an engine's WB. -/
def wbRead (s : State) (e a n : Nat) : List Byte := readBytes (s.engine e).wb a n

/-- A granule of n bytes from a that is not tagged for a block (R270). -/
def wbForeign (s : State) (e a n : Nat) (tag : Nat × Nat) : Option Nat :=
  ((upTo ((a + n - 1) / 512 - a / 512 + 1)).map (a / 512 + ·)).find? fun gr =>
    lget gr (s.engine e).wbTag ≠ some tag

end State

/-- The operand pairs of element (i, j) of a quarter operation, with the rows and columns as numbers. -/
def operandPairs (q : QuarterOp) (rows cols : List Nat) (i j : Nat) : List (Val × Val) :=
  let ta := slotTy q.sa.fs
  let tb := slotTy q.sb.fs
  (upTo (storedDepth ta (q.sparse.map Prod.fst))).map fun c =>
    let k := match q.sparse with
      | none => c
      | some (p, ws) => sparseIndex p (ws.getD i []) c
    (rowValue ta (rows.getD i 0) c, rowValue tb (cols.getD j 0) k)

/-- A quarter operation performed on its tile: every element that is not uncorrectable (R358). -/
def performQuarter (s : State) (e : Nat) (q : QuarterOp) : State :=
  let H := s.handle e q.entry
  let n := columnBytes q
  let cols := match q.wb with
    | some o => (upTo 16).map fun j => ofBytes (s.wbRead e (o + j * n) n)
    | none => q.cols.map ofBytes
  let rows := q.rows.map ofBytes
  let s32 := H.shape.getLsbD 1
  let s := (State.tileCells (upTo 16)).foldl (fun (s : State) c =>
    if (s.engine e).amBad.contains (tileWord H q.tile c.1 c.2) then s
    else s.amWrite e q.entry q.tile c.1 c.2
      (accumulate q.sa q.sb s32 (s.amRead e q.entry q.tile c.1 c.2) (operandPairs q rows cols c.1 c.2))) s
  s.spend (e / 64) (s.block q.blk).rcb 16

/-! ## MMA, MMAS at issue (R267) -/

/-- A product instruction: slots, pattern, handle, A, B, metadata fields and tile. -/
structure Product where
  i : Instr
  sa : BitVec 3
  sb : BitVec 3
  pattern : Option Pattern
  h : Field
  a : Field
  b : Field
  /-- B comes from registers. -/
  regs : Bool
  e : Field
  t : Nat

/-- Registers of an A or B fragment: two rows. -/
def fragmentRegs (ty : SlotTy) (n : Nat) : Nat := 2 * rowBytes ty n / 4

/-- Registers of a metadata run: two rows, each of whole registers. -/
def metaRegs (ty : SlotTy) (p : Pattern) : Nat :=
  2 * ((storedDepth ty (some p) * (Pattern.shape p).1.log2 + 31) / 32)

/-- Row 2r + half of the fragment of thread u, or zeros where the thread is not live. -/
def fragmentRow (s : State) (ty : SlotTy) (n u half : Nat) (f : Field) : List Byte :=
  let k := rowBytes ty n / 4
  if (s.th u).slot = .live then bytesOf ((upTo k).map fun i => s.regAt u f (half * k + i))
  else List.replicate (4 * k) 0

/-- The slots of a product are of one class (R266). -/
def slotsOk (ta tb : SlotTy) : Bool := (matrixClass ta).isSome && matrixClass ta = matrixClass tb

/-- The tile type agrees with the slots: an s32 tile needs INT8 or INT4 on both sides. -/
def tileTypeOk (H : Handle) (ta tb : SlotTy) : Bool :=
  let int := fun (t : SlotTy) => t = .int8 || t = .int4
  !H.shape.getLsbD 1 || (int ta && int tb)

/-- The quarter operation that a quarter of the bundle asks for, without its serial, or its fault. A tile type that
does not agree with the slots is found last, an order that R267 does not give (DESIGN CHOICE, log entry 115). -/
def quarterOp (s : State) (m : Product) (q : Nat) : Except TrapInfo QuarterOp :=
  let G := s.cur
  let e := G.kind.engine
  let part := match G.kind with
    | .simt _ p => p
    | _ => 0
  let all := (upTo 8).map (8 * q + ·)
  let mine := s.iss.ts.filter fun t => t / 8 = q
  let live := all.filter fun t => (s.th t).slot = .live
  let t0 := mine.headD 0
  let sa := s.slot t0 m.sa.toNat
  let sb := s.slot t0 m.sb.toNat
  let ta := slotTy sa.fs
  let tb := slotTy sb.fs
  let na := storedDepth ta m.pattern
  let nb := columnDepth tb m.pattern.isSome
  let runs := [(m.a, fragmentRegs ta na, true)]
    ++ (if m.regs then [(m.b, fragmentRegs tb nb, true)] else [])
    ++ (match m.pattern with
      | some p => [(m.e, metaRegs ta p, true)]
      | none => [])
  let h := s.reg t0 m.h
  let tile := (m.t + hToff h) % 1024
  let o := (s.reg t0 m.b).toNat
  let row := fun (f : Field) (ty : SlotTy) (n r : Nat) => fragmentRow s ty n (8 * q + r / 2) (r % 2) f
  let H := s.handle e (hEntry h)
  let size := 16 * rowBytes tb nb
  if live.any fun t => !mine.contains t then .error { cause := cILLEGAL, aux := 1 }
  else match mine.findSome? (laneCheck m.i s) with
  | some ti => .error ti
  | none =>
    if !slotsOk ta tb then .error { cause := cRESERVED, aux := 1 }
    else match (mine.filter fun t => live.contains t).findSome? fun t => runChecks s t runs with
    | some ti => .error ti
    | none =>
      if !m.regs && o % 16 ≠ 0 then .error { cause := cMISALIGN, addr := o }
      else if !m.regs && 2 ^ 19 < o + size then .error { cause := cWB, aux := o }
      else if !(s.handleOk e G.blk h && tileOk H tile) then .error (amUnalloc tile)
      else if !tileTypeOk H ta tb then .error { cause := cRESERVED, aux := 2 }
      else match s.amBadWord e (hEntry h) tile (upTo 16) with
      | some w => .error (amEcc e w)
      | none =>
        let half := fun (p : Pattern) => metaRegs ta p / 2
        .ok { part := part, blk := G.blk, entry := hEntry h, tile := tile, sa := sa, sb := sb
              rows := (upTo 16).map (row m.a ta na)
              cols := if m.regs then (upTo 16).map (row m.b tb nb) else []
              wb := if m.regs then none else some o
              sparse := m.pattern.map fun p => (p, (upTo 16).map fun r =>
                if (s.th (8 * q + r / 2)).slot = .live then
                  (upTo (half p)).map fun i => s.regAt (8 * q + r / 2) m.e (r % 2 * half p + i)
                else List.replicate (half p) 0)
              serial := 0 }

/-- The tile that a quarter of the bundle names, where it is pending (R400). -/
def pendingTile (s : State) (m : Product) (q : Nat) : Option WaitOn :=
  let G := s.cur
  let e := G.kind.engine
  let h := s.reg ((s.iss.ts.filter fun t => t / 8 = q).headD 0) m.h
  let tile := (m.t + hToff h) % 1024
  if s.handleOk e G.blk h && s.tilePending e (hEntry h) tile then some (.tile e (hEntry h) tile) else none

/-- The WBLDs that a quarter's B waits for (R270). -/
def quarterLoads (s : State) (e : Nat) (q : QuarterOp) : Option WaitOn := match q.wb with
  | none => none
  | some o =>
    let w : WaitOn := .wb e (o / 512) ((o + 16 * columnBytes q - 1) / 512)
    if s.met 0 0 w then none else some w

/-- A quarter's B touches a granule of another block (R270). -/
def quarterForeign (s : State) (e : Nat) (tag : Nat × Nat) (q : QuarterOp) : Option TrapInfo := match q.wb with
  | none => none
  | some o => (s.wbForeign e o (16 * columnBytes q) tag).map fun gr =>
      { cause := cPOISON, addr := 0, aux := 512 * gr }

/-- A product for a bundle: a pending tile holds the bundle; faulty quarters trap; the others enter the
dispatch queue together, or wait for their loads or for room (R75, R267, R400). -/
def product (m : Product) (s : State) : Host.Outcome State Fault Refusal :=
  let G := s.cur
  let e := G.kind.engine
  let ts := s.iss.ts
  let quarters := (upTo 4).filter fun q => ts.any fun t => t / 8 = q
  let threads := fun (qs : List Nat) => ts.filter fun t => qs.contains (t / 8)
  let stayAll := fun (s : State) (qs : List Nat) (w : WaitOn) => (threads qs).foldl (fun s t => s.stay t w) s
  if G.kind.isSwarm then .next (s.trapLanes (ts.map fun t => (t, { cause := cNOSWARM })))
  else match quarters.findSome? (pendingTile s m) with
  | some w => .next (stayAll s quarters w)
  | none =>
    let tag := (G.lr, (s.owner s.iss.g (ts.headD 0)).bid)
    let tried := quarters.map fun q => (q, quarterOp s m q)
    let good := tried.filterMap fun x => match x.2 with
      | .ok op => some (x.1, op)
      | .error _ => none
    let loads := good.findSome? fun x => quarterLoads s e x.2
    let check := fun (x : Nat × QuarterOp) => if loads.isSome then none else quarterForeign s e tag x.2
    let faults := tried.filterMap fun x => match x.2 with
      | .ok op => (check (x.1, op)).map fun ti => (x.1, ti)
      | .error ti => some (x.1, ti)
    let ops := good.filter fun x => (check x).isNone
    let qs := ops.map Prod.fst
    let part := match G.kind with
      | .simt _ p => p
      | _ => 0
    let room : WaitOn := .dispatch e part ops.length
    let s := match loads with
      | some w => stayAll s qs w
      | none =>
        if !s.met s.iss.g 0 room then stayAll s qs room
        else
          let s := (threads qs).foldl (fun (s : State) t => (s.advance t).settle t) s
          let add := ops.map fun (x : Nat × QuarterOp) =>
            let o : QuarterOp := { x.2 with serial := s.serial }
            o
          { s.modEngine e fun E => { E with dispatch := E.dispatch ++ add } with serial := s.serial + 1 }
    let traps := ts.filterMap fun t => (lget (t / 8) faults).map fun ti => (t, ti)
    .next (s.trapLanes traps)

/-- MMA with B from the weight buffer. -/
def execMma (sa sb : BitVec 3) (h a b : Field) (t : BitVec 10) (s : State) :
    Host.Outcome State Fault Refusal :=
  product { i := .mma sa sb h a b t, sa := sa, sb := sb, pattern := none, h := h, a := a, b := b
            regs := false, e := 0, t := t.toNat } s

/-- MMA.r. -/
def execMmaR (sa sb : BitVec 3) (h a b : Field) (t : BitVec 10) (s : State) :
    Host.Outcome State Fault Refusal :=
  product { i := .mmaR sa sb h a b t, sa := sa, sb := sb, pattern := none, h := h, a := a, b := b
            regs := true, e := 0, t := t.toNat } s

/-- MMAS. -/
def execMmas (sa sb : BitVec 3) (p : Pattern) (h a b e : Field) (t : BitVec 10) (s : State) :
    Host.Outcome State Fault Refusal :=
  product { i := .mmas sa sb p h a b e t, sa := sa, sb := sb, pattern := some p, h := h, a := a, b := b
            regs := false, e := e, t := t.toNat } s

/-! ## The matrix unit's turns (R75) -/

/-- Quarter operations of the partition in turn. -/
def inTurn (E : Engine) : List QuarterOp := E.dispatch.filter fun q => q.part = E.turn

/-- The turn passes to the next partition. -/
def passTurn (E : Engine) : Engine := { E with turn := (E.turn + 1) % 4, used := 0, seqTurn := false }

/-- MATRIX_TURN: the turn of a partition with an empty queue passes on, and so does the turn that the sequencer has
taken, which holds at most 16 of its operations. -/
def execMatrixTurn (e : Nat) (s : State) : Host.Outcome State Fault Refusal :=
  let E := s.engine e
  if inTurn E = [] || E.seqTurn || 16 ≤ E.used then .next (s.modEngine e passTurn) else .next s

/-- QUARTER_OPERATION: the matrix unit performs the next operation of the partition in turn; the tile's
pending bit falls. -/
def execQuarterOperation (e : Nat) (s : State) : Host.Outcome State Fault Refusal :=
  let E := s.engine e
  match inTurn E with
  | q :: _ =>
    if 16 ≤ E.used || E.seqTurn then .next s
    else .next ((performQuarter s e q).modEngine e fun E =>
      let E := { E with dispatch := E.dispatch.erase q, used := E.used + 1 }
      -- the turn ends with its sixteenth operation, or when its queue empties
      if 16 ≤ E.used || inTurn E = [] then passTurn E else E)
  | [] => .next s

/-! ## WBLD and the loader (R269, R270) -/

/-- The checks of WBLD at issue. An offset past the buffer's end is WB_BOUND also where N = 0, of which R269 says
nothing, while an empty scratchpad range meets no bound (DESIGN CHOICE, log entry 116). -/
def wbldCheck (s : State) (v : SlotVal) (off spm : Nat) (c : Word) : Option TrapInfo :=
  let ty := slotTy v.fs
  let n := bits c.toNat 23 0
  let size := ty.bytes n
  let src := if c.getLsbD 31 then size else 4 * n
  if bits c.toNat 30 24 ≠ 0 || (ty.block ≠ 0 && n % 16 ≠ 0) || (ty = .int4 && n % 2 ≠ 0) then
    some { cause := cRESERVED }
  else if off % 16 ≠ 0 then some { cause := cMISALIGN, addr := off }
  else if spm % 4 ≠ 0 then some { cause := cMISALIGN, addr := spm }
  else if 2 ^ 19 < off + size then some { cause := cWB, aux := off }
  else if src = 0 then none
  else s.spmBad s.iss.g spm src

/-- WBLD. -/
def execWbld (mo : MemOrd) (n : BitVec 3) (d a b : Field) (s : State) : Host.Outcome State Fault Refusal :=
  runLanes (.wbld mo n d a b) (fun s0 s t =>
    let g := s.iss.g
    let G := s.group g
    let e := G.kind.engine
    let v := s.slot t n.toNat
    let c := s0.reg t b
    let off := (s0.reg t d).toNat
    let spm := (s0.reg t a).toNat
    match wbldCheck s v off spm c with
    | some ti => .trap ti
    | none => match entryWait s0 s t mo with
    | (s, some w) => .wait s w
    | (s, none) =>
      if !s.met g t (.loader e) then .wait s (.loader e)
      else
        let (ent, s) := s.nextEnt g t 16
        let raw := c.getLsbD 31
        let num := bits c.toNat 23 0
        let q : WbEntry :=
          { blk := G.blk, offset := off, spm := spm, n := num, raw := raw, slot := v, srn := s.srn t
            key := BitVec.ofNat 64 (s.streamKey t), who := s.who t, ent := ent, serial := s.serial }
        let s := if raw then s else s.advSrn t (v.draws num)
        .ok { s.modEngine e fun E => { E with loader := E.loader ++ [q] } with serial := s.serial + 1 }) s

/-- Elements of a storage unit of a loader entry. -/
def unitElems (ty : SlotTy) : Nat := if ty.block ≠ 0 then 16 else if ty = .int4 then 2 else 1

/-- SPM address and length of the source of unit u. -/
def unitSource (q : WbEntry) (u : Nat) : Nat × Nat :=
  let ty := slotTy q.slot.fs
  let k := unitElems ty
  if q.raw then (q.spm + u * ty.bytes k, ty.bytes k) else (q.spm + 4 * k * u, 4 * k)

/-- The stored bytes of unit u. -/
def unitData (s : State) (q : WbEntry) (u : Nat) : List Byte :=
  let ty := slotTy q.slot.fs
  let k := unitElems ty
  let (a, n) := unitSource q u
  let bs := s.spmRead q.blk a n
  if q.raw then bs
  else toBytes (ty.bytes k) (packWords q.slot q.key.toNat ((q.srn + k * u) % 2 ^ 24) (wordsOf k bs)).1

/-- Unit u written to the weight buffer, with the tags of its granules (R270). -/
def loadUnit (e : Nat) (q : WbEntry) (s : State) (u : Nat) : State :=
  let ty := slotTy q.slot.fs
  let n := ty.bytes (unitElems ty)
  let a := q.offset + u * n
  let tag := fun (l : List (Nat × (Nat × Nat))) gr => lput gr (q.who.lr, q.who.bid) l
  let bs := unitData s q u
  s.modEngine e fun E =>
    { E with wb := writeBytes E.wb a bs, wbTag := tag (tag E.wbTag (a / 512)) ((a + n - 1) / 512) }

/-- WB_LOADER_ENTRY: the entry at the head of the loader, once its source lines are full and the products
issued before it have read the buffer. -/
def execWbLoaderEntry (e : Nat) (s : State) : Host.Outcome State Fault Refusal :=
  match (s.engine e).loader with
  | [] => .next s
  | q :: rest =>
    let ty := slotTy q.slot.fs
    let k := unitElems ty
    let units := upTo (q.n / k)
    let src := if q.raw then ty.bytes q.n else 4 * q.n
    let early := ((s.engine e).dispatch.any fun x => x.wb.isSome && x.serial < q.serial)
      || (s.engine e).queue.any fun x => bits (cw x.w 0) 3 0 = 0 && x.serial < q.serial
    if (s.emptyLine q.blk q.spm src).isSome || early then .next s
    else
      let bad := fun u => s.poisoned q.blk (unitSource q u).1 (unitSource q u).2
      let fails := ((units.filter bad).map fun u => (upTo k).map fun i =>
        (k * u + i, ({ cause := cPOISON, addr := (unitSource q u).1 } : TrapInfo))).flatten
      let id : EntryId :=
        { d := e / 64, unit := unitEngine e, rcb := q.who.rcb, source := 4, index := 0, ent := q.ent }
      match s.complete id q.who fails with
      | .error h => .next (s.noteFull q.who.rcb h)
      | .ok s =>
        let s := (units.filter fun u => !bad u).foldl (loadUnit e q) s
        .next (s.modEngine e fun E => { E with loader := rest })

end Sys2Proof.Machine
end

