-- ==== Sys2Proof/Machine/Issue.lean ====
section
/-! DEFINITION. Fetch and issue (R34, R35, R36, R46, R73, R149, R174, R243, R392): reading the words at a
thread's PC, forming the bundle, and what issue itself counts. -/

namespace Sys2Proof.Machine

/-- The runs of an instruction whose length a slot, a selector or the payload gives (R252, R259, R266, R306); that of an
RDM is known only on arrival, so the longest counts (R231, log entry 41). -/
def longRuns (s : State) (g t : Nat) : Instr → List (Field × Nat)
  | .pack d a n => [(d, (slotTy (s.slotAt g t n.toNat).fs).stored), (a, (slotTy (s.slotAt g t n.toNat).fs).packed)]
  | .unpk d a n => [(d, (slotTy (s.slotAt g t n.toNat).fs).packed), (a, (slotTy (s.slotAt g t n.toNat).fs).stored)]
  | .prune p n d _ => [(d, 1 + pruneRegs p (slotTy (s.slotAt g t n.toNat).fs))]
  | .hgf d a _ | .hgs _ d a _ | .hgsDet _ d a _ =>
    let sel := s.readRegOf g t (a.toNat + 3)
    [(d, Nat.min 64 (selCount sel * selFeat sel))]
  | .rdm d _ => [(d, 16)]
  | .mma sa _ _ a _ _ => [(a, aRegs sa none)]
  | .mmaR sa sb _ a b _ => [(a, aRegs sa none), (b, bRegs sb)]
  | .mmas sa _ p _ a _ e _ => [(a, aRegs sa (some p)), (e, metaRegs (ty sa) p)]
  | _ => []
where
  /-- The type in a slot of the thread. -/
  ty (n : BitVec 3) : SlotTy := slotTy (s.slotAt g t n.toNat).fs
  /-- Registers of an A fragment. -/
  aRegs (n : BitVec 3) (p : Option Pattern) : Nat := fragmentRegs (ty n) (storedDepth (ty n) p)
  /-- Registers of a B fragment. -/
  bRegs (n : BitVec 3) : Nat := fragmentRegs (ty n) (columnDepth (ty n) false)

namespace State

/-- The scoreboard lets thread t issue an instruction: none of its registers and predicates has a
result outstanding (R74). -/
def scoreboard (s : State) (g t : Nat) (i : Instr) : Bool :=
  let h := s.thread g t
  let G := s.group g
  (h.pendX = [] && G.pendK = [] && h.pendC = [])
    || (((uses i ++ longRuns s g t i).all fun u => (s.runNums g t u.1.toNat u.2).all fun n =>
          if n % 2 = 0 then !h.pendX.contains (n / 2) else !G.pendK.contains (n / 2))
        && (predsRead i ++ predsWritten i).all fun c => !h.pendC.contains c.toNat)

end State

/-- The words at a thread's PC: an instruction's words and what they decode to, a fault of the fetch
with the words fetched so far, or a wait for a walk. -/
inductive Fetched
  | words (s : State) (ws : List Word) (r : DecodeResult)
  | fault (ti : TrapInfo) (ws : List Word)
  | wait (s : State) (w : WaitOn)

namespace State

/-- Word by word until the sequence is whole (R392); at most three words. -/
def fetchGo (s : State) (g t : Nat) (pc : Nat) : Nat → List Word → Fetched
  | 0, ws => .words s ws (decode ws)
  | n + 1, ws =>
    let va := (pc + 4 * ws.length) % 2 ^ 64
    match s.translate g t va 3 with
    | .fault ti => .fault { ti with addr := pc } ws
    | .wait s w => .wait s w
    | .ok s pa mt => match s.unitAt (s.group g).kind.cluster (s.group g).rcb pa mt 4 with
      | (_, .error f) => .fault { cause := f.1, addr := pc, aux := f.2 } ws
      | (s, .ok bs) =>
        let ws := ws ++ wordsOf 1 bs
        match decode ws with
        | .truncated => s.fetchGo g t pc n ws
        | r => .words s ws r

/-- The fetch of thread t of group g (R149, R392). -/
def fetch (s : State) (g t : Nat) : Fetched :=
  let pc := (s.thread g t).pc.toNat
  if pc % 4 ≠ 0 then .fault { cause := cMISALIGN, addr := pc } []
  else s.fetchGo g t pc 3 []

/-- The instruction is an MMA or MMAS, whose fragment registers are read for a whole quarter (R267). -/
def isProduct : Instr → Bool
  | .mma .. | .mmaR .. | .mmas .. => true
  | _ => false

/-- No live thread of the quarter at the same PC has a fragment register pending (R267). -/
def quarterReady (s : State) (g t : Nat) (i : Instr) : Bool :=
  (upTo 8).all fun r =>
    let u := t / 8 * 8 + r
    let h := s.thread g u
    h.slot ≠ .live || h.pc ≠ (s.thread g t).pc || s.scoreboard g u i

/-- The handle and the tile that an instruction of thread t names; a quarter's is that of its lowest thread at the
same PC (R264, R267). -/
def tileUse (s : State) (g t : Nat) (i : Instr) : Option (Word × Nat) :=
  let at_ := fun (t : Nat) (f : Field) => s.readRegOf g t f.toNat
  let own := fun (a b : Field) => some (at_ t a, selTile (at_ t a) (at_ t b))
  let first := ((upTo 8).map fun r => t / 8 * 8 + r).find? fun u =>
    let h := s.thread g u
    h.slot = .live && h.pc = (s.thread g t).pc
  let quarter := fun (f : Field) (n : Nat) =>
    let h := at_ (first.getD t) f
    some (h, (n + hToff h) % 1024)
  match i with
  | .amrd _ a b | .amwr _ a b | .amdrain _ a b | .amdrainAdd _ a b | .amzero a b => own a b
  | .mma _ _ h _ _ n | .mmaR _ _ h _ _ n | .mmas _ _ _ h _ _ _ n => quarter h n.toNat
  | _ => none

/-- The tile that an instruction reads or writes is not pending (R74). -/
def tileFree (s : State) (g t : Nat) (i : Instr) : Bool :=
  let G := s.group g
  match s.tileUse g t i with
  | none => true
  | some (h, n) => !(s.handleOk G.kind.engine G.blk h && s.tilePending G.kind.engine (hEntry h) n)

/-- The scoreboard holds no thread back from what was fetched: reserved and illegal words wait for
nothing. -/
def canGo (s : State) (g t : Nat) : Fetched → Bool
  | .words _ _ (.instr i _) => s.scoreboard g t i && (!isProduct i || s.quarterReady g t i) && s.tileFree g t i
  | _ => true

/-- Thread t of group g can issue now. -/
def canIssue (s : State) (g t : Nat) : Bool := s.ready g t && s.canGo g t (s.fetch g t)

/-- The picker's choice (R34): the first thread at or after the start index that can issue. -/
def pick (s : State) (g : Nat) : Option Nat :=
  let G := s.group g
  let n := G.threads.length
  ((upTo n).map fun k => (G.start + k) % n).find? fun t => s.canIssue g t

/-- The bundle of a chosen thread: the threads at its PC that can issue, all Live or all Trapped, in
ascending order (R34, R345). -/
def bundle (s : State) (g t0 : Nat) : List Nat :=
  let h0 := s.thread g t0
  (upTo (s.group g).threads.length).filter fun t =>
    let h := s.thread g t
    h.pc = h0.pc && h.slot = h0.slot && s.canIssue g t

/-- The threads whose fetch faults trap, and those that need a walk wait (R392). -/
def fetchFails (s : State) (g : Nat) (t : Nat) : State := match s.fetch g t with
  | .fault ti ws =>
    let pc := (s.thread g t).pc
    let s := { s with walkFaults := s.walkFaults.filter fun w => !(w.g = g && w.t = t) }
    s.trapAll g [(t, ti)] pc ws fun _ => pc
  | .wait s w => s.modThread g t fun h => { h with wait := some w }
  | .words .. => s

/-- The fetch of a thread gives words. -/
def hasWords (s : State) (g t : Nat) : Bool := match s.fetch g t with
  | .words .. => true
  | _ => false

/-- Cycles that an issue counts (R46): one for a swarm core or the uniform pipe, one for each thread on a
lane pipeline, and 16 for each quarter that a matrix instruction names. -/
def cyclesOf (G : Group) (ts : List Nat) (i : Option Instr) : Nat := match G.kind, i with
  | .swarm .., _ => 1
  | .proofer _, _ => 0
  | .simt .., some i => if uniformPipe i then 1 else ts.length
  | .simt .., none => ts.length

/-- What issue counts, at every attempt of an instruction that must wait and is issued again (DESIGN CHOICE, log entry
108): the region's cycles, the swarm core's run, the partition's last position and the
instance's instructions (R32, R46, R73, R243); and the instructions of raster-ordered sections, of which a wait takes its
own back (R404). -/
def countIssue (s : State) (g t0 : Nat) (ts : List Nat) (i : Option Instr) : State :=
  let G := s.group g
  let s := s.modRegion G.rcb fun r => { r with cycused := r.cycused + cyclesOf G ts i }
  let s := match G.kind with
    | .swarm c _ => s.modCore c fun k => { k with run := k.run + 1, yielded := false }
    | .simt e p => s.modPart (4 * e + p) fun q =>
        { q with last := (q.active.findIdx? fun a => a = some g).getD q.last }
    | .proofer _ => s
  let inSection := fun (h : Thread) => { h with pixel := h.pixel.map fun p =>
    if p.section_ then { p with issued := p.issued + 1 } else p }
  (ts.foldl (fun s t => s.modThread g t inSection) s).modGroup g fun G =>
    { G with start := (t0 + 1) % 32, executed := G.executed + 1 }

/-- The issue record: group, threads, PC, words and NPC (R175). -/
def setIssue (s : State) (g : Nat) (ts : List Nat) (pc : DWord) (ws : List Word) : State :=
  { s with iss := { g := g, ts := ts, pc := pc, words := ws, npc := pc + BitVec.ofNat 64 (4 * ws.length) } }

/-- A reserved field traps every thread of the bundle, after the check for what a swarm core does not
run (R174). -/
def trapReserved (s : State) (i : Instr) : State :=
  let ti : TrapInfo :=
    { cause := if simtOnly i && (s.group s.iss.g).kind.isSwarm then cNOSWARM
               else if (s.group s.iss.g).kind.isProofer && !prooferRuns i then cILLEGAL
               else cRESERVED }
  s.trapLanes (s.iss.ts.map fun t => (t, ti))

end State
end Sys2Proof.Machine
end

