-- ==== Sys2Proof/Machine/Control.lean ====
section
/-! DEFINITION. Transfers, ends and handler calls, windows, masks, cross-thread and predicate
instructions, block moves, system registers (R193 to R198, R202 to R214), and ILLEGAL_OP (R391). -/

namespace Sys2Proof.Machine

/-! ## Transfers (R193, R194) -/

/-- The target of a J-form transfer (R151). -/
def jumpTarget (s : State) (off : BitVec 48) : DWord := s.iss.pc + BitVec.ofInt 64 (4 * off.toInt)

/-- BRA. -/
def execBra (off : BitVec 48) (s : State) : Host.Outcome State Fault Refusal :=
  runLanes (.bra off) (fun s0 s t => .ok (s.setPc t (jumpTarget s0 off))) s

/-- BRC. -/
def execBrc (c : BitVec 3) (off : BitVec 48) (s : State) : Host.Outcome State Fault Refusal :=
  runLanes (.brc c off) (fun s0 s t => .ok (if s0.pred t c then s.setPc t (jumpTarget s0 off) else s)) s

/-- BRC with a negated predicate. -/
def execBrcNot (c : BitVec 3) (off : BitVec 48) (s : State) : Host.Outcome State Fault Refusal :=
  runLanes (.brcNot c off)
    (fun s0 s t => .ok (if s0.pred t c then s else s.setPc t (jumpTarget s0 off))) s

/-- The push of NPC and the jump of CALL and CALLR (R193). -/
def callTo (target : DWord) (s0 s : State) (t : Nat) : LaneRes :=
  let sp := s0.ptr t 7 - 8
  if sp.toNat % 8 ≠ 0 then .trap { cause := cMISALIGN, addr := sp.toNat }
  else withPage (s.translate s.iss.g t sp.toNat 1) fun s pa mt =>
    match s.storeAt t pa mt (toBytes 8 s.iss.npc.toNat) {} (fencedOn s0 t) with
    | .ok s => .ok ((s.setPtr t 7 sp).setPc t target)
    | r => r

/-- CALL. -/
def execCall (off : BitVec 48) (s : State) : Host.Outcome State Fault Refusal :=
  runLanes (.call off) (fun s0 s t => callTo (jumpTarget s0 off) s0 s t) s

/-- JMPR. -/
def execJmpr (a : Field) (s : State) : Host.Outcome State Fault Refusal :=
  runLanes (.jmpr a) (fun s0 s t => .ok (s.setPc t (s0.pair t a))) s

/-- CALLR. -/
def execCallr (a : Field) (s : State) : Host.Outcome State Fault Refusal :=
  runLanes (.callr a) (fun s0 s t => callTo (s0.pair t a) s0 s t) s

/-- The registers that the EXIT of a stitched thread sends, x0 to x(m − 1): outside the allocation, or uncorrectable
(R54, R154, R358; log entry 124). -/
def resultCheck (s : State) (g t : Nat) : Option TrapInfo := match (s.thread g t).stitch with
  | none => none
  | some (m, _) =>
    let lo := s.xnum g t 0
    if (s.group g).alloc < lo + m then some { cause := cREGOUT, aux := Nat.max lo (s.group g).alloc }
    else (((upTo m).map (lo + ·)).find? fun n => (s.thread g t).badX.contains n).map
      fun n => { cause := cECC, addr := n, aux := (s.group g).kind.unit }

/-- RET: the jump is made when the load's value arrives. -/
def execRet (s : State) : Host.Outcome State Fault Refusal :=
  runLanes .ret (fun s0 s t =>
    let sp := (s0.ptr t 7).toNat
    if sp % 8 ≠ 0 then .trap { cause := cMISALIGN, addr := sp }
    else withPage (s.translate s.iss.g t sp 0) fun s pa mt =>
      s.loadAt t sp pa mt 8 false false [] true) s

/-! ## Ends and handlers (R195 to R198) -/

/-- EXIT waits for the thread's register replies and ends the thread; the results of a stitched thread are a release at
`.clu` (R54, R195). -/
def execExit (s : State) : Host.Outcome State Fault Refusal :=
  runLanes .exit (fun s0 s t =>
    let g := s.iss.g
    if s.awaiting g t then .wait s .replies
    else if (s.thread g t).stitch.isNone then .ok (s.endThread g t)
    else match resultCheck s g t with
    | some ti => .trap ti
    | none => match releaseFirst s0 s t { ord := .rel, scope := .clu } with
    | (s, some w) => .wait s w
    | (s, none) => .ok (s.endThread g t)) s

/-- YIELD: a swarm core's context gives up the core; a SIMT group goes to the tail of a ready queue
that is not empty, once for the bundle. -/
def execYield (s : State) : Host.Outcome State Fault Refusal :=
  runLanes .yield (fun _ s t =>
    let g := s.iss.g
    match (s.group g).kind with
    | .swarm c _ => .ok (s.modCore c fun k => { k with yielded := true })
    | .simt e p =>
      if t = s.iss.ts.headD t ∧ (s.part (4 * e + p)).ready ≠ [] then .ok (s.leaveActive g true) else .ok s
    | .proofer _ => .ok s) s

/-- SVC. -/
def execSvc (code : BitVec 9) (s : State) : Host.Outcome State Fault Refusal :=
  runLanes (.svc code) (fun _ _ _ => .trap { cause := cSERVICE, aux := code.toNat }) s

/-- BKPT. -/
def execBkpt (code : BitVec 9) (s : State) : Host.Outcome State Fault Refusal :=
  runLanes (.bkpt code) (fun _ _ _ => .trap { cause := cBREAK, aux := code.toNat }) s

/-- ERET; outside a handler it raises PRIV_OP (R174, R198). -/
def execEret (s : State) : Host.Outcome State Fault Refusal :=
  runLanes .eret (fun _ s t => .ok (s.eret s.iss.g t)) s

/-- Words that are not an instruction trap every thread of the bundle (R391). -/
def execIllegalOp (s : State) : Host.Outcome State Fault Refusal :=
  .next (s.trapLanes (s.iss.ts.map fun t => (t, { cause := cILLEGAL })))

/-! ## Windows (R202) -/

/-- SETWB. -/
def execSetwb (n : BitVec 5) (s : State) : Host.Outcome State Fault Refusal :=
  runLanes (.setwb n) (fun s0 s t =>
    if s0.cur.kind.isSwarm ∧ n ≠ 0#5 then .trap { cause := cRESERVED }
    else if s0.cur.alloc ≤ 8 * n.toNat then .trap { cause := cREGOUT, aux := 8 * n.toNat }
    else .ok (s.modTh t fun h => { h with xwb := BitVec.ofNat 8 (8 * n.toNat) })) s

/-- SETKB. -/
def execSetkb (n : BitVec 3) (s : State) : Host.Outcome State Fault Refusal :=
  runLanes (.setkb n) (fun s0 s _ =>
    if s0.cur.kind.isSwarm ∧ n ≠ 0#3 then .trap { cause := cRESERVED }
    else .ok (s.modGroup s.iss.g fun G => { G with kwb := BitVec.ofNat 8 (32 * n.toNat), bad := G.bad.filter (· ≠ 12) })) s

/-! ## Masks (R38, R39, R203) -/

/-- The thread runs a trap handler. -/
def inHandler (s : State) (t : Nat) : Bool := (s.th t).status.getLsbD 1

/-- MJOIN. -/
def execMjoin (m : BitVec 4) (s : State) : Host.Outcome State Fault Refusal :=
  runLanes (.mjoin m) (fun _ s t =>
    .ok (s.modGroup s.iss.g fun G => G.setMask m.toNat (withBit (G.mask m.toNat) t))) s

/-- MLEAVE, with the completion test of R39. -/
def execMleave (m : BitVec 4) (s : State) : Host.Outcome State Fault Refusal :=
  runLanes (.mleave m) (fun _ s t =>
    .ok (s.modGroup s.iss.g fun G =>
      ((G.setMask m.toNat (clearBit (G.mask m.toNat) t)).setArrived m.toNat
        (clearBit (G.arrived m.toNat) t)).complete m.toNat)) s

/-- MWAIT (R39, R345): a handler goes on at once; a credit is spent; a thread outside the mask goes
on; any other joins the arrival set, whose completion moves every thread in it on. -/
def execMwait (m : BitVec 4) (s : State) : Host.Outcome State Fault Refusal :=
  runLanes (.mwait m) (fun s0 s t =>
    let g := s.iss.g
    let n := m.toNat
    let G := s.group g
    if inHandler s0 t then .ok s
    else if bit (G.credits n) t then
      .ok (s.modGroup g fun G => G.setCredits n (clearBit (G.credits n) t))
    else if !bit (G.mask n) t then .ok s
    else
      let s' := (s.setPc t s.iss.pc).modGroup g fun G =>
        (G.setArrived n (withBit (G.arrived n) t)).complete n
      if (s'.group g).arrived n = 0 then .ok s' else .wait s' (.mask n)) s

/-- MREAD: the mask without the trapped threads. -/
def execMread (d : Field) (m : BitVec 4) (s : State) : Host.Outcome State Fault Refusal :=
  regLanes (.mread d m) d (fun s _ =>
    BitVec.ofNat 32 (andNot (s.cur.mask m.toNat) s.cur.trappedBits)) s

/-- The membership that MWRITE leaves: bits of the value for live threads, and for the handler's own
thread; other trapped threads keep theirs (R203, R345). -/
def writtenMask (G : Group) (n v : Nat) (own : Option Nat) : Nat :=
  let keep := match own with
    | some t => clearBit G.trappedBits t
    | none => G.trappedBits
  let open_ := match own with
    | some t => withBit G.m0 t
    | none => G.m0
  Nat.lor (Nat.land v open_) (Nat.land (G.mask n) keep)

/-- MWRITE: threads whose bit is 0 leave the arrival set, and the completion test follows. A thread that waits at MWAIT
and leaves the set goes on waiting (DESIGN CHOICE, log entry 112). -/
def execMwrite (m : BitVec 4) (a : Field) (s : State) : Host.Outcome State Fault Refusal :=
  runLanes (.mwrite m a) (fun s0 s t =>
    let n := m.toNat
    let v := (s0.reg t a).toNat
    let own := if inHandler s0 t then some t else none
    .ok (s.modGroup s.iss.g fun G =>
      (({ G with bad := G.bad.filter (· ≠ n) }.setMask n (writtenMask G n v own)).setArrived n
        (Nat.land (G.arrived n) v)).complete n)) s

/-! ## Votes, exchanges, predicates (R204 to R206) -/

/-- VOTE.any. -/
def execVoteAny (d a : BitVec 3) (s : State) : Host.Outcome State Fault Refusal :=
  let i : Instr := .voteAny d a
  predLanes i d (fun s _ => (lanesOk i s).any fun q => s.pred q a) s

/-- VOTE.all. -/
def execVoteAll (d a : BitVec 3) (s : State) : Host.Outcome State Fault Refusal :=
  let i : Instr := .voteAll d a
  predLanes i d (fun s _ => (lanesOk i s).all fun q => s.pred q a) s

/-- VOTE.ballot. -/
def execVoteBallot (d : Field) (a : BitVec 3) (s : State) : Host.Outcome State Fault Refusal :=
  let i : Instr := .voteBallot d a
  regLanes i d (fun s _ =>
    BitVec.ofNat 32 (((lanesOk i s).map fun q => if s.pred q a then 2 ^ q else 0).sum)) s

/-- SHFL: field A of the source thread, or of the thread itself where the source is not in the bundle
or traps (R205). -/
def shuffle (i : Instr) (d a b : Field) (src : Nat → Nat → Nat) (s : State) :
    Host.Outcome State Fault Refusal :=
  regLanes i d (fun s t =>
    let q := src t ((s.reg t b).toNat % 32)
    s.reg (if (lanesOk i s).contains q then q else t) a) s

/-- SHFL.idx. -/
def execShflIdx (d a b : Field) (s : State) : Host.Outcome State Fault Refusal :=
  shuffle (.shflIdx d a b) d a b (fun _ k => k) s

/-- SHFL.up. -/
def execShflUp (d a b : Field) (s : State) : Host.Outcome State Fault Refusal :=
  shuffle (.shflUp d a b) d a b (fun t k => if t < k then t else t - k) s

/-- SHFL.down. -/
def execShflDown (d a b : Field) (s : State) : Host.Outcome State Fault Refusal :=
  shuffle (.shflDown d a b) d a b (fun t k => if 31 < t + k then t else t + k) s

/-- SHFL.xor. -/
def execShflXor (d a b : Field) (s : State) : Host.Outcome State Fault Refusal :=
  shuffle (.shflXor d a b) d a b (fun t k => Nat.xor t k) s

/-- PLOP. -/
def execPlop (d a b : BitVec 3) (table : BitVec 4) (s : State) : Host.Outcome State Fault Refusal :=
  predLanes (.plop d a b table) d (fun s t =>
    table.getLsbD ((if s.pred t a then 2 else 0) + (if s.pred t b then 1 else 0))) s

/-! ## Block moves (R207, R208) -/

/-- The bytes of translated pieces as a thread of a cluster reads them now. -/
def readPieces (s : State) (g t : Nat) : List (Nat × Nat × Nat × Nat) → Except (Option WaitOn × TrapInfo) (List Byte)
  | [] => .ok []
  | (va, pa, mt, n) :: rest =>
    let k := (s.group g).kind
    let dev := mt = 1 || s.isRemote k.die pa
    let busy := s.flight.any fun m => m.chan = chanPage g (pa / 4096) && s.uncachedBy g t m
    let line := (upTo n).find? fun i => s.portBusy k.port (pa + i)
    let got := if dev then s.uncachedRead k.die pa n else s.readCluster k.cluster pa n
    if dev && busy then .error (some (.uncached (pa / 4096)), default)
    else if !dev && s.atomOn g t pa n then .error (some .atomics, default)
    else if !dev && line.isSome then .error (some (.port k.port (lineOf (pa + line.getD 0))), default)
    else match got with
    | .error f =>
      let bad := (upTo n).find? fun i =>
        match s.readCluster k.cluster (pa + i) 1 with
        | .error _ => true
        | .ok _ => false
      .error (none, { cause := f.1, addr := va + bad.getD 0, aux := f.2 })
    | .ok bs => match readPieces s g t rest with
      | .ok cs => .ok (bs ++ cs)
      | e => e

/-- A chunk's bytes stored at its translated destination, and the count and destination moved on. -/
def storeChunk (s : State) (t : Nat) (d b : Field) (pa mt : Nat) (bs : List Byte) : LaneRes :=
  match s.storeAt t pa mt bs {} none with
  | .ok s =>
    let n := bs.length
    .ok ((s.setPair t d (s.pair t d + BitVec.ofNat 64 n)).setReg t b (s.reg t b - BitVec.ofNat 32 n))
  | r => r

/-- Bytes of the next chunk: to the next 128-byte boundary of the destination, or what remains. -/
def chunkLen (s : State) (t : Nat) (d b : Field) : Nat :=
  Nat.min (s.reg t b).toNat (128 - (s.pair t d).toNat % 128)

/-- One chunk of BMOV: all source bytes are read before any is written. -/
def moveChunk (d a b : Field) (s : State) (t : Nat) : LaneRes :=
  let g := s.iss.g
  let n := chunkLen s t d b
  let src := (s.pair t a).toNat
  -- its accesses are in program order with the thread's others (R207)
  if s.reading g t then .wait s .loads
  else match translatePieces g t 0 s (pagePieces src n) with
  | .fault ti => .part s ti
  | .wait s w => .wait s w
  | .ok s1 ps => match s1.translate g t (s.pair t d).toNat 1 with
    | .fault ti => .part s ti
    | .wait s w => .wait s w
    | .ok s1 pa mt => match readPieces s1 g t ps with
      | .error (some w, _) => .wait s1 w
      | .error (none, ti) => .part s ti
      | .ok bs => match storeChunk s1 t d b pa mt bs with
        | .ok s => .ok (s.setPair t a (s.pair t a + BitVec.ofNat 64 n))
        | r => r

/-- One chunk of BFILL: byte a of memory receives pattern byte a mod 4. -/
def fillChunk (d a b : Field) (s : State) (t : Nat) : LaneRes :=
  let g := s.iss.g
  let n := chunkLen s t d b
  let dst := (s.pair t d).toNat
  let w := (s.reg t a).toNat
  if s.acquiring g t then .wait s .acquire
  else match s.translate g t dst 1 with
  | .fault ti => .part s ti
  | .wait s w => .wait s w
  | .ok s1 pa mt =>
    storeChunk s1 t d b pa mt ((upTo n).map fun i => BitVec.ofNat 8 (w / 2 ^ (8 * ((dst + i) % 4))))

/-- Chunks until the count is 0; the fuel counts chunks. -/
def chunks (one : State → Nat → LaneRes) (b : Field) (t : Nat) : Nat → State → LaneRes
  | 0, s => .ok s
  | k + 1, s =>
    if s.reg t b = 0#32 then .ok s
    else match one s t with
    | .ok s => chunks one b t k s
    | r => r

/-- BMOV. -/
def execBmov (d a b : Field) (s : State) : Host.Outcome State Fault Refusal :=
  runLanes (.bmov d a b)
    (fun s0 s t => chunks (moveChunk d a b) b t ((s0.reg t b).toNat / 128 + 2) s) s

/-- BFILL. -/
def execBfill (d a b : Field) (s : State) : Host.Outcome State Fault Refusal :=
  runLanes (.bfill d a b)
    (fun s0 s t => chunks (fillChunk d a b) b t ((s0.reg t b).toNat / 128 + 2) s) s

/-! ## System registers (R209 to R214) -/

/-- STATUS of a thread as a program reads it: SWM and STCH stand in the register itself (R211). -/
def csrValue (s : State) (t n : Nat) : DWord :=
  let G := s.cur
  let h := s.th t
  if n = 0x000 then h.status.setWidth 64
  else if n = 0x001 then h.trapcause.setWidth 64
  else if n = 0x002 then h.trappc
  else if n = 0x003 then h.trapaddr
  else if n = 0x004 then h.trapaux
  else if n = 0x008 then h.xwb.setWidth 64
  else if n = 0x009 then G.kwb.setWidth 64
  else if n = 0x010 then h.ident.tid.setWidth 64
  else if n = 0x011 then h.ident.gid.setWidth 64
  else if n = 0x012 then h.ident.bid
  else if n = 0x013 then h.ident.lcore.setWidth 64
  else if n = 0x014 then h.ident.jseed
  else if n = 0x015 then h.ident.mbox.setWidth 64
  else if n < 0x028 then (s.slot t (n - 0x020)).fs.setWidth 64
  else if n < 0x030 then (s.slot t (n - 0x028)).scale.setWidth 64
  else if n = 0x030 then h.fpstat.setWidth 64
  else if n = 0x040 then BitVec.ofNat 64 s.cycle
  else if n = 0x100 then BitVec.ofNat 64 (s.die G.kind.die).tkage
  else BitVec.ofNat 64 G.kind.unit

/-- CSRR. -/
def execCsrr (d : Field) (n : BitVec 9) (s : State) : Host.Outcome State Fault Refusal :=
  let i : Instr := .csrr d n
  runLanes i (fun s0 s t =>
    let v := csrValue s0 (leadOf i s0 t) n.toNat
    .ok (if csrRegs n.toNat = 2 then s.setPair t d v else s.setReg t d (v.setWidth 32))) s

/-- A write of a writable system register; the reserved bits of FPSTAT are RO, and those of TRAPCAUSE are RW by its own
table (R5, R141, R212; DEDUCED, log entry 25). -/
def csrStore (s : State) (t n : Nat) (v : DWord) : State :=
  if n = 0x001 then s.modTh t fun h => { h with trapcause := v.setWidth 32 }
  else if n = 0x002 then s.modTh t fun h => { h with trappc := v }
  else if n = 0x003 then s.modTh t fun h => { h with trapaddr := v }
  else if n = 0x004 then s.modTh t fun h => { h with trapaux := v }
  else if n = 0x030 then s.modTh t fun h => { h with fpstat := v.setWidth 32 &&& 0xFFFFFF3F#32 }
  else if n = 0x100 then s.modDie s.cur.kind.die fun d => { d with tkage := v.toNat % 2 ^ 32 }
  else s

/-- CSRW. -/
def execCsrw (n : BitVec 9) (a : Field) (s : State) : Host.Outcome State Fault Refusal :=
  runLanes (.csrw n a) (fun s0 s t =>
    .ok (csrStore s t n.toNat
      (if csrRegs n.toNat = 2 then s0.pair t a else (s0.reg t a).setWidth 64))) s

end Sys2Proof.Machine
end

