-- ==== Sys2Proof/Machine/Mailbox.lean ====
section
/-! DEFINITION. Mailboxes (R54, R55, R238, R239, R375, R397), launches from the device (R50, R240), Stitcher
requests (R53, R241) and proofers (R242 to R244). -/

namespace Sys2Proof.Machine

/-! ## MSEND, MRECV -/

/-- The scope at which a message to a group releases (R55). -/
def mailScope (s : State) (g : Nat) (target : Option Nat) : Scope :=
  let c := (s.group g).kind.cluster
  match target with
  | none => .clu
  | some h =>
    let e := (s.group h).kind.cluster
    if c = e then .clu else if c / 16 = e / 16 then .die else .dev

/-- The die of a message's target; an unassigned address is found out on the sender's die. -/
def mailDie (s : State) (g : Nat) (target : Option Nat) : Nat := match target with
  | some h => (s.group h).kind.die
  | none => (s.group g).kind.die

/-- MSEND. DEDUCED: a message that would cross a down link is never sent, and its thread traps with the cause of
R316 (log entry 22). -/
def execMsend (n : BitVec 4) (a b : Field) (s : State) : Host.Outcome State Fault Refusal :=
  runLanes (.msend n a b) (fun s0 s t =>
    let g := s.iss.g
    let G := s.group g
    let addr := (s0.reg t a).toNat
    let target := s.groupAt G.rcb addr
    let fail := s.routeFail G.kind.die (mailDie s g target)
    if bits addr 30 24 ≠ 0 then .trap { cause := cRESERVED }
    else if fail.isSome then .trap { cause := cLINK, addr := addr, aux := fail.getD 0 }
    else if !s.mailRoom G.kind.die G.rcb addr then .wait s (.mailRoom addr)
    else if s.reading g t then .wait s .loads
    else match releaseFirst s0 s t { ord := .rel, scope := mailScope s g target } with
    | (s, some w) => .wait s w
    | (s, none) =>
      .ok (s.sendMessage G.kind.die (mailDie s g target)
        { sender := (s.th t).ident.mbox.toNat, target := addr, words := s0.run t b n.toNat, rcb := G.rcb }))
    s

/-- The information word of a message (R239). -/
def messageInfo (m : Message) : Word :=
  let addr := if m.bounced then m.target else m.sender
  BitVec.ofNat 32 ((if bit addr 31 then 2 ^ 31 else 0) + (if m.bounced then 2 ^ 28 else 0)
    + m.words.length % 16 * 2 ^ 24 + addr % 2 ^ 24)

/-- MRECV: one message for the whole bundle; the information word is written last (R397). -/
def execMrecv (d a : Field) (s : State) : Host.Outcome State Fault Refusal :=
  let i : Instr := .mrecv d a
  runLanes i (fun s0 s t =>
    match s0.cur.mail with
    | [] => .wait s .mail
    | m :: _ =>
      let s := (s.setRun t d ((m.words ++ List.replicate 8 0).take 8)).setReg t a (messageInfo m)
      .ok (if (lanesOk i s0).head? = some t then
        s.modGroup s.iss.g fun G => { G with mail := G.mail.drop 1 }
      else s)) s

/-- An instance that a message to an armed context calls for (R242). -/
def callSwarmProofer (s : State) (g : Nat) (m : Message) : State :=
  match s.swarmArms.find? fun a => a.g = g with
  | none => s
  | some a =>
    let x := (m.words ++ List.replicate 8 0).take 8 ++ [BitVec.ofNat 32 m.words.length]
    let due : Due := { arming := a, item := a.count, x := x }
    { s with due := s.due ++ [due]
             swarmArms := s.swarmArms.map fun b => if b.g = g then { b with count := b.count + 1 } else b }

/-- A message enters a mailbox; a stitched thread's results take the reserved slot (R241). -/
def acceptMessage (s : State) (g : Nat) (m : Message) : State :=
  callSwarmProofer (s.modGroup g fun G =>
    { G with mail := G.mail ++ [m], reserved := G.reserved && !m.result }) g m

/-- MESSAGE_ARRIVAL: message n reaches its mailbox, or is bounced, or discarded; it waits for a slot, while its group is
saved, and while the scheduler that would hold it is full (R55, R238, R375). -/
def execMessageArrival (n : Nat) (s : State) : Host.Outcome State Fault Refusal :=
  match s.take n with
  | some (m, s') => match m.body with
    | .message x => match s.groupAt x.rcb (if x.bounced then x.sender else x.target) with
      | none => if s.bounceRoom x then .next (s'.bounceMessage m.dst x) else .next s
      | some g =>
        if (s.group g).gstate = .saved then .next s
        else if x.result && (s.group g).reserved then .next (acceptMessage s' g x)
        else if s.mailCount g < 4 then .next (acceptMessage s' g x)
        else .next s
    | _ => .next s
  | none => .next s

/-! ## LAUNCH, STITCH -/

/-- The task inbox of a group's engine or core. -/
def inboxOf : GroupKind → Nat
  | .simt e _ => e
  | .swarm c _ => 256 + c
  | .proofer _ => 0

/-- LAUNCH. -/
def execLaunch (a : Field) (s : State) : Host.Outcome State Fault Refusal :=
  runLanes (.launch a) (fun s0 s t =>
    let g := s.iss.g
    let G := s.group g
    let lr := (s0.pair t a).toNat
    let box := inboxOf G.kind
    match misaligned lr 128 with
    | some ti => .trap ti
    | none =>
      if s.met g t (.inbox box) then
        .ok { s with inboxes := lmod box [] (· ++ [(lr, G.rcb)]) s.inboxes }
      else .wait s (.inbox box)) s

/-- STITCH: the context goes on once the result message fills the reserved slot. -/
def execStitch (nr : BitVec 4) (na1 : BitVec 3) (a b : Field) (s : State) :
    Host.Outcome State Fault Refusal :=
  runLanes (.stitch nr na1 a b) (fun s0 s t =>
    let g := s.iss.g
    let G := s.group g
    let target := (s0.pair t a).toNat
    if !G.kind.isSwarm then .trap { cause := cILLEGAL }
    else match misaligned target 4 with
    | some ti => .trap ti
    | none =>
      if !s.met g t .slot then .wait s .slot
      else if s.reading g t then .wait s .loads
      else match releaseFirst s0 s t { ord := .rel, scope := .clu } with
      | (s, some w) => .wait s w
      | (s, none) =>
        let s := s.modGroup g fun G => { G with reserved := true }
        let s := s.modTh t fun h => { h with wait := some .stitched }
        .ok (s.post (chanMail (2 ^ 42 + G.kind.cluster) 0) G.kind.die G.kind.die
          (.stitch G.kind.cluster target (s0.run t b (na1.toNat + 1)) nr.toNat g G.rcb))) s

/-- Two requests that one group serves: the same PC in one region, whatever their launches (R53). -/
def sameStitch (p q : StitchReq) : Bool := p.cluster = q.cluster && p.target = q.target && p.rcb = q.rcb

/-- Up to 32 of the requests like one of them leave the wait and form a group. -/
def formGroup (s : State) (q : StitchReq) : State :=
  let l := (s.stitches.filter fun p => sameStitch p q).take 32
  { s with stitches := s.stitches.filter fun p => !l.contains p, formed := s.formed ++ [l] }

/-- STITCH_REQUEST_ARRIVAL: message n joins the requests of its PC; 32 of them form a group. -/
def execStitchRequestArrival (n : Nat) (s : State) : Host.Outcome State Fault Refusal :=
  match s.take n with
  | some (m, s') => match m.body with
    | .stitch c target args nr g rcb =>
      if (lget g s.groups).isNone then .next s'
      else
        let q : StitchReq :=
          { cluster := c, target := target, args := args, nr := nr, g := g, rcb := rcb, at_ := s.cycle }
        let s' := { s' with stitches := s'.stitches ++ [q] }
        .next (if 32 ≤ (s'.stitches.filter fun p => sameStitch p q).length then formGroup s' q else s')
    | _ => .next s
  | none => .next s

/-- STWAIT of a region, in clocks (R44). -/
def stwaitOf (s : State) (rcb : Nat) : Nat :=
  let n := (s.resolved rcb 14).stwait
  if n = 0 then 256 else n

/-- STWAIT_EXPIRY: the oldest request of a PC has waited long enough. -/
def execStwaitExpiry (c target : Nat) (s : State) : Host.Outcome State Fault Refusal :=
  match s.stitches.find? fun q =>
    q.cluster = c && q.target = target && stwaitOf s q.rcb ≤ s.cycle - q.at_ with
  | some q => .next (formGroup s q)
  | none => .next s

/-! ## PFARM, PFSTOP -/

/-- The swarm proofer of a core: 512 + 4 · cluster + proofer. -/
def swarmProofer (core : Nat) : Nat := 512 + 4 * (core / 64) + core % 64 / 16

/-- The checks of an SPM range of PFARM (R242): whole lines, in order, within one engine's share. -/
def rangeCheck (s : State) (start stop : Nat) : Option TrapInfo :=
  let g := s.iss.g
  let B := s.block (s.group g).blk
  let share := 128 * ((B.lines + B.engines.length - 1) / B.engines.length)
  match misaligned start 128 with
  | some ti => some ti
  | none => match misaligned stop 128 with
  | some ti => some ti
  | none =>
    if stop ≤ start then some { cause := cSPM, addr := start }
    else match s.spmBad g start (stop - start) with
    | some ti => some ti
    | none =>
      if start / share ≠ (stop - 1) / share then some { cause := cSPM, addr := (start / share + 1) * share }
      else none

/-- FLAGS of the header before a proofer's entry, read as a load (R180, R242). -/
def withHeader (s : State) (t entry : Nat) (k : State → Nat → LaneRes) : LaneRes :=
  let g := s.iss.g
  if s.acquiring g t then .wait s .acquire
  else match translatePieces g t 0 s (pagePieces ((entry + 2 ^ 64 - 16) % 2 ^ 64) 16) with
  | .fault ti => .trap ti
  | .wait s w => .wait s w
  | .ok s ps => match readPieces s g t ps with
    | .error (some w, _) => .wait s w
    | .error (none, ti) => .trap ti
    | .ok bs => k s (ofBytes ((bs.drop 7).take 1))

/-- The proofer of engine e that takes a range beside others that the engine holds: p while it holds fewer than four, else
the other (R242). -/
def prooferFor (others : List Arming) (e p : Nat) : Nat :=
  if (others.filter fun a => a.unit = 2 * e + p).length < 4 then 2 * e + p else 2 * e + (1 - p)

/-- A range armed on one of the engine's proofers. DESIGN CHOICE (log entry 130): the spec does not say which takes it;
the first does while it holds fewer than four. -/
def armRange (s : State) (t entry start stop : Nat) : State :=
  let g := s.iss.g
  let G := s.group g
  let e := G.kind.engine
  let u := prooferFor (s.armsHeld e) e 0
  let (ent, s) := s.nextEnt g t (8 + u % 2)
  let a : Arming :=
    { unit := u, blk := G.blk, entry := BitVec.ofNat 64 entry, start := start, stop := stop, g := g
      ident := (s.th t).ident, rcb := G.rcb, lr := s.threadLr g t, ent := ent, slots := s.slotsOf g t
      order := s.nextKey }
  s.fresh.2.modEngine e fun E => { E with arms := E.arms ++ [a] }

/-- A context's mailbox armed on its swarm proofer; an earlier arming takes the new entry. -/
def armMailbox (s : State) (t u entry : Nat) : State :=
  let g := s.iss.g
  let G := s.group g
  let (ent, s) := s.nextEnt g t (12 + (u - 512) % 4)
  let a : Arming :=
    { unit := u, blk := G.blk, entry := BitVec.ofNat 64 entry, start := 0, stop := 0, g := g
      ident := (s.th t).ident, rcb := G.rcb, lr := s.threadLr g t, ent := ent, slots := s.slotsOf g t }
  if s.swarmArms.any fun b => b.g = g then
    { s with swarmArms := s.swarmArms.map fun b => if b.g = g then { a with count := b.count } else b }
  else { s with swarmArms := s.swarmArms ++ [a] }

/-- PFARM. -/
def execPfarm (a : Field) (s : State) : Host.Outcome State Fault Refusal :=
  runLanes (.pfarm a) (fun s0 s t =>
    let g := s.iss.g
    let entry := (s0.pair t a).toNat
    let start := (s0.regAt t a 2).toNat
    let stop := (s0.regAt t a 3).toNat
    match (s.group g).kind with
    | .swarm core _ =>
      let u := swarmProofer core
      withHeader s t entry fun s flags =>
        if !bit flags 0 then .trap { cause := cILLEGAL }
        else if !(s.swarmArms.any fun b => b.g = g) && !s.met g t (.proofer u) then .wait s (.proofer u)
        else .ok (armMailbox s t u entry)
    | k => match rangeCheck s start stop with
      | some ti => .trap ti
      | none => withHeader s t entry fun s flags =>
        if !bit flags 0 then .trap { cause := cILLEGAL }
        else if !s.met g t (.proofer k.engine) then .wait s (.proofer k.engine)
        else .ok (armRange s t entry start stop)) s

/-- PFSTOP. -/
def execPfstop (a : Field) (s : State) : Host.Outcome State Fault Refusal :=
  runLanes (.pfstop a) (fun s0 s t =>
    let g := s.iss.g
    let G := s.group g
    let start := (s0.reg t a).toNat
    let keep := fun (b : Arming) => !(b.blk = G.blk && b.start = start)
    if G.kind.isSwarm then .ok { s with swarmArms := s.swarmArms.filter fun b => b.g ≠ g }
    else .ok { s with engines := s.engines.map fun e => (e.1, { e.2 with arms := e.2.arms.filter keep }) }) s

/-! ## Proofer instances -/

/-- The registers an instance starts with (R242). -/
def instanceRegs (d : Due) : List Word :=
  let tail := if d.arming.unit < 512 then
      [BitVec.ofNat 32 (d.arming.start + 128 * d.item), BitVec.ofNat 32 d.item]
    else []
  let x := d.x ++ tail
  x ++ List.replicate (64 - x.length) 0

/-- An instance of a unit still runs, or has an LDGS outstanding (R115). -/
def prooferBusy (s : State) (u : Nat) : Bool :=
  (s.groups.any fun e => e.2.kind = .proofer u)
    || s.lands.any fun l => l.source = 2 && u < 512 && l.e = u / 2 && l.index = u % 2

/-- Instances that one line calls for start in the order in which their ranges were armed (R242). -/
def earlierArmed (x d : Due) : Bool :=
  x.arming.unit < 512 && d.arming.unit < 512 && x.arming.blk = d.arming.blk
    && x.arming.start + 128 * x.item = d.arming.start + 128 * d.item && x.arming.order < d.arming.order

/-- PROOFER_INSTANCE_START: due instance k, the first of its proofer, starts when the one before it has
ended, and after the instances of its line that were armed before it. -/
def execProoferInstanceStart (k : Nat) (s : State) : Host.Outcome State Fault Refusal :=
  match s.due[k]? with
  | none => .next s
  | some d =>
    let u := d.arming.unit
    if prooferBusy s u || ((s.due.take k).any fun x => x.arming.unit = u) || s.due.any fun x => earlierArmed x d then
      .next s
    else
      let (key, s) := s.fresh
      let queue := if u < 512 then 8 + u % 2 else 12 + (u - 512) % 4
      let h : Thread :=
        { pc := d.arming.entry, x := instanceRegs d, p := List.replicate 8 0, c := List.replicate 7 false
          ident := d.arming.ident, ent := [(queue, d.arming.ent)] }
      let group : Group :=
        { key := key, kind := .proofer u, blk := d.arming.blk, rcb := d.arming.rcb, lr := d.arming.lr
          fs := d.arming.slots.1, fssc := d.arming.slots.2, entry := d.arming.entry, alloc := 64, gstate := .active, since := s.cycle, threads := [h]
          item := d.item }
      .next { s with groups := lput key group s.groups, due := dropAt k s.due }

/-- PROOFER_WATCHDOG: an instance that would execute its 1,025th instruction fails (R243). -/
def execProoferWatchdog (g : Nat) (s : State) : Host.Outcome State Fault Refusal :=
  let G := s.group g
  if G.kind.isProofer && 1024 ≤ G.executed then .next (s.failInstance g { cause := cWATCHDOG })
  else .next s

end Sys2Proof.Machine
end

