-- ==== Sys2Proof/Machine/Contexts.lean ====
section
/-! DEFINITION. Swarm contexts: which are idle, their logical numbers (R70), their start, FORK (R51,
R199) and migration (R56 to R58, R201, R373, R395). -/

namespace Sys2Proof.Machine
namespace State

/-- Contexts that run a thread, as 16·core + context. -/
def busyContexts (s : State) : List Nat := s.groups.filterMap fun e => match e.2.kind with
  | .swarm c x => some (16 * c + x)
  | _ => none

/-- Idle contexts of cluster cl in the order of R57: core, then context. -/
def idleContexts (s : State) (cl : Nat) : List Nat :=
  let busy := s.busyContexts
  ((upTo 1024).map fun i => 1024 * cl + i).filter fun x => !busy.contains x

/-- The number of idle contexts of a cluster. -/
def idleCount (s : State) (cl : Nat) : Nat :=
  1024 - (s.busyContexts.filter fun x => x / 1024 = cl).length

/-- The logical number of a context in a region, given at its first work there (R70). -/
def contextNumber (s : State) (rcb ctx : Nat) : Nat × State :=
  match lget ctx (s.region rcb).contexts with
  | some n => (n, s)
  | none =>
    let n := (s.region rcb).contexts.length
    (n, s.modRegion rcb fun r => { r with contexts := r.contexts ++ [(ctx, n)] })

/-- A thread placed on an idle context: its group of one, with the identity of another group's grid. -/
def startContext (s : State) (ctx : Nat) (G : Group) (h : Thread) (k : List Word) : State :=
  let (n, s) := s.contextNumber G.rcb ctx
  let (key, s) := s.fresh
  let group : Group :=
    { key := key, kind := .swarm (ctx / 16) (ctx % 16), blk := G.blk, rcb := G.rcb, lr := G.lr
      entry := G.entry, alloc := 64, fs := G.fs, fssc := G.fssc, gid := G.gid, lcore := n, k := k
      masks := List.replicate 11 0, arrive := List.replicate 12 0, credit := List.replicate 12 0
      gstate := .active, since := s.cycle, threads := [h], fork := G.fork }
  { s with groups := lput key group s.groups }

end State

/-! ## FORK -/

/-- The clusters that FORK searches: the issuer's, then the others of the die (R51). -/
def forkClusters (cl : Nat) : List Nat :=
  cl :: ((upTo 16).map fun i => cl / 16 * 16 + i).filter fun c => c ≠ cl

/-- c of R51 and R199. -/
def forkMembers (n cap idle : Nat) : Nat :=
  Nat.max 1 (Nat.min ((n + 63) / 64) (Nat.min cap (1 + idle)))

/-- The first k idle contexts over a list of clusters. -/
def recruits (s : State) : List Nat → Nat → List Nat
  | [], _ => []
  | cl :: rest, k =>
    let l := (s.idleContexts cl).take k
    if l.length = k then l else l ++ recruits s rest (k - l.length)

/-- The state in which member j of c starts (R51): copies of x0 to x15, p, c and the identity except
LCORE, and its range in D. -/
def memberThread (s0 : State) (t d : Nat) (target : DWord) (n c j : Nat) : Thread :=
  let h := s0.th t
  let lo := BitVec.ofNat 32 (n * j / c)
  let hi := BitVec.ofNat 32 (n * (j + 1) / c)
  let x := ((upTo 16).map fun i => s0.readRegOf s0.iss.g t i) ++ List.replicate 48 0
  { pc := target, x := (x.set d lo).set (d + 1) hi, p := h.p, c := h.c, status := 4#32, ident := h.ident
    slots := h.slots }

/-- One member started on a context. -/
def startMember (s0 : State) (t d : Nat) (target : DWord) (n c : Nat) (s : State) (j ctx : Nat) : State :=
  let G := s0.cur
  let h := memberThread s0 t d target n c j
  let (num, s) := s.contextNumber G.rcb ctx
  let h := { h with ident := { h.ident with lcore := BitVec.ofNat 32 num } }
  s.startContext ctx { G with blk := s.nextKey, lr := s0.threadLr s0.iss.g t, fork := some (G.fork.getD G.blk) } h
    (List.replicate 32 0)

/-- An uncorrectable register among x0 to x15, which a member copies (R51, R358). -/
def copiedBad (s : State) (t : Nat) : Option TrapInfo :=
  let g := s.iss.g
  let h := s.th t
  (((upTo 16).map fun i => s.xnum g t i).find? fun n => h.badX.contains n).map fun n =>
    { cause := cECC, addr := n, aux := (s.group g).kind.unit }

/-- FORK. Its release first writes back the cluster's earlier dirty words, and the cell is then written
at its home, so that every member finds it (R118, R199). -/
def execFork (d a b : Field) (s : State) : Host.Outcome State Fault Refusal :=
  runLanes (.fork d a b) (fun s0 s t =>
    let g := s.iss.g
    let G := s.group g
    let n := (s0.reg t a).toNat
    let cell := (s0.pair t b).toNat
    let target := s0.pairAt t b 2
    let cl := G.kind.cluster
    if cell % 8 ≠ 0 then .trap { cause := cMISALIGN, addr := cell }
    else withPage (s.translate g t cell 1) fun s pa _ =>
      match s.releaseWait g t with
      | some w => .wait s w
      | none => match (if (fencedOn s0 t).isSome then (none, s) else s.closeEpoch cl) with
      | (some e, s) => .wait s (.fence cl e)
      | (none, s) =>
        let idle := ((forkClusters cl).map s.idleCount).sum
        let c := forkMembers n (s.resolved G.rcb 13).forkcap idle
        match (if c = 1 then none else copiedBad s0 t) with
        | some ti => .trap ti
        | none => match s.writePhys G.kind.die pa (toBytes 8 c) with
        | .error f => .trap { cause := f.1, addr := cell, aux := f.2 }
        | .ok s =>
          let ctxs := recruits s (forkClusters cl) (c - 1)
          let s := (upTo ctxs.length).foldl
            (fun s i => startMember s0 t d.toNat target n c s (i + 1) (ctxs.getD i 0)) s
          .ok (s.setPair t d (BitVec.ofNat 32 (n / c) ++ (0 : Word)))) s

/-! ## Migration -/

/-- The migration point of an id in the table of a group's kernel (R56, R181): none, or its PC and live
masks; the fault of the read otherwise. The fuel counts entries. -/
def findPoint (d table id : Nat) (user : Bool) : Nat → State → Nat →
    Except TrapInfo (State × Option (Nat × Nat × Nat))
  | 0, s, _ => .ok (s, none)
  | k + 1, s, va => match s.readFar d table va 24 user with
    | .error ti => .error ti
    | .ok (s, bs) =>
      if ofBytes ((bs.drop 20).take 2) = id then
        .ok (s, some (ofBytes (bs.take 8), ofBytes ((bs.drop 8).take 8), ofBytes ((bs.drop 16).take 4)))
      else findPoint d table id user k s (va + 24)

/-- The table lookup of MIGR through the kernel header at ENTRY − 16 (R180, R181). -/
def migrationPoint (s : State) (g t id : Nat) : Except TrapInfo (State × Option (Nat × Nat × Nat)) :=
  let G := s.group g
  let d := G.kind.die
  let table := s.tableOf G.rcb
  let user := s.userLevel g t
  match s.readFar d table (G.entry - 16).toNat 16 user with
  | .error ti => .error ti
  | .ok (s, hdr) =>
    let off := BitVec.ofNat 32 (ofBytes (hdr.take 4))
    let count := ofBytes ((hdr.drop 4).take 2)
    if off = 0#32 then .ok (s, none)
    else findPoint d table id user count s (G.entry + BitVec.ofInt 64 off.toInt).toNat

/-- The lowest live x register that a slot's allocation does not reach (R57, R58). -/
def liveOver (xwb alloc live : Nat) : Option Nat :=
  (upTo 64).find? fun n => bit live n && alloc ≤ xwb + n

/-- The copy entries of a thread follow it to another slot (R111, R227). -/
def State.retag (s : State) (g t g' t' : Nat) : State :=
  { s with copies := s.copies.map fun q => if q.g = g && q.t = t then { q with g := g', t := t' } else q }

/-- A live x or k register that reads as uncorrectable (R358). -/
def liveBad (G : Group) (h : Thread) (live livek : Nat) : Option Nat :=
  match (upTo 32).find? fun n => bit livek n && G.badK.contains (G.kwb.toNat + n) with
  | some n => some (G.kwb.toNat + n)
  | none => ((upTo 64).find? fun n => bit live n && h.badX.contains (h.xwb.toNat + n)).map (h.xwb.toNat + ·)

/-- The SIMT thread moved to a context (R57, R395). -/
def migrateOut (s : State) (g t : Nat) (npc : DWord) (live livek ctx : Nat) : State :=
  let G := s.group g
  let h := s.thread g t
  let x := (upTo 64).map fun n => if bit live n then h.x.getD (h.xwb.toNat + n) 0 else 0
  let k := (upTo 32).map fun n => if bit livek n then G.k.getD (G.kwb.toNat + n) 0 else 0
  let moved : Thread := { h with
    pc := npc, x := x, xwb := 0, status := h.status ||| 0xC#32, pendX := [], pendC := [], wait := none
    undo := none, failed := [], held := none, badX := [], home := some (g, t) }
  let leave := fun (h : Thread) => { h with slot := .migrated, wait := none, undo := none }
  let s := s.modGroup g fun G => (({ G with threads := G.threads.modify t leave }).forget t).completeAll
  let key := (s.contextNumber G.rcb ctx).2.nextKey
  ((s.startContext ctx G moved k).modThread g t fun h => { h with away := some key }).retag g t key 0

/-- The thread of a context back in its slot, and the context freed (R58, R395). -/
def migrateBack (s : State) (g : Nat) (npc : DWord) (live g0 t0 : Nat) : State :=
  let h := s.thread g 0
  let back := fun (o : Thread) => { o with
    slot := if h.status.getLsbD 1 then .trapped else .live
    pc := npc
    x := (upTo 64).foldl (fun x n =>
      if bit live n then x.set (o.xwb.toNat + n) (h.x.getD (h.xwb.toNat + n) 0) else x) o.x
    badX := o.badX.filter fun n => !(o.xwb.toNat ≤ n && bit live (n - o.xwb.toNat))
    p := h.p, c := h.c, fpstat := h.fpstat, status := h.status &&& 0xFFFFFFF3#32
    trapcause := h.trapcause, trappc := h.trappc, trapaddr := h.trapaddr, trapaux := h.trapaux
    out := h.out, ent := h.ent, wait := none, away := none, pixel := h.pixel
    unfenced := h.unfenced, uncopied := h.uncopied }
  ((s.modThread g0 t0 back).retag g 0 g0 t0).freeContext g

/-- What MIGR does once its point is found (R56 to R58). -/
def migrate (s : State) (t id : Nat) (pt : Option (Nat × Nat × Nat)) : LaneRes :=
  let g := s.iss.g
  let G := s.group g
  let h := s.thread g t
  match pt with
  | none => .trap { cause := cMIGR }
  | some (pc, live, livek) =>
    if pc ≠ s.iss.pc.toNat then .trap { cause := cMIGR }
    else if (liveBad G h live livek).isSome then
      .trap { cause := cECC, addr := (liveBad G h live livek).getD 0, aux := G.kind.unit }
    else if G.kind.isSwarm then match h.home with
      | none => .trap { cause := cMIGR, aux := 1 }
      | some (g0, t0) => match liveOver (s.thread g0 t0).xwb.toNat (s.group g0).alloc live with
        | some n => .trap { cause := cMIGRLIVE, aux := n }
        | none => .ok (migrateBack s g s.iss.npc live g0 t0)
    else match liveOver h.xwb.toNat G.alloc live with
      | some n => .trap { cause := cMIGRLIVE, aux := n }
      | none => match s.idleContexts G.kind.cluster with
        | [] => .wait s (.migrate id)
        | ctx :: _ => .ok (migrateOut s g t s.iss.npc live livek ctx)

/-- MIGR: it first waits for the replies that write the thread's registers, and for the accesses that the thread has
sent on channels of its group, which those after the move follow in program order (R111, R201). -/
def execMigr (id : BitVec 12) (s : State) : Host.Outcome State Fault Refusal :=
  runLanes (.migr id) (fun _ s t =>
    let g := s.iss.g
    if s.awaiting g t then .wait s .replies
    else match s.sentBusy g t with
    | some w => .wait s w
    | none => match migrationPoint s g t id.toNat with
      | .error ti => .trap ti
      | .ok (s, pt) => migrate s t id.toNat pt) s

/-- MIGRATION_MOVE: a thread that waits in its slot moves when a context of its cluster is idle
(R57, R201). Where a live register has been lost meanwhile, the MIGR is issued again and traps (R358, R360). -/
def execMigrationMove (g t : Nat) (s : State) : Host.Outcome State Fault Refusal :=
  let h := s.thread g t
  let G := s.group g
  match h.wait with
  | some (.migrate id) =>
    if G.stopped || s.idleCount G.kind.cluster = 0 then .next s
    else match migrationPoint s g t id with
    | .ok (s, some (_, live, livek)) =>
      if (liveBad G h live livek).isSome then .next (s.modThread g t fun h => { h with wait := none })
      else match s.idleContexts G.kind.cluster with
      | ctx :: _ => .next (migrateOut s g t (h.pc + 4) live livek ctx)
      | [] => .next s
    | _ => .next s
  | _ => .next s

end Sys2Proof.Machine
end

