-- ==== Sys2Proof/Machine/Sequencer.lean ====
section
/-! DEFINITION. The matrix sequencer (R75, R271 to R275): MQ, LRSET, MQWAIT, its port and its items. -/

namespace Sys2Proof.Machine

/-! ## Commands (R271) -/

/-- OP of a command. -/
def seqOp (w : List Word) : Nat := bits (cw w 0) 3 0
/-- SP of a drain command. -/
def seqSpm (w : List Word) : Bool := bit (cw w 6) 16

/-- The reserved fields and words of a command are zero. -/
def seqFieldsOk (w : List Word) : Bool :=
  let zero := fun (i : Nat) => cw w i = 0
  bits (cw w 0) 31 27 = 0 && bits (cw w 0) 15 10 = 0 && bits (cw w 2) 31 30 = 0
    && (match seqOp w with
      | 0 => bits (cw w 5) 31 19 = 0 && bits (cw w 7) 31 16 = 0
      | 1 => zero 3 && zero 4 && zero 5 && zero 6 && zero 7
      | 2 | 3 => bits (cw w 6) 31 17 = 0 && zero 7 && (!seqSpm w || zero 4)
      | _ => false)

/-- The captured bound of loop n: that of its loop register, or 1 at or beyond NL (R272). -/
def seqBound (li : List Word) (w : List Word) (n : Nat) : Nat :=
  if n < bits (cw w 0) 26 25 then (li.getD (bits (cw w 0) (18 + 3 * n) (16 + 3 * n)) 0).toNat else 1

/-- A command captured at the tail of an engine's queue, with its number (R272). -/
def captureSeq (s : State) (e blk : Nat) (entry : Option Nat) (who : Owner) (w : List Word) : Nat × State :=
  let E := s.engine e
  let n := (E.seq + 1) % 2 ^ 32
  let c : SeqCmd :=
    { number := n, w := w, bounds := (upTo 3).map (seqBound E.li w), blk := blk, entry := entry, who := who
      serial := s.serial }
  (n, { s.modEngine e fun E => { E with seq := n, queue := E.queue ++ [c] } with serial := s.serial + 1 })

/-- The checks of MQ (R272). -/
def mqCheck (s : State) (w : List Word) : Option TrapInfo :=
  let G := s.cur
  if !seqFieldsOk w then some { cause := cRESERVED }
  else if seqOp w ≤ 1 && !s.handleOk G.kind.engine G.blk (w.getD 1 0) then
    some (amUnalloc (bits (cw w 2) 9 0))
  else none

/-- MQ. -/
def execMq (mo : MemOrd) (d a : Field) (s : State) : Host.Outcome State Fault Refusal :=
  runLanes (.mq mo d a) (fun s0 s t =>
    let g := s.iss.g
    let G := s.group g
    let e := G.kind.engine
    let w := s0.run t a 8
    match mqCheck s w with
    | some ti => .trap ti
    | none => match entryWait s0 s t mo with
    | (s, some x) => .wait s x
    | (s, none) =>
      if !s.met g t (.sequencer e) then .wait s (.sequencer e)
      else
        let h := w.getD 1 0
        let entry := if s.handleOk e G.blk h then some (hEntry h) else none
        let (n, s) := captureSeq s e G.blk entry (s.who t) w
        .ok (s.setReg t d (BitVec.ofNat 32 n))) s

/-- LRSET. -/
def execLrset (l : BitVec 3) (a : Field) (s : State) : Host.Outcome State Fault Refusal :=
  runLanes (.lrset l a) (fun s0 s t =>
    .ok (s.modEngine (s.group s.iss.g).kind.engine fun E =>
      { E with li := E.li.set l.toNat (s0.reg t a) })) s

/-- MQWAIT. -/
def execMqwait (a : Field) (s : State) : Host.Outcome State Fault Refusal :=
  runLanes (.mqwait a) (fun s0 s t =>
    let w : WaitOn := .command (s.group s.iss.g).kind.engine (s0.reg t a).toNat
    if s.met s.iss.g t w then .ok s else .wait s w) s

/-! ## The port (R275) -/

/-- A store that reaches a device-register page: unit, page, offset, bytes and who made it. -/
structure DevStore where
  unit : Nat
  page : Nat
  off : Nat
  bytes : List Byte
  who : Owner
deriving DecidableEq, Repr

namespace State

/-- Message n is a store that reaches a device-register page: the store, and the state without it. A die that has not been
released performs none (R320). -/
def devStore (s : State) (n : Nat) : Option (DevStore × State) := match s.take n with
  | some (m, s') => match m.body with
    | .ustore pa bytes who => match s.target m.dst pa with
      | .dev unit page off =>
        let x : DevStore := { unit := unit, page := page, off := off, bytes := bytes, who := who }
        if s.running (unit / 16384) then some (x, s') else none
      | _ => none
    | _ => none
  | none => none

/-- A store of a sequencer port discarded. -/
def discardSeq (s : State) (e : Nat) : State := s.modEngine e fun E => { E with disc := (E.disc + 1) % 2 ^ 32 }

end State

/-- The store is to a sequencer port. -/
def DevStore.isPort (x : DevStore) : Bool := x.unit / 256 % 4 = 2
/-- The store is to the CMD register of a sequencer port. -/
def DevStore.isCmd (x : DevStore) : Bool := x.isPort && x.off = 0x40 && x.bytes.length = 32

/-- A store to CMD with a command of an OP: it waits while the queue is full; a command that fails its check
or names no valid handle of a resident block is discarded (R275). -/
def portCommand (op n : Nat) (s : State) : Host.Outcome State Fault Refusal := match s.devStore n with
  | none => .next s
  | some (x, s') =>
    let e := portEngine x.unit
    let w := wordsOf 8 x.bytes
    let h := w.getD 1 0
    if !x.isCmd || seqOp w ≠ op then .next s
    else match s'.handleOwner e h with
    | none => .next (s'.discardSeq e)
    | some b =>
      let B := s'.block b
      let who : Owner := { rcb := B.rcb, lr := (s'.launch B.launch).lr, bid := B.bid }
      if !seqFieldsOk w || B.bstate = .saved then .next (s'.discardSeq e)
      else if 64 ≤ (s'.engine e).queue.length then .next s
      else .next (captureSeq s' e b (some (hEntry h)) who w).2

/-- SEQ_CMD_MMA. -/
def execSeqCmdMma (n : Nat) (s : State) : Host.Outcome State Fault Refusal := portCommand 0 n s
/-- SEQ_CMD_AMZERO. -/
def execSeqCmdAmzero (n : Nat) (s : State) : Host.Outcome State Fault Refusal := portCommand 1 n s
/-- SEQ_CMD_AMDRAIN. -/
def execSeqCmdAmdrain (n : Nat) (s : State) : Host.Outcome State Fault Refusal := portCommand 2 n s
/-- SEQ_CMD_AMDRAIN_ADD. -/
def execSeqCmdAmdrainAdd (n : Nat) (s : State) : Host.Outcome State Fault Refusal := portCommand 3 n s

/-! ## Items (R273) -/

/-- The loop indices of item k: i2 runs fastest. -/
def seqIndices (c : SeqCmd) (k : Nat) : Nat × Nat × Nat :=
  let b1 := at0 c.bounds 1
  let b2 := at0 c.bounds 2
  (k / (b1 * b2), k / b2 % b1, k % b2)

/-- The items of a command. -/
def seqItems (c : SeqCmd) : Nat := at0 c.bounds 0 * at0 c.bounds 1 * at0 c.bounds 2

/-- The tile of an item. -/
def seqTile (c : SeqCmd) (i0 i1 : Nat) : Nat :=
  (bits (cw c.w 2) 9 0 + bits (cw c.w 2) 19 10 * i0 + bits (cw c.w 2) 29 20 * i1
    + hToff (c.w.getD 1 0)) % 1024

/-- What an item comes to: done, failed, or held. -/
inductive ItemRes
  | ok (s : State)
  | fail (ti : TrapInfo)
  | wait (s : State)

/-- An MMA item: one quarter operation, with A from the SPM of the handle's block and B from WB. -/
def seqProduct (s : State) (e : Nat) (c : SeqCmd) (n tile i0 i1 i2 : Nat) : ItemRes :=
  let L := s.launch (s.block c.blk).launch
  let slot := fun (k : Nat) =>
    let v : SlotVal := { fs := L.fs.getD k 0, scale := L.fssc.getD k 0 }
    v
  let sa := slot (bits (cw c.w 0) 6 4)
  let sb := slot (bits (cw c.w 0) 9 7)
  let ta := slotTy sa.fs
  let tb := slotTy sb.fs
  let na := rowBytes ta (depthOf ta)
  let row := fun (i : Nat) =>
    cw c.w 3 + 64 * (cwLo c.w 4 * i0 + cwHi c.w 4 * i2) + i * cwLo c.w 7
  let o := bits (cw c.w 5) 18 0 + 64 * (cwLo c.w 6 * i1 + cwHi c.w 6 * i2)
  let size := 16 * rowBytes tb (depthOf tb)
  let limit := 128 * (s.block c.blk).lines
  let outside := (upTo 16).find? fun i => limit < row i + na
  let dry := (upTo 16).any fun i => (s.emptyLine c.blk (row i) na).isSome
  let bad := (upTo 16).find? fun i => s.poisoned c.blk (row i) na
  let early := (s.engine e).loader.any fun q => q.serial < c.serial
  if !slotsOk ta tb then .fail { cause := cRESERVED, aux := 1 }
  else if o % 16 ≠ 0 then .fail { cause := cMISALIGN, addr := o }
  else if 2 ^ 19 < o + size then .fail { cause := cWB, aux := o }
  else if !(s.handleOk e c.blk (c.w.getD 1 0) && tileOk (s.handle e n) tile) then .fail (amUnalloc tile)
  else if !tileTypeOk (s.handle e n) ta tb then .fail { cause := cRESERVED, aux := 2 }
  else match outside with
  | some i => .fail { cause := cSPM, addr := Nat.max (row i) limit }
  | none =>
    if dry || early then .wait s
    else match bad with
    | some i => .fail { cause := cPOISON, addr := row i }
    | none => match s.wbForeign e o size (L.lr, (s.block c.blk).bid) with
    | some gr => .fail { cause := cPOISON, aux := 512 * gr }
    | none => match s.amBadWord e n tile (upTo 16) with
    | some w => .fail (amEcc e w)
    | none =>
      let q : QuarterOp :=
        { part := 4, blk := c.blk, entry := n, tile := tile, sa := sa, sb := sb
          rows := (upTo 16).map fun i => s.spmRead c.blk (row i) na
          cols := [], wb := some o, sparse := none, serial := c.serial }
      .ok (performQuarter s e q)

/-- The rows of a drain translated at user level in a tree: virtual and physical addresses and memory
types. -/
def walkRows (d table acc : Nat) : State → List Nat → Except TrapInfo (State × List (Nat × Nat × Nat))
  | s, [] => .ok (s, [])
  | s, va :: rest => match s.walkNow d table va acc true with
    | .error ti => .error ti
    | .ok (s, pa, mt) => match walkRows d table acc s rest with
      | .error ti => .error ti
      | .ok (s, ps) => .ok (s, (va, pa, mt) :: ps)

/-- Rows stored by the sequencer for item k of command n; none where one must wait. -/
def seqStoreRows (u table : Nat) (who : Owner) (n k : Nat) (row : Nat → List Byte) :
    State → List (Nat × Nat) → Option (Except TrapInfo State)
  | s, [] => some (.ok s)
  | s, (va, i) :: rest => match s.unitStore u table va { who with job := some (n, [(k, va)]) } (row i) with
    | .ok s => seqStoreRows u table who n k row s rest
    | .fail ti => some (.error ti)
    | .wait _ => none

/-- Who takes the failures of the atomics of an item of a command: the command, whose item fails (R273; log entry
126). -/
def seqSink (e : Nat) (c : SeqCmd) (k : Nat) : ReplyTo :=
  .record c.who (unitCluster (e / 4) (24 + e % 4)) c.number (2 + e) k

/-- A drain item to global memory. -/
def seqDrainGlobal (s : State) (e : Nat) (c : SeqCmd) (add : Bool) (h n : Option Nat) (tile base : Nat)
    (k : Nat) : ItemRes :=
  let table := s.tableOf (s.block c.blk).rcb
  let rows := (upTo 16).map fun i => rowAt base (cwLo c.w 6) i % 2 ^ 64
  match walkRows (e / 64) table (if add then 2 else 1) s rows with
  | .error ti => .fail ti
  | .ok (s', ps) =>
    if !add then
      match seqStoreRows (256 + e) table c.who c.number k (fun i => bytesOf (tileRow s' e n tile i)) s' rows.zipIdx with
      | some (.ok s') => .ok s'
      | some (.error ti) => .fail ti
      | none => .wait s
    else
      let rs := tileAtoms s' e h n tile ps (fun _ => seqSink e c k)
      if rs.any fun r => s'.lineBusy (e / 4) (lineOf r.2.pa) then .wait s
      else .ok (sendLines s' (fun _ => chanUnit (256 + e)) (e / 4) rs)

/-- A drain item to the SPM of the command's block. -/
def seqDrainSpm (s : State) (e : Nat) (c : SeqCmd) (add : Bool) (h n : Option Nat) (tile base : Nat) :
    ItemRes :=
  let str := cwLo c.w 6
  let limit := 128 * (s.block c.blk).lines
  match (upTo 16).find? fun i => limit < rowAt base str i + 64 with
  | some i => .fail { cause := cSPM, addr := Nat.max (rowAt base str i) limit }
  | none =>
    if !add then .ok (putSpmTile s c.blk e n tile base str)
    else match rowsReady s c.blk base str with
      | .wait _ => .wait s
      | .trap ti => .fail ti
      | .ok => .ok (addSpmTile s c.blk e h n tile base str)

/-- Item k of a command. -/
def seqItem (s : State) (e : Nat) (c : SeqCmd) (k : Nat) : ItemRes :=
  let (i0, i1, i2) := seqIndices c k
  let tile := seqTile c i0 i1
  let ok := s.handleOk e c.blk (c.w.getD 1 0)
  let n := c.entry.filter fun n => ok && tileOk (s.handle e n) tile
  let step := 64 * (cwLo c.w 5 * i0 + cwHi c.w 5 * i1)
  if (n.map fun n => s.tilePending e n tile) = some true then .wait s
  else match seqOp c.w with
  | 0 => seqProduct s e c (c.entry.getD 64) tile i0 i1 i2
  | 1 => match n with
    | none => .fail (amUnalloc tile)
    | some n => .ok (zeroTile s e n tile)
  | op =>
    let base := if seqSpm c.w then cw c.w 3 + step else (cw c.w 3 + cw c.w 4 * 2 ^ 32 + step) % 2 ^ 64
    match misaligned base 64 with
    | some ti => .fail ti
    | none => match n.bind fun n => s.amBadWord e n tile (upTo 16) with
    | some w => .fail (amEcc e w)
    | none =>
      let own := c.entry.filter fun _ => ok
      if seqSpm c.w then seqDrainSpm s e c (op = 3) own n tile base
      else seqDrainGlobal s e c (op = 3) own n tile base k

/-- Atomics or stores of a command have not been performed, or their failures not been reported; a stored word that
waits for its grant would not yet be seen by a load of DONE from another cluster (R275). -/
def seqPending (s : State) (e : Nat) (c : SeqCmd) : Bool :=
  ((s.l1 (e / 4)).replay.any fun r => r.who = c.who) || s.unitStoring (256 + e) || s.entryBusy (seqSink e c 0) || s.flight.any (State.isFailOf (seqSink e c 0))

/-- A command all of whose items are done or failed: its records, then DONE (R273, R355). -/
def completeSeq (s : State) (e : Nat) (c : SeqCmd) : State :=
  if seqPending s e c then s
  else
  let id : EntryId :=
    { d := e / 64, unit := unitCluster (e / 4) (24 + e % 4), rcb := c.who.rcb, source := 5, index := 0, ent := c.number }
  match s.complete id c.who c.fails with
  | .error h => s.noteFull c.who.rcb h
  | .ok s => s.modEngine e fun E => { E with queue := E.queue.drop 1, done := c.number }

/-- The head command after an item that is done or failed. -/
def nextItem (s : State) (e : Nat) (c : SeqCmd) (fails : List (Nat × TrapInfo)) : State :=
  let c := { c with item := c.item + 1, fails := c.fails ++ fails }
  let s := s.modEngine e fun E =>
    let E := { E with queue := c :: E.queue.drop 1, used := E.used + 1, seqTurn := true }
    -- the turn ends with its sixteenth operation, or with the head command
    if 16 ≤ E.used || c.item = seqItems c then passTurn E else E
  if c.item = seqItems c then completeSeq s e c else s

/-- SEQUENCER_ITEM: in a turn that it takes from a partition with an empty queue, the sequencer performs the next item of
its head command; a command without items left completes (R75, R273). -/
def execSequencerItem (e : Nat) (s : State) : Host.Outcome State Fault Refusal :=
  let E := s.engine e
  match E.queue with
  | [] => .next s
  | c :: _ =>
    if seqItems c ≤ c.item then .next (completeSeq s e c)
    else if !E.seqTurn && (inTurn E ≠ [] || E.used ≠ 0) || s.poolFull (e / 64) then .next s
    else match seqItem s e c c.item with
      | .ok s => .next (nextItem s e c [])
      | .fail ti => .next (nextItem s e c [(c.item, ti)])
      | .wait s => .next s

end Sys2Proof.Machine
end

