-- ==== Sys2Proof/Machine/Place.lean ====
section
/-! DEFINITION. Resources and placement (R30, R31, R41 to R43, R47, R67 to R71, R84): what engines have free,
where a block fits, and the groups that a placed block starts with. -/

namespace Sys2Proof.Machine

/-! ## What a launch asks for (R41 to R43, R47) -/

/-- Threads of a block. -/
def Launch.threads (L : Launch) : Nat := L.block.foldl (· * ·) 1
/-- Groups of a block. -/
def Launch.groups (L : Launch) : Nat := (L.threads + 31) / 32
/-- Blocks of the grid. -/
def Launch.total (L : Launch) : Nat := L.grid.foldl (· * ·) 1
/-- REPLAYABLE. -/
def Launch.replayable (L : Launch) : Bool := bit L.flags 0
/-- SWARM. -/
def Launch.isSwarm (L : Launch) : Bool := bit L.flags 1

/-- a / b rounded up. -/
def ceilDiv (a b : Nat) : Nat := (a + b - 1) / b

namespace State

/-! ## Engines in use -/

/-- The block has resources on engines (R62, R69). -/
def onEngines (B : Block) : Bool := match B.bstate with
  | .resident | .draining | .saving | .flushing => true
  | _ => false

/-- The group holds registers and a group slot of its partition: it is resident and not retired; a slot of
a bin is held until the block completes (R61, R291). -/
def holds (s : State) (G : Group) : Bool :=
  G.gstate ≠ .saved && (G.gstate ≠ .retired || ((s.block G.blk).kind = .bin && onEngines (s.block G.blk)))

/-- The groups that hold a slot of a partition. -/
def groupsIn (s : State) (e p : Nat) : List Group :=
  (s.groups.map Prod.snd).filter fun G => G.kind = .simt e p && s.holds G

/-- Group slots held on an engine. -/
def groupCount (s : State) (e : Nat) : Nat := ((upTo 4).map fun p => (s.groupsIn e p).length).sum

/-- x registers held in a partition. -/
def regsIn (s : State) (e p : Nat) : Nat := ((s.groupsIn e p).map fun G => 32 * G.alloc).sum

/-- Free x registers of an engine. -/
def freeRegs (s : State) (e : Nat) : Nat := 524288 - ((upTo 4).map fun p => s.regsIn e p).sum

/-- Blocks with a share on an engine. -/
def blocksOn (s : State) (e : Nat) : List Block :=
  (s.blocks.map Prod.snd).filter fun B => onEngines B && B.kind ≠ .swarm && B.engines.contains e

/-- SPM lines of a block's share. -/
def shareLines (B : Block) : Nat := ceilDiv B.lines (Nat.max 1 B.engines.length)

/-- Free SPM lines of an engine. -/
def freeLines (s : State) (e : Nat) : Nat := 4096 - ((s.blocksOn e).map shareLines).sum

/-- What drains have freed on an engine for launches other than l, or for the supervisor (R62, R81). -/
def reserved (s : State) (l e : Nat) : List Freed :=
  let others := (s.launches.filter fun x => x.1 ≠ l && x.2.lstate ≠ .refused).flatMap fun x => x.2.freed
  let draining := (s.blocks.filter fun b => b.2.bstate = .draining).flatMap fun b => b.2.freed
  (others ++ draining).filter fun f => f.e = e

/-- AM banks of an engine that no resident block reserves, in ascending order. -/
def openBanks (s : State) (e : Nat) : List Nat :=
  let used := ((s.blocksOn e).map fun B => B.banks.getD ((B.engines.findIdx? (· = e)).getD 0) []).flatten
  (upTo 64).filter fun b => !used.contains b

/-- AM banks of an engine that a block of launch l can reserve. -/
def banksFor (s : State) (l e : Nat) : List Nat :=
  let kept := ((s.reserved l e).map Freed.banks).flatten
  (s.openBanks e).filter fun b => !kept.contains b

/-- Free SIMT thread slots of a cluster. -/
def freeThreads (s : State) (cl : Nat) : Nat :=
  32 * ((upTo 4).map fun i => 256 - s.groupCount (4 * cl + i)).sum

/-! ## Where a share fits -/

end State

/-- What one share of a block asks of an engine: groups, registers per thread, SPM lines and AM banks. -/
structure Share where
  groups : Nat
  /-- Groups that go to each partition. -/
  per : List Nat
  alloc : Nat
  lines : Nat
  banks : Nat
deriving DecidableEq, Repr

/-- Groups of a share of n that go to partition p: local group j goes to partition j mod 4 (R42). -/
def groupsTo (n p : Nat) : Nat := (n + 3 - p) / 4

/-- Share i of a launch's block on n engines: groups i · ⌈G/n⌉ to (i + 1) · ⌈G/n⌉ − 1 (R43, R262). -/
def Launch.share (L : Launch) (n i : Nat) : Share :=
  let per := ceilDiv L.groups n
  let g := Nat.min per (L.groups - i * per)
  { groups := g, per := (upTo 4).map (groupsTo g), alloc := 8 * L.regs, lines := ceilDiv L.spmlines n
    banks := ceilDiv L.ambanks n }

/-- The shares of a launch's block on n engines. -/
def Launch.shares (L : Launch) (n : Nat) : List Share := (upTo n).map (L.share n)

/-- Bytes of the save record of a share (R79). -/
def Share.saveBytes (h : Share) : Nat :=
  256 + 128 * ceilDiv h.lines 512 + (if h.banks = 0 then 0 else 1024) + h.groups * (128 * h.alloc + 3712)
    + 128 * h.lines + 16384 * h.banks

/-- Clocks of a save for the admission of R82. -/
def Share.saveClocks (h : Share) : Nat := 64 + ceilDiv h.saveBytes 128

/-- Share i of an existing block. -/
def blockShare (s : State) (B : Block) (i : Nat) : Share :=
  let gs := (s.groups.map Prod.snd).filter fun G =>
    G.blk = B.key && G.kind.engine = at0 B.engines i && (G.gstate ≠ .retired || B.kind = .bin)
  let inPart := fun p => (gs.filter fun G => G.kind = .simt (at0 B.engines i) p).length
  let alloc := match gs with
    | G :: _ => G.alloc
    | [] => 8 * (s.launch B.launch).regs
  { groups := gs.length, per := (upTo 4).map inPart, alloc := alloc, lines := State.shareLines B
    banks := (B.banks.getD i []).length }

/-- The shares of an existing block. -/
def blockShares (s : State) (B : Block) : List Share := (upTo B.engines.length).map (blockShare s B)

namespace State

/-- The block may be run again from its start (R81, R372). -/
def canReplay (s : State) (B : Block) : Bool := B.kind ≠ .stitched && (s.launch B.launch).replayable

/-- A share of a block of launch l fits on an engine, beside what is kept there for other launches (R42, R43, R81). -/
def shareFits (s : State) (l : Nat) (h : Share) (e : Nat) : Bool :=
  let kept := s.reserved l e
  let sum := fun (p : Nat) (f : Freed → Nat) => ((kept.filter fun k => k.part = p).map f).sum
  ((upTo 4).all fun p =>
    (s.groupsIn e p).length + sum p Freed.groups + at0 h.per p ≤ 64
      && s.regsIn e p + sum p Freed.regs + 32 * h.alloc * at0 h.per p ≤ 131072)
    && h.lines + (kept.map Freed.lines).sum ≤ s.freeLines e && h.banks ≤ (s.banksFor l e).length

/-- The admission of R82 for a share of a region's block on an engine. -/
def admitted (s : State) (rcb : Nat) (replayable : Bool) (h : Share) (e : Nat) : Bool :=
  match s.context rcb with
  | none => true
  | some c =>
    let mine := (s.blocksOn e).filter fun B =>
      s.context B.rcb = some c && !s.canReplay B
    let clocks := fun (B : Block) => (blockShare s B ((B.engines.findIdx? (· = e)).getD 0)).saveClocks
    replayable || ((mine.map clocks).sum + h.saveClocks ≤ 12000)

/-- The die has an entry, or room, for the graphics context of a region (R84). -/
def contextFits (s : State) (d rcb : Nat) : Bool := match s.context rcb with
  | none => true
  | some c =>
    let here := (s.blocks.map Prod.snd).filter fun B =>
      onEngines B && (match B.engines with
        | e :: _ => B.kind ≠ .swarm && e / 64 = d
        | [] => false)
    let held := ((here.map fun B => s.context B.rcb).filterMap id).eraseDups
    held.contains c || held.length < 128

/-! ## Logical numbers (R70) -/

/-- Logical slots held under a logical engine number of a region. -/
def slotsHeld (s : State) (rcb lcore : Nat) : List Nat :=
  (s.groups.filter fun e => e.2.rcb = rcb && e.2.lcore = lcore && !e.2.kind.isProofer
    && !e.2.kind.isSwarm
    && (e.2.gstate ≠ .retired || (s.block e.2.blk).kind = .bin)).map fun e => e.2.lslot

/-- The lowest free logical slot under a number. -/
def freeLslot (s : State) (rcb lcore : Nat) : Option Nat :=
  let held := s.slotsHeld rcb lcore
  (upTo 256).find? fun n => !held.contains n

/-- The logical number of an engine in a region that has a free slot, given now where there is none. -/
def engineNumber (s : State) (rcb e : Nat) : Nat × State :=
  let mine := ((s.region rcb).engines.filter fun x => x.1 = e).map Prod.snd
  match mine.find? fun n => (s.freeLslot rcb n).isSome with
  | some n => (n, s)
  | none =>
    let n := (s.region rcb).engines.length
    (n, s.modRegion rcb fun r => { r with engines := r.engines ++ [(e, n)] })

/-- The logical number and slot of a new group on an engine. -/
def groupNumber (s : State) (rcb e : Nat) : Nat × Nat × State :=
  let (n, s) := s.engineNumber rcb e
  (n, (s.freeLslot rcb n).getD 0, s)

/-- Engines in the order of their logical numbers, numbered now where they have none (R43, R70). -/
def numbered (s : State) (rcb : Nat) (es : List Nat) : State × List (Nat × Nat) :=
  let r := es.foldl (fun (r : State × List (Nat × Nat)) e =>
    let (n, s) := r.1.engineNumber rcb e
    (s, r.2 ++ [(e, n)])) (s, [])
  (r.1, sortBy Prod.snd r.2)

/-! ## The engines of a cluster -/

/-- The engines of a cluster that take a block's shares, share i the i-th in LCORE order: of those on which each share
fits, the ones with the most free x registers, ties to the lowest number (R43, R69; log entry 18). -/
def enginesFor (s : State) (l rcb : Nat) (replayable : Bool) (hs : List Share) (cl : Nat)
    (also_ : Nat → Nat → Bool := fun _ _ => true) : Option (List Nat) :=
  let four := sortBy (fun e => 524288 - s.freeRegs e) ((upTo 4).map (4 * cl + ·))
  (choose hs.length four).findSome? fun es =>
    let es := (s.numbered rcb (sortBy id es)).2.map Prod.fst
    let fits := fun (x : Share × Nat) =>
      let e := at0 es x.2
      s.shareFits l x.1 e && s.admitted rcb replayable x.1 e && also_ x.2 e
    if hs.zipIdx.all fits then some es else none

/-- The engines of a cluster for a new block of a launch: the smallest E that fits (R43). -/
def clusterFit (s : State) (L : Launch) (cl : Nat) : Option (List Nat) :=
  [1, 2, 4].findSome? fun n => s.enginesFor L.key L.rcb L.replayable (L.shares n) cl

/-- The smallest E with which a launch's block fits empty engines (R43). -/
def emptyFit (L : Launch) : Option Nat :=
  [1, 2, 4].find? fun n =>
    let h := L.share n 0
    ((upTo 4).all fun p => at0 h.per p ≤ 64 && 32 * h.alloc * at0 h.per p ≤ 131072)
      && h.lines ≤ 4096 && h.banks ≤ 64

/-- A launch's block fits no cluster, for the check of R49. -/
def neverFits (L : Launch) : Bool := (emptyFit L).isNone

/-! ## The choice of a die (R68) -/

/-- A(d): accesses of a region homed at a die in this epoch and the one before. -/
def homedAt (s : State) (rcb d : Nat) : Nat :=
  ((s.kcounts.filter fun k => k.rcb = rcb && bits (k.page * 65536) 39 38 = d).map fun k =>
    k.cur + k.prev).sum

/-- H(d) for a launch. -/
def heat (s : State) (L : Launch) (d : Nat) : Nat :=
  let dies := s.partitionDies L.die
  let all := (dies.map fun e => s.homedAt L.rcb e).sum
  if all ≠ 0 then 256 * s.homedAt L.rcb d / all
  else if L.args = 0 then 0
  else match s.walkNow L.die (s.tableOf L.rcb) L.args.toNat 0 true with
    | .ok (_, pa, _) => if s.target L.die pa = .hbm d then 256 else 0
    | .error _ => 0

/-- U(d): threads, or contexts for a swarm launch (R71). -/
def load (s : State) (swarm : Bool) (d : Nat) : Nat :=
  if swarm then 256 * (s.busyContexts.filter fun x => x / 16384 = d).length / 16384
  else 256 * (32 * ((upTo 64).map fun i => s.groupCount (64 * d + i)).sum) / 524288

/-- The dies of a launch's partition that its scheduler can reach (R411), in descending W(d), ties to the
receiving die and then the lowest number. -/
def dieOrder (s : State) (L : Launch) : List Nat :=
  let w := fun d => 2 * s.heat L d + 256 - s.load L.isSwarm d
  sortBy (fun d => (1024 - w d) * 8 + (if d = L.die then 0 else d + 1))
    ((s.partitionDies L.die).filter fun d => (s.pairFail L.die d).isNone)

/-- Clusters of a die in descending free thread slots. -/
def clusterOrder (s : State) (d : Nat) : List Nat :=
  sortBy (fun cl => 32768 - s.freeThreads cl) ((upTo 16).map (16 * d + ·))

/-! ## Quotas (R45, R67) -/

/-- Registers, SPM lines and AM banks that resident blocks of a region's subtree hold. -/
def inUse (s : State) (rcb : Nat) : Nat × Nat × Nat :=
  let gs := (s.groups.map Prod.snd).filter fun G => (match G.kind with
    | .simt .. => s.holds G && s.under rcb G.rcb
    | _ => false)
  let bs := (s.blocks.map Prod.snd).filter fun B => onEngines B && s.under rcb B.rcb
  let regs := (gs.map fun G => 32 * G.alloc).sum
    + 64 * (bs.filter fun B => B.kind = .swarm).length
  (regs, (bs.map fun B => B.engines.length * shareLines B).sum, (bs.map fun B => B.banks.flatten.length).sum)

/-- The quota, as inherit bit and RCB, that a block of given needs would pass. -/
def overQuota (s : State) (rcb regs lines banks : Nat) (empty : Bool) : Option Nat :=
  let use := fun q => if empty then (0, 0, 0) else s.inUse q
  match (s.limiters rcb 4).find? fun q => (s.region q).regq < (use q).1 + regs with
  | some q => some q
  | none => match (s.limiters rcb 5).find? fun q => (s.region q).spmq < (use q).2.1 + lines with
    | some q => some q
    | none => (s.limiters rcb 6).find? fun q => (s.region q).amq < (use q).2.2 + banks

/-- Registers that a block of a launch takes. -/
def blockRegs (L : Launch) : Nat := if L.isSwarm then 64 else 32 * 8 * L.regs * L.groups

/-- A block of a launch on n engines, which takes ⌈SPMLINES / n⌉ lines and ⌈AMBANKS / n⌉ banks of each (R43, R262), would
pass a quota now; with empty, even alone. -/
def quotaStops (s : State) (L : Launch) (n : Nat) (empty : Bool) : Option Nat :=
  s.overQuota L.rcb (blockRegs L) (n * ceilDiv L.spmlines n) (n * ceilDiv L.ambanks n) empty

end State

/-! ## Groups of a placed block (R30, R31) -/

/-- The stack top of a thread (R47). -/
def stackTop (s : State) (L : Launch) (bid tid : Nat) : DWord :=
  BitVec.ofNat 64 ((s.resolved L.rcb 12).stackarea + L.stkoff * 4096
    + (bid * L.threads + tid + 1) * L.stksz * 16)

/-- A thread as R31 starts it. -/
def startThread (alloc : Nat) (pc : DWord) (args stack : DWord) (id : Ident) : Thread :=
  { pc := pc, x := List.replicate alloc 0, p := [0, 0, 0, 0, 0, 0, args, stack]
    c := List.replicate 7 false, ident := id }

/-- Group g of a block of a launch on an engine: its threads are Live below the block's thread count. -/
def gridGroup (s : State) (L : Launch) (blk bid e lcore lslot g : Nat) : Group :=
  let thread := fun i =>
    let tid := 32 * g + i
    let id : Ident :=
      { tid := BitVec.ofNat 32 tid, gid := BitVec.ofNat 32 g, bid := BitVec.ofNat 64 bid
        lcore := BitVec.ofNat 32 lcore, jseed := L.jseed, mbox := BitVec.ofNat 32 (lcore * 256 + lslot) }
    let h := startThread (8 * L.regs) L.entry L.args (stackTop s L bid tid) id
    if tid < L.threads && !L.raster then h else { h with slot := .exited }
  { key := s.nextKey, kind := .simt e 0, blk := blk, rcb := L.rcb, lr := L.lr, entry := L.entry
    alloc := 8 * L.regs, fs := L.fs, fssc := L.fssc, gid := g, lcore := lcore, lslot := lslot
    k := List.replicate 160 0, masks := List.replicate 11 0, arrive := List.replicate 12 0
    credit := List.replicate 12 0, gstate := if L.raster then .retired else .waiting
    threads := (upTo 32).map thread }

namespace State

/-- A group at the tail of its partition's ready queue (R72). -/
def joinReady (s : State) (g : Nat) : State := match s.partOf g with
  | none => s
  | some k =>
    let q := s.part k
    if q.ready.contains g || q.active.contains (some g) then s
    else (s.modPart k fun q => { q with ready := q.ready ++ [g] }).fillActive k

/-- A group added to the state under the next key. -/
def addGroup (s : State) (G : Group) : State :=
  let (key, s) := s.fresh
  { s with groups := lput key { G with key := key } s.groups }

end State

/-- The groups of one share started on an engine: local group j goes to partition j mod 4. -/
def startShare (L : Launch) (blk bid e first n : Nat) (s : State) : State :=
  (upTo n).foldl (fun (s : State) j =>
    let (lcore, lslot, s) := s.groupNumber L.rcb e
    let G := gridGroup s L blk bid e lcore lslot (first + j)
    let key := s.nextKey
    let s := s.addGroup { G with kind := .simt e (j % 4) }
    if L.raster then s else s.joinReady key) s

/-- The engines on which a launch's grid has a block for the first time empty what LDC and the texture units may still
read as before (R218, R297). -/
def startGridOn (l : Nat) (es : List Nat) (s : State) : State :=
  es.foldl (fun (s : State) e =>
    if (s.launch l).started.contains e then s
    else (s.modEngine e fun E => { E with olds := [] }).modLaunch l fun L => { L with started := L.started ++ [e] }) s

/-- A grid or bin block of a launch placed on engines of a cluster. -/
def placeOn (s : State) (L : Launch) (bid : Nat) (es : List Nat) : State :=
  let (s, order) := s.numbered L.rcb es
  let engines := order.map Prod.fst
  let n := engines.length
  let per := ceilDiv L.groups n
  let (key, s) := s.fresh
  let B : Block :=
    { key := key, launch := L.key, bid := bid, rcb := L.rcb, kind := if L.raster then .bin else .grid
      engines := engines, lcores := order.map Prod.snd, lines := L.spmlines
      banks := engines.map fun e => (s.banksFor L.key e).take (ceilDiv L.ambanks n), since := s.cycle
      bin := if L.raster then some { binds := L.binds } else none, placed := key }
  let s := startGridOn L.key engines { s with blocks := lput key B s.blocks }
  engines.zipIdx.foldl (fun s x =>
    let first := x.2 * per
    startShare L key bid x.1 first (Nat.min per (L.groups - first)) s) s

/-- A swarm block of a launch placed on a context (R71). -/
def placeContext (s : State) (L : Launch) (bid ctx : Nat) : State :=
  let (n, s) := s.contextNumber L.rcb ctx
  let id : Ident :=
    { bid := BitVec.ofNat 64 bid, lcore := BitVec.ofNat 32 n, jseed := L.jseed
      mbox := BitVec.ofNat 32 (2 ^ 31 + n) }
  let h := { startThread 64 L.entry L.args (stackTop s L bid 0) id with status := 4#32 }
  let (key, s) := s.fresh
  let B : Block :=
    { key := key, launch := L.key, bid := bid, rcb := L.rcb, kind := .swarm, engines := [ctx], lcores := [n]
      since := s.cycle, placed := key }
  let G : Group :=
    { key := 0, kind := .swarm 0 0, blk := key, rcb := L.rcb, lr := L.lr, entry := L.entry, fs := L.fs
      fssc := L.fssc }
  { s with blocks := lput key B s.blocks }.startContext ctx G h (List.replicate 32 0)

end Sys2Proof.Machine
end

