-- ==== Sys2Proof/Machine/Raster.lean ====
section
/-! DEFINITION. Raster bins (R284 to R296, R403 to R406): the raster and output-merge sequencers, PIXOUT, the
raster-ordered section, and the draw port. -/

namespace Sys2Proof.Machine

/-! ## Bin and primitive records (R285, R286) -/

/-- NPRIM. -/
def Bin.nprim (b : Bin) : Nat := numAt b.table 0x08 4
/-- TX. -/
def Bin.tx (b : Bin) : Nat := numAt b.table 0x0C 2
/-- TY. -/
def Bin.ty (b : Bin) : Nat := numAt b.table 0x0E 2
/-- DEPTH. -/
def Bin.depthAt (b : Bin) : Nat := numAt b.table 0x10 8
/-- COLOR. -/
def Bin.colorAt (b : Bin) : Nat := numAt b.table 0x18 8
/-- STENCIL. -/
def Bin.stencilAt (b : Bin) : Nat := numAt b.table 0x20 8
/-- NATTR. -/
def Bin.nattr (b : Bin) : Nat := numAt b.table 0x28 1
/-- FLAGS. -/
def Bin.flags (b : Bin) : Nat := numAt b.table 0x29 1
/-- ZFUNC. -/
def Bin.zfunc (b : Bin) : Nat := bits b.flags 4 3
/-- SREF. -/
def Bin.sref (b : Bin) : Nat := numAt b.table 0x2A 1
/-- SMODE. -/
def Bin.smode (b : Bin) : Nat := numAt b.table 0x2B 1
/-- Early depth acts (R292). -/
def Bin.early (b : Bin) : Bool := bit b.flags 1 && (b.zfunc = 1 || b.zfunc = 2) && b.stencilAt = 0
/-- Bytes of a primitive's record. -/
def Bin.primBytes (b : Bin) : Nat := 16 + 12 * (3 + b.nattr)

/-- The depth test of a z against a stored word for ZFUNC 0 to 2 (R294). -/
def depthPass (zfunc : Nat) (z stored : Word) : Bool := match zfunc with
  | 0 => true
  | 1 => vlt (f32 z) (f32 stored)
  | _ => fLe z stored

/-! ## Setup, coverage and interpolation (R288 to R290) -/

/-- A vertex: x, y, z and attributes as words. -/
abbrev Vertex := List Word

/-- A screen coordinate relative to the tile origin o × 256, rounded; none where it culls. -/
def snap (w : Word) (o : Nat) : Option Int := match f32 w with
  | .fin neg num den =>
    let n : Int := (if neg then -(num : Int) else num) - o * den
    if 2 ^ 15 * (den : Int) ≤ n ∨ n ≤ -(2 ^ 15 * (den : Int)) then none
    else
      let q := (roundInt 0 (n < 0) (n.natAbs * 256) den).1
      some (if n < 0 then -(q : Int) else q)
  | _ => none

/-- E of the edge from p to q at a point. -/
def edgeAt (p q pt : Int × Int) : Int := (q.1 - p.1) * (pt.2 - p.2) - (q.2 - p.2) * (pt.1 - p.1)

/-- The edge from p to q is top-left. -/
def topLeft (p q : Int × Int) : Bool := q.2 - p.2 < 0 || (q.2 = p.2 && 0 < q.1 - p.1)

/-- A primitive set up: snapped vertices in order, A, their values, and whether it is front-facing. -/
structure Setup where
  pts : List (Int × Int)
  area : Nat
  verts : List Vertex
  front : Bool

/-- Setup of three vertices; none where the primitive is culled. -/
def setupTri (ox oy : Nat) (cullBack : Bool) (v : List Vertex) : Option Setup :=
  let pt := fun (k : Nat) =>
    match snap (vecAt (v.getD k []) 0) ox, snap (vecAt (v.getD k []) 1) oy with
    | some x, some y => some (x, y)
    | _, _ => none
  match pt 0, pt 1, pt 2 with
  | some p0, some p1, some p2 =>
    let a := edgeAt p0 p1 p2
    if a = 0 then none
    else if 0 < a then some { pts := [p0, p1, p2], area := a.toNat, verts := v, front := true }
    else if cullBack then none
    else some { pts := [p0, p2, p1], area := (-a).toNat, verts := [v.getD 0 [], v.getD 2 [], v.getD 1 []]
                front := false }
  | _, _, _ => none

/-- The edge values at a pixel, where the primitive covers it. -/
def coverage (u : Setup) (lx ly : Nat) : Option (List Nat) :=
  let p := fun (k : Nat) => u.pts.getD k (0, 0)
  let pt : Int × Int := (256 * lx + 128, 256 * ly + 128)
  let edge := fun (i j : Nat) =>
    let e := edgeAt (p i) (p j) pt
    if 0 < e || (e = 0 && topLeft (p i) (p j)) then some e.toNat else none
  match edge 1 2, edge 2 0, edge 0 1 with
  | some e0, some e1, some e2 => some [e0, e1, e2]
  | _, _, _ => none

/-- Value k of the vertices interpolated at edge values (R290). -/
def interpolate (u : Setup) (es : List Nat) (k : Nat) : Word :=
  let terms := (es.zip u.verts).filter fun x => x.1 ≠ 0
  let vals := terms.map fun x => (vmul (.fin false x.1 1) (f32 (vecAt x.2 k))).1
  let sum := match vals with
    | [] => .fin false 0 1
    | v :: rest => rest.foldl (fun a b => (vadd a b).1) v
  (roundFP32 .rne (vdiv sum (.fin false u.area 1)).1).1

/-- The start registers of a pixel (R291). -/
def pixelRegs (b : Bin) (pid : Word) (u : Setup) (es : List Nat) (lx ly : Nat) : List Word :=
  [BitVec.ofNat 32 (64 * b.tx + lx) ||| (BitVec.ofNat 32 (64 * b.ty + ly) <<< 16), pid
  , if u.front then 1#32 else 0#32]
    ++ (upTo (1 + b.nattr)).map fun k => interpolate u es (2 + k)

/-- A covered pixel that early depth does not reject (R292). -/
def pixelOf (b : Bin) (pid : Word) (u : Setup) (lx ly : Nat) : Option (Nat × List Word) :=
  match coverage u lx ly with
  | none => none
  | some es =>
    let regs := pixelRegs b pid u es lx ly
    let at_ := 64 * ly + lx
    if b.early && !depthPass b.zfunc (vecAt regs 3) (vecAt b.depth at_) then none else some (at_, regs)

/-- The quads of a primitive in order (R291). -/
def quadsOf (b : Bin) (prim : Nat) (pid : Word) (u : Setup) : List Quad :=
  let quad := fun (k : Nat) =>
    let x := 2 * (k % 32)
    let y := 2 * (k / 32)
    [(x, y), (x + 1, y), (x, y + 1), (x + 1, y + 1)].filterMap fun c => pixelOf b pid u c.1 c.2
  (((upTo 1024).map quad).filter (· ≠ [])).zipIdx.map fun x => { prim := prim, index := x.2, pixels := x.1 }

/-! ## Requests of a bin -/

/-- Bytes read in pieces of 64; the fuel counts pieces. -/
def spanRead (cl table rcb : Nat) : Nat → State → Nat → Nat → Except TrapInfo (State × List Byte)
  | 0, s, _, _ => .ok (s, [])
  | k + 1, s, va, n =>
    if n = 0 then .ok (s, [])
    else match s.microRead cl table rcb va (Nat.min n 64) [] with
      | .error ti => .error ti
      | .ok (s, bs) => match spanRead cl table rcb k s ((va + 64) % 2 ^ 64) (n - 64) with
        | .error ti => .error ti
        | .ok (s, cs) => .ok (s, bs ++ cs)

/-- Who acts for a bin: its region, launch and block (R352). -/
def binOwner (s : State) (B : Block) : Owner :=
  { rcb := B.rcb, lr := (s.launch B.launch).lr, bid := B.bid }

/-- The cluster of a block. -/
def Block.cluster (B : Block) : Nat :=
  if B.kind = .swarm then at0 B.engines 0 / 1024 else at0 B.engines 0 / 4

/-- The identity of a bin's request for its records: raster 0, output-merge 1 (R354). -/
def binId (B : Block) (index : Nat) : EntryId :=
  { d := B.cluster / 16, unit := unitCluster B.cluster (16 + index), rcb := B.rcb, source := 8, index := index
    ent := 0 }

/-- A bin's state changed. -/
def modBin (s : State) (blk : Nat) (f : Bin → Bin) : State :=
  s.modBlock blk fun B => { B with bin := B.bin.map f }

/-- Failed primitives (INDEX 0) or pixel writes (INDEX 1) of a bin, each once, for its records. -/
def Bin.noteFails (b : Bin) (index : Nat) (items : List Nat) (ti : TrapInfo) : Bin :=
  let new := items.filter fun i => b.fails.all fun f => f.1 ≠ index || f.2.1 ≠ i
  { b with fails := b.fails ++ new.map fun i => (index, i, ti) }

/-- Failed items of a bin, which its records name when it completes (R353, R355, R403; log entry 127), and what follows. -/
def binFail (s : State) (B : Block) (index : Nat) (items : List Nat) (ti : TrapInfo) (k : State → State) : State :=
  k (modBin s B.key fun b => b.noteFails index items ti)

/-- The completion records of a bin: those of its primitives, then those of its pixel writes (R353, R354). -/
def binRecords (s : State) (B : Block) : List (RecHead × List Byte) :=
  let fails := (B.bin.map Bin.fails).getD []
  ((upTo 2).map fun i =>
    completionRecords (binId B i) (binOwner s B) ((fails.filter fun f => f.1 = i).map Prod.snd)).flatten

/-- A shadow counter raised by a number modulo 2^64. -/
def Bin.count (b : Bin) (k n : Nat) : Bin := { b with shadow := b.shadow.modify k fun v => (v + n) % 2 ^ 64 }

/-- Additions of CNT. -/
def Bin.countAll (b : Bin) (l : List (Nat × DWord)) : Bin := l.foldl (fun b x => b.count x.1 x.2.toNat) b

/-- A pixel write from the words that an image pushes for it: position, primitive, colour and z, as a request of
output merging takes them (log entry 16). -/
def pushedOut (ws : List Word) : PixelOut :=
  let pos := (ws.getD 0 0).toNat
  { prim := (ws.getD 1 0).toNat, at_ := 64 * (pos / 65536 % 64) + pos % 64, colour := (ws.drop 2).take 4
    z := ws.getD 6 0 }

/-- A pixel thread from the start registers that an image pushes for it (R291): its place in the tile is that of x0. -/
def pushedPixel (b : Bin) (prim : Nat) (ws : List Word) : Bin :=
  let pos := (ws.getD 0 0).toNat
  let px := (64 * (pos / 65536 % 64) + pos % 64, ws)
  let same := fun (q : Quad) => q.prim = prim && q.pixels.all fun p =>
    p.1 / 128 = px.1 / 128 && p.1 % 64 / 2 = px.1 % 64 / 2 && p.1 ≠ px.1
  match b.quads.getLast? with
  | some q =>
    if same q then { b with quads := b.quads.dropLast ++ [{ q with pixels := q.pixels ++ [px] }] }
    else { b with quads := b.quads ++ [{ prim := prim, index := q.index + 1, pixels := [px] }] }
  | none => { b with quads := [{ prim := prim, index := 0, pixels := [px] }] }

/-- A word pushed to port 1, 2 or 3 (R280): the output-merge sequencer takes seven words for a pixel write, the pixel
threads the start registers of one thread, and the query counters a counter's number and what it is raised by
(log entry 16). -/
def Bin.push (b : Bin) (prim : Nat) (x : Nat × Word) : Bin :=
  let ws := b.ports.getD (x.1 - 1) [] ++ [x.2]
  let need := if x.1 = 1 then 7 else if x.1 = 2 then 4 + b.nattr else 2
  let keep := { b with ports := b.ports.set (x.1 - 1) (if ws.length < need then ws else []) }
  if ws.length < need then keep
  else match x.1 with
    | 1 => { keep with outs := keep.outs ++ [pushedOut ws] }
    | 2 => pushedPixel keep prim ws
    | _ => keep.count ((ws.getD 0 0).toNat % 4) (ws.getD 1 0).toNat

/-- A request of a registered image for a bin (R281, R282; log entry 16): the state after it with its counts and what
it pushed, or its failure; none while it waits. -/
def binMicro (s : State) (blk kind : Nat) (B : Block) (b : Bin) (req prim : Nat) (input : List Word) :
    Option (State × Option TrapInfo) :=
  let u : MicroUnit := { cl := B.cluster, table := s.tableOf B.rcb, who := binOwner s B }
  let img := (s.imageAt kind (at0 b.binds kind)).getD { kind := 0, id := 0, len := 0, entries := [], words := [] }
  let after := fun (m : Micro) => modBin m.s blk fun b =>
    m.ports.foldl (fun b x => b.push prim x) (b.countAll m.counts)
  match microStart s u img req input with
  | .halted m => some (after m, none)
  | .fault m ti => some (after m, some ti)
  | .spent m => some (after m, some { cause := cWATCHDOG })
  | .wait => none

/-- The bin of a Resident or Draining bin block. -/
def liveBin (s : State) (blk : Nat) : Option (Block × Bin) :=
  let B := s.block blk
  if B.bstate = .resident || B.bstate = .draining then B.bin.map fun b => (B, b) else none

/-- The header and record of a bin, and its depth buffer where early depth needs it. -/
def readBin (s : State) (B : Block) : Except (TrapInfo × Nat) (State × Bin) :=
  let L := s.launch B.launch
  let cl := B.cluster
  let table := s.tableOf B.rcb
  let args := L.args.toNat
  match spanRead cl table B.rcb 1 s args 64 with
  | .error ti => .error (ti, 1)
  | .ok (s, hdr) => match spanRead cl table B.rcb 1 s ((args + 64 + 64 * B.bid) % 2 ^ 64) 64 with
    | .error ti => .error (ti, 1)
    | .ok (s, rec) =>
      let b : Bin := { started := true, table := rec, query := numAt hdr 0 8, binds := L.binds }
      if !b.early then .ok (s, b)
      else match spanRead cl table B.rcb 256 s b.depthAt 16384 with
        | .error ti => .error (ti, Nat.max 1 b.nprim)
        | .ok (s, ds) => .ok (s, { b with depth := wordsOf 4096 ds })

/-- BIN_START: the bin's record is read (R285), and its depth buffer for early depth (R292). A bin that cannot
be read emits nothing: its primitives fail (R1, R403). -/
def execBinStart (blk : Nat) (s : State) : Host.Outcome State Fault Refusal :=
  match liveBin s blk with
  | none => .next s
  | some (B, b0) =>
    if b0.started || s.poolFull (B.cluster / 16) then .next s
    else
      let stop := fun (s : State) => modBin s blk fun b => { b with started := true }
      match readBin s B with
      | .error (ti, n) => .next (binFail s B 0 (upTo n) ti stop)
      | .ok (s', b) =>
        let s' := modBin s' blk fun _ => b
        if at0 b.binds 0 = 0 then .next s'
        else match binMicro s' blk 0 B b 0 0 (wordsOf 16 b.table) with
          | none => .next s
          | some (s', none) => .next s'
          | some (s', some ti) => .next (binFail s' B 0 (upTo (Nat.max 1 b.nprim)) ti fun s =>
              modBin s blk fun b => { b with nextPrim := b.nprim })

/-- The bin after primitive p is set up (R288, R289, R291, R296). -/
def emitPrim (b : Bin) (p : Nat) (rec : List Byte) : Bin :=
  let first := bit (numAt rec 4 4) 0
  let n := 3 + b.nattr
  let all := wordsOf (3 * n) (rec.drop 16)
  let verts := (upTo 3).map fun k => (all.drop (n * k)).take n
  let b := { b with nextPrim := p + 1 }
  let b := if first then b.count 0 1 else b
  match setupTri (64 * b.tx) (64 * b.ty) (bit b.flags 0) verts with
  | none => if first then b.count 1 1 else b
  | some u => { b with quads := b.quads ++ quadsOf b p (BitVec.ofNat 32 (numAt rec 0 4)) u }

/-- PRIMITIVE: the next primitive of a bin is set up and its quads are emitted; one whose record cannot be
read fails alone (R403). -/
def execPrimitive (blk : Nat) (s : State) : Host.Outcome State Fault Refusal :=
  match liveBin s blk with
  | none => .next s
  | some (B, b) =>
    let p := b.nextPrim
    if !b.started || b.nprim ≤ p || s.poolFull (B.cluster / 16) then .next s
    else
      let skip := fun (s : State) => modBin s blk fun b => { b with nextPrim := p + 1 }
      let va := (numAt b.table 0 8 + p * b.primBytes) % 2 ^ 64
      match spanRead B.cluster (s.tableOf B.rcb) B.rcb 64 s va b.primBytes with
      | .error ti => .next (binFail s B 0 [p] ti skip)
      | .ok (s', rec) =>
        if at0 b.binds 0 = 0 then .next (modBin s' blk fun b => emitPrim b p rec)
        else match binMicro s' blk 0 B b 1 p (wordsOf (b.primBytes / 4) rec) with
          | none => .next s
          | some (s', none) => .next (skip s')
          | some (s', some ti) => .next (binFail s' B 0 [p] ti skip)

/-! ## Pixel groups (R291) -/

/-- The pixel that thread i of a group takes from its quads. -/
def pixelFor (qs : List Quad) (i : Nat) : Option (Nat × (Nat × List Word)) := match qs[i / 4]? with
  | none => none
  | some q => (q.pixels.find? fun x => 2 * (x.1 / 64 % 2) + x.1 % 2 = i % 4).map fun x => (q.prim, x)

/-- A group slot of a bin started with quads. -/
def startPixels (s : State) (L : Launch) (B : Block) (key : Nat) (qs : List Quad) : State :=
  let G := s.group key
  let base := gridGroup s L B.key B.bid G.kind.engine G.lcore G.lslot G.gid
  let thread := fun (i : Nat) =>
    let h := base.threads.getD i default
    match pixelFor qs i with
    | none => h
    | some (prim, at_, regs) =>
      let px : Pixel := { prim := prim, at_ := at_, z := vecAt regs 3 }
      { h with slot := .live, x := (regs ++ h.x.drop regs.length).take h.x.length, pixel := some px }
  let threads := (upTo 32).map thread
  let n := (threads.filter fun h => h.slot = .live).length
  let next := s.nextKey
  let s := { s with groups := ldel key s.groups }.addGroup
    { base with kind := G.kind, gstate := .waiting, threads := threads }
  (modBin s B.key fun b => { b.count 2 n with quads := b.quads.drop 8 }).joinReady next

/-- PIXEL_GROUP_START: a group slot of a bin all of whose threads have exited takes up to 8 quads. -/
def execPixelGroupStart (blk : Nat) (s : State) : Host.Outcome State Fault Refusal :=
  match liveBin s blk with
  | none => .next s
  | some (B, b) =>
    match b.quads, s.groups.find? fun e => e.2.blk = blk && e.2.gstate = .retired with
    | [], _ | _, none => .next s
    | qs, some e => .next (startPixels s (s.launch B.launch) B e.1 (qs.take 8))

/-! ## PIXOUT and output merging (R293, R294) -/

/-- PIXOUT. -/
def execPixout (flags : BitVec 2) (d a : Field) (s : State) : Host.Outcome State Fault Refusal :=
  runLanes (.pixout flags d a) (fun s0 s t =>
    match (s0.th t).pixel with
    | none => .trap { cause := cILLEGAL, aux := 2 }
    | some p =>
      if p.out then .trap { cause := cILLEGAL, aux := 3 }
      else
        let s := s.modTh t fun h => { h with pixel := h.pixel.map fun p => { p with out := true } }
        let o : PixelOut :=
          { prim := p.prim, at_ := p.at_, colour := s0.run t d 4
            z := if flags.getLsbD 0 then s0.reg t a else p.z }
        if flags.getLsbD 1 then .ok s
        else .ok (modBin s (s.group s.iss.g).blk fun b => { b with outs := b.outs ++ [o] })) s

/-- A value clamped to 0 to 1, as a fraction; a NaN counts as 0. -/
def clamp01 : Val → Nat × Nat
  | .nan => (0, 1)
  | .inf neg => (if neg then 0 else 1, 1)
  | .fin neg num den => if neg then (0, 1) else if den ≤ num then (1, 1) else (num, den)

/-- q of a channel. -/
def channelByte (v : Val) : Byte :=
  let (n, d) := clamp01 v
  BitVec.ofNat 8 (roundInt 0 false (255 * n) d).1

/-- The four channels after a write, without or with BLEND. -/
def mergeColour (blend : Bool) (c : List Word) (old : List Byte) : List Byte :=
  let (an, ad) := clamp01 (f32 (vecAt c 3))
  (upTo 4).map fun k =>
    let ck := f32 (vecAt c k)
    if blend then
      let dst : Val := .fin false ((old.getD k 0).toNat * (ad - an)) (255 * ad)
      channelByte (vadd (vmul ck (.fin false an ad)).1 dst).1
    else channelByte ck

/-- What a pixel write comes to: done (with whether it passed), failed, or held. -/
inductive PixelRes
  | ok (s : State) (passed : Bool)
  | fail (ti : TrapInfo)
  | wait

/-- Writes of a pixel one after another: address and bytes. -/
def pixelStores (cl table : Nat) (who : Owner) : State → List (Nat × List Byte) → PixelRes
  | s, [] => .ok s true
  | s, (va, bs) :: rest => match s.unitStore (512 + cl) table va who bs with
    | .ok s => pixelStores cl table who s rest
    | .fail ti => .fail ti
    | .wait _ => .wait

/-- The stencil test; a reserved test code passes or fails by a free choice. -/
def stencilPass (s : State) (b : Bin) (v : Byte) : Bool × State := match bits b.smode 1 0 with
  | 0 => (true, s)
  | 1 => (v.toNat = b.sref, s)
  | 2 => (v.toNat ≠ b.sref, s)
  | _ => s.freeBit

/-- The depth test; a reserved code passes or fails by a free choice. -/
def zPass (s : State) (b : Bin) (z stored : Word) : Bool × State :=
  if b.zfunc = 3 then s.freeBit else (depthPass b.zfunc z stored, s)

/-- The stencil byte after a pass; a reserved code stores a free value. -/
def stencilNew (s : State) (b : Bin) (v : Byte) : Byte × State := match bits b.smode 3 2 with
  | 0 => (v, s)
  | 1 => (BitVec.ofNat 8 b.sref, s)
  | 2 => (BitVec.ofNat 8 (Nat.min (v.toNat + 1) 255), s)
  | _ => ((Config.unpushed s.free).setWidth 8, { s with free := s.free + 1 })

/-- Stored bytes that a step of a pixel write reads, where it needs them. -/
def readPixel (s : State) (B : Block) (need : Bool) (va n : Nat) : Except TrapInfo (State × List Byte) :=
  if need then s.microRead B.cluster (s.tableOf B.rcb) B.rcb (va % 2 ^ 64) n [] else .ok (s, [])

/-- A pixel write by the shipped image. -/
def mergePixel (s : State) (B : Block) (b : Bin) (o : PixelOut) : PixelRes :=
  match readPixel s B (b.stencilAt ≠ 0) (b.stencilAt + o.at_) 1 with
  | .error ti => .fail ti
  | .ok (s, sts) =>
    let st := sts.getD 0 0
    let (okS, s) := if b.stencilAt = 0 then (true, s) else stencilPass s b st
    -- a test that fails ends the write, and what the later steps would read is not read (R294)
    if !okS then .ok s false
    else match readPixel s B (b.zfunc ≠ 0) (b.depthAt + 4 * o.at_) 4 with
    | .error ti => .fail ti
    | .ok (s, zs) =>
      let (okZ, s) := zPass s b o.z ((wordsOf 1 zs).getD 0 0)
      if !okZ then .ok s false
      else match readPixel s B (bit b.flags 5) (b.colorAt + 4 * o.at_) 4 with
      | .error ti => .fail ti
      | .ok (s, cs) =>
        let (st', s) := if b.stencilAt = 0 then (st, s) else stencilNew s b st
        let stencil := if b.stencilAt = 0 then [] else [((b.stencilAt + o.at_) % 2 ^ 64, [st'])]
        let depth := if bit b.flags 2 then [((b.depthAt + 4 * o.at_) % 2 ^ 64, toBytes 4 o.z.toNat)] else []
        let colour := [((b.colorAt + 4 * o.at_) % 2 ^ 64, mergeColour (bit b.flags 5) o.colour cs)]
        pixelStores B.cluster (s.tableOf B.rcb) (binOwner s B) s (stencil ++ depth ++ colour)

/-- A thread of an earlier primitive at the pixel has neither executed PIXOUT nor ended, or its write
stands before this one. -/
def pixelHeld (s : State) (blk : Nat) (b : Bin) (o : PixelOut) : Bool :=
  (s.groups.any fun e => e.2.blk = blk && e.2.threads.any fun h => match h.pixel with
    | some p => p.at_ = o.at_ && p.prim < o.prim && !p.out && h.slot ≠ .exited
    | none => false)
  || b.outs.any fun p => p.at_ = o.at_ && p.prim < o.prim

/-- PIXEL_WRITE: the output-merge sequencer applies a PIXOUT whose turn it is; one that fails is reported and
not applied (R403). -/
def execPixelWrite (blk : Nat) (s : State) : Host.Outcome State Fault Refusal :=
  match liveBin s blk with
  | none => .next s
  | some (B, b) => match b.outs.find? fun o => !pixelHeld s blk b o with
    | none => .next s
    | some o =>
      let drop := fun (s : State) => modBin s blk fun b => { b with outs := b.outs.erase o }
      if s.poolFull (B.cluster / 16) then .next s
      else if at0 b.binds 1 = 0 then match mergePixel s B b o with
        | .wait => .next s
        | .fail ti => .next (binFail s B 1 [o.prim] ti drop)
        | .ok s' passed => .next (drop (if passed then modBin s' blk fun b => b.count 3 1 else s'))
      else
        let pos := BitVec.ofNat 32 (64 * b.tx + o.at_ % 64) ||| (BitVec.ofNat 32 (64 * b.ty + o.at_ / 64) <<< 16)
        let input := [pos, BitVec.ofNat 32 o.prim] ++ o.colour ++ [o.z] ++ wordsOf 16 b.table
        match binMicro s blk 1 B b 0 o.prim input with
        | none => .next s
        | some (s', none) => .next (drop s')
        -- nothing of a write that fails is applied (R403)
        | some (_, some ti) => .next (binFail s B 1 [o.prim] ti drop)

/-! ## The raster-ordered section (R295, R404) -/

/-- RSCB: an acquire at `.clu` scope, which one L1 for the cluster makes no other work of. -/
def execRscb (s : State) : Host.Outcome State Fault Refusal :=
  runLanes .rscb (fun s0 s t => match (s0.th t).pixel with
    | none => .trap { cause := cILLEGAL, aux := 2 }
    | some p =>
      if p.section_ then .ok s
      else if !s.met s.iss.g t .turn then .wait s .turn
      else .ok (s.modTh t fun h =>
        { h with pixel := h.pixel.map fun p => { p with section_ := true, issued := 1 } })) s

/-- RSCE: a release at `.clu` scope. -/
def execRsce (s : State) : Host.Outcome State Fault Refusal :=
  runLanes .rsce (fun s0 s t => match (s0.th t).pixel with
    | none => .ok s
    | some p =>
      if !p.section_ then .ok s
      else match entryWait s0 s t { ord := .rel, scope := .clu } with
        | (s, some w) => .wait s w
        | (s, none) => .ok (s.modTh t fun h =>
            { h with pixel := h.pixel.map fun p =>
                { p with section_ := false, issued := 0, passed := true } })) s

/-- The thread has issued 1,048,576 instructions in its section. -/
def sectionSpent (s : State) (g t : Nat) : Bool := match (s.thread g t).pixel with
  | some p => p.section_ && 1048576 ≤ p.issued && (s.thread g t).slot ≠ .exited
  | none => false

/-- SECTION_WATCHDOG: such a thread is ended and reported. -/
def execSectionWatchdog (g t : Nat) (s : State) : Host.Outcome State Fault Refusal :=
  if !sectionSpent s g t then .next s
  else
    let G := s.group g
    let h := s.thread g t
    let f : ReplyFail :=
      { info := { cause := cWATCHDOG, aux := 0x100000 }, pc := h.pc.toNat, words := [], status := h.status }
    match s.report G.kind.die G.rcb (s.trapHead g t f false) (State.trapTail f) with
    | .ok s => .next (s.endThread g t)
    | .error h => .next (s.noteFull G.rcb h)

/-! ## The draw port (R284) -/

/-- The store is one of a launch-record address to DRAW. -/
def DevStore.isDraw (x : DevStore) : Bool :=
  !x.isPort && x.unit % 256 = 64 && x.page = 1 && x.off = 0 && x.bytes.length = 8

/-- DRAW: a launch joins the port's queue; it waits while the queue is full. -/
def execDraw (n : Nat) (s : State) : Host.Outcome State Fault Refusal := match s.devStore n with
  | none => .next s
  | some (x, s') =>
    let d := x.unit / 16384
    if !x.isDraw || 16 ≤ (s.die d).draw.length then .next s
    else .next (s'.modDie d fun D => { D with draw := D.draw ++ [(ofBytes x.bytes, x.who.rcb)] })

/-- The counters of a completed bin added to its query block, as atomics in order (R296, R406). -/
def queryWords (b : Bin) : List (Nat × Nat) :=
  if b.query = 0 then [] else (upTo 4).map fun i => ((b.query + 8 * i) % 2 ^ 64, at0 b.shadow i)

end Sys2Proof.Machine
end

