-- ==== Sys2Proof/Machine/Launches.lean ====
section
/-! DEFINITION. Launches (R47 to R50, R63 to R65, R67, R284, R398): records and their checks, join cells,
refusals, and the end of blocks and launches (R48, R119, R308). -/

namespace Sys2Proof.Machine

/-! ## Records of a region scheduler -/

/-- The bytes from 0x40 of a KIND 6 record (R364). -/
def schedTail (event method bound est actual reqlr saverec vrcb : Nat) : List Byte :=
  let w32 := fun n => toBytes 4 (Nat.min n 0xFFFFFFFF)
  toBytes 1 event ++ toBytes 1 method ++ toBytes 2 0 ++ w32 bound ++ w32 est ++ w32 actual
    ++ toBytes 8 reqlr ++ toBytes 8 saverec ++ toBytes 8 (State.physOf vrcb)

/-- The tail of a record that concerns no block: EVENT 1, 2 and 8. -/
def plainTail (event vrcb : Nat) : List Byte := schedTail event 5 0 0xFFFFFFFF 0 0 0 vrcb

namespace State

/-- n bytes at a physical address that names a structure; what is not memory is not present (R19, R312). -/
def physBytes (s : State) (d pa n : Nat) : Except (Nat × Nat) (List Byte) := match s.target d pa with
  | .hbm _ | .host _ | .peer _ => s.readPhys d (s.ownAddr d pa) n
  | _ => .error (cNOTPRES, 0)

/-! ## The RCB cache (R64) -/

/-- A block that die d's scheduler placed and that holds resources uses the RCB, as its region's or as an ancestor's. -/
def usesRcb (s : State) (d rcb : Nat) : Bool :=
  s.blocks.any fun b => s.under rcb b.2.rcb && onEngines b.2 && (s.launch b.2.launch).die = d

/-- An RCB at the front of what die d's scheduler caches; of more than 4,096 the least recently used that no resident
block uses goes. DESIGN CHOICE (log entry 118): where resident blocks use all of them, R64 names no victim, and the
scheduler keeps one more. -/
def frontRcb (s : State) (d rcb : Nat) : State :=
  let l := rcb :: (s.die d).rcbs.erase rcb
  let l := if l.length ≤ 4096 then l
    else match l.reverse.find? fun r => !s.usesRcb d r with
      | some r => l.erase r
      | none => l
  s.modDie d fun D => { D with rcbs := l }

/-- Die d's scheduler uses the RCB of a registered region, with its ancestors: where it does not cache it, it reads it
again with them. What they hold then changes nothing until they are registered again (R64); a read that fails gives
its cause and unit (DESIGN CHOICE, log entry 118). -/
def touchRcb (s : State) (d rcb : Nat) : Except (Nat × Nat) State :=
  let fail := fun (q : Nat) => match s.physBytes d q 256 with
    | .error f => some f
    | .ok _ => none
  let use := (s.path rcb).reverse.foldl (fun (s : State) q => s.frontRcb d q) s
  if (s.die d).rcbs.contains rcb then .ok use
  else match (s.path rcb).findSome? fail with
    | some f => .error f
    | none => .ok use

end State

/-! ## Checks of a launch record (R47, R49, R71, R284) -/

/-- A launch from its record. -/
def launchOf (bs : List Byte) (lr d : Nat) (raster : Bool) : Launch :=
  let dw := fun off => BitVec.ofNat 64 (numAt bs off 8)
  let blk := numAt bs 0x28 4
  { key := 0, lr := lr, die := d, rcb := numAt bs 0x08 8, entry := dw 0x00, jseed := dw 0x10, args := dw 0x18
    grid := [numAt bs 0x20 4, numAt bs 0x24 2, numAt bs 0x26 2]
    block := [bits blk 11 0 + 1, bits blk 21 12 + 1, bits blk 31 22 + 1]
    regs := numAt bs 0x2C 1, flags := numAt bs 0x2D 1, ambanks := numAt bs 0x2E 1
    spmlines := numAt bs 0x30 2, stksz := numAt bs 0x32 2, stkoff := numAt bs 0x34 4
    cells := (upTo 4).map fun i => numAt bs (0x38 + 8 * i) 8
    fs := (upTo 8).map fun i => BitVec.ofNat 32 (numAt bs (0x58 + i) 1), fssc := wordsOf 8 (bs.drop 0x60)
    raster := raster }

/-- The reserved fields of a record are zero, and no slot holds a reserved rounding or an unknown type. -/
def reservedOk (bs : List Byte) (L : Launch) : Bool :=
  bits L.entry.toNat 1 0 = 0 && bits L.entry.toNat 63 57 = 0 && bits L.flags 7 2 = 0 && numAt bs 0x2F 1 = 0
    && (L.cells.all fun c => bits c 2 1 = 0 && bits c 63 57 = 0)
    && L.fs.all fun f => !bit f.toNat 7 && bits f.toNat 5 4 ≠ 3 && bits f.toNat 3 0 ≤ 9

/-- The sizes of a record are in range, and its block fits one cluster or a context (R43, R71). -/
def sizesOk (s : State) (L : Launch) : Bool :=
  L.threads ≤ 4096 && 1 ≤ L.regs && L.regs ≤ 32 && L.spmlines ≤ 16384 && L.ambanks ≤ 64
    && (if L.isSwarm then
          L.threads = 1 && L.regs = 8 && L.spmlines = 0 && L.ambanks = 0 && !s.gfx L.rcb
        else !State.neverFits L)

/-- NATTR of every bin of a raster launch is within its registers (R284); the fault of a read that fails.
The fuel counts bins. -/
def binsOk (s : State) (L : Launch) : Nat → Except TrapInfo Bool
  | 0 => .ok true
  | k + 1 =>
    let va := (L.args.toNat + 64 + 64 * k) % 2 ^ 64
    match s.readFar L.die (s.tableOf L.rcb) va 64 with
    | .error ti => .error ti
    | .ok (s, bs) => if 4 + numAt bs 0x28 1 ≤ 8 * L.regs then binsOk s L k else .ok false

/-- The checks of a draw port (R284). -/
def rasterOk (s : State) (L : Launch) : Except TrapInfo Bool :=
  if !s.gfx L.rcb || !L.replayable || L.grid.drop 1 ≠ [1, 1] || L.isSwarm then .ok false
  else binsOk s L (at0 L.grid 0)

/-! ## Join cells (R48, R65) -/

/-- The address of a cell reference. -/
def cellAt (c : Nat) : Nat := 8 * bits c 56 3
/-- Input cells. -/
def Launch.inputs (L : Launch) : List Nat := (L.cells.filter fun c => c ≠ 0 && !bit c 0).map cellAt
/-- Completion cells. -/
def Launch.outputs (L : Launch) : List Nat := (L.cells.filter fun c => bit c 0).map cellAt

/-- The input cells read in order: whether all are zero, or the fault of a read (R65). -/
def readCells (s : State) (L : Launch) : List Nat → Except TrapInfo Bool
  | [] => .ok true
  | va :: rest => match s.readVirt L.die (s.tableOf L.rcb) va 4 with
    | .error ti => .error ti
    | .ok (s, bs) => match readCells s L rest with
      | .error ti => .error ti
      | .ok b => .ok (ofBytes bs = 0 && b)

/-- An add at the home of a virtual address, at user level, by a unit of die d (R48, R296): refused by the
host as R388 gives, where the choice of the host is free (log entry 2). -/
def addAtHome (s : State) (d table va w n : Nat) : Except TrapInfo State :=
  if va % w ≠ 0 then .error { cause := cMISALIGN, addr := va }
  else match s.walkNow d table va 2 true with
  | .error ti => .error ti
  | .ok (s, pa, mt) =>
    let native := bit s.natop (if w = 4 then 0 else 1)
    let denied := match s.target d pa with
      | .host _ => if mt = 1 && !native then (true, s) else s.freeBit
      | _ => (false, s)
    match s.accessFail d pa with
    | some u => .error { cause := cLINK, addr := va, aux := u }
    | none =>
      if denied.1 then .error { cause := cHOSTDENY, addr := va }
      else if denied.2.markedIn pa w then
        .error { cause := cECC, addr := va, aux := unitDie (s.homeDie d pa) (sliceOf pa) }
      else .ok (denied.2.homeWriteNat pa w ((denied.2.homeNat pa w + n) % 2 ^ (8 * w)))

/-- Completion cells decremented one after another, each of which has the parked launches read again (R65); a failure
is reported (R48, R364). -/
def decrementCells (L : Launch) : State → List Nat → State.Told
  | s, [] => .ok s
  | s, va :: rest => match addAtHome s L.die (s.tableOf L.rcb) va 4 (2 ^ 32 - 1) with
    | .ok s => decrementCells L s.rereadAll rest
    | .error ti =>
      let h := { State.schedHead L.die 6 ti.cause with lr := L.lr, addr := va, aux := ti.aux }
      match s.report L.die L.rcb h (plainTail 8 L.rcb) with
      | .ok s => decrementCells L s rest
      | .error h => .error h

/-- The end of a launch: its buffered contributions are applied (R308), its completion cells decremented
(R48), and it is gone. -/
def endLaunch (s : State) (L : Launch) : State.Told :=
  match applyBuffered s L.key s.nextKey with
  | .error h => .error h
  | .ok s => match decrementCells L s L.outputs with
    | .error h => .error h
    | .ok s =>
      let s := if L.raster then
          s.modDie L.die fun D => { D with drawDone := (D.drawDone + 1) % 2 ^ 32 }
        else s
      .ok { s with launches := ldel L.key s.launches }

/-- A launch becomes Ready; one without blocks is at its end (R47, R63). -/
def makeReady (s : State) (L : Launch) : State.Told :=
  let L := { L with lstate := .ready, order := s.nextKey }
  if L.total = 0 then endLaunch s L
  else .ok { s.fresh.2 with launches := lput L.key L s.launches }

/-! ## Arrival (R49, R65, R67, R398) -/

/-- What the checks of a launch come to: a refusal, with the region whose area takes the record where there
is one, or a checked launch and whether its input cells are zero. -/
inductive Arrive
  | refuse (rcb : Option Nat) (cause faddr : Nat)
  | ok (s : State) (L : Launch) (zero : Bool)

/-- The record at an address: virtual in the issuer's tree, physical for a command (R312, R398). -/
def readLaunch (s : State) (d lr : Nat) (issuer : Option Nat) : Except TrapInfo (State × List Byte) :=
  match issuer with
  | some r => s.readVirt d (s.tableOf r) lr 128
  | none => match s.physBytes d lr 128 with
    | .ok bs => .ok (s, bs)
    | .error f => .error { cause := f.1, addr := lr, aux := f.2 }

/-- A region that a launch from an issuer, or by a command to die d, may name: registered, of the issuer's tree or of
the die's partition, and not retired but by an abort (R65, R398). -/
def mayLaunch (s : State) (d rcb : Nat) (issuer : Option Nat) : Bool :=
  (lget rcb s.regions).isSome && ((s.region rcb).state ≠ 3 || (s.region rcb).abort.isSome) && (match issuer with
    | some r => s.rootOf r = s.rootOf rcb
    | none => s.together d (s.region rcb).die)

/-- The checks of a launch whose region is known. -/
def checkLaunch (s : State) (bs : List Byte) (L : Launch) : Arrive :=
  let no := fun cause faddr => Arrive.refuse (some L.rcb) cause faddr
  if 2 ≤ (s.region L.rcb).state then no ((s.region L.rcb).abort.getD cRESERVED) 0
  else if !reservedOk bs L || !sizesOk s L then no cRESERVED 0
  else match (if L.raster then rasterOk s L else .ok true) with
  | .error ti => no ti.cause ti.addr
  | .ok false => no cRESERVED 0
  | .ok true =>
    if (s.quotaStops L ((State.emptyFit L).getD 1) true).isSome then no cBUDGET 0
    else match readCells s L L.inputs with
    | .error ti => no ti.cause ti.addr
    | .ok zero =>
      let binds := match s.context L.rcb with
        | some c => (s.region c).binds
        | none => [0, 0, 0, 0]
      .ok s { L with key := s.nextKey, binds := if L.raster then binds else [0, 0, 0, 0] } zero

/-- A launch that reaches the scheduler of die d. One that names no region it may is refused: its record goes
to the issuer's trap area, or for a launch by command to that of the region it names (R49, R65). -/
def arriveLaunch (s : State) (d lr : Nat) (issuer : Option Nat) (raster : Bool) : Arrive :=
  match readLaunch s d lr issuer with
  | .error ti => .refuse issuer ti.cause lr
  | .ok (s, bs) =>
    let L := launchOf bs lr d raster
    let L := { L with rcb := s.ownAddr d L.rcb }
    if mayLaunch s d L.rcb issuer then match s.touchRcb d L.rcb with
      | .ok s => checkLaunch s bs L
      | .error f => .refuse (some L.rcb) f.1 0
    else .refuse (issuer <|> (lget L.rcb s.regions).map fun _ => L.rcb) cRESERVED 0

/-- The KIND 3 record of a refusal (R49). -/
def refuseLaunch (s : State) (d lr : Nat) (rcb : Option Nat) (cause faddr : Nat) : State.Told :=
  match rcb with
  | none => .ok s
  | some r => s.report d r { State.schedHead d 3 cause with lr := lr, addr := lr } (toBytes 8 faddr)

/-- A checked launch enters the scheduler as Ready or Parked. -/
def enterLaunch (s : State) (L : Launch) (zero : Bool) : State.Told :=
  let s := s.fresh.2
  if zero then makeReady s L
  else .ok { s with launches := lput L.key { L with lstate := .parked } s.launches }

/-- The head of an inbox or draw queue: record address and issuer's RCB, 0 for none. -/
def inboxHead (s : State) (i : Nat) : Option (Nat × Nat) :=
  if i < 5000 then (lgetD i s.inboxes []).head? else (s.die (i - 5000)).draw.head?

/-- The inbox without its head. -/
def inboxPop (s : State) (i : Nat) : State :=
  if i < 5000 then { s with inboxes := lmod i [] (·.drop 1) s.inboxes }
  else s.modDie (i - 5000) fun D => { D with draw := D.draw.drop 1 }

/-- A draw port's count of a launch (R284). -/
def countDraw (s : State) (i : Nat) (ok : Bool) : State :=
  if i < 5000 then s
  else s.modDie (i - 5000) fun D =>
    if ok then { D with acc := (D.acc + 1) % 2 ^ 32 } else { D with drawDisc := (D.drawDisc + 1) % 2 ^ 32 }

/-- LAUNCH_ARRIVAL: the scheduler takes the head of an inbox, or of a draw queue, while its dependence table
has an entry (R65), and checks it. -/
def execLaunchArrival (i : Nat) (s : State) : Host.Outcome State Fault Refusal :=
  match inboxHead s i with
  | none => .next s
  | some (lr, who) =>
    let d := State.inboxDie i
    if 1024 ≤ (s.parkedOn d).length then .next s
    else match arriveLaunch s d lr (if who = 0 then none else some who) (5000 ≤ i) with
      | .refuse rcb cause faddr => match refuseLaunch s d lr rcb cause faddr with
        | .ok s => .next (countDraw (inboxPop s i) i false)
        | .error h => .next (s.noteFull (rcb.getD who) h)
      | .ok s' L zero => match enterLaunch s' L zero with
        | .ok s' => .next (countDraw (inboxPop s' i) i true)
        | .error h => .next (s.noteFull L.rcb h)

/-! ## Readings of parked launches (R65) -/

/-- A parked launch's cells read again: Ready, refused, or as it was. -/
def rereadLaunch (s : State) (L : Launch) : State :=
  match readCells s L L.inputs with
  | .ok false => s
  | .ok true => s.orFull L.rcb (makeReady s L)
  | .error ti => s.orFull L.rcb ((refuseLaunch s L.die L.lr (some L.rcb) ti.cause ti.addr).map fun s =>
      { s with launches := ldel L.key s.launches })

/-- The parked launches of a die read again. -/
def rereadDie (s : State) (d : Nat) : State := (s.parkedOn d).foldl rereadLaunch s

/-- PERIODIC_READING: at clocks that are multiples of 4,096. -/
def execPeriodicReading (d : Nat) (s : State) : Host.Outcome State Fault Refusal :=
  if s.cycle % 4096 = 0 then .next (rereadDie s d) else .next s

/-- DECREMENT_READING: after a completion-cell decrement or a JOIN in the package. -/
def execDecrementReading (d : Nat) (s : State) : Host.Outcome State Fault Refusal :=
  if (s.die d).reread then .next (rereadDie (s.modDie d fun D => { D with reread := false }) d)
  else .next s

/-! ## What a block still has under way (R1, R81, R195) -/

/-- The owner acted for a block. -/
def ofBlock (B : Block) (lr : Nat) (w : Owner) : Bool := w.rcb = B.rcb && w.lr = lr && w.bid = B.bid

/-- The atomic is one without a reply that the block made. -/
def atomOf (B : Block) (lr : Nat) (r : AtomReq) : Bool := match r.sink with
  | .record w _ _ _ _ => ofBlock B lr w
  | _ => false

/-- A message on its way that carries work of a block. -/
def bodyOf (B : Block) (lr : Nat) : Body → Bool
  | .hgs c => ofBlock B lr c.who
  | .ustore _ _ w | .storeFail _ _ _ (some w) => ofBlock B lr w
  | .atom rs => rs.any (atomOf B lr)
  | .atomr r _ _ => atomOf B lr r
  | .hostAtom rs _ => rs.any (atomOf B lr)
  | .retry _ (.atom rs) => rs.any (atomOf B lr)
  | _ => false

/-- A request at a home that carries work of a block. -/
def reqOf (B : Block) (lr : Nat) : HomeReq → Bool
  | .atom rs => rs.any (atomOf B lr)
  | _ => false

/-- LR of a block's records. -/
def State.lrOf (s : State) (B : Block) : Nat := (s.launch B.launch).lr

/-- Asynchronous items of a block are not done. -/
def blockBusy (s : State) (B : Block) : Bool :=
  let lr := s.lrOf B
  let b := B.key
  let eng := fun (e : Nat × Engine) =>
    (e.2.loader.any fun q => q.blk = b) || (e.2.dispatch.any fun q => q.blk = b)
      || e.2.queue.any fun c => c.blk = b
  (s.copies.any fun q => q.blk = b || ofBlock B lr q.who)
    || (s.lands.any fun x => x.blk = b)
    || (s.engines.any eng)
    || (s.micro.any fun q => q.launch = B.launch && q.who.bid = B.bid && !s.landed q)
    || (s.flight.any fun m => bodyOf B lr m.body)
    || (s.txs.any fun x => reqOf B lr x.req || x.queue.any (reqOf B lr))
    || (s.l1s.any fun l => l.2.replay.any fun r => ofBlock B lr r.who)
    || (s.due.any fun d => d.arming.blk = b)
    || (s.groups.any fun g => g.2.kind.isProofer && g.2.blk = b)

/-- Every thread of the block has ended, and every FORK member that it recruited (R338), and a bin has emitted and merged
everything (R48, R291). -/
def threadsDone (s : State) (B : Block) : Bool :=
  (s.groups.all fun g => g.2.blk ≠ B.key || g.2.kind.isProofer || g.2.gstate = .retired)
    && (s.groups.all fun g => g.2.fork ≠ some B.key)
    && (match B.bin with
      | none => true
      | some b => b.started && b.nprim ≤ b.nextPrim && b.quads = [] && b.outs = [])

/-! ## The end of a block -/

/-- The block, its groups and what it held are gone (R262, R244). -/
def dropBlock (s : State) (B : Block) : State :=
  let free := fun (h : Nat × Handle) =>
    let H : Handle := if h.2.blk = some B.key then { gen := h.2.gen } else h.2
    (h.1, H)
  let clean := fun (e : Nat × Engine) =>
    (e.1, { e.2 with handles := e.2.handles.map free, arms := e.2.arms.filter fun a => a.blk ≠ B.key })
  { s with
    blocks := ldel B.key s.blocks
    groups := s.groups.filter fun g => g.2.blk ≠ B.key
    engines := s.engines.map clean }

/-- A launch is Ready while a block of it is Queued or Saved, and Running otherwise (R63). One that becomes Ready again
keeps its place among those that became Ready earliest (R66; DESIGN CHOICE, log entry 109). -/
def restate (s : State) (l : Nat) : State := s.modLaunch l fun L =>
  let waits := L.again ≠ [] || L.next < L.total || s.blocks.any fun b => b.2.launch = l && b.2.bstate = .saved
  { L with lstate := if L.lstate = .refused then .refused else if waits then .ready else .running }

/-- The query adds of a bin (R296): a failed add is reported as a RED (R406). -/
def queryAdds (B : Block) (w : Owner) : State → List (Nat × Nat) → State.Told
  | s, [] => .ok s
  | s, (va, n) :: rest =>
    match addAtHome s (B.cluster / 16) (s.tableOf B.rcb) va 8 n with
    | .ok s => queryAdds B w s rest
    | .error ti =>
      let id : EntryId :=
        { d := B.cluster / 16, unit := unitCluster B.cluster 16, rcb := B.rcb, source := 10, index := 0, ent := 0 }
      match s.complete id w [(0, ti)] with
      | .ok s => queryAdds B w s rest
      | .error h => .error h

/-- The header of a record about a block (R364). -/
def blockHead (s : State) (B : Block) (d cause : Nat) : RecHead :=
  { State.schedHead d 6 cause with lr := s.lrOf B, bid := B.bid, lcore := at0 B.lcores 0 }

/-- The end of a pre-emption's method (R366): its record, and the miss noted for its command. -/
def endMethod (s : State) (B : Block) : State.Told := match B.pre with
  | none => .ok s
  | some p =>
    let actual := s.cycle - p.at_
    let bound := p.bound.getD 0
    let late : Bool := p.bound.isSome && bound < actual
    let event := if p.infeasible then 4 else 3
    let tail := schedTail event p.report bound (p.est.getD 0xFFFFFFFF) actual p.reqlr (at0 B.records 0) B.rcb
    let h := { blockHead s B p.die cPREEMPT with addr := State.physOf B.rcb, aux := actual - bound }
    let told := if p.infeasible || late then s.report p.die B.rcb h tail else .ok s
    told.map fun s =>
      let miss := fun (c : Command) => { c with missed := c.missed || late }
      let s := match p.cmd with
        | some d => s.modDie d fun D => { D with cmds := D.cmds.modify 0 miss }
        | none => s
      s.modBlock B.key fun B => { B with pre := none }

/-- Tavg after a completed block (R78). -/
def newTavg (old : Option Nat) (now : Nat) : Option Nat := match old with
  | none => some now
  | some a => some ((3 * a + now) / 4)

/-- The resources of a block that drained, kept for the launch that asked (R62, R81): lines and banks, and a bin's slots
and registers. -/
def keepDrained (s : State) (B : Block) : State :=
  let mine := (s.groups.map Prod.snd).filter fun G => G.blk = B.key && !G.kind.isProofer
  let s := B.engines.zipIdx.foldl (fun (s : State) x =>
    s.keepFreed B { e := x.1, lines := State.shareLines B, banks := B.banks.getD x.2 [] }) s
  if B.kind ≠ .bin then s
  else mine.foldl (fun (s : State) G => match G.kind with
    | .simt e p => s.keepFreed B { e := e, part := p, groups := 1, regs := 32 * G.alloc }
    | _ => s) s

/-- The block's completion once its release is done: a bin's records and query adds, its end, and that of its launch. -/
def completeBlock (s : State) (B : Block) : State.Told :=
  let who := binOwner s B
  match s.reportAll (B.cluster / 16) B.rcb (binRecords s B) with
  | .error h => .error h
  | .ok s => match queryAdds B who s (match B.bin with
    | some b => queryWords b
    | none => []) with
  | .error h => .error h
  | .ok s => match endMethod (keepDrained s B) B with
    | .error h => .error h
    | .ok s =>
      let now := B.telapsed + (s.cycle - B.since)
      let s := dropBlock s B
      if B.kind = .stitched then .ok s
      else
        let s := s.modLaunch B.launch fun L => { L with done := L.done + 1, tavg := newTavg L.tavg now }
        let L := s.launch B.launch
        if L.lstate = .refused then
          .ok (if s.blocks.any fun b => b.2.launch = L.key then s
            else { s with launches := ldel L.key s.launches })
        else if L.done = L.total then endLaunch s L else .ok (restate s L.key)

/-- BLOCK_COMPLETION: every thread of the block has ended and its items are done. The block's release at
`.dev` scope closes its cluster's epoch first; then the block completes (R48, R119). -/
def execBlockCompletion (blk : Nat) (s : State) : Host.Outcome State Fault Refusal :=
  let B := s.block blk
  let runs : Bool := B.bstate = .resident || B.bstate = .draining
  if (lget blk s.blocks).isNone || !runs || !threadsDone s B || blockBusy s B then .next s
  else match B.fence with
    | none =>
      let (e, s) := s.closeEpoch B.cluster
      .next (s.modBlock blk fun B => { B with fence := some e })
    | some e =>
      let held := match e with
        | some e => (s.l1 B.cluster).drains.contains e
        | none => false
      if held then .next s else .next (s.orFull B.rcb (completeBlock s B))

end Sys2Proof.Machine
end

