-- ==== Sys2Proof/Machine/Preempt.lean ====
section
/-! DEFINITION. Pre-emption (R76 to R83, R365 to R367, R371): estimates, the choice of methods, drains,
flushes, and the checks of a drain. -/

namespace Sys2Proof.Machine
namespace State

/-! ## Estimates (R78) -/

/-- Clocks since the block became Resident, over its residencies. -/
def telapsed (s : State) (B : Block) : Nat := B.telapsed + (s.cycle - B.since)

/-- Groups of a block in the order of their records: those that are not Retired. -/
def recordGroups (s : State) (B : Block) (e : Nat) : List Group :=
  (s.groups.map Prod.snd).filter fun G => G.blk = B.key && G.kind.engine = e && G.gstate ≠ .retired
    && !G.kind.isProofer && !G.kind.isSwarm

/-- x registers of a thread of the block. -/
def allocOf (s : State) (B : Block) : Nat :=
  match (s.groups.map Prod.snd).find? fun G => G.blk = B.key && !G.kind.isProofer && !G.kind.isSwarm with
  | some G => G.alloc
  | none => 8 * (s.launch B.launch).regs

/-- S_e of share i of a block (R79). -/
def saveBytes (s : State) (B : Block) (i : Nat) : Nat :=
  let h : Share :=
    { groups := (s.recordGroups B (at0 B.engines i)).length, per := [], alloc := s.allocOf B
      lines := shareLines B, banks := (B.banks.getD i []).length }
  h.saveBytes

/-- Bytes of all records of a block. -/
def recordBytesOf (s : State) (B : Block) : Nat := ((upTo B.engines.length).map fun i => s.saveBytes B i).sum

/-- The largest ⌈S_e / 128⌉ of a block. -/
def saveLines (s : State) (B : Block) : Nat :=
  ((upTo B.engines.length).map fun i => ceilDiv (s.saveBytes B i) 128).foldl Nat.max 0

/-- Contributions of a block's HGS requests that have not been sent to their slices. -/
def unsent (s : State) (B : Block) : Nat :=
  let mine := s.micro.filter fun q =>
    (q.fn = 4 || q.fn = 5) && q.left.isNone && q.launch = B.launch && q.who.bid = B.bid
  (mine.map fun q => match withGrid s q with
    | .ok (_, g) => (wanted q g).length
    | .error _ => 0).sum

/-- Lq: lines of copy-queue entries, LDGS and proofer fetches, and HGS contributions not yet at their slices. -/
def asyncLines (s : State) (B : Block) : Nat :=
  let lr := s.lrOf B
  let copy := fun (q : CqEntry) => ceilDiv ((cqCount q.w - q.done.length) * cqSize q.w) 128
  let mine := fun (b : Body) => match b with
    | .hgs c => ofBlock B lr c.who
    | _ => false
  ((s.copies.filter fun q => q.blk = B.key).map copy).sum
    + ((s.lands.filter fun x => x.blk = B.key && x.source ≠ 9).map fun x => ceilDiv x.size 128).sum
    + ((s.loads.filter fun q => (s.group q.g).kind.isProofer && (s.group q.g).blk = B.key).map fun q =>
        ceilDiv q.size 128).sum
    + (s.flight.filter fun m => mine m.body).length + s.unsent B

/-- The block's group g has an LDT that awaits its value. -/
def awaitsTicket (s : State) (B : Block) : Bool :=
  s.loads.any fun q => q.kind = 2 && (s.group q.g).blk = B.key

/-- T_async. -/
def tAsync (s : State) (B : Block) : Nat :=
  let n := s.asyncLines B
  if n = 0 then 0 else 4 * n + 600

/-- T_save less the time of the record itself. -/
def tBefore (s : State) (B : Block) : Nat := 64 + s.tAsync B + if s.awaitsTicket B then 1200 else 0

/-- T_save. -/
def tSave (s : State) (B : Block) : Nat := s.tBefore B + s.saveLines B

/-- T_flush, where it is defined. -/
def tFlush (s : State) (B : Block) : Option Nat := if s.canReplay B then some (64 + s.tAsync B) else none

/-- T_drain, where it is known. -/
def tDrain (s : State) (B : Block) : Option Nat :=
  if B.kind = .stitched then none
  else match (s.launch B.launch).tavg with
    | some a => if s.telapsed B < a then some (a - s.telapsed B) else none
    | none => none

/-! ## Save areas (R79, R367) -/

/-- SIZE and NEXT of the save area of a region, none where it cannot be used. -/
def saveHeader (s : State) (d rcb : Nat) : Option (Nat × Nat) :=
  let area := (s.resolved rcb 9).savearea
  if area = 0 ∨ area % 128 ≠ 0 then none
  else match s.readVirt d (s.tableOf rcb) area 16 false with
    | .error _ => none
    | .ok (_, bs) => some (numAt bs 0 8, numAt bs 8 8)

/-- NEXT rounded up to a multiple of 128. -/
def roundRecord (n : Nat) : Nat := ceilDiv n 128 * 128

/-- Bytes of records that blocks being saved will take from the area of a region. -/
def plannedBytes (s : State) (rcb : Nat) : Nat :=
  ((s.blocks.filter fun b => b.2.bstate = .saving && s.supplier b.2.rcb 9 = s.supplier rcb 9).map fun b =>
    s.recordBytesOf b.2).sum

/-- No thread of the block runs a handler, and no slot is Migrated (R367). -/
def saveable (s : State) (B : Block) : Bool := s.groups.all fun g => g.2.blk ≠ B.key || g.2.kind.isProofer
  || g.2.threads.all fun h => h.slot ≠ .migrated && (h.slot = .exited || !h.status.getLsbD 1)

/-- Save is available for a block. -/
def canSave (s : State) (d : Nat) (B : Block) : Bool := match s.saveHeader d B.rcb with
  | none => false
  | some (size, next) =>
    s.saveable B && roundRecord next + s.plannedBytes B.rcb + s.recordBytesOf B ≤ size

end State

/-! ## The method of a victim (R80, R83) -/

/-- A method open to a victim: its estimate, its cost, and whether it is feasible. -/
structure Choice where
  method : Method
  est : Nat
  cost : Nat
  feasible : Bool
deriving DecidableEq, Repr

/-- The methods available for a victim in the order of the table's ties, under a bound and with the save time
already planned on each engine. -/
def choices (s : State) (d : Nat) (B : Block) (bound : Option Nat) (sums : List (Nat × Nat)) : List Choice :=
  let within := fun (n : Nat) => match bound with
    | some b => n ≤ b
    | none => true
  let drain := match s.tDrain B with
    | some n =>
      let c : Choice := { method := .drain, est := n, cost := 0, feasible := within n }
      [c]
    | none => []
  let fits := B.engines.zipIdx.all fun x =>
    within (lgetD x.1 sums 0 + s.tBefore B + ceilDiv (s.saveBytes B x.2) 128)
  let save := if s.canSave d B then
      let c : Choice := { method := .save, est := s.tSave B, cost := 2 * s.saveLines B, feasible := fits }
      [c]
    else []
  let flush := match s.tFlush B with
    | some n =>
      let c : Choice := { method := .flush, est := n, cost := s.telapsed B, feasible := within n }
      [c]
    | none => []
  drain ++ save ++ flush

/-- The method chosen, its estimate, and whether none was feasible or, under a bound, available (R80). -/
def chooseMethod (bound : Option Nat) (l : List Choice) : Method × Option Nat × Bool := match bound with
  | none => match l with
    | c :: _ => (c.method, some c.est, false)
    | [] => (.drain, none, false)
  | some _ => match leastBy Choice.cost (l.filter Choice.feasible) with
    | some c => (c.method, some c.est, false)
    | none => match leastBy Choice.est l with
      | some c => (c.method, some c.est, true)
      | none => (.drain, none, true)

/-! ## The start of a method (R81) -/

namespace State

/-- Every group of a block stops issue. -/
def stopBlock (s : State) (b : Nat) : State :=
  let mine := (s.groups.filter fun g => g.2.blk = b && !g.2.kind.isProofer && g.2.gstate ≠ .retired).map Prod.fst
  let stop := fun (G : Group) => { G with stopped := true, gstate := if G.kind.isSwarm then G.gstate else .waiting }
  mine.foldl (fun s g => (s.leavePart g).modGroup g stop) s

/-- A method begins for a block with its record of the pre-emption. -/
def beginMethod (s : State) (b : Nat) (p : Preemption) : State :=
  let p := { p with turn := s.nextKey }
  let sink := match p.method with
    | .drain => BlockState.draining
    | .save => .saving
    | .flush => .flushing
  let s := s.fresh.2.modBlock b fun B => { B with bstate := sink, pre := some p, freed := [] }
  if p.method = .drain then s else s.stopBlock b

end State

/-- METHOD of R364. -/
def Method.code : Method → Nat
  | .drain => 0
  | .save => 1
  | .flush => 2

/-- Who asks for a pre-emption: the deciding die, the bound before the victim's own (R77), REQLR, the die of the PREEMPT
command, and the launch that needs the room. -/
structure Request where
  die : Nat
  bound : Nat
  reqlr : Nat
  cmd : Option Nat
  launch : Option Nat := none
deriving DecidableEq, Repr

/-- B for a victim: none for no bound; at most 15,000 for a region with GFX (R77), and at most 2^32 − 1 (R312). -/
def boundFor (s : State) (q : Request) (B : Block) : Option Nat :=
  let b := Nat.min q.bound (2 ^ 32 - 1)
  if s.gfx B.rcb then some (if b = 0 then 15000 else Nat.min b 15000)
  else if b = 0 then none else some b

/-- A victim's method decided and begun, and the save time planned on each engine (R83). -/
def preemptOne (q : Request) (a : State × List (Nat × Nat)) (b : Nat) : State × List (Nat × Nat) :=
  let (s, sums) := a
  let B := s.block b
  let bound := boundFor s q B
  let (m, est, bad) := chooseMethod bound (choices s q.die B bound sums)
  let p : Preemption :=
    { method := m, report := m.code, bound := bound, est := est, at_ := s.cycle, reqlr := q.reqlr
      die := q.die, cmd := q.cmd, requester := q.launch, infeasible := bad, turn := 0 }
  let sums := if m = .save then
      B.engines.zipIdx.foldl (fun (l : List (Nat × Nat)) x =>
        lmod x.1 0 (· + 64 + ceilDiv (s.saveBytes B x.2) 128) l) sums
    else sums
  (s.beginMethod b p, sums)

/-- Victims in the order of R83: non-replayable first, then by launch-record address and BID. -/
def victimOrder (s : State) (bs : List Nat) : List Nat :=
  let key := fun b =>
    let B := s.block b
    ((if s.canReplay B then 2 ^ 64 else 0) + s.lrOf B) * 2 ^ 64 + B.bid
  sortBy key bs

/-- The pre-emption of several blocks. -/
def preemptAll (s : State) (q : Request) (bs : List Nat) : State :=
  ((victimOrder s bs).foldl (preemptOne q) (s, [])).1

/-! ## Pre-emption by priority (R76) -/

namespace State

/-- The resolved PRIO of a region. -/
def prio (s : State) (rcb : Nat) : Nat := (s.resolved rcb 0).prio

/-- The state without what blocks hold. -/
def without (s : State) (bs : List Nat) : State :=
  { s with blocks := s.blocks.filter fun b => !bs.contains b.1
           groups := s.groups.filter fun g => !bs.contains g.2.blk }

/-- Blocks on a cluster's engines, of a priority below a given one. -/
def lowerOn (s : State) (prio cl : Nat) : List Block :=
  (s.blocks.map Prod.snd).filter fun B => onEngines B && B.kind ≠ .swarm && B.cluster = cl
    && s.prio B.rcb < prio

/-- Victims in the order in which they are taken: lowest priority first, most recently placed first. -/
def takeOrder (s : State) (bs : List Block) : List Nat :=
  (sortBy (fun (B : Block) => s.prio B.rcb * 2 ^ 64 + (2 ^ 64 - 1 - B.placed)) bs).map Block.key

/-- The victims that make room on a cluster: blocks that already leave count as gone. -/
def victimsOn (s : State) (fits : State → Nat → Bool) (prio cl : Nat) : Option (List Nat) :=
  let low := s.lowerOn prio cl
  let going := (low.filter fun B => B.bstate ≠ .resident).map Block.key
  let order := s.takeOrder (low.filter fun B => B.bstate = .resident)
  ((upTo (order.length + 1)).find? fun n => fits (s.without (going ++ order.take n)) cl).map fun n =>
    order.take n

/-- The cluster with the fewest victims, ties to the lowest number. -/
def bestCluster (s : State) (fits : State → Nat → Bool) (prio : Nat) (cls : List Nat) : Option (Nat × List Nat) :=
  let l := cls.filterMap fun cl =>
    (s.victimsOn fits prio cl).map fun v => (cl, v)
  leastBy (fun (x : Nat × List Nat) => x.2.length * 64 + x.1) l

/-- A pre-emption for a launch is under way on the cluster that it claims. -/
def clearing (s : State) (L : Launch) : Bool := match L.claim with
  | none => false
  | some cl => s.blocks.any fun b => onEngines b.2 && b.2.bstate ≠ .resident && b.2.kind ≠ .swarm
      && b.2.cluster = cl

end State

/-- The pre-emption for a launch whose next block cannot be placed: on the cluster, of those given, with the
fewest victims (R76). -/
def preemptFor (s : State) (l : Nat) (fits : State → Nat → Bool) (cls : List Nat) : State :=
  let L := s.launch l
  if s.clearing L then s
  else
    let s := s.modLaunch l fun L => { L with claim := none }
    match s.bestCluster fits (s.prio L.rcb) cls with
    | none => s
    | some (cl, vs) =>
      let q : Request :=
        { die := L.die, bound := 3 * (s.resolved L.rcb 2).pbound / 2, reqlr := L.lr, cmd := none, launch := some l }
      preemptAll (s.modLaunch l fun L => { L with claim := some cl }) q vs

/-! ## Checks of a drain (R365) -/

/-- PREEMPTION_CHECK: at every 64 clocks from the request, a drain under a bound may switch. -/
def execPreemptionCheck (blk : Nat) (s : State) : Host.Outcome State Fault Refusal :=
  let B := s.block blk
  match B.pre with
  | none => .next s
  | some p => match p.bound with
    | none => .next s
    | some b =>
      let t := s.cycle - p.at_
      if B.bstate ≠ .draining || p.checked || t % 64 ≠ 0 || t + 64 + s.tSave B < b then .next s
      else if s.canSave p.die B then
        .next (s.beginMethod blk { p with method := .save, report := 3, checked := true })
      else if s.canReplay B then
        .next (s.beginMethod blk { p with method := .flush, report := 4, checked := true })
      else .next (s.modBlock blk fun B => { B with pre := some { p with checked := true } })

/-! ## The end of a flush (R81, R371) -/

namespace State

/-- The issued instructions and asynchronous items of a block are done. -/
def settledBlock (s : State) (B : Block) : Bool :=
  !blockBusy s B && s.loads.all fun q => (s.group q.g).blk ≠ B.key

/-- Walks of a block's threads, and what they found, are dropped: the accesses are made again. -/
def dropWalks (s : State) (b : Nat) : State :=
  { s with walks := s.walks.filter fun w => (s.group w.g).blk ≠ b
           walkFaults := s.walkFaults.filter fun w => (s.group w.g).blk ≠ b }

/-- AM handles and armed ranges of a block given up. -/
def freeHandles (s : State) (b : Nat) : State :=
  let free := fun (h : Nat × Handle) =>
    let H : Handle := if h.2.blk = some b then { gen := h.2.gen } else h.2
    (h.1, H)
  let clean := fun (e : Nat × Engine) =>
    (e.1, { e.2 with handles := e.2.handles.map free, arms := e.2.arms.filter fun a => a.blk ≠ b })
  { s with engines := s.engines.map clean }

end State

/-- The numbers that a flushed group keeps (R70): its place in the block, LCORE and slot; a retired group has
given up its slot, but for a bin's. -/
def placeholder (bin : Bool) (G : Group) : Group :=
  let g : Group :=
    { key := G.key, kind := G.kind, blk := G.blk, rcb := G.rcb, lr := G.lr, alloc := G.alloc, gid := G.gid
      lcore := G.lcore, lslot := G.lslot }
  { g with gstate := if G.gstate = .retired && !bin then .retired else .saved }

/-- A flushed block becomes Queued. -/
def requeue (s : State) (B : Block) : State :=
  let s := (s.dropWalks B.key).freeHandles B.key
  let mine := s.groups.filter fun g => g.2.blk = B.key && !g.2.kind.isProofer
  let s := (mine.filter fun g => g.2.kind.isSwarm).foldl (fun s g => s.freeContext g.1) s
  let own := mine.filter fun g => !g.2.kind.isSwarm
  let s := own.foldl (fun s g => s.modGroup g.1 (placeholder (B.kind = .bin))) (s.flushMail (own.map Prod.fst))
  let s := s.modBlock B.key fun B => { B with
    bstate := .queued, telapsed := s.telapsed B, spm := [], lineState := [], credits := [], bars := [], records := []
    bin := none, fence := none }
  restate (s.modLaunch B.launch fun L => { L with again := insertBy id B.bid L.again }) B.launch

/-- A block of an aborted domain is discarded (R357), and its launch with the last of them. -/
def discardBlock (s : State) (B : Block) : State :=
  let s := dropBlock (s.dropWalks B.key) B
  let L := s.launch B.launch
  if L.lstate = .refused && !(s.blocks.any fun b => b.2.launch = L.key) then
    { s with launches := ldel L.key s.launches }
  else s

/-- FLUSH_COMPLETE: the asynchronous work of a flushing block has settled. A block of an aborted domain is discarded, and
the abort is reported after the last of them (R357). -/
def execFlushComplete (blk : Nat) (s : State) : Host.Outcome State Fault Refusal :=
  let B := s.block blk
  if B.bstate ≠ .flushing || !s.settledBlock B then .next s
  else if (s.region B.rcb).abort.isSome || (s.launch B.launch).lstate = .refused then
    .next (discardBlock s B).tellAborts
  else .next (s.orFull B.rcb ((endMethod s B).map fun s => requeue s (s.block blk)))

end Sys2Proof.Machine
end

