-- ==== Sys2Proof/Machine/Save.lean ====
section
/-! DEFINITION. Save records (R79, R422), the end of a save (R81, R368 to R370), and the restore of a saved
block (R85, R370, R422). -/

namespace Sys2Proof.Machine

/-! ## The layout of a record (R79) -/

/-- What the layout of a share's record depends on. -/
structure Layout where
  lines : Nat
  banks : Nat
  groups : Nat
  alloc : Nat
deriving DecidableEq, Repr

/-- Offset of the AM handle table. -/
def Layout.table (l : Layout) : Nat := 256 + 128 * ceilDiv l.lines 512
/-- Offset of the x registers. -/
def Layout.x (l : Layout) : Nat := l.table + if l.banks = 0 then 0 else 1024
/-- Offset of the k registers. -/
def Layout.k (l : Layout) : Nat := l.x + l.groups * (128 * l.alloc)
/-- Offset of the rest of the groups' state. -/
def Layout.inner (l : Layout) : Nat := l.k + l.groups * 640
/-- Offset of the SPM share. -/
def Layout.spm (l : Layout) : Nat := l.inner + l.groups * 3072
/-- Offset of the AM banks. -/
def Layout.am (l : Layout) : Nat := l.spm + 128 * l.lines
/-- S_e. -/
def Layout.size (l : Layout) : Nat := l.am + 16384 * l.banks

namespace State

/-- The layout of share i of a block. -/
def layout (s : State) (B : Block) (i : Nat) : Layout :=
  { lines := shareLines B, banks := (B.banks.getD i []).length
    groups := (s.recordGroups B (at0 B.engines i)).length, alloc := s.allocOf B }

end State

/-- n internal bytes of a record from an offset, in the layout that the implementation fixes (log entry 19). -/
def innerBytes (order i off n : Nat) : List Byte :=
  (upTo n).map fun k => Config.savedByte (order * 2 ^ 40 + i * 2 ^ 32 + off + k)

/-- NEXTPRIM and NEXTQUAD of a bin (R422). -/
def Bin.position (b : Bin) : Nat × Nat := match b.quads with
  | q :: _ => (q.prim, q.index)
  | [] => (b.nextPrim, 0)

/-- The header of share i's record (R422). -/
def recordHeader (s : State) (B : Block) (i : Nat) : List Byte :=
  let l := s.layout B i
  let at_ := match B.bin with
    | some b => b.position
    | none => (0, 0)
  let shadow := match B.bin with
    | some b => (upTo 4).map fun k => at0 b.shadow k
    | none => [0, 0, 0, 0]
  let flags := (if B.kind = .bin then 1 else 0) + if l.banks = 0 then 0 else 2
  toBytes 8 (s.lrOf B) ++ toBytes 8 B.bid ++ toBytes 4 (at0 B.lcores i) ++ toBytes 1 i
    ++ toBytes 1 B.engines.length ++ toBytes 1 1 ++ toBytes 1 flags ++ toBytes 8 B.telapsed
    ++ toBytes 8 l.size ++ toBytes 4 l.groups ++ toBytes 4 l.lines ++ toBytes 4 l.banks
    ++ toBytes 4 at_.1 ++ toBytes 4 at_.2 ++ toBytes 4 0 ++ (shadow.map (toBytes 8)).flatten
    ++ innerBytes B.order i 0x60 160

/-- FULL and POISON of the lines of share i. -/
def lineBits (s : State) (B : Block) (i : Nat) : List Byte :=
  let n := State.shareLines B
  let two := fun k =>
    if n ≤ k then 0
    else
      let l := s.line B.key (i * n + k)
      (if l.full then 1 else 0) + if l.poison then 2 else 0
  (upTo (128 * ceilDiv n 512)).map fun j =>
    BitVec.ofNat 8 (two (4 * j) + 4 * two (4 * j + 1) + 16 * two (4 * j + 2) + 64 * two (4 * j + 3))

/-- The AM handle table of share i of a saved block. -/
def handleTable (B : Block) (i : Nat) : List Byte :=
  ((upTo 64).map fun n =>
    let h := lgetD (64 * i + n) B.savedHandles (0, 0, 0)
    toBytes 8 h.2.1 ++ toBytes 4 h.2.2 ++ toBytes 2 h.1 ++ toBytes 2 0).flatten

/-- The x registers of a group's 32 slots. -/
def groupX (alloc : Nat) (G : Group) : List Byte :=
  ((upTo 32).map fun t => bytesOf ((upTo alloc).map fun n => (G.threads.getD t default).x.getD n 0)).flatten

/-- The k registers of a group. -/
def groupK (G : Group) : List Byte := bytesOf ((upTo 160).map fun n => G.k.getD n 0)

/-- The record of share i of a saved block. -/
def recordImage (s : State) (B : Block) (i : Nat) : List Byte :=
  let l := s.layout B i
  let gs := s.recordGroups B (at0 B.engines i)
  let n := 128 * l.lines
  let bank := fun j => bytesOf ((upTo 4096).map fun w => lgetD ((64 * i + j) * 4096 + w) B.savedAm 0)
  recordHeader s B i ++ lineBits s B i ++ (if l.banks = 0 then [] else handleTable B i)
    ++ (gs.map (groupX l.alloc)).flatten ++ (gs.map groupK).flatten
    ++ innerBytes B.order i l.inner (3072 * l.groups)
    ++ s.spmRead B.key (n * i) n ++ ((upTo l.banks).map bank).flatten

/-- Offsets of the words of the record that are written with a poison mark (R370). -/
def recordMarks (s : State) (B : Block) (i : Nat) : List Nat :=
  let l := s.layout B i
  let gs := s.recordGroups B (at0 B.engines i)
  let ofX := fun (g : Group × Nat) => (g.1.threads.zipIdx.map fun h =>
    h.1.badX.map fun n => l.x + 128 * l.alloc * g.2 + 4 * (l.alloc * h.2 + n)).flatten
  let ofK := fun (g : Group × Nat) => g.1.badK.map fun n => l.k + 640 * g.2 + 4 * n
  let mine := B.savedBad.filter fun w => w / 262144 = i
  (gs.zipIdx.map ofX).flatten ++ (gs.zipIdx.map ofK).flatten
    ++ mine.map fun w => l.am + 4 * (w % 262144)

/-! ## The end of a save (R81, R368, R369) -/

/-- A thread whose failed instructions execute again, in the order of their failures, before it goes on where it stands
(R368; log entry 120); a pointer load finds its pointer as it was, and leaves it as it is now. -/
def executeAgain (h : Thread) : Thread := match h.failed with
  | [] => h
  | f :: _ =>
    let one := fun (f : ReplyFail) =>
      let r : Redo := { pc := f.pc, ptr := f.ptr.map fun x => (x.1, x.2, h.p.getD x.1 0) }
      r
    { h with
      failed := [], pc := BitVec.ofNat 64 f.pc
      redo := (h.failed.filter fun f => f.pc ≠ h.pc.toNat).map one ++ h.redo
      resume := if h.redo = [] then h.pc else h.resume
      p := match f.ptr with
        | some (n, v) => h.p.set n v
        | none => h.p }

/-- A thread as it is saved: before an instruction that waits or whose completion raised a cause (R368). -/
def rewind (h : Thread) : Thread :=
  let h := match h.undo with
    | some (n, v) => { h with p := h.p.set n v, undo := none }
    | none => h
  let h := match h.wait with
    | some (.mask _) | some (.trapArea _) => h
    | _ => { h with wait := none }
  executeAgain h

/-- The AM words, uncorrectable words and handles of a block taken from its engines. -/
def takeAm (s : State) (B : Block) : State :=
  let share := fun (s : State) (x : Nat × Nat) =>
    let (e, i) := x
    let E := s.engine e
    let banks := B.banks.getD i []
    let place := fun (w : Nat) => (banks.findIdx? (· = w / 4096)).map fun j => (64 * i + j) * 4096 + w % 4096
    let words := E.am.filterMap fun c => (place c.1).map fun k => (k, c.2)
    let bad := E.amBad.filterMap place
    let mine := E.handles.filter fun h => h.2.blk = some B.key
    let maskOf := fun (H : Handle) => (H.banks.filterMap fun b => banks.findIdx? (· = b)).foldl withBit 0
    let rows := mine.map fun h => (64 * i + h.1, (h.2.gen, maskOf h.2, h.2.shape.toNat))
    let s := s.modBlock B.key fun B => { B with
      savedAm := words.foldl (fun l c => lput c.1 c.2 l) B.savedAm
      savedBad := B.savedBad ++ bad
      savedHandles := rows.foldl (fun l r => lput r.1 r.2 l) B.savedHandles }
    let free := fun (h : Nat × Handle) =>
      let H : Handle := if h.2.blk = some B.key then { gen := h.2.gen } else h.2
      (h.1, H)
    s.modEngine e fun E => { E with
      am := E.am.filter fun c => (place c.1).isNone
      amBad := E.amBad.filter fun w => (place w).isNone
      handles := E.handles.map free }
  B.engines.zipIdx.foldl share s

/-- Bytes written by a scheduler at a virtual address at supervisor level, page by page (log entry 9); the
fuel counts pages. -/
def writeSpan (d table : Nat) : Nat → State → Nat → List Byte → Except TrapInfo State
  | 0, s, _, _ => .ok s
  | k + 1, s, va, bs =>
    if bs = [] then .ok s
    else
      let m := Nat.min bs.length (4096 - va % 4096)
      match s.writeVirt d table va (bs.take m) false with
      | .error ti => .error ti
      | .ok s => writeSpan d table k s (va + m) (bs.drop m)

/-- Poison marks set at virtual addresses of a record that has been written. -/
def markRecord (d table va : Nat) (s : State) (off : Nat) : State :=
  match s.walkNow d table (va + off) 1 false with
  | .ok (s, pa, _) => s.poisonHome (pa / 4 * 4)
  | .error _ => s

/-- The records of the shares from i on, written one after another from offset next of the area: their
addresses and the offset after them. -/
def writeShares (d table area : Nat) (B : Block) : List Nat → State → Nat →
    Except TrapInfo (State × List Nat × Nat)
  | [], s, next => .ok (s, [], next)
  | i :: rest, s, next =>
    let off := State.roundRecord next
    let bytes := recordImage s B i
    match writeSpan d table (bytes.length / 4096 + 2) s (area + off) bytes with
    | .error ti => .error ti
    | .ok s =>
      let s := (recordMarks s B i).foldl (markRecord d table (area + off)) s
      match writeShares d table area B rest s (off + bytes.length) with
      | .error ti => .error ti
      | .ok (s, l, n) => .ok (s, (area + off) :: l, n)

/-- The whole save of a block whose state has been taken: its records, and NEXT (R79). -/
def writeSave (s : State) (d : Nat) (B : Block) : Except TrapInfo (State × List Nat) :=
  let area := (s.resolved B.rcb 9).savearea
  let table := s.tableOf B.rcb
  match s.readVirt d table area 16 false with
  | .error ti => .error ti
  | .ok (s, bs) => match writeShares d table area B (upTo B.engines.length) s (numAt bs 8 8) with
    | .error ti => .error ti
    | .ok (s, l, next) => match s.writeVirt d table (area + 8) (toBytes 8 next) false with
      | .error ti => .error ti
      | .ok s => .ok (s, l)

/-- A block's groups and AM as a save holds them. -/
def captureBlock (s : State) (B : Block) : State :=
  let s := takeAm (s.dropWalks B.key) B
  let put := fun (g : Nat × Group) =>
    if g.2.blk = B.key && !g.2.kind.isProofer && g.2.gstate ≠ .retired then
      (g.1, { g.2 with gstate := .saved, threads := g.2.threads.map rewind })
    else g
  let (key, s) := s.fresh
  { s with groups := s.groups.map put }.modBlock B.key fun b =>
    { b with bstate := .saved, telapsed := s.telapsed B, order := key }

/-- A save whose write faulted (R369): the record of EVENT 5, and then the flush or the abort. -/
def saveFailed (s : State) (B : Block) (p : Preemption) (ti : TrapInfo) : State.Told :=
  let actual := s.cycle - p.at_
  let tail := schedTail 5 p.report (p.bound.getD 0) (p.est.getD 0xFFFFFFFF) actual p.reqlr 0 B.rcb
  let h := { blockHead s B p.die ti.cause with addr := ti.addr, aux := ti.aux }
  (s.report p.die B.rcb h tail).map fun s =>
    if s.canReplay B then s.modBlock B.key fun B => { B with bstate := .flushing }
    else s.abort p.die B.rcb ti.cause (State.schedHead p.die 5 ti.cause) 6

/-- SAVE_COMPLETE: the issued instructions and asynchronous items of a saving block are done, and the saves
planned before it on its engines are written; its records are written (R81, R83). -/
def execSaveComplete (blk : Nat) (s : State) : Host.Outcome State Fault Refusal :=
  let B := s.block blk
  let before := fun (p : Preemption) (C : Block) => C.bstate = .saving && (match C.pre with
    | some q => q.turn < p.turn && C.engines.any fun e => B.engines.contains e
    | none => false)
  match B.pre with
  | none => .next s
  | some p =>
    if B.bstate ≠ .saving || !s.settledBlock B || s.blocks.any fun c => before p c.2 then .next s
    else
      let s1 := captureBlock s B
      match writeSave s1 p.die (s1.block blk) with
      | .error ti => .next (s.orFull B.rcb (saveFailed s B p ti))
      | .ok (s2, l) =>
        let s2 := s2.modBlock blk fun B => { B with records := l }
        .next (s.orFull B.rcb ((endMethod s2 (s2.block blk)).map fun s => restate s B.launch))

/-! ## The restore of a saved block (R85, R370, R422) -/

/-- Bytes of a virtual span at supervisor level, and the offsets of its words that carry a poison mark, with their
slices; the fuel counts pages. -/
def rawSpan (d table : Nat) :
    Nat → State → Nat → Nat → Nat → Except TrapInfo (State × List Byte × List (Nat × Nat))
  | 0, s, _, _, _ => .ok (s, [], [])
  | k + 1, s, va, off, n =>
    if n = 0 then .ok (s, [], [])
    else
      let m := Nat.min n (4096 - va % 4096)
      match s.walkNow d table va 0 false with
      | .error ti => .error ti
      | .ok (s, pa, _) => match s.accessFail d pa with
        | some u => .error { cause := cLINK, addr := va, aux := u }
        | none =>
          let slice := unitDie (s.homeDie d pa) (sliceOf pa)
          let bad := ((wordsIn pa m).filter fun wa => (s.homeWord wa).poison).map fun wa => (off + (wa - pa), slice)
          match rawSpan d table k s (va + m) (off + m) (n - m) with
          | .error ti => .error ti
          | .ok (s', bs, l) => .ok (s', s.homeBytes pa m ++ bs, bad ++ l)

/-- What the records of the shares hold in memory: bytes and marks. -/
def readShares (d table : Nat) (B : Block) : List Nat → State →
    Except TrapInfo (State × List (List Byte × List (Nat × Nat)))
  | [], s => .ok (s, [])
  | i :: rest, s =>
    let n := (s.layout B i).size
    match rawSpan d table (n / 4096 + 2) s (at0 B.records i) 0 n with
    | .error ti => .error ti
    | .ok (s, bs, l) => match readShares d table B rest s with
      | .error ti => .error ti
      | .ok (s, r) => .ok (s, (bs, l) :: r)

/-- A block whose record lost state: EVENT 6, and the abort (R370, R422). -/
def restoreLost (s : State) (d : Nat) (B : Block) (ti : TrapInfo) : State.Told :=
  let h := { blockHead s B d ti.cause with addr := ti.addr, aux := ti.aux }
  let tail := schedTail 6 5 0 0xFFFFFFFF 0 0 (at0 B.records 0) B.rcb
  (s.report d B.rcb h tail).map fun s =>
    s.abort d B.rcb ti.cause (State.schedHead d 5 ti.cause) 6

/-- A bin at the raster-order position, and with the shadow counts, that a changed header describes (R422), where the bin
still has what it needs to go on there. -/
def moveBin (b : Bin) (hdr : List Byte) : Option Bin :=
  let at_ := (numAt hdr 0x34 4, numAt hdr 0x38 4)
  let rest := b.quads.filter fun q => at_.1 < q.prim || (q.prim = at_.1 && at_.2 ≤ q.index)
  let b' : Bin := { b with
    quads := rest, nextPrim := if rest = [] then at_.1 else b.nextPrim
    shadow := (upTo 4).map fun k => numAt hdr (0x40 + 8 * k) 8 }
  if b'.position = at_ && b.nextPrim ≤ b'.nextPrim then some b' else none

/-- What a changed record of share i leaves as the save wrote it: the fields that name the block and its layout, and the
internal parts. One that changes them describes no state that the model can give (R422). -/
def recordKept (l : Layout) (bs : List Byte) : List Byte :=
  bs.take 0x18 ++ (bs.drop 0x20).take 20 ++ (bs.drop 0x3C).take 4 ++ (bs.drop 0x60).take 160
    ++ (bs.drop l.inner).take (3072 * l.groups)

/-- The Telapsed that changed records of a block's shares give: one value in all of them (R422). -/
def oneTelapsed (l : List (Nat × List Byte)) : Bool := match l with
  | [] => true
  | x :: rest => rest.all fun y => numAt y.2 0x18 8 = numAt x.2 0x18 8

/-- A changed record describes a state that the block can have. -/
def describes (s : State) (B : Block) (x : Nat × List Byte) : Bool :=
  let old := recordImage s B x.1
  recordKept (s.layout B x.1) x.2 = recordKept (s.layout B x.1) old
    && ((x.2.drop 0x34).take 44 = (old.drop 0x34).take 44
      || (B.engines.length = 1 && (B.bin.bind fun b => moveBin b x.2).isSome))

/-- The state that a changed record of share i describes: registers, SPM with its line bits, AM and handles, Telapsed,
and a bin's position and counts (R422). -/
def applyRecord (B : Block) (s : State) (x : Nat × List Byte) : State :=
  let (i, bs) := x
  let l := s.layout B i
  let gs := s.recordGroups B (at0 B.engines i)
  let regs := fun (G : Group) (j : Nat) =>
    let ws := wordsOf (32 * l.alloc) (bs.drop (l.x + 128 * l.alloc * j))
    let one := fun (h : Thread × Nat) => { h.1 with x := (ws.drop (l.alloc * h.2)).take l.alloc }
    { G with threads := G.threads.zipIdx.map one, k := wordsOf 160 (bs.drop (l.k + 640 * j)) }
  let s := gs.zipIdx.foldl (fun (s : State) g => s.modGroup g.1.key fun G => regs G g.2) s
  let put := fun (st : List (Nat × Line)) k =>
    let b := (bs.getD (256 + k / 4) 0).toNat / 4 ^ (k % 4)
    sput {} (l.lines * i + k) { full := bit b 0, poison := bit b 1, count := 0 } st
  let row := fun (hs : List (Nat × (Nat × Nat × Nat))) n =>
    let r := (bs.drop (l.table + 16 * n)).take 16
    let gen := numAt r 12 2
    if gen = 0 then ldel (64 * i + n) hs else lput (64 * i + n) (gen, numAt r 0 8, numAt r 8 4) hs
  let word := fun (am : List (Nat × Word)) (w : Word × Nat) => sput 0 (262144 * i + w.2) w.1 am
  s.modBlock B.key fun B => { B with
    telapsed := numAt bs 0x18 8
    bin := if (bs.drop 0x34).take 44 = ((recordHeader s B i).drop 0x34).take 44 then B.bin
      else (B.bin.bind fun b => moveBin b bs) <|> B.bin
    spm := writeBytes B.spm (128 * l.lines * i) ((bs.drop l.spm).take (128 * l.lines))
    lineState := (upTo l.lines).foldl put B.lineState
    savedHandles := if l.banks = 0 then B.savedHandles else (upTo 64).foldl row B.savedHandles
    savedAm := (wordsOf (4096 * l.banks) (bs.drop l.am)).zipIdx.foldl word B.savedAm }

/-- A mark that aborts: in the header, in k registers, or in the group part of slot state (R370). -/
def markFatal (l : Layout) (off : Nat) : Bool := off < l.x || (l.k ≤ off && off < l.spm)

/-- The marks of share i carried into the block: uncorrectable registers and AM words, and the POISON bit of
the line of an SPM word. -/
def applyMarks (B : Block) (s : State) (x : Nat × List Nat) : State :=
  let (i, marks) := x
  let l := s.layout B i
  let gs := s.recordGroups B (at0 B.engines i)
  let regsOf := fun (j t : Nat) => marks.filterMap fun off =>
    let w := (off - l.x) / 4
    if l.x ≤ off && off < l.k && w / (32 * l.alloc) = j && w / l.alloc % 32 = t then some (w % l.alloc) else none
  let s := gs.zipIdx.foldl (fun (s : State) g => s.modGroup g.1.key fun G =>
    { G with threads := G.threads.zipIdx.map fun h => { h.1 with badX := regsOf g.2 h.2 } }) s
  let am := (marks.filter (l.am ≤ ·)).map fun off => 262144 * i + (off - l.am) / 4
  let lines := (marks.filter fun off => l.spm ≤ off && off < l.am).map fun off => l.lines * i + (off - l.spm) / 128
  let s := lines.foldl (fun s k => s.modLine B.key k fun q => { q with poison := true }) s
  s.modBlock B.key fun B => { B with savedBad := (B.savedBad.filter fun w => w / 262144 ≠ i) ++ am }

/-- The saved state of a block as its records give it: the loss that aborts it, or the state. -/
def readBack (s : State) (d : Nat) (B : Block) : Except TrapInfo State :=
  let shares := upTo B.engines.length
  match readShares d (s.tableOf B.rcb) B shares s with
  | .error ti => .error ti
  | .ok (s, got) =>
    let fatal := got.zipIdx.findSome? fun r =>
      (r.1.2.find? fun x => markFatal (s.layout B r.2) x.1).map fun x => (at0 B.records r.2 + x.1, x.2)
    match fatal with
    | some x => .error { cause := cECC, addr := x.1, aux := x.2 }
    | none =>
      let same := got.zipIdx.all fun r => r.1.1 = recordImage s B r.2
      let marks := got.zipIdx.map fun r => (r.2, r.1.2.map Prod.fst)
      let bytes := got.zipIdx.map fun r => (r.2, r.1.1)
      if same then .ok (marks.foldl (applyMarks B) s)
      else
        let (drop, s) := s.freeBit
        if drop || !oneTelapsed bytes || !bytes.all (describes s B) then .error { cause := cRESERVED, addr := at0 B.records 0 }
        else
          let s := bytes.foldl (applyRecord B) s
          .ok (marks.foldl (applyMarks B) s)

namespace State

/-- An engine has the handle entries of share i of a block free, and room for the share's armed ranges. -/
def takesHandles (s : State) (B : Block) (i e : Nat) : Bool :=
  let arms := ((s.engine (at0 B.engines i)).arms.filter fun a => a.blk = B.key).length
  ((B.savedHandles.filter fun h => h.1 / 64 = i).all fun h => (s.handle e (h.1 % 64)).blk.isNone)
    && s.armCount e + arms ≤ 8

/-- The engines of a cluster for a saved block, share i on the i-th in LCORE order (R85). -/
def restoreFit (s : State) (B : Block) (cl : Nat) : Option (List Nat) :=
  s.enginesFor B.launch B.rcb (s.canReplay B) (blockShares s B) cl (s.takesHandles B)

end State

/-- AM words and handles of share i given back on an engine. -/
def giveAm (B : Block) (s : State) (x : Nat × Nat) : State :=
  let (e, i) := x
  let n := (B.banks.getD i []).length
  let banks := (s.banksFor B.launch e).take n
  let back := fun (k : Nat) => 4096 * at0 banks (k / 4096 % 64) + k % 4096
  let mine := fun (k : Nat) => k / 262144 = i
  let words := (B.savedAm.filter fun c => mine c.1).map fun c => (back c.1, c.2)
  let rows := B.savedHandles.filter fun h => h.1 / 64 = i
  let put := fun (hs : List (Nat × Handle)) (h : Nat × (Nat × Nat × Nat)) =>
    let ids := ((upTo n).filter fun j => bit h.2.2.1 j).map (at0 banks)
    let H : Handle := { gen := h.2.1, banks := ids, shape := BitVec.ofNat 32 h.2.2.2, blk := some B.key }
    lput (h.1 % 64) H hs
  let own := fun (w : Nat) => banks.contains (w / 4096)
  let s := s.modEngine e fun E => { E with
    am := words.foldl (fun am c => lput c.1 c.2 am) (E.am.filter fun c => !own c.1)
    amBad := (E.amBad.filter fun w => !own w) ++ (B.savedBad.filter mine).map back
    handles := rows.foldl put E.handles }
  s.modBlock B.key fun C => { C with banks := C.banks.set i banks }

/-- The armed ranges of a block moved from its former engines to its new ones, each to its own proofer where that has
room (R242). -/
def moveArms (s : State) (b : Nat) (moves : List (Nat × Nat)) : State :=
  let mine := fun (a : Arming) => a.blk = b
  let go := moves.map fun x =>
    (x.2, ((s.engine x.1).arms.filter mine).foldl (fun l a =>
      l ++ [{ a with unit := prooferFor (s.armsHeld x.2 ++ l) x.2 (a.unit % 2) }]) [])
  let s := moves.foldl (fun (s : State) x => s.modEngine x.1 fun E =>
    { E with arms := E.arms.filter fun a => !mine a }) s
  go.foldl (fun (s : State) x => s.modEngine x.1 fun E => { E with arms := E.arms ++ x.2 }) s

/-- A thread that restarts with a register that reads as uncorrectable traps at its first instruction (R370). -/
def alarmThread (g : Nat) (s : State) (t : Nat) : State :=
  let h := s.thread g t
  match h.badX with
  | [] => s
  | n :: _ =>
    let ws := match s.fetch g t with
      | .words _ ws _ => ws
      | _ => []
    let f : ReplyFail :=
      { info := { cause := cECC, addr := n, aux := (s.group g).kind.unit }, pc := h.pc.toNat, words := ws }
    if h.slot = .live || h.slot = .trapped then s.modThread g t fun h => { h with failed := f :: h.failed } else s

/-- A saved block on the engines of its restore: share i goes to the i-th in LCORE order (R85). -/
def placeSaved (s : State) (B : Block) (es : List Nat) : State :=
  let (s, order) := s.numbered B.rcb es
  let (key, s) := s.fresh
  let engines := order.map Prod.fst
  let s := startGridOn B.launch engines s
  let s := moveArms s B.key (B.engines.zip engines)
  let s := engines.zipIdx.foldl (giveAm B) s
  let mine := (s.groups.filter fun g => g.2.blk = B.key && !g.2.kind.isProofer).map Prod.fst
  let move := fun (G : Group) => match G.kind with
    | .simt o p =>
      let e := at0 engines ((B.engines.findIdx? (· = o)).getD 0)
      { G with kind := .simt e p, gstate := if G.gstate = .saved then .waiting else G.gstate, stopped := false }
    | _ => G
  let s := mine.foldl (fun s g => s.modGroup g move) s
  let s := s.modBlock B.key fun C => { C with
    bstate := .resident, engines := engines, records := [], savedAm := [], savedBad := [], savedHandles := []
    since := s.cycle, placed := key }
  mine.foldl (fun s g => (upTo (s.group g).threads.length).foldl (alarmThread g) s) s

/-- The restore of a block on engines: its state as the record gives it, and the record freed. -/
def restoreBlock (s : State) (d : Nat) (B : Block) (es : List Nat) : State.Told :=
  match readBack s d B with
  | .error ti => restoreLost s d B ti
  | .ok s =>
    let s := placeSaved s (s.block B.key) es
    .ok (restate (s.freeArea d (s.supplier B.rcb 9)) B.launch)

end Sys2Proof.Machine
end

