-- ==== Sys2Proof/Machine/Schedule.lean ====
section
/-! DEFINITION. The region scheduler's choice and placement of blocks (R62, R63, R66 to R71, R76, R85, R287),
budget holds (R361), the retire sweep (R386), stitched groups (R53), and the active sets of partitions and
swarm cores (R32, R72). -/

namespace Sys2Proof.Machine

/-! ## What is dispatched next (R66) -/

/-- The next block of a launch: a saved one, one that a flush returned, or a BID placed for the first time. -/
inductive NextBlock
  | saved (b : Nat)
  | again (b : Nat)
  | fresh (bid : Nat)
deriving DecidableEq, Repr

namespace State

/-- The next block of a launch: Saved blocks in order of saving, then Queued ones in ascending BID. -/
def nextBlock (s : State) (L : Launch) : Option NextBlock :=
  let mine := (s.blocks.map Prod.snd).filter fun B => B.launch = L.key
  match leastBy Block.order (mine.filter fun B => B.bstate = .saved) with
  | some B => some (.saved B.key)
  | none => match leastBy Block.bid (mine.filter fun B => B.bstate = .queued) with
    | some B => some (.again B.key)
    | none => if L.next < L.total then some (.fresh L.next) else none

/-- W of R66: the resolved CYCLES budget, or 2^64 − 1 where no RCB of the chain sets one. DESIGN CHOICE (log entry 128):
a root whose OVR bit 3 is clear sets none here, though its CYCLES limits it (R44). -/
def weight (s : State) (rcb : Nat) : Nat :=
  if (s.path rcb).any fun q => bit (s.region q).ovr 3 then Nat.max 1 (s.resolved rcb 3).cycles else 2 ^ 64 - 1

/-- The order within the queues: priority, then CYCUSED ÷ W, then the time at which the launch became Ready. -/
def rank (s : State) (L : Launch) : Nat :=
  let w := s.weight L.rcb
  ((23 - s.prio L.rcb) * 2 ^ 200 + (s.region L.rcb).cycused * 2 ^ 129 / w) * 2 ^ 64 + L.order

/-- No cycle limit of the chain holds the region (R361). -/
def unheld (s : State) (rcb : Nat) : Bool := (s.path rcb).all fun r => !(s.region r).hold

/-- Launches of dies that have a block to place, in the order of R66. -/
def dispatchable (s : State) (ds : List Nat) : List Launch :=
  sortBy s.rank ((s.launches.map Prod.snd).filter fun L =>
    ds.contains L.die && L.lstate = .ready && (s.region L.rcb).abort.isNone && (s.nextBlock L).isSome)

/-! ## Where it fits (R67 to R71, R84, R85, R287) -/

/-- The cluster that owns a bin's screen tile (R287); the first of the partition where its record cannot be
read. -/
def ownerCluster (s : State) (L : Launch) (bid : Nat) : Nat :=
  let cls := (s.partitionDies L.die).flatMap fun d => (upTo 16).map (16 * d + ·)
  let va := (L.args.toNat + 64 + 64 * bid) % 2 ^ 64
  match s.readFar L.die (s.tableOf L.rcb) va 64 with
  | .ok (_, bs) => at0 cls ((numAt bs 0x0C 2 % 8 + 8 * (numAt bs 0x0E 2 % 8)) % cls.length)
  | .error _ => at0 cls 0

/-- The clusters for a launch's block, in the order in which they are tried. -/
def clustersFor (s : State) (L : Launch) (nx : NextBlock) : List Nat :=
  if L.raster then match nx with
    | .saved b | .again b => [s.ownerCluster L (s.block b).bid]
    | .fresh bid => [s.ownerCluster L bid]
  else (s.dieOrder L).flatMap s.clusterOrder

/-- The engines of a cluster for a launch's next block. -/
def fitOn (s : State) (L : Launch) (nx : NextBlock) (cl : Nat) : Option (List Nat) :=
  if !s.contextFits (cl / 16) L.rcb || (s.pairFail L.die (cl / 16)).isSome then none
  else match nx with
    | .saved b => s.restoreFit (s.block b) cl
    | .again b => s.enginesFor L.key L.rcb L.replayable (L.shares (s.block b).engines.length) cl
    | .fresh _ => s.clusterFit L cl

/-- The block would pass a residency quota on n engines (R67). -/
def quotaHolds (s : State) (L : Launch) (nx : NextBlock) (n : Nat) : Bool := match nx with
  | .saved b =>
    let B := s.block b
    let k := (s.groups.filter fun g => g.2.blk = b && g.2.gstate = .saved).length
    (s.overQuota B.rcb (32 * s.allocOf B * k) (B.engines.length * shareLines B) B.banks.flatten.length false).isSome
  | _ => (s.quotaStops L n false).isSome

/-- The first idle context of a swarm block: the die of R68, then the cluster with the most idle contexts. -/
def contextFor (s : State) (L : Launch) : Option Nat :=
  (s.dieOrder L).findSome? fun d =>
    let cls := sortBy (fun cl => 1024 - s.idleCount cl) ((upTo 16).map (16 * d + ·))
    cls.findSome? fun cl => (s.idleContexts cl).head?

end State

/-- What the scheduler can do for a launch's next block. -/
inductive Dispatch
  | place (L : Launch) (nx : NextBlock) (es : List Nat)
  | context (L : Launch) (nx : NextBlock) (ctx : Nat)
  /-- The block fits nowhere. -/
  | stuck (L : Launch) (nx : NextBlock)
  /-- A residency quota, or a cycle limit that its subtree has reached, keeps the block Queued (R67, R361). -/
  | held (L : Launch)

/-- The launch that a dispatch is for. -/
def Dispatch.launch : Dispatch → Launch
  | .place L .. | .context L .. | .stuck L _ | .held L => L

/-- The block can be placed. -/
def Dispatch.goes : Dispatch → Bool
  | .stuck .. | .held _ => false
  | _ => true

namespace State

/-- The fewest engines that a launch's next block can take. -/
def leastEngines (s : State) (L : Launch) : NextBlock → Nat
  | .saved b | .again b => (s.block b).engines.length
  | .fresh _ => (emptyFit L).getD 1

/-- What can be done for a launch. -/
def tryLaunch (s : State) (L : Launch) : Option Dispatch := match s.nextBlock L with
  | none => none
  | some nx =>
    if !s.unheld L.rcb || s.quotaHolds L nx (if L.isSwarm then 1 else s.leastEngines L nx) then some (.held L)
    else if L.isSwarm then match s.contextFor L with
      | some c => some (.context L nx c)
      | none => some (.stuck L nx)
    else match (s.clustersFor L nx).findSome? fun cl => s.fitOn L nx cl with
    | some es => if s.quotaHolds L nx es.length then some (.held L) else some (.place L nx es)
    | none => some (.stuck L nx)

/-- What the launches of a partition come to, in the order of R66. -/
def tried (s : State) (d : Nat) : List Dispatch := (s.dispatchable (s.partitionDies d)).filterMap s.tryLaunch

/-- What the scheduler of a die places next: the first launch whose block can be placed and that no block of a higher
priority in the partition, which cannot, holds back (R66). -/
def dispatch (s : State) (d : Nat) : Option Dispatch :=
  let all := s.tried d
  let open_ := fun (x : Dispatch) => match all.find? fun x => !x.goes with
    | some y => s.prio y.launch.rcb ≤ s.prio x.launch.rcb
    | none => true
  all.find? fun x => x.launch.die = d && x.goes && open_ x

end State

/-! ## Placement -/

/-- The numbers of a group of a flushed block (R70, R371): LCORE and slot as it kept them; a group that had retired had
given up its slot, and takes the lowest one under its LCORE that no other group holds or has kept, or a further number
where there is none. -/
def keptNumber (s : State) (rcb : Nat) (olds : List Group) (e gid : Nat) : Nat × Nat × State :=
  match olds.find? fun G => G.gid = gid with
  | none => s.groupNumber rcb e
  | some G =>
    if G.gstate = .saved then (G.lcore, G.lslot, s)
    else
      let kept := (olds.filter fun H => H.gstate = .saved && H.lcore = G.lcore).map Group.lslot
      let held := s.slotsHeld rcb G.lcore ++ kept
      match (upTo 256).find? fun n => !held.contains n with
      | some n => (G.lcore, n, s)
      | none => s.groupNumber rcb e

/-- One group of a flushed block started again with the numbers that it kept (R70, R371). -/
def restartGroup (L : Launch) (B : Block) (olds : List Group) (e i : Nat) (s : State) (j : Nat) : State :=
  let gid := i * ceilDiv L.groups B.engines.length + j
  let (lcore, lslot, s) := keptNumber s L.rcb olds e gid
  let G := gridGroup s L B.key B.bid e lcore lslot gid
  let key := s.nextKey
  let s := s.addGroup { G with kind := .simt e (j % 4) }
  if L.raster then s else s.joinReady key

/-- A flushed block placed again (R371): it replays from its start. -/
def replaceOn (s : State) (L : Launch) (b : Nat) (es : List Nat) : State :=
  let B := s.block b
  let olds := (s.groups.map Prod.snd).filter fun G => G.blk = b
  let s := { s with groups := s.groups.filter fun g => g.2.blk ≠ b }
  let (s, order) := s.numbered L.rcb es
  let engines := order.map Prod.fst
  let n := engines.length
  let per := ceilDiv L.groups n
  let (key, s) := (startGridOn L.key engines s).fresh
  let s := s.modBlock b fun C => { C with
    bstate := .resident, engines := engines
    banks := engines.map fun e => (s.banksFor L.key e).take (ceilDiv L.ambanks n)
    bin := if L.raster then some { binds := L.binds } else none, since := s.cycle, placed := key }
  engines.zipIdx.foldl (fun s x =>
    (upTo (Nat.min per (L.groups - x.2 * per))).foldl (restartGroup L B olds x.1 x.2) s) s

/-- What follows a placement: the launch's queue and state, and nothing is kept for it any more (R62, R63, R81). -/
def afterPlacing (s : State) (L : Launch) (nx : NextBlock) : State :=
  let s := s.modLaunch L.key fun M => match nx with
    | .fresh bid => { M with next := bid + 1, claim := none, freed := [] }
    | .again b => { M with again := M.again.erase (s.block b).bid, claim := none, freed := [] }
    | .saved _ => { M with claim := none, freed := [] }
  restate s L.key

/-- A stuck block may cause a pre-emption by priority on the chosen die, or on its owner (R76, R287); no block is
pre-empted for one of a swarm launch, which needs a context (R71). -/
def preemptStuck (s : State) (L : Launch) (nx : NextBlock) : State :=
  if L.isSwarm then s
  else
    let cls := if L.raster then s.clustersFor L nx else match s.dieOrder L with
      | d :: _ => (upTo 16).map (16 * d + ·)
      | [] => []
    preemptFor s L.key (fun s cl => (s.fitOn L nx cl).isSome) cls

/-- The pre-emption for the first stuck block of a die's launches, in the order of R66, for which one can begin. -/
def preemptNext (s : State) (d : Nat) : State :=
  ((s.tried d).findSome? fun x => match x with
    | .stuck L nx =>
      let s' := preemptStuck s L nx
      if L.die = d && s' ≠ s then some s' else none
    | _ => none).getD s

/-- The scheduler of die d uses the RCB of a region for a placement; a read that fails aborts the region's domain with
its cause (R64; DESIGN CHOICE, log entry 118). -/
def withRcb (s : State) (d rcb : Nat) (k : State → State) : State := match s.touchRcb d rcb with
  | .ok s => k s
  | .error f => s.abort d rcb f.1 (State.schedHead d 5 f.1) 7

/-- A Ready launch of a die that a quota, lowered since it arrived, lets no single block of it run (R67). -/
def neverRuns (s : State) (d : Nat) : Option Launch := (s.launches.map Prod.snd).find? fun L =>
  L.die = d && L.lstate = .ready && (s.quotaStops L ((State.emptyFit L).getD 1) true).isSome
    && !s.blocks.any fun b => b.2.launch = L.key && State.onEngines b.2

/-- The refusal of such a launch with BUDGET: what waits of it goes (R67; DESIGN CHOICE, log entry 129). -/
def refuseLate (s : State) (L : Launch) : State.Told :=
  (refuseLaunch s L.die L.lr (some L.rcb) cBUDGET 0).map fun s =>
    let mine := (s.blocks.map Prod.snd).filter fun B => B.launch = L.key
    let s := mine.foldl dropBlock { s with launches := ldel L.key s.launches }
    if mine.any fun B => B.bstate = .saved then s.freeArea L.die (s.supplier L.rcb 9) else s

/-- BLOCK_PLACEMENT: the scheduler of a die refuses a launch that can never run, places a Queued block, or, where it can
place none, starts a pre-emption for one that fits nowhere. -/
def execBlockPlacement (d : Nat) (s : State) : Host.Outcome State Fault Refusal := match neverRuns s d with
  | some L => .next (s.orFull L.rcb (refuseLate s L))
  | none => match s.dispatch d with
    | some (.place L nx es) => match nx with
      | .fresh bid => .next (withRcb s d L.rcb fun s => afterPlacing (placeOn s L bid es) L nx)
      | .again b => .next (withRcb s d L.rcb fun s => afterPlacing (replaceOn s L b es) L nx)
      | .saved _ => .next s
    | none => .next (preemptNext s d)
    | _ => .next s

/-- SWARM_BLOCK_PLACEMENT: a swarm launch's block starts on an idle context. -/
def execSwarmBlockPlacement (d : Nat) (s : State) : Host.Outcome State Fault Refusal := match s.dispatch d with
  | some (.context L nx ctx) => match nx with
    | .fresh bid => .next (withRcb s d L.rcb fun s => afterPlacing (placeContext s L bid ctx) L nx)
    | _ => .next s
  | _ => .next s

/-- RESTORE: a saved block comes back from its record. -/
def execRestore (d : Nat) (s : State) : Host.Outcome State Fault Refusal := match s.dispatch d with
  | some (.place L nx es) => match nx with
    | .saved b => .next (withRcb s d L.rcb fun s =>
        s.orFull (s.block b).rcb ((restoreBlock s d (s.block b) es).map fun s =>
          if (lget b s.blocks).isSome then afterPlacing s L nx else s))
    | _ => .next s
  | _ => .next s

/-! ## Budget holds (R361) -/

/-- The hold of a subtree: its groups are neither active nor ready. -/
def holdSubtree (s : State) (rcb : Nat) : State :=
  let mine := (s.groups.filter fun g => s.under rcb g.2.rcb && !g.2.kind.isProofer && g.2.gstate ≠ .saved
    && g.2.gstate ≠ .retired).map Prod.fst
  let wait := fun (G : Group) => { G with gstate := if G.kind.isSwarm then G.gstate else .waiting }
  mine.foldl (fun s g => (s.leavePart g).modGroup g wait)
    (s.modRegion rcb fun r => { r with hold := true })

/-- BUDGET_HOLD: a limit reached holds the subtree, and the die whose count first reached it writes the record of
EVENT 1; a limit that a registration set below the use so far, the die that registered it. -/
def execBudgetHold (rcb : Nat) (s : State) : Host.Outcome State Fault Refusal :=
  let r := s.region rcb
  if (lget rcb s.regions).isNone || r.abort.isSome || r.state = 3 then .next s
  else if !r.hold && s.spent rcb then
    let d := r.reached.getD r.die
    .next ((holdSubtree s rcb).leaveRecord d rcb { State.schedHead d 6 cBUDGET with addr := State.physOf rcb } (plainTail 1 rcb))
  else .next s

/-! ## Retirement (R46, R386) -/

namespace State

/-- Nothing of a region runs or waits to run. -/
def idleRegion (s : State) (rcb : Nat) : Bool :=
  (s.launches.all fun l => l.2.rcb ≠ rcb) && (s.blocks.all fun b => b.2.rcb ≠ rcb)
    && (s.groups.all fun g => g.2.rcb ≠ rcb)
    && s.regions.all fun r => r.2.parent ≠ rcb || r.2.state = 3

end State

/-- RETIRE_SWEEP: the launches of a retiring region are done and its subtree has retired; the slices free its
held tickets, and STATE becomes 3. -/
def execRetireSweep (rcb : Nat) (s : State) : Host.Outcome State Fault Refusal :=
  let r := s.region rcb
  let held := s.tickets.filter fun k => k.2.rcb = rcb && k.2.tstate = .held
  if !r.retiring || r.state = 3 || !s.idleRegion rcb || held.any fun k => !k.2.ready then .next s
  else
    let s := held.foldl (fun (s : State) k => s.freeTicket k.1 .reclaimed) s
    let s := s.modRegion rcb fun r => { r with
      tkreclaim := (r.tkreclaim + held.length) % 2 ^ 32, state := 3, engines := [], contexts := []
      retiring := false, hold := false }
    .next (s.writeBack rcb)

/-! ## Partitions and swarm cores (R72, R32) -/

/-- ACTIVE_TIMEOUT: a group active for 2,048 clocks while others are ready goes to the tail of the queue. -/
def execActiveTimeout (g : Nat) (s : State) : Host.Outcome State Fault Refusal := match s.partOf g with
  | none => .next s
  | some k =>
    let G := s.group g
    if G.gstate = .active && 2048 ≤ s.cycle - G.since && (s.part k).ready ≠ [] then .next (s.leaveActive g true)
    else .next s

/-- GROUP_READY: a Waiting group one of whose threads can issue joins the tail of the ready queue. -/
def execGroupReady (g : Nat) (s : State) : Host.Outcome State Fault Refusal :=
  let G := s.group g
  if (s.partOf g).isSome && G.gstate = .waiting && !s.halted g && (s.pick g).isSome then .next (s.joinReady g)
  else .next s

namespace State

/-- The group on a context of a swarm core. -/
def onContext (s : State) (c x : Nat) : Option Nat := (s.groups.find? fun g => g.2.kind = .swarm c x).map Prod.fst

/-- The context can issue. -/
def contextReady (s : State) (c x : Nat) : Bool := match s.onContext c x with
  | some g => !s.halted g && (s.pick g).isSome
  | none => false

/-- The next ready context in ring order, the running one last. -/
def ringNext (s : State) (c : Nat) : Option Nat :=
  ((upTo 16).map fun k => ((s.core c).ctx + 1 + k) % 16).find? fun x => s.contextReady c x

/-- The core leaves its running context: it gave up the core, it has issued 64 instructions in a row while
another is ready, or it cannot issue. -/
def switchDue (s : State) (c : Nat) : Bool :=
  let k := s.core c
  k.yielded || (64 ≤ k.run && s.ringNext c ≠ some k.ctx) || !s.contextReady c k.ctx

end State

/-- CONTEXT_SWITCH. -/
def execContextSwitch (core : Nat) (s : State) : Host.Outcome State Fault Refusal :=
  if s.switchDue core then match s.ringNext core with
    | some x => .next (s.modCore core fun k => { k with ctx := x, run := 0, yielded := false })
    | none => .next s
  else .next s

/-! ## Stitched groups (R53, R54) -/

/-- The launch under whose record a group runs. -/
def State.launchOfGroup (s : State) (G : Group) : Launch :=
  ((s.launches.map Prod.snd).find? fun L => L.lr = G.lr && L.rcb = G.rcb).getD default

/-- A stitched thread: arguments in x0 upward, the issuer's identity but for TID (R53). -/
def stitchedThread (s : State) (L : Launch) (alloc lcore lslot : Nat) (q : StitchReq) (tid : Nat) : Thread :=
  let h := s.thread q.g 0
  let id : Ident :=
    { tid := BitVec.ofNat 32 tid, bid := h.ident.bid, lcore := BitVec.ofNat 32 lcore, jseed := h.ident.jseed
      mbox := BitVec.ofNat 32 (lcore * 256 + lslot) }
  let n := h.ident.bid.toNat
  let t := startThread alloc (BitVec.ofNat 64 q.target) L.args (stackTop s L n tid) id
  { t with
    x := q.args ++ t.x.drop q.args.length, status := 0x10#32, stitch := some (q.nr, q.g)
    slots := some (s.slotsOf q.g 0) }

/-- A formed group of requests started on an engine: identity, format slots, arguments and stack are each issuer's own
(R53, R133). -/
def startStitched (s : State) (l : List StitchReq) (q : StitchReq) (e : Nat) : State :=
  let I := s.group q.g
  let L := s.launchOfGroup I
  let r := s.resolved q.rcb 14
  let (lcore, lslot, s) := s.groupNumber q.rcb e
  let (key, s) := s.fresh
  let B : Block :=
    { key := key, launch := L.key, bid := (s.thread q.g 0).ident.bid.toNat, rcb := q.rcb, kind := .stitched
      engines := [e], lcores := [lcore], lines := r.stspm, banks := [[]], since := s.cycle, placed := key }
  let alloc := 8 * r.stregs
  let live := l.zipIdx.map fun x =>
    stitchedThread s (s.launchOfGroup (s.group x.1.g)) alloc lcore lslot x.1 x.2
  let idle : Thread := { x := List.replicate alloc 0, slot := .exited }
  let G : Group :=
    { key := s.nextKey, kind := .simt e 0, blk := key, rcb := q.rcb, lr := I.lr
      entry := BitVec.ofNat 64 q.target, alloc := alloc, fs := I.fs, fssc := I.fssc, lcore := lcore, lslot := lslot
      k := List.replicate 160 0, masks := List.replicate 11 0, arrive := List.replicate 12 0
      credit := List.replicate 12 0, threads := live ++ List.replicate (32 - live.length) idle }
  let g := s.nextKey
  (({ s with blocks := lput key B s.blocks }).addGroup G).joinReady g

/-- What a stitched group asks of an engine. -/
def stitchShare (s : State) (rcb : Nat) : Share :=
  let r := s.resolved rcb 14
  { groups := 1, per := [1, 0, 0, 0], alloc := 8 * r.stregs, lines := r.stspm, banks := 0 }

/-- A formed group of a cluster started, where an engine has room and no hold, quota or full context table keeps it
(R53, R67, R84, R361). -/
def tryStitched (c : Nat) (s : State) : List StitchReq → Option State
  | [] => none
  | q :: more =>
    let h := stitchShare s q.rcb
    let free : Bool := s.contextFits (c / 16) q.rcb && s.unheld q.rcb
      && (s.overQuota q.rcb (32 * h.alloc) h.lines 0 false).isNone
    match s.enginesFor (s.launchOfGroup (s.group q.g)).key q.rcb false [h] c with
    | some (e :: _) =>
      if free then some (startStitched { s with formed := s.formed.erase (q :: more) } (q :: more) q e) else none
    | _ => none

/-- STITCHED_GROUP_START: the first formed group of a cluster that can starts; the requests of contexts that are gone
are dropped. -/
def execStitchedGroupStart (c : Nat) (s : State) : Host.Outcome State Fault Refusal :=
  let live := fun (l : List StitchReq) => l.filter fun q => (lget q.g s.groups).isSome
  let s := { s with formed := (s.formed.map live).filter fun l => l ≠ [] }
  .next (((s.formed.filter fun l => l.any fun q => q.cluster = c).findSome? (tryStitched c s)).getD s)

end Sys2Proof.Machine
end

