-- ==== Sys2Proof/Machine/Commands.lean ====
section
/-! DEFINITION. The supervisor page of a region scheduler and the management mailbox: the commands of R312, and
the stores to device-register pages (R275, R278, R284, R311, R321, R402, R412, R413). -/

namespace Sys2Proof.Machine

/-! ## The head of a command queue (R311, R312) -/

/-- What performing a command comes to: refused with a cause, complete, begun, or not possible yet. -/
inductive CmdRes
  | refuse (cause : Nat)
  | done (s : State) (err : Nat)
  | begun (s : State)
  | wait

/-- ADDR, ADDR2 and ARG of a command. -/
structure Operands where
  addr : Nat
  addr2 : Nat
  arg : Nat
deriving DecidableEq, Repr

/-- OP of a command. -/
def cmdOp (w : List Word) : Nat := bits (cw w 0) 7 0

/-- The operands of a command. -/
def cmdOperands (w : List Word) : Operands :=
  { addr := cw w 1 + cw w 2 * 2 ^ 32, addr2 := cw w 3 + cw w 4 * 2 ^ 32, arg := cw w 5 }

/-- A known OP, and no reserved bit set. -/
def cmdFieldsOk (w : List Word) : Bool :=
  1 ≤ cmdOp w && cmdOp w ≤ 7 && bits (cw w 0) 31 8 = 0 && cw w 6 = 0 && cw w 7 = 0

/-- The head command leaves the queue: STAT counts it, and ERR holds its cause. -/
def endCommand (s : State) (d err : Nat) : State := s.modDie d fun D =>
  { D with cmds := D.cmds.drop 1, stat := (D.stat + 1) % 2 ^ 32, err := err }

/-- The head command of a die when its OP is op; REGISTER's step also refuses what no command names. -/
def command (op d : Nat) (f : State → Operands → Command → CmdRes) (s : State) :
    Host.Outcome State Fault Refusal :=
  match (s.die d).cmds with
  | [] => .next s
  | c :: _ =>
    if !s.running d then .next s
    else if !cmdFieldsOk c.w then
      if op = 1 || cmdOp c.w = op then .next (endCommand s d cRESERVED) else .next s
    else if cmdOp c.w ≠ op then .next s
    else match f s (cmdOperands c.w) c with
      | .refuse cause => .next (endCommand s d cause)
      | .done s err => .next (endCommand s d err)
      | .begun s => .next (s.modDie d fun D => { D with cmds := D.cmds.modify 0 fun c => { c with begun := true } })
      | .wait => .next s

/-! ## REGISTER -/

/-- An RCB's fields (R44). -/
def regionOf (bs : List Byte) (rcb : Nat) : Region :=
  { rcb := rcb, parent := numAt bs 0x00 8, ovr := numAt bs 0x08 4, prio := numAt bs 0x0C 1, fdom := numAt bs 0x0D 1
    flags := numAt bs 0x0E 1, kpol := numAt bs 0x0F 1, pbound := numAt bs 0x10 4, tkq := numAt bs 0x14 4
    cycles := numAt bs 0x18 8, regq := numAt bs 0x20 4, spmq := numAt bs 0x24 4, amq := numAt bs 0x28 2
    cqshare := numAt bs 0x2A 2, forkcap := numAt bs 0x2C 4, savearea := numAt bs 0x30 8, traparea := numAt bs 0x38 8
    handler := numAt bs 0x40 8, stackarea := numAt bs 0x48 8, stwait := numAt bs 0x50 2, stregs := numAt bs 0x52 1
    stspm := numAt bs 0x54 2 }

/-- The reserved bytes of an RCB are zero. -/
def rcbReservedOk (bs : List Byte) : Bool :=
  numAt bs 0x53 1 = 0 && numAt bs 0x56 10 = 0 && (bs.drop 0x80).all (· = 0)

/-- The values of the fields that the RCB supplies itself are allowed. -/
def ownFieldsOk (r : Region) : Bool :=
  let own := fun b => r.parent = 0 || bit r.ovr b
  (!own 0 || r.prio ≤ 23) && bits r.ovr 31 17 = 0 && (!(own 1 || own 16) || bits r.flags 7 2 = 0)
    && (!own 14 || (1 ≤ r.stregs && r.stregs ≤ 32 && r.stspm ≤ 16384)) && (!own 7 || r.cqshare ≠ 0)
    && (!own 13 || (1 ≤ r.forkcap && r.forkcap ≤ 65536)) && (!own 9 || r.savearea % 128 = 0)
    && (!own 10 || r.traparea % 128 = 0) && (!own 11 || (r.handler % 4 = 0 && bits r.handler 63 57 = 0))

/-- The check of PARENT by die d's scheduler: the cause of a refusal. What is registered in another partition is no region
of this one (R319). -/
def parentBad (s : State) (d : Nat) (r : Region) : Option Nat :=
  let moved := fun (old : Region) => old.parent ≠ r.parent
  if (lget r.rcb s.regions).any moved then some cRESERVED
  else if r.parent = 0 then none
  else match lget r.parent s.regions with
    | none => some cRESERVED
    | some p =>
      if r.parent = r.rcb || s.under r.rcb r.parent || !s.together d p.die then some cRESERVED
      else if 2 ≤ p.state then some (p.abort.getD cRESERVED)
      else none

/-- RCBs that die d's scheduler caches and that its resident blocks use. -/
def usedRegions (s : State) (d : Nat) : Nat := ((s.die d).rcbs.filter fun r => s.usesRcb d r).length

/-- The cause with which REGISTER at die d refuses an RCB, in the order of R312's list. -/
def registerBad (s : State) (d : Nat) (bs : List Byte) (r : Region) (table : Nat) : Option Nat :=
  let depth := if r.parent = 0 then 0 else (s.region r.parent).depth + 1
  if r.parent ≠ 0 && table ≠ 0 then some cRESERVED
  else if 7 < depth || bits r.kpol 1 0 = 3 || !rcbReservedOk bs || (r.parent = 0 && table = 0) then some cRESERVED
  else match parentBad s d r with
    | some c => some c
    | none =>
      if !ownFieldsOk r then some cRESERVED
      else if 4096 ≤ usedRegions s d then some cBUDGET
      else none

/-- A region's record once die d's scheduler caches its RCB, with STATE 1: the fields of the RCB, with what schedulers keep
of an earlier registration. DESIGN CHOICE (log entry 77): a region whose retirement is under way goes on retiring. -/
def cacheRegion (s : State) (d : Nat) (r : Region) (table : Nat) : Region :=
  let depth := if r.parent = 0 then 0 else (s.region r.parent).depth + 1
  let r := { r with table := table, depth := depth, state := 1, die := d }
  match lget r.rcb s.regions with
  | none => r
  | some o => { r with
      cycused := o.cycused, tkreclaim := o.tkreclaim, hold := o.hold, binds := o.binds
      engines := o.engines, contexts := o.contexts, full := o.full, retiring := o.retiring }

/-- A hold ends when the RCB now has a larger CYCLES, or OVR bit 3 clear (R362): EVENT 2. -/
def releaseHold (s : State) (d : Nat) (old : Region) : State.Told :=
  let r := s.region old.rcb
  if !old.hold then .ok s
  else if old.cycles < r.cycles || (r.parent ≠ 0 && !bit r.ovr 3) then
    let s := s.modRegion r.rcb fun r => { r with hold := false }
    let h := { State.schedHead d 6 cBUDGET with addr := State.physOf r.rcb }
    s.report d r.rcb h (plainTail 2 r.rcb)
  else .ok s

/-- REGISTER. -/
def execRegister (d : Nat) (s : State) : Host.Outcome State Fault Refusal :=
  command 1 d (fun s o _ =>
    if o.addr % 256 ≠ 0 then .refuse cMISALIGN
    else match s.physBytes d o.addr 256 with
    | .error f => .refuse f.1
    | .ok bs =>
      let a := s.ownAddr d o.addr
      let r := regionOf bs a
      let r := { r with parent := s.ownAddr d r.parent }
      match registerBad s d bs r o.addr2 with
      | some c => .refuse c
      | none =>
        let old := s.region a
        let s' : State := { s with regions := lput a (cacheRegion s d r (s.ownAddr d o.addr2)) s.regions }
        match releaseHold (s'.frontRcb d a) d old with
        | .ok s' => .done (s'.writeBack a) 0
        | .error h => .begun (s.noteFull a h)) s

/-! ## RETIRE -/

/-- A command to die d names a region that is registered in its partition and not retired (R312, R319). -/
def State.named (s : State) (d rcb : Nat) : Bool :=
  (lget rcb s.regions).isSome && (s.region rcb).state ≠ 3 && s.together d (s.region rcb).die

/-- The regions of a subtree begin to retire; held ones lose their launches (R46, R362). -/
def beginRetire (s : State) (rcb : Nat) : State :=
  let rs := (s.subtree rcb).filter fun q => (s.region q).state ≠ 3
  let held := rs.filter fun q => !s.unheld q
  let s := if held = [] then s else s.dropWork held
  rs.foldl (fun (s : State) q =>
    (s.modRegion q fun r => { r with retiring := true, state := 2 }).writeBack q) s

/-- RETIRE: complete once STATE is 3. -/
def execRetire (d : Nat) (s : State) : Host.Outcome State Fault Refusal :=
  command 2 d (fun s o c =>
    let a := s.ownAddr d o.addr
    if c.begun then if (s.region a).state = 3 then .done s 0 else .wait
    else if o.addr % 256 ≠ 0 then .refuse cMISALIGN
    else if !s.named d a then .refuse cRESERVED
    else .begun (beginRetire s a)) s

/-! ## PREEMPT -/

/-- Blocks of a subtree that can be pre-empted. -/
def preemptable (s : State) (rcb : Nat) : List Block := (s.blocks.map Prod.snd).filter fun B =>
  s.under rcb B.rcb && State.onEngines B && B.kind ≠ .swarm

/-- PREEMPT: complete once every block of the subtree has ended its method. -/
def execPreempt (d : Nat) (s : State) : Host.Outcome State Fault Refusal :=
  command 3 d (fun s o c =>
    let a := s.ownAddr d o.addr
    if c.begun then
      if (preemptable s a).any fun B => B.bstate ≠ .resident && B.pre.isSome then .wait
      else .done s (if c.missed then cPREEMPT else 0)
    else if o.addr % 256 ≠ 0 then .refuse cMISALIGN
    else if !s.named d a then .refuse cRESERVED
    else
      let bs := ((preemptable s a).filter fun B => B.bstate = .resident).map Block.key
      .begun (preemptAll s { die := d, bound := o.arg, reqlr := 0, cmd := some d } bs)) s

/-! ## SHOOT (R92) -/

/-- SHOOT: complete once the shootdown has completed in every TLB of the partition. -/
def execShoot (d : Nat) (s : State) : Host.Outcome State Fault Refusal :=
  command 4 d (fun s o c =>
    let root := s.ownAddr d o.addr2
    if c.begun then if s.shoots.any fun x => x.die = d then .wait else .done s 0
    else if !s.named d root || (s.region root).parent ≠ 0 then .refuse cRESERVED
    else
      let (key, s) := s.fresh
      let x : Shoot :=
        { id := key, table := (s.region root).table, va := o.addr, pages := o.arg, die := d
          dies := s.partitionDies d }
      .begun { s with shoots := s.shoots ++ [x] }) s

/-! ## IMAGE (R277 to R280, R402) -/

/-- Request kinds of a unit (R277). -/
def requestKinds (kind : Nat) : Nat := at0 [2, 1, 6, 1] kind

/-- The header of an image is valid. -/
def imageHeaderOk (bs : List Byte) : Bool :=
  let len := numAt bs 0x08 2
  let kind := numAt bs 0x04 1
  numAt bs 0 4 = 0x4C4D4349 && kind ≤ 3 && numAt bs 0x05 3 = 0 && 1 ≤ len && len ≤ 16384
    && numAt bs 0x0C 4 = 3309 && (upTo 8).all fun k =>
      let ent := numAt bs (0x10 + 2 * k) 2
      if k < requestKinds kind then ent < len else ent = 0

/-- A microword is valid in an image of a length (R279, R280). -/
def microwordOk (len : Nat) (w : BitVec 64) : Bool := mwOp w < 24 && mwCc w < 6 && mwNext w < len

/-- The signature verifies under Lumgar's image key or one that was enrolled. -/
def signedOk (s : State) (msg sig : List Byte) : Bool :=
  (Config.imageKey :: s.keys).any fun k => Config.mldsaVerify k msg sig

/-- Microwords beyond the first of the shipped images of the kinds below one: the four together have at most 6,144, of
which the spec states no split (R276). -/
def shippedBelow : Nat → Nat
  | 0 => 0
  | k + 1 => Nat.min 6140 (shippedBelow k + (Config.shippedLen k).toNat)

/-- Microwords of the shipped image of a kind (R276, R277). -/
def shippedWords (kind : Nat) : Nat := 1 + (shippedBelow (kind + 1) - shippedBelow kind)

/-- Microwords resident beside an id of a kind. -/
def residentWords (s : State) (kind id : Nat) : Nat :=
  shippedWords kind + ((s.images.filter fun i => i.kind = kind && i.id ≠ id && i.id < 8).map Image.len).sum

/-- A request, launch or bin that has started under an image of a kind. -/
def imageUsed (s : State) (kind id : Nat) : Bool :=
  (s.micro.any fun q => q.image = id && State.imageKind q.fn = kind)
    || (s.launches.any fun l => at0 l.2.binds kind = id)
    || s.blocks.any fun b => b.2.bin.any fun b => at0 b.binds kind = id

/-- An image that is replaced stays under an id of its own, n, for what has started under it, which finishes under it
(R283); those that nothing uses any more are gone. -/
def setImageAside (s : State) (kind id n : Nat) : State :=
  let swap := fun (l : List Nat) => if at0 l kind = id then l.set kind n else l
  let bin := fun (b : Bin) => { b with binds := swap b.binds }
  let s : State := { s with
    micro := s.micro.map fun q => if q.image = id && State.imageKind q.fn = kind then { q with image := n } else q
    launches := s.launches.map fun l => (l.1, { l.2 with binds := swap l.2.binds })
    blocks := s.blocks.map fun b => (b.1, { b.2 with bin := b.2.bin.map bin })
    images := s.images.map fun i => if i.kind = kind && i.id = id then { i with id := n } else i }
  { s with images := s.images.filter fun i => i.id < 8 || imageUsed s i.kind i.id }

/-- The image in its stores, or none where a check of R278 fails. -/
def loadImage (s : State) (id : Nat) (hdr body sig : List Byte) : Option State :=
  let kind := numAt hdr 0x04 1
  let len := numAt hdr 0x08 2
  let words := (upTo len).map fun i => BitVec.ofNat 64 (numAt body (8 * i) 8)
  let bound := s.regions.any fun r => r.2.state ≠ 3 && at0 r.2.binds kind = id
  if words.all (microwordOk len) && Config.shake256 body 32 = (hdr.drop 0x20).take 32 && signedOk s (hdr ++ body) sig
    && residentWords s kind id + len ≤ 16384 && id ≠ 0 && !bound then
    let img : Image :=
      { kind := kind, id := id, len := len, entries := (upTo 8).map fun k => numAt hdr (0x10 + 2 * k) 2, words := words }
    let s := (setImageAside s kind id (8 + s.nextKey)).fresh.2
    some { s with images := s.images ++ [img] }
  else none

/-- IMAGE. -/
def execImage (d : Nat) (s : State) : Host.Outcome State Fault Refusal :=
  command 5 d (fun s o _ =>
    if o.addr % 64 ≠ 0 then .refuse cIMAGE
    else match s.physBytes d o.addr 64 with
    | .error f => .refuse f.1
    | .ok hdr =>
      if !imageHeaderOk hdr then .refuse cIMAGE
      else
        let n := 8 * numAt hdr 0x08 2
        match s.physBytes d (o.addr + 64) n, s.physBytes d (o.addr + 64 + n) 3309 with
        | .ok body, .ok sig => match loadImage s (bits o.arg 2 0) hdr body sig with
          | some s => .done s 0
          | none => .refuse cIMAGE
        | .error f, _ => .refuse f.1
        | _, .error f => .refuse f.1) s

/-! ## PEER, LAUNCH -/

/-- PEER: the route of a peer number is set in the die's partition (R315, R319, R411). -/
def execPeer (d : Nat) (s : State) : Host.Outcome State Fault Refusal :=
  command 6 d (fun s o _ =>
    .done { s with peers := lput (16 * s.firstDie d + bits o.arg 3 0) (bits o.arg 5 4) s.peers } 0) s

/-- LAUNCH_COMMAND: the record is read and checked, and the launch is Parked, Ready or Refused (R312); it waits
while the dependence table is full (R65). -/
def execLaunchCommand (d : Nat) (s : State) : Host.Outcome State Fault Refusal :=
  command 7 d (fun s o _ =>
    if o.addr % 128 ≠ 0 then .refuse cMISALIGN
    else if 1024 ≤ (s.parkedOn d).length then .wait
    else match arriveLaunch s d o.addr none false with
      | .refuse rcb cause faddr => match refuseLaunch s d o.addr rcb cause faddr with
        | .ok s => .done s cause
        | .error h => .begun (s.noteFull (rcb.getD 0) h)
      | .ok s' L zero => match enterLaunch s' L zero with
        | .ok s' => .done s' 0
        | .error h => .begun (s.noteFull L.rcb h)) s

/-! ## Stores to device registers -/

/-- The store is to page 0 of a supervisor page. -/
def DevStore.isSup (x : DevStore) : Bool := !x.isPort && x.unit % 256 = 64 && x.page = 0

/-- The store is a command. -/
def DevStore.isCommand (x : DevStore) : Bool := x.isSup && x.off = 0 && x.bytes.length = 32

/-- The store gives a die a free frame of its own HBM4 (R311). -/
def freesFrame (s : State) (x : DevStore) : Bool :=
  let d := x.unit / 16384
  let pa := ofBytes x.bytes
  x.isSup && x.off = 0x40 && x.bytes.length = 8 && pa % 65536 = 0 && s.target d pa = .hbm d

/-- FREEQ: a frame joins the die's list. -/
def execFreeq (n : Nat) (s : State) : Host.Outcome State Fault Refusal := match s.devStore n with
  | none => .next s
  | some (x, s') =>
    if freesFrame s x then
      .next (s'.modDie (x.unit / 16384) fun D => { D with frees := D.frees ++ [ofBytes x.bytes] })
    else .next s

/-- The store is one of all 32 bytes to NONCE. -/
def DevStore.isNonce (x : DevStore) : Bool :=
  !x.isPort && x.unit % 256 = 67 && x.page = 0 && x.off = 0 && x.bytes.length = 32

/-- NONCE: a report starts; the store waits while an earlier report is being written (R321, R413). -/
def execNonce (n : Nat) (s : State) : Host.Outcome State Fault Refusal := match s.devStore n with
  | none => .next s
  | some (x, s') =>
    let d := x.unit / 16384
    if !x.isNonce || (s.die d).reporting.isSome then .next s
    else .next (s'.modDie d fun D => { D with nonce := x.bytes, reporting := some (x.bytes, D.dest) })

/-- Bytes of DEST replaced by a store (R321). -/
def storeDest (s : State) (x : DevStore) : State := s.modDie (x.unit / 16384) fun D =>
  let old := toBytes 8 D.dest
  let new := (upTo 8).map fun i =>
    if x.off ≤ 0x20 + i && 0x20 + i < x.off + x.bytes.length then x.bytes.getD (0x20 + i - x.off) 0 else old.getD i 0
  { D with dest := ofBytes new }

/-- The index of a sequencer command's OP with a step of its own (R275). -/
def DevStore.isSeqOp (x : DevStore) : Bool := x.isCmd && seqOp (wordsOf 8 x.bytes) ≤ 3

/-- DEVICE_REGISTER_WRITE: a store that has no step of its own. A command joins its queue, or waits while the
queue holds 16; a store to LI0 to LI7 writes the loop register (R275), one to DEST the address of reports;
a reserved sequencer command and a store of any other size or offset to a sequencer port count in its DISC;
any other store to a draw page in the port's (R284); everything else is discarded. -/
def execDeviceRegisterWrite (n : Nat) (s : State) : Host.Outcome State Fault Refusal := match s.devStore n with
  | none => .next s
  | some (x, s') =>
    let d := x.unit / 16384
    if x.isSeqOp || x.isDraw || x.isNonce || freesFrame s x then .next s
    else if x.isCommand then
      if 16 ≤ (s.die d).cmds.length then .next s
      else .next (s'.modDie d fun D => { D with cmds := D.cmds ++ [{ w := wordsOf 8 x.bytes }] })
    else if x.isPort then
      let e := portEngine x.unit
      if x.isCmd then .next (s'.discardSeq e)
      else if x.off < 0x20 && x.off % 4 = 0 && x.bytes.length = 4 then
        .next (s'.modEngine e fun E => { E with li := E.li.set (x.off / 4) (BitVec.ofNat 32 (ofBytes x.bytes)) })
      else .next (s'.discardSeq e)
    else if x.unit % 256 = 67 then .next (storeDest s' x)
    else if x.page = 1 then .next (s'.modDie d fun D => { D with drawDisc := (D.drawDisc + 1) % 2 ^ 32 })
    else .next s'

/-! ## Attestation (R321, R413) -/

/-- The dies of a die's partition as a mask. -/
def dieMask (s : State) (d : Nat) : Nat := s.partitionOf d

/-- An attestation report, signed by the device identity key. -/
def reportBytes (s : State) (d : Nat) (nonce : List Byte) : List Byte :=
  let body := padTo 32 nonce ++ padTo 64 (s.die 0).m ++ toBytes 4 (Config.divisionWord s.division (dieMask s d)).toNat
    ++ toBytes 4 s.links ++ List.replicate 24 0
  body ++ padTo 3309 (Config.reportSignature d body)

/-- Why a report of n bytes cannot be written at an address: a line of it that is no memory, or a link that is down
(R413). -/
def reportFail (s : State) (d dest n : Nat) : Option Nat := (upTo ((n + 63) / 64)).findSome? fun i =>
  let pa := dest + 64 * i
  match s.target d pa with
  | .hbm _ | .host _ | .peer _ => (s.accessFail d pa).map fun _ => cLINK
  | _ => some cNOTPRES

/-- ATTESTATION_REPORT_WRITTEN: the report in hand is written and counted, or fails and is reported by an
interrupt. -/
def execAttestationReportWritten (d : Nat) (s : State) : Host.Outcome State Fault Refusal :=
  match (if s.running d then (s.die d).reporting else none) with
  | none => .next s
  | some (nonce, dest) =>
    let bs := reportBytes s d nonce
    let s := s.modDie d fun D => { D with reporting := none }
    if dest % 64 ≠ 0 then .next (s.notify (.report cMISALIGN))
    else match reportFail s d dest bs.length with
    | some cause => .next (s.notify (.report cause))
    | none => .next ((s.homeWrite (s.ownAddr d dest) bs).modDie d fun D =>
        { D with reports := (D.reports + 1) % 2 ^ 32 })

end Sys2Proof.Machine
end

