-- ==== Sys2Proof/Machine/Errors.lean ====
section
/-! DEFINITION. Errors in storage arrays (R358 to R360, R389) and system events (R410). -/

namespace Sys2Proof.Machine

/-! ## System events (R410) -/

/-- Bit d: die d can reach the first die of its partition, in both directions. -/
def reachMask (s : State) (ds : List Nat) : Nat :=
  let first := ds.headD 0
  (ds.map fun d => if (s.pairFail d first).isNone then 2 ^ d else 0).sum

/-- A system event seen on die d: a record for every root region registered in the partition, an interrupt through
each host port that is up, and an I3C alert. -/
def systemEvent (s : State) (d event cause aux : Nat) : State :=
  let ds := s.partitionDies d
  let h : RecHead := { kind := 7, cause := cause, unit := unitDie d 67, aux := aux }
  let tail := toBytes 1 event ++ toBytes 3 0 ++ toBytes 4 s.links ++ toBytes 4 (reachMask s ds)
  let roots := (s.regions.filter fun r =>
    r.2.parent = 0 && r.2.state ≠ 3 && s.together d r.2.die).map Prod.fst
  let s := roots.foldl (fun s r => s.leaveRecord d r h tail) s
  let ports := (s.hostPortsOf d).filter fun p => bit s.links p
  (ports.foldl (fun s p => s.notify (.system p event aux)) s).notify (.alert d event aux)

/-! ## Counts (R358) -/

/-- An error counted for its unit by the management core of its die. -/
def countError (s : State) (unit : Nat) : State :=
  s.modDie (unit / 16384) fun D => { D with corrected := lmod unit 0 (· + 1) D.corrected }

/-- The unit identifiers that R26 lists; the others are reserved and never reported. -/
def unitListed (unit : Nat) : Bool :=
  let index := unit % 256
  unit < 65536 && (match unit / 256 % 4 with
    | 0 => index < 4
    | 1 => index < 64
    | 2 => index < 28
    | _ => unit / 1024 % 16 = 0 && (index ≤ 70 || index = 72 || index = 73 || index = 80))

/-- CORRECTED_ERROR: a corrected error of a unit is counted. -/
def execCorrectedError (unit : Nat) (s : State) : Host.Outcome State Fault Refusal :=
  .next (if unitListed unit then countError s unit else s)

/-! ## Execution state (R360) -/

/-- A thread whose PC, XWB, STATUS, predicates, FPSTAT or slot state is lost: its record, for which it waits while the
area is full (R351), its end, and the abort. -/
def loseThread (s : State) (g t : Nat) : State :=
  let h := s.thread g t
  let f : ReplyFail :=
    { info := { cause := cECC, aux := (s.group g).kind.unit }, pc := h.pc.toNat, words := [], status := h.status
      at_ := s.cycle, lost := true }
  let r := s.nestedTrap g t f
  r.1.doomAll r.2

/-- State of a group or of a region's tables is lost: its domain is aborted. -/
def loseRegion (s : State) (d rcb : Nat) : State := s.abort d rcb cECC (State.schedHead d 5 cECC) 5

/-- A thread's PC or slot state reads as uncorrectable: the reading instruction traps (R358). -/
def trapState (s : State) (g t : Nat) : State :=
  let pc := (s.thread g t).pc
  s.trapAll g [(t, { cause := cECC, aux := (s.group g).kind.unit })] pc [] fun _ => pc

/-- The loss of a thread's state. Of the PC and the slot state R358 says that the reading instruction traps, and R360
that the thread ends and its domain is aborted: a free choice takes one (DESIGN CHOICE, log entry 122). -/
def loseState (s : State) (g t : Nat) (pc : Bool) : State :=
  if pc then
    let (b, s) := s.freeBit
    if b then trapState s g t else loseThread s g t
  else loseThread s g t

/-- The loss of a mask, KWB or other state of a group. Of a mask and KWB R344 and R358 say that the reading bundle
traps, and R360 that the domain is aborted: a free choice takes one (DESIGN CHOICE, log entry 122). -/
def loseGroup (s : State) (g n : Nat) : State :=
  let G := s.group g
  if n ≤ 12 then
    let (b, s) := s.freeBit
    if b then s.modGroup g fun G => { G with bad := if G.bad.contains n then G.bad else n :: G.bad }
    else loseRegion s G.kind.die G.rcb
  else loseRegion s G.kind.die G.rcb

/-! ## The cluster L1 (R389) -/

/-- A failed GETO of a cluster's own making: the store fails on its way through the replay queue. -/
def failPending (s : State) (c line : Nat) (ws : List Nat) : State :=
  if ws = [] then s
  else s.post (chanDown c (s.homeSlice (c / 16) line)) (c / 16) (c / 16) (.storeFail line ws cECC none)

/-- Data of an L1 word lost: a clean word is fetched again, a pending one fails its store, an owned one is
marked. -/
def loseL1Word (s : State) (c wa : Nat) : State :=
  let w := s.l1Word c wa
  if w.owned then s.modL1 c fun l => { l with words := lput wa { w with poison := true } l.words }
  else if w.dirty ≠ 0#4 then failPending s c (lineOf wa) [wa]
  else if w.leaving then s
  else (s.modL1 c fun l => { l with words := ldel wa l.words }).dropL0 c [wa]

/-- A recall that waits for the hand-over of a lost release word is answered with a lost reply. -/
def loseHand (c : Nat) (s : State) (h : HandOver) : State :=
  let line := lineOf h.word
  let d := s.homeDie (c / 16) line
  let s := s.modL1 c fun l => { l with hand := l.hand.erase h }
  if (s.routeFail (c / 16) d).isSome then s
  else s.post (chanUp c (s.homeSlice (c / 16) line)) (c / 16) d (.iack line [h.word] true)

/-- The lines of a set of an L1 are lost: clean and owned words go, pending ones fail their stores. -/
def loseL1Set (s : State) (c line : Nat) : State :=
  let hit := fun (wa : Nat) => Config.l1Set (lineOf wa) = Config.l1Set line
  let words := (s.l1 c).words.filter fun e => hit e.1
  let pending := (words.filter fun e => !e.2.owned && e.2.dirty ≠ 0#4).map Prod.fst
  let gone := (words.filter fun e => !e.2.leaving && (e.2.owned || e.2.dirty = 0#4)).map Prod.fst
  let hands := (s.l1 c).hand.filter fun h => gone.contains h.word
  let s := (s.modL1 c fun l => { l with words := l.words.filter fun e => !gone.contains e.1 }).dropL0 c gone
  let s := hands.foldl (loseHand c) s
  let s := ((pending.map lineOf).eraseDups).foldl (fun s l =>
    failPending s c l (pending.filter fun wa => lineOf wa = l)) s
  s.l1Advance c

/-! ## Units -/

/-- The elements of a copy entry not yet performed fail; of a multicast that waits for credits, every target. -/
def loseCopy (s : State) (e : CqEntry) : State :=
  let cast : Bool := cqKind e.w = 4 && cqCount e.w ≠ 0
  let items := (upTo (copyItems e.w)).filter fun i =>
    !e.done.contains i && (!cast || bit (cwLo e.w 5) i)
  let idle := (upTo (copyItems e.w)).filter fun i => cast && !bit (cwLo e.w 5) i && !e.done.contains i
  let fail := fun (i : Nat) =>
    let addr := if cast then 0 else (cqGlobal e.w i).getD 0
    ((i, { cause := cECC, addr := addr, aux := unitCluster (e.q / 4) (e.q % 4) }) : Nat × TrapInfo)
  s.modCopy e.id fun x =>
    { x with begun := true, done := items.reverse ++ idle ++ x.done, fails := x.fails ++ items.map fail
             targets := if x.begun then x.targets else [] }

/-- A microcode request fails; the microword is written again from the image. -/
def loseMicroword (s : State) (kind n : Nat) : State :=
  let lost := fun (unit : Nat) => ({ cause := cECC, aux := unit } : TrapInfo)
  if 2 ≤ kind then match headRequest s n with
    | some q => failRequest s q (lost (requestId q).unit)
    | none => s
  else match liveBin s n with
    | none => s
    | some (B, b) =>
      if kind = 0 then
        if b.started && b.nextPrim < b.nprim then
          binFail s B 0 [b.nextPrim] (lost (binId B 0).unit) fun s => modBin s n fun x => { x with nextPrim := b.nextPrim + 1 }
        else s
      else match b.outs.find? fun o => !pixelHeld s n b o with
        | some o => binFail s B 1 [o.prim] (lost (binId B 1).unit) fun s => modBin s n fun x => { x with outs := x.outs.erase o }
        | none => s

/-- A buffered contribution fails under SOURCE 7; its request ends with its records when nothing more of it is
buffered. -/
def loseScatter (s : State) (n : Nat) : State := match s.scatter[n]? with
  | none => s
  | some (slice, c) =>
    let s := noteMarked { s with scatter := dropAt n s.scatter } (slice, c)
    s.orFull c.who.rcb (endGrads s c.req)

/-- The home slice of a word, as a unit. -/
def homeUnit (s : State) (wa : Nat) : Nat := unitDie (s.dieOfLine (lineOf wa)) (sliceOf wa)

/-- The HBM4 stack of a word, as a unit (R18, R26). -/
def stackUnit (s : State) (wa : Nat) : Nat := unitDie (s.dieOfLine (lineOf wa)) (68 + stackOf wa)

/-- The L2 slice of a word's line holds it newer than its stack. -/
def l2Newer (s : State) (wa : Nat) : Bool := lgetD (lineOf wa) s.l2 false

/-- A ticket entry whose metadata is lost leaves use until package reset; a redemption that waits in it meets row 3 of
R383 like every other that names it. -/
def loseTicket (s : State) (slot : Nat) : State :=
  let k := s.ticket slot
  let s := s.modTicket slot fun e =>
    { e with dead := true, gen := 0, tstate := .free, end_ := .none_, claim := none }
  match k.claim with
  | none => s
  | some c =>
    let n := ticketOf slot k.gen
    s.post (chanDown c.cluster (slot / 1024)) (slot / 65536) (c.cluster / 16)
      (.payload c.g c.t c.id n [] c.spm (some { cause := cTKSTALE, aux := n }))

/-- The memory system's arrays, queues and tables: each outcome is counted too (R389). -/
def loseMemory (s : State) : ErrSite → State
  | .l1Data c wa => loseL1Word (countError s (unitCluster c 19)) c wa
  | .l1Tag c line =>
    let unit := unitCluster c 19
    systemEvent (loseL1Set (countError s unit) c line) (c / 16) 2 cECC unit
  | .l2Data wa =>
    let s := countError s (homeUnit s wa)
    if l2Newer s wa then s.poisonHome (wa / 4 * 4) else s
  | .hbm wa =>
    let s := countError s (stackUnit s wa)
    -- a stack's word that the L2 holds newer is written again with the line
    if l2Newer s wa then s else s.poisonHome (wa / 4 * 4)
  | .directory line =>
    let unit := homeUnit s line
    systemEvent ((countError s unit).arrive (lineOf line) .rebuild) (unit / 16384) 2 cECC unit
  | .ticketPayload slice entry =>
    let s := countError s (unitDie (slice / 64) (slice % 64))
    let k := 1024 * slice + entry
    if (s.ticket k).tstate = .free then s else s.modTicket k fun e => { e with bad := true }
  | .ticketMeta slice entry =>
    let unit := unitDie (slice / 64) (slice % 64)
    systemEvent (loseTicket (countError s unit) (1024 * slice + entry)) (slice / 64) 3 cECC unit
  | .copyEntry q n =>
    let s := countError s (unitCluster (q / 4) (q % 4))
    match s.entryAt q n with
    | some e => loseCopy s e
    | none => s
  | .scatter n =>
    let slice := ((s.scatter[n]?).map Prod.fst).getD 0
    loseScatter (countError s (unitDie (slice / 64) (slice % 64))) n
  | .rcbCache d rcb =>
    (countError s (unitDie d 64)).modDie d fun D => { D with rcbs := D.rcbs.filter fun r => r ≠ rcb }
  | .regionTable unit rcb => loseRegion (countError s unit) (unit / 16384) rcb
  | _ => s

/-- UNCORRECTABLE_ERROR: an array loses what it holds at a place (R358, R360, R389). A cached RCB is dropped and read
again when it is next used (R64). -/
def execUncorrectableError (site : ErrSite) (s : State) : Host.Outcome State Fault Refusal := .next (match site with
  | .xReg g t n => s.modThread g t fun h => { h with badX := if h.badX.contains n then h.badX else n :: h.badX }
  | .kReg g n => s.modGroup g fun G => { G with badK := if G.badK.contains n then G.badK else n :: G.badK }
  | .threadState g t pc => if (lget g s.groups).isSome then loseState s g t pc else s
  | .groupState g n => if (lget g s.groups).isSome then loseGroup s g n else s
  | .spmLine blk line => s.modLine blk line fun l => { l with poison := true }
  | .amWord e w => s.modEngine e fun E => { E with amBad := if E.amBad.contains w then E.amBad else w :: E.amBad }
  | .wbGranule e gr => s.modEngine e fun E => { E with wbTag := ldel gr E.wbTag }
  | .controlStore kind n => loseMicroword s kind n
  | .refetched => s
  | site => loseMemory s site)

end Sys2Proof.Machine
end

