-- ==== Sys2Proof/Machine/Pages.lean ====
section
/-! DEFINITION. Page walks and shootdowns (R88, R92), and the placement engine (R95 to R98). -/

namespace Sys2Proof.Machine

/-- PAGE_WALK: walk k of the pool ends (R88, R92). -/
def execPageWalk (k : Nat) (s : State) : Host.Outcome State Fault Refusal := .next (s.endWalk k)

/-! ## Shootdowns (R92) -/

/-- A virtual address lies in the range of a shootdown. -/
def inShoot (x : Shoot) (va : Nat) : Bool :=
  x.pages = 0 || (x.va / 4096 ≤ va / 4096 && va / 4096 < x.va / 4096 + x.pages)

/-- A TLB entry covers part of the range of a shootdown. -/
def hitByShoot (x : Shoot) (e : TlbEntry) : Bool :=
  e.table = x.table && x.dies.contains (State.tlbDie e.unit)
    && (x.pages = 0 || (e.va < (x.va / 4096 + x.pages) * 4096 && x.va / 4096 * 4096 < e.va + 2 ^ e.bits))

/-- One of a list of atomics was translated in the tree of a table at an address of a set. -/
def atomsIn (s : State) (table : Nat) (hit : Nat → Bool) (rs : List AtomReq) : Bool :=
  rs.any fun r => s.tableOf (s.atomRegion r) = table && hit r.va

/-- An atomic, or the read of an LDT, at its home that was translated in the tree of a table at an address of a
set. -/
def reqIn (s : State) (table : Nat) (hit : Nat → Bool) : HomeReq → Bool
  | .atom rs => atomsIn s table hit rs
  | .ldt r => s.tableOf r.rcb = table && hit r.va
  | _ => false

/-- An access on its way that was translated in the tree of a table at an address of a set. -/
def carries (s : State) (table : Nat) (hit : Nat → Bool) : Body → Bool
  | .ustore _ _ w => s.tableOf w.rcb = table
  | .atom rs | .hostAtom rs _ => atomsIn s table hit rs
  | .retry _ req => reqIn s table hit req
  | .ldt r => s.tableOf r.rcb = table && hit r.va
  | .hgs c => s.tableOf c.who.rcb = table && hit c.va
  | _ => false

/-- An access translated with an entry of the range has not been performed: a load, an LDT, an LDGS, an atomic on its way
or at its home, a contribution on its way or buffered at its slice, or a store of the tree. -/
def shootBusy (s : State) (x : Shoot) : Bool :=
  (s.loads.any fun q => q.kind ≠ 3 && s.tableOf (s.group q.g).rcb = x.table && inShoot x q.va)
    || (s.flight.any fun m => carries s x.table (inShoot x) m.body)
    || (s.txs.any fun t => (t.req :: t.queue).any (reqIn s x.table (inShoot x)))
    || (s.l1s.any fun l => l.2.replay.any fun r => s.tableOf r.who.rcb = x.table)
    || (s.scatter.any fun c => s.tableOf c.2.who.rcb = x.table && inShoot x c.2.va)
    || (s.lands.any fun l => l.source ≠ 9 && s.tableOf l.rcb = x.table && inShoot x l.va)

/-- SHOOTDOWN_COMPLETE: the entries leave every TLB that the shootdown reaches. -/
def execShootdownComplete (k : Nat) (s : State) : Host.Outcome State Fault Refusal :=
  match s.shoots.find? fun x => x.id = k with
  | none => .next s
  | some x =>
    if shootBusy s x then .next s
    else .next { s with tlb := s.tlb.filter fun e => !hitByShoot x e
                        shoots := s.shoots.filter fun y => y.id ≠ k }

/-! ## The leaves that map a page -/

/-- The 8-byte slots of a table that may hold an entry that is not zero. -/
def slotsIn (s : State) (tab n : Nat) : List Nat :=
  (((s.mem.map Prod.fst ++ s.owners.map Prod.fst).filter fun a => tab ≤ a && a < tab + n).map fun a =>
    a / 8 * 8).eraseDups

/-- The leaves of a table of a partition, by its first die, and of those below it: slot, level and entry. -/
def leavesIn (s : State) (d : Nat) : List (Nat × Nat × Nat) → Nat → List (Nat × Nat × Nat)
  | [], _ => []
  | (lvl, hi, lo) :: rest, tab =>
    ((slotsIn s tab (8 * 2 ^ (hi + 1 - lo))).map fun slot =>
      let e := s.homeNat slot 8
      if pteBad e then []
      else if lvl < 3 ∧ ¬ bit e 1 then leavesIn s d rest (s.ownAddr d (bits e 51 12 * 4096))
      else if lvl = 0 ∨ ¬ leafOk lvl e then []
      else [(slot, lvl, e)]).flatten

/-- The root tables in use, each with the first die of its partition. -/
def rootTables (s : State) : List (Nat × Nat) :=
  ((s.regions.filter fun r => r.2.parent = 0 && r.2.state ≠ 3).map fun r =>
    (s.firstDie r.2.die, r.2.table)).eraseDups

/-- Bytes that a leaf of a level maps. -/
def leafSize (lvl : Nat) : Nat := if lvl = 1 then 2 ^ 30 else if lvl = 2 then 2 ^ 21 else 4096

/-- The leaves of the package that map a part of a 64 KiB page. -/
def leavesOf (s : State) (page : Nat) : List (Nat × Nat × Nat) :=
  (((rootTables s).map fun t => leavesIn s t.1 walkLevels t.2).flatten.eraseDups).filter fun x =>
    let lo := bits x.2.2 51 12 * 4096
    lo < (page + 1) * 65536 && page * 65536 < lo + leafSize x.2.1

/-- The page is mapped by 4 KiB or 64 KiB leaves with MT = 0 and PIN clear (R95). -/
def movable (s : State) (page : Nat) : Bool :=
  let ls := leavesOf s page
  ls ≠ [] && ls.all fun x => x.2.1 = 3 && bits x.2.2 9 8 = 0 && !bit x.2.2 10

/-! ## The end of an epoch (R95, R96) -/

/-- Accesses to a page from a die in the epoch. -/
def pageCount (s : State) (page d : Nat) : Nat :=
  ((s.kcounts.filter fun k => k.page = page && k.die = d).map KCount.cur).sum

/-- The die with the highest count of a page; ties go to the lowest die. -/
def hottest (s : State) (page d : Nat) : Nat :=
  (greatestBy (fun e => (pageCount s page e : Int)) (s.partitionDies d)).getD d

/-- KPOL of the region whose access last raised the count of a page from a die. -/
def policyOf (s : State) (page e : Nat) : Nat :=
  match (s.kcounts.filter fun k => k.page = page && k.die = e && k.cur ≠ 0).getLast? with
  | some k => (s.resolved k.rcb 15).kpol
  | none => 0

/-- A page that has not moved in the last 8 epochs, and is not moving. -/
def settledPage (s : State) (page : Nat) : Bool :=
  (s.moved.all fun m => m.1 ≠ page || m.2 + 8 < s.cycle / 2 ^ 20) && s.moves.all fun m => m.page ≠ page

/-- The die to which a share moves a page (R95). -/
def moveTarget (s : State) (d page : Nat) : Option Nat :=
  let e := hottest s page d
  let k := policyOf s page e
  let f := if bits k 1 0 = 1 then 2 else 4
  if e ≠ d && (bits k 1 0 = 1 || bits k 1 0 = 2) && f * pageCount s page d ≤ pageCount s page e
    && 2 ^ bits k 6 2 ≤ pageCount s page e && settledPage s page && movable s page then some e
  else none

/-- The 512 lines of a page. -/
def pageLines (page : Nat) : List Nat := (upTo 512).map fun i => page * 65536 + 128 * i

/-- A move starts, or is skipped for want of a frame (R97 steps 1 to 3). -/
def startMove (s : State) (page e : Nat) : State := match (s.die e).frees with
  | [] => s.modDie e fun D => { D with kskip := (D.kskip + 1) % 2 ^ 32 }
  | frame :: rest =>
    let (id, s) := s.fresh
    let m : Move :=
      { id := id, page := page, frame := frame, die := e, at_ := s.cycle, left := pageLines page }
    let s := { s.modDie e fun D => { D with frees := rest } with moves := s.moves ++ [m] }
    (pageLines page).foldl (fun s line => s.arrive line (.move id)) s

/-- Home die of a page. -/
def pageDie (page : Nat) : Nat := bits (page * 65536) 39 38

/-- One page tested at the end of an epoch; a share runs at most 4 moves. -/
def testPage (d : Nat) (s : State) (page : Nat) : State :=
  if 4 ≤ (s.moves.filter fun m => pageDie m.page = d).length then s
  else match moveTarget s d page with
    | some e => startMove s page e
    | none => s

/-- The counts of a share at the end of an epoch. -/
def rollCounts (d : Nat) (l : List KCount) : List KCount :=
  (l.map fun k => if pageDie k.page = d then { k with prev := k.cur, cur := 0 } else k).filter fun k =>
    k.cur ≠ 0 || k.prev ≠ 0

/-- KNEADER_EPOCH_END of a die's share, every 2^20 clocks. -/
def execKneaderEpochEnd (d : Nat) (s : State) : Host.Outcome State Fault Refusal :=
  if d < 4 ∧ s.cycle % 2 ^ 20 = 0 then
    let pages := sortBy id (((s.kcounts.filter fun k => pageDie k.page = d && k.cur ≠ 0).map KCount.page).eraseDups)
    let s := pages.foldl (testPage d) s
    .next { s with kcounts := rollCounts d s.kcounts }
  else .next s

/-! ## The end of a move (R97 steps 4 to 6) -/

/-- A physical address after a page has moved to a frame. -/
def moveAddr (page frame pa : Nat) : Nat := if pa / 65536 = page then frame + pa % 65536 else pa

/-- A request of a home after a move of a page. -/
def moveReq (f : Nat → Nat) : HomeReq → HomeReq
  | .gets c ws => .gets c (ws.map f)
  | .geto c ws rel => .geto c (ws.map f) rel
  | .atom rs => .atom (rs.map fun r => { r with pa := f r.pa })
  | .ldt r => .ldt { r with pa := f r.pa }
  | r => r

/-- A message on its way after a move: what has yet to reach the home names the new frame. -/
def moveBody (f : Nat → Nat) : Body → Body
  | .gets l ws r => .gets (f l) (ws.map f) r
  | .geto l ws rel r => .geto (f l) (ws.map f) rel r
  | .wback l ws => .wback (f l) (ws.map f)
  | .atom rs => .atom (rs.map fun r => { r with pa := f r.pa })
  | .retry l r => .retry (f l) (moveReq f r)
  | .hostAtom rs own => .hostAtom (rs.map fun r => { r with pa := f r.pa }) own
  | .storeFail l ws c w => .storeFail (f l) (ws.map f) c w
  | .loadFail l ws c a => .loadFail (f l) (ws.map f) c a
  | .ldt r => .ldt { r with pa := f r.pa }
  | .hgs c => .hgs { c with pa := f c.pa }
  | b => b

/-- A cluster's L1 after a move: pending words and their entries follow the page. -/
def moveL1 (f : Nat → Nat) (l : L1) : L1 :=
  { l with words := sortBy Prod.fst (l.words.map fun e => (f e.1, e.2))
           replay := l.replay.map fun r => { r with words := r.words.map f }
           hand := l.hand.map fun h => { h with word := f h.word }
           asked := l.asked.map f }

namespace State

/-- The values from before stores that agents without a fence may still read (R115, R218, R302): the addresses of their
words mapped in each place that keeps them, or dropped. -/
def mapOlds (s : State) (to_ : Nat → Option Nat) : State :=
  let f := fun (l : List Older) => l.filterMap fun o => (to_ o.wa).map fun wa => { o with wa := wa }
  let key := fun (o : Nat × Word) => (to_ o.1).map fun wa => (wa, o.2)
  let thread := fun (h : Thread) => { h with unfenced := f h.unfenced, uncopied := f h.uncopied }
  { s with
    cqFloors := s.cqFloors.filterMap fun o => (to_ (o.1 % 2 ^ 64)).map fun wa => (o.1 / 2 ^ 64 * 2 ^ 64 + wa, o.2)
    engines := s.engines.map fun e => (e.1, { e.2 with olds := sortBy Prod.fst (e.2.olds.filterMap key) })
    groups := s.groups.map fun e => (e.1, { e.2 with threads := e.2.threads.map thread })
    micro := s.micro.map fun q => { q with olds := f q.olds }
    copies := s.copies.map fun q => { q with olds := f q.olds }
    lands := s.lands.map fun q => { q with olds := f q.olds } }

/-- A frame's old contents leave the caches and the memory: nothing reads them any more (R98). -/
def clearFrame (s : State) (frame : Nat) : State :=
  let out := fun (a : Nat) => a / 65536 ≠ frame / 65536
  let s := s.mapOlds fun a => if out a then some a else none
  let stays := fun (m : Msg) => match m.body with
    | .data line _ => out line
    | _ => true
  { s with
    -- a reply that nothing waits for, to a prefetch, brings the old contents no more
    flight := s.flight.filter stays
    l2 := s.l2.filter fun e => out e.1
    cores := s.cores.map fun e => (e.1, { e.2 with l0 := e.2.l0.filter fun w => out w.1 })
    mem := s.mem.filter fun c => out c.1
    marks := s.marks.filter out
    owners := s.owners.filter fun o => out o.1
    sharers := s.sharers.filter fun o => out o.1
    l1s := s.l1s.map fun e => (e.1, { e.2 with words := e.2.words.filter fun w => out w.1 }) }

/-- Bytes and marks of a page copied to a frame, through its home slices. -/
def copyPage (s : State) (page frame : Nat) : State :=
  let f := moveAddr page frame
  { s with
    l2 := ((linesOf frame 65536).foldl (noteL2 · true) s).l2
    mem := (s.mem.filter fun c => c.1 / 65536 = page).foldl (fun m c => writeByte m (f c.1) c.2) s.mem
    marks := (s.marks.filter fun a => a / 65536 = page).foldl (fun l a => insertBy id (f a) l) s.marks }

/-- A leaf with the new FRAME, and the other bits as they were. -/
def moveLeaf (page frame e : Nat) : Nat :=
  e % 4096 + moveAddr page frame (bits e 51 12 * 4096) + e / 2 ^ 52 * 2 ^ 52

/-- What is on its way, pending or buffered follows the page. -/
def followPage (s : State) (f : Nat → Nat) : State :=
  { s.mapOlds (fun a => some (f a)) with
    flight := s.flight.map fun m => { m with body := moveBody f m.body }
    l1s := s.l1s.map fun e => (e.1, moveL1 f e.2)
    loads := s.loads.map fun q => if q.kind = 3 then q else { q with pa := f q.pa }
    lands := (s.mapOlds fun a => some (f a)).lands.map fun l => { l with pa := f l.pa }
    scatter := s.scatter.map fun c =>
      let pa := f c.2.pa
      (if pa = c.2.pa then c.1 else 64 * bits pa 39 38 + sliceOf pa, { c.2 with pa := pa }) }

/-- A held request answered with RETRY (R97 step 6): its requester sends it to the new home. A way back that is down
fails it. Host snoops, evictions and the accesses of peers have no requester to ask. -/
def answerHeld (d h line : Nat) (s : State) (req : HomeReq) : State :=
  let send := fun (c : Nat) (fail : State → Nat → State) => match s.routeFail d (c / 16) with
    | some u => fail s u
    | none => s.post (chanDown c h) d (c / 16) (.retry line req)
  let here := fun (c : Nat) (b : Nat → Body) (s : State) (u : Nat) => s.post (chanDown c h) (c / 16) (c / 16) (b u)
  match req with
  | .gets c ws => send c (here c fun u => .loadFail line ws cLINK u)
  | .geto c ws _ => send c (here c fun _ => .storeFail line ws cLINK none)
  | .ldt r =>
    let c := (s.group r.g).kind.cluster
    if r.ticket ≠ 0 then s.arrive line req
    else send c (here c fun u => .ticket r.g r.t r.id 0 (some { cause := cLINK, addr := r.va, aux := u }))
  | .atom (r :: rs) => match s.askerOf req with
    | some c => send c fun s u => (r :: rs).foldl (fun s r =>
        s.post (chanDown c h) (c / 16) (c / 16) (.atomr r 0 (some { cause := cLINK, addr := r.va, aux := u }))) s
    | none => s.arrive line req
  | _ => s

end State

/-- PAGE_MOVE_COMPLETE: every line is quiet; the page is copied, its leaves rewritten and shot down, and the held
requests answered. -/
def execPageMoveComplete (k : Nat) (s : State) : Host.Outcome State Fault Refusal :=
  match s.moves.find? fun m => m.id = k with
  | none => .next s
  | some m =>
    if m.left ≠ [] || m.at_ + 65536 < s.cycle then .next s
    else
      let f := moveAddr m.page m.frame
      let d := pageDie m.page
      let mine := fun (x : Tx) => x.line / 65536 = m.page
      let held := (s.txs.filter mine).map fun x => (x.line, x.queue)
      let leaves := leavesOf s m.page
      let s := (s.clearFrame m.frame).copyPage m.page m.frame
      let s := leaves.foldl (fun s x => s.homeWrite x.1 (toBytes 8 (State.moveLeaf m.page m.frame x.2.2))) s
      let s := ({ s with
        txs := s.txs.filter fun x => !mine x
        tlb := s.tlb.filter fun e => e.pa / 65536 ≠ m.page
        moves := s.moves.filter fun y => y.id ≠ k
        moved := s.moved ++ [(m.frame / 65536, s.cycle / 2 ^ 20)] } : State).followPage f
      .next (held.foldl (fun s x => (x.2.map (moveReq f)).foldl
        (State.answerHeld d (64 * d + sliceOf x.1) (f x.1)) s) s)

/-- A request of an abandoned move becomes an eviction of the line, which recalls and invalidates the same. -/
def dropMove (k : Nat) : HomeReq → HomeReq
  | .move j => if j = k then .evict else .move j
  | r => r

/-- PAGE_MOVE_ABANDON: 65,536 clocks have passed; the held requests are served at the old home. -/
def execPageMoveAbandon (k : Nat) (s : State) : Host.Outcome State Fault Refusal :=
  match s.moves.find? fun m => m.id = k with
  | none => .next s
  | some m =>
    if s.cycle ≤ m.at_ + 65536 then .next s
    else
      let free := fun (x : Tx) => { x with req := dropMove k x.req, queue := x.queue.map (dropMove k) }
      let s := { s.modDie m.die fun D => { D with frees := m.frame :: D.frees } with
        moves := s.moves.filter fun y => y.id ≠ k
        txs := s.txs.map free }
      .next ((pageLines m.page).foldl (fun s line => s.resumeTx line) s)

end Sys2Proof.Machine
end

