-- ==== Sys2Proof/Machine/HostLink.lean ====
section
/-! DEFINITION. Uncached accesses at their target (R90), and the traffic of the Floler Link ports: host atomics,
snoops, and accesses of the host and of peers to the package (R124, R314, R315, R388). -/

namespace Sys2Proof.Machine
namespace State

/-- An uncached load performed at its target; its value goes back to the issuing group. -/
def answerLoad (s : State) (m : Msg) (g t id pa size : Nat) : State :=
  let rcb := (s.group g).rcb
  let s := s.countAccess pa m.src rcb
  let va := ((s.loads.find? fun q => q.id = id).map LoadReq.va).getD 0
  match s.uncachedRead m.src pa size with
  | .error f => s.post (chanBack g) m.dst m.src (.uvalue g t id [] (some { cause := f.1, addr := va, aux := f.2 }))
  | .ok bs => s.post (chanBack g) m.dst m.src (.uvalue g t id bs none)

/-- The value of an uncached load reaches its thread. -/
def takeUncached (s : State) (id : Nat) (bs : List Byte) (fail : Option TrapInfo) : State :=
  match s.loads.find? fun q => q.id = id, fail with
  | none, _ => s
  | some q, some ti => s.failReply q ti
  | some q, none => s.finishLoad q bs

end State

/-- UNCACHED_ACCESS: message n performs its load or store at the home or target, or brings a load's value; stores
to device registers have steps of their own (R90, R310). -/
def execUncachedAccess (n : Nat) (s : State) : Host.Outcome State Fault Refusal := match s.take n with
  | some (m, s') => match m.body with
    | .uload g t id pa size => if s.lineFree pa size then .next (s'.answerLoad m g t id pa size) else .next s
    | .uvalue _ _ id bs fail => .next (s'.takeUncached id bs fail)
    | .ustore pa bs who => match s.target m.dst pa with
      | .dev .. => .next s
      | _ =>
        if s.lineFree pa bs.length then match s'.accessFail m.src pa with
          | some _ => .next (s'.post m.chan m.src m.src (.storeFail pa (wordsIn pa bs.length) cLINK (some who)))
          | none => .next ((s'.countAccess pa m.src who.rcb).homeWrite pa bs)
        else .next s
    | _ => .next s
  | none => .next s

/-! ## Host and peer memory -/

/-- The failure of an atomic, for its issuer. -/
def failAtom (s : State) (m : Msg) (r : AtomReq) (cause aux : Nat) : State := match r.sink with
  | .outside => s
  | .thread g t _ =>
    let k := (s.group g).kind
    s.post (chanDown k.cluster 0 + 4 * 2 ^ 20 * (t + 1)) m.dst k.die
      (.atomr r 0 (some { cause := cause, addr := r.va, aux := aux }))
  | .record w .. =>
    s.post (chanWait 64 w.rcb) m.src m.src (.atomr r 0 (some { cause := cause, addr := r.va, aux := aux }))

/-- The device does not get the host line that it asked for: the request in hand for the line ends (R124, R388). -/
def dropAsk (s : State) (rs : List AtomReq) : State := match rs with
  | [] => s
  | r :: _ =>
    let line := lineOf r.pa
    (s.modTx line fun x => { x with req := .atom [], asked := false }).resumeTx line

/-- Atomics that their agent turns away: each fails, and a host line that the device asked for is not held (R124,
R388). -/
def denyAtoms (s : State) (m : Msg) (rs : List AtomReq) (own : Bool) (cause aux : Nat) : State :=
  let s := rs.foldl (fun s r => failAtom s m r cause aux) s
  if own then dropAsk s rs else s

/-- Atomics that their agent performs, or for which it gives the device the host line: the device then performs them,
and those queued behind them, before it gives the line back (R124, R315). -/
def grantAtoms (s : State) (m : Msg) (rs : List AtomReq) (own : Bool) : State := match own, rs with
  | true, r :: _ =>
    let line := lineOf r.pa
    (s.modTx line fun x => { x with asked := false, held := true }).resumeTx line
  | _, _ => rs.foldl (fun s r => s.performAtom m.dst r) s

/-- HOST_ATOMIC: message n, atomics on host memory, are performed by the host or in the line that it gives the device,
or refused, which is the host's free choice (R124, R388; log entry 2); those on peer memory are performed at the
peer (R315). -/
def execHostAtomic (n : Nat) (s : State) : Host.Outcome State Fault Refusal := match s.take n with
  | some (m, s') => match m.body with
    | .hostAtom [] _ => .next s'
    | .hostAtom (r :: rs) own => match s'.accessFail m.dst r.pa with
      | some u => .next (denyAtoms s' m (r :: rs) own cLINK u)
      | none => match s'.target m.dst r.pa with
        | .host _ =>
          let (deny, s') := s'.freeBit
          .next (if deny then denyAtoms s' m (r :: rs) own cHOSTDENY 0 else grantAtoms s' m (r :: rs) own)
        | _ => .next (grantAtoms s' m (r :: rs) own)
    | _ => .next s
  | none => .next s

/-- The port is up, and its die has been released (R320). -/
def portUp (s : State) (p : Nat) : Bool := p < 4 && bit s.links p && s.running p

/-- HOST_SNOOP: the device home of a host line recalls or invalidates it in the package, and responds (R314). The line
has the first die of its partition above its 52 bits, so that its port is known (R319). -/
def execHostSnoop (pa : Nat) (excl : Bool) (s : State) : Host.Outcome State Fault Refusal :=
  let d := pa / 2 ^ 52
  if d < 4 && s.ownAddr d pa = pa then
    match s.target d pa with
    | .host p => if portUp s p then .next (s.arrive (lineOf pa) (.snoop excl)) else .next s
    | _ => .next s
  else .next s

/-- The channel of a port's accesses to one page (R314). -/
def chanPort (p pa : Nat) : Nat := chanPage (2 ^ 41 + p) (pa / 4096)

/-- An access of the host or a peer lies in one aligned line. -/
def oneLine (pa n : Nat) : Bool := n ≠ 0 && pa / 128 = (pa + n - 1) / 128

/-- What the host or a peer reads, or that its access fails. -/
def answerOutside (s : State) (p pa n : Nat) : State := match s.uncachedRead p pa n with
  | .ok bs => s.notify (.value p pa (some bs))
  | .error _ => s.notify (.value p pa none)

/-- A store of the host or a peer to HBM4, performed at the home slice; one that needs a down link fails (R316). -/
def storeOutside (s : State) (p pa : Nat) (bs : List Byte) : State :=
  if (s.accessFail p pa).isSome then s.notify (.value p pa none) else s.homeWrite pa bs

/-- HOST_ACCESS: a load, or a store of bytes, through a host port to device memory or a device-register page,
performed at the target as uncached, in order within a page (R311, R314). A die in reset serves none (R320). -/
def execHostAccess (port pa size : Nat) (store : Option (List Byte)) (s : State) :
    Host.Outcome State Fault Refusal :=
  let n := match store with
    | some bs => bs.length
    | none => size
  let busy := s.flight.any fun m => m.chan = chanPort port pa
  if !portUp s port || !s.hostPorts.contains port || !oneLine pa n || !s.running (s.homeDie port pa) then .next s
  else match s.target port pa, store with
    | .hbm _, some bs =>
      if s.lineFree pa n && !busy then .next (storeOutside s port pa bs) else .next s
    | .hbm _, none => if s.lineFree pa n && !busy then .next (answerOutside s port pa n) else .next s
    | .dev unit _ _, some bs =>
      .next (if (s.accessFail port pa).isNone then s.post (chanPort port pa) port (unit / 16384) (.ustore pa bs {})
        else s.notify (.value port pa none))
    | .dev .., none => if busy then .next s else .next (answerOutside s port pa n)
    | _, _ => .next s

/-- PEER_ACCESS: a load, a store or an atomic of a peer package on HBM4, performed at the home slice (R315). The
operands of an atomic are the bytes of the store: the operand, and for a compare-and-swap the value compared. -/
def execPeerAccess (port pa size : Nat) (store : Option (List Byte)) (rmw : Option (AtomOp × Bool)) (s : State) :
    Host.Outcome State Fault Refusal :=
  let n := match store, rmw with
    | some bs, none => bs.length
    | _, _ => size
  if !portUp s port || port = 0 || s.hostPorts.contains port || !oneLine pa n || !s.lineFree pa n
    || !s.running (s.homeDie port pa) then .next s
  else match s.target port pa with
    | .hbm e =>
      if (s.accessFail port pa).isSome then .next (s.notify (.value port pa none))
      else match rmw, store with
      | some (op, sg), some bs =>
        if (n = 4 || n = 8) && pa % n = 0 then
          let r : AtomReq :=
            { pa := pa, va := pa, width := n, op := op, signed := sg, b := ofBytes (bs.take n)
              e := ofBytes ((bs.drop n).take n), mo := {}, sink := .outside }
          .next ((answerOutside s port pa n).performAtom e r)
        else .next s
      | some _, none => .next s
      | none, some bs => .next (s.homeWrite pa bs)
      | none, none => .next (answerOutside s port pa n)
    | _ => .next s

end Sys2Proof.Machine
end

