-- ==== Sys2Proof/Machine/Links.lean ====
section
/-! DEFINITION. A link that goes down (R316, R378, R387, R388, R390, R410, R411). -/

namespace Sys2Proof.Machine

/-- The ends of a UCIe link, and the unit of a link (R15, R26, R411). -/
def linkEnds (link : Nat) : Nat × Nat := match link with
  | 4 => (0, 1)
  | 5 => (0, 2)
  | 6 => (1, 3)
  | 7 => (2, 3)
  | p => (p, p)

/-- The unit of a link at one of its ends, a, whose other end is b. -/
def linkUnitAt (link a b : Nat) : Nat :=
  if link < 4 then unitDie a 80 else unitDie a ((((hops a b).head?).map fun h => h.2.2).getD 72)

/-- The die that reports a link's failure, the lower-numbered end, and the link's unit there (log entry 24). -/
def linkUnit (link : Nat) : Nat × Nat :=
  let (a, b) := linkEnds link
  (a, linkUnitAt link a b)

namespace State

/-- The port that an uncached access, an LDT, or an atomic at its agent, uses. -/
def portOf (s : State) (m : Msg) : Option Nat :=
  let at_ := fun (pa : Nat) => match s.target m.dst pa with
    | .host p | .peer p => some p
    | _ => none
  match m.body with
  | .uload _ _ _ pa _ => at_ pa
  | .ustore pa _ _ => at_ pa
  | .hostAtom (r :: _) _ => at_ r.pa
  | .ldt r | .retry _ (.ldt r) => at_ r.pa
  | _ => none

/-- A message in flight on a link. -/
def crosses (s : State) (link : Nat) (m : Msg) : Bool :=
  if link < 4 then s.portOf m = some link else (hops m.src m.dst).any fun h => h.2.1 = link

/-- An atomic lost on its way out: that of a JOIN may have been performed, which is a free choice (R378; log
entry 2). -/
def lostAtom (m : Msg) (u : Nat) (s : State) (r : AtomReq) : State :=
  let s := if s.isJoin r then
      let (b, s) := s.freeBit
      if b && !s.markedIn r.pa 4 then
        s.homeWriteNat r.pa 4 ((s.homeNat r.pa 4 + 2 ^ 32 - 1) % 2 ^ 32)
      else s
    else s
  failAtom s m r cLINK u

/-- A contribution that its link loses fails under SOURCE 7; where its entry's records find no room, the entry waits
for it (R351, R355). -/
def lostContribution (s : State) (m : Msg) (u : Nat) (c : Contribution) : State :=
  let slice := 64 * m.dst + sliceOf c.pa
  let s := countOff s slice c (some (c.item, { cause := cLINK, addr := c.va, aux := u }))
  s.orFull c.who.rcb (endGrads s c.req)

/-- An item in flight on the link when it fails: reported with LINK_FAILURE, or complete (R316, R384, R387). The
messages of coherence are settled with their lines. -/
def loseItem (u : Nat) (s : State) (m : Msg) : State :=
  let here := fun (d : Nat) (b : Body) => s.post m.chan d d b
  let fail := fun (va : Nat) => some ({ cause := cLINK, addr := va, aux := u } : TrapInfo)
  let vaOf := fun (id : Nat) => ((s.loads.find? fun q => q.id = id).map LoadReq.va).getD 0
  match m.body with
  | .atom rs | .retry _ (.atom rs) => rs.foldl (lostAtom m u) s
  | .hostAtom rs own => if own then denyAtoms s m rs true cLINK u else rs.foldl (lostAtom m u) s
  | .atomr r old _ => here m.dst (.atomr r old (fail r.va))
  | .uload g t id _ _ => here m.src (.uvalue g t id [] (fail (vaOf id)))
  | .uvalue g t id _ _ => here m.dst (.uvalue g t id [] (fail (vaOf id)))
  | .ustore pa bs w =>
    if w.rcb = 0 then s.notify (.value m.src pa none)
    else here m.src (.storeFail pa (wordsIn pa bs.length) cLINK (some w))
  | .ldt r => here m.src (.ticket r.g r.t r.id 0 (fail r.va))
  | .retry _ (.ldt r) => here m.dst (.ticket r.g r.t r.id 0 (fail r.va))
  | .ticket g t id _ _ => here m.dst (.ticket g t id 0 (fail (vaOf id)))
  | .redeem g t id k _ spm drop => if drop then s else here m.src (.payload g t id k [] spm (fail 0))
  | .payload g t id k _ spm f =>
    let s := if f.isNone then s.freeTicket (ticketSlot k) .delivered else s
    s.post m.chan m.dst m.dst (.payload g t id k [] spm (fail 0))
  | .hgs c => s.lostContribution m u c
  | .message _ | .stitch .. => { s with flight := s.flight ++ [m] }
  | _ => s

/-! ## Lines whose home is out of a cluster's reach (R390) -/

/-- A message of the protocol between a cluster and a line. -/
def lineMsg (hit : Nat → Bool) (c : Nat) (m : Msg) : Bool := chanCluster m.chan = c && match m.body with
  | .gets l _ _ | .geto l _ _ _ | .data l _ | .grant l _ _ _ | .inv l _ | .iack l _ _ | .recallMsg l _ _ _ | .wb l _
  | .wback l _ | .loadFail l _ _ _ | .storeFail l _ _ none => hit l
  | .retry l (.gets _ _) | .retry l (.geto _ _ _) => hit l
  | _ => false

/-- A request of a cluster waits at a home no longer; one in hand becomes an eviction. -/
def dropAsker (c : Nat) (r : HomeReq) : Bool := match r with
  | .gets k _ | .geto k _ _ => k = c
  | _ => false

/-- A home's transactions without a cluster that cannot answer. -/
def forgetCluster (hit : Nat → Bool) (c : Nat) (x : Tx) : Tx :=
  if hit x.line then
    { x with req := if dropAsker c x.req then .evict else x.req
             acks := x.acks.filter (· ≠ c), recalls := x.recalls.filter fun p => p.1 ≠ c
             queue := x.queue.filter fun r => !dropAsker c r }
  else x

/-- A cluster and the homes of a set of lines no longer reach each other: the homes mark its owned words and forget
it; the cluster drops what it holds of those lines; its pending stores and loads there fail (R379, R387, R390). -/
def sever (s : State) (c u : Nat) (hit : Nat → Bool) : State :=
  let mine := (s.owners.filter fun o => o.2.cluster = c && hit (lineOf o.1)).map Prod.fst
  let s := s.loseWords mine
  let words := (s.l1 c).words.filter fun e => hit (lineOf e.1)
  let pending := (words.filter fun e => !e.2.owned && e.2.dirty ≠ 0#4).map Prod.fst
  let loads := (s.loads.filter fun q => q.kind = 0 && hit (lineOf q.pa) && (s.group q.g).kind.cluster = c
    && !s.isUncached q.id).map fun q => lineOf q.pa
  let s : State := { s with
    sharers := s.sharers.map fun e => if hit e.1 then (e.1, e.2.filter (· ≠ c)) else e
    flight := s.flight.filter fun m => !lineMsg hit c m
    txs := s.txs.map (forgetCluster hit c) }
  let send := fun (r : Replay) => if r.words.any fun wa => hit (lineOf wa) then { r with sent := true } else r
  let cut := fun (l : L1) =>
    { l with words := l.words.filter fun e => !hit (lineOf e.1)
             hand := l.hand.filter fun h => !hit (lineOf h.word)
             asked := l.asked.filter fun wa => !hit (lineOf wa), replay := l.replay.map send }
  let s := (s.modL1 c cut).dropL0 c (words.map Prod.fst)
  let d := c / 16
  let back := fun (s : State) (line : Nat) (b : Body) => s.post (chanDown c (s.homeSlice d line)) d d b
  let s := ((pending.map lineOf).eraseDups).foldl (fun s l =>
    back s l (.storeFail l (pending.filter fun wa => lineOf wa = l) cLINK none)) s
  (loads.eraseDups.foldl (fun s l => back s l (.loadFail l [] cLINK u)) s).l1Advance c

/-- Every line's transaction goes on. -/
def resumeAll (s : State) : State := (s.txs.map Tx.line).foldl (fun s line => s.resumeTx line) s

/-- The lines that a cluster reaches no more through a link, with the failed link's unit on its way. -/
def severed (s : State) (link c line : Nat) : Bool := match s.target (c / 16) line with
  | .host p => if link < 4 then p = link else (s.pairFail (c / 16) p).isSome
  | .hbm d => 4 ≤ link && (s.pairFail (c / 16) d).isSome
  | _ => false

/-- A port that fails ends the device's hold on a host line: the atomics that wait for it fail, and the words that others
have acted on are lost (R388, R390). -/
def endHold (u : Nat) (s : State) (x : Tx) : State :=
  let d := s.dieOfLine x.line
  let m : Msg := { chan := 0, src := d, dst := d, body := .hostAtom [] false }
  let rs := (x.req :: x.queue).flatMap State.reqAtoms
  let s := s.loseWords x.wrote
  let s := s.modTx x.line fun y =>
    { y with req := if isAtom y.req then .atom [] else y.req, queue := y.queue.filter fun q => !isAtom q
             held := false, wrote := [] }
  rs.foldl (fun s r => failAtom s m r cLINK u) s

/-- Everything in the package that a link's failure touches. -/
def breakLink (s : State) (link : Nat) : State :=
  let u := (linkUnit link).2
  let lost := s.flight.filter fun m => s.crosses link m
  let kept := s.flight.filter fun m => !s.crosses link m
  let s := { s with flight := kept, links := s.links - 2 ^ link }
  let s := (upTo 64).foldl (fun s c => s.sever c u (s.severed link c)) s
  let held := s.txs.filter fun x => x.held && link < 4 && s.target (s.dieOfLine x.line) x.line = .host link
  (held.foldl (endHold u) (lost.foldl (loseItem u) s)).resumeAll

end State

/-- LINK_DOWN: a Floler Link port (0 to 3) or a UCIe link (4 to 7) fails and stays down until package reset. -/
def execLinkDown (link : Nat) (s : State) : Host.Outcome State Fault Refusal :=
  if link < 8 ∧ bit s.links link then
    let (a, b) := linkEnds link
    let s' := systemEvent (s.breakLink link) a 1 cLINK (linkUnitAt link a b)
    -- where the two ends lie in different partitions, each is affected (R319, R410)
    .next (if s.together a b then s' else systemEvent s' b 1 cLINK (linkUnitAt link b a))
  else .next s

end Sys2Proof.Machine
end

