-- ==== Sys2Proof/Machine/Package.lean ====
section
/-! DEFINITION. Reset, boot, partitions, board management and power (R315, R318 to R323, R412, R413). -/

namespace Sys2Proof.Machine

/-! ## Power (R323) -/

/-- The clock after a measurement of average power and the hottest sensor: a step of 100 MHz down or up. -/
def nextClock (mhz watts temp : Nat) : Nat :=
  if 2400 < watts ∨ 95 < temp then Nat.max 800 (mhz - 100) else Nat.min 1500 (mhz + 100)

/-- POWER_MEASUREMENT: the values stand for the board manager (R322); the clock moves one step and the change is
reported; above 105 °C the package stops. -/
def execPowerMeasurement (watts10ms tempC : Nat) (s : State) : Host.Outcome State Fault Refusal :=
  let s := { s with watts := watts10ms, temp := tempC }
  let mhz := nextClock s.mhz watts10ms tempC
  let s' := if mhz = s.mhz then s else { s with mhz := mhz }.notify (.clock mhz)
  .next (if 105 < tempC then { s' with stopped := true }.notify .stopped else s')

/-! ## Reset and boot (R319, R320, R412) -/

/-- PACKAGE_RESET: the package as after reset, divided as the board manager named it; the memory of the host and of
peers, and what the model keeps for itself, stand (log entries 1 to 3). -/
def execPackageReset (s : State) : Host.Outcome State Fault Refusal :=
  .next { State.reset with
    agenda := s.agenda, free := s.free, nextKey := s.nextKey, notices := s.notices
    watts := s.watts, temp := s.temp
    mem := s.mem.filter fun c => 2 ^ 40 ≤ c.1
    marks := s.marks.filter fun a => 2 ^ 40 ≤ a
    division := s.nextDivision, nextDivision := s.nextDivision
    hostPorts := s.nextPorts, nextPorts := s.nextPorts }

/-- A measurement register extended by a digest (R320). -/
def extendM (m digest : List Byte) : List Byte := Config.shake256 (m ++ digest) 64

/-- A die whose checks have passed. -/
def State.verified (s : State) (d : Nat) : Bool := (s.die d).status ≤ 1

/-- A measurement register after the image keys that have been enrolled (R320). -/
def measureKeys (m : List Byte) (keys : List (List Byte)) : List Byte :=
  keys.foldl (fun m key => extendM m (Config.shake256 key 32)) m

/-- The HBM4 of dies cleared (R320). -/
def clearDies (s : State) (ds : List Nat) : State :=
  let out := fun (a : Nat) => 2 ^ 40 ≤ a || !ds.contains (a / 2 ^ 38)
  { s with mem := s.mem.filter fun c => out c.1, marks := s.marks.filter out, l2 := s.l2.filter fun e => out e.1 }

/-- The status code with which a die's ROM and firmware answer, or none (R412). -/
def bootStatus (d : Nat) : Nat := at0 [0x01, 0x10, 0x11, 0x12, 0x20, 0x21, 0xFF] ((Config.bootCode d).toNat % 7)

/-- The measurement register of die d when it answers with a code: nothing is measured before the firmware's checks have
passed; an image that fails ends it; links and stacks are trained after the keys and the division (R320, R412). -/
def bootMeasure (s : State) (d : Nat) (m : List Byte) : List Byte := match bootStatus d with
  | 0x01 => measureKeys (Config.bootDigests.foldl extendM m) s.keys
  | 0x12 => (Config.bootDigests.take (1 + (Config.bootImages d).toNat)).foldl extendM m
  | 0x20 | 0x21 =>
    extendM (measureKeys (Config.bootDigests.foldl extendM m) s.keys) (Config.divisionDigest s.division)
  | _ => m

/-- DIE_RELEASE: a die answers with its status code once its ROM has made its checks; a verified die is released when die 0
and every die of its partition are verified, and before the first of a partition its memory is cleared
(R320, R412; log entry 7). -/
def execDieRelease (d : Nat) (s : State) : Host.Outcome State Fault Refusal :=
  let D := s.die d
  if 4 ≤ d then .next s
  else if D.status = 0xFF then
    if bootStatus d = 0xFF then .next s
    else .next (s.modDie d fun D => { D with status := bootStatus d, m := bootMeasure s d D.m })
  else if D.status = 1 && s.verified 0 && (s.partitionDies d).all s.verified then
    let s := if (s.partitionDies d).all fun e => (s.die e).status ≠ 0 then clearDies s (s.partitionDies d) else s
    .next (s.modDie d fun D => { D with status := 0, m := extendM D.m (Config.divisionDigest s.division) })
  else .next s

/-- IMAGE_KEY_ENROLMENT: while the dies await release, a key joins those that verify images and is measured. -/
def execImageKeyEnrolment (key : List Byte) (s : State) : Host.Outcome State Fault Refusal :=
  if (s.die 0).status = 1 then
    let measure := fun (s : State) (d : Nat) =>
      if (s.die d).status = 1 then s.modDie d fun D => { D with m := measureKeys D.m [key] } else s
    .next ((upTo 4).foldl measure { s with keys := s.keys ++ [key] })
  else .next s

/-- I3C_PRIVATE_READ: the status bytes of dies 0 to 3 (R412), the power and temperature (R322), and the counts of
corrected errors (R358). -/
def execI3cPrivateRead (s : State) : Host.Outcome State Fault Refusal :=
  let s' := (s.notify (.status ((upTo 4).map fun d => (s.die d).status))).notify (.power s.watts s.temp)
  .next ((upTo 4).foldl (fun s' d => s'.notify (.corrected d (s.die d).corrected)) s')

/-! ## The board manager (R319, R321, R322) -/

/-- The divisions that R319 allows, as die masks. -/
def divisions : List (List Nat) :=
  [[0xF], [0x3, 0xC], [0x5, 0xA], [0x3, 0x4, 0x8], [0x2, 0x5, 0x8], [0x1, 0x4, 0xA], [0x1, 0x2, 0xC]
   , [0x1, 0x2, 0x4, 0x8]]

/-- A division is allowed, and every partition has a host port on its dies; in an undivided package ports 0, or 0 and
1, are host ports (R314, R319). -/
def divisionOk (parts ports : List Nat) : Bool :=
  divisions.contains (sortBy id parts) && ports.all (· < 4)
    && (if parts.length = 1 then sortBy id ports = [0] || sortBy id ports = [0, 1]
        else parts.all fun m => ports.any fun p => bit m p)

/-- PARTITION_CONFIGURATION: the division and host ports of the next reset. -/
def execPartitionConfiguration (parts hostPorts : List Nat) (s : State) : Host.Outcome State Fault Refusal :=
  if divisionOk parts hostPorts then .next { s with nextDivision := parts, nextPorts := hostPorts } else .next s

/-- I3C_ATTESTATION_REQUEST: die 0's management core starts a report; the request waits while an earlier report is
being written. -/
def execI3cAttestationRequest (nonce : List Byte) (dest : Nat) (s : State) : Host.Outcome State Fault Refusal :=
  if nonce.length = 32 && (s.die 0).reporting.isNone then
    .next (s.modDie 0 fun D => { D with reporting := some (nonce, dest) })
  else .next s

/-- CAPABILITY_WORD: NATOP, given while the links train, before the dies are released (R315, R320). DESIGN CHOICE (log
entry 134): one word stands for the host agents of all partitions of a divided package. -/
def execCapabilityWord (w : Word) (s : State) : Host.Outcome State Fault Refusal :=
  if (s.die 0).status ≠ 0 then .next { s with natop := w.toNat % 64 } else .next s

/-- REFRESH_MANAGEMENT_REQUEST: the device answers the stack, and no value changes (R318). -/
def execRefreshManagementRequest (_die _stack : Nat) (s : State) : Host.Outcome State Fault Refusal := .next s

end Sys2Proof.Machine
end

