-- ==== Sys2Proof/Machine/Traps.lean ====
section
/-! DEFINITION. The rows of traps that no instruction issues: reply traps (R345, R378), and trap areas that stay
full (R351). -/

namespace Sys2Proof.Machine

/-- REPLY_TRAP: at its next instruction boundary a thread traps for its first failed reply, or completes a trap
whose record waited for room (R351, R378). A thread that waits for a stitched thread's results, or for the reply of a RET
or JOIN, is at no boundary. -/
def execReplyTrap (g t : Nat) (s : State) : Host.Outcome State Fault Refusal :=
  let h := s.thread g t
  if s.halted g then .next s
  else match h.held, h.failed with
    | some f, _ =>
      let r := if f.nested then s.nestedTrap g t f else s.recordTrap g t f
      .next (r.1.doomAll r.2)
    | none, f :: _ =>
      if (h.slot = .live || h.slot = .trapped) && h.wait ≠ some .stitched && h.wait ≠ some .reply then
        let r := s.trapWith g t f.info (BitVec.ofNat 64 f.pc) f.words h.pc
        .next (r.1.doomAll r.2)
      else .next s
    | none, [] => .next s

/-- The records of a region that wait for room, written in order while there is room. -/
def writeUntold (s : State) (rcb : Nat) : State :=
  (s.untold.filter fun x => x.rcb = rcb).foldl (fun s x =>
    match s.reportAt x.d rcb x.at_ x.head x.tail with
    | .ok s' => { s' with untold := s'.untold.erase x }
    | .error _ => s) s

/-- TRAP_AREA_TIMEOUT: the waiting writers of a region read RDPOS again; once 65,536 clocks have passed without
room, the domain is aborted (R351, R424), and the writers of a domain that is aborted already wait no longer. -/
def execTrapAreaTimeout (rcb : Nat) (s : State) : Host.Outcome State Fault Refusal :=
  let late := (s.region rcb).full.find? fun w => w.since + 65536 ≤ s.cycle
  match (s.region rcb).full, late with
  | [], _ => .next s
  | _, late =>
    if s.areaRoom rcb then
      .next ((writeUntold s rcb).modRegion rcb fun r =>
        { r with full := r.full.map fun w => { w with since := s.cycle } })
    else match late with
    | none => .next s
    | some w =>
      if (s.region rcb).abort.isSome then
        let s := s.modRegion rcb fun r => { r with mute := true, full := [] }
        .next { s with untold := s.untold.filter fun x => x.rcb ≠ rcb }
      else .next (s.abort (w.head.unit / 16384) rcb w.head.cause w.head 2 0 (s.trapArea rcb) 0)

end Sys2Proof.Machine
end

