-- ==== Sys2Proof/Machine/Dispatch.lean ====
section
/-! DEFINITION. One arm per constructor of `Instr`: a direct call of its meaning. -/

namespace Sys2Proof.Machine

/-- The meaning of an instruction, or of a step of another agent. -/
def exec (i : Instr) (s : State) : Host.Outcome State Fault Refusal :=
  match i with
  | .add ty d a b => Sys2Proof.Machine.execAdd ty d a b s
  | .sub ty d a b => Sys2Proof.Machine.execSub ty d a b s
  | .mul ty d a b => Sys2Proof.Machine.execMul ty d a b s
  | .mulhi ty d a b => Sys2Proof.Machine.execMulhi ty d a b s
  | .mad ty d a b => Sys2Proof.Machine.execMad ty d a b s
  | .div ty d a b => Sys2Proof.Machine.execDiv ty d a b s
  | .rem ty d a b => Sys2Proof.Machine.execRem ty d a b s
  | .min ty d a b => Sys2Proof.Machine.execMin ty d a b s
  | .max ty d a b => Sys2Proof.Machine.execMax ty d a b s
  | .abs ty d a => Sys2Proof.Machine.execAbs ty d a s
  | .neg ty d a => Sys2Proof.Machine.execNeg ty d a s
  | .and ty d a b => Sys2Proof.Machine.execAnd ty d a b s
  | .or ty d a b => Sys2Proof.Machine.execOr ty d a b s
  | .xor ty d a b => Sys2Proof.Machine.execXor ty d a b s
  | .andn ty d a b => Sys2Proof.Machine.execAndn ty d a b s
  | .shl ty d a b => Sys2Proof.Machine.execShl ty d a b s
  | .shr ty d a b => Sys2Proof.Machine.execShr ty d a b s
  | .sar ty d a b => Sys2Proof.Machine.execSar ty d a b s
  | .fshl ty d a b => Sys2Proof.Machine.execFshl ty d a b s
  | .fshr ty d a b => Sys2Proof.Machine.execFshr ty d a b s
  | .popc ty d a => Sys2Proof.Machine.execPopc ty d a s
  | .clz ty d a => Sys2Proof.Machine.execClz ty d a s
  | .ctz ty d a => Sys2Proof.Machine.execCtz ty d a s
  | .brev ty d a => Sys2Proof.Machine.execBrev ty d a s
  | .bfx ty d a b => Sys2Proof.Machine.execBfx ty d a b s
  | .bfi ty d a b => Sys2Proof.Machine.execBfi ty d a b s
  | .sext ty d a => Sys2Proof.Machine.execSext ty d a s
  | .zext ty d a => Sys2Proof.Machine.execZext ty d a s
  | .sel ty d a b c => Sys2Proof.Machine.execSel ty d a b c s
  | .mov ty d a => Sys2Proof.Machine.execMov ty d a s
  | .lea ty d a b => Sys2Proof.Machine.execLea ty d a b s
  | .cmp ty cc c a b => Sys2Proof.Machine.execCmp ty cc c a b s
  | .addi d a imm => Sys2Proof.Machine.execAddi d a imm s
  | .andi d a imm => Sys2Proof.Machine.execAndi d a imm s
  | .ori d a imm => Sys2Proof.Machine.execOri d a imm s
  | .xori d a imm => Sys2Proof.Machine.execXori d a imm s
  | .shli d a n => Sys2Proof.Machine.execShli d a n s
  | .shri d a n => Sys2Proof.Machine.execShri d a n s
  | .sari d a n => Sys2Proof.Machine.execSari d a n s
  | .cmpi ty cc c a imm => Sys2Proof.Machine.execCmpi ty cc c a imm s
  | .movi d imm => Sys2Proof.Machine.execMovi d imm s
  | .movhi d h => Sys2Proof.Machine.execMovhi d h s
  | .addpc d off => Sys2Proof.Machine.execAddpc d off s
  | .lut3 table d a b => Sys2Proof.Machine.execLut3 table d a b s
  | .bra off => Sys2Proof.Machine.execBra off s
  | .brc c off => Sys2Proof.Machine.execBrc c off s
  | .brcNot c off => Sys2Proof.Machine.execBrcNot c off s
  | .call off => Sys2Proof.Machine.execCall off s
  | .jmpr a => Sys2Proof.Machine.execJmpr a s
  | .callr a => Sys2Proof.Machine.execCallr a s
  | .ret => Sys2Proof.Machine.execRet s
  | .exit => Sys2Proof.Machine.execExit s
  | .yield => Sys2Proof.Machine.execYield s
  | .fork d a b => Sys2Proof.Machine.execFork d a b s
  | .join a => Sys2Proof.Machine.execJoin a s
  | .setwb n => Sys2Proof.Machine.execSetwb n s
  | .setkb n => Sys2Proof.Machine.execSetkb n s
  | .mjoin m => Sys2Proof.Machine.execMjoin m s
  | .mleave m => Sys2Proof.Machine.execMleave m s
  | .mwait m => Sys2Proof.Machine.execMwait m s
  | .mread d m => Sys2Proof.Machine.execMread d m s
  | .mwrite m a => Sys2Proof.Machine.execMwrite m a s
  | .voteAny d a => Sys2Proof.Machine.execVoteAny d a s
  | .voteAll d a => Sys2Proof.Machine.execVoteAll d a s
  | .voteBallot d a => Sys2Proof.Machine.execVoteBallot d a s
  | .shflIdx d a b => Sys2Proof.Machine.execShflIdx d a b s
  | .shflUp d a b => Sys2Proof.Machine.execShflUp d a b s
  | .shflDown d a b => Sys2Proof.Machine.execShflDown d a b s
  | .shflXor d a b => Sys2Proof.Machine.execShflXor d a b s
  | .plop d a b table => Sys2Proof.Machine.execPlop d a b table s
  | .bmov d a b => Sys2Proof.Machine.execBmov d a b s
  | .bfill d a b => Sys2Proof.Machine.execBfill d a b s
  | .migr id => Sys2Proof.Machine.execMigr id s
  | .ld mo d a off sz => Sys2Proof.Machine.execLd mo d a off sz s
  | .st mo d a off sz => Sys2Proof.Machine.execSt mo d a off sz s
  | .lds mo d a off sz => Sys2Proof.Machine.execLds mo d a off sz s
  | .sts mo d a off sz => Sys2Proof.Machine.execSts mo d a off sz s
  | .ldPointer mo d spm mode n sz => Sys2Proof.Machine.execLdPointer mo d spm mode n sz s
  | .stPointer mo d spm mode n sz => Sys2Proof.Machine.execStPointer mo d spm mode n sz s
  | .ldPf mo mode n sz => Sys2Proof.Machine.execLdPf mo mode n sz s
  | .ldc mo d a off sz => Sys2Proof.Machine.execLdc mo d a off sz s
  | .ldgs mo d a off sz => Sys2Proof.Machine.execLdgs mo d a off sz s
  | .waitf a => Sys2Proof.Machine.execWaitf a s
  | .sete a => Sys2Proof.Machine.execSete a s
  | .acpy mo q a => Sys2Proof.Machine.execAcpy mo q a s
  | .qjoin qs => Sys2Proof.Machine.execQjoin qs s
  | .qwait q a => Sys2Proof.Machine.execQwait q a s
  | .fence mo => Sys2Proof.Machine.execFence mo s
  | .bara a => Sys2Proof.Machine.execBara a s
  | .baraTx a b => Sys2Proof.Machine.execBaraTx a b s
  | .barw a b => Sys2Proof.Machine.execBarw a b s
  | .msend n a b => Sys2Proof.Machine.execMsend n a b s
  | .mrecv d a => Sys2Proof.Machine.execMrecv d a s
  | .mfree a => Sys2Proof.Machine.execMfree a s
  | .launch a => Sys2Proof.Machine.execLaunch a s
  | .stitch nr na1 a b => Sys2Proof.Machine.execStitch nr na1 a b s
  | .pfarm a => Sys2Proof.Machine.execPfarm a s
  | .pfstop a => Sys2Proof.Machine.execPfstop a s
  | .cflush a => Sys2Proof.Machine.execCflush a s
  | .ldt mo d a sz => Sys2Proof.Machine.execLdt mo d a sz s
  | .rdm d a => Sys2Proof.Machine.execRdm d a s
  | .rdmSpm d a => Sys2Proof.Machine.execRdmSpm d a s
  | .tkdrop a => Sys2Proof.Machine.execTkdrop a s
  | .atom mo ty op d a b => Sys2Proof.Machine.execAtom mo ty op d a b s
  | .atomSpm mo ty op d a b => Sys2Proof.Machine.execAtomSpm mo ty op d a b s
  | .red mo ty op a b => Sys2Proof.Machine.execRed mo ty op a b s
  | .redSpm mo ty op a b => Sys2Proof.Machine.execRedSpm mo ty op a b s
  | .fadd d a b => Sys2Proof.Machine.execFadd d a b s
  | .fsub d a b => Sys2Proof.Machine.execFsub d a b s
  | .fmul d a b => Sys2Proof.Machine.execFmul d a b s
  | .ffma d a b => Sys2Proof.Machine.execFfma d a b s
  | .fmin d a b => Sys2Proof.Machine.execFmin d a b s
  | .fmax d a b => Sys2Proof.Machine.execFmax d a b s
  | .fabs d a => Sys2Proof.Machine.execFabs d a s
  | .fneg d a => Sys2Proof.Machine.execFneg d a s
  | .fcmp cc c a b => Sys2Proof.Machine.execFcmp cc c a b s
  | .fclass d a => Sys2Proof.Machine.execFclass d a s
  | .fround m d a => Sys2Proof.Machine.execFround m d a s
  | .fdiv d a b => Sys2Proof.Machine.execFdiv d a b s
  | .frcp d a => Sys2Proof.Machine.execFrcp d a s
  | .frsq d a => Sys2Proof.Machine.execFrsq d a s
  | .fsqrt d a => Sys2Proof.Machine.execFsqrt d a s
  | .fexp2 d a => Sys2Proof.Machine.execFexp2 d a s
  | .flog2 d a => Sys2Proof.Machine.execFlog2 d a s
  | .fsin d a => Sys2Proof.Machine.execFsin d a s
  | .fcos d a => Sys2Proof.Machine.execFcos d a s
  | .f2i ty m d a => Sys2Proof.Machine.execF2i ty m d a s
  | .i2f ty d a => Sys2Proof.Machine.execI2f ty d a s
  | .cvtTo d a sn => Sys2Proof.Machine.execCvtTo d a sn s
  | .cvtFrom d a sn => Sys2Proof.Machine.execCvtFrom d a sn s
  | .pack d a sn => Sys2Proof.Machine.execPack d a sn s
  | .unpk d a sn => Sys2Proof.Machine.execUnpk d a sn s
  | .hadd2F16 d a b => Sys2Proof.Machine.execHadd2F16 d a b s
  | .hmul2F16 d a b => Sys2Proof.Machine.execHmul2F16 d a b s
  | .hfma2F16 d a b => Sys2Proof.Machine.execHfma2F16 d a b s
  | .hadd2Bf16 d a b => Sys2Proof.Machine.execHadd2Bf16 d a b s
  | .hmul2Bf16 d a b => Sys2Proof.Machine.execHmul2Bf16 d a b s
  | .hfma2Bf16 d a b => Sys2Proof.Machine.execHfma2Bf16 d a b s
  | .dot4 sn d a b => Sys2Proof.Machine.execDot4 sn d a b s
  | .dot4S8 d a b => Sys2Proof.Machine.execDot4S8 d a b s
  | .cdet d a => Sys2Proof.Machine.execCdet d a s
  | .scanIncF32 d a => Sys2Proof.Machine.execScanIncF32 d a s
  | .scanExcF32 d a => Sys2Proof.Machine.execScanExcF32 d a s
  | .scanIncS32 d a => Sys2Proof.Machine.execScanIncS32 d a s
  | .scanExcS32 d a => Sys2Proof.Machine.execScanExcS32 d a s
  | .merge d a b => Sys2Proof.Machine.execMerge d a b s
  | .mergeKz d a b => Sys2Proof.Machine.execMergeKz d a b s
  | .prune p sn d a => Sys2Proof.Machine.execPrune p sn d a s
  | .mma sa sb h a b t => Sys2Proof.Machine.execMma sa sb h a b t s
  | .mmaR sa sb h a b t => Sys2Proof.Machine.execMmaR sa sb h a b t s
  | .mmas sa sb p h a b e t => Sys2Proof.Machine.execMmas sa sb p h a b e t s
  | .amalloc d a => Sys2Proof.Machine.execAmalloc d a s
  | .amfree a => Sys2Proof.Machine.execAmfree a s
  | .amshape a b => Sys2Proof.Machine.execAmshape a b s
  | .amrd d a b => Sys2Proof.Machine.execAmrd d a b s
  | .amwr d a b => Sys2Proof.Machine.execAmwr d a b s
  | .amzero a b => Sys2Proof.Machine.execAmzero a b s
  | .amdrain d a b => Sys2Proof.Machine.execAmdrain d a b s
  | .amdrainAdd d a b => Sys2Proof.Machine.execAmdrainAdd d a b s
  | .wbld mo sn d a b => Sys2Proof.Machine.execWbld mo sn d a b s
  | .mq mo d a => Sys2Proof.Machine.execMq mo d a s
  | .lrset l a => Sys2Proof.Machine.execLrset l a s
  | .mqwait a => Sys2Proof.Machine.execMqwait a s
  | .tex d a b => Sys2Proof.Machine.execTex d a b s
  | .tld d a b => Sys2Proof.Machine.execTld d a b s
  | .tgath d a b => Sys2Proof.Machine.execTgath d a b s
  | .hgf d a b => Sys2Proof.Machine.execHgf d a b s
  | .hgs mo d a b => Sys2Proof.Machine.execHgs mo d a b s
  | .hgsDet mo d a b => Sys2Proof.Machine.execHgsDet mo d a b s
  | .hgsfence => Sys2Proof.Machine.execHgsfence s
  | .trav d a b => Sys2Proof.Machine.execTrav d a b s
  | .rscb => Sys2Proof.Machine.execRscb s
  | .rsce => Sys2Proof.Machine.execRsce s
  | .pixout flags d a => Sys2Proof.Machine.execPixout flags d a s
  | .csld a => Sys2Proof.Machine.execCsld a s
  | .csrel a => Sys2Proof.Machine.execCsrel a s
  | .csrr d n => Sys2Proof.Machine.execCsrr d n s
  | .csrw n a => Sys2Proof.Machine.execCsrw n a s
  | .svc code => Sys2Proof.Machine.execSvc code s
  | .eret => Sys2Proof.Machine.execEret s
  | .bkpt code => Sys2Proof.Machine.execBkpt code s
  | .illegalOp => Sys2Proof.Machine.execIllegalOp s
  | .replyTrap g t => Sys2Proof.Machine.execReplyTrap g t s
  | .trapAreaTimeout rcb => Sys2Proof.Machine.execTrapAreaTimeout rcb s
  | .register die => Sys2Proof.Machine.execRegister die s
  | .retire die => Sys2Proof.Machine.execRetire die s
  | .preempt die => Sys2Proof.Machine.execPreempt die s
  | .shoot die => Sys2Proof.Machine.execShoot die s
  | .image die => Sys2Proof.Machine.execImage die s
  | .peer die => Sys2Proof.Machine.execPeer die s
  | .launchCommand die => Sys2Proof.Machine.execLaunchCommand die s
  | .attestationReportWritten die => Sys2Proof.Machine.execAttestationReportWritten die s
  | .launchArrival inbox => Sys2Proof.Machine.execLaunchArrival inbox s
  | .periodicReading die => Sys2Proof.Machine.execPeriodicReading die s
  | .decrementReading die => Sys2Proof.Machine.execDecrementReading die s
  | .blockPlacement die => Sys2Proof.Machine.execBlockPlacement die s
  | .swarmBlockPlacement die => Sys2Proof.Machine.execSwarmBlockPlacement die s
  | .restore die => Sys2Proof.Machine.execRestore die s
  | .blockCompletion blk => Sys2Proof.Machine.execBlockCompletion blk s
  | .preemptionCheck blk => Sys2Proof.Machine.execPreemptionCheck blk s
  | .saveComplete blk => Sys2Proof.Machine.execSaveComplete blk s
  | .flushComplete blk => Sys2Proof.Machine.execFlushComplete blk s
  | .budgetHold rcb => Sys2Proof.Machine.execBudgetHold rcb s
  | .retireSweep rcb => Sys2Proof.Machine.execRetireSweep rcb s
  | .activeTimeout g => Sys2Proof.Machine.execActiveTimeout g s
  | .groupReady g => Sys2Proof.Machine.execGroupReady g s
  | .contextSwitch core => Sys2Proof.Machine.execContextSwitch core s
  | .matrixTurn e => Sys2Proof.Machine.execMatrixTurn e s
  | .quarterOperation e => Sys2Proof.Machine.execQuarterOperation e s
  | .sequencerItem e => Sys2Proof.Machine.execSequencerItem e s
  | .stwaitExpiry c target => Sys2Proof.Machine.execStwaitExpiry c target s
  | .stitchedGroupStart c => Sys2Proof.Machine.execStitchedGroupStart c s
  | .migrationMove g t => Sys2Proof.Machine.execMigrationMove g t s
  | .pageWalk k => Sys2Proof.Machine.execPageWalk k s
  | .shootdownComplete k => Sys2Proof.Machine.execShootdownComplete k s
  | .kneaderEpochEnd die => Sys2Proof.Machine.execKneaderEpochEnd die s
  | .pageMoveComplete k => Sys2Proof.Machine.execPageMoveComplete k s
  | .pageMoveAbandon k => Sys2Proof.Machine.execPageMoveAbandon k s
  | .copyEntry q => Sys2Proof.Machine.execCopyEntry q s
  | .joinMarker m => Sys2Proof.Machine.execJoinMarker m s
  | .multicastCredit q => Sys2Proof.Machine.execMulticastCredit q s
  | .elementLanding k n => Sys2Proof.Machine.execElementLanding k n s
  | .entryCompletion q => Sys2Proof.Machine.execEntryCompletion q s
  | .prooferInstanceStart k => Sys2Proof.Machine.execProoferInstanceStart k s
  | .prooferWatchdog g => Sys2Proof.Machine.execProoferWatchdog g s
  | .wbLoaderEntry e => Sys2Proof.Machine.execWbLoaderEntry e s
  | .ageSweep slice => Sys2Proof.Machine.execAgeSweep slice s
  | .microcodeRequest k => Sys2Proof.Machine.execMicrocodeRequest k s
  | .microcodeWatchdog k => Sys2Proof.Machine.execMicrocodeWatchdog k s
  | .binStart blk => Sys2Proof.Machine.execBinStart blk s
  | .primitive blk => Sys2Proof.Machine.execPrimitive blk s
  | .pixelGroupStart blk => Sys2Proof.Machine.execPixelGroupStart blk s
  | .pixelWrite blk => Sys2Proof.Machine.execPixelWrite blk s
  | .sectionWatchdog g t => Sys2Proof.Machine.execSectionWatchdog g t s
  | .dieRelease die => Sys2Proof.Machine.execDieRelease die s
  | .gets n => Sys2Proof.Machine.execGets n s
  | .geto n => Sys2Proof.Machine.execGeto n s
  | .data n => Sys2Proof.Machine.execData n s
  | .grant n => Sys2Proof.Machine.execGrant n s
  | .inv n => Sys2Proof.Machine.execInv n s
  | .iack n => Sys2Proof.Machine.execIack n s
  | .recallMsg n => Sys2Proof.Machine.execRecallMsg n s
  | .wb n => Sys2Proof.Machine.execWb n s
  | .wback n => Sys2Proof.Machine.execWback n s
  | .atomMessage n => Sys2Proof.Machine.execAtomMessage n s
  | .atomr n => Sys2Proof.Machine.execAtomr n s
  | .retry n => Sys2Proof.Machine.execRetry n s
  | .storeFailure n => Sys2Proof.Machine.execStoreFailure n s
  | .uncachedAccess n => Sys2Proof.Machine.execUncachedAccess n s
  | .freeq n => Sys2Proof.Machine.execFreeq n s
  | .seqCmdMma n => Sys2Proof.Machine.execSeqCmdMma n s
  | .seqCmdAmzero n => Sys2Proof.Machine.execSeqCmdAmzero n s
  | .seqCmdAmdrain n => Sys2Proof.Machine.execSeqCmdAmdrain n s
  | .seqCmdAmdrainAdd n => Sys2Proof.Machine.execSeqCmdAmdrainAdd n s
  | .draw n => Sys2Proof.Machine.execDraw n s
  | .nonce n => Sys2Proof.Machine.execNonce n s
  | .deviceRegisterWrite n => Sys2Proof.Machine.execDeviceRegisterWrite n s
  | .hostAtomic n => Sys2Proof.Machine.execHostAtomic n s
  | .ldtArrival n => Sys2Proof.Machine.execLdtArrival n s
  | .ticketReturn n => Sys2Proof.Machine.execTicketReturn n s
  | .redemption n => Sys2Proof.Machine.execRedemption n s
  | .payloadDelivery n => Sys2Proof.Machine.execPayloadDelivery n s
  | .messageArrival n => Sys2Proof.Machine.execMessageArrival n s
  | .stitchRequestArrival n => Sys2Proof.Machine.execStitchRequestArrival n s
  | .hgsContribution n => Sys2Proof.Machine.execHgsContribution n s
  | .l1Eviction c line => Sys2Proof.Machine.execL1Eviction c line s
  | .directoryEviction line => Sys2Proof.Machine.execDirectoryEviction line s
  | .linkDown link => Sys2Proof.Machine.execLinkDown link s
  | .uncorrectableError site => Sys2Proof.Machine.execUncorrectableError site s
  | .correctedError unit => Sys2Proof.Machine.execCorrectedError unit s
  | .powerMeasurement watts10ms tempC => Sys2Proof.Machine.execPowerMeasurement watts10ms tempC s
  | .packageReset => Sys2Proof.Machine.execPackageReset s
  | .i3cPrivateRead => Sys2Proof.Machine.execI3cPrivateRead s
  | .partitionConfiguration parts hostPorts => Sys2Proof.Machine.execPartitionConfiguration parts hostPorts s
  | .i3cAttestationRequest nonce dest => Sys2Proof.Machine.execI3cAttestationRequest nonce dest s
  | .capabilityWord w => Sys2Proof.Machine.execCapabilityWord w s
  | .hostSnoop pa excl => Sys2Proof.Machine.execHostSnoop pa excl s
  | .hostAccess port pa size store => Sys2Proof.Machine.execHostAccess port pa size store s
  | .peerAccess port pa size store rmw => Sys2Proof.Machine.execPeerAccess port pa size store rmw s
  | .refreshManagementRequest die stack => Sys2Proof.Machine.execRefreshManagementRequest die stack s
  | .imageKeyEnrolment key => Sys2Proof.Machine.execImageKeyEnrolment key s

end Sys2Proof.Machine
end

