-- ==== Sys2Proof/Machine/Policy.lean ====
section
/-! DEFINITION. Who issues on a unit (R32, R72, R73), what an issue does, and the turns that the model
takes when the schedule names none (log entry 1). -/

namespace Sys2Proof.Machine
namespace State

/-- A group can issue an instruction or must take a fetch fault. -/
def groupCan (s : State) (g : Nat) : Bool := !s.halted g && (s.pick g).isSome

/-- The group that issues on a unit: round-robin over a partition's active positions after the last
that issued (R73); a swarm core's running context, unless a switch is due (R32); or the instance itself. -/
def issuer (s : State) : Issuer → Option Nat
  | .part e p =>
    let q := s.part (4 * e + p)
    let n := q.active.length
    ((upTo n).filterMap fun k => q.active.getD ((q.last + 1 + k) % n) none).find? fun g => s.groupCan g
  | .core c => if s.switchDue c then none else s.onContext c (s.core c).ctx
  | .proofer g => if (s.group g).kind.isProofer then some g else none

/-- The next instruction of a thread waits for the payload of an RDM: for a register that it writes, a k register of
another thread's RDM among them, or for all of the thread's reads (R72). -/
def waitsRdm (s : State) (g t : Nat) : Bool :=
  let h := s.thread g t
  let regs := match s.fetch g t with
    | .words _ _ (.instr i _) => (uses i ++ longRuns s g t i).flatMap fun (u : Field × Nat) => s.runNums g t u.1.toNat u.2
    | _ => []
  s.loads.any fun q => q.g = g && q.kind = 3 && (match h.wait with
    | none => q.dst.any fun n => (q.t = t || n % 2 = 1) && regs.contains n
    | some .loads | some .replies => q.t = t
    | some .acquire => q.t = t && q.acquire
    | _ => false)

/-- A thread waits on a long-latency dependence (R72). -/
def longWait (s : State) (g t : Nat) : Bool :=
  let h := s.thread g t
  (h.slot = .live || h.slot = .trapped)
    && ((match h.wait with
        | some (.full ..) | some (.phase ..) | some (.dispatch ..) | some (.sequencer ..)
        | some (.command ..) | some .mail => true
        | _ => false)
      || s.waitsRdm g t)

/-- An Active group rests when it has no ready bundle and a thread of it waits on a long-latency dependence,
or every slot that is not Exited is Migrated (R61, R72). -/
def rests (s : State) (g : Nat) : Bool :=
  let n := (s.group g).threads.length
  (s.pick g).isNone
    && (((upTo n).any fun t => s.longWait g t)
      || (upTo n).all fun t => (s.thread g t).slot = .exited || (s.thread g t).slot = .migrated)

/-- The Active groups of a partition that rest leave the active set, as Waiting (R72). -/
def restPart (s : State) (k : Nat) : State :=
  ((s.part k).active.filterMap id).foldl (fun (s : State) g =>
    if s.rests g then s.leaveActive g false else s) s

end State

/-- The off-core references that are one whatever they meet (R32): CALL and CALLR store, and so do BMOV and BFILL. -/
def offCore : Instr → Bool
  | .call _ | .callr _ | .bmov .. | .bfill .. | .st .. | .sts .. | .stPointer .. | .atom .. | .atomSpm .. | .red .. | .redSpm .. | .ldt .. | .rdm ..
  | .rdmSpm .. | .tkdrop _ | .fence _ | .msend .. | .mrecv .. | .launch _ | .stitch .. | .fork .. | .join _
  | .migr _ | .acpy .. | .qjoin _ | .qwait .. | .pfarm _ | .pfstop _ | .cflush _ => true
  | _ => false

/-- An access of a context missed the TLB. -/
def leftCore (s' : State) (g : Nat) : Bool := match (s'.thread g 0).wait with
  | some (.walk _) => true
  | _ => false

/-- A swarm core's context gives up the core after an off-core reference (R32); a load that misses the L0 has said so
itself. -/
def giveUpCore (s s' : State) (g : Nat) (i : Instr) : State := match (s.group g).kind with
  | .swarm c _ => if offCore i || leftCore s' g then s'.modCore c fun k => { k with yielded := true } else s'
  | _ => s'

/-- The decoded instruction of the bundle that issues. -/
def runIssued (r : DecodeResult) (s : State) : Host.Outcome State Fault Refusal := match r with
  | .instr i _ => match exec i s with
    | .next s' => .next (giveUpCore s s' s.iss.g i)
    | o => o
  | .reserved i _ => .next (s.trapReserved i)
  | .illegal _ | .truncated => exec .illegalOp s

/-- A thread that has executed an instruction again after a restore: the next of them, or the place where it goes on
(R368). -/
def onceAgain (pc npc : DWord) (h : Thread) : Thread := match h.redo with
  | [] => h
  | r :: rest =>
    if r.pc ≠ pc.toNat || h.pc ≠ npc || h.wait.isSome || h.status.getLsbD 1 then h
    else
      let p := match r.ptr with
        | some (n, _, after) => h.p.set n after
        | none => h.p
      match rest with
      | [] => { h with redo := [], pc := h.resume, p := p }
      | q :: _ => { h with
          redo := rest, pc := BitVec.ofNat 64 q.pc
          p := match q.ptr with
            | some (n, before, _) => p.set n before
            | none => p }

/-- The threads of an issue that execute instructions again. -/
def goOn (s : State) (x : Issue) : State := s.modGroup x.g fun G =>
  if G.threads.all fun h => h.redo = [] then G
  else { G with threads := G.threads.zipIdx.map fun h => if x.ts.contains h.2 then onceAgain x.pc x.npc h.1 else h.1 }

/-- After an issue that counted cycles of a region on a die: threads that execute instructions again go on (R368), limits
are noted (R361), and the region's fields are written back to its RCB (R64). -/
def afterCount (d rcb : Nat) : Host.Outcome State Fault Refusal → Host.Outcome State Fault Refusal
  | .next s => .next ((goOn s s.iss).counted d rcb)
  | o => o

/-- Group g issues for the thread that the picker chose: fetch faults trap, walks are waited for, and the
rest of the bundle runs the instruction (R34, R392). -/
def issueThread (s : State) (g t0 : Nat) : Host.Outcome State Fault Refusal :=
  let ts := s.bundle g t0
  let go := ts.filter fun t => s.hasWords g t
  let stop := ts.filter fun t => !s.hasWords g t
  match go with
  | [] => .next (stop.foldl (fun s t => s.fetchFails g t) s)
  | t :: _ => match s.fetch g t with
    | .words s' ws r =>
      let pc := (s.thread g t).pc
      let s' := stop.foldl (fun s t => s.fetchFails g t) s'
      let i := r.legal
      afterCount (s.group g).kind.die (s.group g).rcb (runIssued r ((s'.countIssue g t0 go i).setIssue g go pc ws))
    | _ => .next s

/-- The issue limit that ends something in place of the next issue: that of a proofer instance (R243), or that
of a raster-ordered section (R404). -/
def spentStep (s : State) (g t0 : Nat) : Option Instr :=
  if (s.group g).kind.isProofer && 1024 ≤ (s.group g).executed then some (.prooferWatchdog g)
  else ((s.bundle g t0).find? fun t => sectionSpent s g t).map fun t => .sectionWatchdog g t

/-- Group g issues, if a thread of it can. -/
def issueGroup (s : State) (g : Nat) : Host.Outcome State Fault Refusal :=
  if s.halted g then .next s
  else match s.pick g with
    | some t0 => match spentStep s g t0 with
      | some i => exec i s
      | none => issueThread s g t0
    | none => .next s

/-- After an issue of a unit: the groups of a partition that rest leave its active set. -/
def afterIssue (u : Issuer) : Host.Outcome State Fault Refusal → Host.Outcome State Fault Refusal
  | .next s => match u with
    | .part e p => .next (s.restPart (4 * e + p))
    | _ => .next s
  | o => o

/-- The first outcome that is not the state as it was. -/
def firstChange (s : State) : List (State → Host.Outcome State Fault Refusal) → Host.Outcome State Fault Refusal
  | [] => .next s
  | f :: r => match f s with
    | .next s' => if s' = s then firstChange s r else .next s'
    | o => o

/-- The message at place n of those in flight arrives: the step that its body calls for. -/
def runArrival (s : State) (n : Nat) : Host.Outcome State Fault Refusal := match s.flight[n]? with
  | none => .next s
  | some m => match m.body with
    | .gets .. => execGets n s
    | .geto .. => execGeto n s
    | .data .. | .loadFail .. => execData n s
    | .grant .. => execGrant n s
    | .inv .. => execInv n s
    | .iack .. => execIack n s
    | .recallMsg .. => execRecallMsg n s
    | .wb .. => execWb n s
    | .wback .. => execWback n s
    | .atom .. => execAtomMessage n s
    | .atomr .. => execAtomr n s
    | .retry .. => execRetry n s
    | .storeFail .. => execStoreFailure n s
    | .uload .. | .uvalue .. => execUncachedAccess n s
    | .ustore .. => firstChange s [execFreeq n, execSeqCmdMma n, execSeqCmdAmzero n, execSeqCmdAmdrain n,
        execSeqCmdAmdrainAdd n, execDraw n, execNonce n, execDeviceRegisterWrite n, execUncachedAccess n]
    | .hostAtom .. => execHostAtomic n s
    | .ldt .. => execLdtArrival n s
    | .ticket .. => execTicketReturn n s
    | .redeem .. => execRedemption n s
    | .payload .. => execPayloadDelivery n s
    | .message .. => execMessageArrival n s
    | .stitch .. => execStitchRequestArrival n s
    | .hgs .. => execHgsContribution n s

/-- What a turn does. -/
def runAct (s : State) : Act → Host.Outcome State Fault Refusal
  | .idle => .next s
  | .arrival n => runArrival s n
  | .event i => if isLpi i then .next s else exec i s
  | .issue u => afterIssue u (match s.issuer u with
    | some g => issueGroup s g
    | none => .next s)

/-! ## The model's own schedule -/

/-- The steps of a die's command queue, scheduler and management core. -/
def dieSteps (d : Nat) : List Instr :=
  [.dieRelease d, .register d, .retire d, .preempt d, .shoot d, .image d, .peer d, .launchCommand d,
    .attestationReportWritten d, .decrementReading d, .launchArrival (5000 + d), .blockPlacement d,
    .swarmBlockPlacement d, .restore d]

/-- The steps of a block. -/
def blockSteps (b : Nat) : List Instr :=
  [.binStart b, .primitive b, .pixelGroupStart b, .pixelWrite b, .blockCompletion b, .saveComplete b,
    .flushComplete b]

/-- The steps of a group's threads and of its place in a partition. -/
def groupSteps (s : State) (g : Nat) : List Instr :=
  .activeTimeout g :: .groupReady g :: (upTo (s.group g).threads.length).flatMap fun t =>
    [.replyTrap g t, .migrationMove g t]

/-- The steps of an engine's matrix unit, sequencer and loader. -/
def engineSteps (e : Nat) (E : Engine) : List Instr :=
  (if E.dispatch = [] && E.queue = [] then [] else [.matrixTurn e, .quarterOperation e, .sequencerItem e])
    ++ (if E.loader = [] then [] else [.wbLoaderEntry e])

/-- The steps of a copy queue, and of the markers in it. -/
def queueSteps (s : State) (q : Nat) : List Instr :=
  [.copyEntry q, .multicastCredit q, .entryCompletion q]
    ++ ((s.headEntry q).toList.flatMap fun e =>
      (((upTo (copyItems e.w)).find? fun i => !e.done.contains i).toList.map fun i => .elementLanding e.id i))
    ++ (lgetD q s.queues []).filterMap fun x => match x with
      | .marker m => some (.joinMarker m)
      | .entry _ => none

/-- The swarm cores with a context in use. -/
def busyCores (s : State) : List Nat := (s.groups.filterMap fun x => match x.2.kind with
  | .swarm c _ => some c
  | _ => none).eraseDups

/-- The steps that other agents may take in a state. The host, the peers, the board, errors and evictions are
not among them: those only a schedule names. -/
def agentSteps (s : State) : List Instr :=
  (upTo 4).flatMap dieSteps
    ++ s.inboxes.map (fun x => .launchArrival x.1)
    ++ s.blocks.flatMap (fun x => blockSteps x.1)
    ++ s.regions.flatMap (fun x => [.trapAreaTimeout x.1, .retireSweep x.1])
    ++ s.groups.flatMap (fun x => groupSteps s x.1)
    ++ s.engines.flatMap (fun x => engineSteps x.1 x.2)
    ++ (busyCores s).map Instr.contextSwitch
    ++ s.queues.flatMap (fun x => queueSteps s x.1)
    ++ s.lands.map (fun x => .elementLanding x.id 0)
    ++ s.walks.map (fun x => .pageWalk x.id)
    ++ s.shoots.map (fun x => .shootdownComplete x.id)
    ++ s.moves.flatMap (fun x => [.pageMoveComplete x.id, .pageMoveAbandon x.id])
    ++ s.stitches.map (fun x => .stwaitExpiry x.cluster x.target)
    ++ s.formed.flatMap (fun l => l.map fun x => .stitchedGroupStart x.cluster)
    ++ (upTo s.due.length).map (fun k => .prooferInstanceStart k)
    ++ s.micro.flatMap (fun x => [.microcodeRequest x.id, .microcodeWatchdog x.id])

/-- The issues that units may make in a state. -/
def issueSteps (s : State) : List Act :=
  (s.parts.map fun x => .issue (.part (x.1 / 4) (x.1 % 4)))
    ++ ((busyCores s).map fun c => .issue (.core c))
    ++ (s.groups.filterMap fun x => if x.2.kind.isProofer then some (.issue (.proofer x.1)) else none)

/-- The act changes something. -/
def changes (s : State) (a : Act) : Bool := match runAct s a with
  | .next s' => s' ≠ s
  | _ => true

/-- What the rules tie to a clock: readings, sweeps, epochs and the checks of drains (R65, R95, R365, R383). -/
def timedSteps (s : State) (clock : Nat) : List Instr :=
  (if clock % 4096 = 0 then (upTo 4).map .periodicReading else [])
    ++ (if clock % 1024 = 0 then (s.tickets.map fun x => x.1 / 1024).eraseDups.map .ageSweep else [])
    ++ (if clock % 2 ^ 20 = 0 then (upTo 4).map .kneaderEpochEnd else [])
    ++ s.blocks.filterMap fun x => if x.2.pre.isSome then some (.preemptionCheck x.1) else none

/-- The turns that follow when the schedule names none: one clock and the first act that changes something, in a
rotation that moves on with the clock; then what is due at that clock, and the cycle limits. -/
def plan (s : State) : List Turn :=
  let acts := (upTo s.flight.length).map Act.arrival ++ (agentSteps s).map Act.event ++ issueSteps s
  let n := acts.length
  let next := { s with cycle := s.cycle + 1 }
  let act := ((upTo n).map fun k => acts.getD ((s.cycle + k) % n) .idle).find? fun a => changes next a
  { clocks := 1, act := act.getD .idle }
    :: (timedSteps s (s.cycle + 1) ++ s.regions.map fun x => Instr.budgetHold x.1).map fun i =>
      { clocks := 0, act := .event i }

/-- The turns to take: those of the schedule, or the model's own. -/
def State.turns (s : State) : List Turn := match s.agenda with
  | [] => plan s
  | l => l

/-- A step of a stopped package: only a package reset ends the stop (R323). -/
def stoppedTurn (s : State) : Host.Outcome State Fault Refusal := match s.agenda with
  | { clocks := n, act := .event .packageReset } :: rest =>
    exec .packageReset { s with agenda := rest, cycle := s.cycle + n }
  | _ => .fault .packageStopped

/-- A step takes the first of its turns. -/
def takeTurn (s : State) : List Turn → Host.Outcome State Fault Refusal
  | turn :: rest => runAct { s with agenda := rest, cycle := s.cycle + turn.clocks } turn.act
  | [] => .next s

end Sys2Proof.Machine
end

