-- ==== Sys2Proof/Machine/Step.lean ====
section
/-! DEFINITION. One step of the package (R421): the turn that the schedule names, or the next one of the
model's own policy (log entry 1). -/

namespace Sys2Proof.Machine

/-- One step: a stopped package does nothing but reset (R323); otherwise clocks pass and a turn is taken. -/
def step (s : State) : Host.Outcome State Fault Refusal :=
  if s.stopped then stoppedTurn s else takeTurn s s.turns

/-- A bundle-ready thread in the state of R31 with its slot Live. -/
def freshThread (alloc : Nat) (pc : DWord) : Thread :=
  { pc := pc, x := List.replicate alloc 0, p := List.replicate 8 0, c := List.replicate 7 false }

/-- The state in which the next step fetches and runs the given instruction (log entry 11): one SIMT
group with one Live thread, Active on partition 0 of engine 0, whose PC is 0x40_0000; its block, launch
and region; the translation of that page; and the words in memory there. -/
def State.withFetchWord (s : State) (nbits w : Nat) : State :=
  let g := s.nextKey
  let pc : DWord := 0x400000#64
  let rcb := 0x10000
  let idle : Thread := { freshThread 64 0 with slot := .exited }
  let group : Group :=
    { key := g, kind := .simt 0 0, blk := g, rcb := rcb, lr := 0x20000, entry := pc, alloc := 64
      fs := List.replicate 8 0, fssc := List.replicate 8 0x3F800000, k := List.replicate 160 0
      masks := List.replicate 11 0, arrive := List.replicate 12 0, credit := List.replicate 12 0
      gstate := .active, threads := freshThread 64 pc :: List.replicate 31 idle }
  let words := padTo 12 (bytesOf (tableWords nbits w))
  { s with
    nextKey := g + 1
    stopped := false
    agenda := [{ clocks := 1, act := .issue (.part 0 0) }]
    regions := lput rcb { rcb := rcb, table := 0x200000, state := 1, engines := [(0, 0)] } s.regions
    launches := lput g { key := g, lr := 0x20000, die := 0, rcb := rcb, entry := pc, lstate := .running
                         next := 1 } s.launches
    blocks := lput g { key := g, launch := g, bid := 0, rcb := rcb, engines := [0], lcores := [0]
                       banks := [[]] } s.blocks
    groups := lput g group s.groups
    parts := lput 0 { active := [some g], last := 0, ready := [] } s.parts
    dies := lmod 0 default (fun d => { d with status := 0 }) s.dies
    tlb := { unit := 0, table := 0x200000, va := 0x400000, bits := 12, pa := 0x400000, leaf := 0xCF
             slot := 0, level := 3 } :: s.tlb
    l1s := []
    owners := []
    flight := []
    walkFaults := []
    mem := writeBytes s.mem 0x400000 words }

end Sys2Proof.Machine
end

