-- ==== Sys2Proof/Laws/Words.lean ====
section
/-! SUPPORT. How the decoder reads the words that the encoder writes: the fields of a packed word and of a packed
prefix, and the four shapes of a sequence (R149 to R160). -/

namespace Sys2Proof

/-! ## Codes and their readings -/

@[simp] theorem tyOf_tyCode (ty : Ty) : tyOf (tyCode ty) = ty := by cases ty <;> rfl
@[simp] theorem ordOf_ordCode (o : Ord) : ordOf (ordCode o) = o := by cases o <;> rfl
@[simp] theorem scopeOf_scopeCode (s : Scope) : scopeOf (scopeCode s) = s := by cases s <;> rfl
@[simp] theorem condOf_condCode (c : Cond) : condOf (condCode c) = some c := by cases c <;> rfl
@[simp] theorem fcondOf_fcondCode (c : FCond) : fcondOf (fcondCode c) = some c := by cases c <;> rfl
@[simp] theorem rmodeOf_rmodeCode (m : RMode) : rmodeOf (rmodeCode m) = m := by cases m <;> rfl
@[simp] theorem sizeOf_sizeCode (z : Size) : sizeOf (sizeCode z) = z := by cases z <;> rfl
@[simp] theorem gsizeOf_gsizeCode (z : GSize) : gsizeOf (gsizeCode z) = some z := by cases z <;> rfl
@[simp] theorem tkSizeOf_tkSizeCode (z : TkSize) : tkSizeOf (tkSizeCode z) = some z := by cases z <;> rfl
@[simp] theorem atomOpOf_atomOpCode (o : AtomOp) : atomOpOf (atomOpCode o) = some o := by cases o <;> rfl
@[simp] theorem patternOf_patternCode (p : Pattern) : patternOf (patternCode p) = p := by cases p <;> rfl
@[simp] theorem fieldOf_toNat (f : Field) : fieldOf f.toNat = f := by simp [fieldOf]

theorem tyCode_lt (ty : Ty) : tyCode ty < 8 := by cases ty <;> decide
theorem ordCode_lt (o : Ord) : ordCode o < 4 := by cases o <;> decide
theorem scopeCode_lt (s : Scope) : scopeCode s < 7 := by cases s <;> decide
theorem condCode_lt (c : Cond) : condCode c < 6 := by cases c <;> decide
theorem fcondCode_lt (c : FCond) : fcondCode c < 8 := by cases c <;> decide
theorem rmodeCode_lt (m : RMode) : rmodeCode m < 4 := by cases m <;> decide
theorem sizeCode_lt (z : Size) : sizeCode z < 8 := by cases z <;> decide
theorem gsizeCode_lt (z : GSize) : gsizeCode z < 8 := by cases z <;> decide
theorem tkSizeCode_lt (z : TkSize) : tkSizeCode z < 7 := by cases z <;> decide
theorem atomOpCode_lt (o : AtomOp) : atomOpCode o < 9 := by cases o <;> decide
theorem patternCode_lt (p : Pattern) : patternCode p < 4 := by cases p <;> decide

@[simp] theorem moOf_moPrefix (mo : MemOrd) : moOf (moPrefix mo) = mo := by
  cases mo; simp [moOf, moPrefix]

@[simp] theorem onlyMo_moPrefix (mo : MemOrd) : onlyMo (moPrefix mo) = true := by
  have := scopeCode_lt mo.scope
  have h : scopeCode mo.scope ≠ 7 := by omega
  simp [onlyMo, moPrefix, h]

/-! ## Packed words -/

/-- The fields of an R-form word are in range, and its major opcode is not that of a prefix. -/
abbrev FieldsIn (op d a b fn : Nat) : Prop := op < 0x3E ∧ d < 128 ∧ a < 128 ∧ b < 128 ∧ fn < 32

theorem packR_toNat {op d a b fn : Nat} (h : FieldsIn op d a b fn) :
    (packR op d a b fn).toNat = op * 2 ^ 26 + d * 2 ^ 19 + a * 2 ^ 12 + b * 2 ^ 5 + fn := by
  obtain ⟨h1, h2, h3, h4, h5⟩ := h
  simp only [packR, BitVec.toNat_ofNat]
  omega

/-- A packed word is read as its fields. -/
theorem parseWord_packR {op d a b fn : Nat} (p : Prefixes) (h : FieldsIn op d a b fn) :
    parseWord p (packR op d a b fn) = parseFields p op d a b fn := by
  have e := packR_toNat h
  obtain ⟨h1, h2, h3, h4, h5⟩ := h
  have e1 : wOp (packR op d a b fn) = op := by unfold wOp; omega
  have e2 : wD (packR op d a b fn) = d := by unfold wD; omega
  have e3 : wA (packR op d a b fn) = a := by unfold wA; omega
  have e4 : wB (packR op d a b fn) = b := by unfold wB; omega
  have e5 : wFn (packR op d a b fn) = fn := by unfold wFn; omega
  rw [parseWord, e1, e2, e3, e4, e5]

theorem isPrefix_packR {op d a b fn : Nat} (h : FieldsIn op d a b fn) : isPrefix (packR op d a b fn) = false := by
  have e := packR_toNat h
  obtain ⟨h1, h2, h3, h4, h5⟩ := h
  have e1 : wOp (packR op d a b fn) ≠ 0x3E := by unfold wOp; omega
  simp [isPrefix, e1]

/-- The fields of a kind 0 prefix are in range. -/
abbrev PrefixIn (q : Prefix0) : Prop :=
  q.e < 128 ∧ q.f < 128 ∧ q.slot < 8 ∧ q.scope < 8 ∧ q.ord < 4 ∧ q.ty < 8

theorem tyPrefix_in (ty : Ty) : PrefixIn { ty := tyCode ty } :=
  ⟨Nat.zero_lt_succ _, Nat.zero_lt_succ _, Nat.zero_lt_succ _, Nat.zero_lt_succ _, Nat.zero_lt_succ _, tyCode_lt ty⟩

theorem moPrefix_in (mo : MemOrd) : PrefixIn (moPrefix mo) := by
  have h1 := scopeCode_lt mo.scope
  have h2 := ordCode_lt mo.ord
  simp only [PrefixIn, moPrefix]
  omega

theorem packP0_toNat {q : Prefix0} (h : PrefixIn q) : (packP0 q).toNat =
    0x3E * 2 ^ 26 + q.e * 2 ^ 18 + q.f * 2 ^ 11 + q.slot * 2 ^ 8 + q.scope * 2 ^ 5 + q.ord * 2 ^ 3 + q.ty := by
  obtain ⟨h1, h2, h3, h4, h5, h6⟩ := h
  simp only [packP0, BitVec.toNat_ofNat]
  omega

theorem packP0_reads {q : Prefix0} (h : PrefixIn q) :
    isPrefix (packP0 q) = true ∧ prefixKind (packP0 q) = 0 ∧ prefix0 (packP0 q) = q := by
  have e := packP0_toNat h
  obtain ⟨h1, h2, h3, h4, h5, h6⟩ := h
  refine ⟨?_, ?_, ?_⟩
  · have e1 : wOp (packP0 q) = 0x3E := by unfold wOp; omega
    simp [isPrefix, e1]
  · simp only [prefixKind]; omega
  · cases q
    simp only [prefix0, Prefix0.mk.injEq] at *
    refine ⟨?_, ?_, ?_, ?_, ?_, ?_⟩ <;> omega

theorem packP1_reads {x : Nat} (h : x < 2 ^ 25) :
    isPrefix (packP1 x) = true ∧ prefixKind (packP1 x) = 1 ∧ prefixImm (packP1 x) = x := by
  have e : (packP1 x).toNat = 0x3E * 2 ^ 26 + 2 ^ 25 + x := by
    simp only [packP1, BitVec.toNat_ofNat]; omega
  refine ⟨?_, ?_, ?_⟩
  · have e1 : wOp (packP1 x) = 0x3E := by unfold wOp; omega
    simp [isPrefix, e1]
  · simp only [prefixKind]; omega
  · simp only [prefixImm]; omega

/-! ## Sequences -/

theorem verdict_ok {n : Nat} {rest : List Word} {i : Instr} (h : i.wf = true) :
    verdict n rest (some (i, true)) = .instr i rest := by
  simp [verdict, h]

theorem decode_bare {op d a b fn : Nat} {rest : List Word} (h : FieldsIn op d a b fn) :
    decode (packR op d a b fn :: rest) = verdict 1 rest (parseFields {} op d a b fn) := by
  simp [decode, isPrefix_packR h, parseWord_packR {} h]

theorem decode_p0 {q : Prefix0} {op d a b fn : Nat} {rest : List Word} (hq : PrefixIn q)
    (h : FieldsIn op d a b fn) :
    decode (packP0 q :: packR op d a b fn :: rest) = verdict 2 rest (parseFields { p0 := some q } op d a b fn) := by
  obtain ⟨h1, h2, h3⟩ := packP0_reads hq
  simp [decode, isPrefix_packR h, parseWord_packR _ h, h1, h2, h3]

theorem decode_p1 {x : Nat} {op d a b fn : Nat} {rest : List Word} (hx : x < 2 ^ 25) (h : FieldsIn op d a b fn) :
    decode (packP1 x :: packR op d a b fn :: rest) = verdict 2 rest (parseFields { x := some x } op d a b fn) := by
  obtain ⟨h1, h2, h3⟩ := packP1_reads hx
  simp [decode, isPrefix_packR h, parseWord_packR _ h, h1, h2, h3]

theorem decode_p01 {q : Prefix0} {x : Nat} {op d a b fn : Nat} {rest : List Word} (hq : PrefixIn q)
    (hx : x < 2 ^ 25) (h : FieldsIn op d a b fn) :
    decode (packP0 q :: packP1 x :: packR op d a b fn :: rest)
      = verdict 3 rest (parseFields { p0 := some q, x := some x } op d a b fn) := by
  obtain ⟨h1, h2, h3⟩ := packP0_reads hq
  obtain ⟨k1, k2, k3⟩ := packP1_reads hx
  simp [decode, isPrefix_packR h, parseWord_packR _ h, h1, h2, h3, k1, k2, k3]

/-- The prefixes that stand before a word after enc01. -/
def sentPrefixes (d q : Prefix0) (x : Option Nat) : Prefixes := { p0 := if q = d then none else some q, x := x }

/-- The decoder reads back what enc01 writes. -/
theorem decode_enc01 {d q : Prefix0} {x : Option Nat} {op e a b fn : Nat} {rest : List Word} {i : Instr}
    (hq : PrefixIn q) (hx : ∀ m ∈ x, m < 2 ^ 25) (h : FieldsIn op e a b fn) (hw : i.wf = true)
    (hp : parseFields (sentPrefixes d q x) op e a b fn = some (i, true)) :
    decode (enc01 d q x (packR op e a b fn) ++ rest) = .instr i rest := by
  unfold enc01 enc0
  cases x with
  | none =>
    dsimp only
    by_cases hd : q = d
    · rw [if_pos hd, List.cons_append, List.nil_append, decode_bare h]
      rw [sentPrefixes, if_pos hd] at hp
      rw [hp, verdict_ok hw]
    · rw [if_neg hd, List.cons_append, List.cons_append, List.nil_append, decode_p0 hq h]
      rw [sentPrefixes, if_neg hd] at hp
      rw [hp, verdict_ok hw]
  | some m =>
    have hm := hx m rfl
    dsimp only
    by_cases hd : q = d
    · rw [if_pos hd, List.cons_append, List.cons_append, List.nil_append, decode_p1 hm h]
      rw [sentPrefixes, if_pos hd] at hp
      rw [hp, verdict_ok hw]
    · rw [if_neg hd, List.cons_append, List.cons_append, List.cons_append, List.nil_append, decode_p01 hq hm h]
      rw [sentPrefixes, if_neg hd] at hp
      rw [hp, verdict_ok hw]

/-- The kind 0 prefix that a row sees is the one that was meant, sent or not. -/
@[simp] theorem sentPrefixes_p0 (d q : Prefix0) (x : Option Nat) : (sentPrefixes d q x).p0.getD d = q := by
  unfold sentPrefixes
  split
  · rename_i h; exact h.symm
  · rfl

@[simp] theorem sentPrefixes_same (d : Prefix0) (x : Option Nat) : (sentPrefixes d d x).p0 = none := by
  simp [sentPrefixes]

@[simp] theorem sentPrefixes_x (d q : Prefix0) (x : Option Nat) : (sentPrefixes d q x).x = x := rfl

/-- A word without prefixes is read back. -/
theorem decode_plain {op d a b fn : Nat} {rest : List Word} {i : Instr} (h : FieldsIn op d a b fn) (hw : i.wf = true)
    (hp : parseFields {} op d a b fn = some (i, true)) : decode (encR op d a b fn ++ rest) = .instr i rest := by
  rw [encR, List.cons_append, List.nil_append, decode_bare h, hp, verdict_ok hw]

/-- A word with a kind 0 prefix is read back. -/
theorem decode_enc0 {d q : Prefix0} {op e a b fn : Nat} {rest : List Word} {i : Instr} (hq : PrefixIn q)
    (h : FieldsIn op e a b fn) (hw : i.wf = true)
    (hp : parseFields (sentPrefixes d q none) op e a b fn = some (i, true)) :
    decode (enc0 d q (packR op e a b fn) ++ rest) = .instr i rest :=
  decode_enc01 (x := none) hq (by simp) h hw hp

/-! ## Immediates and offsets -/

/-- What immxS leaves out, sign extension of the low bits supplies. -/
theorem immxS_reads (w n : Nat) (v : BitVec w) :
    (immxS w n v = none ∧ (BitVec.ofNat n v.toNat).signExtend w = v) ∨ immxS w n v = some (v.toNat / 2 ^ n) := by
  unfold immxS
  split
  · rename_i h
    refine .inl ⟨rfl, ?_⟩
    rwa [← BitVec.ofNat_toNat n v] at h
  · exact .inr rfl

theorem ofNat_parts {w n : Nat} (v : BitVec w) : BitVec.ofNat w (v.toNat / 2 ^ n * 2 ^ n + v.toNat % 2 ^ n) = v := by
  rw [Nat.div_add_mod', BitVec.ofNat_toNat, BitVec.setWidth_eq]

theorem ofNat_mod_pow (n k : Nat) : BitVec.ofNat n (k % 2 ^ n) = BitVec.ofNat n k := by
  apply BitVec.eq_of_toNat_eq
  simp

theorem immxS_bound {w n : Nat} (v : BitVec w) (h : w ≤ n + 25) : ∀ m ∈ immxS w n v, m < 2 ^ 25 := by
  intro m hm
  have hv := v.isLt
  obtain ⟨h0, -⟩ | h1 := immxS_reads w n v
  · rw [h0] at hm; cases hm
  · rw [h1] at hm; cases hm
    rw [Nat.div_lt_iff_lt_mul (Nat.two_pow_pos n), ← Nat.pow_add]
    exact Nat.lt_of_lt_of_le hv (Nat.pow_le_pow_right (by decide) (by omega))

theorem immxOk_immxS {w n k : Nat} (v : BitVec w) (h : w ≤ n + k) : immxOk (immxS w n v) k = true := by
  have hv := v.isLt
  obtain ⟨h0, -⟩ | h1 := immxS_reads w n v
  · simp [h0, immxOk, Nat.two_pow_pos]
  · simp only [h1, immxOk, Option.getD_some, decide_eq_true_eq]
    rw [Nat.div_lt_iff_lt_mul (Nat.two_pow_pos n), ← Nat.pow_add]
    exact Nat.lt_of_lt_of_le hv (Nat.pow_le_pow_right (by decide) (by omega))

theorem imm12s_reads (v : Word) : imm12s (immxS 32 12 v) (v.toNat % 4096) = v := by
  obtain ⟨h0, h⟩ | h1 := immxS_reads 32 12 v
  · rw [h0]; exact (congrArg _ (ofNat_mod_pow 12 v.toNat)).trans h
  · rw [h1]; exact ofNat_parts (n := 12) v

theorem imm12z_reads (v : Word) :
    imm12z (if v.toNat < 4096 then none else some (v.toNat / 4096)) (v.toNat % 4096) = v := by
  have e := ofNat_parts (n := 12) v
  by_cases h : v.toNat < 4096
  · have h0 : v.toNat / 2 ^ 12 = 0 := by omega
    rw [h0] at e
    simpa [imm12z, h] using e
  · simpa [imm12z, h] using e

theorem offOf_reads (v : BitVec 34) : offOf (immxS 34 9 v) (v.toNat % 512) = v := by
  obtain ⟨h0, h⟩ | h1 := immxS_reads 34 9 v
  · rw [h0]; exact (congrArg _ (ofNat_mod_pow 9 v.toNat)).trans h
  · rw [h1]; exact ofNat_parts (n := 9) v

theorem jOff_reads (v : BitVec 48) : jOff (immxS 48 23 v) (v.toNat % 2 ^ 23) = v := by
  obtain ⟨h0, h⟩ | h1 := immxS_reads 48 23 v
  · rw [h0]; exact (congrArg _ (ofNat_mod_pow 23 v.toNat)).trans h
  · rw [h1]; exact ofNat_parts (n := 23) v

theorem tileOf_reads (t : BitVec 10) (k : Nat) (h : k = t.toNat % 16 ∨ k = 16 + t.toNat % 16) :
    tileOf (tileX t) k = t := by
  have e := ofNat_parts (n := 4) t
  have hk : k % 16 = t.toNat % 16 := by omega
  unfold tileOf tileX
  rw [hk]
  by_cases h' : t.toNat < 16
  · have h0 : t.toNat / 2 ^ 4 = 0 := by omega
    rw [h0] at e
    simpa [h'] using e
  · simpa [h'] using e

theorem tileX_bound (t : BitVec 10) : ∀ m ∈ tileX t, m < 2 ^ 25 := by
  have := t.isLt
  intro m hm
  unfold tileX at hm
  split at hm
  · cases hm
  · cases hm; omega

theorem immxOk_tileX (t : BitVec 10) : immxOk (tileX t) 6 = true := by
  have := t.isLt
  unfold immxOk tileX
  split
  · rfl
  · simp only [Option.getD_some, decide_eq_true_eq]; omega

end Sys2Proof
end

