-- ==== Sys2Proof/Laws/PerInstr.lean ====
section
/-! SUPPORT. The decoder reads back what the encoder writes, instruction by instruction (R149 to R174). -/

namespace Sys2Proof.Laws.Encoding

/-- The words of a well-formed instruction decode to it, whatever words follow. -/
def Statement (i : Instr) : Prop := i.wf = true → ∀ rest, decode (encode i ++ rest) = .instr i rest

theorem iRow (op : Nat) (h0 : op < 0x3E) (d a : Field) (imm : Word) (i : Instr) (hw : i.wf = true)
    (hp : ∀ x, immxOk x 20 = true → imm12s x (imm.toNat % 4096) = imm →
      parseFields { x := x } op d.toNat a.toNat (imm.toNat % 4096 / 32) (imm.toNat % 32) = some (i, true)) (rest) :
    decode (encI op d a imm ++ rest) = .instr i rest :=
  decode_enc01 (by decide) (immxS_bound imm (by decide)) ⟨h0, d.isLt, a.isLt, by omega, by omega⟩ hw
    (by simpa [sentPrefixes] using hp _ (immxOk_immxS imm (by decide)) (imm12s_reads imm))

theorem addi (d a : Field) (imm : Word) : Statement (.addi d a imm) := fun hw _ => by
  have e : imm.toNat % 4096 / 32 * 32 + imm.toNat % 32 = imm.toNat % 4096 := by omega
  exact iRow _ (by decide) d a imm _ hw (fun x h1 h2 => by simp [parseFields, parseImm, with1, e, h1, h2]) _

theorem andi (d a : Field) (imm : Word) : Statement (.andi d a imm) := fun hw _ => by
  have e : imm.toNat % 4096 / 32 * 32 + imm.toNat % 32 = imm.toNat % 4096 := by omega
  exact iRow _ (by decide) d a imm _ hw (fun x h1 h2 => by simp [parseFields, parseImm, with1, e, h1, h2]) _

theorem izBound (imm : Word) : (∀ m ∈ (if imm.toNat < 4096 then none else some (imm.toNat / 4096)), m < 2 ^ 25)
    ∧ immxOk (if imm.toNat < 4096 then none else some (imm.toNat / 4096)) 20 = true := by
  have := imm.isLt
  by_cases h : imm.toNat < 4096
  · simp [h, immxOk]
  · simp [h, immxOk]; omega

theorem izRow (op : Nat) (h0 : op < 0x3E) (d a : Field) (imm : Word) (i : Instr) (hw : i.wf = true)
    (hp : ∀ x, immxOk x 20 = true → imm12z x (imm.toNat % 4096) = imm →
      parseFields { x := x } op d.toNat a.toNat (imm.toNat % 4096 / 32) (imm.toNat % 32) = some (i, true)) (rest) :
    decode (encIz op d a imm ++ rest) = .instr i rest :=
  decode_enc01 (by decide) (izBound imm).1 ⟨h0, d.isLt, a.isLt, by omega, by omega⟩ hw
    (by simpa [sentPrefixes] using hp _ (izBound imm).2 (imm12z_reads imm))

theorem ori (d a : Field) (imm : Word) : Statement (.ori d a imm) := fun hw _ => by
  have e : imm.toNat % 4096 / 32 * 32 + imm.toNat % 32 = imm.toNat % 4096 := by omega
  exact izRow _ (by decide) d a imm _ hw (fun x h1 h2 => by simp [parseFields, parseImm, with1, e, h1, h2]) _

theorem xori (d a : Field) (imm : Word) : Statement (.xori d a imm) := fun hw _ => by
  have e : imm.toNat % 4096 / 32 * 32 + imm.toNat % 32 = imm.toNat % 4096 := by omega
  exact izRow _ (by decide) d a imm _ hw (fun x h1 h2 => by simp [parseFields, parseImm, with1, e, h1, h2]) _

theorem cmpi (ty : Ty) (cc : Cond) (c : BitVec 3) (a : Field) (imm : Word) : Statement (.cmpi ty cc c a imm) :=
  fun hw _ => by
  have e : imm.toNat % 4096 / 32 * 32 + imm.toNat % 32 = imm.toNat % 4096 := by omega
  have hc := condCode_lt cc
  have h3 := c.isLt
  have e1 : (condCode cc * 8 + c.toNat) / 8 = condCode cc := by omega
  have e2 : BitVec.ofNat 3 (condCode cc * 8 + c.toNat) = c := by
    apply BitVec.eq_of_toNat_eq; simp only [BitVec.toNat_ofNat]; omega
  exact decode_enc01 (tyPrefix_in ty) (immxS_bound imm (by decide)) ⟨by decide, by omega, a.isLt, by omega, by omega⟩ hw
    (by simp [parseFields, parseImm, onlyTy, e, e1, e2, immxOk_immxS imm (n := 12) (k := 20) (by decide), imm12s_reads])

theorem lRow (op : Nat) (h0 : op < 0x3E) (d : Field) (x : Option Nat) (n : Nat) (hn : n < 2 ^ 19) (i : Instr)
    (hx : ∀ m ∈ x, m < 2 ^ 25) (hw : i.wf = true)
    (hp : parseFields { x := x } op d.toNat (n / 4096) (n % 4096 / 32) (n % 32) = some (i, true)) (rest) :
    decode (encL op d x n ++ rest) = .instr i rest :=
  decode_enc01 (by decide) hx ⟨h0, d.isLt, by omega, by omega, by omega⟩ hw (by simpa [sentPrefixes] using hp)

theorem imm19_parts (n : Nat) : n / 4096 * 4096 + (n % 4096 / 32 * 32 + n % 32) = n := by omega

theorem movi (d : Field) (imm : Word) : Statement (.movi d imm) := fun hw _ => by
  refine lRow _ (by decide) d _ _ (Nat.mod_lt _ (by decide)) _ (immxS_bound imm (by decide)) hw ?_ _
  have k := immxOk_immxS imm (n := 19) (k := 13) (by decide)
  obtain ⟨h0, h⟩ | h1 := immxS_reads 32 19 imm
  · rw [h0]
    simp only [parseFields, parseImm, with1, imm19_parts]
    simpa [immxOk] using (congrArg _ (ofNat_mod_pow 19 imm.toNat)).trans h
  · rw [h1] at k ⊢
    simp only [parseFields, parseImm, with1, imm19_parts, k]
    simpa using ofNat_parts (n := 19) imm

theorem movhi (d : Field) (h : BitVec 13) : Statement (.movhi d h) := fun hw _ => by
  have := h.isLt
  refine lRow _ (by decide) d _ _ (by omega) _ (by simp) hw ?_ _
  simp only [parseFields, parseImm, noPrefix, imm19_parts]
  simp [this]

theorem addpc (d : Field) (off : BitVec 44) : Statement (.addpc d off) := fun hw _ => by
  refine lRow _ (by decide) d _ _ (Nat.mod_lt _ (by decide)) _ (immxS_bound off (by decide)) hw ?_ _
  obtain ⟨h0, h⟩ | h1 := immxS_reads 44 19 off
  · rw [h0]
    simp only [parseFields, parseImm, with1, imm19_parts]
    simpa using (congrArg _ (ofNat_mod_pow 19 off.toNat)).trans h
  · rw [h1]
    simp only [parseFields, parseImm, with1, imm19_parts]
    simpa using ofNat_parts (n := 19) off

theorem jRow (op cond : Nat) (h0 : op < 0x3E) (hc : cond < 8) (off : BitVec 48) (i : Instr) (hw : i.wf = true)
    (hp : ∀ x d a b fn, d / 16 = cond →
      jOff x (d % 16 * 2 ^ 19 + a * 4096 + b * 32 + fn) = off → parseFields { x := x } op d a b fn = some (i, true))
    (rest) : decode (encJ op cond off ++ rest) = .instr i rest := by
  refine decode_enc01 (by decide) (immxS_bound off (by decide)) ⟨h0, by omega, by omega, by omega, by omega⟩ hw ?_
  have e : (cond * 16 + off.toNat % 2 ^ 23 / 2 ^ 19) % 16 * 2 ^ 19 + off.toNat % 2 ^ 23 % 2 ^ 19 / 4096 * 4096
      + off.toNat % 2 ^ 23 % 4096 / 32 * 32 + off.toNat % 2 ^ 23 % 32 = off.toNat % 2 ^ 23 := by omega
  simpa [sentPrefixes] using hp (immxS 48 23 off) _ _ _ _ (by omega) ((congrArg _ e).trans (jOff_reads off))

theorem bra (off : BitVec 48) : Statement (.bra off) := fun hw _ =>
  jRow _ _ (by decide) (by decide) off _ hw (fun x d a b fn h1 h2 => by
    simp only [parseFields, parseJump, with1, h1]
    simp [h2, -Nat.reducePow]) _

theorem call (off : BitVec 48) : Statement (.call off) := fun hw _ =>
  jRow _ _ (by decide) (by decide) off _ hw (fun x d a b fn h1 h2 => by
    simp only [parseFields, parseJump, with1, h1]
    simp [h2, -Nat.reducePow]) _

theorem brc (c : BitVec 3) (off : BitVec 48) : Statement (.brc c off) := fun hw _ =>
  jRow _ _ (by decide) c.isLt off _ hw (fun x d a b fn h1 h2 => by
    simp only [parseFields, parseJump, with1, h1]
    simp [h2, -Nat.reducePow]) _

theorem brcNot (c : BitVec 3) (off : BitVec 48) : Statement (.brcNot c off) := fun hw _ =>
  jRow _ _ (by decide) c.isLt off _ hw (fun x d a b fn h1 h2 => by
    simp only [parseFields, parseJump, with1, h1]
    simp [h2, -Nat.reducePow]) _

theorem mRow (mo : MemOrd) (op d a : Nat) (x : Option Nat) (off9 sz : Nat) (i : Instr) (h0 : op < 0x3E)
    (h1 : d < 128) (h2 : a < 128) (h3 : off9 < 512) (h4 : sz < 8) (hx : ∀ m ∈ x, m < 2 ^ 25) (hw : i.wf = true)
    (hp : ∀ p b fn, p.x = x → p.p0.getD {} = moPrefix mo → b * 4 + fn / 8 = off9 → fn % 8 = sz →
      parseFields p op d a b fn = some (i, true)) (rest) :
    decode (encM mo op d a x off9 sz ++ rest) = .instr i rest :=
  decode_enc01 (moPrefix_in mo) hx ⟨h0, h1, h2, by omega, by omega⟩ hw
    (hp _ _ _ (sentPrefixes_x _ _ _) (sentPrefixes_p0 _ _ _) (by omega) (by omega))

theorem mOffRow (mo : MemOrd) (op d a : Nat) (off : BitVec 34) (sz : Nat) (i : Instr) (h0 : op < 0x3E)
    (h1 : d < 128) (h2 : a < 128) (h4 : sz < 8) (hw : i.wf = true)
    (hp : ∀ p b fn, offOf p.x (b * 4 + fn / 8) = off → p.p0.getD {} = moPrefix mo → fn % 8 = sz →
      parseFields p op d a b fn = some (i, true)) (rest) :
    decode (encMoff mo op d a off sz ++ rest) = .instr i rest :=
  mRow mo op d a _ _ _ i h0 h1 h2 (by omega) h4 (immxS_bound off (by decide)) hw
    (fun p b fn e1 e2 e3 e4 => hp p b fn (by rw [e1, e3, offOf_reads]) e2 e4) rest

theorem ld (mo : MemOrd) (d a : Field) (off : BitVec 34) (sz : Size) : Statement (.ld mo d a off sz) := fun hw _ =>
  mOffRow mo _ _ _ off _ _ (by decide) d.isLt a.isLt (sizeCode_lt sz) hw
    (fun p b fn h1 h2 h3 => by simp [parseFields, parseMem, memRow, h1, h2, h3]) _

theorem st (mo : MemOrd) (d a : Field) (off : BitVec 34) (sz : Size) : Statement (.st mo d a off sz) := fun hw _ =>
  mOffRow mo _ _ _ off _ _ (by decide) d.isLt a.isLt (sizeCode_lt sz) hw
    (fun p b fn h1 h2 h3 => by simp [parseFields, parseMem, memRow, h1, h2, h3]) _

theorem lds (mo : MemOrd) (d a : Field) (off : BitVec 34) (sz : Size) : Statement (.lds mo d a off sz) := fun hw _ =>
  mOffRow mo _ _ _ off _ _ (by decide) d.isLt a.isLt (sizeCode_lt sz) hw
    (fun p b fn h1 h2 h3 => by simp [parseFields, parseMem, memRow, h1, h2, h3]) _

theorem sts (mo : MemOrd) (d a : Field) (off : BitVec 34) (sz : Size) : Statement (.sts mo d a off sz) := fun hw _ =>
  mOffRow mo _ _ _ off _ _ (by decide) d.isLt a.isLt (sizeCode_lt sz) hw
    (fun p b fn h1 h2 h3 => by simp [parseFields, parseMem, memRow, h1, h2, h3]) _

theorem ldc (mo : MemOrd) (d a : Field) (off : BitVec 34) (sz : Size) : Statement (.ldc mo d a off sz) := fun hw _ =>
  mOffRow mo _ _ _ off _ _ (by decide) d.isLt a.isLt (sizeCode_lt sz) hw
    (fun p b fn h1 h2 h3 => by simp [parseFields, parseMem, memRow, h1, h2, h3]) _

theorem ldgs (mo : MemOrd) (d a : Field) (off : BitVec 34) (sz : GSize) : Statement (.ldgs mo d a off sz) := fun hw _ =>
  mOffRow mo _ _ _ off _ _ (by decide) d.isLt a.isLt (gsizeCode_lt sz) hw
    (fun p b fn h1 h2 h3 => by simp [parseFields, parseMem, memRow, h1, h2, h3]) _

/-- The A field of a pointer row. -/
theorem pointerField (spm pf : Bool) (n : BitVec 3) (m : Nat) (hm : m < 4) (a : Nat)
    (ha : a = spm.toNat * 64 + pf.toNat * 8 + n.toNat + m * 16) :
    a < 128 ∧ decide (a / 64 % 2 = 1) = spm ∧ decide (a / 8 % 2 = 1) = pf ∧ a / 16 % 4 = m ∧ BitVec.ofNat 3 a = n := by
  have := n.isLt
  subst ha
  have e : (spm.toNat * 64 + pf.toNat * 8 + n.toNat + m * 16) % 8 = n.toNat := by omega
  have e' : BitVec.ofNat 3 (spm.toNat * 64 + pf.toNat * 8 + n.toNat + m * 16) = n := by
    apply BitVec.eq_of_toNat_eq; simpa using e
  cases spm <;> cases pf <;> simp only [Bool.toNat_true, Bool.toNat_false, decide_eq_true_eq,
    decide_eq_false_iff_not] at * <;> exact ⟨by omega, by omega, by omega, by omega, e'⟩

theorem pRow (mo : MemOrd) (op d : Nat) (spm pf : Bool) (m : PtrMode) (n : BitVec 3) (sz : Nat) (i : Instr)
    (h0 : op < 0x3E) (h1 : d < 128) (h4 : sz < 8) (hw : i.wf = true)
    (hp : ∀ p a b fn mode, p.p0.getD {} = moPrefix mo → fn % 8 = sz → pointerMode p.x mode (b * 4 + fn / 8) = (m, true) →
      (p.x = none ∨ mode = 0) → a / 16 % 4 = mode → decide (a / 64 % 2 = 1) = spm → decide (a / 8 % 2 = 1) = pf →
      BitVec.ofNat 3 a = n → parseFields p op d a b fn = some (i, true)) (rest) :
    decode (encPtr mo op d spm pf m n sz ++ rest) = .instr i rest := by
  unfold encPtr
  cases m with
  | off o =>
    obtain ⟨k0, k1, k2, k3, k4⟩ := pointerField spm pf n 0 (by decide) _ rfl
    exact mOffRow mo op d _ o sz i h0 h1 k0 h4 hw
      (fun p b fn e1 e2 e3 => hp p _ b fn 0 e2 e3 (by simp [pointerMode, e1]) (.inr rfl) k3 k1 k2 k4) rest
  | inc =>
    obtain ⟨k0, k1, k2, k3, k4⟩ := pointerField spm pf n 1 (by decide) _ rfl
    exact mRow mo op d _ _ _ sz i h0 h1 k0 (by decide) h4 (by simp) hw
      (fun p b fn e1 e2 e3 e4 => hp p _ b fn 1 e2 e4 (by simp [pointerMode, e3]) (.inl e1) k3 k1 k2 k4) rest
  | idx f =>
    have := f.isLt
    obtain ⟨k0, k1, k2, k3, k4⟩ := pointerField spm pf n 2 (by decide) _ rfl
    exact mRow mo op d _ _ _ sz i h0 h1 k0 (by omega) h4 (by simp) hw
      (fun p b fn e1 e2 e3 e4 => hp p _ b fn 2 e2 e4 (by simp [pointerMode, e3, this]) (.inl e1) k3 k1 k2 k4) rest

theorem notBoth {p : Prefixes} {mode : Nat} (h : p.x = none ∨ mode = 0) : ¬(p.x.isSome = true ∧ ¬mode = 0) := by
  rintro ⟨h1, h2⟩
  rcases h with h | h
  · simp [h] at h1
  · exact h2 h

theorem ldPointer (mo : MemOrd) (d : Field) (spm : Bool) (mode : PtrMode) (n : BitVec 3) (sz : Size) :
    Statement (.ldPointer mo d spm mode n sz) := fun hw _ =>
  pRow mo _ _ spm false mode n _ _ (by decide) d.isLt (sizeCode_lt sz) hw
    (fun p a b fn m e1 e2 e3 e4 e5 e6 e7 e8 => by
      have e9 := notBoth e4
      have e10 : (a / 8 % 2 = 1) = False := by simpa using e7
      have e11 : (a / 64 % 2 = 1) = (spm = true) := by simp [← e6]
      simp [parseFields, parseMem, parsePointer, e1, e2, e3, e5, e8, e9, e10, e11]) _

theorem stPointer (mo : MemOrd) (d : Field) (spm : Bool) (mode : PtrMode) (n : BitVec 3) (sz : Size) :
    Statement (.stPointer mo d spm mode n sz) := fun hw _ =>
  pRow mo _ _ spm false mode n _ _ (by decide) d.isLt (sizeCode_lt sz) hw
    (fun p a b fn m e1 e2 e3 e4 e5 e6 e7 e8 => by
      have e9 := notBoth e4
      have e10 : (a / 8 % 2 = 1) = False := by simpa using e7
      have e11 : (a / 64 % 2 = 1) = (spm = true) := by simp [← e6]
      simp [parseFields, parseMem, parsePointer, e1, e2, e3, e5, e8, e9, e10, e11]) _

theorem ldPf (mo : MemOrd) (mode : PtrMode) (n : BitVec 3) (sz : Size) : Statement (.ldPf mo mode n sz) := fun hw _ =>
  pRow mo _ _ false true mode n _ _ (by decide) (by decide) (sizeCode_lt sz) hw
    (fun p a b fn m e1 e2 e3 e4 e5 e6 e7 e8 => by
      have e9 := notBoth e4
      have e10 : (a / 8 % 2 = 1) = True := by simpa using e7
      have e11 : (a / 64 % 2 = 1) = (false = true) := by simp [← e6]
      simp [parseFields, parseMem, parsePointer, e1, e2, e3, e5, e8, e9, e10, e11]) _

theorem aRow (mo : MemOrd) (ty : Ty) (op d : Nat) (a b : Field) (fn : Nat) (i : Instr) (h0 : op < 0x3E) (h1 : d < 128)
    (h2 : fn < 32) (hw : i.wf = true)
    (hp : ∀ p : Prefixes, p.x = none →
      p.p0.getD {} = { scope := scopeCode mo.scope, ord := ordCode mo.ord, ty := tyCode ty } →
      parseFields p op d a.toNat b.toNat fn = some (i, true)) (rest) :
    decode (encAtom mo ty op d a b fn ++ rest) = .instr i rest :=
  decode_enc0 ⟨Nat.zero_lt_succ _, Nat.zero_lt_succ _, Nat.zero_lt_succ _,
      Nat.lt_trans (scopeCode_lt mo.scope) (by decide), ordCode_lt mo.ord, tyCode_lt ty⟩
    ⟨h0, h1, a.isLt, b.isLt, h2⟩ hw (hp _ (sentPrefixes_x _ _ _) (sentPrefixes_p0 _ _ _))

theorem scopeCode_ne (s : Scope) : scopeCode s ≠ 7 := Nat.ne_of_lt (scopeCode_lt s)

theorem atom (mo : MemOrd) (ty : Ty) (op : AtomOp) (d a b : Field) : Statement (.atom mo ty op d a b) := fun hw _ => by
  have h := atomOpCode_lt op
  have e : atomOpCode op % 16 = atomOpCode op := by omega
  have e' : atomOpCode op < 16 := by omega
  exact aRow mo ty _ _ a b _ _ (by decide) d.isLt (by omega) hw
    (fun p e1 e2 => by simp [parseFields, parseAtomic, with0, moOf, scopeCode_ne, e, e', e1, e2]) _

theorem atomSpm (mo : MemOrd) (ty : Ty) (op : AtomOp) (d a b : Field) : Statement (.atomSpm mo ty op d a b) :=
  fun hw _ => by
  have h := atomOpCode_lt op
  have e : atomOpCode op % 16 = atomOpCode op := by omega
  have e' : atomOpCode op < 16 := by omega
  exact aRow mo ty _ _ a b _ _ (by decide) d.isLt (by omega) hw
    (fun p e1 e2 => by simp [parseFields, parseAtomic, with0, moOf, scopeCode_ne, e, e', e1, e2]) _

theorem red (mo : MemOrd) (ty : Ty) (op : AtomOp) (a b : Field) : Statement (.red mo ty op a b) := fun hw _ => by
  have h := atomOpCode_lt op
  have e : (16 + atomOpCode op) % 16 = atomOpCode op := by omega
  have r : Machine.redOp op = true := by
    simp only [Instr.wf, Machine.fieldsOk, Machine.numbersOk, Bool.and_eq_true] at hw
    exact hw.2.1.1.2
  exact aRow mo ty _ _ a b _ _ (by decide) (by decide) (by omega) hw
    (fun p e1 e2 => by simp [parseFields, parseAtomic, with0, moOf, scopeCode_ne, r, e, e1, e2]) _

theorem redSpm (mo : MemOrd) (ty : Ty) (op : AtomOp) (a b : Field) : Statement (.redSpm mo ty op a b) := fun hw _ => by
  have h := atomOpCode_lt op
  have e : (16 + atomOpCode op) % 16 = atomOpCode op := by omega
  have r : Machine.redOp op = true := by
    simp only [Instr.wf, Machine.fieldsOk, Machine.numbersOk, Bool.and_eq_true] at hw
    exact hw.2.1.1.2
  exact aRow mo ty _ _ a b _ _ (by decide) (by decide) (by omega) hw
    (fun p e1 e2 => by simp [parseFields, parseAtomic, with0, moOf, scopeCode_ne, r, e, e1, e2]) _

theorem mma (sa sb : BitVec 3) (h a b : Field) (t : BitVec 10) : Statement (.mma sa sb h a b t) := fun hw _ => by
  have e : t.toNat % 16 < 16 := by omega
  have h1 := sa.isLt
  have h2 := sb.isLt
  exact decode_enc01 ⟨Nat.zero_lt_succ _, Nat.lt_trans h2 (by decide), h1, Nat.zero_lt_succ _, Nat.zero_lt_succ _,
      Nat.zero_lt_succ _⟩ (tileX_bound t) ⟨by decide, h.isLt, a.isLt, b.isLt, by omega⟩ hw
    (by simp [parseFields, parseMma, e, tileOf_reads t _ (.inl rfl), immxOk_tileX, h2])

theorem mmaR (sa sb : BitVec 3) (h a b : Field) (t : BitVec 10) : Statement (.mmaR sa sb h a b t) := fun hw _ => by
  have e : ¬ 16 + t.toNat % 16 < 16 := by omega
  have h1 := sa.isLt
  have h2 := sb.isLt
  exact decode_enc01 ⟨Nat.zero_lt_succ _, Nat.lt_trans h2 (by decide), h1, Nat.zero_lt_succ _, Nat.zero_lt_succ _,
      Nat.zero_lt_succ _⟩ (tileX_bound t) ⟨by decide, h.isLt, a.isLt, b.isLt, by omega⟩ hw
    (by simp [parseFields, parseMma, tileOf_reads t _ (.inr rfl), immxOk_tileX, h2])

theorem mmas (sa sb : BitVec 3) (p : Pattern) (h a b e : Field) (t : BitVec 10) : Statement (.mmas sa sb p h a b e t) :=
  fun hw _ => by
  have k : t.toNat % 16 < 16 := by omega
  have h1 := sa.isLt
  have h2 := sb.isLt
  have h3 := patternCode_lt p
  have hq : PrefixIn { e := e.toNat, f := patternCode p * 8 + sb.toNat, slot := sa.toNat } :=
    ⟨e.isLt, by simp only; omega, h1, Nat.zero_lt_succ _, Nat.zero_lt_succ _, Nat.zero_lt_succ _⟩
  have hf : FieldsIn 0x35 h.toNat a.toNat b.toNat (t.toNat % 16) := ⟨by decide, h.isLt, a.isLt, b.isLt, by omega⟩
  have e1 : (patternCode p * 8 + sb.toNat) / 8 % 4 = patternCode p := by omega
  have e2 : BitVec.ofNat 3 (patternCode p * 8 + sb.toNat) = sb := by
    apply BitVec.eq_of_toNat_eq; simp only [BitVec.toNat_ofNat]; omega
  have e3 : patternCode p * 8 + sb.toNat < 32 := by omega
  have hp : ∀ x, tileOf x (t.toNat % 16) = t → immxOk x 6 = true →
      parseFields { p0 := some { e := e.toNat, f := patternCode p * 8 + sb.toNat, slot := sa.toNat }, x := x } 0x35
        h.toNat a.toNat b.toNat (t.toNat % 16) = some (.mmas sa sb p h a b e t, true) := fun x k1 k2 => by
    simp [parseFields, parseMmas, e1, e2, e3, k, k1, k2]
  have k1 := tileOf_reads t _ (.inl rfl)
  have k2 := immxOk_tileX t
  have k3 := tileX_bound t
  show decode ((match tileX t with | none => _ | some m => _) ++ _) = _
  generalize tileX t = x at *
  cases x with
  | none => exact (decode_p0 hq hf).trans (by rw [hp none k1 k2, verdict_ok hw]; rfl)
  | some m => exact (decode_p01 hq (k3 m rfl) hf).trans (by rw [hp _ k1 k2, verdict_ok hw]; rfl)

theorem sRow (d a sop : Nat) (n : BitVec 9) (i : Instr) (h1 : d < 128) (h2 : a < 128) (h3 : sop < 8) (hw : i.wf = true)
    (hp : ∀ b fn, b / 16 = sop → BitVec.ofNat 9 (b * 32 + fn) = n → b = sop * 16 + n.toNat / 32 → fn = n.toNat % 32 →
      parseFields {} 0x3D d a b fn = some (i, true)) (rest) :
    decode (encS d a sop n ++ rest) = .instr i rest := by
  have := n.isLt
  refine decode_plain ⟨by decide, h1, h2, by omega, by omega⟩ hw (hp _ _ (by omega) ?_ rfl rfl)
  apply BitVec.eq_of_toNat_eq
  simp only [BitVec.toNat_ofNat]
  omega

theorem csrr (d : Field) (n : BitVec 9) : Statement (.csrr d n) := fun hw _ =>
  sRow _ _ _ n _ d.isLt (by decide) (by decide) hw
    (fun b fn h1 h2 _ _ => by simp [parseFields, parseSystem, noPrefix, h1, h2]) _

theorem csrw (n : BitVec 9) (a : Field) : Statement (.csrw n a) := fun hw _ =>
  sRow _ _ _ n _ (by decide) a.isLt (by decide) hw
    (fun b fn h1 h2 _ _ => by simp [parseFields, parseSystem, noPrefix, h1, h2]) _

theorem svc (code : BitVec 9) : Statement (.svc code) := fun hw _ =>
  sRow _ _ _ code _ (by decide) (by decide) (by decide) hw
    (fun b fn h1 h2 _ _ => by simp [parseFields, parseSystem, noPrefix, h1, h2]) _

theorem eret : Statement .eret := fun hw _ =>
  sRow _ _ _ 0 _ (by decide) (by decide) (by decide) hw
    (fun b fn h1 _ h3 h4 => by simp [parseFields, parseSystem, noPrefix, h3, h4]) _

theorem bkpt (code : BitVec 9) : Statement (.bkpt code) := fun hw _ =>
  sRow _ _ _ code _ (by decide) (by decide) (by decide) hw
    (fun b fn h1 h2 _ _ => by simp [parseFields, parseSystem, noPrefix, h1, h2]) _

theorem mjoin (m : BitVec 4) : Statement (.mjoin m) := fun hw _ => by
  have h := m.isLt
  have r : ¬ m.toNat % 16 = 0 := by
    simp only [Instr.wf, Machine.fieldsOk, Machine.numbersOk, Bool.and_eq_true, decide_eq_true_eq] at hw
    omega
  exact decode_plain ⟨by decide, by omega, by decide, by decide, by decide⟩ hw
    (by simp [parseFields, parseMask, maskRow, noPrefix, r]; omega)

theorem mleave (m : BitVec 4) : Statement (.mleave m) := fun hw _ => by
  have h := m.isLt
  have r : ¬ m.toNat % 16 = 0 := by
    simp only [Instr.wf, Machine.fieldsOk, Machine.numbersOk, Bool.and_eq_true, decide_eq_true_eq] at hw
    omega
  exact decode_plain ⟨by decide, by omega, by decide, by decide, by decide⟩ hw
    (by simp [parseFields, parseMask, maskRow, noPrefix, r]; omega)

theorem mwrite (m : BitVec 4) (a : Field) : Statement (.mwrite m a) := fun hw _ => by
  have h := m.isLt
  have r : ¬ m.toNat % 16 = 0 := by
    simp only [Instr.wf, Machine.fieldsOk, Machine.numbersOk, Bool.and_eq_true, decide_eq_true_eq] at hw
    omega
  exact decode_plain ⟨by decide, by omega, a.isLt, by decide, by decide⟩ hw
    (by simp [parseFields, parseMask, maskRow, noPrefix, r]; omega)

theorem cmp (ty : Ty) (cc : Cond) (c : BitVec 3) (a b : Field) : Statement (.cmp ty cc c a b) := fun hw _ => by
  have hc := condCode_lt cc
  have h3 := c.isLt
  have e1 : (condCode cc * 8 + c.toNat) / 8 = condCode cc := by omega
  have e2 : BitVec.ofNat 3 (condCode cc * 8 + c.toNat) = c := by
    apply BitVec.eq_of_toNat_eq; simp only [BitVec.toNat_ofNat]; omega
  exact decode_enc0 (tyPrefix_in ty) ⟨by decide, by omega, a.isLt, b.isLt, by decide⟩ hw
    (by simp [parseFields, parseInt, tyRow, with0, onlyTy, e1, e2])

theorem lut3 (table : BitVec 8) (d a b : Field) : Statement (.lut3 table d a b) := fun hw _ => by
  have h := table.isLt
  have e1 : (16 + table.toNat / 32 - 16) * 32 + table.toNat % 32 = table.toNat := by omega
  have e2 : ¬ 16 + table.toNat / 32 ≤ 12 := by omega
  have e3 : 16 + table.toNat / 32 ≤ 23 := by omega
  have e4 : ¬ 16 + table.toNat / 32 = 1 := by omega
  exact decode_plain ⟨by omega, d.isLt, a.isLt, b.isLt, by omega⟩ hw
    (by simp only [parseFields, noPrefix, e1, e2, e3, e4]; simp)

theorem plop (d a b : BitVec 3) (table : BitVec 4) : Statement (.plop d a b table) := fun hw _ => by
  have h1 := d.isLt
  have h2 := a.isLt
  have h3 := b.isLt
  have h4 := table.isLt
  have e1 : (table.toNat * 8 + b.toNat) / 8 = table.toNat := by omega
  have e2 : BitVec.ofNat 3 (table.toNat * 8 + b.toNat) = b := by
    apply BitVec.eq_of_toNat_eq; simp only [BitVec.toNat_ofNat]; omega
  exact decode_plain ⟨by decide, by omega, by omega, by omega, by decide⟩ hw
    (by simp [parseFields, parseMask, noPrefix, e1, e2]; omega)

theorem migr (id : BitVec 12) : Statement (.migr id) := fun hw _ => by
  have h := id.isLt
  have e : id.toNat / 32 * 32 + id.toNat % 32 = id.toNat := by omega
  exact decode_plain ⟨by decide, by decide, by decide, by omega, by omega⟩ hw
    (by simp [parseFields, noPrefix, e])

theorem stitch (nr : BitVec 4) (na1 : BitVec 3) (a b : Field) : Statement (.stitch nr na1 a b) := fun hw _ => by
  have h1 := nr.isLt
  have h2 := na1.isLt
  have e1 : (nr.toNat * 8 + na1.toNat) / 8 = nr.toNat := by omega
  have e2 : BitVec.ofNat 3 (nr.toNat * 8 + na1.toNat) = na1 := by
    apply BitVec.eq_of_toNat_eq; simp only [BitVec.toNat_ofNat]; omega
  exact decode_plain ⟨by decide, by omega, a.isLt, b.isLt, by decide⟩ hw
    (by simp [parseFields, parseQueue, noPrefix, e1, e2])

theorem fcmp (cc : FCond) (c : BitVec 3) (a b : Field) : Statement (.fcmp cc c a b) := fun hw _ => by
  have hc := fcondCode_lt cc
  have h3 := c.isLt
  have e1 : (fcondCode cc * 8 + c.toNat) / 8 = fcondCode cc := by omega
  have e2 : BitVec.ofNat 3 (fcondCode cc * 8 + c.toNat) = c := by
    apply BitVec.eq_of_toNat_eq; simp only [BitVec.toNat_ofNat]; omega
  exact decode_plain ⟨by decide, by omega, a.isLt, b.isLt, by decide⟩ hw
    (by simp [parseFields, parseFloat, noPrefix, e1, e2])

theorem fround (m : RMode) (d a : Field) : Statement (.fround m d a) := fun hw _ => by
  have h := rmodeCode_lt m
  have e : rmodeCode m % 4 = rmodeCode m := by omega
  exact decode_plain ⟨by decide, d.isLt, a.isLt, by omega, by decide⟩ hw
    (by simp [parseFields, parseFloat, noPrefix, e, h])

theorem f2i (ty : Ty) (m : RMode) (d a : Field) : Statement (.f2i ty m d a) := fun hw _ => by
  have h := rmodeCode_lt m
  have e : rmodeCode m % 4 = rmodeCode m := by omega
  exact decode_enc0 (tyPrefix_in ty) ⟨by decide, d.isLt, a.isLt, by omega, by decide⟩ hw
    (by simp [parseFields, parseConvert, tyRow, with0, onlyTy, e, h])

theorem dot4S8 (d a b : Field) : Statement (.dot4S8 d a b) := fun hw _ =>
  decode_plain ⟨by decide, d.isLt, a.isLt, b.isLt, by decide⟩ hw (by simp [parseFields, parsePacked, with0])

theorem prune (p : Pattern) (s : BitVec 3) (d a : Field) : Statement (.prune p s d a) := fun hw _ => by
  have h1 := patternCode_lt p
  have h2 := s.isLt
  have e1 : (patternCode p * 8 + s.toNat) / 8 % 4 = patternCode p := by omega
  have e2 : BitVec.ofNat 3 (patternCode p * 8 + s.toNat) = s := by
    apply BitVec.eq_of_toNat_eq; simp only [BitVec.toNat_ofNat]; omega
  exact decode_plain ⟨by decide, d.isLt, a.isLt, by omega, by decide⟩ hw
    (by simp [parseFields, parseCross, noPrefix, e1, e2]; omega)

theorem wbld (mo : MemOrd) (s : BitVec 3) (d a b : Field) : Statement (.wbld mo s d a b) := fun hw _ => by
  have h := s.isLt
  exact decode_enc0 ⟨Nat.zero_lt_succ _, Nat.zero_lt_succ _, h, Nat.lt_trans (scopeCode_lt mo.scope) (by decide),
      ordCode_lt mo.ord, Nat.zero_lt_succ _⟩ ⟨by decide, d.isLt, a.isLt, b.isLt, by decide⟩ hw
    (by simp [parseFields, parseAm, moOf, scopeCode_ne])

theorem add (ty : Ty) (d : Field) (a : Field) (b : Field) : Statement (.add ty d a b) := fun hw _ =>
  decode_enc0 (d := {}) (q := { ty := tyCode ty }) (⟨Nat.zero_lt_succ _, Nat.zero_lt_succ _, Nat.zero_lt_succ _, Nat.zero_lt_succ _, Nat.zero_lt_succ _, Nat.lt_of_lt_of_le (tyCode_lt ty) (by decide)⟩)
    ⟨by decide, d.isLt, a.isLt, b.isLt, by decide⟩ hw (by simp [parseFields, parseInt, with0, tyRow, onlyTy])
theorem sub (ty : Ty) (d : Field) (a : Field) (b : Field) : Statement (.sub ty d a b) := fun hw _ =>
  decode_enc0 (d := {}) (q := { ty := tyCode ty }) (⟨Nat.zero_lt_succ _, Nat.zero_lt_succ _, Nat.zero_lt_succ _, Nat.zero_lt_succ _, Nat.zero_lt_succ _, Nat.lt_of_lt_of_le (tyCode_lt ty) (by decide)⟩)
    ⟨by decide, d.isLt, a.isLt, b.isLt, by decide⟩ hw (by simp [parseFields, parseInt, with0, tyRow, onlyTy])
theorem mul (ty : Ty) (d : Field) (a : Field) (b : Field) : Statement (.mul ty d a b) := fun hw _ =>
  decode_enc0 (d := {}) (q := { ty := tyCode ty }) (⟨Nat.zero_lt_succ _, Nat.zero_lt_succ _, Nat.zero_lt_succ _, Nat.zero_lt_succ _, Nat.zero_lt_succ _, Nat.lt_of_lt_of_le (tyCode_lt ty) (by decide)⟩)
    ⟨by decide, d.isLt, a.isLt, b.isLt, by decide⟩ hw (by simp [parseFields, parseInt, with0, tyRow, onlyTy])
theorem mulhi (ty : Ty) (d : Field) (a : Field) (b : Field) : Statement (.mulhi ty d a b) := fun hw _ =>
  decode_enc0 (d := {}) (q := { ty := tyCode ty }) (⟨Nat.zero_lt_succ _, Nat.zero_lt_succ _, Nat.zero_lt_succ _, Nat.zero_lt_succ _, Nat.zero_lt_succ _, Nat.lt_of_lt_of_le (tyCode_lt ty) (by decide)⟩)
    ⟨by decide, d.isLt, a.isLt, b.isLt, by decide⟩ hw (by simp [parseFields, parseInt, with0, tyRow, onlyTy])
theorem mad (ty : Ty) (d : Field) (a : Field) (b : Field) : Statement (.mad ty d a b) := fun hw _ =>
  decode_enc0 (d := {}) (q := { ty := tyCode ty }) (⟨Nat.zero_lt_succ _, Nat.zero_lt_succ _, Nat.zero_lt_succ _, Nat.zero_lt_succ _, Nat.zero_lt_succ _, Nat.lt_of_lt_of_le (tyCode_lt ty) (by decide)⟩)
    ⟨by decide, d.isLt, a.isLt, b.isLt, by decide⟩ hw (by simp [parseFields, parseInt, with0, tyRow, onlyTy])
theorem div (ty : Ty) (d : Field) (a : Field) (b : Field) : Statement (.div ty d a b) := fun hw _ =>
  decode_enc0 (d := {}) (q := { ty := tyCode ty }) (⟨Nat.zero_lt_succ _, Nat.zero_lt_succ _, Nat.zero_lt_succ _, Nat.zero_lt_succ _, Nat.zero_lt_succ _, Nat.lt_of_lt_of_le (tyCode_lt ty) (by decide)⟩)
    ⟨by decide, d.isLt, a.isLt, b.isLt, by decide⟩ hw (by simp [parseFields, parseInt, with0, tyRow, onlyTy])
theorem rem (ty : Ty) (d : Field) (a : Field) (b : Field) : Statement (.rem ty d a b) := fun hw _ =>
  decode_enc0 (d := {}) (q := { ty := tyCode ty }) (⟨Nat.zero_lt_succ _, Nat.zero_lt_succ _, Nat.zero_lt_succ _, Nat.zero_lt_succ _, Nat.zero_lt_succ _, Nat.lt_of_lt_of_le (tyCode_lt ty) (by decide)⟩)
    ⟨by decide, d.isLt, a.isLt, b.isLt, by decide⟩ hw (by simp [parseFields, parseInt, with0, tyRow, onlyTy])
theorem min (ty : Ty) (d : Field) (a : Field) (b : Field) : Statement (.min ty d a b) := fun hw _ =>
  decode_enc0 (d := {}) (q := { ty := tyCode ty }) (⟨Nat.zero_lt_succ _, Nat.zero_lt_succ _, Nat.zero_lt_succ _, Nat.zero_lt_succ _, Nat.zero_lt_succ _, Nat.lt_of_lt_of_le (tyCode_lt ty) (by decide)⟩)
    ⟨by decide, d.isLt, a.isLt, b.isLt, by decide⟩ hw (by simp [parseFields, parseInt, with0, tyRow, onlyTy])
theorem max (ty : Ty) (d : Field) (a : Field) (b : Field) : Statement (.max ty d a b) := fun hw _ =>
  decode_enc0 (d := {}) (q := { ty := tyCode ty }) (⟨Nat.zero_lt_succ _, Nat.zero_lt_succ _, Nat.zero_lt_succ _, Nat.zero_lt_succ _, Nat.zero_lt_succ _, Nat.lt_of_lt_of_le (tyCode_lt ty) (by decide)⟩)
    ⟨by decide, d.isLt, a.isLt, b.isLt, by decide⟩ hw (by simp [parseFields, parseInt, with0, tyRow, onlyTy])
theorem abs (ty : Ty) (d : Field) (a : Field) : Statement (.abs ty d a) := fun hw _ =>
  decode_enc0 (d := {}) (q := { ty := tyCode ty }) (⟨Nat.zero_lt_succ _, Nat.zero_lt_succ _, Nat.zero_lt_succ _, Nat.zero_lt_succ _, Nat.zero_lt_succ _, Nat.lt_of_lt_of_le (tyCode_lt ty) (by decide)⟩)
    ⟨by decide, d.isLt, a.isLt, by decide, by decide⟩ hw (by simp [parseFields, parseInt, with0, tyRow, onlyTy])
theorem neg (ty : Ty) (d : Field) (a : Field) : Statement (.neg ty d a) := fun hw _ =>
  decode_enc0 (d := {}) (q := { ty := tyCode ty }) (⟨Nat.zero_lt_succ _, Nat.zero_lt_succ _, Nat.zero_lt_succ _, Nat.zero_lt_succ _, Nat.zero_lt_succ _, Nat.lt_of_lt_of_le (tyCode_lt ty) (by decide)⟩)
    ⟨by decide, d.isLt, a.isLt, by decide, by decide⟩ hw (by simp [parseFields, parseInt, with0, tyRow, onlyTy])
theorem and (ty : Ty) (d : Field) (a : Field) (b : Field) : Statement (.and ty d a b) := fun hw _ =>
  decode_enc0 (d := {}) (q := { ty := tyCode ty }) (⟨Nat.zero_lt_succ _, Nat.zero_lt_succ _, Nat.zero_lt_succ _, Nat.zero_lt_succ _, Nat.zero_lt_succ _, Nat.lt_of_lt_of_le (tyCode_lt ty) (by decide)⟩)
    ⟨by decide, d.isLt, a.isLt, b.isLt, by decide⟩ hw (by simp [parseFields, parseInt, with0, tyRow, onlyTy])
theorem or (ty : Ty) (d : Field) (a : Field) (b : Field) : Statement (.or ty d a b) := fun hw _ =>
  decode_enc0 (d := {}) (q := { ty := tyCode ty }) (⟨Nat.zero_lt_succ _, Nat.zero_lt_succ _, Nat.zero_lt_succ _, Nat.zero_lt_succ _, Nat.zero_lt_succ _, Nat.lt_of_lt_of_le (tyCode_lt ty) (by decide)⟩)
    ⟨by decide, d.isLt, a.isLt, b.isLt, by decide⟩ hw (by simp [parseFields, parseInt, with0, tyRow, onlyTy])
theorem xor (ty : Ty) (d : Field) (a : Field) (b : Field) : Statement (.xor ty d a b) := fun hw _ =>
  decode_enc0 (d := {}) (q := { ty := tyCode ty }) (⟨Nat.zero_lt_succ _, Nat.zero_lt_succ _, Nat.zero_lt_succ _, Nat.zero_lt_succ _, Nat.zero_lt_succ _, Nat.lt_of_lt_of_le (tyCode_lt ty) (by decide)⟩)
    ⟨by decide, d.isLt, a.isLt, b.isLt, by decide⟩ hw (by simp [parseFields, parseInt, with0, tyRow, onlyTy])
theorem andn (ty : Ty) (d : Field) (a : Field) (b : Field) : Statement (.andn ty d a b) := fun hw _ =>
  decode_enc0 (d := {}) (q := { ty := tyCode ty }) (⟨Nat.zero_lt_succ _, Nat.zero_lt_succ _, Nat.zero_lt_succ _, Nat.zero_lt_succ _, Nat.zero_lt_succ _, Nat.lt_of_lt_of_le (tyCode_lt ty) (by decide)⟩)
    ⟨by decide, d.isLt, a.isLt, b.isLt, by decide⟩ hw (by simp [parseFields, parseInt, with0, tyRow, onlyTy])
theorem shl (ty : Ty) (d : Field) (a : Field) (b : Field) : Statement (.shl ty d a b) := fun hw _ =>
  decode_enc0 (d := {}) (q := { ty := tyCode ty }) (⟨Nat.zero_lt_succ _, Nat.zero_lt_succ _, Nat.zero_lt_succ _, Nat.zero_lt_succ _, Nat.zero_lt_succ _, Nat.lt_of_lt_of_le (tyCode_lt ty) (by decide)⟩)
    ⟨by decide, d.isLt, a.isLt, b.isLt, by decide⟩ hw (by simp [parseFields, parseInt, with0, tyRow, onlyTy])
theorem shr (ty : Ty) (d : Field) (a : Field) (b : Field) : Statement (.shr ty d a b) := fun hw _ =>
  decode_enc0 (d := {}) (q := { ty := tyCode ty }) (⟨Nat.zero_lt_succ _, Nat.zero_lt_succ _, Nat.zero_lt_succ _, Nat.zero_lt_succ _, Nat.zero_lt_succ _, Nat.lt_of_lt_of_le (tyCode_lt ty) (by decide)⟩)
    ⟨by decide, d.isLt, a.isLt, b.isLt, by decide⟩ hw (by simp [parseFields, parseInt, with0, tyRow, onlyTy])
theorem sar (ty : Ty) (d : Field) (a : Field) (b : Field) : Statement (.sar ty d a b) := fun hw _ =>
  decode_enc0 (d := {}) (q := { ty := tyCode ty }) (⟨Nat.zero_lt_succ _, Nat.zero_lt_succ _, Nat.zero_lt_succ _, Nat.zero_lt_succ _, Nat.zero_lt_succ _, Nat.lt_of_lt_of_le (tyCode_lt ty) (by decide)⟩)
    ⟨by decide, d.isLt, a.isLt, b.isLt, by decide⟩ hw (by simp [parseFields, parseInt, with0, tyRow, onlyTy])
theorem fshl (ty : Ty) (d : Field) (a : Field) (b : Field) : Statement (.fshl ty d a b) := fun hw _ =>
  decode_enc0 (d := {}) (q := { ty := tyCode ty }) (⟨Nat.zero_lt_succ _, Nat.zero_lt_succ _, Nat.zero_lt_succ _, Nat.zero_lt_succ _, Nat.zero_lt_succ _, Nat.lt_of_lt_of_le (tyCode_lt ty) (by decide)⟩)
    ⟨by decide, d.isLt, a.isLt, b.isLt, by decide⟩ hw (by simp [parseFields, parseInt, with0, tyRow, onlyTy])
theorem fshr (ty : Ty) (d : Field) (a : Field) (b : Field) : Statement (.fshr ty d a b) := fun hw _ =>
  decode_enc0 (d := {}) (q := { ty := tyCode ty }) (⟨Nat.zero_lt_succ _, Nat.zero_lt_succ _, Nat.zero_lt_succ _, Nat.zero_lt_succ _, Nat.zero_lt_succ _, Nat.lt_of_lt_of_le (tyCode_lt ty) (by decide)⟩)
    ⟨by decide, d.isLt, a.isLt, b.isLt, by decide⟩ hw (by simp [parseFields, parseInt, with0, tyRow, onlyTy])
theorem popc (ty : Ty) (d : Field) (a : Field) : Statement (.popc ty d a) := fun hw _ =>
  decode_enc0 (d := {}) (q := { ty := tyCode ty }) (⟨Nat.zero_lt_succ _, Nat.zero_lt_succ _, Nat.zero_lt_succ _, Nat.zero_lt_succ _, Nat.zero_lt_succ _, Nat.lt_of_lt_of_le (tyCode_lt ty) (by decide)⟩)
    ⟨by decide, d.isLt, a.isLt, by decide, by decide⟩ hw (by simp [parseFields, parseInt, with0, tyRow, onlyTy])
theorem clz (ty : Ty) (d : Field) (a : Field) : Statement (.clz ty d a) := fun hw _ =>
  decode_enc0 (d := {}) (q := { ty := tyCode ty }) (⟨Nat.zero_lt_succ _, Nat.zero_lt_succ _, Nat.zero_lt_succ _, Nat.zero_lt_succ _, Nat.zero_lt_succ _, Nat.lt_of_lt_of_le (tyCode_lt ty) (by decide)⟩)
    ⟨by decide, d.isLt, a.isLt, by decide, by decide⟩ hw (by simp [parseFields, parseInt, with0, tyRow, onlyTy])
theorem ctz (ty : Ty) (d : Field) (a : Field) : Statement (.ctz ty d a) := fun hw _ =>
  decode_enc0 (d := {}) (q := { ty := tyCode ty }) (⟨Nat.zero_lt_succ _, Nat.zero_lt_succ _, Nat.zero_lt_succ _, Nat.zero_lt_succ _, Nat.zero_lt_succ _, Nat.lt_of_lt_of_le (tyCode_lt ty) (by decide)⟩)
    ⟨by decide, d.isLt, a.isLt, by decide, by decide⟩ hw (by simp [parseFields, parseInt, with0, tyRow, onlyTy])
theorem brev (ty : Ty) (d : Field) (a : Field) : Statement (.brev ty d a) := fun hw _ =>
  decode_enc0 (d := {}) (q := { ty := tyCode ty }) (⟨Nat.zero_lt_succ _, Nat.zero_lt_succ _, Nat.zero_lt_succ _, Nat.zero_lt_succ _, Nat.zero_lt_succ _, Nat.lt_of_lt_of_le (tyCode_lt ty) (by decide)⟩)
    ⟨by decide, d.isLt, a.isLt, by decide, by decide⟩ hw (by simp [parseFields, parseInt, with0, tyRow, onlyTy])
theorem bfx (ty : Ty) (d : Field) (a : Field) (b : Field) : Statement (.bfx ty d a b) := fun hw _ =>
  decode_enc0 (d := {}) (q := { ty := tyCode ty }) (⟨Nat.zero_lt_succ _, Nat.zero_lt_succ _, Nat.zero_lt_succ _, Nat.zero_lt_succ _, Nat.zero_lt_succ _, Nat.lt_of_lt_of_le (tyCode_lt ty) (by decide)⟩)
    ⟨by decide, d.isLt, a.isLt, b.isLt, by decide⟩ hw (by simp [parseFields, parseInt, with0, tyRow, onlyTy])
theorem bfi (ty : Ty) (d : Field) (a : Field) (b : Field) : Statement (.bfi ty d a b) := fun hw _ =>
  decode_enc0 (d := {}) (q := { ty := tyCode ty }) (⟨Nat.zero_lt_succ _, Nat.zero_lt_succ _, Nat.zero_lt_succ _, Nat.zero_lt_succ _, Nat.zero_lt_succ _, Nat.lt_of_lt_of_le (tyCode_lt ty) (by decide)⟩)
    ⟨by decide, d.isLt, a.isLt, b.isLt, by decide⟩ hw (by simp [parseFields, parseInt, with0, tyRow, onlyTy])
theorem sext (ty : Ty) (d : Field) (a : Field) : Statement (.sext ty d a) := fun hw _ =>
  decode_enc0 (d := {}) (q := { ty := tyCode ty }) (⟨Nat.zero_lt_succ _, Nat.zero_lt_succ _, Nat.zero_lt_succ _, Nat.zero_lt_succ _, Nat.zero_lt_succ _, Nat.lt_of_lt_of_le (tyCode_lt ty) (by decide)⟩)
    ⟨by decide, d.isLt, a.isLt, by decide, by decide⟩ hw (by simp [parseFields, parseInt, with0, tyRow, onlyTy])
theorem zext (ty : Ty) (d : Field) (a : Field) : Statement (.zext ty d a) := fun hw _ =>
  decode_enc0 (d := {}) (q := { ty := tyCode ty }) (⟨Nat.zero_lt_succ _, Nat.zero_lt_succ _, Nat.zero_lt_succ _, Nat.zero_lt_succ _, Nat.zero_lt_succ _, Nat.lt_of_lt_of_le (tyCode_lt ty) (by decide)⟩)
    ⟨by decide, d.isLt, a.isLt, by decide, by decide⟩ hw (by simp [parseFields, parseInt, with0, tyRow, onlyTy])
theorem sel (ty : Ty) (d : Field) (a : Field) (b : Field) (c : BitVec 3) : Statement (.sel ty d a b c) := fun hw _ =>
  decode_enc0 (d := {}) (q := { e := c.toNat, ty := tyCode ty }) (⟨Nat.lt_of_lt_of_le c.isLt (by decide), Nat.zero_lt_succ _, Nat.zero_lt_succ _, Nat.zero_lt_succ _, Nat.zero_lt_succ _, Nat.lt_of_lt_of_le (tyCode_lt ty) (by decide)⟩)
    ⟨by decide, d.isLt, a.isLt, b.isLt, by decide⟩ hw (by have := tyCode_lt ty; have := c.isLt; simp [parseFields, parseInt, with0] <;> omega)
theorem mov (ty : Ty) (d : Field) (a : Field) : Statement (.mov ty d a) := fun hw _ =>
  decode_enc0 (d := {}) (q := { ty := tyCode ty }) (⟨Nat.zero_lt_succ _, Nat.zero_lt_succ _, Nat.zero_lt_succ _, Nat.zero_lt_succ _, Nat.zero_lt_succ _, Nat.lt_of_lt_of_le (tyCode_lt ty) (by decide)⟩)
    ⟨by decide, d.isLt, a.isLt, by decide, by decide⟩ hw (by simp [parseFields, parseInt, with0, tyRow, onlyTy])
theorem lea (ty : Ty) (d : Field) (a : Field) (b : Field) : Statement (.lea ty d a b) := fun hw _ =>
  decode_enc0 (d := {}) (q := { ty := tyCode ty }) (⟨Nat.zero_lt_succ _, Nat.zero_lt_succ _, Nat.zero_lt_succ _, Nat.zero_lt_succ _, Nat.zero_lt_succ _, Nat.lt_of_lt_of_le (tyCode_lt ty) (by decide)⟩)
    ⟨by decide, d.isLt, a.isLt, b.isLt, by decide⟩ hw (by simp [parseFields, parseInt, with0, tyRow, onlyTy])
theorem shli (d : Field) (a : Field) (n : BitVec 5) : Statement (.shli d a n) := fun hw _ =>
  decode_plain ⟨by decide, d.isLt, a.isLt, by decide, by have := n.isLt; omega⟩ hw (by have := n.isLt; simp [parseFields, parseImm, noPrefix] <;> omega)
theorem shri (d : Field) (a : Field) (n : BitVec 5) : Statement (.shri d a n) := fun hw _ =>
  decode_plain ⟨by decide, d.isLt, a.isLt, by decide, by have := n.isLt; omega⟩ hw (by have := n.isLt; simp [parseFields, parseImm, noPrefix] <;> omega)
theorem sari (d : Field) (a : Field) (n : BitVec 5) : Statement (.sari d a n) := fun hw _ =>
  decode_plain ⟨by decide, d.isLt, a.isLt, by decide, by have := n.isLt; omega⟩ hw (by have := n.isLt; simp [parseFields, parseImm, noPrefix] <;> omega)
theorem jmpr (a : Field) : Statement (.jmpr a) := fun hw _ =>
  decode_plain ⟨by decide, by decide, a.isLt, by decide, by decide⟩ hw (by simp [parseFields, parseControl, noPrefix])
theorem callr (a : Field) : Statement (.callr a) := fun hw _ =>
  decode_plain ⟨by decide, by decide, a.isLt, by decide, by decide⟩ hw (by simp [parseFields, parseControl, noPrefix])
theorem ret : Statement .ret := fun hw _ =>
  decode_plain ⟨by decide, by decide, by decide, by decide, by decide⟩ hw (by simp [parseFields, parseControl, noPrefix])
theorem exit : Statement .exit := fun hw _ =>
  decode_plain ⟨by decide, by decide, by decide, by decide, by decide⟩ hw (by simp [parseFields, parseControl, noPrefix])
theorem yield : Statement .yield := fun hw _ =>
  decode_plain ⟨by decide, by decide, by decide, by decide, by decide⟩ hw (by simp [parseFields, parseControl, noPrefix])
theorem fork (d : Field) (a : Field) (b : Field) : Statement (.fork d a b) := fun hw _ =>
  decode_plain ⟨by decide, d.isLt, a.isLt, b.isLt, by decide⟩ hw (by simp [parseFields, parseControl, noPrefix])
theorem join (a : Field) : Statement (.join a) := fun hw _ =>
  decode_plain ⟨by decide, by decide, a.isLt, by decide, by decide⟩ hw (by simp [parseFields, parseControl, noPrefix])
theorem setwb (n : BitVec 5) : Statement (.setwb n) := fun hw _ =>
  decode_plain ⟨by decide, by decide, by decide, by have := n.isLt; omega, by decide⟩ hw (by have := n.isLt; simp [parseFields, parseControl, noPrefix] <;> omega)
theorem setkb (n : BitVec 3) : Statement (.setkb n) := fun hw _ =>
  decode_plain ⟨by decide, by decide, by decide, by have := n.isLt; omega, by decide⟩ hw (by have := n.isLt; simp [parseFields, parseControl, noPrefix] <;> omega)
theorem mwait (m : BitVec 4) : Statement (.mwait m) := fun hw _ =>
  decode_plain ⟨by decide, by have := m.isLt; omega, by decide, by decide, by decide⟩ hw (by have := m.isLt; simp [parseFields, parseMask, noPrefix] <;> omega)
theorem mread (d : Field) (m : BitVec 4) : Statement (.mread d m) := fun hw _ =>
  decode_plain ⟨by decide, d.isLt, by have := m.isLt; omega, by decide, by decide⟩ hw (by have := m.isLt; simp [parseFields, parseMask, noPrefix] <;> omega)
theorem voteAny (d : BitVec 3) (a : BitVec 3) : Statement (.voteAny d a) := fun hw _ =>
  decode_plain ⟨by decide, by have := d.isLt; omega, by have := a.isLt; omega, by decide, by decide⟩ hw (by have := d.isLt; have := a.isLt; simp [parseFields, parseMask, noPrefix] <;> omega)
theorem voteAll (d : BitVec 3) (a : BitVec 3) : Statement (.voteAll d a) := fun hw _ =>
  decode_plain ⟨by decide, by have := d.isLt; omega, by have := a.isLt; omega, by decide, by decide⟩ hw (by have := d.isLt; have := a.isLt; simp [parseFields, parseMask, noPrefix] <;> omega)
theorem voteBallot (d : Field) (a : BitVec 3) : Statement (.voteBallot d a) := fun hw _ =>
  decode_plain ⟨by decide, d.isLt, by have := a.isLt; omega, by decide, by decide⟩ hw (by have := a.isLt; simp [parseFields, parseMask, noPrefix] <;> omega)
theorem shflIdx (d : Field) (a : Field) (b : Field) : Statement (.shflIdx d a b) := fun hw _ =>
  decode_plain ⟨by decide, d.isLt, a.isLt, b.isLt, by decide⟩ hw (by simp [parseFields, parseMask, noPrefix])
theorem shflUp (d : Field) (a : Field) (b : Field) : Statement (.shflUp d a b) := fun hw _ =>
  decode_plain ⟨by decide, d.isLt, a.isLt, b.isLt, by decide⟩ hw (by simp [parseFields, parseMask, noPrefix])
theorem shflDown (d : Field) (a : Field) (b : Field) : Statement (.shflDown d a b) := fun hw _ =>
  decode_plain ⟨by decide, d.isLt, a.isLt, b.isLt, by decide⟩ hw (by simp [parseFields, parseMask, noPrefix])
theorem shflXor (d : Field) (a : Field) (b : Field) : Statement (.shflXor d a b) := fun hw _ =>
  decode_plain ⟨by decide, d.isLt, a.isLt, b.isLt, by decide⟩ hw (by simp [parseFields, parseMask, noPrefix])
theorem bmov (d : Field) (a : Field) (b : Field) : Statement (.bmov d a b) := fun hw _ =>
  decode_plain ⟨by decide, d.isLt, a.isLt, b.isLt, by decide⟩ hw (by simp [parseFields, parseMask, noPrefix])
theorem bfill (d : Field) (a : Field) (b : Field) : Statement (.bfill d a b) := fun hw _ =>
  decode_plain ⟨by decide, d.isLt, a.isLt, b.isLt, by decide⟩ hw (by simp [parseFields, parseMask, noPrefix])
theorem waitf (a : Field) : Statement (.waitf a) := fun hw _ =>
  decode_plain ⟨by decide, by decide, a.isLt, by decide, by decide⟩ hw (by simp [parseFields, parseQueue, noPrefix])
theorem sete (a : Field) : Statement (.sete a) := fun hw _ =>
  decode_plain ⟨by decide, by decide, a.isLt, by decide, by decide⟩ hw (by simp [parseFields, parseQueue, noPrefix])
theorem acpy (mo : MemOrd) (q : BitVec 2) (a : Field) : Statement (.acpy mo q a) := fun hw _ =>
  decode_enc0 (d := {}) (q := moPrefix mo) (moPrefix_in mo)
    ⟨by decide, by have := q.isLt; omega, a.isLt, by decide, by decide⟩ hw (by have := q.isLt; simp [parseFields, parseQueue, with0, moRow] <;> omega)
theorem qjoin (qs : BitVec 4) : Statement (.qjoin qs) := fun hw _ =>
  decode_plain ⟨by decide, by have := qs.isLt; omega, by decide, by decide, by decide⟩ hw (by have := qs.isLt; simp [parseFields, parseQueue, noPrefix] <;> omega)
theorem qwait (q : BitVec 2) (a : Field) : Statement (.qwait q a) := fun hw _ =>
  decode_plain ⟨by decide, by have := q.isLt; omega, a.isLt, by decide, by decide⟩ hw (by have := q.isLt; simp [parseFields, parseQueue, noPrefix] <;> omega)
theorem fence (mo : MemOrd) : Statement (.fence mo) := fun hw _ =>
  decode_enc0 (d := {}) (q := moPrefix mo) (moPrefix_in mo)
    ⟨by decide, by decide, by decide, by decide, by decide⟩ hw (by simp [parseFields, parseQueue, with0, moRow])
theorem bara (a : Field) : Statement (.bara a) := fun hw _ =>
  decode_plain ⟨by decide, by decide, a.isLt, by decide, by decide⟩ hw (by simp [parseFields, parseQueue, noPrefix])
theorem baraTx (a : Field) (b : Field) : Statement (.baraTx a b) := fun hw _ =>
  decode_plain ⟨by decide, by decide, a.isLt, b.isLt, by decide⟩ hw (by simp [parseFields, parseQueue, noPrefix])
theorem barw (a : Field) (b : Field) : Statement (.barw a b) := fun hw _ =>
  decode_plain ⟨by decide, by decide, a.isLt, b.isLt, by decide⟩ hw (by simp [parseFields, parseQueue, noPrefix])
theorem msend (n : BitVec 4) (a : Field) (b : Field) : Statement (.msend n a b) := fun hw _ =>
  decode_plain ⟨by decide, by have := n.isLt; omega, a.isLt, b.isLt, by decide⟩ hw (by have := n.isLt; simp [parseFields, parseQueue, noPrefix] <;> omega)
theorem mrecv (d : Field) (a : Field) : Statement (.mrecv d a) := fun hw _ =>
  decode_plain ⟨by decide, d.isLt, a.isLt, by decide, by decide⟩ hw (by simp [parseFields, parseQueue, noPrefix])
theorem mfree (a : Field) : Statement (.mfree a) := fun hw _ =>
  decode_plain ⟨by decide, by decide, a.isLt, by decide, by decide⟩ hw (by simp [parseFields, parseQueue, noPrefix])
theorem launch (a : Field) : Statement (.launch a) := fun hw _ =>
  decode_plain ⟨by decide, by decide, a.isLt, by decide, by decide⟩ hw (by simp [parseFields, parseQueue, noPrefix])
theorem pfarm (a : Field) : Statement (.pfarm a) := fun hw _ =>
  decode_plain ⟨by decide, by decide, a.isLt, by decide, by decide⟩ hw (by simp [parseFields, parseQueue, noPrefix])
theorem pfstop (a : Field) : Statement (.pfstop a) := fun hw _ =>
  decode_plain ⟨by decide, by decide, a.isLt, by decide, by decide⟩ hw (by simp [parseFields, parseQueue, noPrefix])
theorem cflush (a : Field) : Statement (.cflush a) := fun hw _ =>
  decode_plain ⟨by decide, by decide, a.isLt, by decide, by decide⟩ hw (by simp [parseFields, parseQueue, noPrefix])
theorem ldt (mo : MemOrd) (d : Field) (a : Field) (sz : TkSize) : Statement (.ldt mo d a sz) := fun hw _ =>
  decode_enc0 (d := {}) (q := moPrefix mo) (moPrefix_in mo)
    ⟨by decide, d.isLt, a.isLt, by have := tkSizeCode_lt sz; omega, by decide⟩ hw (by have := tkSizeCode_lt sz; simp [parseFields, parseTicket, with0, moRow] <;> omega)
theorem rdm (d : Field) (a : Field) : Statement (.rdm d a) := fun hw _ =>
  decode_plain ⟨by decide, d.isLt, a.isLt, by decide, by decide⟩ hw (by simp [parseFields, parseTicket, noPrefix])
theorem rdmSpm (d : Field) (a : Field) : Statement (.rdmSpm d a) := fun hw _ =>
  decode_plain ⟨by decide, d.isLt, a.isLt, by decide, by decide⟩ hw (by simp [parseFields, parseTicket, noPrefix])
theorem tkdrop (a : Field) : Statement (.tkdrop a) := fun hw _ =>
  decode_plain ⟨by decide, by decide, a.isLt, by decide, by decide⟩ hw (by simp [parseFields, parseTicket, noPrefix])
theorem fadd (d : Field) (a : Field) (b : Field) : Statement (.fadd d a b) := fun hw _ =>
  decode_plain ⟨by decide, d.isLt, a.isLt, b.isLt, by decide⟩ hw (by simp [parseFields, parseFloat, noPrefix])
theorem fsub (d : Field) (a : Field) (b : Field) : Statement (.fsub d a b) := fun hw _ =>
  decode_plain ⟨by decide, d.isLt, a.isLt, b.isLt, by decide⟩ hw (by simp [parseFields, parseFloat, noPrefix])
theorem fmul (d : Field) (a : Field) (b : Field) : Statement (.fmul d a b) := fun hw _ =>
  decode_plain ⟨by decide, d.isLt, a.isLt, b.isLt, by decide⟩ hw (by simp [parseFields, parseFloat, noPrefix])
theorem ffma (d : Field) (a : Field) (b : Field) : Statement (.ffma d a b) := fun hw _ =>
  decode_plain ⟨by decide, d.isLt, a.isLt, b.isLt, by decide⟩ hw (by simp [parseFields, parseFloat, noPrefix])
theorem fmin (d : Field) (a : Field) (b : Field) : Statement (.fmin d a b) := fun hw _ =>
  decode_plain ⟨by decide, d.isLt, a.isLt, b.isLt, by decide⟩ hw (by simp [parseFields, parseFloat, noPrefix])
theorem fmax (d : Field) (a : Field) (b : Field) : Statement (.fmax d a b) := fun hw _ =>
  decode_plain ⟨by decide, d.isLt, a.isLt, b.isLt, by decide⟩ hw (by simp [parseFields, parseFloat, noPrefix])
theorem fabs (d : Field) (a : Field) : Statement (.fabs d a) := fun hw _ =>
  decode_plain ⟨by decide, d.isLt, a.isLt, by decide, by decide⟩ hw (by simp [parseFields, parseFloat, noPrefix])
theorem fneg (d : Field) (a : Field) : Statement (.fneg d a) := fun hw _ =>
  decode_plain ⟨by decide, d.isLt, a.isLt, by decide, by decide⟩ hw (by simp [parseFields, parseFloat, noPrefix])
theorem fclass (d : Field) (a : Field) : Statement (.fclass d a) := fun hw _ =>
  decode_plain ⟨by decide, d.isLt, a.isLt, by decide, by decide⟩ hw (by simp [parseFields, parseFloat, noPrefix])
theorem fdiv (d : Field) (a : Field) (b : Field) : Statement (.fdiv d a b) := fun hw _ =>
  decode_plain ⟨by decide, d.isLt, a.isLt, b.isLt, by decide⟩ hw (by simp [parseFields, parseFloat, noPrefix])
theorem frcp (d : Field) (a : Field) : Statement (.frcp d a) := fun hw _ =>
  decode_plain ⟨by decide, d.isLt, a.isLt, by decide, by decide⟩ hw (by simp [parseFields, parseFunction, noPrefix])
theorem frsq (d : Field) (a : Field) : Statement (.frsq d a) := fun hw _ =>
  decode_plain ⟨by decide, d.isLt, a.isLt, by decide, by decide⟩ hw (by simp [parseFields, parseFunction, noPrefix])
theorem fsqrt (d : Field) (a : Field) : Statement (.fsqrt d a) := fun hw _ =>
  decode_plain ⟨by decide, d.isLt, a.isLt, by decide, by decide⟩ hw (by simp [parseFields, parseFunction, noPrefix])
theorem fexp2 (d : Field) (a : Field) : Statement (.fexp2 d a) := fun hw _ =>
  decode_plain ⟨by decide, d.isLt, a.isLt, by decide, by decide⟩ hw (by simp [parseFields, parseFunction, noPrefix])
theorem flog2 (d : Field) (a : Field) : Statement (.flog2 d a) := fun hw _ =>
  decode_plain ⟨by decide, d.isLt, a.isLt, by decide, by decide⟩ hw (by simp [parseFields, parseFunction, noPrefix])
theorem fsin (d : Field) (a : Field) : Statement (.fsin d a) := fun hw _ =>
  decode_plain ⟨by decide, d.isLt, a.isLt, by decide, by decide⟩ hw (by simp [parseFields, parseFunction, noPrefix])
theorem fcos (d : Field) (a : Field) : Statement (.fcos d a) := fun hw _ =>
  decode_plain ⟨by decide, d.isLt, a.isLt, by decide, by decide⟩ hw (by simp [parseFields, parseFunction, noPrefix])
theorem i2f (ty : Ty) (d : Field) (a : Field) : Statement (.i2f ty d a) := fun hw _ =>
  decode_enc0 (d := {}) (q := { ty := tyCode ty }) (⟨Nat.zero_lt_succ _, Nat.zero_lt_succ _, Nat.zero_lt_succ _, Nat.zero_lt_succ _, Nat.zero_lt_succ _, Nat.lt_of_lt_of_le (tyCode_lt ty) (by decide)⟩)
    ⟨by decide, d.isLt, a.isLt, by decide, by decide⟩ hw (by simp [parseFields, parseConvert, with0, tyRow, onlyTy])
theorem cvtTo (d : Field) (a : Field) (s : BitVec 3) : Statement (.cvtTo d a s) := fun hw _ =>
  decode_plain ⟨by decide, d.isLt, a.isLt, by have := s.isLt; omega, by decide⟩ hw (by have := s.isLt; simp [parseFields, parseConvert, noPrefix] <;> omega)
theorem cvtFrom (d : Field) (a : Field) (s : BitVec 3) : Statement (.cvtFrom d a s) := fun hw _ =>
  decode_plain ⟨by decide, d.isLt, a.isLt, by have := s.isLt; omega, by decide⟩ hw (by have := s.isLt; simp [parseFields, parseConvert, noPrefix] <;> omega)
theorem pack (d : Field) (a : Field) (s : BitVec 3) : Statement (.pack d a s) := fun hw _ =>
  decode_plain ⟨by decide, d.isLt, a.isLt, by have := s.isLt; omega, by decide⟩ hw (by have := s.isLt; simp [parseFields, parseConvert, noPrefix] <;> omega)
theorem unpk (d : Field) (a : Field) (s : BitVec 3) : Statement (.unpk d a s) := fun hw _ =>
  decode_plain ⟨by decide, d.isLt, a.isLt, by have := s.isLt; omega, by decide⟩ hw (by have := s.isLt; simp [parseFields, parseConvert, noPrefix] <;> omega)
theorem hadd2F16 (d : Field) (a : Field) (b : Field) : Statement (.hadd2F16 d a b) := fun hw _ =>
  decode_plain ⟨by decide, d.isLt, a.isLt, b.isLt, by decide⟩ hw (by simp [parseFields, parsePacked, noPrefix])
theorem hmul2F16 (d : Field) (a : Field) (b : Field) : Statement (.hmul2F16 d a b) := fun hw _ =>
  decode_plain ⟨by decide, d.isLt, a.isLt, b.isLt, by decide⟩ hw (by simp [parseFields, parsePacked, noPrefix])
theorem hfma2F16 (d : Field) (a : Field) (b : Field) : Statement (.hfma2F16 d a b) := fun hw _ =>
  decode_plain ⟨by decide, d.isLt, a.isLt, b.isLt, by decide⟩ hw (by simp [parseFields, parsePacked, noPrefix])
theorem hadd2Bf16 (d : Field) (a : Field) (b : Field) : Statement (.hadd2Bf16 d a b) := fun hw _ =>
  decode_plain ⟨by decide, d.isLt, a.isLt, b.isLt, by decide⟩ hw (by simp [parseFields, parsePacked, noPrefix])
theorem hmul2Bf16 (d : Field) (a : Field) (b : Field) : Statement (.hmul2Bf16 d a b) := fun hw _ =>
  decode_plain ⟨by decide, d.isLt, a.isLt, b.isLt, by decide⟩ hw (by simp [parseFields, parsePacked, noPrefix])
theorem hfma2Bf16 (d : Field) (a : Field) (b : Field) : Statement (.hfma2Bf16 d a b) := fun hw _ =>
  decode_plain ⟨by decide, d.isLt, a.isLt, b.isLt, by decide⟩ hw (by simp [parseFields, parsePacked, noPrefix])
theorem dot4 (s : BitVec 3) (d : Field) (a : Field) (b : Field) : Statement (.dot4 s d a b) := fun hw _ =>
  decode_enc0 (d := {}) (q := { slot := s.toNat }) (⟨Nat.zero_lt_succ _, Nat.zero_lt_succ _, Nat.lt_of_lt_of_le s.isLt (by decide), Nat.zero_lt_succ _, Nat.zero_lt_succ _, Nat.zero_lt_succ _⟩)
    ⟨by decide, d.isLt, a.isLt, b.isLt, by decide⟩ hw (by have := s.isLt; simp [parseFields, parsePacked, with0] <;> omega)
theorem cdet (d : Field) (a : Field) : Statement (.cdet d a) := fun hw _ =>
  decode_plain ⟨by decide, d.isLt, a.isLt, by decide, by decide⟩ hw (by simp [parseFields, parseCross, noPrefix])
theorem scanIncF32 (d : Field) (a : Field) : Statement (.scanIncF32 d a) := fun hw _ =>
  decode_plain ⟨by decide, d.isLt, a.isLt, by decide, by decide⟩ hw (by simp [parseFields, parseCross, noPrefix])
theorem scanExcF32 (d : Field) (a : Field) : Statement (.scanExcF32 d a) := fun hw _ =>
  decode_plain ⟨by decide, d.isLt, a.isLt, by decide, by decide⟩ hw (by simp [parseFields, parseCross, noPrefix])
theorem scanIncS32 (d : Field) (a : Field) : Statement (.scanIncS32 d a) := fun hw _ =>
  decode_plain ⟨by decide, d.isLt, a.isLt, by decide, by decide⟩ hw (by simp [parseFields, parseCross, noPrefix])
theorem scanExcS32 (d : Field) (a : Field) : Statement (.scanExcS32 d a) := fun hw _ =>
  decode_plain ⟨by decide, d.isLt, a.isLt, by decide, by decide⟩ hw (by simp [parseFields, parseCross, noPrefix])
theorem merge (d : Field) (a : Field) (b : Field) : Statement (.merge d a b) := fun hw _ =>
  decode_plain ⟨by decide, d.isLt, a.isLt, b.isLt, by decide⟩ hw (by simp [parseFields, parseCross, noPrefix])
theorem mergeKz (d : Field) (a : Field) (b : Field) : Statement (.mergeKz d a b) := fun hw _ =>
  decode_plain ⟨by decide, d.isLt, a.isLt, b.isLt, by decide⟩ hw (by simp [parseFields, parseCross, noPrefix])
theorem amalloc (d : Field) (a : Field) : Statement (.amalloc d a) := fun hw _ =>
  decode_plain ⟨by decide, d.isLt, a.isLt, by decide, by decide⟩ hw (by simp [parseFields, parseAm, noPrefix])
theorem amfree (a : Field) : Statement (.amfree a) := fun hw _ =>
  decode_plain ⟨by decide, by decide, a.isLt, by decide, by decide⟩ hw (by simp [parseFields, parseAm, noPrefix])
theorem amshape (a : Field) (b : Field) : Statement (.amshape a b) := fun hw _ =>
  decode_plain ⟨by decide, by decide, a.isLt, b.isLt, by decide⟩ hw (by simp [parseFields, parseAm, noPrefix])
theorem amrd (d : Field) (a : Field) (b : Field) : Statement (.amrd d a b) := fun hw _ =>
  decode_plain ⟨by decide, d.isLt, a.isLt, b.isLt, by decide⟩ hw (by simp [parseFields, parseAm, noPrefix])
theorem amwr (d : Field) (a : Field) (b : Field) : Statement (.amwr d a b) := fun hw _ =>
  decode_plain ⟨by decide, d.isLt, a.isLt, b.isLt, by decide⟩ hw (by simp [parseFields, parseAm, noPrefix])
theorem amzero (a : Field) (b : Field) : Statement (.amzero a b) := fun hw _ =>
  decode_plain ⟨by decide, by decide, a.isLt, b.isLt, by decide⟩ hw (by simp [parseFields, parseAm, noPrefix])
theorem amdrain (d : Field) (a : Field) (b : Field) : Statement (.amdrain d a b) := fun hw _ =>
  decode_plain ⟨by decide, d.isLt, a.isLt, b.isLt, by decide⟩ hw (by simp [parseFields, parseAm, noPrefix])
theorem amdrainAdd (d : Field) (a : Field) (b : Field) : Statement (.amdrainAdd d a b) := fun hw _ =>
  decode_plain ⟨by decide, d.isLt, a.isLt, b.isLt, by decide⟩ hw (by simp [parseFields, parseAm, noPrefix])
theorem mq (mo : MemOrd) (d : Field) (a : Field) : Statement (.mq mo d a) := fun hw _ =>
  decode_enc0 (d := {}) (q := moPrefix mo) (moPrefix_in mo)
    ⟨by decide, d.isLt, a.isLt, by decide, by decide⟩ hw (by simp [parseFields, parseSequencer, with0, moRow])
theorem lrset (l : BitVec 3) (a : Field) : Statement (.lrset l a) := fun hw _ =>
  decode_plain ⟨by decide, by have := l.isLt; omega, a.isLt, by decide, by decide⟩ hw (by have := l.isLt; simp [parseFields, parseSequencer, noPrefix] <;> omega)
theorem mqwait (a : Field) : Statement (.mqwait a) := fun hw _ =>
  decode_plain ⟨by decide, by decide, a.isLt, by decide, by decide⟩ hw (by simp [parseFields, parseSequencer, noPrefix])
theorem tex (d : Field) (a : Field) (b : Field) : Statement (.tex d a b) := fun hw _ =>
  decode_plain ⟨by decide, d.isLt, a.isLt, b.isLt, by decide⟩ hw (by simp [parseFields, parseTexture, noPrefix])
theorem tld (d : Field) (a : Field) (b : Field) : Statement (.tld d a b) := fun hw _ =>
  decode_plain ⟨by decide, d.isLt, a.isLt, b.isLt, by decide⟩ hw (by simp [parseFields, parseTexture, noPrefix])
theorem tgath (d : Field) (a : Field) (b : Field) : Statement (.tgath d a b) := fun hw _ =>
  decode_plain ⟨by decide, d.isLt, a.isLt, b.isLt, by decide⟩ hw (by simp [parseFields, parseTexture, noPrefix])
theorem hgf (d : Field) (a : Field) (b : Field) : Statement (.hgf d a b) := fun hw _ =>
  decode_plain ⟨by decide, d.isLt, a.isLt, b.isLt, by decide⟩ hw (by simp [parseFields, parseTexture, noPrefix])
theorem hgs (mo : MemOrd) (d : Field) (a : Field) (b : Field) : Statement (.hgs mo d a b) := fun hw _ =>
  decode_enc0 (d := {}) (q := moPrefix mo) (moPrefix_in mo)
    ⟨by decide, d.isLt, a.isLt, b.isLt, by decide⟩ hw (by simp [parseFields, parseTexture, with0, moRow])
theorem hgsDet (mo : MemOrd) (d : Field) (a : Field) (b : Field) : Statement (.hgsDet mo d a b) := fun hw _ =>
  decode_enc0 (d := {}) (q := moPrefix mo) (moPrefix_in mo)
    ⟨by decide, d.isLt, a.isLt, b.isLt, by decide⟩ hw (by simp [parseFields, parseTexture, with0, moRow])
theorem hgsfence : Statement .hgsfence := fun hw _ =>
  decode_plain ⟨by decide, by decide, by decide, by decide, by decide⟩ hw (by simp [parseFields, parseTexture, noPrefix])
theorem trav (d : Field) (a : Field) (b : Field) : Statement (.trav d a b) := fun hw _ =>
  decode_plain ⟨by decide, d.isLt, a.isLt, b.isLt, by decide⟩ hw (by simp [parseFields, parseTexture, noPrefix])
theorem rscb : Statement .rscb := fun hw _ =>
  decode_plain ⟨by decide, by decide, by decide, by decide, by decide⟩ hw (by simp [parseFields, parseRaster, noPrefix])
theorem rsce : Statement .rsce := fun hw _ =>
  decode_plain ⟨by decide, by decide, by decide, by decide, by decide⟩ hw (by simp [parseFields, parseRaster, noPrefix])
theorem pixout (flags : BitVec 2) (d : Field) (a : Field) : Statement (.pixout flags d a) := fun hw _ =>
  decode_plain ⟨by decide, d.isLt, a.isLt, by have := flags.isLt; omega, by decide⟩ hw (by have := flags.isLt; simp [parseFields, parseRaster, noPrefix] <;> omega)
theorem csld (a : Field) : Statement (.csld a) := fun hw _ =>
  decode_plain ⟨by decide, by decide, a.isLt, by decide, by decide⟩ hw (by simp [parseFields, parseRaster, noPrefix])
theorem csrel (a : Field) : Statement (.csrel a) := fun hw _ =>
  decode_plain ⟨by decide, by decide, a.isLt, by decide, by decide⟩ hw (by simp [parseFields, parseRaster, noPrefix])
theorem illegalOp : Statement .illegalOp := fun h => absurd h Bool.false_ne_true
theorem replyTrap (_g : Nat) (_t : Nat) : Statement (.replyTrap _g _t) := fun h => absurd h Bool.false_ne_true
theorem trapAreaTimeout (_rcb : Nat) : Statement (.trapAreaTimeout _rcb) := fun h => absurd h Bool.false_ne_true
theorem register (_die : Nat) : Statement (.register _die) := fun h => absurd h Bool.false_ne_true
theorem retire (_die : Nat) : Statement (.retire _die) := fun h => absurd h Bool.false_ne_true
theorem preempt (_die : Nat) : Statement (.preempt _die) := fun h => absurd h Bool.false_ne_true
theorem shoot (_die : Nat) : Statement (.shoot _die) := fun h => absurd h Bool.false_ne_true
theorem image (_die : Nat) : Statement (.image _die) := fun h => absurd h Bool.false_ne_true
theorem peer (_die : Nat) : Statement (.peer _die) := fun h => absurd h Bool.false_ne_true
theorem launchCommand (_die : Nat) : Statement (.launchCommand _die) := fun h => absurd h Bool.false_ne_true
theorem attestationReportWritten (_die : Nat) : Statement (.attestationReportWritten _die) := fun h => absurd h Bool.false_ne_true
theorem launchArrival (_inbox : Nat) : Statement (.launchArrival _inbox) := fun h => absurd h Bool.false_ne_true
theorem periodicReading (_die : Nat) : Statement (.periodicReading _die) := fun h => absurd h Bool.false_ne_true
theorem decrementReading (_die : Nat) : Statement (.decrementReading _die) := fun h => absurd h Bool.false_ne_true
theorem blockPlacement (_die : Nat) : Statement (.blockPlacement _die) := fun h => absurd h Bool.false_ne_true
theorem swarmBlockPlacement (_die : Nat) : Statement (.swarmBlockPlacement _die) := fun h => absurd h Bool.false_ne_true
theorem restore (_die : Nat) : Statement (.restore _die) := fun h => absurd h Bool.false_ne_true
theorem blockCompletion (_blk : Nat) : Statement (.blockCompletion _blk) := fun h => absurd h Bool.false_ne_true
theorem preemptionCheck (_blk : Nat) : Statement (.preemptionCheck _blk) := fun h => absurd h Bool.false_ne_true
theorem saveComplete (_blk : Nat) : Statement (.saveComplete _blk) := fun h => absurd h Bool.false_ne_true
theorem flushComplete (_blk : Nat) : Statement (.flushComplete _blk) := fun h => absurd h Bool.false_ne_true
theorem budgetHold (_rcb : Nat) : Statement (.budgetHold _rcb) := fun h => absurd h Bool.false_ne_true
theorem retireSweep (_rcb : Nat) : Statement (.retireSweep _rcb) := fun h => absurd h Bool.false_ne_true
theorem activeTimeout (_g : Nat) : Statement (.activeTimeout _g) := fun h => absurd h Bool.false_ne_true
theorem groupReady (_g : Nat) : Statement (.groupReady _g) := fun h => absurd h Bool.false_ne_true
theorem contextSwitch (_core : Nat) : Statement (.contextSwitch _core) := fun h => absurd h Bool.false_ne_true
theorem matrixTurn (_e : Nat) : Statement (.matrixTurn _e) := fun h => absurd h Bool.false_ne_true
theorem quarterOperation (_e : Nat) : Statement (.quarterOperation _e) := fun h => absurd h Bool.false_ne_true
theorem sequencerItem (_e : Nat) : Statement (.sequencerItem _e) := fun h => absurd h Bool.false_ne_true
theorem stwaitExpiry (_c : Nat) (_target : Nat) : Statement (.stwaitExpiry _c _target) := fun h => absurd h Bool.false_ne_true
theorem stitchedGroupStart (_c : Nat) : Statement (.stitchedGroupStart _c) := fun h => absurd h Bool.false_ne_true
theorem migrationMove (_g : Nat) (_t : Nat) : Statement (.migrationMove _g _t) := fun h => absurd h Bool.false_ne_true
theorem pageWalk (_k : Nat) : Statement (.pageWalk _k) := fun h => absurd h Bool.false_ne_true
theorem shootdownComplete (_k : Nat) : Statement (.shootdownComplete _k) := fun h => absurd h Bool.false_ne_true
theorem kneaderEpochEnd (_die : Nat) : Statement (.kneaderEpochEnd _die) := fun h => absurd h Bool.false_ne_true
theorem pageMoveComplete (_k : Nat) : Statement (.pageMoveComplete _k) := fun h => absurd h Bool.false_ne_true
theorem pageMoveAbandon (_k : Nat) : Statement (.pageMoveAbandon _k) := fun h => absurd h Bool.false_ne_true
theorem copyEntry (_q : Nat) : Statement (.copyEntry _q) := fun h => absurd h Bool.false_ne_true
theorem joinMarker (_m : Nat) : Statement (.joinMarker _m) := fun h => absurd h Bool.false_ne_true
theorem multicastCredit (_q : Nat) : Statement (.multicastCredit _q) := fun h => absurd h Bool.false_ne_true
theorem elementLanding (_k : Nat) (_n : Nat) : Statement (.elementLanding _k _n) := fun h => absurd h Bool.false_ne_true
theorem entryCompletion (_q : Nat) : Statement (.entryCompletion _q) := fun h => absurd h Bool.false_ne_true
theorem prooferInstanceStart (_k : Nat) : Statement (.prooferInstanceStart _k) := fun h => absurd h Bool.false_ne_true
theorem prooferWatchdog (_g : Nat) : Statement (.prooferWatchdog _g) := fun h => absurd h Bool.false_ne_true
theorem wbLoaderEntry (_e : Nat) : Statement (.wbLoaderEntry _e) := fun h => absurd h Bool.false_ne_true
theorem ageSweep (_slice : Nat) : Statement (.ageSweep _slice) := fun h => absurd h Bool.false_ne_true
theorem microcodeRequest (_k : Nat) : Statement (.microcodeRequest _k) := fun h => absurd h Bool.false_ne_true
theorem microcodeWatchdog (_k : Nat) : Statement (.microcodeWatchdog _k) := fun h => absurd h Bool.false_ne_true
theorem binStart (_blk : Nat) : Statement (.binStart _blk) := fun h => absurd h Bool.false_ne_true
theorem primitive (_blk : Nat) : Statement (.primitive _blk) := fun h => absurd h Bool.false_ne_true
theorem pixelGroupStart (_blk : Nat) : Statement (.pixelGroupStart _blk) := fun h => absurd h Bool.false_ne_true
theorem pixelWrite (_blk : Nat) : Statement (.pixelWrite _blk) := fun h => absurd h Bool.false_ne_true
theorem sectionWatchdog (_g : Nat) (_t : Nat) : Statement (.sectionWatchdog _g _t) := fun h => absurd h Bool.false_ne_true
theorem dieRelease (_die : Nat) : Statement (.dieRelease _die) := fun h => absurd h Bool.false_ne_true
theorem gets (_n : Nat) : Statement (.gets _n) := fun h => absurd h Bool.false_ne_true
theorem geto (_n : Nat) : Statement (.geto _n) := fun h => absurd h Bool.false_ne_true
theorem data (_n : Nat) : Statement (.data _n) := fun h => absurd h Bool.false_ne_true
theorem grant (_n : Nat) : Statement (.grant _n) := fun h => absurd h Bool.false_ne_true
theorem inv (_n : Nat) : Statement (.inv _n) := fun h => absurd h Bool.false_ne_true
theorem iack (_n : Nat) : Statement (.iack _n) := fun h => absurd h Bool.false_ne_true
theorem recallMsg (_n : Nat) : Statement (.recallMsg _n) := fun h => absurd h Bool.false_ne_true
theorem wb (_n : Nat) : Statement (.wb _n) := fun h => absurd h Bool.false_ne_true
theorem wback (_n : Nat) : Statement (.wback _n) := fun h => absurd h Bool.false_ne_true
theorem atomMessage (_n : Nat) : Statement (.atomMessage _n) := fun h => absurd h Bool.false_ne_true
theorem atomr (_n : Nat) : Statement (.atomr _n) := fun h => absurd h Bool.false_ne_true
theorem retry (_n : Nat) : Statement (.retry _n) := fun h => absurd h Bool.false_ne_true
theorem storeFailure (_n : Nat) : Statement (.storeFailure _n) := fun h => absurd h Bool.false_ne_true
theorem uncachedAccess (_n : Nat) : Statement (.uncachedAccess _n) := fun h => absurd h Bool.false_ne_true
theorem freeq (_n : Nat) : Statement (.freeq _n) := fun h => absurd h Bool.false_ne_true
theorem seqCmdMma (_n : Nat) : Statement (.seqCmdMma _n) := fun h => absurd h Bool.false_ne_true
theorem seqCmdAmzero (_n : Nat) : Statement (.seqCmdAmzero _n) := fun h => absurd h Bool.false_ne_true
theorem seqCmdAmdrain (_n : Nat) : Statement (.seqCmdAmdrain _n) := fun h => absurd h Bool.false_ne_true
theorem seqCmdAmdrainAdd (_n : Nat) : Statement (.seqCmdAmdrainAdd _n) := fun h => absurd h Bool.false_ne_true
theorem draw (_n : Nat) : Statement (.draw _n) := fun h => absurd h Bool.false_ne_true
theorem nonce (_n : Nat) : Statement (.nonce _n) := fun h => absurd h Bool.false_ne_true
theorem deviceRegisterWrite (_n : Nat) : Statement (.deviceRegisterWrite _n) := fun h => absurd h Bool.false_ne_true
theorem hostAtomic (_n : Nat) : Statement (.hostAtomic _n) := fun h => absurd h Bool.false_ne_true
theorem ldtArrival (_n : Nat) : Statement (.ldtArrival _n) := fun h => absurd h Bool.false_ne_true
theorem ticketReturn (_n : Nat) : Statement (.ticketReturn _n) := fun h => absurd h Bool.false_ne_true
theorem redemption (_n : Nat) : Statement (.redemption _n) := fun h => absurd h Bool.false_ne_true
theorem payloadDelivery (_n : Nat) : Statement (.payloadDelivery _n) := fun h => absurd h Bool.false_ne_true
theorem messageArrival (_n : Nat) : Statement (.messageArrival _n) := fun h => absurd h Bool.false_ne_true
theorem stitchRequestArrival (_n : Nat) : Statement (.stitchRequestArrival _n) := fun h => absurd h Bool.false_ne_true
theorem hgsContribution (_n : Nat) : Statement (.hgsContribution _n) := fun h => absurd h Bool.false_ne_true
theorem l1Eviction (_c : Nat) (_line : Nat) : Statement (.l1Eviction _c _line) := fun h => absurd h Bool.false_ne_true
theorem directoryEviction (_line : Nat) : Statement (.directoryEviction _line) := fun h => absurd h Bool.false_ne_true
theorem linkDown (_link : Nat) : Statement (.linkDown _link) := fun h => absurd h Bool.false_ne_true
theorem uncorrectableError (_site : ErrSite) : Statement (.uncorrectableError _site) := fun h => absurd h Bool.false_ne_true
theorem correctedError (_unit : Nat) : Statement (.correctedError _unit) := fun h => absurd h Bool.false_ne_true
theorem powerMeasurement (_watts10ms : Nat) (_tempC : Nat) : Statement (.powerMeasurement _watts10ms _tempC) := fun h => absurd h Bool.false_ne_true
theorem packageReset : Statement .packageReset := fun h => absurd h Bool.false_ne_true
theorem i3cPrivateRead : Statement .i3cPrivateRead := fun h => absurd h Bool.false_ne_true
theorem partitionConfiguration (_parts : List Nat) (_hostPorts : List Nat) : Statement (.partitionConfiguration _parts _hostPorts) := fun h => absurd h Bool.false_ne_true
theorem i3cAttestationRequest (_nonce : List Byte) (_dest : Nat) : Statement (.i3cAttestationRequest _nonce _dest) := fun h => absurd h Bool.false_ne_true
theorem capabilityWord (_w : Word) : Statement (.capabilityWord _w) := fun h => absurd h Bool.false_ne_true
theorem hostSnoop (_pa : Nat) (_excl : Bool) : Statement (.hostSnoop _pa _excl) := fun h => absurd h Bool.false_ne_true
theorem hostAccess (_port : Nat) (_pa : Nat) (_size : Nat) (_store : Option (List Byte)) : Statement (.hostAccess _port _pa _size _store) := fun h => absurd h Bool.false_ne_true
theorem peerAccess (_port : Nat) (_pa : Nat) (_size : Nat) (_store : Option (List Byte)) (_rmw : Option (AtomOp × Bool)) : Statement (.peerAccess _port _pa _size _store _rmw) := fun h => absurd h Bool.false_ne_true
theorem refreshManagementRequest (_die : Nat) (_stack : Nat) : Statement (.refreshManagementRequest _die _stack) := fun h => absurd h Bool.false_ne_true
theorem imageKeyEnrolment (_key : List Byte) : Statement (.imageKeyEnrolment _key) := fun h => absurd h Bool.false_ne_true

end Sys2Proof.Laws.Encoding
end

