-- ==== Sys2Proof/Safety.lean ====
section
/-! DEFINITION. The terms in which statements about the machine are made: a bundle whose threads pass the checks
that come before an instruction, what a bundle that completes does, what leaves memory alone, and the
invariants of the state. -/

namespace Sys2Proof.Machine

/-- Every thread of the bundle that issues passes the checks that come before the instruction's own (R174,
R154, R358). -/
abbrev Passes (i : Instr) (s : State) : Prop := ∀ t ∈ s.iss.ts, laneCheck i s t = none

/-- The bundle is one thread, which passes the checks that come before the instruction's own. -/
abbrev Alone (i : Instr) (s : State) (t : Nat) : Prop := s.iss.ts = [t] ∧ laneCheck i s t = none

/-- An instruction done for thread t of the bundle: the thread has moved past it, k has acted, and nothing of
a wait is left. -/
def laneDone (k : State → Nat → State) (s : State) (t : Nat) : State := (k (s.advance t) t).settle t

/-- An instruction done for every thread of the bundle, in ascending order. -/
def bundleDone (k : State → Nat → State) (s : State) : State := s.iss.ts.foldl (laneDone k) s

/-- The outcome of an instruction that completes for its bundle with effect k on each thread. -/
def Completes (i : Instr) (s : State) (k : State → Nat → State) : Prop := exec i s = .next (bundleDone k s)

/-- Thread t is a thread of group g. -/
def State.hasThread (s : State) (g t : Nat) : Bool := match lget g s.groups with
  | some G => t < G.threads.length
  | none => false

/-- The instruction completes for a lone thread t, whose effect leaves s1. -/
def DoneAlone (i : Instr) (s : State) (t : Nat) (s1 : State) : Prop := exec i s = .next (s1.settle t)

/-- The instruction keeps a lone thread t waiting on w, in the state s1 otherwise. -/
def WaitsAlone (i : Instr) (s : State) (t : Nat) (s1 : State) (w : WaitOn) : Prop := exec i s = .next (s1.stay t w)

/-- The instruction traps a lone thread t, and has no other effect on it (R343). -/
def TrapsAlone (i : Instr) (s : State) (t : Nat) (ti : TrapInfo) : Prop :=
  exec i s = .next ((s.dropFaults t).trapLanes [(t, ti)])

/-- Message n can be received: it is the first of its channel, it is m and holds b, and s1 is the state without
it (R101). -/
def Arrives (s : State) (n : Nat) (m : Msg) (b : Body) (s1 : State) : Prop := s.take n = some (m, s1) ∧ m.body = b

/-- Thread t of the issuing group has all its registers: its allocation, 8 pointers, 7 predicates, and the
160 k registers of its group (R31, R37). -/
def State.wholeThread (s : State) (t : Nat) : Bool :=
  s.hasThread s.iss.g t && (s.th t).x.length = s.cur.alloc && s.cur.k.length = 160 && (s.th t).p.length = 8
    && (s.th t).c.length = 7

/-- The record of a trap of thread t of group g finds room and is written once the thread has entered the trap
(R343, R350, R351); it leaves s1. -/
def RecordWritten (s : State) (g t : Nat) (f : ReplyFail) (trapPc : DWord) (s1 : State) : Prop :=
  let e := s.enterTrap g t f trapPc
  e.writeRecord (s.group g).kind.die (s.group g).rcb (recordBytes f.at_ (e.trapHead g t f false) (State.trapTail f))
    = .ok s1

/-- Everything but groups and ended walks is as before: memory, caches, scratchpads, messages, tables and
registers of units. -/
def OnlyGroups (s s' : State) : Prop := s' = { s with groups := s'.groups, walkFaults := s'.walkFaults }

/-- The memory of the package is in its canonical form. -/
abbrev MemoryWf (s : State) : Prop := Memory.wf s.mem = true

/-- The partitions in force divide the four dies: no die stands in two, and each stands in one (R319). -/
abbrev Divided (s : State) : Prop := (upTo 4).all (fun d => (s.division.filter fun m => bit m d).length = 1) = true

/-- The instructions whose whole effect is one run of registers: the run's first field. -/
def onlyRegs : Instr → Option Field
  | .add _ d _ _ | .sub _ d _ _ | .mul _ d _ _ | .mulhi _ d _ _ | .mad _ d _ _ | .div _ d _ _ | .rem _ d _ _
  | .min _ d _ _ | .max _ d _ _ | .abs _ d _ | .neg _ d _ | .and _ d _ _ | .or _ d _ _ | .xor _ d _ _
  | .andn _ d _ _ | .shl _ d _ _ | .shr _ d _ _ | .sar _ d _ _ | .fshl _ d _ _ | .fshr _ d _ _ | .popc _ d _
  | .clz _ d _ | .ctz _ d _ | .brev _ d _ | .bfx _ d _ _ | .bfi _ d _ _ | .sext _ d _ | .zext _ d _
  | .sel _ d _ _ _ | .mov _ d _ | .lea _ d _ _ | .addi d _ _ | .andi d _ _ | .ori d _ _ | .xori d _ _
  | .shli d _ _ | .shri d _ _ | .sari d _ _ | .movi d _ | .movhi d _ | .addpc d _ | .lut3 _ d _ _
  | .mread d _ | .voteBallot d _ | .shflIdx d _ _ | .shflUp d _ _ | .shflDown d _ _ | .shflXor d _ _ => some d
  | _ => none

/-- The instructions whose whole effect is one predicate. -/
def onlyPred : Instr → Option (BitVec 3)
  | .cmp _ _ c _ _ | .cmpi _ _ c _ _ | .voteAny c _ | .voteAll c _ | .plop c _ _ _ => some c
  | _ => none

/-- What an instruction that writes x or k registers alone leaves as it was in a group: everything but k
registers and threads, the threads outside the bundle, and of the others all but the PC, the wait, the pointer
to return to and x registers. -/
def OnlyRegs (s s' : State) : Prop := OnlyGroups s s'
  ∧ (∀ g, g ≠ s.iss.g → s'.group g = s.group g)
  ∧ s'.cur = { s.cur with threads := s'.cur.threads, k := s'.cur.k, badK := s'.cur.badK }
  ∧ ∀ t, s'.th t = { s.th t with
      pc := if t ∈ s.iss.ts ∧ s.hasThread s.iss.g t then s.iss.npc else (s.th t).pc
      wait := if t ∈ s.iss.ts then none else (s.th t).wait
      undo := if t ∈ s.iss.ts then none else (s.th t).undo
      x := (s'.th t).x
      badX := (s'.th t).badX }

end Sys2Proof.Machine
end

