-- ==== Sys2Proof/Certificates/Slice0/Obligations.lean ====
section
/-! DEFINITION. The statements about the machine, one definition for each. -/

open Sys2Proof Sys2Proof.Machine

/-! ## Integer, immediate and table instructions -/

/-- R187, R188: the value of each row of the integer group goes to D by Put, from operands read before the
bundle. -/
def Obligations.IntegerGroupValues : Prop := ∀ (s : State) (ty : Ty) (d a b : Field) (c : BitVec 3),
  let put := fun (v : Nat → Int) (st : State) (t : Nat) => st.putTy t ty d (v t)
  let x := fun t => s.int t ty a
  let y := fun t => s.int t ty b
  let n := fun t => s.getTy t ty a
  let m := fun t => s.getTy t ty b
  let w := ty.width
  (Passes (.add ty d a b) s → Completes (.add ty d a b) s (put fun t => x t + y t))
  ∧ (Passes (.sub ty d a b) s → Completes (.sub ty d a b) s (put fun t => x t - y t))
  ∧ (Passes (.mul ty d a b) s → Completes (.mul ty d a b) s (put fun t => x t * y t))
  ∧ (Passes (.mulhi ty d a b) s → Completes (.mulhi ty d a b) s (put fun t => x t * y t / 2 ^ w))
  ∧ (Passes (.mad ty d a b) s → Completes (.mad ty d a b) s (put fun t => x t * y t + s.int t ty d))
  ∧ (Passes (.div ty d a b) s →
      Completes (.div ty d a b) s (put fun t => if y t = 0 then -1 else (x t).tdiv (y t)))
  ∧ (Passes (.rem ty d a b) s →
      Completes (.rem ty d a b) s (put fun t => if y t = 0 then x t else (x t).tmod (y t)))
  ∧ (Passes (.min ty d a b) s → Completes (.min ty d a b) s (put fun t => min (x t) (y t)))
  ∧ (Passes (.max ty d a b) s → Completes (.max ty d a b) s (put fun t => max (x t) (y t)))
  ∧ (Passes (.abs ty d a) s → Completes (.abs ty d a) s (put fun t => (x t).natAbs))
  ∧ (Passes (.neg ty d a) s → Completes (.neg ty d a) s (put fun t => -x t))
  ∧ (Passes (.and ty d a b) s → Completes (.and ty d a b) s (put fun t => (n t &&& m t : Nat)))
  ∧ (Passes (.or ty d a b) s → Completes (.or ty d a b) s (put fun t => (n t ||| m t : Nat)))
  ∧ (Passes (.xor ty d a b) s → Completes (.xor ty d a b) s (put fun t => (n t ^^^ m t : Nat)))
  ∧ (Passes (.andn ty d a b) s → Completes (.andn ty d a b) s (put fun t => (n t - (n t &&& m t) : Nat)))
  ∧ (Passes (.shl ty d a b) s →
      Completes (.shl ty d a b) s (put fun t => (n t * 2 ^ ((s.reg t b).toNat % w) : Nat)))
  ∧ (Passes (.shr ty d a b) s →
      Completes (.shr ty d a b) s (put fun t => (n t / 2 ^ ((s.reg t b).toNat % w) : Nat)))
  ∧ (Passes (.sar ty d a b) s →
      Completes (.sar ty d a b) s (put fun t => extOf true w (n t) / 2 ^ ((s.reg t b).toNat % w)))
  ∧ (Passes (.popc ty d a) s → Completes (.popc ty d a) s (put fun t => ((upTo w).countP fun i => bit (n t) i : Nat)))
  ∧ (Passes (.clz ty d a) s →
      Completes (.clz ty d a) s (put fun t => (if n t = 0 then w else w - 1 - (n t).log2 : Nat)))
  ∧ (Passes (.ctz ty d a) s → Completes (.ctz ty d a) s (put fun t => (((upTo w).find? fun i => bit (n t) i).getD w : Nat)))
  ∧ (Passes (.brev ty d a) s →
      Completes (.brev ty d a) s
        (put fun t => (((upTo w).map fun i => if bit (n t) i then 2 ^ (w - 1 - i) else 0).sum : Nat)))
  ∧ (Passes (.mov ty d a) s → Completes (.mov ty d a) s (put x))
  ∧ (Passes (.sel ty d a b c) s → Completes (.sel ty d a b c) s (put fun t => if s.pred t c then x t else y t))

/-- R188, R189: the funnel shifts, the bit fields, SEXT and ZEXT, LEA and CMP. -/
def Obligations.IntegerFieldValues : Prop := ∀ (s : State) (ty : Ty) (d a b : Field) (cc : Cond) (c : BitVec 3),
  let w := ty.width
  let both := fun t => (s.reg t a).toNat * 2 ^ 32 + (s.reg t b).toNat
  let by_ := fun t => (s.reg t d).toNat % 32
  let pos := fun t => (s.reg t b).toNat % 64
  let len := fun t => if pos t < w then Nat.min ((s.reg t b).toNat / 256 % 64) (w - pos t) else 0
  let field := fun t => s.getTy t ty a / 2 ^ pos t % 2 ^ len t
  let low := fun sg t => extOf sg (Nat.min w 32) ((s.reg t a).toNat % 2 ^ Nat.min w 32)
  let wide := fun (v : Nat → Int) (st : State) (t : Nat) =>
    if w = 64 then st.setPair t d (BitVec.ofInt 64 (v t)) else st.setReg t d (BitVec.ofInt 32 (v t))
  (Passes (.fshl ty d a b) s → Completes (.fshl ty d a b) s fun st t =>
      st.setReg t d (BitVec.ofNat 32 (both t * 2 ^ by_ t / 2 ^ 32)))
  ∧ (Passes (.fshr ty d a b) s → Completes (.fshr ty d a b) s fun st t =>
      st.setReg t d (BitVec.ofNat 32 (both t / 2 ^ by_ t)))
  ∧ (Passes (.bfx ty d a b) s → Completes (.bfx ty d a b) s fun st t =>
      st.putTy t ty d (if len t = 0 then 0 else extOf ty.signed (len t) (field t)))
  ∧ (Passes (.bfi ty d a b) s → Completes (.bfi ty d a b) s fun st t =>
      st.putTy t ty d (s.getTy t ty d - s.getTy t ty d / 2 ^ pos t % 2 ^ len t * 2 ^ pos t
        + s.getTy t ty a % 2 ^ len t * 2 ^ pos t : Nat))
  ∧ (Passes (.sext ty d a) s → Completes (.sext ty d a) s (wide (low true)))
  ∧ (Passes (.zext ty d a) s → Completes (.zext ty d a) s (wide (low false)))
  ∧ (Passes (.lea ty d a b) s → Completes (.lea ty d a b) s fun st t =>
      st.setPair t d (s.pair t a + BitVec.ofInt 64 (extOf ty.signed 32 (s.reg t b).toNat * (w / 8 : Nat))))
  ∧ (Passes (.cmp ty cc c a b) s → Completes (.cmp ty cc c a b) s fun st t =>
      st.setPred t c (condHolds cc (s.int t ty a) (s.int t ty b)))

/-- R190: the immediate forms, with the 32-bit immediate i. -/
def Obligations.ImmediateGroupValues : Prop :=
  ∀ (s : State) (ty : Ty) (cc : Cond) (d a : Field) (i : Word) (n : BitVec 5) (c : BitVec 3),
  let put := fun (v : Nat → Word) (st : State) (t : Nat) => st.setReg t d (v t)
  (Passes (.addi d a i) s → Completes (.addi d a i) s (put fun t => s.reg t a + i))
  ∧ (Passes (.andi d a i) s → Completes (.andi d a i) s (put fun t => s.reg t a &&& i))
  ∧ (Passes (.ori d a i) s → Completes (.ori d a i) s (put fun t => s.reg t a ||| i))
  ∧ (Passes (.xori d a i) s → Completes (.xori d a i) s (put fun t => s.reg t a ^^^ i))
  ∧ (Passes (.shli d a n) s → Completes (.shli d a n) s (put fun t => s.reg t a <<< n.toNat))
  ∧ (Passes (.shri d a n) s → Completes (.shri d a n) s (put fun t => s.reg t a >>> n.toNat))
  ∧ (Passes (.sari d a n) s → Completes (.sari d a n) s (put fun t => (s.reg t a).sshiftRight n.toNat))
  ∧ (Passes (.cmpi ty cc c a i) s → Completes (.cmpi ty cc c a i) s fun st t =>
      st.setPred t c (condHolds cc (s.int t ty a) (extOf ty.signed ty.width (i.toInt % 2 ^ ty.width).toNat)))

/-- R191, R192: constants, ADDPC and the three-input table. -/
def Obligations.ConstantAndTableValues : Prop :=
  ∀ (s : State) (d a b : Field) (i : Word) (h : BitVec 13) (off : BitVec 44) (table : BitVec 8),
  (Passes (.movi d i) s → Completes (.movi d i) s fun st t => st.setReg t d i)
  ∧ (Passes (.movhi d h) s → Completes (.movhi d h) s fun st t => st.setReg t d (h ++ (s.reg t d).extractLsb' 0 19))
  ∧ (Passes (.addpc d off) s → Completes (.addpc d off) s fun st t =>
      st.setPair t d (s.iss.pc + BitVec.ofInt 64 (4 * off.toInt)))
  ∧ (Passes (.lut3 table d a b) s → ∃ v : Nat → Word,
      Completes (.lut3 table d a b) s (fun st t => st.setReg t d (v t))
      ∧ ∀ t i, i < 32 → (v t).getLsbD i = table.getLsbD
          ((if (s.reg t d).getLsbD i then 4 else 0) + (if (s.reg t a).getLsbD i then 2 else 0)
            + (if (s.reg t b).getLsbD i then 1 else 0)))

/-! ## Frames of what writes registers alone -/

/-- Register-only instructions: memory, other threads, predicates, pointers and every register outside the run
of D are as before, and each thread goes on at NPC (R150, R154, R155, R187). The run is as long as the rules give it
for the instruction's type. -/
def Obligations.RegisterResultFrame : Prop := ∀ (i : Instr) (d : Field) (s : State),
  onlyRegs i = some d → i.wf = true → Passes i s → ∃ s', exec i s = .next s' ∧ OnlyRegs s s'
    ∧ (∀ t, t ∉ s.iss.ts → (s'.th t).x = (s.th t).x)
    ∧ (isK d = false → s'.cur.k = s.cur.k ∧ ∀ t n,
        n < s.xnum s.iss.g t d.toNat ∨ s.xnum s.iss.g t d.toNat + ((uses i).headD (d, 1)).2 ≤ n →
        (s'.th t).x.getD n 0 = (s.th t).x.getD n 0)
    ∧ (isK d = true → (∀ t, (s'.th t).x = (s.th t).x) ∧ ∀ n,
        n < s.knum s.iss.g d.toNat ∨ s.knum s.iss.g d.toNat + ((uses i).headD (d, 1)).2 ≤ n →
        s'.cur.k.getD n 0 = s.cur.k.getD n 0)

/-- Predicate-only instructions: registers, memory and every other predicate are as before; a write to c7 has no
effect (R8, R189, R206). -/
def Obligations.PredicateResultFrame : Prop := ∀ (i : Instr) (c : BitVec 3) (s : State),
  onlyPred i = some c → Passes i s → ∃ s', exec i s = .next s' ∧ OnlyGroups s s'
    ∧ (∀ g, g ≠ s.iss.g → s'.group g = s.group g)
    ∧ s'.cur = { s.cur with threads := s'.cur.threads }
    ∧ (∀ t, (s'.th t).x = (s.th t).x ∧ (s'.th t).p = (s.th t).p ∧ (s'.th t).status = (s.th t).status
        ∧ (s'.th t).fpstat = (s.th t).fpstat)
    ∧ ∀ t (q : BitVec 3), q ≠ c ∨ c = 7#3 → s'.pred t q = s.pred t q

/-! ## Transfers, ends and handler calls -/

/-- R152, R193, R194: the next PC of each thread of the bundle. -/
def Obligations.TransferTargets : Prop := ∀ (s : State) (c : BitVec 3) (off : BitVec 48) (a : Field),
  let target := s.iss.pc + BitVec.ofInt 64 (4 * off.toInt)
  (Passes (.bra off) s → Completes (.bra off) s fun st t => st.setPc t target)
  ∧ (Passes (.brc c off) s →
      Completes (.brc c off) s fun st t => if s.pred t c then st.setPc t target else st)
  ∧ (Passes (.brcNot c off) s →
      Completes (.brcNot c off) s fun st t => if s.pred t c then st else st.setPc t target)
  ∧ (Passes (.jmpr a) s → Completes (.jmpr a) s fun st t => st.setPc t (s.pair t a))

/-- R193, R194: CALL and CALLR push NPC at P7 − 8 and jump; a misaligned push, or one whose address faults, traps
with P7 and the PC as they were. Said of a bundle of one thread. -/
def Obligations.CallPushesAndJumps : Prop :=
  ∀ (s s1 s2 : State) (t : Nat) (off : BitVec 48) (a : Field) (pa mt : Nat) (ti : TrapInfo),
  let sp := s.ptr t 7 - 8
  let push := (s.advance t).translate s.iss.g t sp.toNat 1
  let pushed := fun (target : DWord) => (s2.setPtr t 7 sp).setPc t target
  (Alone (.call off) s t → sp.toNat % 8 = 0 → push = .ok s1 pa mt →
    s1.storeAt t pa mt (toBytes 8 s1.iss.npc.toNat) {} (fencedOn s t) = .ok s2 →
    DoneAlone (.call off) s t (pushed (s.iss.pc + BitVec.ofInt 64 (4 * off.toInt))))
  ∧ (Alone (.callr a) s t → sp.toNat % 8 = 0 → push = .ok s1 pa mt →
    s1.storeAt t pa mt (toBytes 8 s1.iss.npc.toNat) {} (fencedOn s t) = .ok s2 →
    DoneAlone (.callr a) s t (pushed (s.pair t a)))
  ∧ (Alone (.call off) s t → sp.toNat % 8 ≠ 0 → TrapsAlone (.call off) s t { cause := 0x06, addr := sp.toNat })
  ∧ (Alone (.callr a) s t → sp.toNat % 8 ≠ 0 → TrapsAlone (.callr a) s t { cause := 0x06, addr := sp.toNat })
  ∧ (Alone (.call off) s t → sp.toNat % 8 = 0 → push = .fault ti → TrapsAlone (.call off) s t ti)
  ∧ (Alone (.callr a) s t → sp.toNat % 8 = 0 → push = .fault ti → TrapsAlone (.callr a) s t ti)

/-- R193, R194: RET pops NPC from P7: where the eight bytes are in the core's L0 or the cluster's L1 it completes at
once, at the address that they hold and with P7 moved up by 8; else it asks for them and waits, and completes when
the value arrives. A misaligned P7, or one whose address faults, traps. Said of a bundle of one thread. -/
def Obligations.ReturnPopsAndJumps : Prop := ∀ (s s1 : State) (t pa mt : Nat) (bs : List Byte) (r : LoadReq)
    (ti : TrapInfo),
  let g := s.iss.g
  let sp := s.ptr t 7
  let k := s.cur.kind
  let c := k.cluster
  let pop := (s.advance t).translate g t sp.toNat 0
  let q := { s1.request t sp.toNat pa 8 [] with ret := true }
  let pops := Alone .ret s t ∧ s.wholeThread t = true ∧ sp.toNat % 8 = 0 ∧ pop = .ok s1 pa mt ∧ mt ≠ 1
    ∧ s1.isRemote k.die pa = false ∧ s1.acquiring g t = false ∧ s1.atomOn g t pa 8 = false
    ∧ s1.ldtOn g t pa 8 = false ∧ s1.earlierLoad g t pa 8 = false
  let open_ := (s1.leaveCore g).portBusy k.port pa = false
  let returns := fun (bs : List Byte) => ∃ s', exec .ret s = .next s'
    ∧ (s'.th t).pc = BitVec.ofNat 64 (ofBytes bs) ∧ s'.ptr t 7 = sp + 8
    ∧ (s'.th t).x = (s.th t).x ∧ (s'.th t).c = (s.th t).c ∧ (s'.th t).status = (s.th t).status
    ∧ ∀ n, n < 7 → s'.ptr t n = s.ptr t n
  (pops → s1.l0Bytes g pa 8 = some bs → returns bs)
  ∧ (pops → open_ → s1.l0Bytes g pa 8 = none → s1.l1Has c pa 8 = true → s1.l1Marked c pa 8 = false →
    returns (s1.l1Bytes c pa 8))
  ∧ (pops → open_ → s1.l0Bytes g pa 8 = none → s1.l1Has c pa 8 = false →
    WaitsAlone .ret s t (((s1.leaveCore g).ask q).sendGets c pa 8 s.cur.rcb) .reply)
  ∧ (r.ret = true → s.hasThread r.g r.t = true → (s.thread r.g r.t).p.length = 8 →
    let h := (s.finishLoad r bs).thread r.g r.t
    h.pc = BitVec.ofNat 64 (ofBytes bs) ∧ h.p.getD 7 0 = (s.thread r.g r.t).p.getD 7 0 + 8 ∧ h.wait = none)
  ∧ (Alone .ret s t → sp.toNat % 8 ≠ 0 → TrapsAlone .ret s t { cause := 0x06, addr := sp.toNat })
  ∧ (Alone .ret s t → sp.toNat % 8 = 0 → pop = .fault ti → TrapsAlone .ret s t ti)

/-- R40, R54, R195: EXIT ends each kind of thread: a SIMT slot becomes Exited and leaves every mask and arrival set;
a swarm context is freed. It waits for the thread's replies, and the end of a stitched thread is a release at .clu,
which traps where a result register is lost (the model's reading, log entry 124). Said of a bundle of one thread. -/
def Obligations.ExitEndsThread : Prop := ∀ (s s1 : State) (t : Nat) (ti : TrapInfo),
  let g := s.iss.g
  let plain := (s.th t).stitch = none
  (Alone .exit s t → (s.advance t).awaiting g t = true → WaitsAlone .exit s t (s.advance t) .replies)
  ∧ (Alone .exit s t → (s.advance t).awaiting g t = false → plain → DoneAlone .exit s t ((s.advance t).endThread g t))
  ∧ (Alone .exit s t → (s.advance t).awaiting g t = false → ¬ plain → resultCheck (s.advance t) g t = some ti →
      TrapsAlone .exit s t ti)
  ∧ (Alone .exit s t → (s.advance t).awaiting g t = false → ¬ plain → resultCheck (s.advance t) g t = none →
      releaseFirst s (s.advance t) t { ord := .rel, scope := .clu } = (s1, none) →
      DoneAlone .exit s t (s1.endThread g t))
  ∧ (Alone .exit s t → (s.advance t).awaiting g t = false → plain → s.hasThread g t = true →
      (∃ e p, s.cur.kind = .simt e p) → ∃ s', exec .exit s = .next s' ∧ (s'.thread g t).slot = .exited
        ∧ ∀ n, n < 12 → bit ((s'.group g).mask n) t = false ∧ bit ((s'.group g).arrived n) t = false)
  ∧ (Alone .exit s t → (s.advance t).awaiting g t = false → plain → s.cur.kind.isSwarm = true →
      (s.th t).home = none → ∃ s', exec .exit s = .next s' ∧ lget g s'.groups = none)

/-- R196: YIELD ends a swarm context's run, or moves a SIMT group to the tail of a ready queue that is not
empty; it has no other effect. -/
def Obligations.YieldStepsAside : Prop := ∀ (s : State) (t : Nat), Alone .yield s t →
  (∀ c x, s.cur.kind = .swarm c x →
    DoneAlone .yield s t ((s.advance t).modCore c fun k => { k with yielded := true }))
  ∧ (∀ e p, s.cur.kind = .simt e p → (s.part (4 * e + p)).ready ≠ [] →
    DoneAlone .yield s t ((s.advance t).leaveActive s.iss.g true))
  ∧ (∀ e p, s.cur.kind = .simt e p → (s.part (4 * e + p)).ready = [] → DoneAlone .yield s t (s.advance t))

/-- R343, R197, R391: SVC, BKPT and words that are no instruction trap a thread that runs no handler: the trap
registers, STATUS, the slot and the handler's address; its registers are as they were. TRAPPC is NPC for SVC
alone. Said of a bundle of one thread whose record finds room and whose region names a handler. -/
def Obligations.TrapEntryRegisters : Prop := ∀ (s s1 : State) (t : Nat) (code : BitVec 9),
  let g := s.iss.g
  let h := s.th t
  let sup := s.suph s.cur.rcb
  let handler := (s1.resolved s.cur.rcb 11).handler
  let enters := fun (i : Instr) (cause aux : Nat) (trapPc : DWord) =>
    let f : ReplyFail := { info := { cause := cause, aux := aux }, pc := s.iss.pc.toNat, words := s.iss.words
                           status := h.status, at_ := s.cycle }
    Alone i s t → s.hasThread g t = true → s.cur.kind.isProofer = false → h.status.getLsbD 1 = false →
    RecordWritten (if cause = 0x01 then s else s.dropFaults t) g t f trapPc s1 →
    handler ≠ 0 →
    ∃ s', exec i s = .next s' ∧ (s'.th t).trapcause = BitVec.ofNat 32 cause ∧ (s'.th t).trappc = trapPc
      ∧ (s'.th t).trapaddr = 0 ∧ (s'.th t).trapaux = BitVec.ofNat 64 aux
      ∧ (s'.th t).status.getLsbD 1 = true ∧ (s'.th t).status.getLsbD 8 = h.status.getLsbD 0
      ∧ (s'.th t).status.getLsbD 0 = sup
      ∧ (s'.th t).slot = .trapped ∧ (s'.th t).pc = BitVec.ofNat 64 handler
      ∧ (s'.th t).x = h.x ∧ (s'.th t).c = h.c ∧ (s'.th t).xwb = h.xwb ∧ (s'.th t).fpstat = h.fpstat
      ∧ (h.undo = none → (s'.th t).p = h.p)
  enters (.svc code) 0x71 code.toNat s.iss.npc ∧ enters (.bkpt code) 0x70 code.toNat s.iss.pc
    ∧ enters .illegalOp 0x01 0 s.iss.pc

/-- R198: ERET in a handler: STATUS.SUP takes PSUP, HND falls, the PC is TRAPPC and the thread is live again,
with its masks, arrivals and credits as they were; outside a handler it traps with PRIV_OP. -/
def Obligations.EretReturns : Prop := ∀ (s : State) (t : Nat),
  (Alone .eret s t → s.hasThread s.iss.g t = true → (s.th t).status.getLsbD 1 = true → ∃ s', exec .eret s = .next s'
    ∧ (s'.th t).status.getLsbD 0 = (s.th t).status.getLsbD 8 ∧ (s'.th t).status.getLsbD 1 = false
    ∧ (s'.th t).pc = (s.th t).trappc ∧ (s'.th t).slot = .live
    ∧ (t < 32 → bit s'.cur.m0 t = true) ∧ s'.cur.masks = s.cur.masks ∧ s'.cur.arrive = s.cur.arrive
    ∧ s'.cur.credit = s.cur.credit ∧ (s'.th t).x = (s.th t).x ∧ (s'.th t).p = (s.th t).p
    ∧ s'.mem = s.mem ∧ s'.l1s = s.l1s)
  ∧ (s.iss.ts = [t] → s.cur.kind.isProofer = false → (s.th t).status.getLsbD 1 = false →
    exec .eret s = .next (s.trapLanes [(t, { cause := 0x03 })]))

/-! ## Windows, masks, votes, exchanges -/

/-- R202: SETWB on a thread, and SETKB on its group: the new base, which is good again where it had been lost (R358),
and the traps. -/
def Obligations.WindowMoves : Prop := ∀ (s : State) (t : Nat) (n : BitVec 5) (m : BitVec 3),
  (Alone (.setwb n) s t → (s.cur.kind.isSwarm = true → n = 0#5) → 8 * n.toNat < s.cur.alloc →
    DoneAlone (.setwb n) s t ((s.advance t).modTh t fun h => { h with xwb := BitVec.ofNat 8 (8 * n.toNat) }))
  ∧ (Alone (.setwb n) s t → s.cur.kind.isSwarm = true → n ≠ 0#5 → TrapsAlone (.setwb n) s t { cause := 0x02 })
  ∧ (Alone (.setwb n) s t → s.cur.kind.isSwarm = false → s.cur.alloc ≤ 8 * n.toNat →
    TrapsAlone (.setwb n) s t { cause := 0x05, aux := 8 * n.toNat })
  ∧ (Alone (.setkb m) s t → (s.cur.kind.isSwarm = true → m = 0#3) →
    DoneAlone (.setkb m) s t ((s.advance t).modGroup s.iss.g fun G =>
      { G with kwb := BitVec.ofNat 8 (32 * m.toNat), bad := G.bad.filter (· ≠ 12) }))
  ∧ (Alone (.setkb m) s t → s.cur.kind.isSwarm = true → m ≠ 0#3 → TrapsAlone (.setkb m) s t { cause := 0x02 })

/-- R38, R39, R203: the membership that MJOIN, MLEAVE and MWRITE leave, with the completion test after a
departure, and the mask that MREAD gives. MWRITE writes the bit of a handler's own thread too (R345; log entry 102), a
thread that waits goes on waiting when its bit is cleared (the model's choice, log entry 112), and a mask that had been
lost is good again once it is written (R358). -/
def Obligations.MaskUpdates : Prop := ∀ (s : State) (m : BitVec 4) (d a : Field),
  let n := m.toNat
  let own := fun t => if (s.th t).status.getLsbD 1 then some t else none
  (Passes (.mjoin m) s → Completes (.mjoin m) s fun st t =>
    st.modGroup st.iss.g fun G => G.setMask n (withBit (G.mask n) t))
  ∧ (Passes (.mleave m) s → Completes (.mleave m) s fun st t => st.modGroup st.iss.g fun G =>
    ((G.setMask n (clearBit (G.mask n) t)).setArrived n (clearBit (G.arrived n) t)).complete n)
  ∧ (Passes (.mwrite m a) s → Completes (.mwrite m a) s fun st t =>
    let v := (s.reg t a).toNat
    st.modGroup st.iss.g fun G =>
      (({ G with bad := G.bad.filter (· ≠ n) }.setMask n (writtenMask G n v (own t))).setArrived n (Nat.land (G.arrived n) v)).complete n)
  ∧ (Passes (.mread d m) s → Completes (.mread d m) s fun st t =>
    st.setReg t d (BitVec.ofNat 32 (s.cur.mask n - Nat.land (s.cur.mask n) s.cur.trappedBits)))

/-- R39, R345: MWAIT of a lone thread: a handler, a credit and a thread outside the mask go on at once; the
last member to arrive goes on; any other waits at the instruction. -/
def Obligations.MaskWait : Prop := ∀ (s : State) (t : Nat) (m : BitVec 4), Alone (.mwait m) s t →
  s.hasThread s.iss.g t = true → t < 32 → s.cur.arrive.length = 12 →
  let n := m.toNat
  let G := s.cur
  let free := (s.th t).status.getLsbD 1 = false ∧ bit (G.credits n) t = false ∧ bit (G.mask n) t = true
  let others := andNot (Nat.land (G.mask n) G.m0) (withBit (G.arrived n) t)
  ((s.th t).status.getLsbD 1 = true → DoneAlone (.mwait m) s t (s.advance t))
  ∧ ((s.th t).status.getLsbD 1 = false → bit (G.credits n) t = true →
    DoneAlone (.mwait m) s t ((s.advance t).modGroup s.iss.g fun G => G.setCredits n (clearBit (G.credits n) t)))
  ∧ ((s.th t).status.getLsbD 1 = false → bit (G.credits n) t = false → bit (G.mask n) t = false →
    DoneAlone (.mwait m) s t (s.advance t))
  ∧ (free → n < 12 → others = 0 → ∃ s', exec (.mwait m) s = .next s' ∧ s'.cur.arrived n = 0
      ∧ (s'.th t).pc = s.iss.pc + 4 ∧ (s'.th t).wait = none)
  ∧ (free → n < 12 → others ≠ 0 → ∃ s', exec (.mwait m) s = .next s'
      ∧ s'.cur.arrived n = withBit (G.arrived n) t ∧ (s'.th t).pc = s.iss.pc ∧ (s'.th t).wait = some (.mask n))

/-- R204 to R206: votes and exchanges over the threads of the bundle, and the logic of two predicates. -/
def Obligations.VoteShuffleLogic : Prop := ∀ (s : State) (p q c : BitVec 3) (d a b : Field) (table : BitVec 4),
  let ts := s.iss.ts
  let k := fun t => (s.reg t b).toNat % 32
  let from_ := fun (q t : Nat) (st : State) => st.setReg t d (s.reg (if q ∈ ts then q else t) a)
  (Passes (.voteAny p q) s → Completes (.voteAny p q) s fun st t => st.setPred t p (ts.any fun u => s.pred u q))
  ∧ (Passes (.voteAll p q) s → Completes (.voteAll p q) s fun st t => st.setPred t p (ts.all fun u => s.pred u q))
  ∧ (Passes (.voteBallot d q) s → Completes (.voteBallot d q) s fun st t =>
    st.setReg t d (BitVec.ofNat 32 ((ts.map fun u => if s.pred u q then 2 ^ u else 0).sum)))
  ∧ (Passes (.shflIdx d a b) s → Completes (.shflIdx d a b) s fun st t => from_ (k t) t st)
  ∧ (Passes (.shflUp d a b) s → Completes (.shflUp d a b) s fun st t =>
    from_ (if t < k t then t else t - k t) t st)
  ∧ (Passes (.shflDown d a b) s → Completes (.shflDown d a b) s fun st t =>
    from_ (if 31 < t + k t then t else t + k t) t st)
  ∧ (Passes (.shflXor d a b) s → Completes (.shflXor d a b) s fun st t => from_ (Nat.xor t (k t)) t st)
  ∧ (Passes (.plop p q c table) s → Completes (.plop p q c table) s fun st t => st.setPred t p
      (table.getLsbD ((if s.pred t q then 2 else 0) + (if s.pred t c then 1 else 0))))

/-! ## Block moves and system registers -/

/-- R207, R208: BMOV and BFILL of a lone thread: a count of 0 completes at once; a count that one chunk serves is
moved or filled, D (and A) move on by it and the count is 0. -/
def Obligations.BlockMoveChunk : Prop := ∀ (s s1 s2 s3 : State) (t : Nat) (d a b : Field) (pa mt : Nat)
    (ps : List (Nat × Nat × Nat × Nat)) (bs : List Byte),
  let g := s.iss.g
  let n := (s.reg t b).toNat
  let dst := (s.pair t d).toNat
  let w := (s.reg t a).toNat
  let at1 := s.advance t
  let bump := fun (st : State) (f : Field) => st.setPair t f (st.pair t f + BitVec.ofNat 64 n)
  (Alone (.bmov d a b) s t → n = 0 → DoneAlone (.bmov d a b) s t at1)
  ∧ (Alone (.bfill d a b) s t → n = 0 → DoneAlone (.bfill d a b) s t at1)
  ∧ (Alone (.bfill d a b) s t → 0 < n → n ≤ 128 - dst % 128 → at1.acquiring g t = false →
    at1.translate g t dst 1 = .ok s1 pa mt →
    s1.storeAt t pa mt ((upTo n).map fun i => BitVec.ofNat 8 (w / 2 ^ (8 * ((dst + i) % 4)))) {} none = .ok s2 →
    s2.reg t b = s.reg t b → ((bump s2 d).setReg t b 0).reg t b = 0 →
    DoneAlone (.bfill d a b) s t ((bump s2 d).setReg t b 0))
  ∧ (Alone (.bmov d a b) s t → 0 < n → n ≤ 128 - dst % 128 → at1.reading g t = false →
    translatePieces g t 0 at1 (pagePieces (s.pair t a).toNat n) = .ok s1 ps →
    s1.translate g t dst 1 = .ok s2 pa mt → readPieces s2 g t ps = .ok bs → bs.length = n →
    s2.storeAt t pa mt bs {} none = .ok s3 →
    s3.reg t b = s.reg t b → (bump ((bump s3 d).setReg t b 0) a).reg t b = 0 →
    DoneAlone (.bmov d a b) s t (bump ((bump s3 d).setReg t b 0) a))

/-- R209, R210, R133: what CSRR of each number reads, from the lowest thread where the issue serves the whole bundle
(the model's reading, log entry 12); FS and FSSC are those of the thread's grid, or of a stitched thread's issuer. -/
def Obligations.SystemRegisterReads : Prop := ∀ (s : State) (d : Field) (n : BitVec 9) (v : Nat → DWord),
  let of := fun t => if uniformPipe (.csrr d n) then s.iss.ts.headD t else t
  let h := fun t => s.th (of t)
  let id_ := fun t => (h t).ident
  (n.toNat = 0x000 ∧ v = (fun t => (h t).status.setWidth 64)
    ∨ n.toNat = 0x001 ∧ v = (fun t => (h t).trapcause.setWidth 64)
    ∨ n.toNat = 0x002 ∧ v = (fun t => (h t).trappc)
    ∨ n.toNat = 0x003 ∧ v = (fun t => (h t).trapaddr)
    ∨ n.toNat = 0x004 ∧ v = (fun t => (h t).trapaux)
    ∨ n.toNat = 0x008 ∧ v = (fun t => (h t).xwb.setWidth 64)
    ∨ n.toNat = 0x009 ∧ v = (fun _ => s.cur.kwb.setWidth 64)
    ∨ n.toNat = 0x010 ∧ v = (fun t => (id_ t).tid.setWidth 64)
    ∨ n.toNat = 0x011 ∧ v = (fun t => (id_ t).gid.setWidth 64)
    ∨ n.toNat = 0x012 ∧ v = (fun t => (id_ t).bid)
    ∨ n.toNat = 0x013 ∧ v = (fun t => (id_ t).lcore.setWidth 64)
    ∨ n.toNat = 0x014 ∧ v = (fun t => (id_ t).jseed)
    ∨ n.toNat = 0x015 ∧ v = (fun t => (id_ t).mbox.setWidth 64)
    ∨ (0x020 ≤ n.toNat ∧ n.toNat < 0x028) ∧
      v = (fun t => ((s.slotsOf s.iss.g (of t)).1.getD (n.toNat - 0x020) 0).setWidth 64)
    ∨ (0x028 ≤ n.toNat ∧ n.toNat < 0x030) ∧
      v = (fun t => ((s.slotsOf s.iss.g (of t)).2.getD (n.toNat - 0x028) 0).setWidth 64)
    ∨ n.toNat = 0x030 ∧ v = (fun t => (h t).fpstat.setWidth 64)
    ∨ n.toNat = 0x040 ∧ v = (fun _ => BitVec.ofNat 64 s.cycle)
    ∨ n.toNat = 0x100 ∧ v = (fun _ => BitVec.ofNat 64 (s.die s.cur.kind.die).tkage)
    ∨ n.toNat = 0x101 ∧ v = (fun _ => BitVec.ofNat 64 s.cur.kind.unit)) →
  Passes (.csrr d n) s → Completes (.csrr d n) s fun st t =>
    if csrWidth n.toNat = some 64 then st.setPair t d (v t) else st.setReg t d ((v t).setWidth 32)

/-- R5, R141, R209, R210: what CSRW of each writable number writes, and PRIV_OP for the others that are assigned and for
TKAGE at user level. That TRAPCAUSE holds its reserved bits as written is the model's reading (log entry 25). -/
def Obligations.SystemRegisterWrites : Prop := ∀ (s : State) (t : Nat) (n : BitVec 9) (a : Field),
  let v := if csrWidth n.toNat = some 64 then s.pair t a else (s.reg t a).setWidth 64
  let st := s.advance t
  let writes := fun (k : Thread → Thread) => DoneAlone (.csrw n a) s t (st.modTh t k)
  (Alone (.csrw n a) s t →
    (n.toNat = 0x001 → writes fun h => { h with trapcause := v.setWidth 32 })
    ∧ (n.toNat = 0x002 → writes fun h => { h with trappc := v })
    ∧ (n.toNat = 0x003 → writes fun h => { h with trapaddr := v })
    ∧ (n.toNat = 0x004 → writes fun h => { h with trapaux := v })
    ∧ (n.toNat = 0x030 → writes fun h => { h with fpstat := v.setWidth 32 &&& 0xFFFFFF3F#32 })
    ∧ (n.toNat = 0x100 → DoneAlone (.csrw n a) s t
        (st.modDie s.cur.kind.die fun D => { D with tkage := v.toNat % 2 ^ 32 })))
  ∧ (s.iss.ts = [t] → s.cur.kind.isProofer = false →
    csrWidth n.toNat ≠ none →
    (n.toNat ∉ [0x001, 0x002, 0x003, 0x004, 0x030, 0x100] ∨ n.toNat = 0x100 ∧ (s.th t).status.getLsbD 0 = false) →
    exec (.csrw n a) s = .next (s.trapLanes [(t, { cause := 0x03, aux := n.toNat })]))

/-! ## Loads and stores -/

/-- R32, R90, R94, R102, R103, R167, R217: a global load of a lone thread, through a register pair or a pointer, at an
address that is aligned and translates, with no earlier access of the thread to its words on its way: served from its
core's L0 or its cluster's L1 when that holds every byte, else asked for with GETS, else, for an uncached page, performed
at its target; its destinations are pending until the value comes. A pointer moves on with it. LDC loads the same value
where the constant cache holds no older one, and an older one where it does and may (R218). LD.pf moves its pointer too,
also where the prefetch is dropped, which R219 does not say (the model's choice, log entry 113). -/
def Obligations.GlobalLoadsComplete : Prop := ∀ (s s1 : State) (t : Nat) (mo : MemOrd) (d a : Field) (off : BitVec 34)
    (sz : Size) (mode : PtrMode) (n : BitVec 3) (pa mt : Nat),
  let k := s.cur.kind
  let c := k.cluster
  let size := sz.bytes
  let g := s.iss.g
  let away := mt = 1 ∨ s1.isRemote k.die pa = true
  let s2 := s1.leaveCore g
  let reaches := fun (i : Instr) (va : Int) =>
    Alone i s t ∧ va % size = 0 ∧ (s.advance t).translate g t va.toNat 0 = .ok s1 pa mt ∧ s1.acquiring g t = false
  let served := fun (i : Instr) (va : Int) (acq : Bool) (fin : State → State) =>
    let q := { s1.request t va.toNat pa size (loadDst s t d sz) with
      sext := Size.isSigned sz, acquire := acq || s1.isDone k.die pa size }
    let cached := reaches i va ∧ ¬ away ∧ s1.atomOn g t pa size = false ∧ s1.ldtOn g t pa size = false
      ∧ s1.earlierLoad g t pa size = false
    let open_ := s2.portBusy k.port pa = false
    (∀ bs, cached → s1.l0Bytes g pa size = some bs → DoneAlone i s t (fin (s1.finishLoad q bs)))
    ∧ (cached → open_ → s1.l0Bytes g pa size = none → s1.l1Has c pa size = true → s1.l1Marked c pa size = false →
      DoneAlone i s t (fin ((s2.fillL0 g pa size).finishLoad q (s1.l1Bytes c pa size))))
    ∧ (cached → open_ → s1.l0Bytes g pa size = none → s1.l1Has c pa size = false →
      DoneAlone i s t (fin ((s2.ask q).sendGets c pa size s.cur.rcb)))
    ∧ (reaches i va → away → s1.accessFail k.die pa = none →
      DoneAlone i s t (fin ((s2.ask q).post (chanPage g (pa / 4096)) k.die (s1.homeDie k.die pa)
        (.uload g t q.id pa size))))
  let u := s.usePtr t false mode n.toNat size
  let moved := fun (st : State) => (notePtr st t n.toNat (s.ptrBase t n.toNat) s.iss.pc.toNat).movePtr t n.toNat u
  let va := s.globalAddr t a size off
  let fresh := (wordsIn pa size).all fun wa => (lget wa (s1.engine k.engine).olds).isNone
  served (.ld mo d a off sz) va (mo.ord = .acq) id
  ∧ served (.ldPointer mo d false mode n sz) u.addr (mo.ord = .acq) moved
  ∧ (mo.ord = .acq ∨ fresh = true ∨ k.isSwarm = true → served (.ldc mo d a off sz) va (mo.ord = .acq) id)
  ∧ (mo.ord ≠ .acq → fresh = false → k.isSwarm = false → reaches (.ldc mo d a off sz) va → ¬ away →
    let (old, b) := s1.freeBit
    let dst := loadDst s t d sz
    let q := { b.request t va pa size dst with sext := Size.isSigned sz, acquire := b.isDone k.die pa size }
    b.atomOn g t pa size = false → b.ldtOn g t pa size = false → b.earlierLoad g t pa size = false →
    (b.leaveCore g).portBusy k.port pa = false → b.l0Bytes g pa size = none →
    b.l1Has c pa size = true → b.l1Marked c pa size = false →
    DoneAlone (.ldc mo d a off sz) s t (if old = true then
      b.landDst g t [] dst (State.loadWords size (Size.isSigned sz) (oldBytes b k.engine c pa size))
    else ((b.leaveCore g).fillL0 g pa size).finishLoad q (b.l1Bytes c pa size)))
  ∧ (Alone (.ldPf mo mode n sz) s t →
    DoneAlone (.ldPf mo mode n sz) s t ((prefetch (s.advance t) t u.addr.toNat).movePtr t n.toNat u))

/-- R88: a translation that a thread makes reads its TLB; where the leaf's A bit, and D for a write or an atomic,
are set already it changes nothing; else it changes the leaf's own byte at home alone. -/
def Obligations.TranslationMarksLeaf : Prop := ∀ (s s1 : State) (g t va acc : Nat) (ldt : Bool) (pa mt : Nat),
  let G := s.group g
  s.translate g t va acc ldt = .ok s1 pa mt → ∃ h, s.tlbFind G.kind.tlb (s.tableOf G.rcb) va = some h
    ∧ (h.leaf.testBit 6 = true → (acc = 1 ∨ acc = 2 → h.leaf.testBit 7 = true) → s1 = s)
    ∧ s1.groups = s.groups ∧ s1.blocks = s.blocks ∧ s1.flight.length = s.flight.length
    ∧ (∀ a, a ≠ h.slot → readByte s1.mem a = readByte s.mem a)
    ∧ (∀ c a, a / 4 ≠ h.slot / 4 → s1.l1Word c (a / 4 * 4) = s.l1Word c (a / 4 * 4))

/-- R153, R217: the registers after a load of a lone thread that its core's L0 or its L1 serves: a value below four bytes
is extended; other registers, pointers, predicates, memory and L1s are as the translation left them. -/
def Obligations.LoadedValue : Prop := ∀ (s s1 : State) (t : Nat) (mo : MemOrd) (d a : Field) (off : BitVec 34)
    (sz : Size) (pa mt : Nat) (bs : List Byte),
  let k := s.cur.kind
  let c := k.cluster
  let size := sz.bytes
  let va := s.globalAddr t a size off
  let v := ofBytes bs
  Alone (.ld mo d a off sz) s t → s.wholeThread t = true → d.toNat + sz.regs ≤ 96 → va % size = 0 →
  (s.advance t).translate s.iss.g t va 0 = .ok s1 pa mt → s1.acquiring s.iss.g t = false →
  mt ≠ 1 → s1.isRemote k.die pa = false → s1.atomOn s.iss.g t pa size = false →
  s1.ldtOn s.iss.g t pa size = false → s1.earlierLoad s.iss.g t pa size = false →
  (s1.l0Bytes s.iss.g pa size = some bs ∨ s1.l0Bytes s.iss.g pa size = none
    ∧ (s1.leaveCore s.iss.g).portBusy k.port pa = false ∧ s1.l1Has c pa size = true
    ∧ s1.l1Marked c pa size = false ∧ s1.l1Bytes c pa size = bs) →
  ∃ s', exec (.ld mo d a off sz) s = .next s'
    ∧ (size = 4 → (s'.reg t d).toNat = v)
    ∧ (size = 8 → (s'.pair t d).toNat = v)
    ∧ (size < 4 → Size.isSigned sz = false → (s'.reg t d).toNat = v)
    ∧ (size < 4 → Size.isSigned sz = true → (s'.reg t d).toInt = extOf true (8 * size) v)
    ∧ (∀ m, m < s.xnum s.iss.g t d.toNat ∨ s.xnum s.iss.g t d.toNat + sz.regs ≤ m →
        (s'.th t).x.getD m 0 = (s.th t).x.getD m 0)
    ∧ (s'.th t).p = (s.th t).p ∧ (s'.th t).c = (s.th t).c ∧ (s'.th t).status = (s.th t).status
    ∧ (s'.th t).pc = s.iss.npc ∧ s'.cur.k = s.cur.k
    ∧ s'.mem = s1.mem ∧ s'.l1s = s1.l1s ∧ s'.blocks = s.blocks

/-- R102, R104, R109, R114, R167, R217: a global store of a lone thread, through a register pair or a pointer:
into its cluster's L1 and through its core's L0, or to the target of an uncached page, once its earlier loads have their
values and, for a release, the earlier writes that it follows are where they must be. -/
def Obligations.GlobalStoresComplete : Prop := ∀ (s s1 s2 s3 : State) (t : Nat) (mo : MemOrd) (d a : Field)
    (off : BitVec 34) (sz : Size) (mode : PtrMode) (n : BitVec 3) (pa mt : Nat),
  let k := s.cur.kind
  let c := k.cluster
  let size := sz.bytes
  let bs := storeBytes s t d sz
  let rel := mo.ord = .rel && (mo.scope = .dflt || mo.scope = .die || mo.scope = .dev)
  let stored := fun (i : Instr) (va : Int) (fin : State → State) =>
    let away := mt = 1 || s1.isRemote k.die pa
    let closes := mo.ord = .rel && (mo.scope = .sys || away) && (fencedOn s t).isNone
    Alone i s t → va % size = 0 → (s.advance t).translate s.iss.g t va.toNat 1 = .ok s1 pa mt →
    s1.reading s.iss.g t = false → (mo.ord = .rel → s1.sentBusy s.iss.g t = none) →
    (away = false → s1.atomOn s.iss.g t pa size = false) →
    (if closes then s1.closeEpoch c = (none, s2) else s2 = s1) →
    (away = false → s2.portBusy k.port pa = false → (s2.noteUnfenced t c pa size).storeL1 c pa bs (s2.who t) rel = .ok s3 →
      DoneAlone i s t (fin (State.throughL0 s2 s3 s.iss.g pa size)))
    ∧ (away = true → s2.accessFail k.die pa = none →
      DoneAlone i s t (fin (s2.post (chanPage s.iss.g (pa / 4096)) k.die (s2.homeDie k.die pa)
        (.ustore pa bs (s2.who t)))))
  let u := s.usePtr t false mode n.toNat size
  stored (.st mo d a off sz) (s.globalAddr t a size off) id
  ∧ stored (.stPointer mo d false mode n sz) u.addr (fun st => st.movePtr t n.toNat u)

/-- R102, R217, and the frame of a store: a relaxed store of a lone thread to a cached page leaves its bytes in
the cluster's L1; every other byte of that L1 is as before, but for a line that a full L1 gives up (R21, R106); every
other cluster's L1 and the memory at home are as the translation left them, and every register, pointer and predicate
of the thread as they were. -/
def Obligations.StoredBytes : Prop := ∀ (s s1 s2 : State) (t : Nat) (d a : Field) (off : BitVec 34) (sz : Size)
    (scope : Scope) (pa mt : Nat),
  let i : Instr := .st { ord := .rlx, scope := scope } d a off sz
  let k := s.cur.kind
  let c := k.cluster
  let size := sz.bytes
  let va := s.globalAddr t a size off
  Alone i s t → va % size = 0 → pa % size = 0 → (s.advance t).translate s.iss.g t va 1 = .ok s1 pa mt →
  s1.reading s.iss.g t = false → mt ≠ 1 → s1.isRemote k.die pa = false → s1.atomOn s.iss.g t pa size = false →
  s1.portBusy k.port pa = false → (s1.noteUnfenced t c pa size).storeL1 c pa (storeBytes s t d sz) (s1.who t) = .ok s2 →
  s.hasThread s.iss.g t = true →
  ∃ s', exec i s = .next s'
    ∧ s'.l1Bytes c pa size = storeBytes s t d sz
    ∧ (∀ b, b < pa ∨ pa + size ≤ b → s'.l1Bytes c b 1 =
        ((s1.noteUnfenced t c pa size).l1Room c (lineOf pa)).1.l1Bytes c b 1)
    ∧ (∀ c', c' ≠ c → s'.l1 c' = s1.l1 c')
    ∧ s'.mem = s1.mem ∧ s'.blocks = s.blocks
    ∧ (s'.th t).x = (s.th t).x ∧ (s'.th t).p = (s.th t).p ∧ (s'.th t).c = (s.th t).c
    ∧ (s'.th t).status = (s.th t).status ∧ (s'.th t).fpstat = (s.th t).fpstat ∧ (s'.th t).pc = s.iss.npc

/-- R109, R167, R215 to R217: LDS and STS of a lone thread at an aligned address inside its block's allocation
complete: LDS with the bytes there in its registers once their lines are FULL, STS with its bytes written there and no
line's state changed, at .rel.sys after its cluster's earlier epochs; so do the pointer forms, whose pointer moves on.
An empty line makes a load wait; a poisoned one traps it. -/
def Obligations.ScratchpadAccesses : Prop := ∀ (s s1 : State) (t : Nat) (mo : MemOrd) (d a : Field) (off : BitVec 34)
    (sz : Size) (mode : PtrMode) (n : BitVec 3),
  let g := s.iss.g
  let b := s.cur.blk
  let size := sz.bytes
  let st := s.advance t
  let x := s.spmAddr t a size off
  let inside := fun (x : Int) => x % size = 0 ∧ 0 ≤ x ∧ x < 2 ^ 32 ∧ x.toNat + size ≤ s.spmSize g
  let loaded := fun (x : Int) => st.landDst g t [] (loadDst s t d sz)
    (State.loadWords size (Size.isSigned sz) (s.spmRead b x.toNat size))
  let full := fun (x : Int) => s.emptyLine b x.toNat size = none ∧ s.poisoned b x.toNat size = false
  let bytes := storeBytes s t d sz
  let plain := ¬ (mo.ord = .rel ∧ mo.scope = .sys)
  let sent := mo.ord = .rel → st.sentBusy g t = none
  let u := s.usePtr t true mode n.toNat size
  (Alone (.lds mo d a off sz) s t → inside x → s.acquiring g t = false → full x →
    exec (.lds mo d a off sz) s = .next ((loaded x).settle t))
  ∧ (Alone (.lds mo d a off sz) s t → inside x → s.acquiring g t = false → ∀ l, s.emptyLine b x.toNat size = some l →
    WaitsAlone (.lds mo d a off sz) s t st (.full b l))
  ∧ (Alone (.lds mo d a off sz) s t → inside x → s.acquiring g t = false → s.emptyLine b x.toNat size = none →
    s.poisoned b x.toNat size = true → TrapsAlone (.lds mo d a off sz) s t { cause := 0x15, addr := x.toNat })
  ∧ (Alone (.ldPointer mo d true mode n sz) s t → inside u.addr → u.high = false → s.acquiring g t = false →
    full u.addr → exec (.ldPointer mo d true mode n sz) s = .next (((loaded u.addr).movePtr t n.toNat u).settle t))
  ∧ (Alone (.sts mo d a off sz) s t → inside x → s.reading g t = false → sent → plain →
    exec (.sts mo d a off sz) s = .next ((st.spmWrite b x.toNat bytes).settle t))
  ∧ (Alone (.sts mo d a off sz) s t → inside x → s.reading g t = false → sent → ¬ plain → fencedOn s t = none →
    st.closeEpoch s.cur.kind.cluster = (none, s1) →
    exec (.sts mo d a off sz) s = .next ((s1.spmWrite b x.toNat bytes).settle t))
  ∧ (Alone (.stPointer mo d true mode n sz) s t → inside u.addr → u.high = false → s.reading g t = false → sent →
    plain → exec (.stPointer mo d true mode n sz) s =
      .next (((st.spmWrite b u.addr.toNat bytes).movePtr t n.toNat u).settle t))

/-- R89, R215, R217, R343: where accesses trap a lone thread: MISALIGNED before translation, the fault of the
translation, and SPM_BOUND past the allocation. -/
def Obligations.AccessTraps : Prop := ∀ (s : State) (t : Nat) (mo : MemOrd) (d a : Field) (off : BitVec 34)
    (sz : Size) (ti : TrapInfo),
  let size := sz.bytes
  let va := s.globalAddr t a size off
  let x := s.spmAddr t a size off
  let traps := fun (i : Instr) (acc : Nat) =>
    Alone i s t →
      (va % size ≠ 0 → TrapsAlone i s t { cause := 0x06, addr := va })
      ∧ (va % size = 0 → (s.advance t).translate s.iss.g t va acc = .fault ti → TrapsAlone i s t ti)
  let bound := fun (i : Instr) => Alone i s t → x % size = 0 → 0 ≤ x → x < 2 ^ 32 →
    s.spmSize s.iss.g < x.toNat + size →
    TrapsAlone i s t { cause := 0x12, addr := Nat.max x.toNat (s.spmSize s.iss.g) }
  traps (.ld mo d a off sz) 0 ∧ traps (.ldc mo d a off sz) 0 ∧ traps (.st mo d a off sz) 1
    ∧ bound (.lds mo d a off sz) ∧ bound (.sts mo d a off sz)

/-! ## Asynchronous data movement -/

/-- R216, R220, R221: LDGS of a lone thread marks its line and sends its landing; WAITF goes on where its line
is FULL, poison or not, and waits where it is empty; SETE empties its line and ends its poison. -/
def Obligations.LandingsAndLines : Prop := ∀ (s s1 : State) (t : Nat) (mo : MemOrd) (d a : Field) (off : BitVec 34)
    (sz : GSize) (pa mt : Nat),
  let g := s.iss.g
  let G := s.cur
  let st := s.advance t
  let x := (s.reg t a).toNat
  let sink := (s.reg t d).toNat
  let va := s.globalAddr t a sz.bytes off
  (Alone (.ldgs mo d a off sz) s t → va % sz.bytes = 0 → sink % sz.bytes = 0 →
    st.translate g t va 0 = .ok s1 pa mt → s1.spmBad g sink sz.bytes = none →
    (mo.ord = .rel → s1.releaseWait g t = none) → s1.acquiring g t = false →
    s1.met g t (.ldgs G.kind.engine) = true → s1.met g t (.count G.blk (sink / 128)) = true →
    DoneAlone (.ldgs mo d a off sz) s t (sendLanding s1 t sink va pa mt sz.bytes (if mo.ord = .rel then [] else (s1.th t).uncopied)))
  ∧ (Alone (.waitf a) s t → st.spmBad g x 1 = none → (s.line G.blk (x / 128)).full = true →
    DoneAlone (.waitf a) s t st)
  ∧ (Alone (.waitf a) s t → st.spmBad g x 1 = none → (s.line G.blk (x / 128)).full = false →
    WaitsAlone (.waitf a) s t st (.full G.blk (x / 128)))
  ∧ (Alone (.sete a) s t → st.spmBad g x 1 = none → st.reading g t = false →
    DoneAlone (.sete a) s t (st.modLine G.blk (x / 128) fun l => { l with full := false, poison := false }))

/-- R111, R222, R226 to R229: ACPY of a lone thread whose command passes its checks enters its queue in its region's
turn, and completes at once where it has no elements, taking a number and no place (the model's reading, log entry 43);
QJOIN puts one marker into each queue it names; QWAIT goes on where few enough entries are out, and waits otherwise; MFREE
adds a credit, up to 15. -/
def Obligations.CopyQueueInstructions : Prop := ∀ (s s1 : State) (t : Nat) (mo : MemOrd) (q : BitVec 2)
    (qs : BitVec 4) (a : Field),
  let g := s.iss.g
  let G := s.cur
  let cl := G.kind.cluster
  let st := s.advance t
  let w := s.run t a 8
  let token := (s.reg t a).toNat % 65536
  let lines := if cqMarks w then cqLines w else []
  let own := s1.stay t (.queues cl (2 ^ q.toNat))
  (Alone (.acpy mo q a) s t → copyCheck st w = none → entryWait s st t mo = (s1, none) →
    (∀ l ∈ lines, (s1.line G.blk l).count < 15) →
    (copyItems w ≠ 0 → own.cqRoom cl (2 ^ q.toNat) G.rcb = true →
      DoneAlone (.acpy mo q a) s t
        (enqueueCopy { s1 with cqTurns := (own.admitCq (4 * cl + q.toNat) G.rcb).cqTurns } t q.toNat mo w))
    ∧ (copyItems w = 0 → DoneAlone (.acpy mo q a) s t (s1.nextEnt g t q.toNat).2))
  ∧ (Alone (.qjoin qs) s t → st.joinRoom cl qs.toNat = true →
    DoneAlone (.qjoin qs) s t (((upTo 4).filter fun q => qs.getLsbD q).foldl
      (fun u q => u.pushCq (4 * cl + q) (.marker st.nextKey))
      { st with nextKey := st.nextKey + 1 }))
  ∧ (Alone (.qwait q a) s t →
    (((s.th t).out.getD q.toNat 0) ≤ (s.reg t a).toNat → DoneAlone (.qwait q a) s t st)
    ∧ ((s.reg t a).toNat < ((s.th t).out.getD q.toNat 0) →
      WaitsAlone (.qwait q a) s t st (.out q.toNat (s.reg t a).toNat)))
  ∧ (Alone (.mfree a) s t → DoneAlone (.mfree a) s t (st.modBlock G.blk fun b =>
      { b with credits := lmod token 0 (fun n => Nat.min 15 (n + 1)) b.credits }))

/-- R121, R122, R230 to R232, R383: LDT, RDM and RDM.spm of a lone thread send their requests and mark what they will
fill; TKDROP sends its drop, and does nothing for a ticket that is no ticket here; a zero ticket traps a
redemption as stale. RDM marks the registers of the largest payload (the model's reading, log entry 41). -/
def Obligations.TicketInstructions : Prop := ∀ (s s1 : State) (t : Nat) (mo : MemOrd) (d a : Field) (sz : TkSize)
    (pa mt : Nat),
  let g := s.iss.g
  let G := s.cur
  let st := s.advance t
  let va := (s.pair t a).toNat
  let k := (s.reg t a).toNat
  let x := (s.reg t d).toNat
  let window := if isK d then 128 - d.toNat else 96 - d.toNat
  (Alone (.ldt mo d a sz) s t → va % sz.bytes = 0 → st.translate g t va 0 true = .ok s1 pa mt →
    s1.ticketLimit G.rcb = none → s1.acquiring g t = false →
    s1.earlierLoad g t pa sz.bytes = false → s1.ldtOn g t pa sz.bytes = false →
    (mt = 0 → s1.atomOn g t pa sz.bytes = false) → unsentRelease s1 G.kind.cluster (lineOf pa) = false →
    DoneAlone (.ldt mo d a sz) s t (sendLdt s1 t va pa mt sz.bytes (s.runNums g t d.toNat 1) mo))
  ∧ (Alone (.rdm d a) s t → ticketCheck st k = none →
    let q := { st.request t 0 window 0 (redeemRun s g t d) with kind := 3 }
    DoneAlone (.rdm d a) s t (sendRedeem (st.ask q) t q.id k none false))
  ∧ (Alone (.rdm d a) s t → k = 0 → TrapsAlone (.rdm d a) s t { cause := 0x21 })
  ∧ (Alone (.rdmSpm d a) s t → x % 64 = 0 → st.spmBad g x 64 = none → ticketCheck st k = none →
    st.met g t (.count G.blk (x / 128)) = true → s.hasThread g t = true → ∃ s', exec (.rdmSpm d a) s = .next s'
      ∧ s'.lands.length = s.lands.length + 1 ∧ s'.line G.blk (x / 128) = (st.markLine G.blk (x / 128)).line G.blk (x / 128)
      ∧ s'.flight.length = s.flight.length + 1 ∧ (s'.th t).pc = s.iss.npc)
  ∧ (Alone (.tkdrop a) s t → ticketCheck st k = none →
    DoneAlone (.tkdrop a) s t (sendRedeem st t 0 k none true))
  ∧ (Alone (.tkdrop a) s t → ticketCheck st k ≠ none → DoneAlone (.tkdrop a) s t st)

/-! ## Atomics, fences, barriers -/

/-- R52, R91, R123, R124, R200, R233, R234: ATOM, RED and JOIN of a lone thread send one request to the home of
their word, ATOM with its destinations pending and JOIN with the thread waiting for the count; ATOM and RED on
the scratchpad read the word and write the new one at once. -/
def Obligations.AtomicInstructions : Prop := ∀ (s s0 s1 s2 : State) (t : Nat) (mo : MemOrd) (ty : Ty) (op : AtomOp)
    (d a b : Field) (pa mt : Nat),
  let g := s.iss.g
  let w := 4 * ty.regs
  let va := (s.pair t a).toNat
  let x := (s.reg t a).toNat
  let blk := s.cur.blk
  let reaches := fun (i : Instr) (n : Nat) (mo : MemOrd) =>
    s.iss.ts = [t] ∧ startWalks i (fun s t => (s.pair t a).toNat) n s = (s0, none) ∧ Alone i s0 t
      ∧ s0.iss = s.iss ∧ s0.group g = s.group g ∧ va % n = 0 ∧ (s0.advance t).translate g t va 2 = .ok s1 pa mt
      ∧ atomWaits s0 s1 t pa mo = (s2, none)
  let ends := fun (i : Instr) (s' : State) => exec i s = .next (s'.settle t)
  let old := ofBytes (s.spmRead blk x w)
  let r := atomReq s t x x {} ty op d b .outside
  let spm := fun (i : Instr) => Alone i s t ∧ spmCheck (s.advance t) x false w = none
    ∧ (s.advance t).reading g t = false ∧ releaseFirst s (s.advance t) t mo = (s1, none)
    ∧ s1.emptyLine blk x w = none ∧ s1.poisoned blk x w = false ∧ s1.block blk = s.block blk
  let put := match atomNew op ty.signed w old r.b r.e with
    | some v => s1.spmWrite blk x (toBytes w v)
    | none => s1
  (op ≠ .cas → reaches (.atom mo ty op d a b) w mo →
    let q := { s2.request t va pa w (s0.runNums g t d.toNat ty.regs) with acquire := Ord.acquires mo.ord, kind := 1 }
    ends (.atom mo ty op d a b)
      ((s2.ask q).sendAtom g mt (atomReq s0 t pa va mo ty op d b (.thread g t q.id))))
  ∧ (op = .cas → reaches (.atom mo ty op d a b) w mo →
    let q := { s2.request t va pa w (s0.runNums g t d.toNat ty.regs) with
      acquire := Ord.acquires mo.ord, cas := true, kind := 1 }
    ends (.atom mo ty op d a b)
      (((s2.ask q).modTh t fun h => { h with pendC := 0 :: h.pendC }).sendAtom g mt
        (atomReq s0 t pa va mo ty op d b (.thread g t q.id))))
  ∧ (reaches (.red mo ty op a b) w mo →
    ends (.red mo ty op a b) ((s2.nextEnt g t 40).2.sendAtom g mt (atomReq s0 t pa va mo ty op a b
      (.record ((s2.nextEnt g t 40).2.who t) s.cur.kind.unit (s2.nextEnt g t 40).1 0 0))))
  ∧ (reaches (.join a) 8 { ord := .ar, scope := .dev } → s1.awaiting g t = false →
    let q := { s2.request t va pa 4 [] with acquire := true, join := true, kind := 1 }
    exec (.join a) s = .next (((s2.ask q).sendAtom g mt
      { pa := pa, va := va, width := 4, op := .add, signed := false, b := 2 ^ 32 - 1, e := 0
        mo := { ord := .ar, scope := .dev }, sink := .thread g t q.id }).stay t .reply))
  ∧ (spm (.atomSpm mo ty op d a b) → DoneAlone (.atomSpm mo ty op d a b) s t
    (let st := if ty.regs = 2 then put.setPair t d (BitVec.ofNat 64 old) else put.setReg t d (BitVec.ofNat 32 old)
     if op = .cas then st.setPred t 0#3 (old = r.e) else st))
  ∧ (∀ r' : AtomReq, r' = atomReq s t x x {} ty op a b .outside → spm (.redSpm mo ty op a b) →
    DoneAlone (.redSpm mo ty op a b) s t
      (match atomNew op ty.signed w old r'.b r'.e with
        | some v => s1.spmWrite blk x (toBytes w v)
        | none => s1))

/-- R102, R105, R235, R236, R237, R245: FENCE of a lone thread completes once its earlier reads are in
(whatever its order: the model's reading, log entry 125), its atomics performed (acquire), and its cluster's earlier epochs are written back (release); CFLUSH drops a line that holds nothing dirty; BARA
and BARA.tx make one update of their barrier; BARW goes on where the phase that this clock began with (the model's reading, log entry 135) has moved, and waits
otherwise. -/
def Obligations.FencesAndBarriers : Prop := ∀ (s s1 : State) (t : Nat) (mo : MemOrd) (a b : Field) (pa mt : Nat),
  let g := s.iss.g
  let k := s.cur.kind
  let blk := s.cur.blk
  let st := s.advance t
  let o := fenceOrd mo
  let x := (s.reg t a).toNat
  let n := (s.reg t b).toNat
  let phase := at0 (s.barBase blk x) 3
  (Alone (.fence mo) s t →
    st.reading g t = false → (Ord.acquires o.ord = true → st.redding g t (fun _ => true) = false) →
    releaseFirst s st t o = (s1, none) →
    DoneAlone (.fence mo) s t
      (if Ord.releases o.ord && o.scope ≠ .grp then
        s1.modTh t fun h =>
          { h with unfenced := if o.scope = .clu || Scope.wide o.scope then [] else h.unfenced, uncopied := [] }
      else s1))
  ∧ (Alone (.cflush a) s t → st.translate g t (s.pair t a).toNat 0 = .ok s1 pa mt →
    mt ≠ 1 → s1.isRemote k.die pa = false → s1.lineBusy k.cluster (lineOf pa) = false →
    s1.met 0 0 (.flushed k.cluster (lineOf pa)) = true → dirtyIn s1 k.cluster (lineOf pa) = [] →
    DoneAlone (.cflush a) s t (dropLine s1 k.cluster (lineOf pa)))
  ∧ (Alone (.bara a) s t → barrierCheck st x = none → arrivalWait s t = none → arrivalWait st t = none →
    DoneAlone (.bara a) s t (st.barrier blk x 1 0))
  ∧ (Alone (.baraTx a b) s t → barrierCheck st x = none → arrivalWait s t = none → arrivalWait st t = none →
    DoneAlone (.baraTx a b) s t (st.barrier blk x 1 n))
  ∧ (Alone (.barw a b) s t → barrierCheck st x = none →
    (phase ≠ n → DoneAlone (.barw a b) s t st)
    ∧ (phase = n → WaitsAlone (.barw a b) s t st (.phase blk x n)))

/-! ## Messages, launches, proofers, contexts -/

/-- R50, R54, R55, R238 to R241, R397: MSEND of a lone thread sends its words to a mailbox with room; MRECV takes
the oldest message, its words padded with zeros and its information word last, and waits where there is none;
LAUNCH puts the record's address into its engine's or core's inbox; STITCH sends its request with the result slot
reserved. -/
def Obligations.MessageInstructions : Prop := ∀ (s s1 : State) (t : Nat) (n nr : BitVec 4) (na1 : BitVec 3)
    (d a b : Field) (m : Message) (rest : List Message),
  let g := s.iss.g
  let G := s.cur
  let st := s.advance t
  let sink := (s.reg t a).toNat
  let target := st.groupAt G.rcb sink
  let info := (if bit (if m.bounced then m.target else m.sender) 31 then 2 ^ 31 else 0)
    + (if m.bounced then 2 ^ 28 else 0) + m.words.length % 16 * 2 ^ 24
    + (if m.bounced then m.target else m.sender) % 2 ^ 24
  let lr := (s.pair t a).toNat
  let box := inboxOf G.kind
  (Alone (.msend n a b) s t → bits sink 30 24 = 0 → st.routeFail G.kind.die (mailDie st g target) = none →
    st.mailRoom G.kind.die G.rcb sink = true → st.reading g t = false →
    releaseFirst s st t { ord := .rel, scope := mailScope st g target } = (s1, none) →
    DoneAlone (.msend n a b) s t (s1.sendMessage G.kind.die (mailDie s1 g target)
      { sender := (s1.th t).ident.mbox.toNat, target := sink, words := s.run t b n.toNat, rcb := G.rcb }))
  ∧ (Alone (.mrecv d a) s t → s.cur.mail = m :: rest → DoneAlone (.mrecv d a) s t
    (((st.setRun t d ((m.words ++ List.replicate 8 0).take 8)).setReg t a (BitVec.ofNat 32 info)).modGroup g
      fun G => { G with mail := G.mail.drop 1 }))
  ∧ (Alone (.mrecv d a) s t → s.cur.mail = [] → WaitsAlone (.mrecv d a) s t st .mail)
  ∧ (Alone (.launch a) s t → lr % 128 = 0 → st.met g t (.inbox box) = true →
    DoneAlone (.launch a) s t { st with inboxes := lmod box [] (· ++ [(lr, G.rcb)]) st.inboxes })
  ∧ (Alone (.stitch nr na1 a b) s t → G.kind.isSwarm = true → lr % 4 = 0 → st.met g t .slot = true →
    st.reading g t = false → releaseFirst s st t { ord := .rel, scope := .clu } = (s1, none) →
    DoneAlone (.stitch nr na1 a b) s t
      (((s1.modGroup g fun G => { G with reserved := true }).modTh t fun h => { h with wait := some .stitched }).post
        (chanMail (2 ^ 42 + G.kind.cluster) 0) G.kind.die G.kind.die
        (.stitch G.kind.cluster lr (s.run t b (na1.toNat + 1)) nr.toNat g G.rcb)))
  ∧ (Alone (.stitch nr na1 a b) s t → G.kind.isSwarm = false →
    TrapsAlone (.stitch nr na1 a b) s t { cause := 0x01 })

/-- R242, R244: PFARM of a lone thread arms a range of its scratchpad, or its context's mailbox, for the proofer whose
header says that it is one (which of an engine's two is the model's choice, log entry 130); PFSTOP ends the ranges that start there, or the context's arming. -/
def Obligations.ProoferArming : Prop := ∀ (s s1 : State) (t : Nat) (a : Field) (ps : List (Nat × Nat × Nat × Nat))
    (bs : List Byte),
  let g := s.iss.g
  let G := s.cur
  let st := s.advance t
  let entry := (s.pair t a).toNat
  let start := (s.regAt t a 2).toNat
  let stop := (s.regAt t a 3).toNat
  let header := st.acquiring g t = false
    ∧ translatePieces g t 0 st (pagePieces ((entry + 2 ^ 64 - 16) % 2 ^ 64) 16) = .ok s1 ps
    ∧ readPieces s1 g t ps = .ok bs ∧ bit (ofBytes ((bs.drop 7).take 1)) 0 = true
  let armed := (s1.swarmArms.any fun b => b.g = g) = true
  (Alone (.pfarm a) s t → G.kind.isSwarm = false → rangeCheck st start stop = none → header →
    s1.met g t (.proofer G.kind.engine) = true → DoneAlone (.pfarm a) s t (armRange s1 t entry start stop))
  ∧ (∀ c x, G.kind = .swarm c x → Alone (.pfarm a) s t → header →
    armed ∨ s1.met g t (.proofer (swarmProofer c)) = true →
    DoneAlone (.pfarm a) s t (armMailbox s1 t (swarmProofer c) entry))
  ∧ (Alone (.pfstop a) s t → G.kind.isSwarm = false → DoneAlone (.pfstop a) s t
    { st with engines := st.engines.map fun e => (e.1, { e.2 with arms := e.2.arms.filter fun b =>
      !(b.blk = G.blk && b.start = (s.reg t a).toNat) }) })
  ∧ (Alone (.pfstop a) s t → G.kind.isSwarm = true →
    DoneAlone (.pfstop a) s t { st with swarmArms := st.swarmArms.filter fun b => b.g ≠ g })

/-- R51, R56 to R58, R199, R201: FORK of a lone thread writes the member count to its cell, starts the members on
idle contexts and keeps the first range; MIGR at a migration point moves a SIMT thread to an idle context of its
cluster and a migrated one back to its slot, and waits while no context is idle. -/
def Obligations.ForkAndMigrate : Prop := ∀ (s s1 s2 s3 : State) (t : Nat) (d a b : Field) (id : BitVec 12)
    (pa mt : Nat) (live livek : Nat),
  let g := s.iss.g
  let G := s.cur
  let st := s.advance t
  let n := (s.reg t a).toNat
  let cell := (s.pair t b).toNat
  let cl := G.kind.cluster
  let idle := ((forkClusters cl).map s2.idleCount).sum
  let c := Nat.max 1 (Nat.min ((n + 63) / 64) (Nat.min (s2.resolved G.rcb 13).forkcap (1 + idle)))
  let ctxs := recruits s3 (forkClusters cl) (c - 1)
  let started := (upTo ctxs.length).foldl
    (fun u i => startMember s t d.toNat (s.pairAt t b 2) n c u (i + 1) (ctxs.getD i 0)) s3
  let point := st.awaiting g t = false ∧ st.sentBusy g t = none
    ∧ migrationPoint st g t id.toNat = .ok (s1, some (s.iss.pc.toNat, live, livek))
    ∧ s1.group g = st.group g ∧ s1.iss = s.iss ∧ liveBad G (s.th t) live livek = none
  (Alone (.fork d a b) s t → cell % 8 = 0 → st.translate g t cell 1 = .ok s1 pa mt → s1.releaseWait g t = none →
    (if (fencedOn s t).isSome then s2 = s1 else s1.closeEpoch cl = (none, s2)) →
    (c = 1 ∨ copiedBad s t = none) → s2.writePhys G.kind.die pa (toBytes 8 c) = .ok s3 → s2.group g = s1.group g →
    DoneAlone (.fork d a b) s t (started.setPair t d (BitVec.ofNat 32 (n / c) ++ (0 : Word))))
  ∧ (Alone (.migr id) s t → point → G.kind.isSwarm = false → liveOver (s.th t).xwb.toNat G.alloc live = none →
    (∀ ctx more, s1.idleContexts cl = ctx :: more →
      DoneAlone (.migr id) s t (migrateOut s1 g t s.iss.npc live livek ctx))
    ∧ (s1.idleContexts cl = [] → WaitsAlone (.migr id) s t s1 (.migrate id.toNat)))
  ∧ (∀ g0 t0, Alone (.migr id) s t → point → G.kind.isSwarm = true → (s.th t).home = some (g0, t0) →
    liveOver (s1.thread g0 t0).xwb.toNat (s1.group g0).alloc live = none →
    DoneAlone (.migr id) s t (migrateBack s1 g s.iss.npc live g0 t0))

/-! ## Vector and cross-thread arithmetic -/

/-- R186, R246 to R254: each FP32, conversion, packed and dot instruction gives D its rounded result and the thread its
flags, on the uniform pipe too (log entry 12). UNPK gives negative infinity and no flag for an element of -2^128, and PACK
its NX by the model's reading for a clamped block (log entries 110 and 111). -/
def Obligations.VectorResults : Prop := ∀ (s : State) (d a b : Field) (cc : FCond) (c n : BitVec 3) (rm : RMode)
    (ty : Ty),
  let one := fun (i : Instr) (f : Nat → Word × Flags) => Passes i s → Completes i s fun st t =>
    (st.setReg t d (f t).1).setFlags t (f t).2
  let many := fun (i : Instr) (f : Nat → FpRes) => Completes i s fun st t =>
    ((st.setRun t d (f t).words).setFlags t (f t).flags).advSrn t (f t).draws
  let all := fun (i : Instr) (p : Nat → Prop) => Passes i s ∧ ∀ t ∈ s.iss.ts, p t
  let x := fun t => f32 (s.reg t a)
  let y := fun t => f32 (s.reg t b)
  let z := fun t => f32 (s.reg t d)
  let v := fun t => s.slot t n.toNat
  let vt := fun t => slotTy (v t).fs
  let plain := ∀ t ∈ s.iss.ts, (v t).isBlock = false
  one (.fadd d a b) (fun t => finish32 (vadd (x t) (y t)))
  ∧ one (.fsub d a b) (fun t => finish32 (vadd (x t) (y t).flip))
  ∧ one (.fmul d a b) (fun t => finish32 (vmul (x t) (y t)))
  ∧ one (.ffma d a b) (fun t => finish32 (vfma (x t) (y t) (z t)))
  ∧ one (.fdiv d a b) (fun t => finish32 (vdiv (x t) (y t)))
  ∧ one (.fmin d a b) (fun t => (fMin (s.reg t a) (s.reg t b), 0))
  ∧ one (.fmax d a b) (fun t => (fMax (s.reg t a) (s.reg t b), 0))
  ∧ one (.fabs d a) (fun t => (if (x t).isNan then 0x7FC00000#32 else s.reg t a &&& 0x7FFFFFFF#32, 0))
  ∧ one (.fneg d a) (fun t => (if (x t).isNan then 0x7FC00000#32 else s.reg t a ^^^ 0x80000000#32, 0))
  ∧ one (.fround rm d a) (fun t => (fRound rm (s.reg t a), 0))
  ∧ one (.fclass d a) (fun t => (fClass (s.reg t a), 0))
  ∧ (Passes (.fcmp cc c a b) s → Completes (.fcmp cc c a b) s fun st t =>
      st.setPred t c (fCompare cc (s.reg t a) (s.reg t b)))
  ∧ one (.frcp d a) (fun t => finish32 (vdiv (.fin false 1 1) (x t)))
  ∧ one (.frsq d a) (fun t => fRsq (s.reg t a))
  ∧ one (.fsqrt d a) (fun t => fSqrt (s.reg t a))
  ∧ one (.fexp2 d a) (fun t => fExp2 (s.reg t a))
  ∧ one (.flog2 d a) (fun t => fLog2 (s.reg t a))
  ∧ one (.fsin d a) (fun t => fTrig false (s.reg t a))
  ∧ one (.fcos d a) (fun t => fTrig true (s.reg t a))
  ∧ (Passes (.f2i ty rm d a) s → many (.f2i ty rm d a) fun t =>
      { words := wordsOf ty.regs (toBytes 8 (wrap ty.width (fToInt ty rm (s.reg t a)).1))
        flags := (fToInt ty rm (s.reg t a)).2 })
  ∧ one (.i2f ty d a) (fun t => roundFP32 .rne (.fin (s.int t ty a < 0) (s.int t ty a).natAbs 1))
  ∧ (Passes (.cvtTo d a n) s → plain → many (.cvtTo d a n) fun t =>
      { words := [BitVec.ofNat 32 ((v t).put (s.streamKey t) (s.srn t) (s.reg t a)).1]
        flags := ((v t).put (s.streamKey t) (s.srn t) (s.reg t a)).2, draws := (v t).draws 1 })
  ∧ (plain → one (.cvtFrom d a n) fun t => finish32 ((v t).get ((s.reg t a).toNat % 2 ^ (vt t).bits)))
  ∧ (all (.pack d a n) (fun t => runChecks s t [(d, (vt t).stored, false), (a, (vt t).packed, true)] = none) →
      many (.pack d a n) fun t =>
        let r := packWords (v t) (s.streamKey t) (s.srn t) (s.run t a (vt t).packed)
        { words := wordsOf (vt t).stored (toBytes (4 * (vt t).stored) r.1), flags := r.2
          draws := (v t).draws (vt t).packed })
  ∧ (all (.unpk d a n) (fun t => runChecks s t [(d, (vt t).packed, false), (a, (vt t).stored, true)] = none) →
      many (.unpk d a n) fun t =>
        { words := (unpackVals (vt t) (ofBytes (bytesOf (s.run t a (vt t).stored)))).map fun v => (roundFP32 .rne v).1 })
  ∧ one (.hadd2F16 d a b) (fun t => halves fp16 (fun x y _ => vadd x y) (s.reg t a) (s.reg t b) (s.reg t d))
  ∧ one (.hmul2F16 d a b) (fun t => halves fp16 (fun x y _ => vmul x y) (s.reg t a) (s.reg t b) (s.reg t d))
  ∧ one (.hfma2F16 d a b) (fun t => halves fp16 quietFma (s.reg t a) (s.reg t b) (s.reg t d))
  ∧ one (.hadd2Bf16 d a b) (fun t => halves bf16 (fun x y _ => vadd x y) (s.reg t a) (s.reg t b) (s.reg t d))
  ∧ one (.hmul2Bf16 d a b) (fun t => halves bf16 (fun x y _ => vmul x y) (s.reg t a) (s.reg t b) (s.reg t d))
  ∧ one (.hfma2Bf16 d a b) (fun t => halves bf16 quietFma (s.reg t a) (s.reg t b) (s.reg t d))
  ∧ ((∀ t ∈ s.iss.ts, vt t = .e4m3 ∨ vt t = .e5m2 ∨ vt t = .int8) →
      one (.dot4 n d a b) fun t => dotFour (v t) (s.reg t a) (s.reg t b) (s.reg t d))
  ∧ (Passes (.dot4S8 d a b) s → Completes (.dot4S8 d a b) s fun st t => st.setReg t d (BitVec.ofInt 32
      ((s.reg t d).toInt + ((upTo 4).map fun i =>
        ((s.reg t a).extractLsb' (8 * i) 8).toInt * ((s.reg t b).extractLsb' (8 * i) 8).toInt).sum)))

/-- R255 to R259: CDET gives each thread the earlier threads of its value; SCAN its running sum, before or after
its own value, a scan on the uniform pipe that of the lowest thread alone (the model's reading, log entry 12); MERGE of a
lone thread the merged run with its count; PRUNE the kept elements and their places. -/
def Obligations.CrossThreadResults : Prop := ∀ (s s1 : State) (t : Nat) (d a b : Field) (p : Pattern) (n : BitVec 3),
  let seen := fun (i : Instr) => if uniformPipe i then s.iss.ts.take 1 else s.iss.ts
  let lead := fun (i : Instr) t => if uniformPipe i then s.iss.ts.headD t else t
  let before := fun t =>
    (s.iss.ts.map fun q => if q < t && s.reg q a = s.reg t a then 2 ^ q else 0).sum
  let scans := fun (i : Instr) (inc : Bool) (add : Word → Word → Word × Flags) => Passes i s →
    Completes i s fun st t =>
      match (scanFrom add 0#32 ((seen i).map fun t => (t, s.reg t a))).find? fun r => r.1 = lead i t with
      | some (_, e, v, f) => (st.setReg t d (if inc then v else e)).setFlags t f
      | none => st
  let m : MergeArgs :=
    { s1 := (s.reg t a).toNat, n1 := (s.regAt t a 1).toNat, s2 := (s.regAt t a 2).toNat
      n2 := (s.regAt t a 3).toNat, o := (s.reg t b).toNat }
  let merges := fun (i : Instr) (kz : Bool) => Alone i s t → mergeCheck (s.advance t) m = none →
    (s.advance t).reading s.iss.g t = false →
    mergeGo m kz d s.cur.blk t (m.n1 + m.n2 + 1) (s.advance t) 0 0 0 = .ok s1 → DoneAlone i s t s1
  let v := fun t => s.slot t n.toNat
  let keep := (Pattern.shape p).2.1 * (Pattern.shape p).2.2
  let regs := fun t => (keep * (slotTy (v t).fs).bits + 31) / 32
  (Passes (.cdet d a) s → Completes (.cdet d a) s fun st t =>
    (st.setReg t d (BitVec.ofNat 32 (before t))).setPred t 0#3 (before t = 0))
  ∧ scans (.scanIncF32 d a) true fAdd ∧ scans (.scanExcF32 d a) false fAdd
  ∧ scans (.scanIncS32 d a) true (fun x y => (x + y, 0)) ∧ scans (.scanExcS32 d a) false (fun x y => (x + y, 0))
  ∧ merges (.merge d a b) false ∧ merges (.mergeKz d a b) true
  ∧ (Passes (.prune p n d a) s → (∀ t ∈ s.iss.ts, (v t).isBlock = false) →
    (∀ t ∈ s.iss.ts, runChecks s t [(d, 1 + regs t, false)] = none) → Completes (.prune p n d a) s fun st t =>
      let kept := pruned p (s.run t a 8) (Nat.min ((s.reg t d).toNat % 16) 8)
      let r := packWords (v t) (s.streamKey t) (s.srn t) (kept.map Prod.snd)
      ((st.setRun t d (pruneMeta p kept :: wordsOf (regs t) (toBytes (4 * regs t) r.1))).setFlags t r.2).advSrn t
        ((v t).draws keep))

/-! ## Accumulator memory, products, weight buffer, sequencer -/

/-- R260 to R265: AMALLOC gives a handle and c0, or 0 and no c0; AMFREE and AMSHAPE change the entry that a valid
handle names; AMRD reads a row, zeros of a tile that is not allocated; AMWR and AMZERO write a tile that is allocated;
the drains write a tile, or zeros for one that is not allocated. Said of a bundle of one thread. -/
def Obligations.AccumulatorInstructions : Prop := ∀ (s s1 : State) (t : Nat) (d a b : Field) (h : Word),
  let G := s.cur
  let e := G.kind.engine
  let st := s.advance t
  let H := s.reg t a
  let n := hEntry H
  let sel := s.reg t b
  let tile := selTile H sel
  let valid := st.handleOk e G.blk H
  let held := valid && tileOk (st.handle e n) tile
  let quiet := held = true ∧ st.tilePending e n tile = false
  let rows := (upTo 16).map fun j => s.amRead e n tile (selRow sel) j
  let own := if valid then some n else none
  let place := if held then some n else none
  let drains := fun (i : Instr) (add : Bool) => Alone i s t → (held = true → st.tilePending e n tile = false) →
    ownsBand st e place tile (s.th t).ident.gid.toNat = true →
    (held = true → st.amBadWord e n tile (upTo 16) = none) →
    (sel.getLsbD 14 = true → (s.reg t d).toNat % 64 = 0 →
      drainSpm add st t (s.reg t d).toNat (bits sel.toNat 31 16) e own place tile = .ok s1 → DoneAlone i s t s1)
    ∧ (sel.getLsbD 14 = false → runChecks s t [(d, 2, true)] = none → (s.pair t d).toNat % 64 = 0 →
      drainGlobal add st t (s.pair t d).toNat (bits sel.toNat 31 16) e own place tile = .ok s1 → DoneAlone i s t s1)
  (Alone (.amalloc d a) s t →
    (allocBanks st e G.blk H.toNat = some (h, s1) →
      DoneAlone (.amalloc d a) s t ((s1.setReg t d h).setPred t 0#3 true))
    ∧ (allocBanks st e G.blk H.toNat = none →
      DoneAlone (.amalloc d a) s t ((st.setReg t d 0#32).setPred t 0#3 false)))
  ∧ (Alone (.amfree a) s t → valid = true → st.handleBusy e n = false →
    DoneAlone (.amfree a) s t (st.modHandle e n fun H => { gen := H.gen }))
  ∧ (Alone (.amfree a) s t → valid = false → DoneAlone (.amfree a) s t st)
  ∧ (Alone (.amshape a b) s t → valid = true → st.handleBusy e n = false → shapeOk (s.reg t b) = true →
    DoneAlone (.amshape a b) s t (st.modHandle e n fun H => { H with shape := s.reg t b }))
  ∧ (Alone (.amrd d a b) s t → held = false → DoneAlone (.amrd d a b) s t (st.setRun t d (List.replicate 16 0)))
  ∧ (Alone (.amrd d a b) s t → quiet → st.amBadWord e n tile [selRow sel] = none →
    DoneAlone (.amrd d a b) s t (st.setRun t d rows))
  ∧ (Alone (.amwr d a b) s t → quiet → DoneAlone (.amwr d a b) s t ((upTo 16).foldl
    (fun u j => u.amWrite e n tile (selRow sel) j (s.regAt t d j)) st))
  ∧ (Alone (.amwr d a b) s t → held = false → TrapsAlone (.amwr d a b) s t { cause := 0x13, aux := tile })
  ∧ (Alone (.amzero a b) s t → quiet → DoneAlone (.amzero a b) s t (zeroTile st e n tile))
  ∧ drains (.amdrain d a b) false ∧ drains (.amdrainAdd d a b) true

/-- R75, R145, R266 to R268: a product of a quarter whose operands pass every check enters its partition's
dispatch queue, and its threads go on. -/
def Obligations.ProductsQueue : Prop := ∀ (s : State) (q : Nat) (sa sb : BitVec 3) (p : Pattern) (h a b e : Field)
    (tl : BitVec 10) (op : QuarterOp) (en part : Nat),
  let queued := fun (i : Instr) (m : Product) => s.cur.kind = .simt en part → q < 4 → s.iss.ts ≠ [] →
    (∀ t ∈ s.iss.ts, t / 8 = q) → pendingTile s m q = none → quarterOp s m q = .ok op →
    quarterLoads s en op = none →
    quarterForeign s en (s.cur.lr, (s.owner s.iss.g (s.iss.ts.headD 0)).bid) op = none →
    s.met s.iss.g 0 (.dispatch en part 1) = true →
    exec i s = .next
      (let st := s.iss.ts.foldl (fun (u : State) t => (u.advance t).settle t) s
       { st.modEngine en (fun E => { E with dispatch := E.dispatch ++ [{ op with serial := st.serial }] }) with
         serial := st.serial + 1 })
  let m : Product :=
    { i := .mma sa sb h a b tl, sa := sa, sb := sb, pattern := none, h := h, a := a, b := b, regs := false
      e := 0, t := tl.toNat }
  queued (.mma sa sb h a b tl) m
  ∧ queued (.mmaR sa sb h a b tl) { m with i := .mmaR sa sb h a b tl, regs := true }
  ∧ queued (.mmas sa sb p h a b e tl) { m with i := .mmas sa sb p h a b e tl, pattern := some p, e := e }

/-- R269 to R272, R274: WBLD of a lone thread enters the loader and MQ the sequencer's queue, which gives D the
command's number; LRSET writes a loop register; MQWAIT goes on once the command is done, and waits before. -/
def Obligations.LoaderAndSequencer : Prop := ∀ (s s1 : State) (t : Nat) (mo : MemOrd) (n l : BitVec 3) (d a b : Field),
  let g := s.iss.g
  let G := s.cur
  let e := G.kind.engine
  let st := s.advance t
  let c := s.reg t b
  let w := s.run t a 8
  let num := (s.reg t a).toNat
  (Alone (.wbld mo n d a b) s t → wbldCheck st (st.slot t n.toNat) (s.reg t d).toNat num c = none →
    entryWait s st t mo = (s1, none) → s1.met g t (.loader e) = true → ∃ s', exec (.wbld mo n d a b) s = .next s'
      ∧ (s'.engine e).loader.length = (s1.engine e).loader.length + 1 ∧ s'.serial = s1.serial + 1
      ∧ (∃ q, (s'.engine e).loader.getLast? = some q ∧ q.offset = (s.reg t d).toNat ∧ q.spm = num
        ∧ q.n = bits c.toNat 23 0 ∧ q.raw = c.getLsbD 31 ∧ q.blk = G.blk))
  ∧ (Alone (.mq mo d a) s t → mqCheck s w = none → entryWait s st t mo = (s1, none) →
    s1.met g t (.sequencer e) = true →
    let entry := if s1.handleOk e G.blk (w.getD 1 0) then some (hEntry (w.getD 1 0)) else none
    let r := captureSeq s1 e G.blk entry (s1.who t) w
    DoneAlone (.mq mo d a) s t (r.2.setReg t d (BitVec.ofNat 32 r.1)))
  ∧ (Alone (.lrset l a) s t → DoneAlone (.lrset l a) s t
    (st.modEngine e fun E => { E with li := E.li.set l.toNat (s.reg t a) }))
  ∧ (Alone (.mqwait a) s t →
    (((s.engine e).done + 2 ^ 32 - num) % 2 ^ 32 < 2 ^ 31 → DoneAlone (.mqwait a) s t st)
    ∧ (2 ^ 31 ≤ ((s.engine e).done + 2 ^ 32 - num) % 2 ^ 32 → WaitsAlone (.mqwait a) s t st (.command e num)))

/-! ## Texture, hash grid, pixels, control stores -/

/-- R301, R302, R303, R306, R307, R308: the texture, traversal and hash-grid instructions of a lone thread enter its texture queue
with their results pending and with the image that its context binds then (the model's choice, log entry 132); HGSFENCE applies the launch's earlier contributions once they are all in. -/
def Obligations.TextureInstructions : Prop := ∀ (s s1 : State) (t : Nat) (mo : MemOrd) (d a b : Field),
  let g := s.iss.g
  let G := s.cur
  let st := s.advance t
  let sel := s.regAt t a 3
  let four := s.runNums g t d.toNat 4
  let k := selCount sel * selFeat sel
  let l := (st.block G.blk).launch
  let n := match (s.th t).wait with
    | some (.scatter _ n) => n
    | _ => s.nextKey
  let queued := fun (i : Instr) (fn m : Nat) => Alone i s t →
    DoneAlone i s t (queueRequest st t fn (s.run t a m ++ s.run t b 2) four)
  let scatters := fun (i : Instr) (fn : Nat) => Alone i s t → gridCheck s t d sel true = none →
    entryWait s st t mo = (s1, none) →
    DoneAlone i s t (queueRequest s1 t fn (s.run t a 4 ++ s.run t b 2 ++ s.run t d k) [] mo)
  queued (.tex d a b) 0 3 ∧ queued (.tld d a b) 1 3 ∧ queued (.tgath d a b) 2 3 ∧ queued (.trav d a b) 7 8
  ∧ (Alone (.hgf d a b) s t → gridCheck s t d sel false = none →
    DoneAlone (.hgf d a b) s t (queueRequest st t 3 (s.run t a 4 ++ s.run t b 2) (s.runNums g t d.toNat k)))
  ∧ scatters (.hgs mo d a b) 4 ∧ scatters (.hgsDet mo d a b) 5
  ∧ (Alone .hgsfence s t → st.met g t (.scatter l n) = true → applyBuffered st l n = .ok s1 →
    DoneAlone .hgsfence s t s1)

/-- R276, R282, R283, R293, R295: PIXOUT of a pixel's thread hands its colour and depth to the output merge,
or discards it with flag 1; RSCB and RSCE open and close its ordered section; CSLD and CSREL bind an image, and
image 0, for the region's graphics context; a thread without a pixel traps on PIXOUT and RSCB. -/
def Obligations.PixelAndImageInstructions : Prop := ∀ (s s1 : State) (t : Nat) (flags : BitVec 2) (d a : Field)
    (p : Pixel),
  let g := s.iss.g
  let G := s.cur
  let st := s.advance t
  let v := (s.reg t a).toNat
  let out := st.modTh t fun h => { h with pixel := h.pixel.map fun p => { p with out := true } }
  let o : PixelOut :=
    { prim := p.prim, at_ := p.at_, colour := s.run t d 4, z := if flags.getLsbD 0 then s.reg t a else p.z }
  (Alone (.pixout flags d a) s t → (s.th t).pixel = some p → p.out = false →
    DoneAlone (.pixout flags d a) s t
      (if flags.getLsbD 1 then out else modBin out G.blk fun b => { b with outs := b.outs ++ [o] }))
  ∧ (Alone (.pixout flags d a) s t → (s.th t).pixel = none →
    TrapsAlone (.pixout flags d a) s t { cause := 0x01, aux := 2 })
  ∧ (Alone .rscb s t → (s.th t).pixel = some p → p.section_ = false → st.met g t .turn = true →
    DoneAlone .rscb s t (st.modTh t fun h =>
      { h with pixel := h.pixel.map fun p => { p with section_ := true, issued := 1 } }))
  ∧ (Alone .rscb s t → (s.th t).pixel = none → TrapsAlone .rscb s t { cause := 0x01, aux := 2 })
  ∧ (Alone .rsce s t → (s.th t).pixel = some p → p.section_ = true →
    entryWait s st t { ord := .rel, scope := .clu } = (s1, none) →
    DoneAlone .rsce s t (s1.modTh t fun h => { h with pixel := h.pixel.map fun p =>
      { p with section_ := false, issued := 0, passed := true } }))
  ∧ (Alone (.csld a) s t → s.gfx G.rcb = true → (bits v 2 0 = 0 ∨ (s.imageAt (bits v 5 4) (bits v 2 0)).isSome = true) →
    DoneAlone (.csld a) s t (st.bindImage G.rcb (bits v 5 4) (bits v 2 0)))
  ∧ (Alone (.csld a) s t → s.gfx G.rcb = false → TrapsAlone (.csld a) s t { cause := 0x61, aux := 0x100 })
  ∧ (Alone (.csrel a) s t → DoneAlone (.csrel a) s t (st.bindImage G.rcb (bits v 5 4) 0))

/-! ## Coherence -/

/-- R97, R101 to R106, R123, R390: at a line's home with nothing in hand, GETS of words that nobody owns is answered with
DATA and makes the cluster a sharer, GETO with GRANT and makes it the owner, and the atomics of a message are
performed once no cluster shares the line, those of an uncached page on the page's own channel; a word owned elsewhere is
recalled first; a request for a busy line waits in its queue, and one for a
line that has moved goes back with RETRY; IACK ends a line's waiting, WB brings words home and is acknowledged, and
a directory eviction invalidates the sharers. -/
def Obligations.HomeRequests : Prop := ∀ (s s1 : State) (n : Nat) (m : Msg) (line : Nat) (ws : List Nat) (rcb : Nat)
    (rel : Bool) (x : Tx) (r : AtomReq) (rs : List AtomReq) (vals : List WordVal) (wa : Nat) (o : OwnerState),
  let c := chanCluster m.chan
  let h := chanSlice m.chan
  let e := s1.dieOfLine line
  let slice := 64 * e + sliceOf line
  let counted := s1.countAccess line (c / 16) rcb
  let here := s1.homeSlice (c / 16) line = h
  let idle := s1.txOf line = none
  let entered := (counted.roomFor line).noteL2 false line
  let alone := ∀ wa ∈ ws, lget wa s1.owners = none
  let atomWords := ((r :: rs).map fun q => wordsIn q.pa q.width).flatten
  let counted' := s1.countAccess line (c / 16) (s.atomRegion r)
  (Arrives s n m (.gets line ws rcb) s1 → here → idle → alone →
    exec (.gets n) s = .next ((entered.addSharer line c).post (chanDown c slice) e (c / 16)
      (.data line (ws.map s1.homeWord))))
  ∧ (Arrives s n m (.gets line [wa] rcb) s1 → here → idle → lget wa s1.owners = some o →
    s1.pairFail e (o.cluster / 16) = none →
    exec (.gets n) s = .next { counted.post (chanDown o.cluster slice) e (o.cluster / 16) (.recallMsg line [wa] true (some c)) with
      txs := { line := line, req := .gets c [wa], acks := [], recalls := [(o.cluster, wa)], queue := [] } :: s1.txs })
  ∧ (Arrives s n m (.gets line ws rcb) s1 → here → s1.txOf line = some x →
    exec (.gets n) s = .next { counted with txs := s1.txs.map fun y =>
      if y.line = line then { y with queue := y.queue ++ [.gets c ws] } else y })
  ∧ (Arrives s n m (.gets line ws rcb) s1 → ¬here →
    exec (.gets n) s = .next (s1.post (chanDown c h) (h / 64) (c / 16) (.retry line (.gets c ws))))
  ∧ (Arrives s n m (.geto line ws rel rcb) s1 → here → idle → alone → (∀ k ∈ s1.sharersOf line, k = c) →
    exec (.geto n) s = .next ({ entered with
        owners := ws.foldl (fun l wa => lput wa { cluster := c, rel := rel } l) entered.owners }.post
      (chanDown c slice) e (c / 16) (.grant line ws (ws.map entered.homeWord) rel)))
  ∧ (Arrives s n m (.atom (r :: rs)) s1 → m.chan % 4 ≠ 0 → s.lineFree r.pa 1 = true →
    exec (.atomMessage n) s = .next ((r :: rs).foldl (fun u q => u.performAtom m.dst q)
      (s1.countAccess r.pa m.src (s.atomRegion r))))
  ∧ (Arrives s n m (.atom (r :: rs)) s1 → m.chan % 4 = 0 → line = lineOf r.pa → here → idle → line < 2 ^ 40 →
    (∀ wa ∈ atomWords, lget wa s1.owners = none) → s1.sharersOf line = [] →
    exec (.atomMessage n) s = .next ((r :: rs).foldl (fun u q => u.performAtom e q) counted'))
  ∧ (Arrives s n m (.atom (r :: rs)) s1 → m.chan % 4 = 0 → line = lineOf r.pa → here → idle → atomWords ≠ [] →
    (∀ wa ∈ atomWords, lget wa s1.owners = none) → s1.sharersOf line ≠ [] →
    (∀ k ∈ s1.sharersOf line, s1.pairFail e (k / 16) = none) →
    exec (.atomMessage n) s = .next
      { (s1.sharersOf line).foldl (fun u k => u.post (chanDown k slice) e (k / 16) (.inv line atomWords)) counted' with
        txs := { line := line, req := .atom (r :: rs), acks := s1.sharersOf line, recalls := [], queue := [] } :: s1.txs })
  ∧ (Arrives s n m (.iack line ws false) s1 → s1.txOf line = some x → x.acks.erase c ≠ [] →
    exec (.iack n) s = .next { s1 with txs := s1.txs.map fun y =>
      if y.line = line then { y with acks := y.acks.erase c } else y })
  ∧ (Arrives s n m (.iack line ws false) s1 → s1.txOf line = some x → x.acks = [c] → x.recalls = [] →
    x.asked = false → x.queue = [] → x.req = .evict →
    exec (.iack n) s = .next { s1 with
      txs := s1.txs.filter fun y => y.line ≠ line, sharers := ldel line s1.sharers })
  ∧ (Arrives s n m (.wb line vals) s1 → idle → (vals.map WordVal.word).Nodup →
    (∀ v ∈ vals, s1.ownedBy c v.word = true) →
    exec (.wb n) s = .next ((vals.foldl State.takeWord s1).post (chanDown c h) m.dst m.src
      (.wback line (vals.map WordVal.word))))
  ∧ (line % 128 = 0 → s.txOf line = none → s.sharersOf line ≠ [] →
    (∀ wa ∈ State.lineWords line, lget wa s.owners = none) →
    (∀ k ∈ s.sharersOf line, s.pairFail (s.dieOfLine line) (k / 16) = none) →
    exec (.directoryEviction line) s = .next
      { (s.sharersOf line).foldl (fun u k => u.post (chanDown k (64 * s.dieOfLine line + sliceOf line))
          (s.dieOfLine line) (k / 16) (.inv line (State.lineWords line))) s with
        txs := { line := line, req := .evict, acks := s.sharersOf line, recalls := [], queue := [] } :: s.txs })

/-- R21, R23, R97, R99, R102, R103, R106, R108, R123, R379: at a cluster, DATA fills words and completes the loads that
they serve, each in its turn at its bank, and a full L1 does not keep the line (the model's choice, log entry 104); GRANT makes words owned; INV drops words and is acknowledged; RECALL of owned words sends them home; WBACK lets them
go; RETRY sends the request to the line's home of now; a failed store is reported and dropped; the result of an
atomic is written to its thread; an eviction drops the clean words of a line. -/
def Obligations.ClusterMessages : Prop := ∀ (s s1 : State) (n : Nat) (m : Msg) (line : Nat) (ws : List Nat)
    (vals : List WordVal) (q : LoadReq) (keep rel : Bool) (k : Nat) (r : AtomReq) (g t id old cause c0 : Nat) (asker : Option Nat),
  let c := chanCluster m.chan
  let room := s1.l1Room c line
  let filled := room.1.fillWords c vals
  let ended : State := { s1 with loads := s1.loads.filter fun x => x.id ≠ q.id }
  (Arrives s n m (.data line vals) s1 → filled.cachedLoads c = [] → exec (.data n) s = .next
    (if room.2 = none then filled else filled.dropClean c line))
  ∧ (Arrives s n m (.data line vals) s1 → room.2 = none → filled.cachedLoads c = [q] →
    (filled.outOfTurn q = false → filled.l1Has c q.pa q.size = true → exec (.data n) s = .next (filled.takeLoad c q))
    ∧ (filled.outOfTurn q = true → exec (.data n) s = .next filled))
  ∧ (Arrives s n m (.grant line ws vals rel) s1 → exec (.grant n) s = .next (s1.takeGrant c ws vals rel))
  ∧ (Arrives s n m (.inv line ws) s1 → s1.routeFail m.dst m.src = none →
    exec (.inv n) s = .next ((s1.invWords c ws).post (chanUp c (chanSlice m.chan)) m.dst m.src (.iack line ws false)))
  ∧ (Arrives s n m (.recallMsg line ws keep asker) s1 →
    (∀ wa ∈ ws, (s1.l1Word c wa).owned = true ∧ (s1.l1Word c wa).leaving = false ∧ (s1.l1Word c wa).rel = none) →
    exec (.recallMsg n) s = .next ((s1.giveWords m line ws keep).l1Advance c))
  ∧ (Arrives s n m (.wback line ws) s1 → exec (.wback n) s = .next (s1.takeWback c ws))
  ∧ (Arrives s n m (.retry line (.gets k ws)) s1 → s1.accessFail (c / 16) line = none →
    exec (.retry n) s = .next (s1.post (chanUp c (s1.homeSlice (c / 16) line)) (c / 16) (s1.homeDie (c / 16) line)
      (.gets line ws (s.lineRegion c line))))
  ∧ (∀ s2, Arrives s n m (.storeFail line ws cause none) s1 → failStores s1 c line cause ws = .ok s2 →
    exec (.storeFailure n) s = .next s2)
  ∧ (Arrives s n m (.atomr r old none) s1 → r.sink = .thread g t id → s1.loads.find? (fun q => q.id = id) = some q →
    q.join = false → q.cas = false → r.width = 4 →
    exec (.atomr n) s = .next ((ended.clearPend q.g q.t q.dst).landDst q.g q.t q.skip q.dst [BitVec.ofNat 32 old]))
  ∧ (c0 < 64 → (∀ e ∈ (s.l1 c0).words, lineOf e.1 = line → e.2.owned = false ∧ e.2.dirty = 0#4 ∧ e.2.leaving = false) →
    exec (.l1Eviction c0 line) s = .next
      ((s.modL1 c0 fun l => { l with words := l.words.filter fun e => lineOf e.1 ≠ line }).l1Advance c0))

/-- R90, R124, R310, R311, R314, R315, R388: an uncached load sends its value back, and the value completes it; an
uncached store writes its bytes at home; an atomic on peer memory is performed there, and one on host memory is
performed by the host, or by the device once it holds the line, unless the host refuses, which is a free choice (log
entry 35; the peer's layout of an atomic is log entry 87, and the key of a host line log entry 117); a snoop takes its line from the package and is answered; the host and a peer read and write the device's memory through
a port that is up, and a peer performs atomics in it. -/
def Obligations.UncachedAndPorts : Prop := ∀ (s s1 : State) (n : Nat) (m : Msg) (g t id pa size : Nat) (bs : List Byte)
    (who : Owner) (q : LoadReq) (r : AtomReq) (rs : List AtomReq) (port d : Nat) (op : AtomOp) (sg : Bool) (excl : Bool) (v : List Byte),
  let counted := s1.countAccess pa m.src (s1.group g).rcb
  let free := s.lineFree pa size = true
  let outside := portUp s port = true ∧ oneLine pa size = true ∧ s.running (s.homeDie port pa) = true ∧ free
    ∧ s.target port pa = .hbm d ∧ s.accessFail port pa = none
  let all := r :: rs
  let line := lineOf r.pa
  let refused := all.foldl (fun u r => failAtom u m r cHOSTDENY 0) s1.freeBit.2
  (Arrives s n m (.uload g t id pa size) s1 → free → counted.uncachedRead m.src pa size = .ok bs →
    exec (.uncachedAccess n) s = .next (counted.post (chanBack g) m.dst m.src (.uvalue g t id bs none)))
  ∧ (Arrives s n m (.uvalue g t id bs none) s1 → s1.loads.find? (fun q => q.id = id) = some q →
    exec (.uncachedAccess n) s = .next (s1.finishLoad q bs))
  ∧ (Arrives s n m (.ustore pa bs who) s1 → s.target m.dst pa = .hbm d → s.lineFree pa bs.length = true →
    s1.accessFail m.src pa = none →
    exec (.uncachedAccess n) s = .next ((s1.countAccess pa m.src who.rcb).homeWrite pa bs))
  ∧ (Arrives s n m (.hostAtom all false) s1 → s1.accessFail m.dst r.pa = none → s1.target m.dst r.pa = .peer port →
    exec (.hostAtomic n) s = .next (all.foldl (fun u r => u.performAtom m.dst r) s1))
  ∧ (Arrives s n m (.hostAtom all false) s1 → s1.accessFail m.dst r.pa = none → s1.target m.dst r.pa = .host port →
    exec (.hostAtomic n) s = .next (if s1.freeBit.1 then refused
      else all.foldl (fun u r => u.performAtom m.dst r) s1.freeBit.2))
  ∧ (Arrives s n m (.hostAtom all true) s1 → s1.accessFail m.dst r.pa = none → s1.target m.dst r.pa = .host port →
    exec (.hostAtomic n) s = .next (if s1.freeBit.1 then
        (refused.modTx line fun x => { x with req := .atom [], asked := false }).resumeTx line
      else (s1.freeBit.2.modTx line fun x => { x with asked := false, held := true }).resumeTx line))
  ∧ (pa / 2 ^ 52 < 4 → s.ownAddr (pa / 2 ^ 52) pa = pa → s.target (pa / 2 ^ 52) pa = .host port →
    portUp s port = true → s.txOf (lineOf pa) = none →
    s.sharersOf (lineOf pa) = [] → (∀ wa ∈ State.lineWords (lineOf pa), lget wa s.owners = none) →
    exec (.hostSnoop pa excl) s = .next
      ({ s with sharers := if excl then ldel (lineOf pa) s.sharers else s.sharers }.notify (.snooped (lineOf pa))))
  ∧ (outside → s.hostPorts.contains port = true →
    (s.flight.any fun m => m.chan = chanPort port pa) = false →
    (s.uncachedRead port pa size = .ok bs →
      exec (.hostAccess port pa size none) s = .next (s.notify (.value port pa (some bs))))
    ∧ (v.length = size →
      exec (.hostAccess port pa 0 (some v)) s = .next (s.homeWrite pa v)))
  ∧ (outside → port ≠ 0 → s.hostPorts.contains port = false →
    (s.uncachedRead port pa size = .ok bs →
      exec (.peerAccess port pa size none none) s = .next (s.notify (.value port pa (some bs))))
    ∧ (v.length = size → exec (.peerAccess port pa 0 (some v) none) s = .next (s.homeWrite pa v))
    ∧ (size = 4 ∨ size = 8 → pa % size = 0 → s.uncachedRead port pa size = .ok bs →
      exec (.peerAccess port pa size (some v) (some (op, sg))) s
        = .next ((s.notify (.value port pa (some bs))).performAtom d
          { pa := pa, va := pa, width := size, op := op, signed := sg, b := ofBytes (v.take size)
            e := ofBytes ((v.drop size).take size), mo := {}, sink := .outside })))

/-! ## Copy queues and tickets -/

/-- R117, R222, R224, R226 to R228, R216, R353 to R355: the head entry of a copy queue begins, a multicast first
finding its targets and taking one credit of each (the cause of a target that is not there is the model's, log entry 14); an element reads its global or scratchpad bytes and writes the
other, bytes and halfwords of one word together; a multicast's tile lands at a target; a completed entry reports its
failures, lands its lines then and not before (the model's reading, log entry 15), leaves its queue and lowers OUT; the markers of a QJOIN leave together; the oldest LDGS of
a thread lands its bytes and its line. -/
def Obligations.CopyAgents : Prop := ∀ (s s1 s2 : State) (q m i k va blk : Nat) (e : CqEntry) (x : Landing)
    (bs : List Byte) (data : List (Nat × List Byte)) (bad : List (Nat × TrapInfo)),
  let token := cwHi e.w 5
  let cast := cqKind e.w = 4
  let cl := e.q / 4
  let a := cw e.w 3 + cqSize e.w * i
  let table := s.tableOf e.who.rcb
  let has := fun (l : Nat × List CqItem) => l.2.any fun y => y = .marker m
  let who := { e.who with job := some (e.id, [(i, cqTarget e.w i)]) }
  let live := s.copy? k = some e ∧ (s.headEntry e.q).map CqEntry.id = some k ∧ s.poolFull (e.q / 64) = false
    ∧ e.begun = true ∧ e.done.contains i = false ∧ i < copyItems e.w
  let one := live ∧ ¬cast ∧ 4 ≤ cqSize e.w ∧ cqGlobal e.w i = some va
  let element := fun (u : State) =>
    exec (.elementLanding k i) s = .next (u.modCopy e.id fun y => { y with done := i :: y.done })
  let found := castTargets s e
  let landed := fun (u : State) => (landLines u e).popCq q
  (s.headEntry q = some e → e.begun = false → ¬cast →
    exec (.copyEntry q) s = .next (s.modCopy e.id fun y => { y with begun := true }))
  ∧ (s.headEntry q = some e → e.begun = false → cast → cqCount e.w ≠ 0 →
    exec (.copyEntry q) s = .next (s.modCopy e.id fun y => { y with
      begun := found.1 = [], targets := found.1
      done := ((upTo 16).filter fun i => !bit (cwLo e.w 5) i) ++ found.2, fails := found.2.map castFail }))
  ∧ (s.headEntry q = some e → e.begun = false → cast → e.targets ≠ [] →
    (∀ y ∈ e.targets, residentAt s (s.block e.blk).launch (cw e.w 7 + y.1) (q / 64) = some y.2
      ∧ 0 < lgetD token (s.block y.2).credits 0 ∧ ∀ l ∈ cqLines e.w, (s.line y.2 l).count < 15) →
    exec (.multicastCredit q) s = .next ((e.targets.foldl (fun u y =>
        (cqLines e.w).foldl (fun u l => u.markLine y.2 l)
          (u.modBlock y.2 fun b => { b with credits := lmod token 0 (· - 1) b.credits }))
      (s.modCopy e.id fun y => { y with targets := e.targets, begun := false })).modCopy e.id
        fun y => { y with begun := true }))
  ∧ (live → cast → lget i e.targets = some blk → e.tile = some (data, bad) →
    exec (.elementLanding k i) s = .next ((data.foldl (fun u x => u.spmWrite blk x.1 x.2) s).modCopy e.id fun y =>
      { y with done := i :: y.done, fails := y.fails ++ (bad.take 1).map (fun f => (i, f.2)), tile := some (data, bad) }))
  ∧ (live → ¬cast → copyElements e (elementsWith e i) s = some (s1, bad) →
    exec (.elementLanding k i) s = .next (s1.modCopy e.id fun y =>
      { y with done := (elementsWith e i).reverse ++ y.done, fails := y.fails ++ bad }))
  ∧ (one → cqOut e.w = false → s.unitBytes cl table e.who.rcb va (cqSize e.w) e.olds (.copy e.q e.id) = .ok (s1, bs) →
    (cqKind e.w ≠ 5 → element (landBytes s1 e a bs))
    ∧ (cqKind e.w = 5 → bs.length = cqSize e.w → s1.unitStore e.q table (cqTarget e.w i) who bs = .ok s2 →
      element s2))
  ∧ (one → cqOut e.w = true → s.emptyLine e.blk a (cqSize e.w) = none → s.poisoned e.blk a (cqSize e.w) = false →
    s.unitStore e.q table (cqTarget e.w i) who (s.spmRead e.blk a (cqSize e.w)) = .ok s1 → element s1)
  ∧ (s.copy? k = none → s.lands.find? (fun y => y.id = k && y.source ≠ 9) = some x → landFirst s x = true →
    s.unitAt (x.e / 4) x.rcb x.pa x.mt x.size = (s1, .ok bs) →
    let u := (s1.stale x.olds x.pa bs).1.spmWrite x.blk x.spm (s1.stale x.olds x.pa bs).2
    exec (.elementLanding k i) s = .next
      { u.landLine x.blk (x.spm / 128) false with lands := u.lands.filter fun y => y.id ≠ x.id })
  ∧ (s.headEntry q = some e → e.begun = true → copyItems e.w ≤ e.done.length → s.unitStoring q = false →
    (s1 = s ∧ e.fails = [] ∨ s.complete (copyId e) e.who e.fails = .ok s1) →
    exec (.entryCompletion q) s = .next ({ landed s1 with
        copies := (landed s1).copies.filter fun y => y.id ≠ e.id }.modThread
      e.g e.t fun h => { h with out := h.out.modify (q % 4) (· - 1) }))
  ∧ ((∀ l ∈ s.queues, has l = true → l.2.head? = some (.marker m)) →
    exec (.joinMarker m) s = .next
      { s with queues := s.queues.map fun l => if has l then (l.1, l.2.drop 1) else l })

/-- R230, R231, R382 to R385: an LDT that reaches its slice takes a free entry (which one is a free value,
log entry 103) with the next generation and reads the payload, or answers that none is free; the ticket reaches its thread; a redemption of a held entry claims
it, and sends the payload once it has been read, and any other is answered with its cause; the payload is written, and the entry ends; the age sweep frees and
reports what has aged. Entries whose report finds no room are freed all the same (the model's reading, log entry 138). -/
def Obligations.TicketMessages : Prop := ∀ (s s1 : State) (n slice k g t id val rcb c : Nat) (m : Msg) (r : LdtReq)
    (slot : Nat) (q : LoadReq),
  let line := lineOf r.pa
  let free := s1.freeSlots (64 * m.dst + sliceOf r.pa)
  let gen := if (s1.ticket slot).gen = 16383 then 1 else (s1.ticket slot).gen + 1
  let at_ := ticketSlot k
  let e := s1.ticket at_
  let kind := (s1.group r.g).kind
  let back := s1.routeFail (s1.homeDie kind.die r.pa) kind.die = none
  let chan := chanDown kind.cluster (s1.homeSlice kind.die r.pa)
  let ldt := Arrives s n m (.ldt r) s1 ∧ s.txOf line = none
    ∧ s1.homeSlice m.src r.pa = 64 * m.dst + sliceOf r.pa ∧ back ∧ m.chan % 4 ≠ 2
  let counted := s1.countAccess r.pa m.src r.rcb
  let redeem := Arrives s n m (.redeem g t id k rcb none false) s1
  let kindOf := (s.group g).kind
  let answer := fun (u : State) fail => u.post (chanDown kindOf.cluster (ticketSlice k)) m.dst m.src
    (.payload g t id k [] none fail)
  let claimed := s1.modTicket at_ fun e => { e with tstate := .claimed }
  let payload := Arrives s n m (.payload g t id k [] none none) s1
    ∧ s1.loads.find? (fun q => q.id = id) = some q
  let aged := (agedOf s slice).filter fun k => k.2.rcb = rcb
  (ldt → m.dst < 4 → (s1.ticket slot).gen < 16384 → free ≠ [] → slot = free.getD (Config.freePick s1.free % free.length) 0 →
    (∀ wa ∈ wordsIn r.pa r.size, lget wa s1.owners = none) →
    ∃ s2, exec (.ldtArrival n) s = .next s2
      ∧ s2.ticket slot = { gen := gen, rcb := r.rcb, tstate := .held, end_ := (s1.ticket slot).end_, born := s.cycle
                           limit := (s1.die m.dst).tkage, payload := s1.homeBytes r.pa r.size
                           bad := s1.markedIn r.pa r.size, ready := true
                           link := s1.accessFail (slot / 65536) r.pa }
      ∧ s2.flight = s1.flight ++ [{ chan := chan, src := s1.homeDie kind.die r.pa, dst := kind.die
                                    body := .ticket r.g r.t r.id (ticketOf slot gen) none }])
  ∧ (ldt → free = [] →
    exec (.ldtArrival n) s = .next (counted.post chan (s1.homeDie kind.die r.pa) kind.die
      (.ticket r.g r.t r.id 0 (some { cause := 0x24, addr := r.va }))))
  ∧ (Arrives s n m (.ticket g t id val none) s1 → s1.loads.find? (fun q => q.id = id) = some q → q.ret = false →
    exec (.ticketReturn n) s = .next (({ s1 with loads := s1.loads.filter fun x => x.id ≠ q.id }.clearPend
      q.g q.t q.dst).landDst q.g q.t q.skip q.dst (State.loadWords 4 q.sext (toBytes 4 val))))
  ∧ (redeem → ticketVerdict s1 k rcb = none → s1.routeFail m.dst m.src = none →
    (claimed.ticket at_).ready = true → (claimed.ticket at_).link = none → s1.routeFail (at_ / 65536) (kindOf.cluster / 16) = none →
    exec (.redemption n) s = .next (claimed.post (chanDown kindOf.cluster (at_ / 1024)) (at_ / 65536)
      (kindOf.cluster / 16) (.payload g t id (ticketOf at_ (claimed.ticket at_).gen) [] none none)))
  ∧ (redeem → ticketVerdict s1 k rcb = none → s1.routeFail m.dst m.src = none →
    (claimed.ticket at_).ready = false →
    exec (.redemption n) s = .next (claimed.modTicket at_ fun e =>
      { e with claim := some { g := g, t := t, id := id, spm := none, cluster := kindOf.cluster } }))
  ∧ (redeem → ticketVerdict s1 k rcb = some c →
    exec (.redemption n) s = .next (answer s1 (some { cause := c, aux := k })))
  ∧ (Arrives s n m (.redeem g t id k rcb none true) s1 → ticketVerdict s1 k rcb = none →
    exec (.redemption n) s = .next (s1.freeTicket at_ .dropped))
  ∧ (payload → e.bad = false → e.payload.length / 4 ≤ q.dst.length →
    exec (.payloadDelivery n) s = .next
      (({ s1.freeTicket at_ .delivered with loads := s1.loads.filter fun x => x.id ≠ q.id }.clearPend
        q.g q.t q.dst).landDst q.g q.t q.skip (q.dst.take (e.payload.length / 4))
          (wordsOf (e.payload.length / 4) e.payload)))
  ∧ (payload → e.bad = true → exec (.payloadDelivery n) s = .next
      ((s1.freeTicket at_ .delivered).failReply q
        { cause := 0x51, aux := unitDie (ticketDie k) (ticketSlice k % 64) }))
  ∧ (agedOf s slice = [] ∨ s.cycle % 1024 ≠ 0 → exec (.ageSweep slice) s = .next s)
  ∧ (s.cycle % 1024 = 0 → (∀ x ∈ agedOf s slice, x.2.rcb = rcb) → aged ≠ [] →
    exec (.ageSweep slice) s = .next ((agedRecords slice rcb (aged.map fun x => ticketOf x.1 x.2.gen)).foldl
      (fun u x => u.leaveRecord (slice / 64) rcb x.1 x.2) (aged.foldl (fun u x => u.freeTicket x.1 .aged) s)))

/-! ## Mailboxes, proofers and contexts -/

/-- R53, R55, R57, R238, R241 to R243, R375: a message fills a free slot of its mailbox, or is bounced where nobody
has the address; a Stitcher request joins those of its PC and region (the model's reading, log entry 47), and 32 of them or STWAIT form a group; a proofer
instance starts when the one before it has ended and those armed before it for its line have started, and ends at its 1,025th instruction; a thread that waits to migrate
moves when a context is idle. -/
def Obligations.MailboxAgents : Prop := ∀ (s s1 : State) (n g t id pc live livek ctx c target : Nat) (m : Msg)
    (x : Message) (args : List Word) (nr rcb : Nat) (q : StitchReq) (d : Due) (rest : List Nat),
  let request : StitchReq :=
    { cluster := c, target := target, args := args, nr := nr, g := g, rcb := rcb, at_ := s.cycle }
  let joined : State := { s1 with stitches := s1.stitches ++ [request] }
  let u := d.arming.unit
  let h : Thread :=
    { pc := d.arming.entry, x := instanceRegs d, p := List.replicate 8 0, c := List.replicate 7 false
      ident := d.arming.ident, ent := [(if u < 512 then 8 + u % 2 else 12 + (u - 512) % 4, d.arming.ent)] }
  let G : Group :=
    { key := s.nextKey, kind := .proofer u, blk := d.arming.blk, rcb := d.arming.rcb, lr := d.arming.lr
      fs := d.arming.slots.1, fssc := d.arming.slots.2, entry := d.arming.entry, alloc := 64, gstate := .active, since := s.cycle, threads := [h], item := d.item }
  (Arrives s n m (.message x) s1 → s.groupAt x.rcb (if x.bounced then x.sender else x.target) = some g →
    (s.group g).gstate ≠ .saved → s.mailCount g < 4 →
    exec (.messageArrival n) s = .next (callSwarmProofer (s1.modGroup g fun G =>
      { G with mail := G.mail ++ [x], reserved := G.reserved && !x.result }) g x))
  ∧ (Arrives s n m (.message x) s1 → s.groupAt x.rcb (if x.bounced then x.sender else x.target) = none →
    exec (.messageArrival n) s = .next (if s.bounceRoom x = true then s1.bounceMessage m.dst x else s))
  ∧ (Arrives s n m (.stitch c target args nr g rcb) s1 → (lget g s.groups).isSome = true →
    ((joined.stitches.filter fun p => sameStitch p request).length < 32 →
      exec (.stitchRequestArrival n) s = .next joined)
    ∧ (32 ≤ (joined.stitches.filter fun p => sameStitch p request).length →
      exec (.stitchRequestArrival n) s = .next (formGroup joined request)))
  ∧ (s.stitches.find? (fun q => q.cluster = c && q.target = target && stwaitOf s q.rcb ≤ s.cycle - q.at_) = some q →
    exec (.stwaitExpiry c target) s = .next (formGroup s q))
  ∧ (s.due[n]? = some d → prooferBusy s u = false → (∀ y ∈ s.due.take n, y.arming.unit ≠ u) →
    (∀ y ∈ s.due, earlierArmed y d = false) →
    exec (.prooferInstanceStart n) s = .next
      { s with nextKey := s.nextKey + 1, groups := lput s.nextKey G s.groups, due := dropAt n s.due })
  ∧ ((s.group g).kind.isProofer = true → 1024 ≤ (s.group g).executed →
    exec (.prooferWatchdog g) s = .next (s.failInstance g { cause := cWATCHDOG }))
  ∧ ((s.thread g t).wait = some (.migrate id) → (s.group g).stopped = false →
    s.idleCount (s.group g).kind.cluster ≠ 0 → migrationPoint s g t id = .ok (s1, some (pc, live, livek)) →
    liveBad (s.group g) (s.thread g t) live livek = none → s1.idleContexts (s.group g).kind.cluster = ctx :: rest →
    exec (.migrationMove g t) s = .next (migrateOut s1 g t ((s.thread g t).pc + 4) live livek ctx))

/-! ## The matrix unit and its sequencer -/

/-- R75, R267, R269, R270, R272, R273, R275: the matrix unit's next quarter operation is performed; its turn passes on
with the sixteenth one or when the queue of the partition empties, and the sequencer takes the turn of a partition
whose queue is empty; a sequencer item zeroes or multiplies its tile and the last one completes its command; the loader's head
entry fills the weight buffer; a store to a sequencer port queues its command with the bounds of now, and counts in
DISC where its handle is invalid. An item counts as one operation of a turn, a port's command is its handle's block's, and
granules take their identity as bytes land (the model's readings, log entries 52, 26 and 103). -/
def Obligations.MatrixAgents : Prop := ∀ (s s1 : State) (e n : Nat) (q : QuarterOp) (ops : List QuarterOp)
    (c : SeqCmd) (cs : List SeqCmd) (l : WbEntry) (ls : List WbEntry) (x : DevStore) (b op : Nat) (i : Instr),
  let E := s.engine e
  let pass := fun (E : Engine) => { E with turn := (E.turn + 1) % 4, used := 0, seqTurn := false }
  let taken := fun (E : Engine) (fails : List (Nat × TrapInfo)) => { E with
    queue := { c with item := c.item + 1, fails := c.fails ++ fails } :: E.queue.drop 1, used := E.used + 1
    seqTurn := true }
  let port := portEngine x.unit
  let w := wordsOf 8 x.bytes
  let H := w.getD 1 0
  let owner : Owner := { rcb := (s1.block b).rcb, lr := (s1.launch (s1.block b).launch).lr, bid := (s1.block b).bid }
  let P := s1.engine port
  let number := (P.seq + 1) % 2 ^ 32
  let command : SeqCmd :=
    { number := number, w := w, bounds := (upTo 3).map (seqBound P.li w), blk := b, entry := some (hEntry H)
      who := owner, serial := s1.serial }
  let ty := slotTy l.slot.fs
  let units := upTo (l.n / unitElems ty)
  let arrives := (i, op) ∈ [(.seqCmdMma n, 0), (.seqCmdAmzero n, 1), (.seqCmdAmdrain n, 2), (.seqCmdAmdrainAdd n, 3)]
    ∧ s.devStore n = some (x, s1) ∧ x.isCmd = true ∧ seqOp w = op
  (inTurn E = [] ∨ 16 ≤ E.used ∨ E.seqTurn = true → exec (.matrixTurn e) s = .next (s.modEngine e pass))
  ∧ (inTurn E = q :: ops → E.used < 16 → E.seqTurn = false → exec (.quarterOperation e) s = .next
    ((performQuarter s e q).modEngine e fun E =>
      let E := { E with dispatch := E.dispatch.erase q, used := E.used + 1 }
      if 16 ≤ E.used ∨ inTurn E = [] then pass E else E))
  ∧ (E.queue = c :: cs → c.item < seqItems c → E.seqTurn = true ∨ inTurn E = [] ∧ E.used = 0 →
    s.poolFull (e / 64) = false →
    (seqItem s e c c.item = .ok s1 → c.item + 1 ≠ seqItems c → exec (.sequencerItem e) s = .next
      (s1.modEngine e fun E => if 16 ≤ E.used + 1 then pass (taken E []) else taken E []))
    ∧ (seqItem s e c c.item = .ok s1 → c.item + 1 = seqItems c → c.fails = [] →
      let u := s1.modEngine e fun E => pass (taken E [])
      seqPending u e c = false → exec (.sequencerItem e) s = .next
        (u.modEngine e fun E => { E with queue := E.queue.drop 1, done := c.number }))
    ∧ (∀ ti, seqItem s e c c.item = .fail ti → c.item + 1 ≠ seqItems c → exec (.sequencerItem e) s = .next
      (s.modEngine e fun E => if 16 ≤ E.used + 1 then pass (taken E [(c.item, ti)]) else taken E [(c.item, ti)])))
  ∧ (E.queue = c :: cs → seqItems c ≤ c.item → c.fails = [] → seqPending s e c = false → exec (.sequencerItem e) s = .next
    (s.modEngine e fun E => { E with queue := E.queue.drop 1, done := c.number }))
  ∧ (E.loader = l :: ls → s.emptyLine l.blk l.spm (if l.raw then ty.bytes l.n else 4 * l.n) = none →
    (∀ q ∈ E.dispatch, q.wb.isSome = true → l.serial ≤ q.serial) →
    (∀ c ∈ E.queue, seqOp c.w = 0 → l.serial ≤ c.serial) →
    (∀ u ∈ units, s.poisoned l.blk (unitSource l u).1 (unitSource l u).2 = false) →
    exec (.wbLoaderEntry e) s = .next
      ((units.foldl (loadUnit e l) s).modEngine e fun E => { E with loader := ls }))
  ∧ (arrives → s1.handleOwner port H = some b → seqFieldsOk w = true → (s1.block b).bstate ≠ .saved →
    P.queue.length < 64 →
    exec i s = .next { s1.modEngine port fun E => { E with seq := number, queue := P.queue ++ [command] } with
      serial := s1.serial + 1 })
  ∧ (arrives → s1.handleOwner port H = none →
    exec i s = .next (s1.modEngine port fun E => { E with disc := (E.disc + 1) % 2 ^ 32 }))

/-! ## Texture, hash grid and raster -/

/-- R281, R284 to R296, R307, R401 to R404, R407: a texture request is performed and its results written, or failed
with NaN results after its record; a contribution is added at its slice; a bin's record is read, its primitives are
set up one after another, its quads start pixel groups, and its pixel outputs are merged in order; a thread too long
in its section ends (the words that its record leaves empty are log entry 56's); a store to DRAW queues its launch. -/
def Obligations.GraphicsAgents : Prop := ∀ (s s1 s2 : State) (k n g t : Nat) (q : MicroReq) (ws : List Word)
    (ti : TrapInfo) (m : Msg) (c : Contribution) (blk : Nat) (B : Block) (b b' : Bin) (rec : List Byte) (e : Nat × Group)
    (o : PixelOut) (passed : Bool) (x : DevStore),
  let bin := liveBin s blk = some (B, b) ∧ s.poolFull (B.cluster / 16) = false
  let p := b.nextPrim
  let f : ReplyFail :=
    { info := { cause := cWATCHDOG, aux := 0x100000 }, pc := (s.thread g t).pc.toNat, words := []
      status := (s.thread g t).status }
  (headRequest s k = some q → s.poolFull (q.e / 64) = false → performRequest s q = .done s1 ws →
    exec (.microcodeRequest k) s = .next (endRequest s1 q ws))
  ∧ (headRequest s k = some q → s.poolFull (q.e / 64) = false → performRequest s q = .fail s1 ti → q.fn ≠ 7 →
    s1.complete (requestId q) q.who [(0, ti)] = .ok s2 →
    exec (.microcodeRequest k) s = .next (endRequest s2 q (List.replicate q.dst.length 0x7FC00000#32)))
  ∧ (headRequest s k = some q → performRequest s q = .spent s1 →
    exec (.microcodeWatchdog k) s = .next (failRequest s1 q { cause := cWATCHDOG }))
  ∧ (Arrives s n m (.hgs c) s1 → s.moving (lineOf c.pa) = false → s.homeDie m.src c.pa = m.dst → c.det = false →
    s1.markedIn c.pa 4 = false →
    (∀ x ∈ s1.micro, x.id = c.req → x.fails = []) → ∃ s2, exec (.hgsContribution n) s = .next s2
      ∧ ofBytes ((upTo 4).map fun i => readByte s2.mem (c.pa + i))
        = (applyGrad (BitVec.ofNat 32 (s1.homeNat c.pa 4)) c).toNat)
  ∧ (bin → b.started = false → readBin s B = .ok (s1, b') → at0 b'.binds 0 = 0 →
    exec (.binStart blk) s = .next (modBin s1 blk fun _ => b'))
  ∧ (bin → b.started = true → p < b.nprim → at0 b.binds 0 = 0 →
    spanRead B.cluster (s.tableOf B.rcb) B.rcb 64 s ((numAt b.table 0 8 + p * b.primBytes) % 2 ^ 64) b.primBytes
      = .ok (s1, rec) →
    exec (.primitive blk) s = .next (modBin s1 blk fun b => emitPrim b p rec))
  ∧ (bin → b.quads ≠ [] → s.groups.find? (fun e => e.2.blk = blk && e.2.gstate = .retired) = some e →
    exec (.pixelGroupStart blk) s = .next (startPixels s (s.launch B.launch) B e.1 (b.quads.take 8)))
  ∧ (bin → b.outs.find? (fun o => !pixelHeld s blk b o) = some o → at0 b.binds 1 = 0 →
    mergePixel s B b o = .ok s1 passed →
    exec (.pixelWrite blk) s = .next (modBin (if passed then modBin s1 blk fun b => b.count 3 1 else s1) blk
      fun b => { b with outs := b.outs.erase o }))
  ∧ (sectionSpent s g t = true →
    s.report (s.group g).kind.die (s.group g).rcb (s.trapHead g t f false) (State.trapTail f) = .ok s1 →
    exec (.sectionWatchdog g t) s = .next (s1.endThread g t))
  ∧ (s.devStore n = some (x, s1) → x.isDraw = true → (s.die (x.unit / 16384)).draw.length < 16 →
    exec (.draw n) s = .next (s1.modDie (x.unit / 16384) fun D =>
      { D with draw := D.draw ++ [(ofBytes x.bytes, x.who.rcb)] }))

/-! ## Commands and device registers -/

/-- R275, R278, R284, R311, R312, R315, R319, R321, R402, R411, R413: the command at the head of a supervisor page's queue
is performed and counted in STAT, or refused with its cause in ERR and counted too (the model's reading, log entry 76);
addresses are those of the die's partition; RETIRE, PREEMPT and SHOOT begin and end later; a
store to a device register joins a queue, sets a loop register or the address of reports, gives a frame, starts a
report, or is discarded and counted; a report that is
written is counted. -/
def Obligations.CommandAgents : Prop := ∀ (s s1 s2 : State) (d n cause : Nat) (c : Command) (rest : List Command)
    (bs body sig : List Byte) (L : Launch) (zero : Bool) (x : DevStore) (nonce : List Byte) (dest : Nat),
  let o := cmdOperands c.w
  let head := fun (op : Nat) => (s.die d).cmds = c :: rest ∧ s.running d = true ∧ cmdFieldsOk c.w = true
    ∧ cmdOp c.w = op
  let ended : State → Nat → Host.Outcome State Fault Refusal := fun u err =>
    .next (u.modDie d fun D => { D with cmds := D.cmds.drop 1, stat := (D.stat + 1) % 2 ^ 32, err := err })
  let begun : State → Host.Outcome State Fault Refusal := fun u =>
    .next (u.modDie d fun D => { D with cmds := D.cmds.modify 0 fun c => { c with begun := true } })
  let a := s.ownAddr d o.addr
  let root := s.ownAddr d o.addr2
  let r := { regionOf bs a with parent := s.ownAddr d (regionOf bs a).parent }
  let e := x.unit / 16384
  let store := s.devStore n = some (x, s1)
  (head 1 → o.addr % 256 = 0 → s.physBytes d o.addr 256 = .ok bs →
    (∀ k, registerBad s d bs r o.addr2 = some k → exec (.register d) s = ended s k)
    ∧ (registerBad s d bs r o.addr2 = none → (s.region a).hold = false → exec (.register d) s = ended
      (({ s with regions := lput a (cacheRegion s d r root) s.regions }.frontRcb d a).writeBack a) 0))
  ∧ (head 1 → o.addr % 256 ≠ 0 → exec (.register d) s = ended s 0x06)
  ∧ (head 2 → c.begun = false → o.addr % 256 = 0 → s.named d a = true →
    exec (.retire d) s = begun (beginRetire s a))
  ∧ (head 2 → c.begun = true → (s.region a).state = 3 → exec (.retire d) s = ended s 0)
  ∧ (head 3 → c.begun = false → o.addr % 256 = 0 → s.named d a = true →
    exec (.preempt d) s = begun (preemptAll s { die := d, bound := o.arg, reqlr := 0, cmd := some d }
      (((preemptable s a).filter fun B => B.bstate = .resident).map Block.key)))
  ∧ (head 3 → c.begun = true → (∀ B ∈ preemptable s a, B.bstate = .resident ∨ B.pre = none) →
    exec (.preempt d) s = ended s (if c.missed then cPREEMPT else 0))
  ∧ (head 4 → c.begun = false → s.named d root = true → (s.region root).parent = 0 →
    exec (.shoot d) s = begun { s with nextKey := s.nextKey + 1, shoots := s.shoots ++
      [{ id := s.nextKey, table := (s.region root).table, va := o.addr, pages := o.arg, die := d
         dies := s.partitionDies d }] })
  ∧ (head 4 → c.begun = true → (∀ y ∈ s.shoots, y.die ≠ d) → exec (.shoot d) s = ended s 0)
  ∧ (head 5 → o.addr % 64 = 0 → s.physBytes d o.addr 64 = .ok bs → imageHeaderOk bs = true →
    s.physBytes d (o.addr + 64) (8 * numAt bs 0x08 2) = .ok body →
    s.physBytes d (o.addr + 64 + 8 * numAt bs 0x08 2) 3309 = .ok sig →
    (loadImage s (bits o.arg 2 0) bs body sig = some s1 → exec (.image d) s = ended s1 0)
    ∧ (loadImage s (bits o.arg 2 0) bs body sig = none → exec (.image d) s = ended s cIMAGE))
  ∧ (head 6 → exec (.peer d) s = ended { s with
    peers := lput (16 * s.firstDie d + bits o.arg 3 0) (bits o.arg 5 4) s.peers } 0)
  ∧ (head 7 → o.addr % 128 = 0 → (s.parkedOn d).length < 1024 → arriveLaunch s d o.addr none false = .ok s1 L zero →
    enterLaunch s1 L zero = .ok s2 → exec (.launchCommand d) s = ended s2 0)
  ∧ (head 7 → o.addr % 128 = 0 → (s.parkedOn d).length < 1024 →
    ∀ q f, arriveLaunch s d o.addr none false = .refuse q cause f → refuseLaunch s d o.addr q cause f = .ok s2 →
    exec (.launchCommand d) s = ended s2 cause)
  ∧ (store → freesFrame s x = true →
    exec (.freeq n) s = .next (s1.modDie e fun D => { D with frees := D.frees ++ [ofBytes x.bytes] }))
  ∧ (store → x.isNonce = true → (s.die e).reporting = none →
    exec (.nonce n) s = .next (s1.modDie e fun D =>
      { D with nonce := x.bytes, reporting := some (x.bytes, D.dest) }))
  ∧ (store → x.isCommand = true → (s.die e).cmds.length < 16 →
    exec (.deviceRegisterWrite n) s = .next (s1.modDie e fun D =>
      { D with cmds := D.cmds ++ [{ w := wordsOf 8 x.bytes }] }))
  ∧ (store → x.isPort = true → x.off < 0x20 → x.off % 4 = 0 → x.bytes.length = 4 →
    exec (.deviceRegisterWrite n) s = .next (s1.modEngine (portEngine x.unit) fun E =>
      { E with li := E.li.set (x.off / 4) (BitVec.ofNat 32 (ofBytes x.bytes)) }))
  ∧ (store → x.isPort = false → x.unit % 256 = 67 → x.isNonce = false →
    exec (.deviceRegisterWrite n) s = .next (storeDest s1 x))
  ∧ (store → x.isPort = false → x.unit % 256 = 64 → x.page = 1 → x.isDraw = false →
    exec (.deviceRegisterWrite n) s = .next (s1.modDie e fun D =>
      { D with drawDisc := (D.drawDisc + 1) % 2 ^ 32 }))
  ∧ ((s.die d).reporting = some (nonce, dest) → s.running d = true → dest % 64 = 0 →
    let s0 := s.modDie d fun D => { D with reporting := none }
    let report := reportBytes s d nonce
    reportFail s0 d dest report.length = none →
    exec (.attestationReportWritten d) s = .next ((s0.homeWrite (s0.ownAddr d dest) report).modDie d fun D =>
      { D with reports := (D.reports + 1) % 2 ^ 32 }))

/-! ## The region scheduler -/

/-- R46, R48 to R50, R53, R62 to R71, R76, R81 to R85, R361, R365, R371, R386, R422: a scheduler takes the launch at the
head of an inbox, reads its parked launches again, and places the next block in its order, on engines, on a context
or back from its record, once its RCB can be read (else its domain is aborted: log entry 118), or refuses a launch that can
never run (log entry 129); a block whose threads and items are done releases and then completes; a late drain becomes
a save; a save writes its records and a flush makes its block Queued again; a spent limit holds its subtree; a region
that has nothing left is retired; the first formed group of Stitcher requests that can starts on an engine. The hold
(log entry 74), the order in which a block completes (59) and the stitched group's launch (47) are the model's readings. -/
def Obligations.SchedulerAgents : Prop := ∀ (s s1 s2 : State) (i lr who d blk bid ctx b t c : Nat) (L : Launch)
    (zero : Bool) (es : List Nat) (e : Option Nat) (p : Preemption) (l : List Nat) (q : StitchReq)
    (qs : List StitchReq) (ahead more : List (List StitchReq)) (s0 : State) (f : Nat × Nat),
  let B := s.block blk
  let done := (lget blk s.blocks).isSome = true ∧ (B.bstate = .resident ∨ B.bstate = .draining)
    ∧ threadsDone s B = true ∧ blockBusy s B = false
  let checks := B.pre = some p ∧ p.bound = some b ∧ B.bstate = .draining ∧ p.checked = false
    ∧ (s.cycle - p.at_) % 64 = 0 ∧ b ≤ s.cycle - p.at_ + 64 + s.tSave B
  let r := s.region t
  let held := s.tickets.filter fun k => k.2.rcb = t && k.2.tstate = .held
  let share := stitchShare s q.rcb
  (inboxHead s i = some (lr, who) → (s.parkedOn (State.inboxDie i)).length < 1024 →
    arriveLaunch s (State.inboxDie i) lr (if who = 0 then none else some who) (5000 ≤ i) = .ok s1 L zero →
    enterLaunch s1 L zero = .ok s2 →
    exec (.launchArrival i) s = .next (countDraw (inboxPop s2 i) i true))
  ∧ (s.cycle % 4096 = 0 → exec (.periodicReading d) s = .next ((s.parkedOn d).foldl rereadLaunch s))
  ∧ ((s.die d).reread = true → exec (.decrementReading d) s =
    .next (rereadDie (s.modDie d fun D => { D with reread := false }) d))
  ∧ (neverRuns s d = some L → refuseLate s L = .ok s1 → exec (.blockPlacement d) s = .next s1)
  ∧ (neverRuns s d = none → s.dispatch d = some (.place L (.fresh bid) es) → s.touchRcb d L.rcb = .ok s0 →
    exec (.blockPlacement d) s = .next (afterPlacing (placeOn s0 L bid es) L (.fresh bid)))
  ∧ (neverRuns s d = none → s.dispatch d = some (.place L (.fresh bid) es) → s.touchRcb d L.rcb = .error f →
    exec (.blockPlacement d) s = .next (s.abort d L.rcb f.1 (State.schedHead d 5 f.1) 7))
  ∧ (neverRuns s d = none → s.dispatch d = some (.place L (.again b) es) → s.touchRcb d L.rcb = .ok s0 →
    exec (.blockPlacement d) s = .next (afterPlacing (replaceOn s0 L b es) L (.again b)))
  ∧ (s.dispatch d = some (.context L (.fresh bid) ctx) → s.touchRcb d L.rcb = .ok s0 →
    exec (.swarmBlockPlacement d) s = .next (afterPlacing (placeContext s0 L bid ctx) L (.fresh bid)))
  ∧ (s.dispatch d = some (.place L (.saved b) es) → s.touchRcb d L.rcb = .ok s0 → s0.block b = s.block b →
    readBack s0 d (s.block b) = .ok s1 →
    let back := restate ((placeSaved s1 (s1.block (s.block b).key) es).freeArea d
      ((placeSaved s1 (s1.block (s.block b).key) es).supplier (s.block b).rcb 9)) (s.block b).launch
    (lget b back.blocks).isSome = true → exec (.restore d) s = .next (afterPlacing back L (.saved b)))
  ∧ (done → B.fence = none → exec (.blockCompletion blk) s = .next ((s.closeEpoch B.cluster).2.modBlock blk fun C =>
      { C with fence := some (s.closeEpoch B.cluster).1 }))
  ∧ (done → B.fence = some e → (∀ n, e = some n → n ∉ (s.l1 B.cluster).drains) → completeBlock s B = .ok s1 →
    exec (.blockCompletion blk) s = .next s1)
  ∧ (checks → s.canSave p.die B = true → exec (.preemptionCheck blk) s = .next
    (s.beginMethod blk { p with method := .save, report := 3, checked := true }))
  ∧ (checks → s.canSave p.die B = false → s.canReplay B = true → exec (.preemptionCheck blk) s = .next
    (s.beginMethod blk { p with method := .flush, report := 4, checked := true }))
  ∧ (B.bstate = .saving → B.pre = some p → s.settledBlock B = true →
    (∀ C ∈ s.blocks, C.2.bstate ≠ .saving ∨ C.1 = blk ∧ C.2 = B) →
    writeSave (captureBlock s B) p.die ((captureBlock s B).block blk) = .ok (s1, l) →
    let u := s1.modBlock blk fun C => { C with records := l }
    endMethod u (u.block blk) = .ok s2 → exec (.saveComplete blk) s = .next (restate s2 B.launch))
  ∧ (B.bstate = .flushing → s.settledBlock B = true → (s.region B.rcb).abort = none →
    (s.launch B.launch).lstate ≠ .refused → endMethod s B = .ok s1 →
    exec (.flushComplete blk) s = .next (requeue s1 (s1.block blk)))
  ∧ ((lget t s.regions).isSome = true → r.abort = none → r.state ≠ 3 → r.hold = false → s.spent t = true →
    exec (.budgetHold t) s = .next ((holdSubtree s t).leaveRecord (r.reached.getD r.die) t
      { State.schedHead (r.reached.getD r.die) 6 cBUDGET with addr := State.physOf t } (plainTail 1 t)))
  ∧ (r.retiring = true → r.state ≠ 3 → s.idleRegion t = true → (∀ k ∈ held, k.2.ready = true) →
    exec (.retireSweep t) s = .next (((held.foldl (fun u k => u.freeTicket k.1 .reclaimed) s).modRegion t fun r =>
      { r with tkreclaim := (r.tkreclaim + held.length) % 2 ^ 32, state := 3, engines := [], contexts := []
               retiring := false, hold := false }).writeBack t))
  ∧ ((∀ l ∈ s.formed, l ≠ [] ∧ ∀ y ∈ l, (lget y.g s.groups).isSome = true) →
    (s.formed.filter fun l => l.any fun q => q.cluster = c) = ahead ++ (q :: qs) :: more →
    (∀ l ∈ ahead, tryStitched c s l = none) → s.contextFits (c / 16) q.rcb = true → s.unheld q.rcb = true →
    s.overQuota q.rcb (32 * share.alloc) share.lines 0 false = none →
    s.enginesFor (s.launchOfGroup (s.group q.g)).key q.rcb false [share] c = some (ctx :: es) →
    exec (.stitchedGroupStart c) s = .next
      (startStitched { s with formed := s.formed.erase (q :: qs) } (q :: qs) q ctx))

/-! ## Partitions, cores and traps -/

/-- R32, R61, R72, R345, R351, R378: a group active too long while others are ready goes to the tail of its queue, and
a waiting one whose threads can issue joins it; a core passes to the next ready context in its ring; a thread traps
for its first failed reply; waiting records are written once a trap area has room, and 65,536 clocks without room
abort the domain, or end the waits of one that is aborted already. -/
def Obligations.PartitionAgents : Prop := ∀ (s : State) (g t k rcb core x : Nat) (f : ReplyFail)
    (fs : List ReplyFail) (w : AreaWait),
  let T := s.thread g t
  let C := s.core core
  let r := s.trapWith g t f.info (BitVec.ofNat 64 f.pc) f.words T.pc
  let free := s.halted g = false
  let late := (s.region rcb).full.find? fun w => w.since + 65536 ≤ s.cycle
  (s.partOf g = some k → (s.group g).gstate = .active → 2048 ≤ s.cycle - (s.group g).since → (s.part k).ready ≠ [] →
    exec (.activeTimeout g) s = .next (((s.modPart k fun q =>
      { q.without (fun h => h = g) with ready := (q.without fun h => h = g).ready ++ [g] }).modGroup g
        fun G => { G with gstate := .waiting }).fillActive k))
  ∧ (s.partOf g = some k → (s.group g).gstate = .waiting → free → (s.pick g).isSome = true →
    (s.part k).ready.contains g = false → (s.part k).active.contains (some g) = false →
    exec (.groupReady g) s = .next ((s.modPart k fun q => { q with ready := q.ready ++ [g] }).fillActive k))
  ∧ (C.yielded = true ∨ (64 ≤ C.run ∧ s.ringNext core ≠ some C.ctx) ∨ s.contextReady core C.ctx = false →
    s.ringNext core = some x →
    exec (.contextSwitch core) s = .next (s.modCore core fun k => { k with ctx := x, run := 0, yielded := false }))
  ∧ (free → T.held = none → T.failed = f :: fs → (T.slot = .live ∨ T.slot = .trapped) → T.wait ≠ some .stitched →
    T.wait ≠ some .reply →
    exec (.replyTrap g t) s = .next (r.1.doomAll r.2))
  ∧ (free → T.held = some f → f.nested = false →
    exec (.replyTrap g t) s = .next ((s.recordTrap g t f).1.doomAll (s.recordTrap g t f).2))
  ∧ (free → T.held = some f → f.nested = true →
    exec (.replyTrap g t) s = .next ((s.nestedTrap g t f).1.doomAll (s.nestedTrap g t f).2))
  ∧ ((s.region rcb).full ≠ [] → s.areaRoom rcb = true → (∀ x ∈ s.untold, x.rcb ≠ rcb) →
    exec (.trapAreaTimeout rcb) s = .next (s.modRegion rcb fun r =>
      { r with full := r.full.map fun w => { w with since := s.cycle } }))
  ∧ (late = some w → s.areaRoom rcb = false → (s.region rcb).abort = none →
    exec (.trapAreaTimeout rcb) s
      = .next (s.abort (w.head.unit / 16384) rcb w.head.cause w.head 2 0 (s.trapArea rcb) 0))
  ∧ (late = some w → s.areaRoom rcb = false → (s.region rcb).abort ≠ none →
    exec (.trapAreaTimeout rcb) s = .next { s.modRegion rcb fun r => { r with mute := true, full := [] } with
      untold := s.untold.filter fun x => x.rcb ≠ rcb })

/-! ## Pages -/

/-- R88, R92, R95 to R98: a walk puts its leaf in the TLB or leaves its fault for the thread; a shootdown removes its
entries once no access translated with them is on its way; a quiet page is copied to its frame, and a move that takes
65,536 clocks is abandoned, its frame back in the list and the old one in none (the model's reading, log entry 84); an
epoch ends with its counts, and a page that one die uses enough starts to move there, or is skipped for want of a frame. -/
def Obligations.PageAgents : Prop := ∀ (s : State) (k d : Nat) (w : Walk) (x : Shoot) (m : Move) (h : TlbEntry)
    (lvl pa p e' frame : Nat) (rest : List Nat),
  let u := { s with walks := s.walks.filter fun y => y.id ≠ k }
  let e := State.tlbDie w.unit
  let walk := s.walks.find? (fun y => y.id = k) = some w ∧ u.walkFail e w.va walkLevels w.table = none
  let move := s.moves.find? (fun y => y.id = k) = some m
  let page := fun (a : Nat) => a / 65536 = m.page
  let free := fun (y : Tx) => { y with req := dropMove k y.req, queue := y.queue.map (dropMove k) }
  (walk → u.walkGo e w.unit w.table w.va walkLevels w.table = .ok h →
    u.permit e h w.va w.acc w.user false = .ok pa → exec (.pageWalk k) s = .next ((u.tlbAdd h).touch h w.acc))
  ∧ (walk → u.walkGo e w.unit w.table w.va walkLevels w.table = .error lvl →
    exec (.pageWalk k) s = .next { u with walkFaults := u.walkFaults ++
      [{ g := w.g, t := w.t, va := w.va, acc := w.acc, info := State.notPresent w.va lvl w.acc w.user }] })
  ∧ (s.shoots.find? (fun y => y.id = k) = some x → shootBusy s x = false →
    exec (.shootdownComplete k) s = .next { s with
      tlb := s.tlb.filter fun e => !hitByShoot x e, shoots := s.shoots.filter fun y => y.id ≠ k })
  ∧ (d < 4 → s.cycle % 2 ^ 20 = 0 → (∀ c ∈ s.kcounts, pageDie c.page = d → c.cur = 0) →
    exec (.kneaderEpochEnd d) s = .next { s with kcounts := rollCounts d s.kcounts })
  ∧ (d < 4 → s.cycle % 2 ^ 20 = 0 → (∃ c ∈ s.kcounts, pageDie c.page = d ∧ c.cur ≠ 0) →
    (∀ c ∈ s.kcounts, pageDie c.page = d → c.cur ≠ 0 → c.page = p) → moveTarget s d p = some e' →
    (s.moves.filter fun y => pageDie y.page = d).length < 4 →
    ((s.die e').frees = [] → exec (.kneaderEpochEnd d) s =
      .next { s.modDie e' fun D => { D with kskip := (D.kskip + 1) % 2 ^ 32 } with kcounts := rollCounts d s.kcounts })
    ∧ ((s.die e').frees = frame :: rest → ∃ s2, exec (.kneaderEpochEnd d) s = .next s2
      ∧ (s2.die e').frees = rest ∧ s2.kcounts = rollCounts d s.kcounts ∧ s2.mem = s.mem
      ∧ ∃ y ∈ s2.moves, y.page = p ∧ y.frame = frame ∧ y.die = e' ∧ y.at_ = s.cycle))
  ∧ (move → m.left = [] → s.cycle ≤ m.at_ + 65536 → leavesOf s m.page = [] → (∀ y ∈ s.txs, ¬page y.line) →
    exec (.pageMoveComplete k) s = .next (({ (s.clearFrame m.frame).copyPage m.page m.frame with
      tlb := s.tlb.filter fun e => ¬page e.pa
      moves := s.moves.filter fun y => y.id ≠ k
      moved := s.moved ++ [(m.frame / 65536, s.cycle / 2 ^ 20)] } : State).followPage (moveAddr m.page m.frame)))
  ∧ (move → m.at_ + 65536 < s.cycle →
    exec (.pageMoveAbandon k) s = .next ((pageLines m.page).foldl (fun u line => u.resumeTx line)
      { s.modDie m.die fun D => { D with frees := m.frame :: D.frees } with
        moves := s.moves.filter fun y => y.id ≠ k, txs := s.txs.map free }))

/-! ## Errors and the package -/

/-- R315, R316, R318 to R323, R358 to R360, R389, R390, R410 to R412: as log entries 24 (the end that observes a link), 93
(memory at reset), 94 (divisions) and 95 (enrolled keys) have it, an uncorrectable error marks the register, line,
word or granule that it hits, where no cache holds the word newer; a corrected one of a unit that exists is counted; a
link goes down and the event is told; a measurement moves the clock by one step and stands for the board manager; reset, boot and the board manager's requests act on the package as their rules say, and a die
is released only when its partition's dies are verified. -/
def Obligations.ErrorsAndPackage : Prop := ∀ (s : State) (g t n w e gr blk line unit link watts temp d : Nat)
    (parts ports : List Nat) (nonce key : List Byte) (dest stack slice entry : Nat) (cw : Word),
  let D := s.die d
  exec (.uncorrectableError (.xReg g t n)) s =
    .next (s.modThread g t fun h => { h with badX := if h.badX.contains n then h.badX else n :: h.badX })
  ∧ exec (.uncorrectableError (.spmLine blk line)) s = .next (s.modLine blk line fun l => { l with poison := true })
  ∧ exec (.uncorrectableError (.wbGranule e gr)) s = .next (s.modEngine e fun E => { E with wbTag := ldel gr E.wbTag })
  ∧ exec (.uncorrectableError (.hbm w)) s = .next (if l2Newer s w then countError s (stackUnit s w)
    else (countError s (stackUnit s w)).poisonHome (w / 4 * 4))
  ∧ ((s.ticket (1024 * slice + entry)).tstate ≠ .free → exec (.uncorrectableError (.ticketPayload slice entry)) s =
    .next ((countError s (unitDie (slice / 64) (slice % 64))).modTicket (1024 * slice + entry) fun k =>
      { k with bad := true }))
  ∧ exec (.correctedError unit) s = .next (if unitListed unit then s.modDie (unit / 16384) fun D =>
    { D with corrected := lmod unit 0 (· + 1) D.corrected } else s)
  ∧ (link < 8 → bit s.links link = true →
    let ends := linkEnds link
    let told := systemEvent (s.breakLink link) ends.1 1 cLINK (linkUnitAt link ends.1 ends.2)
    exec (.linkDown link) s = .next (if s.together ends.1 ends.2 = true then told
      else systemEvent told ends.2 1 cLINK (linkUnitAt link ends.2 ends.1)))
  ∧ (temp ≤ 105 → nextClock s.mhz watts temp ≠ s.mhz →
    exec (.powerMeasurement watts temp) s = .next ({ s with
      watts := watts, temp := temp, mhz := nextClock s.mhz watts temp }.notify
      (.clock (nextClock s.mhz watts temp))))
  ∧ (105 < temp → ∃ s1, exec (.powerMeasurement watts temp) s = .next s1 ∧ s1.stopped = true)
  ∧ (∃ s1, exec .packageReset s = .next s1 ∧ s1.division = s.nextDivision ∧ s1.hostPorts = s.nextPorts
      ∧ s1.groups = [] ∧ s1.blocks = [] ∧ s1.regions = [] ∧ s1.flight = [] ∧ s1.links = State.reset.links
      ∧ ∀ a, a < 2 ^ 40 → readByte s1.mem a = 0)
  ∧ exec .i3cPrivateRead s = .next ((upTo 4).foldl (fun u d => u.notify (.corrected d (s.die d).corrected))
    ((s.notify (.status ((upTo 4).map fun d => (s.die d).status))).notify (.power s.watts s.temp)))
  ∧ (divisionOk parts ports = true → exec (.partitionConfiguration parts ports) s =
    .next { s with nextDivision := parts, nextPorts := ports })
  ∧ (nonce.length = 32 → (s.die 0).reporting = none → exec (.i3cAttestationRequest nonce dest) s =
    .next (s.modDie 0 fun D => { D with reporting := some (nonce, dest) }))
  ∧ ((s.die 0).status ≠ 0 → exec (.capabilityWord cw) s = .next { s with natop := cw.toNat % 64 })
  ∧ exec (.refreshManagementRequest d stack) s = .next s
  ∧ ((s.die 0).status = 1 → ∃ s1, exec (.imageKeyEnrolment key) s = .next s1 ∧ s1.keys = s.keys ++ [key]
    ∧ ∀ d, d < 4 → (s.die d).status = 1 →
      (s1.die d).m = Config.shake256 ((s.die d).m ++ Config.shake256 key 32) 64)
  ∧ (d < 4 → D.status = 0xFF → exec (.dieRelease d) s = .next (if bootStatus d = 0xFF then s
    else s.modDie d fun D => { D with status := bootStatus d, m := bootMeasure s d D.m }))
  ∧ (d < 4 → D.status = 1 → s.verified 0 = true → (∀ k ∈ s.partitionDies d, s.verified k = true) →
    let u := if ∀ k ∈ s.partitionDies d, (s.die k).status ≠ 0 then clearDies s (s.partitionDies d) else s
    exec (.dieRelease d) s = .next (u.modDie d fun D =>
      { D with status := 0, m := extendM D.m (Config.divisionDigest s.division) }))
  ∧ (d < 4 → D.status = 1 → (∃ k ∈ s.partitionDies d, s.verified k = false) → exec (.dieRelease d) s = .next s)
/-! ## Fetch, decode, reset -/

/-- R34, R36, R392: when unit u issues, the bundle that starts at thread t0 of the group that issues runs the
instruction that its words decode to, in the state in which the issue has been counted (R46) and R175's issue
record names group, threads, PC, words and NPC; a swarm context that referred off the core then gives the core
up (R32), a thread that executes instructions again after a restore goes on with the next of them (R368), the cycles
spent are held against the limits (R361) and written back to the RCB (R64), and the groups of a partition that rest
leave its active set (R72). The words are those at the PC:
each is fetched at the address that its own translation gives, from the cluster's L1, the home or an uncached
target, up to the word that completes the instruction. That the schedule names the turn is the model's own form (log entry 1). -/
def Obligations.StepRunsDecodedInstruction : Prop :=
  (∀ (s s0 s1 : State) (u : Issuer) (clocks : Nat) (later : List Turn) (g t0 t : Nat) (ts : List Nat)
      (ws l : List Word) (i : Instr),
    s.stopped = false → s.agenda = { clocks := clocks, act := .issue u } :: later →
    s0 = { s with agenda := later, cycle := s.cycle + clocks } →
    s0.issuer u = some g → s0.halted g = false → s0.pick g = some t0 → spentStep s0 g t0 = none →
    s0.bundle g t0 = t :: ts → (∀ r ∈ t :: ts, s0.hasWords g r = true) →
    s0.fetch g t = .words s1 ws (.instr i l) →
    let sc := (s1.countIssue g t0 (t :: ts) (some i)).setIssue g (t :: ts) (s0.thread g t).pc ws
    step s = afterIssue u (match exec i sc with
      | .next s2 => .next (let s3 := giveUpCore sc s2 g i
        (goOn s3 s3.iss).counted (s0.group g).kind.die (s0.group g).rcb)
      | o => o))
  ∧ (∀ (s : State) (g t : Nat) (ws : List Word) (i : Instr) (after : Nat → State),
    (s.thread g t).pc.toNat % 4 = 0 → ws.length ≤ 3 → decode ws = .instr i [] →
    (∀ k, k < ws.length → decode (ws.take k) = .truncated) →
    after 0 = s →
    (∀ k, k < ws.length → ∃ u pa e,
      (after k).translate g t (((s.thread g t).pc.toNat + 4 * k) % 2 ^ 64) 3 = .ok u pa e
        ∧ u.unitAt (u.group g).kind.cluster (u.group g).rcb pa e 4
          = (after (k + 1), .ok (toBytes 4 (ws.getD k 0).toNat))) →
    s.fetch g t = .words (after ws.length) ws (.instr i []))

/-- R149 to R173: words of the encoding tables, written out, stand for the instructions that the tables give. -/
def Obligations.WordsOfTheTables : Prop :=
  -- R162: major 0x01, D = x5, A = x6, B = x7, fn 0: ADD of 32 signed bits
  decode [0x042860E0#32] = .instr (.add .s32 5#7 6#7 7#7) []
  -- R157, R162: a kind 0 prefix with TY = 1 before fn 1: SUB of 32 unsigned bits
  ∧ decode [0xF8000001#32, 0x042860E1#32] = .instr (.sub .n32 5#7 6#7 7#7) []
  -- R163: major 0x02, D = x1, A = x2, the 12-bit immediate all ones
  ∧ decode [0x08082FFF#32] = .instr (.addi 1#7 2#7 0xFFFFFFFF#32) []
  -- R157, R163: a kind 1 prefix with IMMX = 0x12345 before major 0x02: the 32-bit immediate is 0x12345678
  ∧ decode [0xFA012345#32, 0x08082678#32] = .instr (.addi 1#7 2#7 0x12345678#32) []
  -- R152: major 0x19, condition p3, offset −1
  ∧ decode [0x65FFFFFF#32] = .instr (.brc 3#3 (-1#48)) []
  -- R153: major 0x20, D = x8, A = x10, off9 = 2, sz = 2
  ∧ decode [0x8040A012#32] = .instr (.ld {} 8#7 10#7 2#34 .w) []
  -- R157, R153: SCOPE = 5 and ORD = 2 before major 0x21
  ∧ decode [0xF80000B0#32, 0x8440A012#32] = .instr (.st { ord := .rel, scope := .dev } 8#7 10#7 2#34 .w) []
  -- R168: major 0x28, A = x4, fn 6
  ∧ decode [0xA0004006#32] = .instr (.bara 4#7) []
  -- R169: major 0x2A, D = x1, A = x2, B = x4, fn 8
  ∧ decode [0xA8082088#32] = .instr (.atom {} .s32 .cas 1#7 2#7 4#7) []
  -- R170: major 0x2C, fn 3
  ∧ decode [0xB0082083#32] = .instr (.ffma 1#7 2#7 4#7) []
  -- R172, R266: IMMX = 2 before major 0x34: tile 35
  ∧ decode [0xFA000002#32, 0xD0082083#32] = .instr (.mma 0#3 1#3 1#7 2#7 4#7 35#10) []
  -- R173: major 0x3C, B = 1, fn 2
  ∧ decode [0xF0202022#32] = .instr (.pixout 1#2 4#7 2#7) []
  -- R166: major 0x3D, D = x3, SOP = 0, IMM9 = 0x040
  ∧ decode [0xF4180040#32] = .instr (.csrr 3#7 0x40#9) []
  -- R158, R391: a kind 1 prefix before a kind 0 prefix makes the words no instruction
  ∧ decode [0xFA000000#32, 0xF8000000#32] = .illegal 2
  -- R158: a prefix alone is no whole instruction
  ∧ decode [0xF8000000#32] = .truncated

/-- R210, R214, R270, R275, R284, R311, R315, R319, R321, R383: the values that the rules give for reset: the clock count
is 0; TKAGE is 0x4000; every ticket-table entry is free with generation 0 and is not held; no granule of a weight
buffer has an identity; and the registers of sequencer ports, draw ports, supervisor pages, management mailboxes and
the capability word read as 0. Memory has its canonical form, which every step keeps (log entry 5), and the partitions divide the
dies (log entry 6). -/
def Obligations.ResetState : Prop :=
  let s := State.reset
  s.cycle = 0 ∧ s.stopped = false
  ∧ (∀ d, (s.die d).tkage = 0x4000)
  ∧ (∀ n, (s.ticket n).tstate = .free ∧ (s.ticket n).gen = 0)
  ∧ (∀ e, (s.engine e).wbTag = [] ∧ (s.engine e).li = List.replicate 8 0
      ∧ (s.engine e).seq = 0 ∧ (s.engine e).done = 0 ∧ (s.engine e).disc = 0)
  ∧ (∀ d, (s.die d).acc = 0 ∧ (s.die d).drawDone = 0 ∧ (s.die d).drawDisc = 0
      ∧ (s.die d).stat = 0 ∧ (s.die d).err = 0 ∧ (s.die d).frees = [] ∧ (s.die d).kskip = 0 ∧ (s.die d).reports = 0)
  ∧ s.natop = 0
  ∧ MemoryWf s ∧ Divided s

/-- The memory of the package is a list of bytes by address, and its list has one form: addresses rise, and a byte
that reads as an unlisted one is not listed. Every step from a state whose memory has that form leaves it with that
form, so that equal memories are equal data. The form is the model's own (log entry 5). -/
def Obligations.StepKeepsMemoryWf : Prop := ∀ s s' : State, MemoryWf s → step s = .next s' → MemoryWf s'

/-- R149 to R174, R178: for every instruction that has words and no reserved field, the decoder reads from the words
that the encoder writes, whatever words follow, that instruction with all its operands, and leaves the words that
follow. -/
def Obligations.DecodeReadsEncode : Prop := ∀ i : Instr, Sys2Proof.Laws.Encoding.Statement i
end

