-- ==== Sys2Proof/Laws/Copies.lean ====
section
/-! SUPPORT. What an element of whole words writes: one run of its own bytes at its own address (R117, R224). -/

namespace Sys2Proof.Machine

/-- Bytes that are all there are one run. -/
theorem byteRuns_some (a : Nat) (l : List Byte) : byteRuns a (l.map some) = if l = [] then [] else [(a, l)] := by
  induction l generalizing a with
  | nil => rfl
  | cons b l ih =>
    simp only [List.map_cons, byteRuns, ih]
    cases l <;> simp

/-- The runs of one element of whole words. -/
theorem wordRuns_one (w : List Word) (i : Nat) {bs : List Byte} (h : 4 ≤ bs.length) :
    wordRuns w [(i, bs)] = [(cqTarget w i, bs)] := by
  have hn : ¬bs.length < 4 := by omega
  have hm : Nat.max 4 bs.length = bs.length := Nat.max_eq_right h
  have hc : (upTo bs.length).map (fun k =>
      ([(i, bs)].reverse.find? fun x =>
        decide (cqTarget w x.1 ≤ cqTarget w i + k) && decide (cqTarget w i + k < cqTarget w x.1 + x.2.length)).map
        fun x => x.2.getD (cqTarget w i + k - cqTarget w x.1) 0) = bs.map some := by
    apply List.ext_getElem
    · simp [upTo]
    · intro k hk _
      have hk : k < bs.length := by simpa [upTo] using hk
      simp [upTo, hk, List.getD_eq_getElem?_getD]
  simp only [wordRuns, hn, if_false, hm, hc, byteRuns_some]
  rw [if_neg (by intro h0; simp [h0] at h)]

/-- The store of one element of whole words. -/
theorem storeRuns_one (e : CqEntry) (i : Nat) {bs : List Byte} (h : 4 ≤ bs.length) (s : State) :
    storeRuns e [(i, bs)] [(cqTarget e.w i, bs)] s =
      s.unitStore e.q (s.tableOf e.who.rcb) (cqTarget e.w i)
        { e.who with job := some (e.id, [(i, cqTarget e.w i)]) } bs := by
  have hp : 0 < bs.length := by omega
  simp only [storeRuns, List.filter_cons, List.filter_nil]
  rw [if_pos (by simp; omega)]
  simp only [List.map_cons, List.map_nil]
  split <;> simp_all

end Sys2Proof.Machine
end

