-- ==== Sys2Proof/Laws/State.lean ====
section
/-! SUPPORT. What each update of the state leaves as it was, one lemma for each field of each update. -/

namespace Sys2Proof.Machine
namespace State

/-! ## `modEngine` changes `engines` alone -/

@[simp] theorem modEngine_cycle (s : State) (e : Nat) (f : Engine → Engine) : (s.modEngine e f).cycle = s.cycle := rfl
@[simp] theorem modEngine_mhz (s : State) (e : Nat) (f : Engine → Engine) : (s.modEngine e f).mhz = s.mhz := rfl
@[simp] theorem modEngine_stopped (s : State) (e : Nat) (f : Engine → Engine) : (s.modEngine e f).stopped = s.stopped := rfl
@[simp] theorem modEngine_watts (s : State) (e : Nat) (f : Engine → Engine) : (s.modEngine e f).watts = s.watts := rfl
@[simp] theorem modEngine_temp (s : State) (e : Nat) (f : Engine → Engine) : (s.modEngine e f).temp = s.temp := rfl
@[simp] theorem modEngine_l2 (s : State) (e : Nat) (f : Engine → Engine) : (s.modEngine e f).l2 = s.l2 := rfl
@[simp] theorem modEngine_cqTurns (s : State) (e : Nat) (f : Engine → Engine) : (s.modEngine e f).cqTurns = s.cqTurns := rfl
@[simp] theorem modEngine_cqFloors (s : State) (e : Nat) (f : Engine → Engine) : (s.modEngine e f).cqFloors = s.cqFloors := rfl
@[simp] theorem modEngine_aborts (s : State) (e : Nat) (f : Engine → Engine) : (s.modEngine e f).aborts = s.aborts := rfl
@[simp] theorem modEngine_agenda (s : State) (e : Nat) (f : Engine → Engine) : (s.modEngine e f).agenda = s.agenda := rfl
@[simp] theorem modEngine_free (s : State) (e : Nat) (f : Engine → Engine) : (s.modEngine e f).free = s.free := rfl
@[simp] theorem modEngine_nextKey (s : State) (e : Nat) (f : Engine → Engine) : (s.modEngine e f).nextKey = s.nextKey := rfl
@[simp] theorem modEngine_iss (s : State) (e : Nat) (f : Engine → Engine) : (s.modEngine e f).iss = s.iss := rfl
@[simp] theorem modEngine_groups (s : State) (e : Nat) (f : Engine → Engine) : (s.modEngine e f).groups = s.groups := rfl
@[simp] theorem modEngine_parts (s : State) (e : Nat) (f : Engine → Engine) : (s.modEngine e f).parts = s.parts := rfl
@[simp] theorem modEngine_cores (s : State) (e : Nat) (f : Engine → Engine) : (s.modEngine e f).cores = s.cores := rfl
@[simp] theorem modEngine_blocks (s : State) (e : Nat) (f : Engine → Engine) : (s.modEngine e f).blocks = s.blocks := rfl
@[simp] theorem modEngine_launches (s : State) (e : Nat) (f : Engine → Engine) : (s.modEngine e f).launches = s.launches := rfl
@[simp] theorem modEngine_regions (s : State) (e : Nat) (f : Engine → Engine) : (s.modEngine e f).regions = s.regions := rfl
@[simp] theorem modEngine_inboxes (s : State) (e : Nat) (f : Engine → Engine) : (s.modEngine e f).inboxes = s.inboxes := rfl
@[simp] theorem modEngine_dies (s : State) (e : Nat) (f : Engine → Engine) : (s.modEngine e f).dies = s.dies := rfl
@[simp] theorem modEngine_mem (s : State) (e : Nat) (f : Engine → Engine) : (s.modEngine e f).mem = s.mem := rfl
@[simp] theorem modEngine_marks (s : State) (e : Nat) (f : Engine → Engine) : (s.modEngine e f).marks = s.marks := rfl
@[simp] theorem modEngine_l1s (s : State) (e : Nat) (f : Engine → Engine) : (s.modEngine e f).l1s = s.l1s := rfl
@[simp] theorem modEngine_owners (s : State) (e : Nat) (f : Engine → Engine) : (s.modEngine e f).owners = s.owners := rfl
@[simp] theorem modEngine_sharers (s : State) (e : Nat) (f : Engine → Engine) : (s.modEngine e f).sharers = s.sharers := rfl
@[simp] theorem modEngine_txs (s : State) (e : Nat) (f : Engine → Engine) : (s.modEngine e f).txs = s.txs := rfl
@[simp] theorem modEngine_flight (s : State) (e : Nat) (f : Engine → Engine) : (s.modEngine e f).flight = s.flight := rfl
@[simp] theorem modEngine_loads (s : State) (e : Nat) (f : Engine → Engine) : (s.modEngine e f).loads = s.loads := rfl
@[simp] theorem modEngine_tlb (s : State) (e : Nat) (f : Engine → Engine) : (s.modEngine e f).tlb = s.tlb := rfl
@[simp] theorem modEngine_walks (s : State) (e : Nat) (f : Engine → Engine) : (s.modEngine e f).walks = s.walks := rfl
@[simp] theorem modEngine_walkFaults (s : State) (e : Nat) (f : Engine → Engine) : (s.modEngine e f).walkFaults = s.walkFaults := rfl
@[simp] theorem modEngine_tickets (s : State) (e : Nat) (f : Engine → Engine) : (s.modEngine e f).tickets = s.tickets := rfl
@[simp] theorem modEngine_queues (s : State) (e : Nat) (f : Engine → Engine) : (s.modEngine e f).queues = s.queues := rfl
@[simp] theorem modEngine_copies (s : State) (e : Nat) (f : Engine → Engine) : (s.modEngine e f).copies = s.copies := rfl
@[simp] theorem modEngine_lands (s : State) (e : Nat) (f : Engine → Engine) : (s.modEngine e f).lands = s.lands := rfl
@[simp] theorem modEngine_micro (s : State) (e : Nat) (f : Engine → Engine) : (s.modEngine e f).micro = s.micro := rfl
@[simp] theorem modEngine_scatter (s : State) (e : Nat) (f : Engine → Engine) : (s.modEngine e f).scatter = s.scatter := rfl
@[simp] theorem modEngine_overflow (s : State) (e : Nat) (f : Engine → Engine) : (s.modEngine e f).overflow = s.overflow := rfl
@[simp] theorem modEngine_stitches (s : State) (e : Nat) (f : Engine → Engine) : (s.modEngine e f).stitches = s.stitches := rfl
@[simp] theorem modEngine_formed (s : State) (e : Nat) (f : Engine → Engine) : (s.modEngine e f).formed = s.formed := rfl
@[simp] theorem modEngine_swarmArms (s : State) (e : Nat) (f : Engine → Engine) : (s.modEngine e f).swarmArms = s.swarmArms := rfl
@[simp] theorem modEngine_due (s : State) (e : Nat) (f : Engine → Engine) : (s.modEngine e f).due = s.due := rfl
@[simp] theorem modEngine_kcounts (s : State) (e : Nat) (f : Engine → Engine) : (s.modEngine e f).kcounts = s.kcounts := rfl
@[simp] theorem modEngine_moves (s : State) (e : Nat) (f : Engine → Engine) : (s.modEngine e f).moves = s.moves := rfl
@[simp] theorem modEngine_moved (s : State) (e : Nat) (f : Engine → Engine) : (s.modEngine e f).moved = s.moved := rfl
@[simp] theorem modEngine_shoots (s : State) (e : Nat) (f : Engine → Engine) : (s.modEngine e f).shoots = s.shoots := rfl
@[simp] theorem modEngine_images (s : State) (e : Nat) (f : Engine → Engine) : (s.modEngine e f).images = s.images := rfl
@[simp] theorem modEngine_keys (s : State) (e : Nat) (f : Engine → Engine) : (s.modEngine e f).keys = s.keys := rfl
@[simp] theorem modEngine_links (s : State) (e : Nat) (f : Engine → Engine) : (s.modEngine e f).links = s.links := rfl
@[simp] theorem modEngine_division (s : State) (e : Nat) (f : Engine → Engine) : (s.modEngine e f).division = s.division := rfl
@[simp] theorem modEngine_nextDivision (s : State) (e : Nat) (f : Engine → Engine) : (s.modEngine e f).nextDivision = s.nextDivision := rfl
@[simp] theorem modEngine_hostPorts (s : State) (e : Nat) (f : Engine → Engine) : (s.modEngine e f).hostPorts = s.hostPorts := rfl
@[simp] theorem modEngine_nextPorts (s : State) (e : Nat) (f : Engine → Engine) : (s.modEngine e f).nextPorts = s.nextPorts := rfl
@[simp] theorem modEngine_peers (s : State) (e : Nat) (f : Engine → Engine) : (s.modEngine e f).peers = s.peers := rfl
@[simp] theorem modEngine_natop (s : State) (e : Nat) (f : Engine → Engine) : (s.modEngine e f).natop = s.natop := rfl
@[simp] theorem modEngine_serial (s : State) (e : Nat) (f : Engine → Engine) : (s.modEngine e f).serial = s.serial := rfl
@[simp] theorem modEngine_notices (s : State) (e : Nat) (f : Engine → Engine) : (s.modEngine e f).notices = s.notices := rfl
@[simp] theorem modEngine_untold (s : State) (e : Nat) (f : Engine → Engine) : (s.modEngine e f).untold = s.untold := rfl

/-! ## `modDie` changes `dies` alone -/

@[simp] theorem modDie_cycle (s : State) (d : Nat) (f : Die → Die) : (s.modDie d f).cycle = s.cycle := rfl
@[simp] theorem modDie_mhz (s : State) (d : Nat) (f : Die → Die) : (s.modDie d f).mhz = s.mhz := rfl
@[simp] theorem modDie_stopped (s : State) (d : Nat) (f : Die → Die) : (s.modDie d f).stopped = s.stopped := rfl
@[simp] theorem modDie_watts (s : State) (d : Nat) (f : Die → Die) : (s.modDie d f).watts = s.watts := rfl
@[simp] theorem modDie_temp (s : State) (d : Nat) (f : Die → Die) : (s.modDie d f).temp = s.temp := rfl
@[simp] theorem modDie_l2 (s : State) (d : Nat) (f : Die → Die) : (s.modDie d f).l2 = s.l2 := rfl
@[simp] theorem modDie_cqTurns (s : State) (d : Nat) (f : Die → Die) : (s.modDie d f).cqTurns = s.cqTurns := rfl
@[simp] theorem modDie_cqFloors (s : State) (d : Nat) (f : Die → Die) : (s.modDie d f).cqFloors = s.cqFloors := rfl
@[simp] theorem modDie_aborts (s : State) (d : Nat) (f : Die → Die) : (s.modDie d f).aborts = s.aborts := rfl
@[simp] theorem modDie_agenda (s : State) (d : Nat) (f : Die → Die) : (s.modDie d f).agenda = s.agenda := rfl
@[simp] theorem modDie_free (s : State) (d : Nat) (f : Die → Die) : (s.modDie d f).free = s.free := rfl
@[simp] theorem modDie_nextKey (s : State) (d : Nat) (f : Die → Die) : (s.modDie d f).nextKey = s.nextKey := rfl
@[simp] theorem modDie_iss (s : State) (d : Nat) (f : Die → Die) : (s.modDie d f).iss = s.iss := rfl
@[simp] theorem modDie_groups (s : State) (d : Nat) (f : Die → Die) : (s.modDie d f).groups = s.groups := rfl
@[simp] theorem modDie_parts (s : State) (d : Nat) (f : Die → Die) : (s.modDie d f).parts = s.parts := rfl
@[simp] theorem modDie_cores (s : State) (d : Nat) (f : Die → Die) : (s.modDie d f).cores = s.cores := rfl
@[simp] theorem modDie_blocks (s : State) (d : Nat) (f : Die → Die) : (s.modDie d f).blocks = s.blocks := rfl
@[simp] theorem modDie_launches (s : State) (d : Nat) (f : Die → Die) : (s.modDie d f).launches = s.launches := rfl
@[simp] theorem modDie_regions (s : State) (d : Nat) (f : Die → Die) : (s.modDie d f).regions = s.regions := rfl
@[simp] theorem modDie_inboxes (s : State) (d : Nat) (f : Die → Die) : (s.modDie d f).inboxes = s.inboxes := rfl
@[simp] theorem modDie_engines (s : State) (d : Nat) (f : Die → Die) : (s.modDie d f).engines = s.engines := rfl
@[simp] theorem modDie_mem (s : State) (d : Nat) (f : Die → Die) : (s.modDie d f).mem = s.mem := rfl
@[simp] theorem modDie_marks (s : State) (d : Nat) (f : Die → Die) : (s.modDie d f).marks = s.marks := rfl
@[simp] theorem modDie_l1s (s : State) (d : Nat) (f : Die → Die) : (s.modDie d f).l1s = s.l1s := rfl
@[simp] theorem modDie_owners (s : State) (d : Nat) (f : Die → Die) : (s.modDie d f).owners = s.owners := rfl
@[simp] theorem modDie_sharers (s : State) (d : Nat) (f : Die → Die) : (s.modDie d f).sharers = s.sharers := rfl
@[simp] theorem modDie_txs (s : State) (d : Nat) (f : Die → Die) : (s.modDie d f).txs = s.txs := rfl
@[simp] theorem modDie_flight (s : State) (d : Nat) (f : Die → Die) : (s.modDie d f).flight = s.flight := rfl
@[simp] theorem modDie_loads (s : State) (d : Nat) (f : Die → Die) : (s.modDie d f).loads = s.loads := rfl
@[simp] theorem modDie_tlb (s : State) (d : Nat) (f : Die → Die) : (s.modDie d f).tlb = s.tlb := rfl
@[simp] theorem modDie_walks (s : State) (d : Nat) (f : Die → Die) : (s.modDie d f).walks = s.walks := rfl
@[simp] theorem modDie_walkFaults (s : State) (d : Nat) (f : Die → Die) : (s.modDie d f).walkFaults = s.walkFaults := rfl
@[simp] theorem modDie_tickets (s : State) (d : Nat) (f : Die → Die) : (s.modDie d f).tickets = s.tickets := rfl
@[simp] theorem modDie_queues (s : State) (d : Nat) (f : Die → Die) : (s.modDie d f).queues = s.queues := rfl
@[simp] theorem modDie_copies (s : State) (d : Nat) (f : Die → Die) : (s.modDie d f).copies = s.copies := rfl
@[simp] theorem modDie_lands (s : State) (d : Nat) (f : Die → Die) : (s.modDie d f).lands = s.lands := rfl
@[simp] theorem modDie_micro (s : State) (d : Nat) (f : Die → Die) : (s.modDie d f).micro = s.micro := rfl
@[simp] theorem modDie_scatter (s : State) (d : Nat) (f : Die → Die) : (s.modDie d f).scatter = s.scatter := rfl
@[simp] theorem modDie_overflow (s : State) (d : Nat) (f : Die → Die) : (s.modDie d f).overflow = s.overflow := rfl
@[simp] theorem modDie_stitches (s : State) (d : Nat) (f : Die → Die) : (s.modDie d f).stitches = s.stitches := rfl
@[simp] theorem modDie_formed (s : State) (d : Nat) (f : Die → Die) : (s.modDie d f).formed = s.formed := rfl
@[simp] theorem modDie_swarmArms (s : State) (d : Nat) (f : Die → Die) : (s.modDie d f).swarmArms = s.swarmArms := rfl
@[simp] theorem modDie_due (s : State) (d : Nat) (f : Die → Die) : (s.modDie d f).due = s.due := rfl
@[simp] theorem modDie_kcounts (s : State) (d : Nat) (f : Die → Die) : (s.modDie d f).kcounts = s.kcounts := rfl
@[simp] theorem modDie_moves (s : State) (d : Nat) (f : Die → Die) : (s.modDie d f).moves = s.moves := rfl
@[simp] theorem modDie_moved (s : State) (d : Nat) (f : Die → Die) : (s.modDie d f).moved = s.moved := rfl
@[simp] theorem modDie_shoots (s : State) (d : Nat) (f : Die → Die) : (s.modDie d f).shoots = s.shoots := rfl
@[simp] theorem modDie_images (s : State) (d : Nat) (f : Die → Die) : (s.modDie d f).images = s.images := rfl
@[simp] theorem modDie_keys (s : State) (d : Nat) (f : Die → Die) : (s.modDie d f).keys = s.keys := rfl
@[simp] theorem modDie_links (s : State) (d : Nat) (f : Die → Die) : (s.modDie d f).links = s.links := rfl
@[simp] theorem modDie_division (s : State) (d : Nat) (f : Die → Die) : (s.modDie d f).division = s.division := rfl
@[simp] theorem modDie_nextDivision (s : State) (d : Nat) (f : Die → Die) : (s.modDie d f).nextDivision = s.nextDivision := rfl
@[simp] theorem modDie_hostPorts (s : State) (d : Nat) (f : Die → Die) : (s.modDie d f).hostPorts = s.hostPorts := rfl
@[simp] theorem modDie_nextPorts (s : State) (d : Nat) (f : Die → Die) : (s.modDie d f).nextPorts = s.nextPorts := rfl
@[simp] theorem modDie_peers (s : State) (d : Nat) (f : Die → Die) : (s.modDie d f).peers = s.peers := rfl
@[simp] theorem modDie_natop (s : State) (d : Nat) (f : Die → Die) : (s.modDie d f).natop = s.natop := rfl
@[simp] theorem modDie_serial (s : State) (d : Nat) (f : Die → Die) : (s.modDie d f).serial = s.serial := rfl
@[simp] theorem modDie_notices (s : State) (d : Nat) (f : Die → Die) : (s.modDie d f).notices = s.notices := rfl
@[simp] theorem modDie_untold (s : State) (d : Nat) (f : Die → Die) : (s.modDie d f).untold = s.untold := rfl

/-! ## `modL1` changes `l1s` alone -/

@[simp] theorem modL1_cycle (s : State) (c : Nat) (f : L1 → L1) : (s.modL1 c f).cycle = s.cycle := rfl
@[simp] theorem modL1_mhz (s : State) (c : Nat) (f : L1 → L1) : (s.modL1 c f).mhz = s.mhz := rfl
@[simp] theorem modL1_stopped (s : State) (c : Nat) (f : L1 → L1) : (s.modL1 c f).stopped = s.stopped := rfl
@[simp] theorem modL1_watts (s : State) (c : Nat) (f : L1 → L1) : (s.modL1 c f).watts = s.watts := rfl
@[simp] theorem modL1_temp (s : State) (c : Nat) (f : L1 → L1) : (s.modL1 c f).temp = s.temp := rfl
@[simp] theorem modL1_l2 (s : State) (c : Nat) (f : L1 → L1) : (s.modL1 c f).l2 = s.l2 := rfl
@[simp] theorem modL1_cqTurns (s : State) (c : Nat) (f : L1 → L1) : (s.modL1 c f).cqTurns = s.cqTurns := rfl
@[simp] theorem modL1_cqFloors (s : State) (c : Nat) (f : L1 → L1) : (s.modL1 c f).cqFloors = s.cqFloors := rfl
@[simp] theorem modL1_aborts (s : State) (c : Nat) (f : L1 → L1) : (s.modL1 c f).aborts = s.aborts := rfl
@[simp] theorem modL1_agenda (s : State) (c : Nat) (f : L1 → L1) : (s.modL1 c f).agenda = s.agenda := rfl
@[simp] theorem modL1_free (s : State) (c : Nat) (f : L1 → L1) : (s.modL1 c f).free = s.free := rfl
@[simp] theorem modL1_nextKey (s : State) (c : Nat) (f : L1 → L1) : (s.modL1 c f).nextKey = s.nextKey := rfl
@[simp] theorem modL1_iss (s : State) (c : Nat) (f : L1 → L1) : (s.modL1 c f).iss = s.iss := rfl
@[simp] theorem modL1_groups (s : State) (c : Nat) (f : L1 → L1) : (s.modL1 c f).groups = s.groups := rfl
@[simp] theorem modL1_parts (s : State) (c : Nat) (f : L1 → L1) : (s.modL1 c f).parts = s.parts := rfl
@[simp] theorem modL1_cores (s : State) (c : Nat) (f : L1 → L1) : (s.modL1 c f).cores = s.cores := rfl
@[simp] theorem modL1_blocks (s : State) (c : Nat) (f : L1 → L1) : (s.modL1 c f).blocks = s.blocks := rfl
@[simp] theorem modL1_launches (s : State) (c : Nat) (f : L1 → L1) : (s.modL1 c f).launches = s.launches := rfl
@[simp] theorem modL1_regions (s : State) (c : Nat) (f : L1 → L1) : (s.modL1 c f).regions = s.regions := rfl
@[simp] theorem modL1_inboxes (s : State) (c : Nat) (f : L1 → L1) : (s.modL1 c f).inboxes = s.inboxes := rfl
@[simp] theorem modL1_engines (s : State) (c : Nat) (f : L1 → L1) : (s.modL1 c f).engines = s.engines := rfl
@[simp] theorem modL1_dies (s : State) (c : Nat) (f : L1 → L1) : (s.modL1 c f).dies = s.dies := rfl
@[simp] theorem modL1_mem (s : State) (c : Nat) (f : L1 → L1) : (s.modL1 c f).mem = s.mem := rfl
@[simp] theorem modL1_marks (s : State) (c : Nat) (f : L1 → L1) : (s.modL1 c f).marks = s.marks := rfl
@[simp] theorem modL1_owners (s : State) (c : Nat) (f : L1 → L1) : (s.modL1 c f).owners = s.owners := rfl
@[simp] theorem modL1_sharers (s : State) (c : Nat) (f : L1 → L1) : (s.modL1 c f).sharers = s.sharers := rfl
@[simp] theorem modL1_txs (s : State) (c : Nat) (f : L1 → L1) : (s.modL1 c f).txs = s.txs := rfl
@[simp] theorem modL1_flight (s : State) (c : Nat) (f : L1 → L1) : (s.modL1 c f).flight = s.flight := rfl
@[simp] theorem modL1_loads (s : State) (c : Nat) (f : L1 → L1) : (s.modL1 c f).loads = s.loads := rfl
@[simp] theorem modL1_tlb (s : State) (c : Nat) (f : L1 → L1) : (s.modL1 c f).tlb = s.tlb := rfl
@[simp] theorem modL1_walks (s : State) (c : Nat) (f : L1 → L1) : (s.modL1 c f).walks = s.walks := rfl
@[simp] theorem modL1_walkFaults (s : State) (c : Nat) (f : L1 → L1) : (s.modL1 c f).walkFaults = s.walkFaults := rfl
@[simp] theorem modL1_tickets (s : State) (c : Nat) (f : L1 → L1) : (s.modL1 c f).tickets = s.tickets := rfl
@[simp] theorem modL1_queues (s : State) (c : Nat) (f : L1 → L1) : (s.modL1 c f).queues = s.queues := rfl
@[simp] theorem modL1_copies (s : State) (c : Nat) (f : L1 → L1) : (s.modL1 c f).copies = s.copies := rfl
@[simp] theorem modL1_lands (s : State) (c : Nat) (f : L1 → L1) : (s.modL1 c f).lands = s.lands := rfl
@[simp] theorem modL1_micro (s : State) (c : Nat) (f : L1 → L1) : (s.modL1 c f).micro = s.micro := rfl
@[simp] theorem modL1_scatter (s : State) (c : Nat) (f : L1 → L1) : (s.modL1 c f).scatter = s.scatter := rfl
@[simp] theorem modL1_overflow (s : State) (c : Nat) (f : L1 → L1) : (s.modL1 c f).overflow = s.overflow := rfl
@[simp] theorem modL1_stitches (s : State) (c : Nat) (f : L1 → L1) : (s.modL1 c f).stitches = s.stitches := rfl
@[simp] theorem modL1_formed (s : State) (c : Nat) (f : L1 → L1) : (s.modL1 c f).formed = s.formed := rfl
@[simp] theorem modL1_swarmArms (s : State) (c : Nat) (f : L1 → L1) : (s.modL1 c f).swarmArms = s.swarmArms := rfl
@[simp] theorem modL1_due (s : State) (c : Nat) (f : L1 → L1) : (s.modL1 c f).due = s.due := rfl
@[simp] theorem modL1_kcounts (s : State) (c : Nat) (f : L1 → L1) : (s.modL1 c f).kcounts = s.kcounts := rfl
@[simp] theorem modL1_moves (s : State) (c : Nat) (f : L1 → L1) : (s.modL1 c f).moves = s.moves := rfl
@[simp] theorem modL1_moved (s : State) (c : Nat) (f : L1 → L1) : (s.modL1 c f).moved = s.moved := rfl
@[simp] theorem modL1_shoots (s : State) (c : Nat) (f : L1 → L1) : (s.modL1 c f).shoots = s.shoots := rfl
@[simp] theorem modL1_images (s : State) (c : Nat) (f : L1 → L1) : (s.modL1 c f).images = s.images := rfl
@[simp] theorem modL1_keys (s : State) (c : Nat) (f : L1 → L1) : (s.modL1 c f).keys = s.keys := rfl
@[simp] theorem modL1_links (s : State) (c : Nat) (f : L1 → L1) : (s.modL1 c f).links = s.links := rfl
@[simp] theorem modL1_division (s : State) (c : Nat) (f : L1 → L1) : (s.modL1 c f).division = s.division := rfl
@[simp] theorem modL1_nextDivision (s : State) (c : Nat) (f : L1 → L1) : (s.modL1 c f).nextDivision = s.nextDivision := rfl
@[simp] theorem modL1_hostPorts (s : State) (c : Nat) (f : L1 → L1) : (s.modL1 c f).hostPorts = s.hostPorts := rfl
@[simp] theorem modL1_nextPorts (s : State) (c : Nat) (f : L1 → L1) : (s.modL1 c f).nextPorts = s.nextPorts := rfl
@[simp] theorem modL1_peers (s : State) (c : Nat) (f : L1 → L1) : (s.modL1 c f).peers = s.peers := rfl
@[simp] theorem modL1_natop (s : State) (c : Nat) (f : L1 → L1) : (s.modL1 c f).natop = s.natop := rfl
@[simp] theorem modL1_serial (s : State) (c : Nat) (f : L1 → L1) : (s.modL1 c f).serial = s.serial := rfl
@[simp] theorem modL1_notices (s : State) (c : Nat) (f : L1 → L1) : (s.modL1 c f).notices = s.notices := rfl
@[simp] theorem modL1_untold (s : State) (c : Nat) (f : L1 → L1) : (s.modL1 c f).untold = s.untold := rfl

/-! ## `modCore` changes `cores` alone -/

@[simp] theorem modCore_cycle (s : State) (c : Nat) (f : Core → Core) : (s.modCore c f).cycle = s.cycle := rfl
@[simp] theorem modCore_mhz (s : State) (c : Nat) (f : Core → Core) : (s.modCore c f).mhz = s.mhz := rfl
@[simp] theorem modCore_stopped (s : State) (c : Nat) (f : Core → Core) : (s.modCore c f).stopped = s.stopped := rfl
@[simp] theorem modCore_watts (s : State) (c : Nat) (f : Core → Core) : (s.modCore c f).watts = s.watts := rfl
@[simp] theorem modCore_temp (s : State) (c : Nat) (f : Core → Core) : (s.modCore c f).temp = s.temp := rfl
@[simp] theorem modCore_l2 (s : State) (c : Nat) (f : Core → Core) : (s.modCore c f).l2 = s.l2 := rfl
@[simp] theorem modCore_cqTurns (s : State) (c : Nat) (f : Core → Core) : (s.modCore c f).cqTurns = s.cqTurns := rfl
@[simp] theorem modCore_cqFloors (s : State) (c : Nat) (f : Core → Core) : (s.modCore c f).cqFloors = s.cqFloors := rfl
@[simp] theorem modCore_aborts (s : State) (c : Nat) (f : Core → Core) : (s.modCore c f).aborts = s.aborts := rfl
@[simp] theorem modCore_agenda (s : State) (c : Nat) (f : Core → Core) : (s.modCore c f).agenda = s.agenda := rfl
@[simp] theorem modCore_free (s : State) (c : Nat) (f : Core → Core) : (s.modCore c f).free = s.free := rfl
@[simp] theorem modCore_nextKey (s : State) (c : Nat) (f : Core → Core) : (s.modCore c f).nextKey = s.nextKey := rfl
@[simp] theorem modCore_iss (s : State) (c : Nat) (f : Core → Core) : (s.modCore c f).iss = s.iss := rfl
@[simp] theorem modCore_groups (s : State) (c : Nat) (f : Core → Core) : (s.modCore c f).groups = s.groups := rfl
@[simp] theorem modCore_parts (s : State) (c : Nat) (f : Core → Core) : (s.modCore c f).parts = s.parts := rfl
@[simp] theorem modCore_blocks (s : State) (c : Nat) (f : Core → Core) : (s.modCore c f).blocks = s.blocks := rfl
@[simp] theorem modCore_launches (s : State) (c : Nat) (f : Core → Core) : (s.modCore c f).launches = s.launches := rfl
@[simp] theorem modCore_regions (s : State) (c : Nat) (f : Core → Core) : (s.modCore c f).regions = s.regions := rfl
@[simp] theorem modCore_inboxes (s : State) (c : Nat) (f : Core → Core) : (s.modCore c f).inboxes = s.inboxes := rfl
@[simp] theorem modCore_engines (s : State) (c : Nat) (f : Core → Core) : (s.modCore c f).engines = s.engines := rfl
@[simp] theorem modCore_dies (s : State) (c : Nat) (f : Core → Core) : (s.modCore c f).dies = s.dies := rfl
@[simp] theorem modCore_mem (s : State) (c : Nat) (f : Core → Core) : (s.modCore c f).mem = s.mem := rfl
@[simp] theorem modCore_marks (s : State) (c : Nat) (f : Core → Core) : (s.modCore c f).marks = s.marks := rfl
@[simp] theorem modCore_l1s (s : State) (c : Nat) (f : Core → Core) : (s.modCore c f).l1s = s.l1s := rfl
@[simp] theorem modCore_owners (s : State) (c : Nat) (f : Core → Core) : (s.modCore c f).owners = s.owners := rfl
@[simp] theorem modCore_sharers (s : State) (c : Nat) (f : Core → Core) : (s.modCore c f).sharers = s.sharers := rfl
@[simp] theorem modCore_txs (s : State) (c : Nat) (f : Core → Core) : (s.modCore c f).txs = s.txs := rfl
@[simp] theorem modCore_flight (s : State) (c : Nat) (f : Core → Core) : (s.modCore c f).flight = s.flight := rfl
@[simp] theorem modCore_loads (s : State) (c : Nat) (f : Core → Core) : (s.modCore c f).loads = s.loads := rfl
@[simp] theorem modCore_tlb (s : State) (c : Nat) (f : Core → Core) : (s.modCore c f).tlb = s.tlb := rfl
@[simp] theorem modCore_walks (s : State) (c : Nat) (f : Core → Core) : (s.modCore c f).walks = s.walks := rfl
@[simp] theorem modCore_walkFaults (s : State) (c : Nat) (f : Core → Core) : (s.modCore c f).walkFaults = s.walkFaults := rfl
@[simp] theorem modCore_tickets (s : State) (c : Nat) (f : Core → Core) : (s.modCore c f).tickets = s.tickets := rfl
@[simp] theorem modCore_queues (s : State) (c : Nat) (f : Core → Core) : (s.modCore c f).queues = s.queues := rfl
@[simp] theorem modCore_copies (s : State) (c : Nat) (f : Core → Core) : (s.modCore c f).copies = s.copies := rfl
@[simp] theorem modCore_lands (s : State) (c : Nat) (f : Core → Core) : (s.modCore c f).lands = s.lands := rfl
@[simp] theorem modCore_micro (s : State) (c : Nat) (f : Core → Core) : (s.modCore c f).micro = s.micro := rfl
@[simp] theorem modCore_scatter (s : State) (c : Nat) (f : Core → Core) : (s.modCore c f).scatter = s.scatter := rfl
@[simp] theorem modCore_overflow (s : State) (c : Nat) (f : Core → Core) : (s.modCore c f).overflow = s.overflow := rfl
@[simp] theorem modCore_stitches (s : State) (c : Nat) (f : Core → Core) : (s.modCore c f).stitches = s.stitches := rfl
@[simp] theorem modCore_formed (s : State) (c : Nat) (f : Core → Core) : (s.modCore c f).formed = s.formed := rfl
@[simp] theorem modCore_swarmArms (s : State) (c : Nat) (f : Core → Core) : (s.modCore c f).swarmArms = s.swarmArms := rfl
@[simp] theorem modCore_due (s : State) (c : Nat) (f : Core → Core) : (s.modCore c f).due = s.due := rfl
@[simp] theorem modCore_kcounts (s : State) (c : Nat) (f : Core → Core) : (s.modCore c f).kcounts = s.kcounts := rfl
@[simp] theorem modCore_moves (s : State) (c : Nat) (f : Core → Core) : (s.modCore c f).moves = s.moves := rfl
@[simp] theorem modCore_moved (s : State) (c : Nat) (f : Core → Core) : (s.modCore c f).moved = s.moved := rfl
@[simp] theorem modCore_shoots (s : State) (c : Nat) (f : Core → Core) : (s.modCore c f).shoots = s.shoots := rfl
@[simp] theorem modCore_images (s : State) (c : Nat) (f : Core → Core) : (s.modCore c f).images = s.images := rfl
@[simp] theorem modCore_keys (s : State) (c : Nat) (f : Core → Core) : (s.modCore c f).keys = s.keys := rfl
@[simp] theorem modCore_links (s : State) (c : Nat) (f : Core → Core) : (s.modCore c f).links = s.links := rfl
@[simp] theorem modCore_division (s : State) (c : Nat) (f : Core → Core) : (s.modCore c f).division = s.division := rfl
@[simp] theorem modCore_nextDivision (s : State) (c : Nat) (f : Core → Core) : (s.modCore c f).nextDivision = s.nextDivision := rfl
@[simp] theorem modCore_hostPorts (s : State) (c : Nat) (f : Core → Core) : (s.modCore c f).hostPorts = s.hostPorts := rfl
@[simp] theorem modCore_nextPorts (s : State) (c : Nat) (f : Core → Core) : (s.modCore c f).nextPorts = s.nextPorts := rfl
@[simp] theorem modCore_peers (s : State) (c : Nat) (f : Core → Core) : (s.modCore c f).peers = s.peers := rfl
@[simp] theorem modCore_natop (s : State) (c : Nat) (f : Core → Core) : (s.modCore c f).natop = s.natop := rfl
@[simp] theorem modCore_serial (s : State) (c : Nat) (f : Core → Core) : (s.modCore c f).serial = s.serial := rfl
@[simp] theorem modCore_notices (s : State) (c : Nat) (f : Core → Core) : (s.modCore c f).notices = s.notices := rfl
@[simp] theorem modCore_untold (s : State) (c : Nat) (f : Core → Core) : (s.modCore c f).untold = s.untold := rfl

/-! ## `modPart` changes `parts` alone -/

@[simp] theorem modPart_cycle (s : State) (k : Nat) (f : Partition → Partition) : (s.modPart k f).cycle = s.cycle := rfl
@[simp] theorem modPart_mhz (s : State) (k : Nat) (f : Partition → Partition) : (s.modPart k f).mhz = s.mhz := rfl
@[simp] theorem modPart_stopped (s : State) (k : Nat) (f : Partition → Partition) : (s.modPart k f).stopped = s.stopped := rfl
@[simp] theorem modPart_watts (s : State) (k : Nat) (f : Partition → Partition) : (s.modPart k f).watts = s.watts := rfl
@[simp] theorem modPart_temp (s : State) (k : Nat) (f : Partition → Partition) : (s.modPart k f).temp = s.temp := rfl
@[simp] theorem modPart_l2 (s : State) (k : Nat) (f : Partition → Partition) : (s.modPart k f).l2 = s.l2 := rfl
@[simp] theorem modPart_cqTurns (s : State) (k : Nat) (f : Partition → Partition) : (s.modPart k f).cqTurns = s.cqTurns := rfl
@[simp] theorem modPart_cqFloors (s : State) (k : Nat) (f : Partition → Partition) : (s.modPart k f).cqFloors = s.cqFloors := rfl
@[simp] theorem modPart_aborts (s : State) (k : Nat) (f : Partition → Partition) : (s.modPart k f).aborts = s.aborts := rfl
@[simp] theorem modPart_agenda (s : State) (k : Nat) (f : Partition → Partition) : (s.modPart k f).agenda = s.agenda := rfl
@[simp] theorem modPart_free (s : State) (k : Nat) (f : Partition → Partition) : (s.modPart k f).free = s.free := rfl
@[simp] theorem modPart_nextKey (s : State) (k : Nat) (f : Partition → Partition) : (s.modPart k f).nextKey = s.nextKey := rfl
@[simp] theorem modPart_iss (s : State) (k : Nat) (f : Partition → Partition) : (s.modPart k f).iss = s.iss := rfl
@[simp] theorem modPart_groups (s : State) (k : Nat) (f : Partition → Partition) : (s.modPart k f).groups = s.groups := rfl
@[simp] theorem modPart_cores (s : State) (k : Nat) (f : Partition → Partition) : (s.modPart k f).cores = s.cores := rfl
@[simp] theorem modPart_blocks (s : State) (k : Nat) (f : Partition → Partition) : (s.modPart k f).blocks = s.blocks := rfl
@[simp] theorem modPart_launches (s : State) (k : Nat) (f : Partition → Partition) : (s.modPart k f).launches = s.launches := rfl
@[simp] theorem modPart_regions (s : State) (k : Nat) (f : Partition → Partition) : (s.modPart k f).regions = s.regions := rfl
@[simp] theorem modPart_inboxes (s : State) (k : Nat) (f : Partition → Partition) : (s.modPart k f).inboxes = s.inboxes := rfl
@[simp] theorem modPart_engines (s : State) (k : Nat) (f : Partition → Partition) : (s.modPart k f).engines = s.engines := rfl
@[simp] theorem modPart_dies (s : State) (k : Nat) (f : Partition → Partition) : (s.modPart k f).dies = s.dies := rfl
@[simp] theorem modPart_mem (s : State) (k : Nat) (f : Partition → Partition) : (s.modPart k f).mem = s.mem := rfl
@[simp] theorem modPart_marks (s : State) (k : Nat) (f : Partition → Partition) : (s.modPart k f).marks = s.marks := rfl
@[simp] theorem modPart_l1s (s : State) (k : Nat) (f : Partition → Partition) : (s.modPart k f).l1s = s.l1s := rfl
@[simp] theorem modPart_owners (s : State) (k : Nat) (f : Partition → Partition) : (s.modPart k f).owners = s.owners := rfl
@[simp] theorem modPart_sharers (s : State) (k : Nat) (f : Partition → Partition) : (s.modPart k f).sharers = s.sharers := rfl
@[simp] theorem modPart_txs (s : State) (k : Nat) (f : Partition → Partition) : (s.modPart k f).txs = s.txs := rfl
@[simp] theorem modPart_flight (s : State) (k : Nat) (f : Partition → Partition) : (s.modPart k f).flight = s.flight := rfl
@[simp] theorem modPart_loads (s : State) (k : Nat) (f : Partition → Partition) : (s.modPart k f).loads = s.loads := rfl
@[simp] theorem modPart_tlb (s : State) (k : Nat) (f : Partition → Partition) : (s.modPart k f).tlb = s.tlb := rfl
@[simp] theorem modPart_walks (s : State) (k : Nat) (f : Partition → Partition) : (s.modPart k f).walks = s.walks := rfl
@[simp] theorem modPart_walkFaults (s : State) (k : Nat) (f : Partition → Partition) : (s.modPart k f).walkFaults = s.walkFaults := rfl
@[simp] theorem modPart_tickets (s : State) (k : Nat) (f : Partition → Partition) : (s.modPart k f).tickets = s.tickets := rfl
@[simp] theorem modPart_queues (s : State) (k : Nat) (f : Partition → Partition) : (s.modPart k f).queues = s.queues := rfl
@[simp] theorem modPart_copies (s : State) (k : Nat) (f : Partition → Partition) : (s.modPart k f).copies = s.copies := rfl
@[simp] theorem modPart_lands (s : State) (k : Nat) (f : Partition → Partition) : (s.modPart k f).lands = s.lands := rfl
@[simp] theorem modPart_micro (s : State) (k : Nat) (f : Partition → Partition) : (s.modPart k f).micro = s.micro := rfl
@[simp] theorem modPart_scatter (s : State) (k : Nat) (f : Partition → Partition) : (s.modPart k f).scatter = s.scatter := rfl
@[simp] theorem modPart_overflow (s : State) (k : Nat) (f : Partition → Partition) : (s.modPart k f).overflow = s.overflow := rfl
@[simp] theorem modPart_stitches (s : State) (k : Nat) (f : Partition → Partition) : (s.modPart k f).stitches = s.stitches := rfl
@[simp] theorem modPart_formed (s : State) (k : Nat) (f : Partition → Partition) : (s.modPart k f).formed = s.formed := rfl
@[simp] theorem modPart_swarmArms (s : State) (k : Nat) (f : Partition → Partition) : (s.modPart k f).swarmArms = s.swarmArms := rfl
@[simp] theorem modPart_due (s : State) (k : Nat) (f : Partition → Partition) : (s.modPart k f).due = s.due := rfl
@[simp] theorem modPart_kcounts (s : State) (k : Nat) (f : Partition → Partition) : (s.modPart k f).kcounts = s.kcounts := rfl
@[simp] theorem modPart_moves (s : State) (k : Nat) (f : Partition → Partition) : (s.modPart k f).moves = s.moves := rfl
@[simp] theorem modPart_moved (s : State) (k : Nat) (f : Partition → Partition) : (s.modPart k f).moved = s.moved := rfl
@[simp] theorem modPart_shoots (s : State) (k : Nat) (f : Partition → Partition) : (s.modPart k f).shoots = s.shoots := rfl
@[simp] theorem modPart_images (s : State) (k : Nat) (f : Partition → Partition) : (s.modPart k f).images = s.images := rfl
@[simp] theorem modPart_keys (s : State) (k : Nat) (f : Partition → Partition) : (s.modPart k f).keys = s.keys := rfl
@[simp] theorem modPart_links (s : State) (k : Nat) (f : Partition → Partition) : (s.modPart k f).links = s.links := rfl
@[simp] theorem modPart_division (s : State) (k : Nat) (f : Partition → Partition) : (s.modPart k f).division = s.division := rfl
@[simp] theorem modPart_nextDivision (s : State) (k : Nat) (f : Partition → Partition) : (s.modPart k f).nextDivision = s.nextDivision := rfl
@[simp] theorem modPart_hostPorts (s : State) (k : Nat) (f : Partition → Partition) : (s.modPart k f).hostPorts = s.hostPorts := rfl
@[simp] theorem modPart_nextPorts (s : State) (k : Nat) (f : Partition → Partition) : (s.modPart k f).nextPorts = s.nextPorts := rfl
@[simp] theorem modPart_peers (s : State) (k : Nat) (f : Partition → Partition) : (s.modPart k f).peers = s.peers := rfl
@[simp] theorem modPart_natop (s : State) (k : Nat) (f : Partition → Partition) : (s.modPart k f).natop = s.natop := rfl
@[simp] theorem modPart_serial (s : State) (k : Nat) (f : Partition → Partition) : (s.modPart k f).serial = s.serial := rfl
@[simp] theorem modPart_notices (s : State) (k : Nat) (f : Partition → Partition) : (s.modPart k f).notices = s.notices := rfl
@[simp] theorem modPart_untold (s : State) (k : Nat) (f : Partition → Partition) : (s.modPart k f).untold = s.untold := rfl

/-! ## `notify` changes `notices` alone -/

@[simp] theorem notify_cycle (s : State) (n : Notice) : (s.notify n).cycle = s.cycle := rfl
@[simp] theorem notify_mhz (s : State) (n : Notice) : (s.notify n).mhz = s.mhz := rfl
@[simp] theorem notify_stopped (s : State) (n : Notice) : (s.notify n).stopped = s.stopped := rfl
@[simp] theorem notify_watts (s : State) (n : Notice) : (s.notify n).watts = s.watts := rfl
@[simp] theorem notify_temp (s : State) (n : Notice) : (s.notify n).temp = s.temp := rfl
@[simp] theorem notify_l2 (s : State) (n : Notice) : (s.notify n).l2 = s.l2 := rfl
@[simp] theorem notify_cqTurns (s : State) (n : Notice) : (s.notify n).cqTurns = s.cqTurns := rfl
@[simp] theorem notify_cqFloors (s : State) (n : Notice) : (s.notify n).cqFloors = s.cqFloors := rfl
@[simp] theorem notify_aborts (s : State) (n : Notice) : (s.notify n).aborts = s.aborts := rfl
@[simp] theorem notify_agenda (s : State) (n : Notice) : (s.notify n).agenda = s.agenda := rfl
@[simp] theorem notify_free (s : State) (n : Notice) : (s.notify n).free = s.free := rfl
@[simp] theorem notify_nextKey (s : State) (n : Notice) : (s.notify n).nextKey = s.nextKey := rfl
@[simp] theorem notify_iss (s : State) (n : Notice) : (s.notify n).iss = s.iss := rfl
@[simp] theorem notify_groups (s : State) (n : Notice) : (s.notify n).groups = s.groups := rfl
@[simp] theorem notify_parts (s : State) (n : Notice) : (s.notify n).parts = s.parts := rfl
@[simp] theorem notify_cores (s : State) (n : Notice) : (s.notify n).cores = s.cores := rfl
@[simp] theorem notify_blocks (s : State) (n : Notice) : (s.notify n).blocks = s.blocks := rfl
@[simp] theorem notify_launches (s : State) (n : Notice) : (s.notify n).launches = s.launches := rfl
@[simp] theorem notify_regions (s : State) (n : Notice) : (s.notify n).regions = s.regions := rfl
@[simp] theorem notify_inboxes (s : State) (n : Notice) : (s.notify n).inboxes = s.inboxes := rfl
@[simp] theorem notify_engines (s : State) (n : Notice) : (s.notify n).engines = s.engines := rfl
@[simp] theorem notify_dies (s : State) (n : Notice) : (s.notify n).dies = s.dies := rfl
@[simp] theorem notify_mem (s : State) (n : Notice) : (s.notify n).mem = s.mem := rfl
@[simp] theorem notify_marks (s : State) (n : Notice) : (s.notify n).marks = s.marks := rfl
@[simp] theorem notify_l1s (s : State) (n : Notice) : (s.notify n).l1s = s.l1s := rfl
@[simp] theorem notify_owners (s : State) (n : Notice) : (s.notify n).owners = s.owners := rfl
@[simp] theorem notify_sharers (s : State) (n : Notice) : (s.notify n).sharers = s.sharers := rfl
@[simp] theorem notify_txs (s : State) (n : Notice) : (s.notify n).txs = s.txs := rfl
@[simp] theorem notify_flight (s : State) (n : Notice) : (s.notify n).flight = s.flight := rfl
@[simp] theorem notify_loads (s : State) (n : Notice) : (s.notify n).loads = s.loads := rfl
@[simp] theorem notify_tlb (s : State) (n : Notice) : (s.notify n).tlb = s.tlb := rfl
@[simp] theorem notify_walks (s : State) (n : Notice) : (s.notify n).walks = s.walks := rfl
@[simp] theorem notify_walkFaults (s : State) (n : Notice) : (s.notify n).walkFaults = s.walkFaults := rfl
@[simp] theorem notify_tickets (s : State) (n : Notice) : (s.notify n).tickets = s.tickets := rfl
@[simp] theorem notify_queues (s : State) (n : Notice) : (s.notify n).queues = s.queues := rfl
@[simp] theorem notify_copies (s : State) (n : Notice) : (s.notify n).copies = s.copies := rfl
@[simp] theorem notify_lands (s : State) (n : Notice) : (s.notify n).lands = s.lands := rfl
@[simp] theorem notify_micro (s : State) (n : Notice) : (s.notify n).micro = s.micro := rfl
@[simp] theorem notify_scatter (s : State) (n : Notice) : (s.notify n).scatter = s.scatter := rfl
@[simp] theorem notify_overflow (s : State) (n : Notice) : (s.notify n).overflow = s.overflow := rfl
@[simp] theorem notify_stitches (s : State) (n : Notice) : (s.notify n).stitches = s.stitches := rfl
@[simp] theorem notify_formed (s : State) (n : Notice) : (s.notify n).formed = s.formed := rfl
@[simp] theorem notify_swarmArms (s : State) (n : Notice) : (s.notify n).swarmArms = s.swarmArms := rfl
@[simp] theorem notify_due (s : State) (n : Notice) : (s.notify n).due = s.due := rfl
@[simp] theorem notify_kcounts (s : State) (n : Notice) : (s.notify n).kcounts = s.kcounts := rfl
@[simp] theorem notify_moves (s : State) (n : Notice) : (s.notify n).moves = s.moves := rfl
@[simp] theorem notify_moved (s : State) (n : Notice) : (s.notify n).moved = s.moved := rfl
@[simp] theorem notify_shoots (s : State) (n : Notice) : (s.notify n).shoots = s.shoots := rfl
@[simp] theorem notify_images (s : State) (n : Notice) : (s.notify n).images = s.images := rfl
@[simp] theorem notify_keys (s : State) (n : Notice) : (s.notify n).keys = s.keys := rfl
@[simp] theorem notify_links (s : State) (n : Notice) : (s.notify n).links = s.links := rfl
@[simp] theorem notify_division (s : State) (n : Notice) : (s.notify n).division = s.division := rfl
@[simp] theorem notify_nextDivision (s : State) (n : Notice) : (s.notify n).nextDivision = s.nextDivision := rfl
@[simp] theorem notify_hostPorts (s : State) (n : Notice) : (s.notify n).hostPorts = s.hostPorts := rfl
@[simp] theorem notify_nextPorts (s : State) (n : Notice) : (s.notify n).nextPorts = s.nextPorts := rfl
@[simp] theorem notify_peers (s : State) (n : Notice) : (s.notify n).peers = s.peers := rfl
@[simp] theorem notify_natop (s : State) (n : Notice) : (s.notify n).natop = s.natop := rfl
@[simp] theorem notify_serial (s : State) (n : Notice) : (s.notify n).serial = s.serial := rfl
@[simp] theorem notify_untold (s : State) (n : Notice) : (s.notify n).untold = s.untold := rfl

/-! ## `modGroup` changes `groups` alone -/

theorem modGroup_only (s : State) (g : Nat) (f : Group → Group) : s.modGroup g f = { s with groups := (s.modGroup g f).groups } := by
  unfold modGroup; split <;> rfl

@[simp] theorem modGroup_cycle (s : State) (g : Nat) (f : Group → Group) : (s.modGroup g f).cycle = s.cycle := by rw [modGroup_only]
@[simp] theorem modGroup_mhz (s : State) (g : Nat) (f : Group → Group) : (s.modGroup g f).mhz = s.mhz := by rw [modGroup_only]
@[simp] theorem modGroup_stopped (s : State) (g : Nat) (f : Group → Group) : (s.modGroup g f).stopped = s.stopped := by rw [modGroup_only]
@[simp] theorem modGroup_watts (s : State) (g : Nat) (f : Group → Group) : (s.modGroup g f).watts = s.watts := by rw [modGroup_only]
@[simp] theorem modGroup_temp (s : State) (g : Nat) (f : Group → Group) : (s.modGroup g f).temp = s.temp := by rw [modGroup_only]
@[simp] theorem modGroup_l2 (s : State) (g : Nat) (f : Group → Group) : (s.modGroup g f).l2 = s.l2 := by rw [modGroup_only]
@[simp] theorem modGroup_cqTurns (s : State) (g : Nat) (f : Group → Group) : (s.modGroup g f).cqTurns = s.cqTurns := by rw [modGroup_only]
@[simp] theorem modGroup_cqFloors (s : State) (g : Nat) (f : Group → Group) : (s.modGroup g f).cqFloors = s.cqFloors := by rw [modGroup_only]
@[simp] theorem modGroup_aborts (s : State) (g : Nat) (f : Group → Group) : (s.modGroup g f).aborts = s.aborts := by rw [modGroup_only]
@[simp] theorem modGroup_agenda (s : State) (g : Nat) (f : Group → Group) : (s.modGroup g f).agenda = s.agenda := by rw [modGroup_only]
@[simp] theorem modGroup_free (s : State) (g : Nat) (f : Group → Group) : (s.modGroup g f).free = s.free := by rw [modGroup_only]
@[simp] theorem modGroup_nextKey (s : State) (g : Nat) (f : Group → Group) : (s.modGroup g f).nextKey = s.nextKey := by rw [modGroup_only]
@[simp] theorem modGroup_iss (s : State) (g : Nat) (f : Group → Group) : (s.modGroup g f).iss = s.iss := by rw [modGroup_only]
@[simp] theorem modGroup_parts (s : State) (g : Nat) (f : Group → Group) : (s.modGroup g f).parts = s.parts := by rw [modGroup_only]
@[simp] theorem modGroup_cores (s : State) (g : Nat) (f : Group → Group) : (s.modGroup g f).cores = s.cores := by rw [modGroup_only]
@[simp] theorem modGroup_blocks (s : State) (g : Nat) (f : Group → Group) : (s.modGroup g f).blocks = s.blocks := by rw [modGroup_only]
@[simp] theorem modGroup_launches (s : State) (g : Nat) (f : Group → Group) : (s.modGroup g f).launches = s.launches := by rw [modGroup_only]
@[simp] theorem modGroup_regions (s : State) (g : Nat) (f : Group → Group) : (s.modGroup g f).regions = s.regions := by rw [modGroup_only]
@[simp] theorem modGroup_inboxes (s : State) (g : Nat) (f : Group → Group) : (s.modGroup g f).inboxes = s.inboxes := by rw [modGroup_only]
@[simp] theorem modGroup_engines (s : State) (g : Nat) (f : Group → Group) : (s.modGroup g f).engines = s.engines := by rw [modGroup_only]
@[simp] theorem modGroup_dies (s : State) (g : Nat) (f : Group → Group) : (s.modGroup g f).dies = s.dies := by rw [modGroup_only]
@[simp] theorem modGroup_mem (s : State) (g : Nat) (f : Group → Group) : (s.modGroup g f).mem = s.mem := by rw [modGroup_only]
@[simp] theorem modGroup_marks (s : State) (g : Nat) (f : Group → Group) : (s.modGroup g f).marks = s.marks := by rw [modGroup_only]
@[simp] theorem modGroup_l1s (s : State) (g : Nat) (f : Group → Group) : (s.modGroup g f).l1s = s.l1s := by rw [modGroup_only]
@[simp] theorem modGroup_owners (s : State) (g : Nat) (f : Group → Group) : (s.modGroup g f).owners = s.owners := by rw [modGroup_only]
@[simp] theorem modGroup_sharers (s : State) (g : Nat) (f : Group → Group) : (s.modGroup g f).sharers = s.sharers := by rw [modGroup_only]
@[simp] theorem modGroup_txs (s : State) (g : Nat) (f : Group → Group) : (s.modGroup g f).txs = s.txs := by rw [modGroup_only]
@[simp] theorem modGroup_flight (s : State) (g : Nat) (f : Group → Group) : (s.modGroup g f).flight = s.flight := by rw [modGroup_only]
@[simp] theorem modGroup_loads (s : State) (g : Nat) (f : Group → Group) : (s.modGroup g f).loads = s.loads := by rw [modGroup_only]
@[simp] theorem modGroup_tlb (s : State) (g : Nat) (f : Group → Group) : (s.modGroup g f).tlb = s.tlb := by rw [modGroup_only]
@[simp] theorem modGroup_walks (s : State) (g : Nat) (f : Group → Group) : (s.modGroup g f).walks = s.walks := by rw [modGroup_only]
@[simp] theorem modGroup_walkFaults (s : State) (g : Nat) (f : Group → Group) : (s.modGroup g f).walkFaults = s.walkFaults := by rw [modGroup_only]
@[simp] theorem modGroup_tickets (s : State) (g : Nat) (f : Group → Group) : (s.modGroup g f).tickets = s.tickets := by rw [modGroup_only]
@[simp] theorem modGroup_queues (s : State) (g : Nat) (f : Group → Group) : (s.modGroup g f).queues = s.queues := by rw [modGroup_only]
@[simp] theorem modGroup_copies (s : State) (g : Nat) (f : Group → Group) : (s.modGroup g f).copies = s.copies := by rw [modGroup_only]
@[simp] theorem modGroup_lands (s : State) (g : Nat) (f : Group → Group) : (s.modGroup g f).lands = s.lands := by rw [modGroup_only]
@[simp] theorem modGroup_micro (s : State) (g : Nat) (f : Group → Group) : (s.modGroup g f).micro = s.micro := by rw [modGroup_only]
@[simp] theorem modGroup_scatter (s : State) (g : Nat) (f : Group → Group) : (s.modGroup g f).scatter = s.scatter := by rw [modGroup_only]
@[simp] theorem modGroup_overflow (s : State) (g : Nat) (f : Group → Group) : (s.modGroup g f).overflow = s.overflow := by rw [modGroup_only]
@[simp] theorem modGroup_stitches (s : State) (g : Nat) (f : Group → Group) : (s.modGroup g f).stitches = s.stitches := by rw [modGroup_only]
@[simp] theorem modGroup_formed (s : State) (g : Nat) (f : Group → Group) : (s.modGroup g f).formed = s.formed := by rw [modGroup_only]
@[simp] theorem modGroup_swarmArms (s : State) (g : Nat) (f : Group → Group) : (s.modGroup g f).swarmArms = s.swarmArms := by rw [modGroup_only]
@[simp] theorem modGroup_due (s : State) (g : Nat) (f : Group → Group) : (s.modGroup g f).due = s.due := by rw [modGroup_only]
@[simp] theorem modGroup_kcounts (s : State) (g : Nat) (f : Group → Group) : (s.modGroup g f).kcounts = s.kcounts := by rw [modGroup_only]
@[simp] theorem modGroup_moves (s : State) (g : Nat) (f : Group → Group) : (s.modGroup g f).moves = s.moves := by rw [modGroup_only]
@[simp] theorem modGroup_moved (s : State) (g : Nat) (f : Group → Group) : (s.modGroup g f).moved = s.moved := by rw [modGroup_only]
@[simp] theorem modGroup_shoots (s : State) (g : Nat) (f : Group → Group) : (s.modGroup g f).shoots = s.shoots := by rw [modGroup_only]
@[simp] theorem modGroup_images (s : State) (g : Nat) (f : Group → Group) : (s.modGroup g f).images = s.images := by rw [modGroup_only]
@[simp] theorem modGroup_keys (s : State) (g : Nat) (f : Group → Group) : (s.modGroup g f).keys = s.keys := by rw [modGroup_only]
@[simp] theorem modGroup_links (s : State) (g : Nat) (f : Group → Group) : (s.modGroup g f).links = s.links := by rw [modGroup_only]
@[simp] theorem modGroup_division (s : State) (g : Nat) (f : Group → Group) : (s.modGroup g f).division = s.division := by rw [modGroup_only]
@[simp] theorem modGroup_nextDivision (s : State) (g : Nat) (f : Group → Group) : (s.modGroup g f).nextDivision = s.nextDivision := by rw [modGroup_only]
@[simp] theorem modGroup_hostPorts (s : State) (g : Nat) (f : Group → Group) : (s.modGroup g f).hostPorts = s.hostPorts := by rw [modGroup_only]
@[simp] theorem modGroup_nextPorts (s : State) (g : Nat) (f : Group → Group) : (s.modGroup g f).nextPorts = s.nextPorts := by rw [modGroup_only]
@[simp] theorem modGroup_peers (s : State) (g : Nat) (f : Group → Group) : (s.modGroup g f).peers = s.peers := by rw [modGroup_only]
@[simp] theorem modGroup_natop (s : State) (g : Nat) (f : Group → Group) : (s.modGroup g f).natop = s.natop := by rw [modGroup_only]
@[simp] theorem modGroup_serial (s : State) (g : Nat) (f : Group → Group) : (s.modGroup g f).serial = s.serial := by rw [modGroup_only]
@[simp] theorem modGroup_notices (s : State) (g : Nat) (f : Group → Group) : (s.modGroup g f).notices = s.notices := by rw [modGroup_only]
@[simp] theorem modGroup_untold (s : State) (g : Nat) (f : Group → Group) : (s.modGroup g f).untold = s.untold := by rw [modGroup_only]

/-! ## `modBlock` changes `blocks` alone -/

theorem modBlock_only (s : State) (b : Nat) (f : Block → Block) : s.modBlock b f = { s with blocks := (s.modBlock b f).blocks } := by
  unfold modBlock; split <;> rfl

@[simp] theorem modBlock_cycle (s : State) (b : Nat) (f : Block → Block) : (s.modBlock b f).cycle = s.cycle := by rw [modBlock_only]
@[simp] theorem modBlock_mhz (s : State) (b : Nat) (f : Block → Block) : (s.modBlock b f).mhz = s.mhz := by rw [modBlock_only]
@[simp] theorem modBlock_stopped (s : State) (b : Nat) (f : Block → Block) : (s.modBlock b f).stopped = s.stopped := by rw [modBlock_only]
@[simp] theorem modBlock_watts (s : State) (b : Nat) (f : Block → Block) : (s.modBlock b f).watts = s.watts := by rw [modBlock_only]
@[simp] theorem modBlock_temp (s : State) (b : Nat) (f : Block → Block) : (s.modBlock b f).temp = s.temp := by rw [modBlock_only]
@[simp] theorem modBlock_l2 (s : State) (b : Nat) (f : Block → Block) : (s.modBlock b f).l2 = s.l2 := by rw [modBlock_only]
@[simp] theorem modBlock_cqTurns (s : State) (b : Nat) (f : Block → Block) : (s.modBlock b f).cqTurns = s.cqTurns := by rw [modBlock_only]
@[simp] theorem modBlock_cqFloors (s : State) (b : Nat) (f : Block → Block) : (s.modBlock b f).cqFloors = s.cqFloors := by rw [modBlock_only]
@[simp] theorem modBlock_aborts (s : State) (b : Nat) (f : Block → Block) : (s.modBlock b f).aborts = s.aborts := by rw [modBlock_only]
@[simp] theorem modBlock_agenda (s : State) (b : Nat) (f : Block → Block) : (s.modBlock b f).agenda = s.agenda := by rw [modBlock_only]
@[simp] theorem modBlock_free (s : State) (b : Nat) (f : Block → Block) : (s.modBlock b f).free = s.free := by rw [modBlock_only]
@[simp] theorem modBlock_nextKey (s : State) (b : Nat) (f : Block → Block) : (s.modBlock b f).nextKey = s.nextKey := by rw [modBlock_only]
@[simp] theorem modBlock_iss (s : State) (b : Nat) (f : Block → Block) : (s.modBlock b f).iss = s.iss := by rw [modBlock_only]
@[simp] theorem modBlock_groups (s : State) (b : Nat) (f : Block → Block) : (s.modBlock b f).groups = s.groups := by rw [modBlock_only]
@[simp] theorem modBlock_parts (s : State) (b : Nat) (f : Block → Block) : (s.modBlock b f).parts = s.parts := by rw [modBlock_only]
@[simp] theorem modBlock_cores (s : State) (b : Nat) (f : Block → Block) : (s.modBlock b f).cores = s.cores := by rw [modBlock_only]
@[simp] theorem modBlock_launches (s : State) (b : Nat) (f : Block → Block) : (s.modBlock b f).launches = s.launches := by rw [modBlock_only]
@[simp] theorem modBlock_regions (s : State) (b : Nat) (f : Block → Block) : (s.modBlock b f).regions = s.regions := by rw [modBlock_only]
@[simp] theorem modBlock_inboxes (s : State) (b : Nat) (f : Block → Block) : (s.modBlock b f).inboxes = s.inboxes := by rw [modBlock_only]
@[simp] theorem modBlock_engines (s : State) (b : Nat) (f : Block → Block) : (s.modBlock b f).engines = s.engines := by rw [modBlock_only]
@[simp] theorem modBlock_dies (s : State) (b : Nat) (f : Block → Block) : (s.modBlock b f).dies = s.dies := by rw [modBlock_only]
@[simp] theorem modBlock_mem (s : State) (b : Nat) (f : Block → Block) : (s.modBlock b f).mem = s.mem := by rw [modBlock_only]
@[simp] theorem modBlock_marks (s : State) (b : Nat) (f : Block → Block) : (s.modBlock b f).marks = s.marks := by rw [modBlock_only]
@[simp] theorem modBlock_l1s (s : State) (b : Nat) (f : Block → Block) : (s.modBlock b f).l1s = s.l1s := by rw [modBlock_only]
@[simp] theorem modBlock_owners (s : State) (b : Nat) (f : Block → Block) : (s.modBlock b f).owners = s.owners := by rw [modBlock_only]
@[simp] theorem modBlock_sharers (s : State) (b : Nat) (f : Block → Block) : (s.modBlock b f).sharers = s.sharers := by rw [modBlock_only]
@[simp] theorem modBlock_txs (s : State) (b : Nat) (f : Block → Block) : (s.modBlock b f).txs = s.txs := by rw [modBlock_only]
@[simp] theorem modBlock_flight (s : State) (b : Nat) (f : Block → Block) : (s.modBlock b f).flight = s.flight := by rw [modBlock_only]
@[simp] theorem modBlock_loads (s : State) (b : Nat) (f : Block → Block) : (s.modBlock b f).loads = s.loads := by rw [modBlock_only]
@[simp] theorem modBlock_tlb (s : State) (b : Nat) (f : Block → Block) : (s.modBlock b f).tlb = s.tlb := by rw [modBlock_only]
@[simp] theorem modBlock_walks (s : State) (b : Nat) (f : Block → Block) : (s.modBlock b f).walks = s.walks := by rw [modBlock_only]
@[simp] theorem modBlock_walkFaults (s : State) (b : Nat) (f : Block → Block) : (s.modBlock b f).walkFaults = s.walkFaults := by rw [modBlock_only]
@[simp] theorem modBlock_tickets (s : State) (b : Nat) (f : Block → Block) : (s.modBlock b f).tickets = s.tickets := by rw [modBlock_only]
@[simp] theorem modBlock_queues (s : State) (b : Nat) (f : Block → Block) : (s.modBlock b f).queues = s.queues := by rw [modBlock_only]
@[simp] theorem modBlock_copies (s : State) (b : Nat) (f : Block → Block) : (s.modBlock b f).copies = s.copies := by rw [modBlock_only]
@[simp] theorem modBlock_lands (s : State) (b : Nat) (f : Block → Block) : (s.modBlock b f).lands = s.lands := by rw [modBlock_only]
@[simp] theorem modBlock_micro (s : State) (b : Nat) (f : Block → Block) : (s.modBlock b f).micro = s.micro := by rw [modBlock_only]
@[simp] theorem modBlock_scatter (s : State) (b : Nat) (f : Block → Block) : (s.modBlock b f).scatter = s.scatter := by rw [modBlock_only]
@[simp] theorem modBlock_overflow (s : State) (b : Nat) (f : Block → Block) : (s.modBlock b f).overflow = s.overflow := by rw [modBlock_only]
@[simp] theorem modBlock_stitches (s : State) (b : Nat) (f : Block → Block) : (s.modBlock b f).stitches = s.stitches := by rw [modBlock_only]
@[simp] theorem modBlock_formed (s : State) (b : Nat) (f : Block → Block) : (s.modBlock b f).formed = s.formed := by rw [modBlock_only]
@[simp] theorem modBlock_swarmArms (s : State) (b : Nat) (f : Block → Block) : (s.modBlock b f).swarmArms = s.swarmArms := by rw [modBlock_only]
@[simp] theorem modBlock_due (s : State) (b : Nat) (f : Block → Block) : (s.modBlock b f).due = s.due := by rw [modBlock_only]
@[simp] theorem modBlock_kcounts (s : State) (b : Nat) (f : Block → Block) : (s.modBlock b f).kcounts = s.kcounts := by rw [modBlock_only]
@[simp] theorem modBlock_moves (s : State) (b : Nat) (f : Block → Block) : (s.modBlock b f).moves = s.moves := by rw [modBlock_only]
@[simp] theorem modBlock_moved (s : State) (b : Nat) (f : Block → Block) : (s.modBlock b f).moved = s.moved := by rw [modBlock_only]
@[simp] theorem modBlock_shoots (s : State) (b : Nat) (f : Block → Block) : (s.modBlock b f).shoots = s.shoots := by rw [modBlock_only]
@[simp] theorem modBlock_images (s : State) (b : Nat) (f : Block → Block) : (s.modBlock b f).images = s.images := by rw [modBlock_only]
@[simp] theorem modBlock_keys (s : State) (b : Nat) (f : Block → Block) : (s.modBlock b f).keys = s.keys := by rw [modBlock_only]
@[simp] theorem modBlock_links (s : State) (b : Nat) (f : Block → Block) : (s.modBlock b f).links = s.links := by rw [modBlock_only]
@[simp] theorem modBlock_division (s : State) (b : Nat) (f : Block → Block) : (s.modBlock b f).division = s.division := by rw [modBlock_only]
@[simp] theorem modBlock_nextDivision (s : State) (b : Nat) (f : Block → Block) : (s.modBlock b f).nextDivision = s.nextDivision := by rw [modBlock_only]
@[simp] theorem modBlock_hostPorts (s : State) (b : Nat) (f : Block → Block) : (s.modBlock b f).hostPorts = s.hostPorts := by rw [modBlock_only]
@[simp] theorem modBlock_nextPorts (s : State) (b : Nat) (f : Block → Block) : (s.modBlock b f).nextPorts = s.nextPorts := by rw [modBlock_only]
@[simp] theorem modBlock_peers (s : State) (b : Nat) (f : Block → Block) : (s.modBlock b f).peers = s.peers := by rw [modBlock_only]
@[simp] theorem modBlock_natop (s : State) (b : Nat) (f : Block → Block) : (s.modBlock b f).natop = s.natop := by rw [modBlock_only]
@[simp] theorem modBlock_serial (s : State) (b : Nat) (f : Block → Block) : (s.modBlock b f).serial = s.serial := by rw [modBlock_only]
@[simp] theorem modBlock_notices (s : State) (b : Nat) (f : Block → Block) : (s.modBlock b f).notices = s.notices := by rw [modBlock_only]
@[simp] theorem modBlock_untold (s : State) (b : Nat) (f : Block → Block) : (s.modBlock b f).untold = s.untold := by rw [modBlock_only]

/-! ## `modLaunch` changes `launches` alone -/

theorem modLaunch_only (s : State) (l : Nat) (f : Launch → Launch) : s.modLaunch l f = { s with launches := (s.modLaunch l f).launches } := by
  unfold modLaunch; split <;> rfl

@[simp] theorem modLaunch_cycle (s : State) (l : Nat) (f : Launch → Launch) : (s.modLaunch l f).cycle = s.cycle := by rw [modLaunch_only]
@[simp] theorem modLaunch_mhz (s : State) (l : Nat) (f : Launch → Launch) : (s.modLaunch l f).mhz = s.mhz := by rw [modLaunch_only]
@[simp] theorem modLaunch_stopped (s : State) (l : Nat) (f : Launch → Launch) : (s.modLaunch l f).stopped = s.stopped := by rw [modLaunch_only]
@[simp] theorem modLaunch_watts (s : State) (l : Nat) (f : Launch → Launch) : (s.modLaunch l f).watts = s.watts := by rw [modLaunch_only]
@[simp] theorem modLaunch_temp (s : State) (l : Nat) (f : Launch → Launch) : (s.modLaunch l f).temp = s.temp := by rw [modLaunch_only]
@[simp] theorem modLaunch_l2 (s : State) (l : Nat) (f : Launch → Launch) : (s.modLaunch l f).l2 = s.l2 := by rw [modLaunch_only]
@[simp] theorem modLaunch_cqTurns (s : State) (l : Nat) (f : Launch → Launch) : (s.modLaunch l f).cqTurns = s.cqTurns := by rw [modLaunch_only]
@[simp] theorem modLaunch_cqFloors (s : State) (l : Nat) (f : Launch → Launch) : (s.modLaunch l f).cqFloors = s.cqFloors := by rw [modLaunch_only]
@[simp] theorem modLaunch_aborts (s : State) (l : Nat) (f : Launch → Launch) : (s.modLaunch l f).aborts = s.aborts := by rw [modLaunch_only]
@[simp] theorem modLaunch_agenda (s : State) (l : Nat) (f : Launch → Launch) : (s.modLaunch l f).agenda = s.agenda := by rw [modLaunch_only]
@[simp] theorem modLaunch_free (s : State) (l : Nat) (f : Launch → Launch) : (s.modLaunch l f).free = s.free := by rw [modLaunch_only]
@[simp] theorem modLaunch_nextKey (s : State) (l : Nat) (f : Launch → Launch) : (s.modLaunch l f).nextKey = s.nextKey := by rw [modLaunch_only]
@[simp] theorem modLaunch_iss (s : State) (l : Nat) (f : Launch → Launch) : (s.modLaunch l f).iss = s.iss := by rw [modLaunch_only]
@[simp] theorem modLaunch_groups (s : State) (l : Nat) (f : Launch → Launch) : (s.modLaunch l f).groups = s.groups := by rw [modLaunch_only]
@[simp] theorem modLaunch_parts (s : State) (l : Nat) (f : Launch → Launch) : (s.modLaunch l f).parts = s.parts := by rw [modLaunch_only]
@[simp] theorem modLaunch_cores (s : State) (l : Nat) (f : Launch → Launch) : (s.modLaunch l f).cores = s.cores := by rw [modLaunch_only]
@[simp] theorem modLaunch_blocks (s : State) (l : Nat) (f : Launch → Launch) : (s.modLaunch l f).blocks = s.blocks := by rw [modLaunch_only]
@[simp] theorem modLaunch_regions (s : State) (l : Nat) (f : Launch → Launch) : (s.modLaunch l f).regions = s.regions := by rw [modLaunch_only]
@[simp] theorem modLaunch_inboxes (s : State) (l : Nat) (f : Launch → Launch) : (s.modLaunch l f).inboxes = s.inboxes := by rw [modLaunch_only]
@[simp] theorem modLaunch_engines (s : State) (l : Nat) (f : Launch → Launch) : (s.modLaunch l f).engines = s.engines := by rw [modLaunch_only]
@[simp] theorem modLaunch_dies (s : State) (l : Nat) (f : Launch → Launch) : (s.modLaunch l f).dies = s.dies := by rw [modLaunch_only]
@[simp] theorem modLaunch_mem (s : State) (l : Nat) (f : Launch → Launch) : (s.modLaunch l f).mem = s.mem := by rw [modLaunch_only]
@[simp] theorem modLaunch_marks (s : State) (l : Nat) (f : Launch → Launch) : (s.modLaunch l f).marks = s.marks := by rw [modLaunch_only]
@[simp] theorem modLaunch_l1s (s : State) (l : Nat) (f : Launch → Launch) : (s.modLaunch l f).l1s = s.l1s := by rw [modLaunch_only]
@[simp] theorem modLaunch_owners (s : State) (l : Nat) (f : Launch → Launch) : (s.modLaunch l f).owners = s.owners := by rw [modLaunch_only]
@[simp] theorem modLaunch_sharers (s : State) (l : Nat) (f : Launch → Launch) : (s.modLaunch l f).sharers = s.sharers := by rw [modLaunch_only]
@[simp] theorem modLaunch_txs (s : State) (l : Nat) (f : Launch → Launch) : (s.modLaunch l f).txs = s.txs := by rw [modLaunch_only]
@[simp] theorem modLaunch_flight (s : State) (l : Nat) (f : Launch → Launch) : (s.modLaunch l f).flight = s.flight := by rw [modLaunch_only]
@[simp] theorem modLaunch_loads (s : State) (l : Nat) (f : Launch → Launch) : (s.modLaunch l f).loads = s.loads := by rw [modLaunch_only]
@[simp] theorem modLaunch_tlb (s : State) (l : Nat) (f : Launch → Launch) : (s.modLaunch l f).tlb = s.tlb := by rw [modLaunch_only]
@[simp] theorem modLaunch_walks (s : State) (l : Nat) (f : Launch → Launch) : (s.modLaunch l f).walks = s.walks := by rw [modLaunch_only]
@[simp] theorem modLaunch_walkFaults (s : State) (l : Nat) (f : Launch → Launch) : (s.modLaunch l f).walkFaults = s.walkFaults := by rw [modLaunch_only]
@[simp] theorem modLaunch_tickets (s : State) (l : Nat) (f : Launch → Launch) : (s.modLaunch l f).tickets = s.tickets := by rw [modLaunch_only]
@[simp] theorem modLaunch_queues (s : State) (l : Nat) (f : Launch → Launch) : (s.modLaunch l f).queues = s.queues := by rw [modLaunch_only]
@[simp] theorem modLaunch_copies (s : State) (l : Nat) (f : Launch → Launch) : (s.modLaunch l f).copies = s.copies := by rw [modLaunch_only]
@[simp] theorem modLaunch_lands (s : State) (l : Nat) (f : Launch → Launch) : (s.modLaunch l f).lands = s.lands := by rw [modLaunch_only]
@[simp] theorem modLaunch_micro (s : State) (l : Nat) (f : Launch → Launch) : (s.modLaunch l f).micro = s.micro := by rw [modLaunch_only]
@[simp] theorem modLaunch_scatter (s : State) (l : Nat) (f : Launch → Launch) : (s.modLaunch l f).scatter = s.scatter := by rw [modLaunch_only]
@[simp] theorem modLaunch_overflow (s : State) (l : Nat) (f : Launch → Launch) : (s.modLaunch l f).overflow = s.overflow := by rw [modLaunch_only]
@[simp] theorem modLaunch_stitches (s : State) (l : Nat) (f : Launch → Launch) : (s.modLaunch l f).stitches = s.stitches := by rw [modLaunch_only]
@[simp] theorem modLaunch_formed (s : State) (l : Nat) (f : Launch → Launch) : (s.modLaunch l f).formed = s.formed := by rw [modLaunch_only]
@[simp] theorem modLaunch_swarmArms (s : State) (l : Nat) (f : Launch → Launch) : (s.modLaunch l f).swarmArms = s.swarmArms := by rw [modLaunch_only]
@[simp] theorem modLaunch_due (s : State) (l : Nat) (f : Launch → Launch) : (s.modLaunch l f).due = s.due := by rw [modLaunch_only]
@[simp] theorem modLaunch_kcounts (s : State) (l : Nat) (f : Launch → Launch) : (s.modLaunch l f).kcounts = s.kcounts := by rw [modLaunch_only]
@[simp] theorem modLaunch_moves (s : State) (l : Nat) (f : Launch → Launch) : (s.modLaunch l f).moves = s.moves := by rw [modLaunch_only]
@[simp] theorem modLaunch_moved (s : State) (l : Nat) (f : Launch → Launch) : (s.modLaunch l f).moved = s.moved := by rw [modLaunch_only]
@[simp] theorem modLaunch_shoots (s : State) (l : Nat) (f : Launch → Launch) : (s.modLaunch l f).shoots = s.shoots := by rw [modLaunch_only]
@[simp] theorem modLaunch_images (s : State) (l : Nat) (f : Launch → Launch) : (s.modLaunch l f).images = s.images := by rw [modLaunch_only]
@[simp] theorem modLaunch_keys (s : State) (l : Nat) (f : Launch → Launch) : (s.modLaunch l f).keys = s.keys := by rw [modLaunch_only]
@[simp] theorem modLaunch_links (s : State) (l : Nat) (f : Launch → Launch) : (s.modLaunch l f).links = s.links := by rw [modLaunch_only]
@[simp] theorem modLaunch_division (s : State) (l : Nat) (f : Launch → Launch) : (s.modLaunch l f).division = s.division := by rw [modLaunch_only]
@[simp] theorem modLaunch_nextDivision (s : State) (l : Nat) (f : Launch → Launch) : (s.modLaunch l f).nextDivision = s.nextDivision := by rw [modLaunch_only]
@[simp] theorem modLaunch_hostPorts (s : State) (l : Nat) (f : Launch → Launch) : (s.modLaunch l f).hostPorts = s.hostPorts := by rw [modLaunch_only]
@[simp] theorem modLaunch_nextPorts (s : State) (l : Nat) (f : Launch → Launch) : (s.modLaunch l f).nextPorts = s.nextPorts := by rw [modLaunch_only]
@[simp] theorem modLaunch_peers (s : State) (l : Nat) (f : Launch → Launch) : (s.modLaunch l f).peers = s.peers := by rw [modLaunch_only]
@[simp] theorem modLaunch_natop (s : State) (l : Nat) (f : Launch → Launch) : (s.modLaunch l f).natop = s.natop := by rw [modLaunch_only]
@[simp] theorem modLaunch_serial (s : State) (l : Nat) (f : Launch → Launch) : (s.modLaunch l f).serial = s.serial := by rw [modLaunch_only]
@[simp] theorem modLaunch_notices (s : State) (l : Nat) (f : Launch → Launch) : (s.modLaunch l f).notices = s.notices := by rw [modLaunch_only]
@[simp] theorem modLaunch_untold (s : State) (l : Nat) (f : Launch → Launch) : (s.modLaunch l f).untold = s.untold := by rw [modLaunch_only]

/-! ## `modRegion` changes `regions` alone -/

theorem modRegion_only (s : State) (r : Nat) (f : Region → Region) : s.modRegion r f = { s with regions := (s.modRegion r f).regions } := by
  unfold modRegion; split <;> rfl

@[simp] theorem modRegion_cycle (s : State) (r : Nat) (f : Region → Region) : (s.modRegion r f).cycle = s.cycle := by rw [modRegion_only]
@[simp] theorem modRegion_mhz (s : State) (r : Nat) (f : Region → Region) : (s.modRegion r f).mhz = s.mhz := by rw [modRegion_only]
@[simp] theorem modRegion_stopped (s : State) (r : Nat) (f : Region → Region) : (s.modRegion r f).stopped = s.stopped := by rw [modRegion_only]
@[simp] theorem modRegion_watts (s : State) (r : Nat) (f : Region → Region) : (s.modRegion r f).watts = s.watts := by rw [modRegion_only]
@[simp] theorem modRegion_temp (s : State) (r : Nat) (f : Region → Region) : (s.modRegion r f).temp = s.temp := by rw [modRegion_only]
@[simp] theorem modRegion_l2 (s : State) (r : Nat) (f : Region → Region) : (s.modRegion r f).l2 = s.l2 := by rw [modRegion_only]
@[simp] theorem modRegion_cqTurns (s : State) (r : Nat) (f : Region → Region) : (s.modRegion r f).cqTurns = s.cqTurns := by rw [modRegion_only]
@[simp] theorem modRegion_cqFloors (s : State) (r : Nat) (f : Region → Region) : (s.modRegion r f).cqFloors = s.cqFloors := by rw [modRegion_only]
@[simp] theorem modRegion_aborts (s : State) (r : Nat) (f : Region → Region) : (s.modRegion r f).aborts = s.aborts := by rw [modRegion_only]
@[simp] theorem modRegion_agenda (s : State) (r : Nat) (f : Region → Region) : (s.modRegion r f).agenda = s.agenda := by rw [modRegion_only]
@[simp] theorem modRegion_free (s : State) (r : Nat) (f : Region → Region) : (s.modRegion r f).free = s.free := by rw [modRegion_only]
@[simp] theorem modRegion_nextKey (s : State) (r : Nat) (f : Region → Region) : (s.modRegion r f).nextKey = s.nextKey := by rw [modRegion_only]
@[simp] theorem modRegion_iss (s : State) (r : Nat) (f : Region → Region) : (s.modRegion r f).iss = s.iss := by rw [modRegion_only]
@[simp] theorem modRegion_groups (s : State) (r : Nat) (f : Region → Region) : (s.modRegion r f).groups = s.groups := by rw [modRegion_only]
@[simp] theorem modRegion_parts (s : State) (r : Nat) (f : Region → Region) : (s.modRegion r f).parts = s.parts := by rw [modRegion_only]
@[simp] theorem modRegion_cores (s : State) (r : Nat) (f : Region → Region) : (s.modRegion r f).cores = s.cores := by rw [modRegion_only]
@[simp] theorem modRegion_blocks (s : State) (r : Nat) (f : Region → Region) : (s.modRegion r f).blocks = s.blocks := by rw [modRegion_only]
@[simp] theorem modRegion_launches (s : State) (r : Nat) (f : Region → Region) : (s.modRegion r f).launches = s.launches := by rw [modRegion_only]
@[simp] theorem modRegion_inboxes (s : State) (r : Nat) (f : Region → Region) : (s.modRegion r f).inboxes = s.inboxes := by rw [modRegion_only]
@[simp] theorem modRegion_engines (s : State) (r : Nat) (f : Region → Region) : (s.modRegion r f).engines = s.engines := by rw [modRegion_only]
@[simp] theorem modRegion_dies (s : State) (r : Nat) (f : Region → Region) : (s.modRegion r f).dies = s.dies := by rw [modRegion_only]
@[simp] theorem modRegion_mem (s : State) (r : Nat) (f : Region → Region) : (s.modRegion r f).mem = s.mem := by rw [modRegion_only]
@[simp] theorem modRegion_marks (s : State) (r : Nat) (f : Region → Region) : (s.modRegion r f).marks = s.marks := by rw [modRegion_only]
@[simp] theorem modRegion_l1s (s : State) (r : Nat) (f : Region → Region) : (s.modRegion r f).l1s = s.l1s := by rw [modRegion_only]
@[simp] theorem modRegion_owners (s : State) (r : Nat) (f : Region → Region) : (s.modRegion r f).owners = s.owners := by rw [modRegion_only]
@[simp] theorem modRegion_sharers (s : State) (r : Nat) (f : Region → Region) : (s.modRegion r f).sharers = s.sharers := by rw [modRegion_only]
@[simp] theorem modRegion_txs (s : State) (r : Nat) (f : Region → Region) : (s.modRegion r f).txs = s.txs := by rw [modRegion_only]
@[simp] theorem modRegion_flight (s : State) (r : Nat) (f : Region → Region) : (s.modRegion r f).flight = s.flight := by rw [modRegion_only]
@[simp] theorem modRegion_loads (s : State) (r : Nat) (f : Region → Region) : (s.modRegion r f).loads = s.loads := by rw [modRegion_only]
@[simp] theorem modRegion_tlb (s : State) (r : Nat) (f : Region → Region) : (s.modRegion r f).tlb = s.tlb := by rw [modRegion_only]
@[simp] theorem modRegion_walks (s : State) (r : Nat) (f : Region → Region) : (s.modRegion r f).walks = s.walks := by rw [modRegion_only]
@[simp] theorem modRegion_walkFaults (s : State) (r : Nat) (f : Region → Region) : (s.modRegion r f).walkFaults = s.walkFaults := by rw [modRegion_only]
@[simp] theorem modRegion_tickets (s : State) (r : Nat) (f : Region → Region) : (s.modRegion r f).tickets = s.tickets := by rw [modRegion_only]
@[simp] theorem modRegion_queues (s : State) (r : Nat) (f : Region → Region) : (s.modRegion r f).queues = s.queues := by rw [modRegion_only]
@[simp] theorem modRegion_copies (s : State) (r : Nat) (f : Region → Region) : (s.modRegion r f).copies = s.copies := by rw [modRegion_only]
@[simp] theorem modRegion_lands (s : State) (r : Nat) (f : Region → Region) : (s.modRegion r f).lands = s.lands := by rw [modRegion_only]
@[simp] theorem modRegion_micro (s : State) (r : Nat) (f : Region → Region) : (s.modRegion r f).micro = s.micro := by rw [modRegion_only]
@[simp] theorem modRegion_scatter (s : State) (r : Nat) (f : Region → Region) : (s.modRegion r f).scatter = s.scatter := by rw [modRegion_only]
@[simp] theorem modRegion_overflow (s : State) (r : Nat) (f : Region → Region) : (s.modRegion r f).overflow = s.overflow := by rw [modRegion_only]
@[simp] theorem modRegion_stitches (s : State) (r : Nat) (f : Region → Region) : (s.modRegion r f).stitches = s.stitches := by rw [modRegion_only]
@[simp] theorem modRegion_formed (s : State) (r : Nat) (f : Region → Region) : (s.modRegion r f).formed = s.formed := by rw [modRegion_only]
@[simp] theorem modRegion_swarmArms (s : State) (r : Nat) (f : Region → Region) : (s.modRegion r f).swarmArms = s.swarmArms := by rw [modRegion_only]
@[simp] theorem modRegion_due (s : State) (r : Nat) (f : Region → Region) : (s.modRegion r f).due = s.due := by rw [modRegion_only]
@[simp] theorem modRegion_kcounts (s : State) (r : Nat) (f : Region → Region) : (s.modRegion r f).kcounts = s.kcounts := by rw [modRegion_only]
@[simp] theorem modRegion_moves (s : State) (r : Nat) (f : Region → Region) : (s.modRegion r f).moves = s.moves := by rw [modRegion_only]
@[simp] theorem modRegion_moved (s : State) (r : Nat) (f : Region → Region) : (s.modRegion r f).moved = s.moved := by rw [modRegion_only]
@[simp] theorem modRegion_shoots (s : State) (r : Nat) (f : Region → Region) : (s.modRegion r f).shoots = s.shoots := by rw [modRegion_only]
@[simp] theorem modRegion_images (s : State) (r : Nat) (f : Region → Region) : (s.modRegion r f).images = s.images := by rw [modRegion_only]
@[simp] theorem modRegion_keys (s : State) (r : Nat) (f : Region → Region) : (s.modRegion r f).keys = s.keys := by rw [modRegion_only]
@[simp] theorem modRegion_links (s : State) (r : Nat) (f : Region → Region) : (s.modRegion r f).links = s.links := by rw [modRegion_only]
@[simp] theorem modRegion_division (s : State) (r : Nat) (f : Region → Region) : (s.modRegion r f).division = s.division := by rw [modRegion_only]
@[simp] theorem modRegion_nextDivision (s : State) (r : Nat) (f : Region → Region) : (s.modRegion r f).nextDivision = s.nextDivision := by rw [modRegion_only]
@[simp] theorem modRegion_hostPorts (s : State) (r : Nat) (f : Region → Region) : (s.modRegion r f).hostPorts = s.hostPorts := by rw [modRegion_only]
@[simp] theorem modRegion_nextPorts (s : State) (r : Nat) (f : Region → Region) : (s.modRegion r f).nextPorts = s.nextPorts := by rw [modRegion_only]
@[simp] theorem modRegion_peers (s : State) (r : Nat) (f : Region → Region) : (s.modRegion r f).peers = s.peers := by rw [modRegion_only]
@[simp] theorem modRegion_natop (s : State) (r : Nat) (f : Region → Region) : (s.modRegion r f).natop = s.natop := by rw [modRegion_only]
@[simp] theorem modRegion_serial (s : State) (r : Nat) (f : Region → Region) : (s.modRegion r f).serial = s.serial := by rw [modRegion_only]
@[simp] theorem modRegion_notices (s : State) (r : Nat) (f : Region → Region) : (s.modRegion r f).notices = s.notices := by rw [modRegion_only]
@[simp] theorem modRegion_untold (s : State) (r : Nat) (f : Region → Region) : (s.modRegion r f).untold = s.untold := by rw [modRegion_only]

end State
end Sys2Proof.Machine
end

