-- ==== Sys2Proof/Laws/Lanes.lean ====
section
/-! SUPPORT. What the shared operations that run a meaning for a bundle can do: one lemma for each way a thread's
part ends. -/

namespace Sys2Proof.Machine

/-- No thread traps: nothing happens. -/
theorem trapLanes_nil (s : State) : s.trapLanes [] = s := rfl

/-- A thread that passes the checks and completes. -/
theorem laneStep_ok {i : Instr} {f : State → State → Nat → LaneRes} {s0 s' : State} {a : Lanes} {t : Nat}
    (h : laneCheck i s0 t = none) (ha : a.first = none) (hf : f s0 (a.s.advance t) t = .ok s') :
    laneStep i f s0 a t = { a with s := s'.settle t } := by
  simp only [laneStep, h, ha, hf]

/-- A thread that passes the checks and waits. -/
theorem laneStep_wait {i : Instr} {f : State → State → Nat → LaneRes} {s0 s' : State} {a : Lanes} {t : Nat}
    {w : WaitOn} (h : laneCheck i s0 t = none) (ha : a.first = none) (hf : f s0 (a.s.advance t) t = .wait s' w) :
    laneStep i f s0 a t =
      { a with s := s'.stay t w, first := if holdsBack i w then some t else none } := by
  simp only [laneStep, h, ha, hf]

/-- A thread that passes the checks behind a thread that waits waits too. -/
theorem laneStep_behind {i : Instr} {f : State → State → Nat → LaneRes} {s0 : State} {a : Lanes} {t u : Nat}
    (h : laneCheck i s0 t = none) (ha : a.first = some u) :
    laneStep i f s0 a t = { a with s := a.s.stay t (.behind u) } := by
  simp only [laneStep, h, ha]

/-- A thread that passes the checks and traps. -/
theorem laneStep_trap {i : Instr} {f : State → State → Nat → LaneRes} {s0 : State} {a : Lanes} {t : Nat}
    {ti : TrapInfo} (h : laneCheck i s0 t = none) (ha : a.first = none) (hf : f s0 (a.s.advance t) t = .trap ti) :
    laneStep i f s0 a t = { s := a.s.dropFaults t, traps := a.traps ++ [(t, ti)] } := by
  simp only [laneStep, h, ha, hf]

/-- A thread that does not pass the checks traps. -/
theorem laneStep_check {i : Instr} {f : State → State → Nat → LaneRes} {s0 : State} {a : Lanes} {t : Nat}
    {ti : TrapInfo} (h : laneCheck i s0 t = some ti) :
    laneStep i f s0 a t = { a with traps := a.traps ++ [(t, ti)] } := by
  simp only [laneStep, h]

/-- Threads that all pass the checks, and whose parts all complete, leave what the parts leave. -/
theorem foldl_laneStep {i : Instr} {f : State → State → Nat → LaneRes} {k : State → Nat → State} {s0 : State}
    (ts : List Nat) (h : ∀ t ∈ ts, laneCheck i s0 t = none) (hf : ∀ st, ∀ t ∈ ts, f s0 st t = .ok (k st t))
    (s : State) : ts.foldl (laneStep i f s0) { s := s } = { s := ts.foldl (laneDone k) s } := by
  induction ts generalizing s with
  | nil => rfl
  | cons t r ih =>
    rw [List.foldl_cons, laneStep_ok (h t (by simp)) rfl (hf _ t (by simp)), List.foldl_cons]
    exact ih (fun u hu => h u (by simp [hu])) (fun st u hu => hf st u (by simp [hu])) _

/-- A bundle whose threads all pass the checks and complete. -/
theorem runLanes_done {i : Instr} {f : State → State → Nat → LaneRes} {k : State → Nat → State} {s : State}
    (h : Passes i s) (hf : ∀ st, ∀ t ∈ s.iss.ts, f s st t = .ok (k st t)) :
    runLanes i f s = .next (bundleDone k s) := by
  unfold runLanes
  rw [foldl_laneStep _ h hf]
  rfl

/-- A lone thread that completes. -/
theorem runLanes_alone_ok {i : Instr} {f : State → State → Nat → LaneRes} {s s' : State} {t : Nat}
    (h : Alone i s t) (hf : f s (s.advance t) t = .ok s') : runLanes i f s = .next (s'.settle t) := by
  simp only [runLanes, h.1, List.foldl_cons, List.foldl_nil, laneStep_ok (a := { s := s }) h.2 rfl hf, trapLanes_nil]

/-- A lone thread that waits. -/
theorem runLanes_alone_wait {i : Instr} {f : State → State → Nat → LaneRes} {s s' : State} {t : Nat} {w : WaitOn}
    (h : Alone i s t) (hf : f s (s.advance t) t = .wait s' w) : runLanes i f s = .next (s'.stay t w) := by
  simp only [runLanes, h.1, List.foldl_cons, List.foldl_nil, laneStep_wait (a := { s := s }) h.2 rfl hf, trapLanes_nil]

/-- A lone thread that traps. -/
theorem runLanes_alone_trap {i : Instr} {f : State → State → Nat → LaneRes} {s : State} {t : Nat} {ti : TrapInfo}
    (h : Alone i s t) (hf : f s (s.advance t) t = .trap ti) :
    runLanes i f s = .next ((s.dropFaults t).trapLanes [(t, ti)]) := by
  simp only [runLanes, h.1, List.foldl_cons, List.foldl_nil, laneStep_trap (a := { s := s }) h.2 rfl hf, List.nil_append]

/-- A lone thread that does not pass the checks. -/
theorem runLanes_alone_check {i : Instr} {f : State → State → Nat → LaneRes} {s : State} {t : Nat} {ti : TrapInfo}
    (h : s.iss.ts = [t]) (hc : laneCheck i s t = some ti) :
    runLanes i f s = .next (s.trapLanes [(t, ti)]) := by
  simp only [runLanes, h, List.foldl_cons, List.foldl_nil, laneStep_check hc, List.nil_append]

/-- An instruction whose effect on a thread is Put(D, v). -/
theorem putLanes_done {i : Instr} {ty : Ty} {d : Field} {v : State → Nat → Int} {s : State} (h : Passes i s) :
    putLanes i ty d v s = .next (bundleDone (fun st t => st.putTy t ty d (v s t)) s) :=
  runLanes_done h fun _ _ _ => rfl

/-- An instruction whose effect on a thread is one 32-bit register. -/
theorem regLanes_done {i : Instr} {d : Field} {v : State → Nat → Word} {s : State} (h : Passes i s) :
    regLanes i d v s = .next (bundleDone (fun st t => st.setReg t d (v s t)) s) :=
  runLanes_done h fun _ _ _ => rfl

/-- An instruction whose effect on a thread is one predicate. -/
theorem predLanes_done {i : Instr} {c : BitVec 3} {v : State → Nat → Bool} {s : State} (h : Passes i s) :
    predLanes i c v s = .next (bundleDone (fun st t => st.setPred t c (v s t)) s) :=
  runLanes_done h fun _ _ _ => rfl

/-- Where all threads of the bundle pass the checks, the cross-thread instructions see them all. -/
theorem lanesOk_all {i : Instr} {s : State} (h : Passes i s) : lanesOk i s = s.iss.ts := by
  unfold lanesOk
  exact List.filter_eq_self.mpr fun t ht => by rw [h t ht]; rfl

/-! ## What the updates of threads leave alone -/

namespace State

theorem modThread_only (s : State) (g t : Nat) (f : Thread → Thread) :
    s.modThread g t f = { s with groups := (s.modThread g t f).groups } := modGroup_only _ _ _

theorem modTh_only (s : State) (t : Nat) (f : Thread → Thread) :
    s.modTh t f = { s with groups := (s.modTh t f).groups } := modGroup_only _ _ _

theorem setPc_only (s : State) (t : Nat) (pc : DWord) :
    s.setPc t pc = { s with groups := (s.setPc t pc).groups } := modGroup_only _ _ _

theorem setPtr_only (s : State) (t n : Nat) (v : DWord) :
    s.setPtr t n v = { s with groups := (s.setPtr t n v).groups } := modGroup_only _ _ _

theorem setPred_only (s : State) (t : Nat) (c : BitVec 3) (v : Bool) :
    s.setPred t c v = { s with groups := (s.setPred t c v).groups } := modGroup_only _ _ _

theorem advance_only (s : State) (t : Nat) : s.advance t = { s with groups := (s.advance t).groups } :=
  modGroup_only _ _ _

theorem stay_only (s : State) (t : Nat) (w : WaitOn) : s.stay t w = { s with groups := (s.stay t w).groups } :=
  modGroup_only _ _ _

theorem writeRegOf_only (s : State) (g t f : Nat) (v : Word) :
    s.writeRegOf g t f v = { s with groups := (s.writeRegOf g t f v).groups } := by
  unfold writeRegOf
  split
  · exact modGroup_only _ _ _
  · exact modGroup_only _ _ _

theorem setReg_only (s : State) (t : Nat) (f : Field) (v : Word) :
    s.setReg t f v = { s with groups := (s.setReg t f v).groups } := writeRegOf_only _ _ _ _ _

theorem foldl_groups_only {f : State → Nat → State} (hf : ∀ s i, f s i = { s with groups := (f s i).groups })
    (l : List Nat) (s : State) : l.foldl f s = { s with groups := (l.foldl f s).groups } := by
  induction l generalizing s with
  | nil => rfl
  | cons i r ih =>
    rw [List.foldl_cons, ih, hf]

theorem setRun_only (s : State) (t : Nat) (f : Field) (vs : List Word) :
    s.setRun t f vs = { s with groups := (s.setRun t f vs).groups } :=
  foldl_groups_only (fun _ _ => writeRegOf_only _ _ _ _ _) _ _

theorem setPair_only (s : State) (t : Nat) (f : Field) (v : DWord) :
    s.setPair t f v = { s with groups := (s.setPair t f v).groups } := setRun_only _ _ _ _

theorem putTy_only (s : State) (t : Nat) (ty : Ty) (f : Field) (v : Int) :
    s.putTy t ty f v = { s with groups := (s.putTy t ty f v).groups } := by
  unfold putTy
  dsimp only
  split
  · exact setPair_only _ _ _ _
  · split
    · exact setReg_only _ _ _ _
    · exact setReg_only _ _ _ _

theorem settle_only (s : State) (t : Nat) :
    s.settle t = { s with groups := (s.settle t).groups, walkFaults := (s.settle t).walkFaults } := by
  unfold settle
  rw [modTh_only]
  rfl

/-! What an access of a thread does before it goes to memory: bits that wait, a request, and the core given up. -/

theorem setPend_only (s : State) (g t : Nat) (dst : List Nat) :
    s.setPend g t dst = { s with groups := (s.setPend g t dst).groups } := by
  unfold setPend
  rw [modGroup_only, modThread_only]

theorem clearPend_only (s : State) (g t : Nat) (dst : List Nat) :
    s.clearPend g t dst = { s with groups := (s.clearPend g t dst).groups } := by
  unfold clearPend
  rw [modGroup_only, modThread_only]

theorem ask_only (s : State) (q : LoadReq) : s.ask q =
    { s with groups := (s.ask q).groups, loads := s.loads ++ [q], nextKey := s.nextKey + 1 } := by
  unfold ask fresh
  rw [setPend_only]

theorem leaveCore_only (s : State) (g : Nat) : s.leaveCore g = { s with cores := (s.leaveCore g).cores } := by
  unfold leaveCore
  split <;> rfl

theorem noteUnfenced_only (s : State) (t c pa n : Nat) :
    s.noteUnfenced t c pa n = { s with groups := (s.noteUnfenced t c pa n).groups } := modTh_only _ _ _

@[simp] theorem ask_target (s : State) (q : LoadReq) (d pa : Nat) : (s.ask q).target d pa = s.target d pa := by
  rw [ask_only]; rfl
@[simp] theorem ask_homeDie (s : State) (q : LoadReq) (d pa : Nat) : (s.ask q).homeDie d pa = s.homeDie d pa := by
  rw [ask_only]; rfl
@[simp] theorem ask_homeSlice (s : State) (q : LoadReq) (d pa : Nat) :
    (s.ask q).homeSlice d pa = s.homeSlice d pa := by rw [ask_only]; rfl
@[simp] theorem ask_accessFail (s : State) (q : LoadReq) (d pa : Nat) :
    (s.ask q).accessFail d pa = s.accessFail d pa := by rw [ask_only]; rfl
@[simp] theorem leaveCore_homeDie (s : State) (g d pa : Nat) : (s.leaveCore g).homeDie d pa = s.homeDie d pa := by
  rw [leaveCore_only]; rfl
@[simp] theorem leaveCore_accessFail (s : State) (g d pa : Nat) :
    (s.leaveCore g).accessFail d pa = s.accessFail d pa := by rw [leaveCore_only]; rfl
@[simp] theorem leaveCore_l1Has (s : State) (g c pa n : Nat) : (s.leaveCore g).l1Has c pa n = s.l1Has c pa n := by
  rw [leaveCore_only]; rfl
@[simp] theorem leaveCore_l1Bytes (s : State) (g c pa n : Nat) :
    (s.leaveCore g).l1Bytes c pa n = s.l1Bytes c pa n := by rw [leaveCore_only]; rfl
@[simp] theorem leaveCore_l1Marked (s : State) (g c pa n : Nat) :
    (s.leaveCore g).l1Marked c pa n = s.l1Marked c pa n := by rw [leaveCore_only]; rfl

/-- DONE of a sequencer port is a device register. -/
theorem isDone_remote {s : State} {d pa : Nat} (n : Nat) (h : s.isRemote d pa = false) : s.isDone d pa n = false := by
  unfold isRemote at h
  unfold isDone
  split <;> simp_all

end State
end Sys2Proof.Machine
end

