-- ==== Sys2Proof/Laws/Lists.lean ====
section
/-! SUPPORT. Laws of keyed lists and byte stores: a read after a write, and the canonical form. -/

namespace Sys2Proof.Machine

variable {α : Type}

theorem risingFrom_mono {b c : Nat} {l : List (Nat × α)} (h : risingFrom c l = true) (hb : b ≤ c) :
    risingFrom b l = true := by
  cases l with
  | nil => rfl
  | cons e r =>
    simp only [risingFrom, Bool.and_eq_true, decide_eq_true_eq] at *
    exact ⟨by omega, h.2⟩

theorem lget_of_rising {b k : Nat} {l : List (Nat × α)} (h : risingFrom b l = true) (hk : k < b) :
    lget k l = none := by
  induction l generalizing b with
  | nil => rfl
  | cons e r ih =>
    simp only [risingFrom, Bool.and_eq_true, decide_eq_true_eq] at h
    simp only [lget]
    rw [if_neg (by omega)]
    exact ih h.2 (by omega)

/-- The bound key reads as the value bound to it. -/
theorem lget_lput_self (k : Nat) (v : α) (l : List (Nat × α)) : lget k (lput k v l) = some v := by
  induction l with
  | nil => simp [lput, lget]
  | cons e r ih =>
    obtain ⟨j, w⟩ := e
    simp only [lput]
    split
    · simp [lget]
    · split
      · simp [lget]
      · rename_i h1 h2
        simp only [lget]
        rw [if_neg (fun h => h1 h.symm), ih]

/-- Every other key reads as before. -/
theorem lget_lput_ne {j k : Nat} (h : j ≠ k) (v : α) (l : List (Nat × α)) :
    lget j (lput k v l) = lget j l := by
  induction l with
  | nil => simp [lput, lget, Ne.symm h]
  | cons e r ih =>
    obtain ⟨i, w⟩ := e
    simp only [lput]
    split
    · rename_i h1; subst h1; simp [lget, Ne.symm h]
    · split
      · simp only [lget]; rw [if_neg (Ne.symm h)]
      · simp only [lget, ih]

/-- Keys that rise stay so. -/
theorem rising_lput {b k : Nat} {v : α} {l : List (Nat × α)} (h : risingFrom b l = true) (hb : b ≤ k) :
    risingFrom b (lput k v l) = true := by
  induction l generalizing b with
  | nil => simp [lput, risingFrom, hb]
  | cons e r ih =>
    obtain ⟨i, w⟩ := e
    simp only [risingFrom, Bool.and_eq_true, decide_eq_true_eq] at h
    simp only [lput]
    split
    · rename_i h1; subst h1; simp only [risingFrom, Bool.and_eq_true, decide_eq_true_eq]; exact h
    · split
      · simp only [risingFrom, Bool.and_eq_true, decide_eq_true_eq]
        exact ⟨hb, by omega, risingFrom_mono h.2 (by omega)⟩
      · simp only [risingFrom, Bool.and_eq_true, decide_eq_true_eq]
        exact ⟨h.1, ih h.2 (by omega)⟩

theorem all_lput {k : Nat} {v : α} {p : Nat × α → Bool} {l : List (Nat × α)} (h : l.all p = true)
    (hv : p (k, v) = true) : (lput k v l).all p = true := by
  induction l with
  | nil => simp [lput, hv]
  | cons e r ih =>
    obtain ⟨i, w⟩ := e
    simp only [List.all_cons, Bool.and_eq_true] at h
    simp only [lput]
    split
    · simp [hv, h.2]
    · split
      · simp [hv, h.1, h.2]
      · simp [h.1, ih h.2]

theorem rising_filter {b : Nat} {p : Nat × α → Bool} {l : List (Nat × α)} (h : risingFrom b l = true) :
    risingFrom b (l.filter p) = true := by
  induction l generalizing b with
  | nil => rfl
  | cons e r ih =>
    obtain ⟨i, w⟩ := e
    simp only [risingFrom, Bool.and_eq_true, decide_eq_true_eq] at h
    simp only [List.filter_cons]
    split
    · simp only [risingFrom, Bool.and_eq_true, decide_eq_true_eq]
      exact ⟨h.1, ih h.2⟩
    · exact risingFrom_mono (ih h.2) (by omega)

theorem all_filter {p q : Nat × α → Bool} {l : List (Nat × α)} (h : l.all q = true) :
    (l.filter p).all q = true := by
  simp only [List.all_eq_true, List.mem_filter] at *
  exact fun x hx => h x hx.1

/-- A store that leaves entries out keeps its form. -/
theorem canonical_filter [DecidableEq α] {d : α} {p : Nat × α → Bool} {l : List (Nat × α)}
    (h : canonical d l = true) : canonical d (l.filter p) = true := by
  simp only [canonical, Bool.and_eq_true] at *
  exact ⟨rising_filter h.1, all_filter h.2⟩

/-- A binding keeps the canonical form. -/
theorem canonical_sput [DecidableEq α] {d v : α} {k : Nat} {l : List (Nat × α)}
    (h : canonical d l = true) : canonical d (sput d k v l) = true := by
  unfold sput
  split
  · exact canonical_filter h
  · rename_i hv
    simp only [canonical, Bool.and_eq_true] at *
    exact ⟨rising_lput h.1 (Nat.zero_le k), all_lput h.2 (by simpa using hv)⟩

theorem lget_ldel_self (k : Nat) (l : List (Nat × α)) : lget k (ldel k l) = none := by
  induction l with
  | nil => rfl
  | cons e r ih =>
    obtain ⟨i, w⟩ := e
    simp only [ldel, List.filter_cons] at *
    split
    · rename_i h
      simp only [decide_eq_true_eq] at h
      simp only [lget]
      rw [if_neg h]; exact ih
    · exact ih

theorem lget_ldel_ne {j k : Nat} (h : j ≠ k) (l : List (Nat × α)) : lget j (ldel k l) = lget j l := by
  induction l with
  | nil => rfl
  | cons e r ih =>
    obtain ⟨i, w⟩ := e
    simp only [ldel, List.filter_cons] at *
    split
    · simp only [lget, ih]
    · rename_i hh
      simp only [decide_eq_true_eq, Decidable.not_not] at hh
      simp only [lget]
      rw [if_neg (by omega)]; exact ih

/-! ## Bytes -/

/-- A byte reads as it was written. -/
theorem readByte_writeByte_self (m : List Host.Cell) (a : Nat) (b : Byte) :
    readByte (writeByte m a b) a = b := by
  unfold readByte writeByte sput lgetD
  split
  · rename_i h; rw [lget_ldel_self, h]; rfl
  · rw [lget_lput_self]; rfl

/-- Every other byte reads as before. -/
theorem readByte_writeByte_ne {a c : Nat} (h : c ≠ a) (m : List Host.Cell) (b : Byte) :
    readByte (writeByte m a b) c = readByte m c := by
  unfold readByte writeByte sput lgetD
  split
  · rw [lget_ldel_ne h]
  · rw [lget_lput_ne h]

/-- A write of one byte keeps the canonical form. -/
theorem wf_writeByte {m : List Host.Cell} (h : Memory.wf m = true) (a : Nat) (b : Byte) :
    Memory.wf (writeByte m a b) = true := canonical_sput h

/-- A write keeps the canonical form. -/
theorem wf_writeBytes {m : List Host.Cell} (h : Memory.wf m = true) (a : Nat) (bs : List Byte) :
    Memory.wf (writeBytes m a bs) = true := by
  induction bs generalizing m a with
  | nil => exact h
  | cons b r ih => exact ih (wf_writeByte h a b) (a + 1)

/-- Leaving bytes out keeps the canonical form. -/
theorem wf_filter {m : List Host.Cell} (h : Memory.wf m = true) (p : Host.Cell → Bool) :
    Memory.wf (m.filter p) = true := canonical_filter h

/-- Writes folded over a list keep the canonical form. -/
theorem wf_fold {β : Type} (f : β → Nat) (v : β → Byte) (l : List β) {m : List Host.Cell}
    (h : Memory.wf m = true) : Memory.wf (l.foldl (fun m c => writeByte m (f c) (v c)) m) = true := by
  induction l generalizing m with
  | nil => exact h
  | cons c r ih => exact ih (wf_writeByte h _ _)

/-- Bytes outside those written read as before. -/
theorem readByte_writeBytes_out {m : List Host.Cell} {a c : Nat} {bs : List Byte}
    (h : c < a ∨ a + bs.length ≤ c) : readByte (writeBytes m a bs) c = readByte m c := by
  induction bs generalizing m a with
  | nil => rfl
  | cons b r ih =>
    simp only [List.length_cons] at h
    simp only [writeBytes]
    rw [ih (by omega), readByte_writeByte_ne (by omega)]

/-- Bytes read as they were written. -/
theorem readByte_writeBytes_in {m : List Host.Cell} {a i : Nat} {bs : List Byte} (h : i < bs.length) :
    readByte (writeBytes m a bs) (a + i) = bs[i] := by
  induction bs generalizing m a i with
  | nil => simp at h
  | cons b r ih =>
    simp only [writeBytes]
    cases i with
    | zero => rw [readByte_writeBytes_out (by omega)]; exact readByte_writeByte_self m a b
    | succ j =>
      simp only [List.length_cons, Nat.add_lt_add_iff_right] at h
      have := ih (m := writeByte m a b) (a := a + 1) h
      rw [show a + (j + 1) = a + 1 + j by omega]
      simpa using this

/-- A read of what was written. -/
theorem readBytes_writeBytes (m : List Host.Cell) (a : Nat) (bs : List Byte) :
    readBytes (writeBytes m a bs) a bs.length = bs := by
  suffices H : ∀ (m' : List Host.Cell) (a : Nat) (bs : List Byte),
      (∀ i (h : i < bs.length), readByte m' (a + i) = bs[i]) → readBytes m' a bs.length = bs from
    H _ _ _ fun _ h => readByte_writeBytes_in h
  intro m' a bs
  induction bs generalizing a with
  | nil => intro _; rfl
  | cons b r ih =>
    intro h
    simp only [List.length_cons, readBytes]
    congr 1
    · exact h 0 (by simp)
    · refine ih (a + 1) fun i hi => ?_
      have := h (i + 1) (by simpa using hi)
      rw [show a + 1 + i = a + (i + 1) by omega]
      simpa using this

/-- Little-endian bytes of a number that fits give the number back (R10). -/
theorem ofBytes_toBytes (n v : Nat) : ofBytes (toBytes n v) = v % 256 ^ n := by
  induction n generalizing v with
  | zero => simp [toBytes, ofBytes, Nat.mod_one]
  | succ n ih =>
    simp only [toBytes, ofBytes, ih, BitVec.toNat_ofNat]
    rw [show 256 ^ (n + 1) = 256 * 256 ^ n by rw [Nat.pow_succ, Nat.mul_comm], Nat.mod_mul]

@[simp] theorem wordsOf_toBytes (w : Word) : wordsOf 1 (toBytes 4 w.toNat) = [w] := by
  have e : (toBytes 4 w.toNat).take 4 = toBytes 4 w.toNat := rfl
  rw [wordsOf, e, ofBytes_toBytes, wordsOf, Nat.mod_eq_of_lt (show w.toNat < 256 ^ 4 from w.isLt), BitVec.ofNat_toNat, BitVec.setWidth_eq]

end Sys2Proof.Machine
end

