-- ==== Sys2Proof/Laws/Groups.lean ====
section
/-! SUPPORT. What a group and a thread hold after an update of a group or of a thread. -/

namespace Sys2Proof.Machine
namespace State

/-- A group that is there, changed. -/
theorem group_modGroup_self {s : State} {g : Nat} {G : Group} (h : lget g s.groups = some G) (f : Group → Group) :
    (s.modGroup g f).group g = f G := by
  simp only [modGroup, h, group, lgetD, lget_lput_self, Option.getD_some]

/-- A group that is not there stays so. -/
theorem modGroup_absent {s : State} {g : Nat} (h : lget g s.groups = none) (f : Group → Group) :
    s.modGroup g f = s := by
  simp only [modGroup, h]

/-- Another group is as before. -/
theorem group_modGroup_ne {g h : Nat} (hn : h ≠ g) (s : State) (f : Group → Group) :
    (s.modGroup g f).group h = s.group h := by
  unfold modGroup
  split
  · simp only [group, lgetD, lget_lput_ne hn]
  · rfl

/-- A change that leaves a part of every group alone leaves it alone in every group. -/
theorem group_modGroup_part {α : Type} (p : Group → α) {f : Group → Group} (hf : ∀ G, p (f G) = p G) (s : State)
    (g h : Nat) : p ((s.modGroup g f).group h) = p (s.group h) := by
  by_cases hn : h = g
  · subst hn
    cases e : lget h s.groups with
    | none => rw [modGroup_absent e]
    | some G => rw [group_modGroup_self e, hf]; simp only [group, lgetD, e, Option.getD_some]
  · rw [group_modGroup_ne hn]

/-- The group of a changed thread. -/
theorem group_modThread (s : State) (g t : Nat) (f : Thread → Thread) :
    (s.modThread g t f).group g = { s.group g with threads := (s.group g).threads.modify t f } := by
  unfold modThread
  cases e : lget g s.groups with
  | none =>
    rw [modGroup_absent e]
    have hd : (default : Group) = { (default : Group) with threads := (default : Group).threads.modify t f } := by
      cases t <;> rfl
    simp only [group, lgetD, e, Option.getD_none]
    exact hd
  | some G =>
    rw [group_modGroup_self e]
    simp only [group, lgetD, e, Option.getD_some]

/-- Another group than that of a changed thread. -/
theorem group_modThread_ne {g h : Nat} (hn : h ≠ g) (s : State) (t : Nat) (f : Thread → Thread) :
    (s.modThread g t f).group h = s.group h := group_modGroup_ne hn _ _

/-- A list with element t changed, read at t. -/
theorem getD_modify_self {α : Type} {l : List α} {t : Nat} (h : t < l.length) (f : α → α) (d : α) :
    (l.modify t f).getD t d = f (l.getD t d) := by
  simp [List.getD_eq_getElem?_getD, h]

/-- A list with element t changed, read elsewhere. -/
theorem getD_modify_ne {α : Type} {l : List α} {t u : Nat} (h : u ≠ t) (f : α → α) (d : α) :
    (l.modify t f).getD u d = l.getD u d := by
  simp only [List.getD_eq_getElem?_getD, List.getElem?_modify]
  cases l[u]? <;> simp [Ne.symm h]

/-- The threads of a group that is there are those of the group. -/
theorem hasThread_lt {s : State} {g t : Nat} (h : s.hasThread g t = true) : t < (s.group g).threads.length := by
  unfold hasThread at h
  unfold group lgetD
  split at h
  · rename_i G e; rw [e]; simpa using h
  · cases h

/-- A thread that is there, changed. -/
theorem thread_modThread_self {s : State} {g t : Nat} (h : t < (s.group g).threads.length) (f : Thread → Thread) :
    (s.modThread g t f).thread g t = f (s.thread g t) := by
  unfold thread
  rw [group_modThread]
  exact getD_modify_self h f default

/-- Another thread is as before. -/
theorem thread_modThread_ne {g h t u : Nat} (hn : h ≠ g ∨ u ≠ t) (s : State) (f : Thread → Thread) :
    (s.modThread g t f).thread h u = s.thread h u := by
  unfold thread
  by_cases e : h = g
  · subst e
    rw [group_modThread]
    exact getD_modify_ne (hn.resolve_left fun h => h rfl) f default
  · rw [group_modThread_ne e]

/-- A change that leaves a part of every thread alone leaves it alone in every thread. -/
theorem thread_modThread_part {α : Type} (p : Thread → α) {f : Thread → Thread} (hf : ∀ h, p (f h) = p h) (s : State)
    (g t h u : Nat) : p ((s.modThread g t f).thread h u) = p (s.thread h u) := by
  by_cases e : h = g ∧ u = t
  · obtain ⟨rfl, rfl⟩ := e
    unfold thread
    rw [group_modThread]
    by_cases hl : u < (s.group h).threads.length
    · rw [getD_modify_self hl, hf]
    · have : (s.group h).threads.modify u f = (s.group h).threads :=
        List.modify_eq_self (Nat.le_of_not_lt hl)
      rw [this]
  · rw [thread_modThread_ne (by omega)]

/-! ## The state in which an instruction's own effect begins -/

@[simp] theorem advance_iss (s : State) (t : Nat) : (s.advance t).iss = s.iss := by rw [advance_only]

/-- A part of every group that its threads are no part of, after the thread has moved on. -/
theorem group_advance_part {α : Type} (p : Group → α) (hp : ∀ (G : Group) ts, p { G with threads := ts } = p G)
    (s : State) (t g : Nat) : p ((s.advance t).group g) = p (s.group g) :=
  group_modGroup_part p (fun G => hp G _) s _ g

@[simp] theorem advance_kind (s : State) (t g : Nat) : ((s.advance t).group g).kind = (s.group g).kind :=
  group_advance_part Group.kind (fun _ _ => rfl) s t g
@[simp] theorem advance_blk (s : State) (t g : Nat) : ((s.advance t).group g).blk = (s.group g).blk :=
  group_advance_part Group.blk (fun _ _ => rfl) s t g
@[simp] theorem advance_rcb (s : State) (t g : Nat) : ((s.advance t).group g).rcb = (s.group g).rcb :=
  group_advance_part Group.rcb (fun _ _ => rfl) s t g
@[simp] theorem advance_lr (s : State) (t g : Nat) : ((s.advance t).group g).lr = (s.group g).lr :=
  group_advance_part Group.lr (fun _ _ => rfl) s t g
@[simp] theorem advance_alloc (s : State) (t g : Nat) : ((s.advance t).group g).alloc = (s.group g).alloc :=
  group_advance_part Group.alloc (fun _ _ => rfl) s t g
@[simp] theorem advance_k (s : State) (t g : Nat) : ((s.advance t).group g).k = (s.group g).k :=
  group_advance_part Group.k (fun _ _ => rfl) s t g
@[simp] theorem advance_kwb (s : State) (t g : Nat) : ((s.advance t).group g).kwb = (s.group g).kwb :=
  group_advance_part Group.kwb (fun _ _ => rfl) s t g
@[simp] theorem advance_mail (s : State) (t g : Nat) : ((s.advance t).group g).mail = (s.group g).mail :=
  group_advance_part Group.mail (fun _ _ => rfl) s t g
@[simp] theorem advance_entry (s : State) (t g : Nat) : ((s.advance t).group g).entry = (s.group g).entry :=
  group_advance_part Group.entry (fun _ _ => rfl) s t g

@[simp] theorem advance_blocks (s : State) (t : Nat) : (s.advance t).blocks = s.blocks := by rw [advance_only]
@[simp] theorem advance_engines (s : State) (t : Nat) : (s.advance t).engines = s.engines := by rw [advance_only]
@[simp] theorem advance_regions (s : State) (t : Nat) : (s.advance t).regions = s.regions := by rw [advance_only]
@[simp] theorem advance_mem (s : State) (t : Nat) : (s.advance t).mem = s.mem := by rw [advance_only]
@[simp] theorem advance_l1s (s : State) (t : Nat) : (s.advance t).l1s = s.l1s := by rw [advance_only]
@[simp] theorem advance_loads (s : State) (t : Nat) : (s.advance t).loads = s.loads := by rw [advance_only]
@[simp] theorem advance_flight (s : State) (t : Nat) : (s.advance t).flight = s.flight := by rw [advance_only]
@[simp] theorem advance_nextKey (s : State) (t : Nat) : (s.advance t).nextKey = s.nextKey := by rw [advance_only]

/-- A part of every thread that neither its PC nor its wait is part of. -/
theorem thread_advance_part {α : Type} (p : Thread → α) (hp : ∀ (h : Thread) pc w, p { h with pc := pc, wait := w } = p h)
    (s : State) (t g u : Nat) : p ((s.advance t).thread g u) = p (s.thread g u) :=
  thread_modThread_part p (fun h => hp h _ _) s _ t g u

/-- A register reads the same once the thread has moved on. -/
@[simp] theorem advance_readRegOf (s : State) (t g u f : Nat) : (s.advance t).readRegOf g u f = s.readRegOf g u f := by
  unfold readRegOf xnum knum
  simp only [advance_kwb, advance_k, thread_advance_part Thread.x (fun _ _ _ => rfl),
    thread_advance_part Thread.xwb (fun _ _ _ => rfl)]

@[simp] theorem advance_block (s : State) (t b : Nat) : (s.advance t).block b = s.block b := by
  unfold block; rw [advance_blocks]

@[simp] theorem advance_engine (s : State) (t e : Nat) : (s.advance t).engine e = s.engine e := by
  unfold engine; rw [advance_engines]

@[simp] theorem advance_region (s : State) (t r : Nat) : (s.advance t).region r = s.region r := by
  unfold region; rw [advance_regions]

end State
end Sys2Proof.Machine
end

