-- ==== Sys2Proof/Laws/Home.lean ====
section
/-! SUPPORT. What the shared operations of a line's home do: a request that has nothing to wait for is performed at
once, and one that arrives at a busy line waits. -/

namespace Sys2Proof.Machine
namespace State

/-- Message n stands in flight where take finds it, and only the messages change. -/
theorem take_some {s s1 : State} {n : Nat} {m : Msg} (h : s.take n = some (m, s1)) :
    s.flight[n]? = some m ∧ s1 = { s with flight := dropAt n s.flight } := by
  unfold take at h
  split at h
  · rename_i m' hm
    split at h
    · cases h
    · cases h
      exact ⟨hm, rfl⟩
  · cases h

/-- A line with nothing in hand has no transaction to remove. -/
theorem txs_idle {s : State} {line : Nat} (h : s.txOf line = none) :
    (s.txs.filter fun y => y.line ≠ line) = s.txs := by
  simp only [txOf, List.find?_eq_none, decide_eq_true_eq] at h
  exact List.filter_eq_self.2 fun a ha => by simpa using h a ha

/-- A request whose words nobody owns, and with no copy to invalidate, waits for nobody. -/
theorem openTx_plain {s : State} {line : Nat} {req : HomeReq} {queue : List HomeReq}
    (hw : ∀ wa ∈ (needs line req).1, lget wa s.owners = none)
    (hs : (needs line req).2.2.2.1 = [] ∨ ∀ k ∈ s.sharersOf line, (needs line req).2.2.2.2 = some k) :
    s.openTx line req queue =
      { s with txs := { line := line, req := req, acks := [], recalls := [], queue := queue } :: s.txs } := by
  have howners : ((needs line req).1.filterMap fun wa =>
      (lget wa s.owners).map fun o => (o.cluster, wa)) = [] := by
    simp only [List.filterMap_eq_nil_iff, Option.map_eq_none_iff]
    exact hw
  have hsharers : (if (needs line req).2.2.2.1 = [] then []
      else (s.sharersOf line).filter fun c => some c ≠ (needs line req).2.2.2.2) = [] := by
    split
    · rfl
    · rcases hs with h | h
      · contradiction
      · simp only [List.filter_eq_nil_iff]
        intro a ha
        simp [h a ha]
  unfold openTx
  simp only [howners, hsharers, List.filter_nil, List.map_nil, List.eraseDups_nil, List.foldl_nil]

/-- A request that waits for nobody, and for which the device need not hold a host line, is performed when it arrives at
an idle line. -/
theorem arrive_now {s : State} {line : Nat} {req : HomeReq} (h : s.txOf line = none) (hm : ∀ k, req ≠ .move k)
    (hw : ∀ s1 : State, s1.natop = s.natop → s1.mustOwn line req = false)
    (ho : s.openTx line req [] =
      { s with txs := { line := line, req := req, acks := [], recalls := [], queue := [] } :: s.txs }) :
    s.arrive line req = s.performTx line req := by
  have hf := txs_idle h
  have hs : ({ s with txs := s.txs.filter fun y => y.line ≠ line } : State) = s := by rw [hf]
  unfold arrive
  rw [h]
  dsimp only
  rw [ho]
  have hq : ({ s with txs := { line := line, req := req, acks := [], recalls := [], queue := [] } :: s.txs } : State).mustOwn
      line req = false := hw _ rfl
  cases req with
  | move k => exact absurd rfl (hm k)
  | _ => simp only [runTx, txOf, List.find?_cons, decide_true, ne_eq, not_true_eq_false, or_self, if_false, hq,
      Bool.false_and, nextReq, List.filter_cons, decide_false, Bool.false_eq_true]; simp only [ne_eq] at hs; rw [hs]

/-- A request that waits for nobody, at an idle line. -/
theorem arrive_plain {s : State} {line : Nat} {req : HomeReq} (h : s.txOf line = none) (hm : ∀ k, req ≠ .move k)
    (hn : ∀ s1 : State, s1.natop = s.natop → s1.mustOwn line req = false)
    (hw : ∀ wa ∈ (needs line req).1, lget wa s.owners = none)
    (hs : (needs line req).2.2.2.1 = [] ∨ ∀ k ∈ s.sharersOf line, (needs line req).2.2.2.2 = some k) :
    s.arrive line req = s.performTx line req := arrive_now h hm hn (openTx_plain hw hs)

/-- A request that arrives at a busy line joins its queue. -/
theorem arrive_busy {s : State} {line : Nat} {req : HomeReq} {x : Tx} (h : s.txOf line = some x) :
    s.arrive line req = { s with txs := s.txs.map fun y =>
      if y.line = line then { y with queue := y.queue ++ [req] } else y } := by
  unfold arrive
  rw [h]

/-- Counting an access changes nothing but the counts. -/
theorem countAccess_only (s : State) (pa d rcb : Nat) :
    ∃ l, s.countAccess pa d rcb = { s with kcounts := l } := by
  unfold countAccess
  split
  · exact ⟨s.kcounts, rfl⟩
  · exact ⟨_, rfl⟩

end State
end Sys2Proof.Machine
end

