-- ==== Sys2Proof/Laws/Translation.lean ====
section
/-! SUPPORT. What a translation that succeeds can have done (R88). -/

namespace Sys2Proof.Machine
namespace State

/-- A write at home changes memory, its marks, copies of its bytes, and the constant caches' old words, and the L2's lines alone. -/
theorem homeWrite_only (s : State) (pa : Nat) (bs : List Byte) :
    s.homeWrite pa bs = { s with
      mem := (s.homeWrite pa bs).mem
      marks := (s.homeWrite pa bs).marks
      l1s := (s.homeWrite pa bs).l1s
      flight := (s.homeWrite pa bs).flight
      engines := (s.homeWrite pa bs).engines
      cores := (s.homeWrite pa bs).cores
      l2 := (s.homeWrite pa bs).l2 } := rfl

/-- Setting A and D changes what a write at home changes, and the TLBs. -/
theorem touch_only (s : State) (h : TlbEntry) (acc : Nat) : s.touch h acc = { s with
    mem := (s.touch h acc).mem
    marks := (s.touch h acc).marks
    l1s := (s.touch h acc).l1s
    flight := (s.touch h acc).flight
    engines := (s.touch h acc).engines
    l2 := (s.touch h acc).l2
    cores := (s.touch h acc).cores
    tlb := (s.touch h acc).tlb } := by
  unfold touch
  dsimp only
  generalize (if acc = 1 ∨ acc = 2 then 0xC0 else 0x40) = want
  split <;> rfl

/-- A translation that succeeds found its TLB entry, and has at most set the leaf's A and D. -/
theorem translate_ok {s s1 : State} {g t va acc : Nat} {ldt : Bool} {pa mt : Nat}
    (h : s.translate g t va acc ldt = .ok s1 pa mt) :
    ∃ e, s.tlbFind (s.group g).kind.tlb (s.tableOf (s.group g).rcb) va = some e ∧ s1 = s.touch e acc
      ∧ mt = bits e.leaf 9 8 := by
  unfold translate at h
  dsimp only at h
  split at h
  · cases h
  · split at h
    · rename_i e he
      split at h
      · cases h
      · cases h; exact ⟨e, he, rfl, rfl⟩
    · split at h
      · cases h
      · split at h
        · cases h
        · split at h
          · split at h
            · cases h
            · cases h
          · cases h

/-- Groups and what issues are as before a translation that succeeds. -/
theorem translate_groups {s s1 : State} {g t va acc : Nat} {ldt : Bool} {pa mt : Nat}
    (h : s.translate g t va acc ldt = .ok s1 pa mt) : s1.groups = s.groups ∧ s1.iss = s.iss ∧ s1.blocks = s.blocks
      ∧ s1.nextKey = s.nextKey ∧ s1.loads = s.loads ∧ s1.regions = s.regions := by
  obtain ⟨e, -, rfl, -⟩ := translate_ok h
  rw [touch_only]
  exact ⟨rfl, rfl, rfl, rfl, rfl, rfl⟩

/-- A group reads the same where the groups are the same. -/
theorem group_congr {s s1 : State} (h : s1.groups = s.groups) (g : Nat) : s1.group g = s.group g := by
  unfold group; rw [h]

end State
end Sys2Proof.Machine
end

