-- ==== Sys2Proof/Laws/Memory.lean ====
section
/-! SUPPORT. What the operations that change memory do to it: each keeps its canonical form, and a write at home
changes the bytes that it names. -/

namespace Sys2Proof.Machine

/-- A write at home changes the bytes that it names, and keeps the canonical form of memory. -/
theorem homeWrite_mem (s : State) (pa : Nat) (bs : List Byte) : (s.homeWrite pa bs).mem = writeBytes s.mem pa bs := rfl

theorem homeWrite_wf {s : State} (h : Memory.wf s.mem = true) (pa : Nat) (bs : List Byte) :
    Memory.wf (s.homeWrite pa bs).mem = true := wf_writeBytes h pa bs

/-- After a write at home, its bytes read as written. -/
theorem homeWrite_reads (s : State) (pa : Nat) (bs : List Byte) {i : Nat} (h : i < bs.length) :
    readByte (s.homeWrite pa bs).mem (pa + i) = bs[i] := readByte_writeBytes_in h

/-- Every other byte at home reads as before. -/
theorem homeWrite_out (s : State) {pa a : Nat} {bs : List Byte} (h : a < pa ∨ pa + bs.length ≤ a) :
    readByte (s.homeWrite pa bs).mem a = readByte s.mem a := readByte_writeBytes_out h

/-- Setting A and D of a leaf keeps the canonical form. -/
theorem touch_wf {s : State} (h : Memory.wf s.mem = true) (e : TlbEntry) (acc : Nat) :
    Memory.wf (s.touch e acc).mem = true := by
  unfold State.touch
  dsimp only
  generalize (if acc = 1 ∨ acc = 2 then 0xC0 else 0x40) = want
  split
  · exact h
  · exact homeWrite_wf h _ _

/-- A translation that succeeds keeps the canonical form. -/
theorem translate_wf {s s1 : State} {g t va acc : Nat} {ldt : Bool} {pa mt : Nat} (h : Memory.wf s.mem = true)
    (ht : s.translate g t va acc ldt = .ok s1 pa mt) : Memory.wf s1.mem = true := by
  obtain ⟨e, -, rfl, -⟩ := State.translate_ok ht
  exact touch_wf h e acc

/-- A word written back to its home keeps the canonical form. -/
theorem takeWord_wf {s : State} (h : Memory.wf s.mem = true) (v : WordVal) :
    Memory.wf (s.takeWord v).mem = true := wf_writeBytes h _ _

/-- A write by physical address keeps the canonical form. -/
theorem writePhys_wf {s s1 : State} {d pa : Nat} {bs : List Byte} (h : Memory.wf s.mem = true)
    (hw : s.writePhys d pa bs = .ok s1) : Memory.wf s1.mem = true := by
  unfold State.writePhys at hw
  split at hw
  · cases hw
  · cases hw; exact homeWrite_wf h _ _

/-- An emptied frame, and a page copied to its frame, keep the canonical form. -/
theorem clearFrame_wf {s : State} (h : Memory.wf s.mem = true) (frame : Nat) :
    Memory.wf (s.clearFrame frame).mem = true := wf_filter h _

theorem copyPage_wf {s : State} (h : Memory.wf s.mem = true) (page frame : Nat) :
    Memory.wf (s.copyPage page frame).mem = true := wf_fold _ _ _ h

/-- Reset lists nothing, and a package reset leaves host and peer memory in the canonical form. -/
theorem reset_wf : Memory.wf State.reset.mem = true := by decide

theorem packageReset_wf {s s1 : State} (h : Memory.wf s.mem = true) (he : execPackageReset s = .next s1) :
    Memory.wf s1.mem = true := by
  unfold execPackageReset at he
  cases he
  exact wf_filter h _

end Sys2Proof.Machine
end

