-- ==== Sys2Proof/Tests/Slice0.lean ====
section
/-! SUPPORT. Tests: ill-formed terms that the well-formedness check refuses, words laid out field by field as the
encoding tables give them, single steps with results worked out by hand from the rules, and, for every statement
with hypotheses, states and operands that meet them. -/

namespace Sys2Proof.Tests

open Sys2Proof.Machine

set_option Elab.async false

/-! ## Helpers -/

/-- A lone thread of a SIMT group on engine 0, about to issue the word at 0x40_0000. -/
def one : State := (State.reset.withFetchWord 32 0).setIssue 0 [0] 0x400000#64 [0#32]

/-- The same thread, with the whole machine state changed by f before. -/
def oneWith (f : State → State) : State := f one

/-- Registers of the lone thread: field and value. -/
def regs (l : List (Field × Word)) : State := l.foldl (fun s r => s.setReg 0 r.1 r.2) one

/-- The lone thread at supervisor level. -/
def sup : State := one.modTh 0 fun h => { h with status := 1 }

/-- The lone thread in its trap handler. -/
def handling : State :=
  (one.modTh 0 fun h => { h with status := 2, slot := .trapped, trappc := 0x400100 }).modGroup 0 fun G => G

/-- The lone thread on context 0 of swarm core 0. -/
def swarm : State :=
  { one.modGroup 0 (fun G => { G with kind := .swarm 0 0, threads := G.threads.take 1 }) with
    tlb := one.tlb.map fun e => { e with unit := 256 } }

/-- The lone thread as an instance of proofer 0. -/
def instance_ : State := one.modGroup 0 fun G => { G with kind := .proofer 0 }

/-- The lone thread with an 8-line scratchpad. -/
def pad : State := one.modBlock 0 fun B => { B with lines := 8 }

/-- Threads 0 and 1 of the group, both about to issue. -/
def two : State :=
  { (one.modThread 0 1 fun _ => freshThread 64 0x400000) with
    iss := { one.iss with ts := [0, 1] } }

/-- Every die of the package is released (R320). -/
def awake (s : State) : State := (upTo 4).foldl (fun s d => s.modDie d fun D => { D with status := 0 }) s

/-- The translation gives a state, an address and a memory type that p accepts. -/
def okX (r : XRes) (p : State → Nat → Nat → Bool) : Bool := match r with
  | .ok s pa mt => p s pa mt
  | _ => false

/-- The lane goes on in a state that p accepts. -/
def okL (r : LaneRes) (p : State → Bool) : Bool := match r with
  | .ok s => p s
  | _ => false

/-- A value that p accepts. -/
def okE {ε α : Type} (r : Except ε α) (p : α → Bool) : Bool := match r with
  | .ok a => p a
  | .error _ => false

/-- Nothing is waited for, in a state that p accepts. -/
def okW (r : State × Option WaitOn) (p : State → Bool) : Bool := r.2.isNone && p r.1

/-- What p says of the state after the instruction. -/
def after (i : Instr) (s : State) (p : State → Bool) : Bool := match exec i s with
  | .next s' => p s'
  | _ => false

/-! ## Well-formedness: a term that each check refuses -/

theorem test_wf_run : Instr.wf (.add .s64 95#7 2#7 4#7) = false := by decide
theorem test_wf_k_run : Instr.wf (.add .s64 2#7 127#7 4#7) = false := by decide
theorem test_wf_fshl_type : Instr.wf (.fshl .s64 1#7 2#7 3#7) = false := by decide
theorem test_wf_fork_range : Instr.wf (.fork 63#7 2#7 4#7) = false := by decide
theorem test_wf_setkb : Instr.wf (.setkb 5#3) = false := by decide
theorem test_wf_mask_zero : Instr.wf (.mjoin 0#4) = false := by decide
theorem test_wf_mask_twelve : Instr.wf (.mwait 12#4) = false := by decide
theorem test_wf_bmov_k : Instr.wf (.bmov 96#7 2#7 4#7) = false := by decide
theorem test_wf_bmov_overlap : Instr.wf (.bmov 2#7 3#7 6#7) = false := by decide
theorem test_wf_load_release : Instr.wf (.ld { ord := .rel } 1#7 2#7 0#34 .w) = false := by decide
theorem test_wf_store_acquire : Instr.wf (.st { ord := .acq } 1#7 2#7 0#34 .w) = false := by decide
theorem test_wf_store_sign : Instr.wf (.st {} 1#7 2#7 0#34 .s8) = false := by decide
theorem test_wf_qjoin_none : Instr.wf (.qjoin 0#4) = false := by decide
theorem test_wf_msend_nine : Instr.wf (.msend 9#4 1#7 2#7) = false := by decide
theorem test_wf_stitch_nine : Instr.wf (.stitch 9#4 0#3 2#7 4#7) = false := by decide
theorem test_wf_red_swap : Instr.wf (.red {} .s32 .swap 2#7 4#7) = false := by decide
theorem test_wf_atom_f32_type : Instr.wf (.atom {} .s64 .addF32 2#7 4#7 6#7) = false := by decide
theorem test_wf_f2i_narrow : Instr.wf (.f2i .s8 .rn 1#7 2#7) = false := by decide
theorem test_wf_csr_number : Instr.wf (.csrr 1#7 0x1FF#9) = false := by decide
theorem test_wf_no_words : Instr.wf (.gets 0) = false := by decide
theorem test_wf_legal : Instr.wf (.add .s64 94#7 126#7 4#7) = true := by decide

/-! ## Words, field by field: major, D, A, B, fn of the R form (R150), and the other forms laid over them -/

theorem test_word_add : decode [0x01#6 ++ 5#7 ++ 6#7 ++ 7#7 ++ 0#5] = .instr (.add .s32 5#7 6#7 7#7) [] := by decide
/-- Kind 0 prefix: major, kind, E, F, SLOT, SCOPE, ORD, TY (R157). -/
theorem test_word_prefix : decode [0x3E#6 ++ 0#1 ++ 3#7 ++ 0#7 ++ 0#3 ++ 0#3 ++ 0#2 ++ 2#3,
    0x01#6 ++ 4#7 ++ 6#7 ++ 8#7 ++ 28#5] = .instr (.sel .s64 4#7 6#7 8#7 3#3) [] := by decide
/-- CMP: D<6:3> the condition, D<2:0> the predicate (R162, R171). -/
theorem test_word_cmp : decode [0x01#6 ++ (2#4 ++ 5#3) ++ 6#7 ++ 7#7 ++ 31#5]
    = .instr (.cmp .s32 .lt 5#3 6#7 7#7) [] := by decide
/-- I form: a 12-bit immediate, sign-extended (R151). -/
theorem test_word_addi : decode [0x02#6 ++ 1#7 ++ 2#7 ++ 0x800#12] = .instr (.addi 1#7 2#7 0xFFFFF800#32) [] := by decide
theorem test_word_ori : decode [0x04#6 ++ 1#7 ++ 2#7 ++ 0x800#12] = .instr (.ori 1#7 2#7 0x800#32) [] := by decide
/-- L form: a 19-bit immediate; with IMMX above it (R151, R157). -/
theorem test_word_movi : decode [0x0A#6 ++ 9#7 ++ 0x40000#19] = .instr (.movi 9#7 0xFFFC0000#32) [] := by decide
theorem test_word_movi_immx : decode [0x3E#6 ++ 1#1 ++ 0x1ABC#25, 0x0A#6 ++ 9#7 ++ 0x12345#19]
    = .instr (.movi 9#7 (0x1ABC#13 ++ 0x12345#19)) [] := by decide
/-- J form: the condition, then a 23-bit offset (R152). -/
theorem test_word_brc : decode [0x19#6 ++ 3#3 ++ 0x7FFFFF#23] = .instr (.brc 3#3 (-1#48)) [] := by decide
/-- LUT3: the table's high bits in the major, its low bits in fn (R164). -/
theorem test_word_lut3 : decode [0x17#6 ++ 1#7 ++ 2#7 ++ 3#7 ++ 0x0A#5] = .instr (.lut3 0xEA#8 1#7 2#7 3#7) [] := by
  decide
theorem test_word_svc : decode [0x3D#6 ++ 0#7 ++ 0#7 ++ 2#3 ++ 0x155#9] = .instr (.svc 0x155#9) [] := by decide
theorem test_word_csrw : decode [0x3D#6 ++ 0#7 ++ 7#7 ++ 1#3 ++ 0x100#9] = .instr (.csrw 0x100#9 7#7) [] := by decide
/-- M form: D, A, off9, sz (R153); IMMX extends the offset, SCOPE and ORD stand in a prefix before it. -/
theorem test_word_ld : decode [0x3E#6 ++ 0#1 ++ 0#7 ++ 0#7 ++ 0#3 ++ 5#3 ++ 1#2 ++ 0#3, 0x3E#6 ++ 1#1 ++ 1#25,
    0x20#6 ++ 8#7 ++ 10#7 ++ 3#9 ++ 6#3] = .instr (.ld { ord := .acq, scope := .dev } 8#7 10#7 515#34 .s8) [] := by decide
/-- Pointer rows: A holds SP, mode, PF and the pointer (R167). -/
theorem test_word_ld_pointer : decode [0x24#6 ++ 8#7 ++ (1#1 ++ 1#2 ++ 0#1 ++ 6#3) ++ 0#9 ++ 4#3]
    = .instr (.ldPointer {} 8#7 true .inc 6#3 .q) [] := by decide
theorem test_word_st_pointer : decode [0x25#6 ++ 8#7 ++ (0#1 ++ 2#2 ++ 0#1 ++ 1#3) ++ (0#2 ++ 9#7) ++ 2#3]
    = .instr (.stPointer {} 8#7 false (.idx 9#7) 1#3 .w) [] := by decide
theorem test_word_ld_pf : decode [0x24#6 ++ 0#7 ++ (0#1 ++ 0#2 ++ 1#1 ++ 2#3) ++ 0x1FF#9 ++ 2#3]
    = .instr (.ldPf {} (.off (-1#34)) 2#3 .w) [] := by decide
theorem test_word_msend : decode [0x28#6 ++ 8#7 ++ 4#7 ++ 5#7 ++ 9#5] = .instr (.msend 8#4 4#7 5#7) [] := by decide
theorem test_word_ldt : decode [0x29#6 ++ 1#7 ++ 2#7 ++ 6#7 ++ 0#5] = .instr (.ldt {} 1#7 2#7 .v) [] := by decide
theorem test_word_red_spm : decode [0x2B#6 ++ 0#7 ++ 2#7 ++ 4#7 ++ (1#1 ++ 3#4)]
    = .instr (.redSpm {} .s32 .max 2#7 4#7) [] := by decide
theorem test_word_fcmp : decode [0x2C#6 ++ (6#4 ++ 1#3) ++ 2#7 ++ 3#7 ++ 8#5] = .instr (.fcmp .un 1#3 2#7 3#7) [] := by
  decide
theorem test_word_fsin : decode [0x2D#6 ++ 1#7 ++ 2#7 ++ 0#7 ++ 5#5] = .instr (.fsin 1#7 2#7) [] := by decide
theorem test_word_f2i : decode [0x2E#6 ++ 1#7 ++ 2#7 ++ 3#7 ++ 0#5] = .instr (.f2i .s32 .ru 1#7 2#7) [] := by decide
theorem test_word_dot4 : decode [0x3E#6 ++ 0#1 ++ 0#7 ++ 0#7 ++ 4#3 ++ 0#3 ++ 0#2 ++ 0#3,
    0x2F#6 ++ 1#7 ++ 2#7 ++ 3#7 ++ 16#5] = .instr (.dot4 4#3 1#7 2#7 3#7) [] := by decide
theorem test_word_prune : decode [0x30#6 ++ 1#7 ++ 8#7 ++ (2#4 ++ 3#3) ++ 7#5] = .instr (.prune .k4of8 3#3 1#7 8#7) [] := by
  decide
/-- MMA: slots 0 and 1 without a prefix (R159). -/
theorem test_word_mma : decode [0x34#6 ++ 1#7 ++ 2#7 ++ 3#7 ++ (1#1 ++ 15#4)]
    = .instr (.mmaR 0#3 1#3 1#7 2#7 3#7 15#10) [] := by decide
/-- MMAS: E in the prefix, F the pattern and the B slot, SLOT the A slot (R159). -/
theorem test_word_mmas : decode [0x3E#6 ++ 0#1 ++ 7#7 ++ (0#2 ++ 3#2 ++ 5#3) ++ 2#3 ++ 0#3 ++ 0#2 ++ 0#3,
    0x35#6 ++ 1#7 ++ 2#7 ++ 3#7 ++ (0#1 ++ 9#4)] = .instr (.mmas 2#3 5#3 .k2of8 1#7 2#7 3#7 7#7 9#10) [] := by decide
theorem test_word_mmas_bare : decode [0x35#6 ++ 1#7 ++ 2#7 ++ 3#7 ++ 9#5]
    = .reserved (.mmas 0#3 0#3 .k2of4 1#7 2#7 3#7 0#7 9#10) [] := by decide
theorem test_word_wbld : decode [0x36#6 ++ 1#7 ++ 2#7 ++ 3#7 ++ 8#5] = .instr (.wbld {} 1#3 1#7 2#7 3#7) [] := by decide
theorem test_word_mq : decode [0x37#6 ++ 1#7 ++ 8#7 ++ 0#7 ++ 0#5] = .instr (.mq {} 1#7 8#7) [] := by decide
theorem test_word_tex : decode [0x3B#6 ++ 4#7 ++ 8#7 ++ 12#7 ++ 0#5] = .instr (.tex 4#7 8#7 12#7) [] := by decide
theorem test_word_pixout : decode [0x3C#6 ++ 4#7 ++ 2#7 ++ 1#7 ++ 2#5] = .instr (.pixout 1#2 4#7 2#7) [] := by decide
/-- A second kind 0 prefix, or a prefix that the row does not accept, makes no instruction (R158, R159, R391). -/
theorem test_word_two_prefixes : decode [0x3E#6 ++ 0#26, 0x3E#6 ++ 0#26] = .illegal 2 := by decide
theorem test_word_prefix_refused : decode [0x3E#6 ++ 0#26, 0x2C#6 ++ 1#7 ++ 2#7 ++ 3#7 ++ 0#5] = .illegal 2 := by decide
theorem test_word_mjoin_zero : decode [0x1D#6 ++ 0#7 ++ 0#7 ++ 0#7 ++ 0#5] = .illegal 1 := by decide
/-- A reserved field of an assigned row (R174 step 3). -/
theorem test_word_reserved : decode [0x01#6 ++ 1#7 ++ 2#7 ++ 1#7 ++ 29#5] = .reserved (.mov .s32 1#7 2#7) [] := by decide
theorem test_word_zero : decode [0#32] = .illegal 1 := by decide

/-- The first step after reset with the word of MOVI x9, −1 in place: x9 holds it and the PC has moved on. -/
theorem test_step_movi : (match step (State.reset.withFetchWord 32 (0x0A#6 ++ 9#7 ++ 0x7FFFF#19 : Word).toNat) with
    | .next s => (s.thread 0 0).x.getD 9 0 = 0xFFFFFFFF#32 && (s.thread 0 0).pc = 0x400004#64
    | _ => false) = true := by decide +kernel

/-- Words that are no instruction trap, with cause ILLEGAL_OP and TRAPPC at them (R343, R391). -/
theorem test_step_illegal : (match step (State.reset.withFetchWord 32 0) with
    | .next s => (s.region 0x10000).abort.isSome || (s.thread 0 0).trapcause = 1#32
    | _ => false) = true := by decide +kernel

/-! ## Single steps, worked out by hand -/

theorem test_add_wraps : after (.add .s32 5#7 6#7 7#7) (regs [(6#7, 0xFFFFFFFF#32), (7#7, 2#32)])
    (fun s => s.reg 0 5#7 = 1#32) = true := by decide +kernel
/-- A narrow result is sign-extended (R187). -/
theorem test_add_s8 : after (.add .s8 5#7 6#7 7#7) (regs [(6#7, 0x7F#32), (7#7, 1#32)])
    (fun s => s.reg 0 5#7 = 0xFFFFFF80#32) = true := by decide +kernel
theorem test_add_n8 : after (.add .n8 5#7 6#7 7#7) (regs [(6#7, 0x7F#32), (7#7, 1#32)])
    (fun s => s.reg 0 5#7 = 0x80#32) = true := by decide +kernel
theorem test_add_carry_to_pair : after (.add .s64 4#7 6#7 8#7) (regs [(6#7, 0xFFFFFFFF#32), (8#7, 1#32)])
    (fun s => s.reg 0 4#7 = 0#32 && s.reg 0 5#7 = 1#32) = true := by decide +kernel
theorem test_mulhi_signed : after (.mulhi .s32 5#7 6#7 7#7) (regs [(6#7, 0xFFFFFFFE#32), (7#7, 3#32)])
    (fun s => s.reg 0 5#7 = 0xFFFFFFFF#32) = true := by decide +kernel
theorem test_mulhi_unsigned : after (.mulhi .n32 5#7 6#7 7#7) (regs [(6#7, 0xFFFFFFFE#32), (7#7, 3#32)])
    (fun s => s.reg 0 5#7 = 2#32) = true := by decide +kernel
theorem test_mad_reads_d : after (.mad .s32 5#7 6#7 7#7) (regs [(5#7, 10#32), (6#7, 3#32), (7#7, 4#32)])
    (fun s => s.reg 0 5#7 = 22#32) = true := by decide +kernel
/-- Division by zero gives all ones; the remainder gives the dividend (R188). -/
theorem test_div_zero : after (.div .n32 5#7 6#7 7#7) (regs [(6#7, 7#32)])
    (fun s => s.reg 0 5#7 = 0xFFFFFFFF#32) = true := by decide +kernel
theorem test_rem_sign : after (.rem .s32 5#7 6#7 7#7) (regs [(6#7, 0xFFFFFFF9#32), (7#7, 3#32)])
    (fun s => s.reg 0 5#7 = 0xFFFFFFFF#32) = true := by decide +kernel
theorem test_div_truncates : after (.div .s32 5#7 6#7 7#7) (regs [(6#7, 0xFFFFFFF9#32), (7#7, 2#32)])
    (fun s => s.reg 0 5#7 = 0xFFFFFFFD#32) = true := by decide +kernel
theorem test_andn : after (.andn .s32 5#7 6#7 7#7) (regs [(6#7, 0xFF#32), (7#7, 0x0F#32)])
    (fun s => s.reg 0 5#7 = 0xF0#32) = true := by decide +kernel
theorem test_shl_amount_mod : after (.shl .s32 5#7 6#7 7#7) (regs [(6#7, 1#32), (7#7, 33#32)])
    (fun s => s.reg 0 5#7 = 2#32) = true := by decide +kernel
theorem test_sar_n_type : after (.sar .n32 5#7 6#7 7#7) (regs [(6#7, 0x80000000#32), (7#7, 31#32)])
    (fun s => s.reg 0 5#7 = 0xFFFFFFFF#32) = true := by decide +kernel
theorem test_fshl : after (.fshl .s32 5#7 6#7 7#7) (regs [(5#7, 4#32), (6#7, 0x12345678#32), (7#7, 0x9ABCDEF0#32)])
    (fun s => s.reg 0 5#7 = 0x23456789#32) = true := by decide +kernel
theorem test_clz_zero : after (.clz .s32 5#7 6#7) (regs []) (fun s => s.reg 0 5#7 = 32#32) = true := by decide +kernel
theorem test_ctz : after (.ctz .s32 5#7 6#7) (regs [(6#7, 0x50#32)]) (fun s => s.reg 0 5#7 = 4#32) = true := by
  decide +kernel
theorem test_brev : after (.brev .s32 5#7 6#7) (regs [(6#7, 1#32)]) (fun s => s.reg 0 5#7 = 0x80000000#32) = true := by
  decide +kernel
/-- BFX: position in B<5:0>, length in B<13:8> (R188). -/
theorem test_bfx : after (.bfx .s32 5#7 6#7 7#7) (regs [(6#7, 0x00000F00#32), (7#7, 0x0408#32)])
    (fun s => s.reg 0 5#7 = 0xFFFFFFFF#32) = true := by decide +kernel
theorem test_bfi : after (.bfi .n32 5#7 6#7 7#7) (regs [(5#7, 0xFFFFFFFF#32), (6#7, 0x5#32), (7#7, 0x0408#32)])
    (fun s => s.reg 0 5#7 = 0xFFFFF5FF#32) = true := by decide +kernel
theorem test_sel_c7 : after (.sel .s32 5#7 6#7 7#7 7#3) (regs [(6#7, 1#32), (7#7, 2#32)])
    (fun s => s.reg 0 5#7 = 1#32) = true := by decide +kernel
theorem test_lea_scales : after (.lea .s64 4#7 6#7 8#7) (regs [(6#7, 0x100#32), (8#7, 0xFFFFFFFF#32)])
    (fun s => s.pair 0 4#7 = 0xF8#64) = true := by decide +kernel
theorem test_cmp_signed : after (.cmp .s32 .lt 2#3 6#7 7#7) (regs [(6#7, 0xFFFFFFFF#32)])
    (fun s => s.pred 0 2#3) = true := by decide +kernel
theorem test_cmp_unsigned : after (.cmp .n32 .lt 2#3 6#7 7#7) (regs [(6#7, 0xFFFFFFFF#32)])
    (fun s => !s.pred 0 2#3) = true := by decide +kernel
theorem test_movhi : after (.movhi 5#7 0x1FFF#13) (regs [(5#7, 0x7FFFF#32)])
    (fun s => s.reg 0 5#7 = 0xFFFFFFFF#32) = true := by decide +kernel
theorem test_addpc : after (.addpc 4#7 (-1#44)) one (fun s => s.pair 0 4#7 = 0x3FFFFC#64) = true := by decide +kernel
/-- The table 0xEA is (A and B) or D: bit 4·D + 2·A + B (R192). -/
theorem test_lut3 : after (.lut3 0xF8#8 5#7 6#7 7#7) (regs [(5#7, 0x0F#32), (6#7, 0x33#32), (7#7, 0x55#32)])
    (fun s => s.reg 0 5#7 = 0x1F#32) = true := by decide +kernel
theorem test_bra_back : after (.bra (-4#48)) one (fun s => (s.th 0).pc = 0x3FFFF0#64) = true := by decide +kernel
theorem test_brc_not_taken : after (.brc 0#3 5#48) one (fun s => (s.th 0).pc = 0x400004#64) = true := by decide +kernel
/-- CALL pushes the address of the next instruction below P7 (R193). -/
theorem test_call_pushes : after (.call 4#48) (one.setPtr 0 7 0x400108)
    (fun s => s.ptr 0 7 = 0x400100#64 && (s.th 0).pc = 0x400010#64 && s.l1Bytes 0 0x400100 4 = [4#8, 0#8, 0x40#8, 0#8])
    = true := by decide +kernel
theorem test_call_misaligned : after (.call 4#48) (one.setPtr 0 7 0x400104)
    (fun s => (s.region 0x10000).abort = some 6) = true := by decide +kernel
theorem test_exit : after .exit one (fun s => (s.th 0).slot = .exited) = true := by decide +kernel
theorem test_eret : after .eret handling
    (fun s => (s.th 0).pc = 0x400100#64 && (s.th 0).slot = .live && !(s.th 0).status.getLsbD 1) = true := by decide +kernel
theorem test_setwb_moves : after (.setwb 2#5) one (fun s => (s.th 0).xwb = 16#8) = true := by decide +kernel
theorem test_window_reads : after (.mov .s32 0#7 1#7) ((oneWith fun s => s.setReg 0 17#7 9#32).modTh 0 fun h =>
    { h with xwb := 16 }) (fun s => (s.th 0).x.getD 16 0 = 9#32) = true := by decide +kernel
theorem test_mjoin : after (.mjoin 3#4) one (fun s => s.cur.mask 3 = 1) = true := by decide +kernel
/-- MWAIT with both threads in the bundle: neither waits (R39). -/
theorem test_mwait_pair : after (.mwait 0#4) two
    (fun s => (s.th 0).wait = none && (s.th 1).wait = none && s.cur.arrived 0 = 0) = true := by decide +kernel
theorem test_vote_ballot : after (.voteBallot 5#7 7#3) two (fun s => s.reg 0 5#7 = 3#32 && s.reg 1 5#7 = 3#32) = true := by
  decide +kernel
theorem test_shfl_up : after (.shflUp 5#7 6#7 7#7) (((two.setReg 0 6#7 4#32).setReg 1 6#7 5#32).setReg 1 7#7 1#32)
    (fun s => s.reg 0 5#7 = 4#32 && s.reg 1 5#7 = 4#32) = true := by decide +kernel
theorem test_plop_and : after (.plop 0#3 7#3 1#3 0x8#4) (one.setPred 0 1#3 true) (fun s => s.pred 0 0#3) = true := by
  decide +kernel
theorem test_csrr_unitid_user : after (.csrr 5#7 0x101#9) one
    (fun s => (s.region 0x10000).abort = some 3) = true := by decide +kernel
theorem test_csrr_cycle : after (.csrr 4#7 0x40#9) { one with cycle := 2 ^ 33 + 5 }
    (fun s => s.reg 0 4#7 = 5#32 && s.reg 0 5#7 = 2#32) = true := by decide +kernel
theorem test_csrw_fpstat : after (.csrw 0x30#9 5#7) (regs [(5#7, 0xFFFFFFFF#32)])
    (fun s => (s.th 0).fpstat = 0xFFFFFF3F#32) = true := by decide +kernel
theorem test_sts_lds : after (.sts {} 5#7 6#7 0#34 .h) (pad.setReg 0 5#7 0x1234ABCD#32)
    (fun s => after (.lds {} 7#7 6#7 0#34 .s16) s fun s => s.reg 0 7#7 = 0xFFFFABCD#32) = true := by decide +kernel
theorem test_spm_bound : after (.lds {} 7#7 6#7 0#34 .w) (pad.setReg 0 6#7 1024#32)
    (fun s => (s.region 0x10000).abort = some 0x12) = true := by decide +kernel
/-- A store and a load of its bytes through the cluster's L1. -/
theorem test_st_ld : after (.st {} 5#7 6#7 1#34 .w) ((one.setReg 0 5#7 0x1234ABCD#32).setPair 0 6#7 0x400800)
    (fun s => after (.ld {} 7#7 6#7 2#34 .h) s fun s => s.reg 0 7#7 = 0xABCD#32) = true := by decide +kernel
theorem test_atom_spm_cas : after (.atomSpm {} .s32 .cas 5#7 6#7 8#7) ((pad.setReg 0 8#7 7#32))
    (fun s => s.reg 0 5#7 = 0#32 && s.pred 0 0#3 && s.spmRead 0 0 4 = [7#8, 0#8, 0#8, 0#8]) = true := by decide +kernel
theorem test_bara_last : after (.bara 6#7) (pad.spmWrite 0 0 [1#8, 0#8, 0#8, 0#8, 1#8, 0#8, 0#8, 0#8])
    (fun s => s.spmRead 0 12 1 = [1#8]) = true := by decide +kernel
theorem test_sete : after (.sete 6#7) pad (fun s => !(s.line 0 0).full) = true := by decide +kernel
theorem test_bfill : after (.bfill 4#7 6#7 8#7) ((one.setPair 0 4#7 0x400801).setReg 0 6#7 0xDDCCBBAA#32 |>.setReg 0 8#7 2#32)
    (fun s => s.l1Bytes 0 0x400801 2 = [0xBB#8, 0xCC#8] && s.reg 0 8#7 = 0#32 && s.pair 0 4#7 = 0x400803#64) = true := by
  decide +kernel
/-- 1 + 1 = 2, and 1 + 2^−24 rounds to even (R246). -/
theorem test_fadd : after (.fadd 5#7 6#7 7#7) (regs [(6#7, 0x3F800000#32), (7#7, 0x3F800000#32)])
    (fun s => s.reg 0 5#7 = 0x40000000#32) = true := by decide +kernel
theorem test_fadd_inexact : after (.fadd 5#7 6#7 7#7) (regs [(6#7, 0x3F800000#32), (7#7, 0x33800000#32)])
    (fun s => s.reg 0 5#7 = 0x3F800000#32 && (s.th 0).fpstat ≠ 0) = true := by decide +kernel
theorem test_ffma : after (.ffma 5#7 6#7 7#7) (regs [(5#7, 0x3F800000#32), (6#7, 0x40000000#32), (7#7, 0x40400000#32)])
    (fun s => s.reg 0 5#7 = 0x40E00000#32) = true := by decide +kernel
theorem test_fdiv_zero : after (.fdiv 5#7 6#7 7#7) (regs [(6#7, 0x3F800000#32)])
    (fun s => s.reg 0 5#7 = 0x7F800000#32) = true := by decide +kernel
theorem test_fsqrt : after (.fsqrt 5#7 6#7) (regs [(6#7, 0x41100000#32)])
    (fun s => s.reg 0 5#7 = 0x40400000#32) = true := by decide +kernel
theorem test_f2i_rounds : after (.f2i .s32 .rn 5#7 6#7) (regs [(6#7, 0x40200000#32)])
    (fun s => s.reg 0 5#7 = 2#32) = true := by decide +kernel
theorem test_i2f : after (.i2f .s32 5#7 6#7) (regs [(6#7, 0xFFFFFFFF#32)])
    (fun s => s.reg 0 5#7 = 0xBF800000#32) = true := by decide +kernel
theorem test_fcmp_nan : after (.fcmp .un 0#3 6#7 7#7) (regs [(6#7, 0x7FC00000#32)])
    (fun s => s.pred 0 0#3) = true := by decide +kernel
theorem test_dot4s8 : after (.dot4S8 5#7 6#7 7#7) (regs [(5#7, 1#32), (6#7, 0x01FF0203#32), (7#7, 0x05060708#32)])
    (fun s => s.reg 0 5#7 = 38#32) = true := by decide +kernel
theorem test_scan_inc : after (.scanIncS32 5#7 6#7) ((two.setReg 0 6#7 4#32).setReg 1 6#7 5#32)
    (fun s => s.reg 0 5#7 = 4#32 && s.reg 1 5#7 = 9#32) = true := by decide +kernel
theorem test_cdet : after (.cdet 5#7 6#7) ((two.setReg 0 6#7 4#32).setReg 1 6#7 4#32)
    (fun s => s.reg 0 5#7 = 0#32 && s.reg 1 5#7 = 1#32 && s.pred 0 0#3 && !s.pred 1 0#3) = true := by decide +kernel
/-- AMALLOC without a reserved bank gives no handle (R260). -/
theorem test_amalloc_none : after (.amalloc 5#7 6#7) (regs [(6#7, 1#32)])
    (fun s => s.reg 0 5#7 = 0#32 && !s.pred 0 0#3) = true := by decide +kernel
theorem test_pixout_outside : after (.pixout 0#2 4#7 2#7) one
    (fun s => (s.region 0x10000).abort = some 1) = true := by decide +kernel
theorem test_hbm_mark : after (.uncorrectableError (.hbm 0x1000)) State.reset (fun s => s.marks = [0x1000]) = true := by
  decide +kernel

/-! ## States and operands that meet the hypotheses of the statements

One theorem for each statement, one line for each of its clauses; `okX`, `okL`, `okE` and `okW` say that the
computation which a hypothesis names answers as it says, and what holds of its answer. -/

theorem witness_IntegerGroupValues :
    Passes (.add .s64 62#7 0#7 126#7) two ∧ Passes (.sub .s8 5#7 96#7 7#7) two ∧ Passes (.mul .n32 5#7 6#7 7#7) two
    ∧ Passes (.mulhi .s32 5#7 6#7 7#7) two ∧ Passes (.mad .s16 5#7 6#7 7#7) two ∧ Passes (.div .n64 4#7 6#7 8#7) two
    ∧ Passes (.rem .s64 4#7 6#7 8#7) two ∧ Passes (.min .s32 5#7 6#7 7#7) two ∧ Passes (.max .n8 5#7 6#7 7#7) two
    ∧ Passes (.abs .s32 5#7 6#7) two ∧ Passes (.neg .s64 4#7 6#7) two ∧ Passes (.and .n32 5#7 6#7 7#7) two
    ∧ Passes (.or .s32 127#7 6#7 7#7) two ∧ Passes (.xor .s32 5#7 6#7 7#7) two ∧ Passes (.andn .s32 5#7 6#7 7#7) two
    ∧ Passes (.shl .s64 4#7 6#7 8#7) two ∧ Passes (.shr .n8 5#7 6#7 7#7) two ∧ Passes (.sar .s32 5#7 6#7 7#7) two
    ∧ Passes (.popc .s64 4#7 6#7) two ∧ Passes (.clz .s8 5#7 6#7) two ∧ Passes (.ctz .n16 5#7 6#7) two
    ∧ Passes (.brev .s32 5#7 6#7) two ∧ Passes (.mov .s64 126#7 124#7) two
    ∧ Passes (.sel .s32 96#7 97#7 98#7 7#3) two ∧ Passes (.sel .s32 5#7 6#7 7#7 0#3) two := by decide +kernel

theorem witness_IntegerFieldValues :
    Passes (.fshl .s32 5#7 6#7 7#7) two ∧ Passes (.fshr .n32 127#7 126#7 125#7) two ∧ Passes (.bfx .s64 4#7 6#7 8#7) two
    ∧ Passes (.bfi .n8 5#7 6#7 7#7) two ∧ Passes (.sext .s64 4#7 6#7) two ∧ Passes (.zext .n8 5#7 6#7) two
    ∧ Passes (.lea .s32 4#7 6#7 8#7) two ∧ Passes (.cmp .n64 .ge 7#3 4#7 6#7) two := by decide +kernel

theorem witness_ImmediateGroupValues :
    Passes (.addi 63#7 0#7 0xFFFFFFFF#32) two ∧ Passes (.andi 5#7 6#7 0#32) two ∧ Passes (.ori 127#7 96#7 1#32) two
    ∧ Passes (.xori 5#7 6#7 0#32) two ∧ Passes (.shli 5#7 6#7 31#5) two ∧ Passes (.shri 5#7 6#7 0#5) two
    ∧ Passes (.sari 5#7 6#7 31#5) two ∧ Passes (.cmpi .n8 .lt 0#3 6#7 0x180#32) two := by decide +kernel

theorem witness_ConstantAndTableValues :
    Passes (.movi 96#7 5#32) two ∧ Passes (.movhi 5#7 0x1FFF#13) two ∧ Passes (.addpc 62#7 (-1#44)) two
    ∧ Passes (.lut3 0xE8#8 5#7 6#7 7#7) two := by decide +kernel

theorem witness_RegisterResultFrame :
    (onlyRegs (.add .s64 62#7 4#7 6#7) = some 62#7 ∧ Instr.wf (.add .s64 62#7 4#7 6#7) = true
      ∧ Passes (.add .s64 62#7 4#7 6#7) two ∧ isK 62#7 = false)
    ∧ onlyRegs (.voteBallot 127#7 0#3) = some 127#7 ∧ Instr.wf (.voteBallot 127#7 0#3) = true
      ∧ Passes (.voteBallot 127#7 0#3) two ∧ isK 127#7 = true := by decide +kernel

theorem witness_PredicateResultFrame :
    (onlyPred (.cmp .s32 .eq 7#3 4#7 6#7) = some 7#3 ∧ Passes (.cmp .s32 .eq 7#3 4#7 6#7) two)
    ∧ onlyPred (.voteAny 0#3 7#3) = some 0#3 ∧ Passes (.voteAny 0#3 7#3) two := by decide +kernel

theorem witness_TransferTargets :
    Passes (.bra (-1#48)) two ∧ Passes (.brc 7#3 0#48) two ∧ Passes (.brcNot 0#3 1#48) two ∧ Passes (.jmpr 62#7) two := by
  decide +kernel

/-- P7 just above 0x40_0108. -/
def stacked : State := one.setPtr 0 7 0x400108

theorem witness_CallPushesAndJumps :
    (Alone (.call 1#48) stacked 0 ∧ Alone (.callr 4#7) stacked 0 ∧ (stacked.ptr 0 7 - 8).toNat % 8 = 0
      ∧ okX ((stacked.advance 0).translate 0 0 (stacked.ptr 0 7 - 8).toNat 1) (fun s1 pa mt =>
          okL (s1.storeAt 0 pa mt (toBytes 8 s1.iss.npc.toNat) {} (fencedOn stacked 0)) fun _ => true) = true)
    ∧ (Alone (.call 1#48) (one.setPtr 0 7 12) 0 ∧ Alone (.callr 4#7) (one.setPtr 0 7 12) 0
      ∧ ((one.setPtr 0 7 12).ptr 0 7 - 8).toNat % 8 ≠ 0)
    ∧ Alone (.call 1#48) (one.setPtr 0 7 (BitVec.ofNat 64 (2 ^ 60))) 0
      ∧ (match ((one.setPtr 0 7 (BitVec.ofNat 64 (2 ^ 60))).advance 0).translate 0 0 (2 ^ 60 - 8) 1 with
        | .fault _ => true
        | _ => false) = true := by decide +kernel

/-- Words of a cluster's L1 from an address, valid in every byte. -/
def held (a : Nat) (ws : List Word) : L1 :=
  { words := (upTo ws.length).map fun i => (a + 4 * i, { val := ws.getD i 0, valid := 15 }) }

/-- The cluster's L1 holds what P7 points to. -/
def returning : State := { one.setPtr 0 7 0x400100 with l1s := [(0, held 0x400100 [0x400010, 0])] }

/-- The premises that every clause of a RET that completes shares, and p of the translated state and address. -/
def popAt (s : State) (p : State → Nat → Bool) : Bool :=
  decide (Alone .ret s 0 ∧ s.wholeThread 0 = true ∧ (s.ptr 0 7).toNat % 8 = 0)
    && okX ((s.advance 0).translate 0 0 (s.ptr 0 7).toNat 0) fun s1 pa mt => mt ≠ 1 && !s1.isRemote 0 pa
      && !s1.acquiring 0 0 && !s1.atomOn 0 0 pa 8 && !s1.ldtOn 0 0 pa 8 && !s1.earlierLoad 0 0 pa 8 && p s1 pa

/-- A swarm core whose L0 holds 16 bytes from 0x40_0100. -/
def nearby (s : State) : State := s.modCore 0 fun k =>
  { k with l0 := [(0x400100, 0x400010), (0x400104, 0), (0x400108, 7), (0x40010C, 8)] }

/-- The request of the lone thread's RET. -/
def retReq : LoadReq := { one.request 0 0x400100 0x400100 8 [] with ret := true }

theorem witness_ReturnPopsAndJumps :
    popAt (nearby (swarm.setPtr 0 7 0x400100)) (fun s1 pa => s1.l0Bytes 0 pa 8 = some (toBytes 8 0x400010)) = true
    ∧ popAt returning (fun s1 pa => !(s1.leaveCore 0).portBusy 0 pa && s1.l0Bytes 0 pa 8 = none && s1.l1Has 0 pa 8
        && !s1.l1Marked 0 pa 8) = true
    ∧ popAt (one.setPtr 0 7 0x400100) (fun s1 pa => !(s1.leaveCore 0).portBusy 0 pa && s1.l0Bytes 0 pa 8 = none
        && !s1.l1Has 0 pa 8) = true
    ∧ (retReq.ret = true ∧ one.hasThread retReq.g retReq.t = true ∧ (one.thread retReq.g retReq.t).p.length = 8)
    ∧ (Alone .ret (one.setPtr 0 7 4) 0 ∧ ((one.setPtr 0 7 4).ptr 0 7).toNat % 8 ≠ 0)
    ∧ Alone .ret (one.setPtr 0 7 (BitVec.ofNat 64 (2 ^ 60))) 0
      ∧ (match ((one.setPtr 0 7 (BitVec.ofNat 64 (2 ^ 60))).advance 0).translate 0 0 (2 ^ 60) 0 with
        | .fault _ => true
        | _ => false) = true := by decide +kernel

/-- A load of the lone thread is on its way. -/
def loading (s : State) : State :=
  { s with loads := [{ id := 9, g := 0, t := 0, pc := 0, words := [], va := 0, pa := 0, size := 4, dst := [10] }] }

/-- The lone thread is a stitched one. -/
def stitchedOne : State := one.modTh 0 fun h => { h with stitch := some (5, 1) }

theorem witness_ExitEndsThread :
    (Alone .exit (loading one) 0 ∧ ((loading one).advance 0).awaiting 0 0 = true)
    ∧ (Alone .exit one 0 ∧ (one.advance 0).awaiting 0 0 = false ∧ (one.th 0).stitch = none ∧ one.hasThread 0 0 = true
      ∧ one.cur.kind = .simt 0 0)
    ∧ (let s := { stitchedOne with groups := stitchedOne.groups.map fun G => (G.1, { G.2 with
          threads := G.2.threads.map fun h => { h with badX := [0] } }) }
       Alone .exit s 0 ∧ (s.advance 0).awaiting 0 0 = false ∧ (s.th 0).stitch ≠ none
        ∧ (resultCheck (s.advance 0) 0 0).isSome = true)
    ∧ (Alone .exit stitchedOne 0 ∧ (stitchedOne.advance 0).awaiting 0 0 = false ∧ (stitchedOne.th 0).stitch ≠ none
      ∧ resultCheck (stitchedOne.advance 0) 0 0 = none
      ∧ okW (releaseFirst stitchedOne (stitchedOne.advance 0) 0 { ord := .rel, scope := .clu }) (fun _ => true) = true)
    ∧ Alone .exit swarm 0 ∧ (swarm.advance 0).awaiting 0 0 = false ∧ (swarm.th 0).stitch = none
      ∧ swarm.cur.kind.isSwarm = true ∧ (swarm.th 0).home = none := by decide +kernel

/-- Another group stands in the partition's ready queue. -/
def queued : State := one.modPart 0 fun p => { p with ready := [7] }

theorem witness_YieldStepsAside :
    (Alone .yield swarm 0 ∧ swarm.cur.kind = .swarm 0 0)
    ∧ (Alone .yield queued 0
      ∧ (queued.part 0).ready ≠ [])
    ∧ Alone .yield one 0 ∧ one.cur.kind = .simt 0 0 ∧ (one.part 0).ready = [] := by decide +kernel

/-- The tables of the region's tree map the 2 MiB from 0x40_0000 to themselves (R87, R88). -/
def paged (s : State) : State :=
  let m := writeBytes (writeBytes s.mem 0x200000 (toBytes 8 0x201001)) 0x201000 (toBytes 8 0x202001)
  { s with mem := writeBytes m 0x202010 (toBytes 8 0x4000CF) }

/-- The region's trap area stands at 0x48_0000, 512 bytes long and empty, and its handler at 0x40_0200 (R350). -/
def withArea (s : State) : State :=
  let u := (paged s).modRegion 0x10000 fun r => { r with traparea := 0x480000, handler := 0x400200 }
  { u with mem := writeBytes u.mem 0x480000 (toBytes 8 512 ++ toBytes 8 128 ++ toBytes 8 128) }

/-- The record of a trap is written, and the region names a handler. -/
def canTrap (s : State) (t : Nat) (f : ReplyFail) (trapPc : DWord) : Bool :=
  let g := s.iss.g
  let e := s.enterTrap g t f trapPc
  match e.writeRecord (s.group g).kind.die (s.group g).rcb
      (recordBytes f.at_ (e.trapHead g t f false) (State.trapTail f)) with
  | .ok s1 => (s1.resolved s.cur.rcb 11).handler ≠ 0
  | _ => false

theorem witness_TrapEntryRegisters :
    let s := withArea one
    let f := fun (c a : Nat) => ({ info := { cause := c, aux := a }, pc := s.iss.pc.toNat, words := s.iss.words } : ReplyFail)
    s.hasThread 0 0 = true ∧ s.cur.kind.isProofer = false ∧ (s.th 0).status = 0
      ∧ (Alone (.svc 0x1FF#9) s 0 ∧ canTrap (s.dropFaults 0) 0 (f 0x71 0x1FF) s.iss.npc = true)
      ∧ (Alone (.bkpt 0#9) s 0 ∧ canTrap (s.dropFaults 0) 0 (f 0x70 0) s.iss.pc = true)
      ∧ Alone .illegalOp s 0 ∧ canTrap s 0 (f 0x01 0) s.iss.pc = true := by decide +kernel

theorem test_svc_enters : after (.svc 5#9) (withArea one) (fun s => (s.th 0).pc = 0x400200#64 && (s.th 0).trappc = 0x400004#64
    && (s.th 0).trapcause = 0x71#32 && (s.th 0).trapaux = 5#64 && (s.th 0).slot = .trapped
    && readByte s.mem 0x480008 = 0#8 && readByte s.mem 0x480009 = 1#8) = true := by decide +kernel

theorem witness_EretReturns :
    (Alone .eret handling 0 ∧ handling.hasThread 0 0 = true ∧ (handling.th 0).status.getLsbD 1 = true)
    ∧ one.iss.ts = [0] ∧ one.cur.kind.isProofer = false ∧ (one.th 0).status.getLsbD 1 = false := by decide +kernel

theorem witness_WindowMoves :
    (Alone (.setwb 7#5) one 0 ∧ one.cur.kind.isSwarm = false ∧ 8 * (7#5).toNat < one.cur.alloc)
    ∧ (Alone (.setwb 0#5) swarm 0 ∧ swarm.cur.kind.isSwarm = true) ∧ Alone (.setwb 1#5) swarm 0
    ∧ (Alone (.setwb 8#5) one 0 ∧ one.cur.alloc ≤ 8 * (8#5).toNat)
    ∧ Alone (.setkb 4#3) one 0 ∧ Alone (.setkb 0#3) swarm 0 ∧ Alone (.setkb 1#3) swarm 0 := by decide +kernel

theorem witness_MaskUpdates :
    Passes (.mjoin 11#4) two ∧ Passes (.mleave 1#4) two ∧ Passes (.mwrite 11#4 5#7) two ∧ Passes (.mread 5#7 0#4) two := by
  decide +kernel

/-- Thread 1 is live and elsewhere: thread 0 is alone in its bundle. -/
def pair : State :=
  { (two.modThread 0 1 fun h => { h with pc := 0x400400 }) with iss := { two.iss with ts := [0] } }

theorem witness_MaskWait :
    (Alone (.mwait 0#4) handling 0 ∧ handling.hasThread 0 0 = true ∧ handling.cur.arrive.length = 12
      ∧ (handling.th 0).status.getLsbD 1 = true)
    ∧ (let s := one.modGroup 0 fun G => { G with credit := 1 :: List.replicate 11 0 }
       Alone (.mwait 0#4) s 0 ∧ (s.th 0).status.getLsbD 1 = false ∧ bit (s.cur.credits 0) 0 = true)
    ∧ (Alone (.mwait 11#4) one 0 ∧ bit (one.cur.credits 11) 0 = false ∧ bit (one.cur.mask 11) 0 = false)
    ∧ (Alone (.mwait 0#4) one 0 ∧ bit (one.cur.credits 0) 0 = false ∧ bit (one.cur.mask 0) 0 = true
      ∧ andNot (Nat.land (one.cur.mask 0) one.cur.m0) (withBit (one.cur.arrived 0) 0) = 0)
    ∧ Alone (.mwait 0#4) pair 0 ∧ bit (pair.cur.credits 0) 0 = false ∧ bit (pair.cur.mask 0) 0 = true
      ∧ andNot (Nat.land (pair.cur.mask 0) pair.cur.m0) (withBit (pair.cur.arrived 0) 0) ≠ 0 := by decide +kernel

theorem witness_VoteShuffleLogic :
    Passes (.voteAny 7#3 0#3) two ∧ Passes (.voteAll 0#3 7#3) two ∧ Passes (.voteBallot 5#7 7#3) two
    ∧ Passes (.shflIdx 5#7 6#7 7#7) two ∧ Passes (.shflUp 5#7 6#7 7#7) two ∧ Passes (.shflDown 5#7 6#7 7#7) two
    ∧ Passes (.shflXor 127#7 6#7 7#7) two ∧ Passes (.plop 0#3 1#3 7#3 15#4) two := by decide +kernel

/-- D and A of a block move at 0x40_0800 and 0x40_0900, of n bytes. -/
def moving (n : Word) : State := ((one.setPair 0 4#7 0x400800).setPair 0 6#7 0x400900).setReg 0 8#7 n

/-- The same, with the source in the cluster's L1. -/
def movingHeld (n : Word) : State := { moving n with l1s := [(0, held 0x400900 (List.replicate 32 5))] }

theorem witness_BlockMoveChunk :
    (Alone (.bmov 4#7 6#7 8#7) (moving 0) 0 ∧ Alone (.bfill 4#7 6#7 8#7) (moving 0) 0 ∧ ((moving 0).reg 0 8#7).toNat = 0)
    ∧ (let s := moving 128
       Alone (.bfill 4#7 6#7 8#7) s 0 ∧ (s.reg 0 8#7).toNat ≤ 128 - (s.pair 0 4#7).toNat % 128
       ∧ (s.advance 0).acquiring 0 0 = false ∧ okX ((s.advance 0).translate 0 0 0x400800 1) (fun s1 pa mt =>
          okL (s1.storeAt 0 pa mt ((upTo 128).map fun i =>
              BitVec.ofNat 8 ((s.reg 0 6#7).toNat / 2 ^ (8 * ((0x400800 + i) % 4)))) {} none) fun s2 =>
            s2.reg 0 8#7 = s.reg 0 8#7 &&
              (((s2.setPair 0 4#7 (s2.pair 0 4#7 + 128)).setReg 0 8#7 0).reg 0 8#7 = 0)) = true)
    ∧ (let s := movingHeld 1
       Alone (.bmov 4#7 6#7 8#7) s 0 ∧ (s.reg 0 8#7).toNat ≤ 128 - (s.pair 0 4#7).toNat % 128
       ∧ (s.advance 0).reading 0 0 = false
       ∧ (match translatePieces 0 0 0 (s.advance 0) (pagePieces (s.pair 0 6#7).toNat 1) with
          | .ok s1 ps => okX (s1.translate 0 0 0x400800 1) fun s2 pa mt => okE (readPieces s2 0 0 ps) fun bs =>
              bs.length = 1 && okL (s2.storeAt 0 pa mt bs {} none) fun s3 => s3.reg 0 8#7 = s.reg 0 8#7
                && (((s3.setPair 0 4#7 0).setReg 0 8#7 0).setPair 0 6#7 0x400901).reg 0 8#7 = 0
          | _ => false) = true) := by decide +kernel

theorem witness_SystemRegisterReads :
    (∀ n ∈ [0x000, 0x001, 0x002, 0x003, 0x004, 0x008, 0x009, 0x010, 0x011, 0x012, 0x013, 0x014, 0x015, 0x020, 0x027,
        0x028, 0x02F, 0x030, 0x040, 0x100], Passes (.csrr 4#7 n) two)
    ∧ Passes (.csrr 126#7 0x040#9) two ∧ Passes (.csrr 4#7 0x101#9) sup := by decide +kernel

theorem witness_SystemRegisterWrites :
    (∀ n ∈ [0x001, 0x002, 0x003, 0x004, 0x030], Alone (.csrw n 4#7) one 0) ∧ Alone (.csrw 0x100#9 4#7) sup 0
    ∧ (one.iss.ts = [0] ∧ one.cur.kind.isProofer = false ∧ csrWidth (0x000#9).toNat ≠ none
      ∧ (0x000#9).toNat ∉ [0x001, 0x002, 0x003, 0x004, 0x030, 0x100])
    ∧ csrWidth (0x100#9).toNat ≠ none ∧ (one.th 0).status.getLsbD 0 = false := by decide +kernel

/-! ### Loads and stores -/

/-- The store goes on in a state that p accepts. -/
def okS (r : StoreRes) (p : State → Bool) : Bool := match r with
  | .ok s => p s
  | _ => false

/-- x6 holds 0x40_0800, and P1 too. -/
def aimed : State := (one.setPair 0 6#7 0x400800).setPtr 0 1 0x400800

/-- The same with the line's first words in the cluster's L1. -/
def aimedHeld : State := { aimed with l1s := [(0, held 0x400800 [1, 2, 3, 4])] }

/-- The same through an uncached leaf. -/
def uncached : State := { aimed with tlb := aimed.tlb.map fun e => { e with leaf := 0x1CF } }

/-- The premises that every load clause shares, and p of the translated state, address and memory type. -/
def loadAt (i : Instr) (s : State) (va : Int) (n : Nat) (p : State → Nat → Nat → Bool) : Bool :=
  decide (Alone i s 0) && va % n = 0 && okX ((s.advance 0).translate 0 0 va.toNat 0) fun s1 pa mt =>
    !s1.acquiring 0 0 && p s1 pa mt

/-- A cached page, and no earlier access of the thread to the bytes on its way. -/
def clear (n : Nat) (s1 : State) (pa mt : Nat) : Bool :=
  mt ≠ 1 && !s1.isRemote 0 pa && !s1.atomOn 0 0 pa n && !s1.ldtOn 0 0 pa n && !s1.earlierLoad 0 0 pa n

/-- The core's L0 holds the bytes. -/
def near (n : Nat) (s1 : State) (pa mt : Nat) : Bool := clear n s1 pa mt && (s1.l0Bytes 0 pa n).isSome

/-- The cluster's L1 holds the bytes, and no L0 does. -/
def hit (n : Nat) (s1 : State) (pa mt : Nat) : Bool :=
  clear n s1 pa mt && !(s1.leaveCore 0).portBusy 0 pa && (s1.l0Bytes 0 pa n).isNone && s1.l1Has 0 pa n && !s1.l1Marked 0 pa n

/-- Neither holds the bytes. -/
def miss (n : Nat) (s1 : State) (pa mt : Nat) : Bool :=
  clear n s1 pa mt && !(s1.leaveCore 0).portBusy 0 pa && (s1.l0Bytes 0 pa n).isNone && !s1.l1Has 0 pa n

/-- The lone context, with x6 and P1 at what its core's L0 holds. -/
def aimedNear : State := (nearby (swarm.setPair 0 6#7 0x400100)).setPtr 0 1 0x400100

/-- The constant cache holds an older value of the first word that the L1 holds. -/
def aimedOld : State := aimedHeld.modEngine 0 fun e => { e with olds := [(0x400800, 9)] }

/-- The access goes to its target. -/
def direct (s1 : State) (pa mt : Nat) : Bool := mt = 1 && (s1.accessFail 0 pa).isNone

theorem witness_GlobalLoadsComplete :
    (let i : Instr := .ld {} 8#7 6#7 0#34 .q
     loadAt i aimedNear 0x400100 16 (near 16) = true
     ∧ loadAt i aimedHeld 0x400800 16 (hit 16) = true ∧ loadAt i aimed 0x400800 16 (miss 16) = true
     ∧ loadAt i uncached 0x400800 16 direct = true ∧ aimed.globalAddr 0 6#7 16 0#34 = 0x400800)
    ∧ (let i : Instr := .ldPointer { ord := .acq } 8#7 false .inc 1#3 .b
       let u := fun (s : State) => s.usePtr 0 false .inc 1 1
       loadAt i aimedNear (u aimedNear).addr 1 (near 1) = true
       ∧ loadAt i aimedHeld (u aimedHeld).addr 1 (hit 1) = true ∧ loadAt i aimed (u aimed).addr 1 (miss 1) = true
       ∧ loadAt i uncached (u uncached).addr 1 direct = true)
    ∧ (let i : Instr := .ldc {} 8#7 6#7 1#34 .w
       loadAt i aimedNear 0x400104 4 (near 4) = true ∧ aimedNear.cur.kind.isSwarm = true
       ∧ loadAt i aimedHeld 0x400804 4 (hit 4) = true
       ∧ loadAt i aimed 0x400804 4 (fun s1 pa mt => miss 4 s1 pa mt
          && (wordsIn pa 4).all fun wa => (lget wa (s1.engine 0).olds).isNone) = true
       ∧ loadAt i uncached 0x400804 4 direct = true)
    ∧ loadAt (.ldc {} 8#7 6#7 0#34 .w) aimedOld 0x400800 4 (fun s1 pa mt => mt ≠ 1 && !s1.isRemote 0 pa
        && !((wordsIn pa 4).all fun wa => (lget wa (s1.engine 0).olds).isNone) && hit 4 s1.freeBit.2 pa mt) = true
    ∧ aimedOld.cur.kind.isSwarm = false
    ∧ Alone (.ldPf {} (.off 3#34) 1#3 .w) aimed 0 := by decide +kernel

theorem witness_TranslationMarksLeaf :
    okX (one.translate 0 0 0x400FFC 2) (fun _ _ mt => mt = 0) = true
    ∧ okX (({ one with tlb := one.tlb.map fun e => { e with leaf := 0x0F } } : State).translate 0 0 0x400000 1)
      (fun s1 _ _ => s1.mem ≠ one.mem) = true := by decide +kernel

theorem witness_LoadedValue :
    let at_ := fun (sz : Size) => loadAt (.ld {} 8#7 6#7 0#34 sz) aimedHeld 0x400800 sz.bytes (hit sz.bytes)
      && loadAt (.ld {} 8#7 6#7 0#34 sz) aimedNear 0x400100 sz.bytes (near sz.bytes)
    aimedHeld.wholeThread 0 = true ∧ aimedNear.wholeThread 0 = true ∧ at_ .w = true ∧ at_ .d = true ∧ at_ .b = true ∧ at_ .h = true ∧ at_ .s8 = true
      ∧ at_ .s16 = true := by decide +kernel

/-- The premises that every store clause shares, and p of the translated state, address and memory type. -/
def storeAt (i : Instr) (s : State) (va : Int) (n : Nat) (p : State → Nat → Nat → Bool) : Bool :=
  decide (Alone i s 0) && va % n = 0 && okX ((s.advance 0).translate 0 0 va.toNat 1) fun s1 pa mt =>
    !s1.reading 0 0 && (s1.sentBusy 0 0).isNone && !s1.atomOn 0 0 pa n && p s1 pa mt

/-- The cluster's L1 takes the bytes. -/
def takes (s : State) (rel : Bool) (bs : List Byte) (s1 : State) (pa mt : Nat) : Bool :=
  mt ≠ 1 && !s1.isRemote 0 pa && !s1.portBusy 0 pa
    && okS ((s1.noteUnfenced 0 0 pa bs.length).storeL1 0 pa bs (s.advance 0 |>.who 0) rel) fun _ => true

theorem witness_GlobalStoresComplete :
    (storeAt (.st {} 8#7 6#7 0#34 .o) aimed 0x400800 32 (takes aimed false (List.replicate 32 0)) = true)
    ∧ storeAt (.st { ord := .rel } 8#7 6#7 0#34 .w) aimed 0x400800 4 (takes aimed true (List.replicate 4 0)) = true
    ∧ storeAt (.st { ord := .rel, scope := .sys } 8#7 6#7 0#34 .w) aimed 0x400800 4 (fun s1 pa mt =>
        mt ≠ 1 && (fencedOn aimed 0).isNone && (s1.closeEpoch 0).1.isNone
          && takes aimed false (List.replicate 4 0) (s1.closeEpoch 0).2 pa mt) = true
    ∧ storeAt (.st {} 8#7 6#7 0#34 .b) uncached 0x400800 1 direct = true
    ∧ storeAt (.st { ord := .rel } 8#7 6#7 0#34 .w) uncached 0x400800 4 (fun s1 pa mt =>
        (fencedOn uncached 0).isNone && (s1.closeEpoch 0).1.isNone && direct (s1.closeEpoch 0).2 pa mt) = true
    ∧ (let u := fun (s : State) => s.usePtr 0 false (.idx 7#7) 1 4
       let i : Instr := .stPointer {} 8#7 false (.idx 7#7) 1#3 .w
       storeAt i aimed (u aimed).addr 4 (takes aimed false (List.replicate 4 0)) = true
       ∧ storeAt i uncached (u uncached).addr 4 direct = true) := by decide +kernel

theorem witness_StoredBytes :
    storeAt (.st {} 8#7 6#7 0#34 .h) aimed 0x400800 2 (fun s1 pa mt => pa % 2 = 0
      && takes aimed false (storeBytes aimed 0 8#7 .h) s1 pa mt) = true
    ∧ storeAt (.st { scope := .sys } 8#7 6#7 (-4#34) .o) aimed 0x400780 32 (fun s1 pa mt => pa % 32 = 0
      && takes aimed false (storeBytes aimed 0 8#7 .o) s1 pa mt) = true
    ∧ aimed.hasThread 0 0 = true := by decide +kernel

/-- x6 and P1 point at the last four bytes of the scratchpad. -/
def padEnd : State := (pad.setReg 0 6#7 1020#32).setPtr 0 1 1020

/-- Line 7 of the scratchpad is as given. -/
def padLine (l : Line) : State := padEnd.modLine 0 7 fun _ => l

/-- The premises of a scratchpad access at 1,020. -/
def padAt (i : Instr) (s : State) (x : Int) (high : Bool) (p : State → Bool) : Bool :=
  decide (Alone i s 0) && (spmCheck (s.advance 0) x high 4).isNone && !(s.advance 0).acquiring 0 0
    && !s.acquiring 0 0 && !s.reading 0 0 && ((s.advance 0).sentBusy 0 0).isNone && x = 1020
    && x.toNat + 4 ≤ s.spmSize 0 && p s

theorem witness_ScratchpadAccesses :
    let full := fun (s : State) => (s.emptyLine 0 1020 4).isNone && !s.poisoned 0 1020 4
    let bad := fun (s : State) => (s.emptyLine 0 1020 4).isNone && s.poisoned 0 1020 4
    let empty := fun (s : State) => s.emptyLine 0 1020 4 = some 7
    let ld : Instr := .lds {} 8#7 6#7 0#34 .w
    let ldp : Instr := .ldPointer {} 8#7 true .inc 1#3 .w
    let u := fun (s : State) => s.usePtr 0 true .inc 1 4
    padAt ld padEnd (padEnd.spmAddr 0 6#7 4 0#34) false full = true
    ∧ padAt ld (padLine { full := false }) 1020 false empty = true
    ∧ padAt ld (padLine { poison := true }) 1020 false bad = true
    ∧ padAt ldp padEnd (u padEnd).addr (u padEnd).high full = true
    ∧ padAt (.sts { ord := .rel } 8#7 6#7 0#34 .w) padEnd (padEnd.spmAddr 0 6#7 4 0#34) false (fun _ => true) = true
    ∧ padAt (.sts { ord := .rel, scope := .sys } 8#7 6#7 0#34 .w) padEnd 1020 false (fun s =>
        (fencedOn s 0).isNone && ((s.advance 0).closeEpoch 0).1.isNone) = true
    ∧ padAt (.stPointer {} 8#7 true .inc 1#3 .w) padEnd (u padEnd).addr (u padEnd).high (fun _ => true) = true := by
  decide +kernel

theorem witness_AccessTraps :
    let faults := fun (s : State) (va : Int) (acc : Nat) => match (s.advance 0).translate 0 0 va.toNat acc with
      | .fault _ => true
      | _ => false
    let far := one.setPair 0 6#7 (BitVec.ofNat 64 (2 ^ 60))
    let odd := one.setPair 0 6#7 0x400801
    let past := pad.setReg 0 6#7 1020#32
    (∀ i ∈ [Instr.ld {} 8#7 6#7 0#34 .h, .ldc {} 8#7 6#7 0#34 .h, .st {} 8#7 6#7 0#34 .h],
      Alone i odd 0 ∧ odd.globalAddr 0 6#7 2 0#34 % 2 ≠ 0 ∧ Alone i far 0 ∧ far.globalAddr 0 6#7 2 0#34 % 2 = 0)
    ∧ faults far (far.globalAddr 0 6#7 2 0#34) 0 = true ∧ faults far (far.globalAddr 0 6#7 2 0#34) 1 = true
    ∧ (∀ i ∈ [Instr.lds {} 8#7 6#7 1#34 .w, .sts {} 8#7 6#7 1#34 .w], Alone i past 0)
    ∧ past.spmAddr 0 6#7 4 1#34 = 1024 ∧ past.spmSize 0 = 1024 ∧ (past.advance 0).spmSize 0 = 1024 := by decide +kernel

/-! ### Asynchronous data movement, tickets, atomics, fences -/

/-- x6 = 0x40_0800, x4 = 0 and x5 = 3: a global address, a scratchpad address and a number. -/
def mixed : State := ((pad.setPair 0 6#7 0x400800).setReg 0 4#7 0#32).setReg 0 5#7 3#32

theorem witness_LandingsAndLines :
    let s := mixed
    let empty := s.modLine 0 0 fun l => { l with full := false }
    (∀ mo ∈ [({} : MemOrd), { ord := .rel }], Alone (.ldgs mo 4#7 6#7 0#34 .l) s 0)
    ∧ s.globalAddr 0 6#7 64 0#34 % 64 = 0 ∧ (s.reg 0 4#7).toNat % 64 = 0
    ∧ okX ((s.advance 0).translate 0 0 0x400800 0) (fun s1 _ _ => (s1.spmBad 0 0 64).isNone && !s1.reading 0 0
        && (s1.releaseWait 0 0).isNone && !s1.acquiring 0 0 && s1.met 0 0 (.ldgs 0) && s1.met 0 0 (.count 0 0)) = true
    ∧ (Alone (.waitf 4#7) s 0 ∧ (s.advance 0).spmBad 0 0 1 = none ∧ (s.line 0 0).full = true)
    ∧ (Alone (.waitf 4#7) empty 0 ∧ (empty.advance 0).spmBad 0 0 1 = none ∧ (empty.line 0 0).full = false)
    ∧ Alone (.sete 4#7) s 0 ∧ (s.advance 0).reading 0 0 = false := by decide +kernel

/-- A copy command of one 8-byte element into the scratchpad (R223), in x8 to x15. -/
def copyWords : List Word := [0x60#32, 0x400800#32, 0#32, 0#32, 1#32, 0#32, 0#32, 0#32]
def copying : State := pad.setRun 0 8#7 copyWords
/-- The same of no elements. -/
def noWords : List Word := [0x60#32, 0x400800#32, 0#32, 0#32, 0#32, 0#32, 0#32, 0#32]

theorem witness_CopyQueueInstructions :
    let s := copying
    let st := s.advance 0
    let out := s.modTh 0 fun h => { h with out := [0, 0, 2, 0] }
    (∀ mo ∈ [({} : MemOrd), { ord := .rel }], Alone (.acpy mo 0#2 8#7) s 0 ∧ copyCheck st copyWords = none
      ∧ okW (entryWait s st 0 mo) (fun s1 => (cqLines copyWords).all (fun l => (s1.line 0 l).count < 15)
        && (s1.stay 0 (.queues 0 1)).cqRoom 0 1 s.cur.rcb) = true)
    ∧ s.run 0 8#7 8 = copyWords ∧ cqMarks copyWords = true ∧ copyItems copyWords ≠ 0
    ∧ (let u := pad.setRun 0 8#7 noWords
       Alone (.acpy {} 0#2 8#7) u 0 ∧ u.run 0 8#7 8 = noWords ∧ copyCheck (u.advance 0) noWords = none
       ∧ copyItems noWords = 0 ∧ okW (entryWait u (u.advance 0) 0 {}) (fun s1 =>
         ((if cqMarks noWords then cqLines noWords else []).all fun l => (s1.line 0 l).count < 15)) = true)
    ∧ (Alone (.qjoin 15#4) s 0 ∧ st.joinRoom 0 15 = true)
    ∧ (Alone (.qwait 2#2 5#7) (out.setReg 0 5#7 2#32) 0 ∧ Alone (.qwait 2#2 5#7) (out.setReg 0 5#7 1#32) 0)
    ∧ Alone (.mfree 5#7) s 0 := by decide +kernel

theorem witness_TicketInstructions :
    let s := mixed.modRegion 0x10000 fun r => { r with tkq := 1 }
    let st := s.advance 0
    let held := s.setReg 0 5#7 0x4000000#32
    let fits := fun (s : State) => ticketCheck (s.advance 0) (s.reg 0 5#7).toNat = none
    (Alone (.ldt {} 8#7 6#7 .v) s 0 ∧ (s.pair 0 6#7).toNat % 64 = 0
      ∧ okX (st.translate 0 0 0x400800 0 true) (fun s1 pa mt => (s1.ticketLimit 0x10000).isNone && !s1.acquiring 0 0
          && !s1.earlierLoad 0 0 pa 64 && !s1.ldtOn 0 0 pa 64 && mt = 0 && !s1.atomOn 0 0 pa 64
          && !unsentRelease s1 0 (lineOf pa)) = true)
    ∧ (Alone (.rdm 8#7 5#7) held 0 ∧ fits held)
    ∧ (Alone (.rdm 8#7 5#7) one 0 ∧ (one.reg 0 5#7).toNat = 0)
    ∧ (Alone (.rdmSpm 4#7 5#7) held 0 ∧ (held.reg 0 4#7).toNat % 64 = 0 ∧ (held.advance 0).spmBad 0 0 64 = none
      ∧ (held.advance 0).met 0 0 (.count 0 0) = true ∧ held.hasThread 0 0 = true)
    ∧ Alone (.tkdrop 5#7) held 0 ∧ Alone (.tkdrop 5#7) one 0 ∧ ¬ fits one := by decide +kernel

/-- The premises of an atomic of n bytes at x6. -/
def atomAt (i : Instr) (s : State) (n : Nat) (mo : MemOrd) : Bool :=
  let r := startWalks i (fun s t => (s.pair t 6#7).toNat) n s
  r.2.isNone && decide (s.iss.ts = [0] ∧ Alone i r.1 0 ∧ r.1.iss = s.iss ∧ r.1.group 0 = s.group 0)
    && (s.pair 0 6#7).toNat % n = 0 && okX ((r.1.advance 0).translate 0 0 (s.pair 0 6#7).toNat 2) fun s1 pa _ =>
      !s1.awaiting 0 0 && okW (atomWaits r.1 s1 0 pa mo) fun _ => true

/-- The premises of an atomic on the scratchpad at x4. -/
def spmAtomAt (i : Instr) (s : State) (mo : MemOrd) (w : Nat) : Bool :=
  let st := s.advance 0
  decide (Alone i s 0) && (spmCheck st 0 false w).isNone && !st.reading 0 0 && okW (releaseFirst s st 0 mo) fun s1 =>
    (s1.emptyLine 0 0 w).isNone && !s1.poisoned 0 0 w && s1.block 0 = s.block 0

theorem witness_AtomicInstructions :
    atomAt (.atom {} .s32 .add 8#7 6#7 5#7) aimed 4 {} = true
    ∧ atomAt (.atom { ord := .ar, scope := .sys } .s64 .cas 8#7 6#7 10#7) aimed 8 { ord := .ar, scope := .sys } = true
    ∧ atomAt (.red { ord := .rel } .s32 .addF32 6#7 5#7) aimed 4 { ord := .rel } = true
    ∧ atomAt (.join 6#7) aimed 8 { ord := .ar, scope := .dev } = true
    ∧ spmAtomAt (.atomSpm {} .s64 .cas 8#7 4#7 10#7) mixed {} 8 = true
    ∧ spmAtomAt (.atomSpm { ord := .rel } .n32 .min 8#7 4#7 5#7) mixed { ord := .rel } 4 = true
    ∧ spmAtomAt (.redSpm {} .s32 .xor 4#7 5#7) mixed {} 4 = true := by decide +kernel

theorem witness_FencesAndBarriers :
    let s := mixed
    let st := s.advance 0
    (∀ mo ∈ [({ ord := .acq } : MemOrd), { ord := .ar, scope := .sys }, { ord := .rel, scope := .clu }],
      Alone (.fence mo) s 0 ∧ st.reading 0 0 = false ∧ st.redding 0 0 (fun _ => true) = false ∧ okW (releaseFirst s st 0 (fenceOrd mo)) (fun _ => true) = true)
    ∧ (Alone (.cflush 6#7) aimedHeld 0 ∧ okX ((aimedHeld.advance 0).translate 0 0 0x400800 0) (fun s1 pa mt =>
        mt ≠ 1 && !s1.isRemote 0 pa && !s1.lineBusy 0 (lineOf pa) && s1.met 0 0 (.flushed 0 (lineOf pa))
          && dirtyIn s1 0 (lineOf pa) = []) = true)
    ∧ (Alone (.bara 4#7) s 0 ∧ Alone (.baraTx 4#7 5#7) s 0 ∧ barrierCheck st (s.reg 0 4#7).toNat = none
      ∧ arrivalWait s 0 = none ∧ arrivalWait st 0 = none)
    ∧ Alone (.barw 4#7 5#7) s 0 ∧ at0 (s.barBase 0 0) 3 ≠ (s.reg 0 5#7).toNat
    ∧ Alone (.barw 4#7 8#7) s 0 ∧ at0 (s.barBase 0 0) 3 = (s.reg 0 8#7).toNat := by decide +kernel


/-! ### Messages, launches, proofers, contexts -/

/-- A message for the lone thread's group. -/
def mailIn : Message := { sender := 3, target := 0, words := [7, 8], rcb := 0x10000 }
def mailed : State := one.modGroup 0 fun G => { G with mail := [mailIn, mailIn] }

theorem witness_MessageInstructions :
    let st := one.advance 0
    let sw := swarm.advance 0
    (∀ n ∈ [0, 8], Alone (.msend (BitVec.ofNat 4 n) 5#7 8#7) one 0)
    ∧ (bits (one.reg 0 5#7).toNat 30 24 = 0 ∧ st.groupAt 0x10000 0 = some 0 ∧ st.routeFail 0 (mailDie st 0 (some 0)) = none
      ∧ st.mailRoom 0 0x10000 0 = true ∧ st.reading 0 0 = false
      ∧ okW (releaseFirst one st 0 { ord := .rel, scope := mailScope st 0 (some 0) }) (fun _ => true) = true)
    ∧ (Alone (.mrecv 8#7 20#7) mailed 0 ∧ mailed.cur.mail = [mailIn, mailIn])
    ∧ (Alone (.mrecv 8#7 20#7) one 0 ∧ one.cur.mail = [])
    ∧ (Alone (.launch 4#7) one 0 ∧ (one.pair 0 4#7).toNat % 128 = 0 ∧ st.met 0 0 (.inbox 0) = true)
    ∧ (Alone (.launch 4#7) swarm 0 ∧ sw.met 0 0 (.inbox 256) = true)
    ∧ (Alone (.stitch 8#4 7#3 4#7 8#7) swarm 0 ∧ swarm.cur.kind.isSwarm = true ∧ (swarm.pair 0 4#7).toNat % 4 = 0
      ∧ sw.met 0 0 .slot = true ∧ sw.reading 0 0 = false
      ∧ okW (releaseFirst swarm sw 0 { ord := .rel, scope := .clu }) (fun _ => true) = true)
    ∧ Alone (.stitch 8#4 7#3 4#7 8#7) one 0 ∧ one.cur.kind.isSwarm = false := by decide +kernel

/-- x8 up holds the operands of PFARM: an entry whose header stands in the cluster's L1, and line 0. -/
def arming : State :=
  { (paged pad).setPair 0 8#7 0x400100 |>.setReg 0 11#7 128#32 with
    l1s := [(0, held 0x4000F0 [0, 0x01000000, 0, 0])] }
def armingSwarm : State := { swarm.setPair 0 8#7 0x400100 with l1s := [(0, held 0x4000F0 [0, 0x01000000, 0, 0])] }

/-- An arming of the lone context's mailbox. -/
def armedMailbox : Arming :=
  { unit := swarmProofer 0, blk := 0, entry := 0x400100, start := 0, stop := 0, g := 0, ident := {}, rcb := 0x10000
    lr := 0x20000, ent := 0 }

/-- The header before the entry says that it is a proofer, and p of the state then. -/
def headed (s : State) (p : State → Bool) : Bool :=
  let st := s.advance 0
  !st.acquiring 0 0 && (match translatePieces 0 0 0 st (pagePieces (0x400100 - 16) 16) with
    | .ok s1 ps => okE (readPieces s1 0 0 ps) (fun bs => bit (ofBytes ((bs.drop 7).take 1)) 0) && p s1
    | _ => false)

theorem witness_ProoferArming :
    (Alone (.pfarm 8#7) arming 0 ∧ arming.cur.kind.isSwarm = false ∧ rangeCheck (arming.advance 0) 0 128 = none
      ∧ (arming.regAt 0 8#7 2).toNat = 0 ∧ (arming.regAt 0 8#7 3).toNat = 128
      ∧ headed arming (fun s1 => s1.met 0 0 (.proofer 0)) = true)
    ∧ (Alone (.pfarm 8#7) armingSwarm 0 ∧ armingSwarm.cur.kind = .swarm 0 0
      ∧ headed armingSwarm (fun s1 => s1.met 0 0 (.proofer (swarmProofer 0))) = true)
    ∧ (let s := { armingSwarm with swarmArms := [armedMailbox] }
       Alone (.pfarm 8#7) s 0 ∧ headed s (fun s1 => s1.swarmArms.any fun b => b.g = 0) = true)
    ∧ (Alone (.pfstop 8#7) one 0 ∧ one.cur.kind.isSwarm = false)
    ∧ Alone (.pfstop 8#7) swarm 0 ∧ swarm.cur.kind.isSwarm = true := by decide +kernel

/-- A FORK of 100 over a cell at 0x40_0800, in a region of three members at most. -/
def forking : State :=
  (((paged one).modRegion 0x10000 fun r => { r with forkcap := 3 }).setReg 0 8#7 100#32).setPair 0 6#7 0x400800

/-- The kernel's entry is 0x40_0100, its migration table the 24 bytes from 0x40_0180: the point of id 5 at the
lone thread's PC, where x0 and k0 are live. -/
def migrating : State :=
  let s := (paged one).modGroup 0 fun G => { G with entry := 0x400100 }
  let m := writeBytes s.mem 0x4000F0 (toBytes 4 0x80 ++ toBytes 4 1)
  { s with mem := writeBytes m 0x400180 (toBytes 8 0x400000 ++ toBytes 8 1 ++ toBytes 4 1 ++ toBytes 4 5) }

/-- The same thread on context 0, from slot 0 of group 1. -/
def migrated : State :=
  let home := fun (h : Thread) => { h with home := some (1, 0) }
  let s := migrating.modGroup 0 fun G =>
    { G with kind := .swarm 0 0, threads := (G.threads.take 1).map home }
  { s with groups := s.groups ++ [(1, migrating.group 0)], tlb := swarm.tlb }

/-- The same with a thread on every context of the cluster. -/
def crowded : State :=
  { migrating with groups := migrating.groups ++ (upTo 1024).map fun i =>
      (1 + i, { (default : Group) with kind := .swarm (i / 16) (i % 16) }) }

theorem crowded_idle (s : State) (h : s.busyContexts = upTo 1024) : s.idleContexts 0 = [] := by
  simp [State.idleContexts, h, upTo]

/-- The migration point of id 5 is at the thread's PC, and p of the state and its live masks. -/
def pointAt (s : State) (p : State → Nat → Nat → Bool) : Bool :=
  let st := s.advance 0
  !st.awaiting 0 0 && (st.sentBusy 0 0).isNone && (match migrationPoint st 0 0 5 with
    | .ok (s1, some (pc, live, livek)) =>
      pc = s.iss.pc.toNat && s1.group 0 = st.group 0 && s1.iss = s.iss && liveBad s.cur (s.th 0) live livek = none
        && p s1 live livek
    | _ => false)

theorem witness_ForkAndMigrate :
    (Alone (.fork 10#7 8#7 6#7) forking 0 ∧ (forking.pair 0 6#7).toNat % 8 = 0
      ∧ okX ((forking.advance 0).translate 0 0 0x400800 1) (fun s1 pa _ =>
          (s1.releaseWait 0 0).isNone && (copiedBad forking 0).isNone && (s1.closeEpoch 0).1.isNone && (s1.closeEpoch 0).2.group 0 = s1.group 0
          && (fencedOn forking 0).isNone
          && okE ((s1.closeEpoch 0).2.writePhys 0 pa (toBytes 8 2)) fun s3 =>
            ((forkClusters 0).map s3.idleCount).sum = 16384 && (s3.resolved 0x10000 13).forkcap = 3
              && recruits s3 (forkClusters 0) 1 = [0]) = true)
    ∧ (Alone (.migr 5#12) migrating 0 ∧ migrating.cur.kind.isSwarm = false
      ∧ pointAt migrating (fun s1 live _ => (liveOver (migrating.th 0).xwb.toNat 64 live).isNone
          && (s1.idleContexts 0).head? = some 0) = true)
    ∧ (Alone (.migr 5#12) crowded 0 ∧ crowded.cur.kind.isSwarm = false
      ∧ pointAt crowded (fun s1 live _ => (liveOver (crowded.th 0).xwb.toNat 64 live).isNone
          && s1.busyContexts = upTo 1024) = true)
    ∧ (Alone (.migr 5#12) migrated 0 ∧ migrated.cur.kind.isSwarm = true ∧ (migrated.th 0).home = some (1, 0)
      ∧ pointAt migrated (fun s1 live _ =>
          (liveOver (s1.thread 1 0).xwb.toNat (s1.group 1).alloc live).isNone) = true) := by decide +kernel

/-! ### Vector and cross-thread arithmetic -/

/-- Both threads, with every format slot set to a code. -/
def slotted (f : Nat) : State := two.modGroup 0 fun G => { G with fs := List.replicate 8 (BitVec.ofNat 32 f) }

theorem witness_VectorResults :
    (∀ i ∈ [Instr.fadd 5#7 6#7 7#7, .fsub 5#7 6#7 7#7, .fmul 5#7 6#7 7#7, .ffma 5#7 6#7 7#7, .fdiv 5#7 6#7 7#7,
      .fmin 5#7 6#7 7#7, .fmax 127#7 6#7 7#7, .fabs 5#7 6#7, .fneg 63#7 6#7, .fround .rn 5#7 6#7, .fclass 5#7 6#7,
      .fcmp .un 7#3 5#7 6#7, .frcp 5#7 6#7, .frsq 5#7 6#7, .fsqrt 5#7 6#7, .fexp2 5#7 6#7, .flog2 5#7 6#7, .fsin 5#7 6#7,
      .fcos 5#7 6#7, .f2i .s32 .rz 5#7 6#7, .f2i .n64 .ru 4#7 6#7, .i2f .s64 5#7 126#7, .cvtTo 5#7 6#7 7#3,
      .cvtFrom 5#7 6#7 0#3, .hadd2F16 5#7 6#7 7#7, .hmul2F16 5#7 6#7 7#7, .hfma2F16 5#7 6#7 7#7, .hadd2Bf16 5#7 6#7 7#7,
      .hmul2Bf16 5#7 6#7 7#7, .hfma2Bf16 5#7 6#7 7#7, .dot4S8 5#7 6#7 7#7], Passes i two)
    ∧ (∀ t ∈ [0, 1], (two.slot t 7).isBlock = false ∧ (two.slot t 0).isBlock = false)
    ∧ (∀ f ∈ [3, 4, 5], Passes (.dot4 7#3 5#7 6#7 7#7) (slotted f))
    ∧ (∀ t ∈ [0, 1], slotTy ((slotted 3).slot t 7).fs = .e4m3 ∧ slotTy ((slotted 4).slot t 7).fs = .e5m2
      ∧ slotTy ((slotted 5).slot t 7).fs = .int8)
    ∧ (∀ f ∈ [0, 6, 9], Passes (.pack 4#7 16#7 1#3) (slotted f) ∧ Passes (.unpk 16#7 4#7 1#3) (slotted f))
    ∧ (∀ f ∈ [0, 6, 9], ∀ t ∈ [0, 1],
      runChecks (slotted f) t [(4#7, (slotTy ((slotted f).slot t 1).fs).stored, false),
        (16#7, (slotTy ((slotted f).slot t 1).fs).packed, true)] = none
      ∧ runChecks (slotted f) t [(16#7, (slotTy ((slotted f).slot t 1).fs).packed, false),
        (4#7, (slotTy ((slotted f).slot t 1).fs).stored, true)] = none) := by decide +kernel

/-- Runs of two entries of the scratchpad at 0 and 64, and room at 128. -/
def merging : State := pad.setRun 0 8#7 [0, 2, 64, 2] |>.setReg 0 5#7 128#32

/-- The premises of a MERGE of those runs. -/
def mergesAt (i : Instr) (kz : Bool) : Bool :=
  let s := merging
  let m : MergeArgs := { s1 := 0, n1 := 2, s2 := 64, n2 := 2, o := 128 }
  decide (Alone i s 0) && (s.run 0 8#7 4).map BitVec.toNat = [m.s1, m.n1, m.s2, m.n2] && (s.reg 0 5#7).toNat = m.o
    && (mergeCheck (s.advance 0) m).isNone && !(s.advance 0).reading 0 0
    && okL (mergeGo m kz 5#7 0 0 5 (s.advance 0) 0 0 0) fun _ => true

theorem witness_CrossThreadResults :
    (∀ i ∈ [Instr.cdet 5#7 6#7, .scanIncF32 5#7 6#7, .scanExcF32 5#7 6#7, .scanIncS32 127#7 6#7, .scanExcS32 5#7 6#7,
      .prune .k4of8 7#3 8#7 16#7, .prune .k2of4 0#3 8#7 16#7], Passes i two)
    ∧ mergesAt (.merge 5#7 8#7 5#7) false = true ∧ mergesAt (.mergeKz 5#7 8#7 5#7) true = true
    ∧ (∀ u ∈ [0, 1], runChecks two u [(8#7, 1 + 4, false)] = none ∧ (two.slot u 7).isBlock = false) := by decide +kernel

/-! ### Accumulator memory, products, weight buffer, sequencer -/

/-- The lone thread's block has two banks of accumulator memory; handle entry 0 holds one of them, and x6 names
it. x7 selects row 0 of tile 0, and SPM for a drain. -/
def tiled : State :=
  let s := pad.modBlock 0 fun B => { B with banks := [[0, 1]] }
  let s := s.modHandle 0 0 fun _ => { gen := 1, banks := [0], shape := 0, blk := some 0 }
  ((s.setReg 0 6#7 0x10000#32).setReg 0 7#7 0x4000#32).setReg 0 5#7 1#32

/-- The same, where x7 selects global memory and x10 points there. -/
def tiledGlobal : State := (tiled.setReg 0 7#7 0#32).setPair 0 10#7 0x400800

theorem witness_AccumulatorInstructions :
    let st := tiled.advance 0
    (Alone (.amalloc 8#7 5#7) tiled 0 ∧ (allocBanks st 0 0 1).isSome = true)
    ∧ (Alone (.amalloc 8#7 8#7) tiled 0 ∧ (allocBanks st 0 0 0).isNone = true)
    ∧ (Alone (.amfree 6#7) tiled 0 ∧ st.handleOk 0 0 0x10000#32 = true ∧ st.handleBusy 0 0 = false)
    ∧ (Alone (.amfree 5#7) tiled 0 ∧ st.handleOk 0 0 1#32 = false)
    ∧ (Alone (.amshape 6#7 5#7) tiled 0 ∧ shapeOk 1#32 = true)
    ∧ (Alone (.amrd 8#7 5#7 7#7) tiled 0 ∧ Alone (.amwr 8#7 5#7 7#7) tiled 0)
    ∧ (Alone (.amrd 8#7 6#7 7#7) tiled 0 ∧ Alone (.amwr 8#7 6#7 7#7) tiled 0 ∧ Alone (.amzero 6#7 7#7) tiled 0
      ∧ selTile 0x10000#32 0x4000#32 = 0 ∧ tileOk (st.handle 0 0) 0 = true ∧ st.tilePending 0 0 0 = false
      ∧ st.amBadWord 0 0 0 [0] = none)
    ∧ (∀ i ∈ [Instr.amdrain 10#7 6#7 7#7, .amdrainAdd 10#7 6#7 7#7], Alone i tiled 0 ∧ Alone i tiledGlobal 0)
    ∧ (ownsBand st 0 (some 0) 0 0 = true ∧ st.amBadWord 0 0 0 (upTo 16) = none ∧ (tiled.reg 0 7#7).getLsbD 14 = true
      ∧ (tiled.reg 0 10#7).toNat % 64 = 0
      ∧ okL (drainSpm false st 0 0 0 0 (some 0) (some 0) 0) (fun _ => true) = true
      ∧ okL (drainSpm true st 0 0 0 0 (some 0) (some 0) 0) (fun _ => true) = true)
    ∧ ((tiledGlobal.reg 0 7#7).getLsbD 14 = false ∧ runChecks tiledGlobal 0 [(10#7, 2, true)] = none
      ∧ (tiledGlobal.pair 0 10#7).toNat % 64 = 0
      ∧ okL (drainGlobal false (tiledGlobal.advance 0) 0 0x400800 0 0 (some 0) (some 0) 0) (fun _ => true) = true
      ∧ okL (drainGlobal true (tiledGlobal.advance 0) 0 0x400800 0 0 (some 0) (some 0) 0) (fun _ => true) = true) := by
  decide +kernel

/-- The drains of a handle that is not the block's: zeros. -/
theorem witness_AccumulatorInstructions_unallocated :
    (∀ i ∈ [Instr.amdrain 10#7 5#7 7#7, .amdrainAdd 10#7 5#7 7#7], Alone i tiled 0 ∧ Alone i tiledGlobal 0)
    ∧ (tiled.advance 0).handleOk 0 0 1#32 = false ∧ ownsBand (tiled.advance 0) 0 none 0 0 = true
    ∧ (∀ add ∈ [false, true], okL (drainSpm add (tiled.advance 0) 0 0 0 0 none none 0) (fun _ => true) = true
      ∧ okL (drainGlobal add (tiledGlobal.advance 0) 0 0x400800 0 0 none none 0) (fun _ => true) = true) := by
  decide +kernel

/-- Threads 24 to 31 are live and the bundle, with handle entry 0 in x6, 16-bit slots, and every granule of the
weight buffer loaded by their block. -/
def quarter : State :=
  let ts := (upTo 8).map (24 + ·)
  let s := ts.foldl (fun (s : State) t => s.modThread 0 t fun _ => freshThread 64 0x400000) tiled
  let s := { s.modGroup 0 (fun G => { G with fs := List.replicate 8 1#32 }) with iss := { s.iss with ts := ts } }
  (s.setReg 24 6#7 0x10000#32).modEngine 0 fun E => { E with wbTag := (upTo 1024).map fun i => (i, (0x20000, 0)) }

/-- An MMA on the last tile of its row. -/
def aProduct : Product :=
  { i := .mma 0#3 1#3 6#7 8#7 4#7 15#10, sa := 0#3, sb := 1#3, pattern := none, h := 6#7, a := 8#7, b := 4#7
    regs := false, e := 0, t := 15 }

/-- The premises of a product of quarter 3. -/
def productAt (m : Product) : Bool :=
  let s := quarter
  s.cur.kind = .simt 0 0 && s.iss.ts.all (· / 8 = 3) && (pendingTile s m 3).isNone && s.met 0 0 (.dispatch 0 0 1)
    && okE (quarterOp s m 3) fun op => (quarterLoads s 0 op).isNone
      && (quarterForeign s 0 (s.cur.lr, (s.owner s.iss.g (s.iss.ts.headD 0)).bid) op).isNone

theorem witness_ProductsQueue :
    productAt aProduct = true
    ∧ productAt { aProduct with i := .mmaR 0#3 1#3 6#7 8#7 24#7 15#10, b := 24#7, regs := true } = true
    ∧ productAt { aProduct with i := .mmas 0#3 1#3 .k2of8 6#7 8#7 4#7 40#7 15#10, pattern := some .k2of8, e := 40#7 } = true
    := by decide +kernel

/-- Operands of a WBLD of 16 raw elements from scratchpad address 64 to buffer offset 16. -/
def loader : State := tiled.setRun 0 8#7 [16, 64, 0x80000010]
/-- An AMZERO command for handle entry 0 in x8 to x15. -/
def commanding : State := tiled.setRun 0 8#7 [1, 0x10000, 0, 0, 0, 0, 0, 0]

theorem witness_LoaderAndSequencer :
    (∀ mo ∈ [({} : MemOrd), { ord := .rel }], Alone (.wbld mo 7#3 8#7 9#7 10#7) loader 0
      ∧ okW (entryWait loader (loader.advance 0) 0 mo) (fun s1 => s1.met 0 0 (.loader 0)) = true
      ∧ Alone (.mq mo 20#7 8#7) commanding 0
      ∧ okW (entryWait commanding (commanding.advance 0) 0 mo) (fun s1 => s1.met 0 0 (.sequencer 0)) = true)
    ∧ wbldCheck (loader.advance 0) ((loader.advance 0).slot 0 7) (loader.reg 0 8#7).toNat (loader.reg 0 9#7).toNat
        (loader.reg 0 10#7) = none
    ∧ mqCheck commanding (commanding.run 0 8#7 8) = none
    ∧ Alone (.lrset 7#3 8#7) one 0
    ∧ (Alone (.mqwait 8#7) one 0 ∧ ((one.engine 0).done + 2 ^ 32 - (one.reg 0 8#7).toNat) % 2 ^ 32 < 2 ^ 31)
    ∧ Alone (.mqwait 5#7) tiled 0 ∧ 2 ^ 31 ≤ ((tiled.engine 0).done + 2 ^ 32 - (tiled.reg 0 5#7).toNat) % 2 ^ 32 := by
  decide +kernel

/-! ### Texture, hash grid, pixels, control stores -/

theorem witness_TextureInstructions :
    let st := one.advance 0
    (∀ i ∈ [Instr.tex 20#7 8#7 16#7, .tld 20#7 8#7 16#7, .tgath 20#7 8#7 16#7, .trav 20#7 8#7 16#7, .hgf 20#7 8#7 16#7,
      .hgs {} 20#7 8#7 16#7, .hgs { ord := .rel } 20#7 8#7 16#7, .hgsDet {} 20#7 8#7 16#7,
      .hgsDet { ord := .rel } 20#7 8#7 16#7, .hgsfence], Alone i one 0)
    ∧ (gridCheck one 0 20#7 (one.regAt 0 8#7 3) true = none ∧ gridCheck one 0 20#7 (one.regAt 0 8#7 3) false = none)
    ∧ (∀ mo ∈ [({} : MemOrd), { ord := .rel }], okW (entryWait one st 0 mo) (fun _ => true) = true)
    ∧ ((st.block one.cur.blk).launch = 0 ∧ (one.th 0).wait = none ∧ st.met 0 0 (.scatter 0 one.nextKey) = true
      ∧ okE (applyBuffered st 0 one.nextKey) (fun _ => true) = true) := by decide +kernel

/-- The lone thread shades a pixel for a graphics context. -/
def shading : State :=
  (one.modTh 0 fun h => { h with pixel := some { prim := 3, at_ := 65, z := 0 } }).modRegion 0x10000 fun r =>
    { r with flags := 2 }
def inSection : State := shading.modTh 0 fun h => { h with pixel := some { prim := 3, at_ := 65, z := 0, section_ := true } }

theorem witness_PixelAndImageInstructions :
    (∀ f ∈ [0, 1, 2, 3], Alone (.pixout (BitVec.ofNat 2 f) 8#7 5#7) shading 0)
    ∧ ((shading.th 0).pixel = some { prim := 3, at_ := 65, z := 0 })
    ∧ (Alone (.pixout 0#2 8#7 5#7) one 0 ∧ (one.th 0).pixel = none)
    ∧ (Alone .rscb shading 0 ∧ (shading.advance 0).met 0 0 .turn = true)
    ∧ Alone .rscb one 0
    ∧ (Alone .rsce inSection 0 ∧ (inSection.th 0).pixel = some { prim := 3, at_ := 65, z := 0, section_ := true }
      ∧ okW (entryWait inSection (inSection.advance 0) 0 { ord := .rel, scope := .clu }) (fun _ => true) = true)
    ∧ (Alone (.csld 5#7) shading 0 ∧ shading.gfx shading.cur.rcb = true ∧ bits (shading.reg 0 5#7).toNat 2 0 = 0)
    ∧ (Alone (.csld 5#7) one 0 ∧ one.gfx one.cur.rcb = false)
    ∧ Alone (.csrel 5#7) one 0 := by decide +kernel

/-! ### Homes and clusters -/

/-- Message 0 can be received, and p holds of it and of the state without it. -/
def arr (s : State) (p : Msg → State → Bool) : Bool := match s.take 0 with
  | some (m, s1) => p m s1
  | none => false

/-- A message in flight within die 0, on a channel. -/
def sent (s : State) (chan : Nat) (b : Body) : State :=
  { s with flight := [{ chan := chan, src := 0, dst := 0, body := b }] }

/-- A message of cluster 0 on its way to the home of the line 0x40_0800. -/
def upward (s : State) (b : Body) : State := sent s (chanUp 0 (s.homeSlice 0 0x400800)) b
/-- A message of that home on its way to cluster 0. -/
def downward (s : State) (b : Body) : State := sent s (chanDown 0 (s.homeSlice 0 0x400800)) b

/-- A cluster owns a word of the line. -/
def owned (c : Nat) : State := { one with owners := [(0x400804, { cluster := c, rel := false })] }
/-- Cluster 0 shares the line. -/
def shared : State := { one with sharers := [(0x400800, [0])] }
/-- An eviction of the line waits for clusters. -/
def inHand (acks : List Nat) : State :=
  { one with txs := [{ line := 0x400800, req := .evict, acks := acks, recalls := [], queue := [] }] }
/-- An atomic on two words of the line. -/
def atomReq : AtomReq :=
  { pa := 0x400808, va := 0x400808, width := 8, op := .add, signed := true, b := 1, e := 0, mo := {}, sink := .outside }

/-- The line's home slice is the one that the message came to. -/
def atHome (m : Msg) (s1 : State) : Bool := s1.homeSlice (chanCluster m.chan / 16) 0x400800 = chanSlice m.chan

theorem witness_HomeRequests :
    (arr (upward one (.gets 0x400800 [0x400804, 0x40087C] 0x10000)) fun m s1 => atHome m s1
      && (s1.txOf 0x400800).isNone && [0x400804, 0x40087C].all fun wa => (lget wa s1.owners).isNone) = true
    ∧ (arr (upward (owned 1) (.gets 0x400800 [0x400804] 0x10000)) fun m s1 => atHome m s1 && (s1.txOf 0x400800).isNone
      && lget 0x400804 s1.owners = some { cluster := 1, rel := false }
      && (s1.pairFail (s1.dieOfLine 0x400800) (1 / 16)).isNone) = true
    ∧ (arr (upward (inHand [0]) (.gets 0x400800 [0x400804] 0x10000)) fun m s1 => atHome m s1
      && (s1.txOf 0x400800).isSome) = true
    ∧ (arr (sent one (chanUp 0 77) (.gets 0x400800 [0x400804] 0x10000)) fun m s1 => !atHome m s1) = true
    ∧ (∀ rel ∈ [true, false], (arr (upward shared (.geto 0x400800 [0x400804] rel 0x10000)) fun m s1 => atHome m s1
      && (s1.txOf 0x400800).isNone && (lget 0x400804 s1.owners).isNone
      && s1.sharersOf 0x400800 = [chanCluster m.chan]) = true)
    ∧ (arr (sent one (chanPage 0 0x400) (.atom [atomReq])) fun m _ => m.chan % 4 ≠ 0 && one.lineFree atomReq.pa 1) = true
    ∧ (arr (upward one (.atom [atomReq])) fun m s1 => m.chan % 4 = 0 && atHome m s1 && lineOf atomReq.pa = 0x400800
      && (s1.txOf 0x400800).isNone && s1.sharersOf 0x400800 = [] && (wordsIn atomReq.pa 8).all fun wa =>
        (lget wa s1.owners).isNone) = true
    ∧ (arr (upward shared (.atom [atomReq])) fun m s1 => m.chan % 4 = 0 && atHome m s1 && lineOf atomReq.pa = 0x400800
      && (s1.txOf 0x400800).isNone && s1.sharersOf 0x400800 = [0] && (wordsIn atomReq.pa 8).all (fun wa =>
        (lget wa s1.owners).isNone) && (wordsIn atomReq.pa 8) ≠ []
      && (s1.pairFail (s1.dieOfLine 0x400800) 0).isNone) = true
    ∧ (arr (upward (inHand [0, 1]) (.iack 0x400800 [] false)) fun m s1 =>
      (s1.txOf 0x400800).any fun x => x.acks.erase (chanCluster m.chan) ≠ []) = true
    ∧ (arr (upward (inHand [0]) (.iack 0x400800 [] false)) fun m s1 => s1.txOf 0x400800
      = some { line := 0x400800, req := .evict, acks := [chanCluster m.chan], recalls := [], queue := [] }) = true
    ∧ (arr (upward (owned 0) (.wb 0x400800 [{ word := 0x400804, val := 5 }])) fun m s1 =>
      (s1.txOf 0x400800).isNone && s1.ownedBy (chanCluster m.chan) 0x400804) = true
    ∧ (shared.txOf 0x400800 = none ∧ shared.sharersOf 0x400800 = [0]
      ∧ (∀ wa ∈ State.lineWords 0x400800, lget wa shared.owners = none)
      ∧ shared.pairFail (shared.dieOfLine 0x400800) 0 = none) := by decide +kernel

/-- A load of the lone thread that waits for a word of the line. -/
def lineLoad : LoadReq :=
  { id := 9, g := 0, t := 0, pc := 0x400000, words := [], va := 0x400804, pa := 0x400804, size := 4, dst := [10] }
/-- The cluster owns a word of the line. -/
def owning : State :=
  { one with l1s := [(0, { words := [(0x400804, { val := 7, valid := 15, dirty := 15, owned := true })] })] }
/-- A store to the word waits for ownership. -/
def storingL1 : State :=
  { withArea one with l1s := [(0, { words := [(0x400804, { val := 7, valid := 15, dirty := 15 })]
                                    replay := [{ words := [0x400804], epoch := 0, rel := false, sent := false
                                                 who := { rcb := 0x10000 } }] })] }
/-- The word's value on its way. -/
def fill : List WordVal := [{ word := 0x400804, val := 5 }]

theorem witness_ClusterMessages :
    (arr (downward one (.data 0x400800 fill)) fun m s1 => chanCluster m.chan = 0
      && (s1.l1Room 0 0x400800).2.isNone && ((s1.l1Room 0 0x400800).1.fillWords 0 fill).cachedLoads 0 = []) = true
    ∧ (arr (downward { one with loads := [lineLoad] } (.data 0x400800 fill)) fun m s1 => chanCluster m.chan = 0
      && (s1.l1Room 0 0x400800).2.isNone
      && (let u := (s1.l1Room 0 0x400800).1.fillWords 0 fill
          u.cachedLoads 0 = [lineLoad] && !u.outOfTurn lineLoad && u.l1Has 0 0x400804 4)) = true
    ∧ (arr (downward { one with loads := [{ lineLoad with id := 8, pa := 0x400808 }, lineLoad] } (.data 0x400800 fill))
        fun m s1 => chanCluster m.chan = 0 && (s1.l1Room 0 0x400800).2.isNone
          && ((s1.l1Room 0 0x400800).1.fillWords 0 fill).outOfTurn lineLoad) = true
    ∧ (arr (downward one (.grant 0x400800 [0x400804] fill false)) fun _ _ => true) = true
    ∧ (arr (downward one (.inv 0x400800 [0x400804])) fun m s1 => (s1.routeFail m.dst m.src).isNone) = true
    ∧ (arr (downward owning (.recallMsg 0x400800 [0x400804] true (some 1))) fun m s1 =>
      let w := s1.l1Word (chanCluster m.chan) 0x400804
      w.owned && !w.leaving && w.rel.isNone) = true
    ∧ (arr (downward owning (.wback 0x400800 [0x400804])) fun _ _ => true) = true
    ∧ (arr (downward one (.retry 0x400800 (.gets 0 [0x400804]))) fun m s1 =>
      (s1.accessFail (chanCluster m.chan / 16) 0x400800).isNone) = true
    ∧ (arr (downward storingL1 (.storeFail 0x400800 [0x400804] 0x33 none)) fun _ s1 =>
      okE (failStores s1 0 0x400800 0x33 [0x400804]) fun s2 => readByte s2.mem 0x480009 = 1#8) = true
    ∧ (arr (downward { one with loads := [{ lineLoad with kind := 1 }] }
        (.atomr { atomReq with width := 4, sink := .thread 0 0 9 } 3 none)) fun _ s1 =>
      s1.loads.find? (fun q => q.id = 9) = some { lineLoad with kind := 1 }) = true
    ∧ ∀ e ∈ (aimedHeld.l1 0).words, lineOf e.1 = 0x400800 → e.2.owned = false ∧ e.2.dirty = 0#4 ∧ e.2.leaving = false := by
  decide +kernel

/-- A host line, and a line of the peer that port 1 reaches. -/
def hostPa : Nat := 2 ^ 48 + 0x800
def peerPa : Nat := 2 ^ 49 + 0x800
def ported : State := { one with peers := [(0, 1)] }

def awoken : State := awake one

theorem witness_UncachedAndPorts :
    let page := chanPage 0 0x400
    let hostReqs : List AtomReq := [{ atomReq with pa := hostPa }]
    (one.lineFree 0x400800 32 = true ∧ (arr (sent one page (.uload 0 0 9 0x400800 32)) fun m s1 =>
      okE ((s1.countAccess 0x400800 m.src 0x10000).uncachedRead m.src 0x400800 32) fun _ => true) = true)
    ∧ (arr (sent { one with loads := [lineLoad] } (chanBack 0) (.uvalue 0 0 9 [1, 2, 3, 4] none)) fun _ s1 =>
      s1.loads.find? (fun q => q.id = 9) = some lineLoad) = true
    ∧ (arr (sent one page (.ustore 0x400800 [1, 2] {})) fun m s1 => one.target m.dst 0x400800 = .hbm 0
      && one.lineFree 0x400800 2 && (s1.accessFail m.src 0x400800).isNone) = true
    ∧ (arr (sent ported (chanMail (2 ^ 40 + peerPa) 0) (.hostAtom [{ atomReq with pa := peerPa }] false)) fun m s1 =>
      (s1.accessFail m.dst peerPa).isNone && s1.target m.dst peerPa = .peer 1) = true
    ∧ (∀ snooped ∈ [true, false], (arr (sent one (chanMail (2 ^ 40 + hostPa) 0) (.hostAtom hostReqs snooped)) fun m s1 =>
      (s1.accessFail m.dst hostPa).isNone && s1.target m.dst hostPa = .host 0) = true)
    ∧ (hostPa / 2 ^ 52 < 4 ∧ one.ownAddr (hostPa / 2 ^ 52) hostPa = hostPa
      ∧ one.target (hostPa / 2 ^ 52) hostPa = .host 0 ∧ portUp one 0 = true ∧ one.txOf (lineOf hostPa) = none
      ∧ one.sharersOf (lineOf hostPa) = [] ∧ ∀ wa ∈ State.lineWords (lineOf hostPa), lget wa one.owners = none)
    ∧ (portUp awoken 0 = true ∧ oneLine 0x400800 128 = true ∧ awoken.lineFree 0x400800 128 = true
      ∧ awoken.running (awoken.homeDie 0 0x400800) = true ∧ awoken.hostPorts.contains 0 = true ∧ awoken.target 0 0x400800 = .hbm 0
      ∧ (awoken.flight.any fun m => m.chan = chanPort 0 0x400800) = false
      ∧ okE (awoken.uncachedRead 0 0x400800 128) (fun _ => true) = true ∧ awoken.accessFail 0 0x400800 = none)
    ∧ (portUp awoken 3 = true ∧ awoken.hostPorts.contains 3 = false ∧ awoken.target 3 0x400800 = .hbm 0
      ∧ awoken.running (awoken.homeDie 3 0x400800) = true ∧ oneLine 0x400800 8 = true ∧ awoken.lineFree 0x400800 8 = true
      ∧ awoken.accessFail 3 0x400800 = none ∧ okE (awoken.uncachedRead 3 0x400800 128) (fun _ => true) = true
      ∧ okE (awoken.uncachedRead 3 0x400800 8) (fun _ => true) = true) := by
  decide +kernel

/-! ### Copy queues, tickets, mailboxes -/

/-- A copy out of the scratchpad, and a multicast of one 8-byte element to the block itself, with token 0. -/
def outWords : List Word := [0x70#32, 0x400800#32, 0#32, 0#32, 1#32, 0#32, 0#32, 0#32]
def castWords : List Word := [0x64#32, 0x400800#32, 0#32, 0#32, 0x10001#32, 1#32, 0#32, 0#32]

/-- The entry of a command of the lone thread. -/
def entry (w : List Word) : CqEntry :=
  { id := 5, g := 0, t := 0, q := 0, blk := 0, w := w, who := { rcb := 0x10000 }, ent := 0, mo := {} }

/-- The entry stands at the head of queue 0. -/
def heading (e : CqEntry) : State :=
  { (withArea pad).modTh 0 (fun h => { h with out := [1, 0, 0, 0] }) with queues := [(0, [.entry 5])], copies := [e] }

def casting : State :=
  (heading { entry castWords with targets := [(0, 0)] }).modBlock 0 fun b => { b with credits := [(0, 2)] }

/-- The premises that the clauses of one element share. -/
def elementAt (w : List Word) (p : State → Bool) : Bool :=
  let e := { entry w with begun := true }
  let s := heading e
  s.copy? 5 = some e && (s.headEntry 0).map CqEntry.id = some 5 && !s.poolFull 0 && 0 < copyItems w && cqKind w ≠ 4
    && 4 ≤ cqSize w && cqGlobal w 0 = some 0x400800 && p s

/-- A copy of one 8-byte element from global to global memory. -/
def overWords : List Word := [0x65#32, 0x400800#32, 0#32, 0#32, 1#32, 0x400900#32, 0#32, 0#32]
/-- A copy of four halfwords into the scratchpad. -/
def halfWords : List Word := [0x20#32, 0x400800#32, 0#32, 0#32, 4#32, 0#32, 0#32, 0#32]
/-- A begun multicast whose tile has been read. -/
def castEntry : CqEntry :=
  { entry castWords with begun := true, targets := [(0, 0)], tile := some ([(0, List.replicate 8 7)], []) }

/-- An LDGS on its way. -/
def landing : Landing :=
  { id := 6, e := 0, blk := 0, spm := 64, va := 0x400800, size := 64, who := {}, pa := 0x400800, mt := 0, rcb := 0x10000
    ent := 0, source := 1, index := 0, first := 0 }
def doneEntry : CqEntry := { entry copyWords with begun := true, done := [0] }
def failedEntry : CqEntry := { doneEntry with fails := [(0, { cause := 0x51 })] }
def joining : State :=
  { one with queues := [(0, [.marker 3]), (1, [.entry 5]), (2, [.marker 3, .entry 6])] }

theorem witness_CopyAgents :
    ((heading (entry copyWords)).headEntry 0 = some (entry copyWords) ∧ cqKind copyWords ≠ 4)
    ∧ ((heading (entry castWords)).headEntry 0 = some (entry castWords) ∧ cqKind castWords = 4
      ∧ cqCount castWords ≠ 0)
    ∧ (casting.headEntry 0 = some { entry castWords with targets := [(0, 0)] } ∧ cqKind castWords = 4
      ∧ residentAt casting (casting.block 0).launch (cw castWords 7 + 0) (0 / 64) = some 0
      ∧ 0 < lgetD (cwHi castWords 5) (casting.block 0).credits 0
      ∧ ∀ l ∈ cqLines castWords, (casting.line 0 l).count < 15)
    ∧ (let s := heading castEntry
       s.copy? 5 = some castEntry ∧ (s.headEntry 0).map CqEntry.id = some 5 ∧ s.poolFull 0 = false
       ∧ 0 < copyItems castWords ∧ lget 0 castEntry.targets = some 0)
    ∧ (let e := { entry halfWords with begun := true }
       let s := heading e
       s.copy? 5 = some e ∧ (s.headEntry 0).map CqEntry.id = some 5 ∧ s.poolFull 0 = false ∧ 0 < copyItems halfWords
       ∧ cqKind halfWords ≠ 4 ∧ elementsWith e 0 = [0, 1] ∧ (copyElements e [0, 1] s).isSome = true)
    ∧ (elementAt copyWords fun s => !cqOut copyWords && cqKind copyWords ≠ 5
      && okE (s.unitBytes 0 (s.tableOf 0x10000) 0x10000 0x400800 8 [] (.copy 0 5)) fun _ => true) = true
    ∧ (elementAt overWords fun s => !cqOut overWords && cqKind overWords = 5
      && cqTarget overWords 0 = 0x400900
      && okE (s.unitBytes 0 (s.tableOf 0x10000) 0x10000 0x400800 8 [] (.copy 0 5)) fun r => r.2.length = 8 &&
        match r.1.unitStore 0 (s.tableOf 0x10000) 0x400900 { rcb := 0x10000, job := some (5, [(0, 0x400900)]) } r.2 with
        | .ok _ => true
        | _ => false) = true
    ∧ (elementAt outWords fun s => cqOut outWords && (s.emptyLine 0 0 8).isNone && !s.poisoned 0 0 8
      && cqTarget outWords 0 = 0x400800
      && match s.unitStore 0 (s.tableOf 0x10000) 0x400800 { rcb := 0x10000, job := some (5, [(0, 0x400800)]) } (s.spmRead 0 0 8) with
        | .ok _ => true
        | _ => false) = true
    ∧ (let s := { withArea pad with lands := [landing] }
       s.copy? 6 = none ∧ landFirst s landing = true ∧ s.poolFull 0 = false ∧ s.lands.find? (fun y => y.id = 6 && y.source ≠ 9) = some landing
       ∧ okE (s.unitAt 0 0x10000 0x400800 0 64).2 (fun _ => true) = true)
    ∧ ((heading doneEntry).headEntry 0 = some doneEntry ∧ copyItems copyWords ≤ doneEntry.done.length
      ∧ (heading doneEntry).unitStoring 0 = false ∧ doneEntry.fails = [])
    ∧ ((heading failedEntry).headEntry 0 = some failedEntry ∧ (heading failedEntry).unitStoring 0 = false
      ∧ okE ((heading failedEntry).complete (copyId failedEntry) failedEntry.who failedEntry.fails) (fun _ => true) = true)
    ∧ ∀ l ∈ joining.queues, (l.2.any fun y => y = .marker 3) = true → l.2.head? = some (.marker 3) := by decide +kernel

def ldtReq : LdtReq :=
  { g := 0, t := 0, id := 9, pa := 0x400800, va := 0x400800, size := 64, rcb := 0x10000, mo := {} }
/-- A ticket-table entry that the region holds, with its payload. -/
def heldTicket : Ticket :=
  { gen := 1, rcb := 0x10000, tstate := .held, end_ := .none_, payload := List.replicate 64 7, ready := true, limit := 1 }
/-- The load that waits for a ticket or a payload. -/
def ticketLoad : LoadReq := { lineLoad with dst := (upTo 16).map fun n => 10 + 2 * n, kind := 2 }
/-- Entry 1 of slice 0 is held, and has reached its age. -/
def ticketed (k : Ticket) : State := { withArea one with tickets := [(1, k)], loads := [ticketLoad], cycle := 1024 }
/-- Every entry of the line's slice is held. -/
def slotsTaken : State :=
  { one with tickets := (upTo 1024).map fun i => (1024 * sliceOf 0x400800 + i, heldTicket) }

theorem lget_same {α : Type} (v : α) (n : Nat) (l : List Nat) (h : n ∈ l) : lget n (l.map fun k => (k, v)) = some v := by
  induction l with
  | nil => simp at h
  | cons a l ih =>
    by_cases ha : a = n
    · simp [lget, ha]
    · have hn : n ∈ l := by simpa [Ne.symm ha] using h
      simp [lget, ha, ih hn]

/-- A slice whose entries are all held has none free. -/
theorem slotsTaken_free (s : State) (k : Nat)
    (h : s.tickets = (upTo 1024).map fun i => (1024 * k + i, heldTicket)) : s.freeSlots k = [] := by
  have hm : s.tickets = ((upTo 1024).map fun i => 1024 * k + i).map fun n => (n, heldTicket) := by
    simp [h, Function.comp_def]
  simp only [State.freeSlots, List.filter_eq_nil_iff, State.ticket, lgetD, hm]
  intro n hn
  rw [lget_same heldTicket n _ hn]
  decide

/-- The premises that both clauses of LDT share. -/
def ldtAt (s : State) (p : State → Bool) : Bool := arr (upward s (.ldt ldtReq)) fun m s1 =>
  m.dst < 4 && m.chan % 4 ≠ 2 && (s1.ticket 1).gen < 16384 && (s.txOf 0x400800).isNone && s1.homeSlice m.src 0x400800 = 64 * m.dst + sliceOf 0x400800
    && (s1.routeFail (s1.homeDie 0 0x400800) 0).isNone && p s1

theorem witness_TicketMessages :
    let k := ticketOf 1 1
    let s := ticketed heldTicket
    (ldtAt one fun s1 => s1.freeSlots (sliceOf 0x400800) ≠ []
      && (wordsIn 0x400800 64).all fun wa => (lget wa s1.owners).isNone) = true
    ∧ (ldtAt slotsTaken fun s1 => s1.tickets = slotsTaken.tickets) = true
    ∧ (arr (downward s (.ticket 0 0 9 5 none)) fun _ s1 => s1.loads.find? (fun q => q.id = 9) = some ticketLoad) = true
    ∧ (∀ drop ∈ [true, false], (arr (sent s (chanUp 0 0) (.redeem 0 0 9 k 0x10000 none drop)) fun m s1 =>
      (ticketVerdict s1 k 0x10000).isNone && (s1.routeFail m.dst m.src).isNone && (s1.ticket 1).ready && (s1.ticket 1).link.isNone
      && (s1.routeFail 0 0).isNone) = true)
    ∧ (arr (sent (ticketed { heldTicket with ready := false }) (chanUp 0 0) (.redeem 0 0 9 k 0x10000 none false)) fun m s1 =>
      (ticketVerdict s1 k 0x10000).isNone && (s1.routeFail m.dst m.src).isNone && !(s1.ticket 1).ready) = true
    ∧ (arr (sent s (chanUp 0 0) (.redeem 0 0 9 (ticketOf 2 1) 0x10000 none false)) fun _ s1 =>
      (ticketVerdict s1 (ticketOf 2 1) 0x10000).isSome) = true
    ∧ (∀ bad ∈ [true, false],
        (arr (sent (ticketed { heldTicket with bad := bad }) (chanDown 0 0) (.payload 0 0 9 k [] none none)) fun _ s1 =>
          s1.loads.find? (fun q => q.id = 9) = some ticketLoad && (s1.ticket (ticketSlot k)).bad = bad) = true)
    ∧ heldTicket.payload.length / 4 ≤ ticketLoad.dst.length
    ∧ agedOf one 0 = [] ∧ s.cycle % 1024 = 0 ∧ (∀ x ∈ agedOf s 0, x.2.rcb = 0x10000) ∧ agedOf s 0 ≠ [] := by decide +kernel

/-- A mailbox message in flight. -/
def posted (x : Message) : State := sent one (chanMail 3 0) (.message x)
/-- A STITCH request, n of which wait. -/
def stitchReq : StitchReq :=
  { cluster := 0, target := 0x400400, args := [1], nr := 1, g := 0, rcb := 0x10000, at_ := 0 }
def stitching (n : Nat) : State := { swarm with stitches := List.replicate n stitchReq }
/-- One more request arrives, and p holds of the requests that it joins. -/
def stitchAt (n : Nat) (p : Nat → Bool) : Bool :=
  arr (sent (stitching n) (chanMail (2 ^ 42) 0) (.stitch 0 0x400400 [1] 1 0 0x10000)) fun _ s1 =>
    (lget 0 (stitching n).groups).isSome
      && p ((s1.stitches ++ [stitchReq]).filter fun q =>
        sameStitch q stitchReq).length
def waitedLong : State := { stitching 3 with cycle := 256 }
/-- A proofer instance is due. -/
def dueOne : Due :=
  { arming := { unit := 0, blk := 0, entry := 0x400400, start := 0, stop := 128, g := 0, ident := {}, rcb := 0x10000
                lr := 0x20000, ent := 0 }
    item := 0, x := [] }
def overrun : State := instance_.modGroup 0 fun G => { G with executed := 1024 }
def movable_ : State := migrating.modTh 0 fun h => { h with wait := some (.migrate 5) }

theorem witness_MailboxAgents :
    ((arr (posted mailIn) fun _ _ => true) = true ∧ one.groupAt 0x10000 0 = some 0
      ∧ (one.group 0).gstate ≠ .saved ∧ one.mailCount 0 < 4)
    ∧ ((arr (posted { mailIn with target := 5 }) fun _ _ => true) = true ∧ one.groupAt 0x10000 5 = none)
    ∧ stitchAt 3 (· = 4) = true ∧ stitchAt 31 (· = 32) = true
    ∧ waitedLong.stitches.find? (fun q => q.cluster = 0 && q.target = 0x400400
        && stwaitOf waitedLong q.rcb ≤ waitedLong.cycle - q.at_) = some stitchReq
    ∧ (prooferBusy { one with due := [dueOne] } dueOne.arming.unit = false ∧ earlierArmed dueOne dueOne = false)
    ∧ ((overrun.group 0).kind.isProofer = true ∧ 1024 ≤ (overrun.group 0).executed)
    ∧ ((movable_.thread 0 0).wait = some (.migrate 5) ∧ (movable_.group 0).stopped = false
      ∧ movable_.idleCount 0 ≠ 0 ∧ (match migrationPoint movable_ 0 0 5 with
        | .ok (s1, some (_, live, livek)) =>
          liveBad (movable_.group 0) (movable_.thread 0 0) live livek = none && (s1.idleContexts 0).head? = some 0
        | _ => false) = true) := by decide +kernel

/-! ### The matrix unit, texture, hash grid, raster -/

/-- A quarter operation of partition 0 in its queue, on tile 0 of handle entry 0. -/
def quarterQueued : QuarterOp :=
  { part := 0, blk := 0, entry := 0, tile := 0, sa := { fs := 1, scale := 0x3F800000 }, sb := { fs := 1, scale := 0x3F800000 }
    rows := [], cols := [], wb := none, sparse := none, serial := 0 }
def dispatched : State := tiled.modEngine 0 fun E => { E with dispatch := [quarterQueued] }

/-- An AMZERO command on a tile, with loop bounds, at the head of the sequencer's queue. -/
def zeroing (tile : Word) (bounds : List Nat) : SeqCmd :=
  { number := 1, w := [1, 0x10000, tile, 0, 0, 0, 0, 0], bounds := bounds, blk := 0, entry := some 0
    who := { rcb := 0x10000 }, serial := 0 }
def sequenced (c : SeqCmd) : State := tiled.modEngine 0 fun E => { E with queue := [c] }

/-- The item of the head command can be performed, and p holds of what it comes to. -/
def itemAt (c : SeqCmd) (p : ItemRes → Bool) : Bool :=
  let E := (sequenced c).engine 0
  E.queue = [c] && c.item < seqItems c && inTurn E = [] && E.used = 0 && !(sequenced c).poolFull 0
    && p (seqItem (sequenced c) 0 c c.item)

/-- An entry of the loader. -/
def loadEntry : WbEntry :=
  { blk := 0, offset := 0, spm := 64, n := 16, raw := true, slot := { fs := 1, scale := 0x3F800000 }, srn := 0, key := 0
    who := { rcb := 0x10000 }, ent := 0, serial := 0 }
def loadingWb : State := tiled.modEngine 0 fun E => { E with loader := [loadEntry] }

/-- A store on its way to a device-register page of a unit, which arrives, and p of it and of the state then. -/
def devStored (s : State) (unit page off : Nat) (bs : List Byte) (p : DevStore → State → Bool) : Bool :=
  let pa := 0xF * 2 ^ 48 + page * 2 ^ 28 + unit * 2 ^ 12 + off
  match (sent s (chanPage 0 (pa / 4096)) (.ustore pa bs { rcb := 0x10000 })).devStore 0 with
  | some (x, s1) => p x s1
  | none => false

theorem witness_MatrixAgents :
    inTurn (one.engine 0) = []
    ∧ (inTurn (dispatched.engine 0) = [quarterQueued] ∧ (dispatched.engine 0).used < 16
      ∧ (dispatched.engine 0).seqTurn = false)
    ∧ (itemAt (zeroing 0 [2, 1, 1]) fun
      | .ok _ => decide (0 + 1 ≠ seqItems (zeroing 0 [2, 1, 1]))
      | _ => false) = true
    ∧ (itemAt (zeroing 0 [1, 1, 1]) fun
      | .ok u => !seqPending (u.modEngine 0 fun E =>
          { E with queue := [{ zeroing 0 [1, 1, 1] with item := 1 }], used := 0, turn := 1, seqTurn := false })
          0 (zeroing 0 [1, 1, 1])
      | _ => false) = true
    ∧ (itemAt (zeroing 16 [1, 1, 1]) fun
      | .fail _ => true
      | _ => false) = true
    ∧ (seqItems (zeroing 0 [1, 0, 1]) ≤ (zeroing 0 [1, 0, 1]).item ∧ (zeroing 0 [1, 0, 1]).fails = []
      ∧ seqPending (sequenced (zeroing 0 [1, 0, 1])) 0 (zeroing 0 [1, 0, 1]) = false)
    ∧ ((loadingWb.engine 0).loader = [loadEntry] ∧ loadingWb.emptyLine 0 64 ((slotTy 1).bytes 16) = none
      ∧ (loadingWb.engine 0).dispatch = [] ∧ (loadingWb.engine 0).queue = []
      ∧ ∀ u ∈ upTo (16 / unitElems (slotTy 1)),
        loadingWb.poisoned 0 (unitSource loadEntry u).1 (unitSource loadEntry u).2 = false)
    ∧ (∀ op ∈ [0, 1, 2, 3],
        (devStored tiled 536 0 0x40 (toBytes 4 op ++ toBytes 4 0x10000 ++ toBytes 24 0) fun x s1 =>
          let w := wordsOf 8 x.bytes
          x.isCmd && seqOp w = op && s1.handleOwner (portEngine x.unit) (w.getD 1 0) = some 0 && seqFieldsOk w
            && (s1.block 0).bstate ≠ .saved && (s1.engine (portEngine x.unit)).queue.length < 64) = true
        ∧ (devStored tiled 536 0 0x40 (toBytes 4 op ++ toBytes 28 0) fun x s1 =>
          let w := wordsOf 8 x.bytes
          x.isCmd && seqOp w = op && (s1.handleOwner (portEngine x.unit) (w.getD 1 0)).isNone) = true) := by decide +kernel

/-- A request of the lone thread's texture queue. -/
def request (fn image : Nat) (input : List Word) : MicroReq :=
  { id := 5, fn := fn, image := image, e := 0, g := 0, t := 0, launch := 0, table := 0x200000, input := input
    dst := [10, 12, 14, 16], who := { rcb := 0x10000 }, ent := 0, mo := {} }
def requesting (q : MicroReq) : State := { withArea one with micro := [q] }

/-- The request is performed, and p holds of what it comes to. -/
def performed (q : MicroReq) (p : ReqRes → Bool) : Bool :=
  headRequest (requesting q) 5 = some q && !(requesting q).poolFull (q.e / 64) && p (performRequest (requesting q) q)

/-- An image whose only microword jumps to itself. -/
def spinning : Image :=
  { kind := 2, id := 1, len := 1, entries := List.replicate 8 0, words := [0x2000000000] }

theorem spinning_runs (u : MicroUnit) (k : Nat) (m : Micro) (h : m.at_ = 0) : microRun u spinning k m = .spent m := by
  induction k with
  | zero => rfl
  | succ k ih =>
    have hw : spinning.words.getD m.at_ 0 = 0x2000000000#64 := by rw [h]; rfl
    have h1 : microOp u 0x2000000000#64 m = .go m := rfl
    have h2 : microNext 0x2000000000#64 m = 0 := by rfl
    simp only [microRun, hw, h1, h2]
    have h3 : ({ m with at_ := 0 } : Micro) = m := by cases m; simp at h; subst h; rfl
    rw [h3]; exact ih

theorem spinning_spent (s : State) (q : MicroReq) (h : q.image ≠ 0) (h7 : q.fn = 0)
    (hi : s.imageAt 2 q.image = some spinning) : ∃ s1, performRequest s q = .spent s1 := by
  have hs : ∀ u, ∃ m, microStart s u spinning 0 q.input = .spent m := fun u => ⟨_, spinning_runs u 65535 _ rfl⟩
  obtain ⟨m, hm⟩ := hs { cl := q.e / 4, table := q.table, who := q.who, olds := q.olds, rd := .texture q.g q.t }
  refine ⟨m.s, ?_⟩
  simp only [performRequest, h, if_false, h7, State.imageKind, hi, Option.getD_some, hm, show (0:Nat) ≠ 7 by decide]

/-- A request of that image comes to the watchdog. -/
theorem witness_GraphicsAgents_spent :
    let s := { requesting (request 0 1 []) with images := [spinning] }
    headRequest s 5 = some (request 0 1 []) ∧ ∃ s1, performRequest s (request 0 1 []) = .spent s1 :=
  ⟨by decide +kernel, spinning_spent _ _ (by decide) rfl (by decide +kernel)⟩

def contribution : Contribution :=
  { req := 5, launch := 0, det := false, key := 0, pa := 0x400800, va := 0x400800, grad := 0x3F800000, wnum := 1, wden := 1
    who := {}, ent := 0, item := 0 }

/-- The lone thread's block is a bin; the record of its one primitive stands at 0x40_0800, and its colours. -/
def binned (b : Bin) : State :=
  ((withArea one).modBlock 0 fun B => { B with kind := .bin, bin := some b }).modLaunch 0 fun L => { L with args := 0x400800 }
def startedBin : Bin :=
  { started := true
    table := toBytes 8 0x400800 ++ toBytes 4 1 ++ toBytes 12 0 ++ toBytes 8 0x400800 ++ toBytes 32 0 }
def aQuad : Quad := { prim := 0, index := 0, pixels := [(0, [0, 0, 0, 0])] }
def anOut : PixelOut := { prim := 0, at_ := 0, colour := [0, 0, 0, 0], z := 0 }
def ended_ : State := (binned { startedBin with quads := [aQuad] }).modGroup 0 fun G => { G with gstate := .retired }
def longSection : State := (withArea one).modTh 0 fun h =>
  { h with pixel := some { prim := 3, at_ := 65, z := 0, section_ := true, issued := 1048576 } }

theorem witness_GraphicsAgents :
    (performed (request 7 0 (List.replicate 10 0)) fun
      | .done .. => true
      | _ => false) = true
    ∧ (performed (request 0 0 [0, 0, 0, 8, 0]) fun
      | .fail s1 ti => okE (s1.complete (requestId (request 0 0 [])) { rcb := 0x10000 } [(0, ti)]) fun _ => true
      | _ => false) = true
    ∧ (arr (sent one (chanMail 5 5) (.hgs contribution)) fun m s1 =>
        !s1.moving (lineOf 0x400800) && s1.homeDie m.src 0x400800 = m.dst && !s1.markedIn 0x400800 4 && s1.micro.all fun x => x.id ≠ 5 || x.fails = []) = true
    ∧ ((liveBin (binned {}) 0).isSome = true ∧ (binned {}).poolFull (((binned {}).block 0).cluster / 16) = false
      ∧ okE (readBin (binned {}) ((binned {}).block 0)) (fun r => at0 r.2.binds 0 = 0) = true)
    ∧ ((liveBin (binned startedBin) 0).isSome = true
      ∧ (binned startedBin).poolFull (((binned startedBin).block 0).cluster / 16) = false ∧ startedBin.nextPrim < startedBin.nprim ∧ at0 startedBin.binds 0 = 0
      ∧ okE (spanRead 0 ((binned startedBin).tableOf 0x10000) 0x10000 64 (binned startedBin)
        ((numAt startedBin.table 0 8 + 0 * startedBin.primBytes) % 2 ^ 64) startedBin.primBytes) (fun _ => true) = true)
    ∧ ((liveBin ended_ 0).isSome = true ∧ ended_.poolFull ((ended_.block 0).cluster / 16) = false
      ∧ (ended_.groups.find? (fun e => e.2.blk = 0 && e.2.gstate = .retired)).isSome = true)
    ∧ (let b := { startedBin with outs := [anOut] }
       (liveBin (binned b) 0).isSome = true ∧ (binned b).poolFull (((binned b).block 0).cluster / 16) = false
       ∧ b.outs.find? (fun o => !pixelHeld (binned b) 0 b o) = some anOut
       ∧ at0 b.binds 1 = 0 ∧ (match mergePixel (binned b) ((binned b).block 0) b anOut with
         | .ok .. => true
         | _ => false) = true)
    ∧ (let s := longSection
       let f : ReplyFail :=
         { info := { cause := cWATCHDOG, aux := 0x100000 }, pc := 0x400000, words := [], status := 0 }
       sectionSpent s 0 0 = true ∧ (s.thread 0 0).pc = 0x400000 ∧ (s.thread 0 0).status = 0
       ∧ okE (s.report 0 0x10000 (s.trapHead 0 0 f false) (State.trapTail f)) (fun _ => true) = true)
    ∧ (devStored one 832 1 0 (toBytes 8 0x20000) fun x s1 =>
      x.isDraw && (s1.die (x.unit / 16384)).draw.length < 16) = true := by decide +kernel

/-! ### Commands and schedulers -/

/-- The words of a command: OP, ADDR, ADDR2, ARG. -/
def cmdWords (op a a2 arg : Nat) : List Word :=
  [BitVec.ofNat 32 op, BitVec.ofNat 32 a, 0, BitVec.ofNat 32 a2, 0, BitVec.ofNat 32 arg, 0, 0]

/-- A command at the head of die 0's queue, and p of the state and its operands. -/
def commandAt (s : State) (begun : Bool) (op a a2 arg : Nat) (p : State → Operands → Bool) : Bool :=
  let c : Command := { w := cmdWords op a a2 arg, begun := begun }
  let s := (awake s).modDie 0 fun D => { D with cmds := [c] }
  s.running 0 && cmdFieldsOk c.w && cmdOp c.w = op && p s (cmdOperands c.w)

/-- An RCB of a root at 0x41_0000. -/
def withRcb : State :=
  { one with mem := writeBytes one.mem 0x41002A (toBytes 2 1 ++ toBytes 4 1 ++ toBytes 34 0 ++ toBytes 1 1) }

/-- An image at 0x41_0000 whose one microword has an operation that is none. -/
def withImage : State :=
  { one with mem := writeBytes (writeBytes one.mem 0x410000 (toBytes 4 0x4C4D4349 ++ toBytes 1 1 ++ toBytes 3 0
      ++ toBytes 2 1 ++ toBytes 2 0 ++ toBytes 4 3309)) 0x410047 [0xFF] }

/-- A launch record: entry 0x40_0000, region 0x1_0000, one block of one thread with 8 registers. -/
def recordOf : List Byte :=
  toBytes 8 0x400000 ++ toBytes 8 0x10000 ++ toBytes 16 0 ++ toBytes 4 1 ++ toBytes 2 1 ++ toBytes 2 1 ++ toBytes 4 0
    ++ toBytes 1 1

/-- The record stands at 0x41_0000 and 0x40_0800, and the region has quotas. -/
def withLaunch : State :=
  let s := (withArea one).modRegion 0x10000 fun r =>
    { r with regq := 10000000, spmq := 100000, amq := 100, tkq := 10, cycles := 1000000 }
  { s with mem := writeBytes (writeBytes s.mem 0x410000 recordOf) 0x400800 recordOf }

/-- The launch arrives and enters the scheduler. -/
def arrives (s : State) (lr : Nat) (issuer : Option Nat) : Bool := match arriveLaunch s 0 lr issuer false with
  | .ok s1 L zero => okE (enterLaunch s1 L zero) fun _ => true
  | _ => false

/-- The launch is refused, and its record written. -/
def refuses (s : State) (lr : Nat) : Bool := match arriveLaunch s 0 lr none false with
  | .refuse q c f => okE (refuseLaunch s 0 lr q c f) fun _ => true
  | _ => false

/-- The region of an RCB read on die 0. -/
def ownRegion (s : State) (bs : List Byte) (a : Nat) : Region :=
  let r := regionOf bs (s.ownAddr 0 a)
  { r with parent := s.ownAddr 0 r.parent }

/-- Die 0 has a report to write at 0x41_0000. -/
def reporting : State := (awake one).modDie 0 fun D => { D with reporting := some ([], 0x410000) }
def reported : State := reporting.modDie 0 fun D => { D with reporting := none }

theorem witness_CommandAgents :
    (commandAt withRcb false 1 0x410000 0x200000 0 fun s o => o.addr % 256 = 0 && !(s.region (s.ownAddr 0 o.addr)).hold
      && okE (s.physBytes 0 o.addr 256) fun bs => (registerBad s 0 bs (ownRegion s bs o.addr) o.addr2).isNone) = true
    ∧ (commandAt one false 1 0x410000 0x200000 0 fun s o => o.addr % 256 = 0
      && okE (s.physBytes 0 o.addr 256) fun bs => (registerBad s 0 bs (ownRegion s bs o.addr) o.addr2).isSome) = true
    ∧ (commandAt one false 1 0x10001 0 0 fun _ o => o.addr % 256 ≠ 0) = true
    ∧ (commandAt one false 2 0x10000 0 0 fun s o => o.addr % 256 = 0 && s.named 0 (s.ownAddr 0 o.addr)) = true
    ∧ (commandAt (one.modRegion 0x10000 fun r => { r with state := 3 }) true 2 0x10000 0 0 fun s o =>
      (s.region (s.ownAddr 0 o.addr)).state = 3) = true
    ∧ (commandAt one false 3 0x10000 0 100 fun s o => o.addr % 256 = 0 && s.named 0 (s.ownAddr 0 o.addr)
      && preemptable s (s.ownAddr 0 o.addr) ≠ []) = true
    ∧ (commandAt one true 3 0x10000 0 100 fun s o => (preemptable s (s.ownAddr 0 o.addr)).all fun B =>
      B.bstate = .resident || B.pre.isNone) = true
    ∧ (commandAt one false 4 0x400000 0x10000 1 fun s o => s.named 0 (s.ownAddr 0 o.addr2)
      && (s.region (s.ownAddr 0 o.addr2)).parent = 0) = true
    ∧ (commandAt one true 4 0x400000 0x10000 1 fun s _ => s.shoots = []) = true
    ∧ (commandAt withImage false 5 0x410000 0 1 fun s o => o.addr % 64 = 0 && okE (s.physBytes 0 o.addr 64) fun bs =>
      imageHeaderOk bs && numAt bs 8 2 = 1 && okE (s.physBytes 0 (o.addr + 64) 8) fun body =>
        okE (s.physBytes 0 (o.addr + 72) 3309) fun sig => (loadImage s (bits o.arg 2 0) bs body sig).isNone) = true
    ∧ (commandAt one false 6 0 0 0x10 fun _ _ => true) = true
    ∧ (commandAt withLaunch false 7 0x410000 0 0 fun s o => o.addr % 128 = 0 && (s.parkedOn 0).length < 1024
      && arrives s o.addr none) = true
    ∧ (commandAt withLaunch false 7 0x411000 0 0 fun s o => o.addr % 128 = 0 && (s.parkedOn 0).length < 1024
      && refuses s o.addr) = true
    ∧ (devStored one 832 0 0x40 (toBytes 8 0x410000) fun x _ => freesFrame one x) = true
    ∧ (devStored one 835 0 0 (toBytes 32 7) fun x s1 =>
      x.isNonce && (s1.die (x.unit / 16384)).reporting.isNone) = true
    ∧ (devStored one 832 0 0 (toBytes 32 7) fun x s1 =>
      x.isCommand && (s1.die (x.unit / 16384)).cmds.length < 16) = true
    ∧ (devStored one 536 0 0x1C (toBytes 4 7) fun x _ =>
      x.isPort && x.off < 0x20 && x.off % 4 = 0 && x.bytes.length = 4) = true
    ∧ (devStored one 835 0 0x20 (toBytes 8 0x410000) fun x _ => !x.isPort && x.unit % 256 = 67 && !x.isNonce) = true
    ∧ (devStored one 832 1 0 (toBytes 4 7) fun x _ =>
      !x.isPort && x.unit % 256 = 64 && x.page = 1 && !x.isDraw) = true
 := by decide +kernel

/-- A report is 3,437 bytes long, whatever its signature. -/
theorem report_length (s : State) (d : Nat) (nonce : List Byte) : (reportBytes s d nonce).length = 3437 := by
  have h : ∀ n (bs : List Byte), (padTo n bs).length = n := fun n bs => by simp [padTo]; omega
  simp [reportBytes, h, toBytes]

theorem witness_CommandAgents_report :
    (reporting.die 0).reporting = some ([], 0x410000) ∧ reporting.running 0 = true
      ∧ reportFail reported 0 0x410000 (reportBytes reporting 0 []).length = none := by
  rw [report_length]; decide +kernel

/-- The header of an image of one microword, for a digest of its body. -/
def headerOf (digest : List Byte) : List Byte :=
  toBytes 4 0x4C4D4349 ++ toBytes 1 1 ++ toBytes 3 0 ++ toBytes 2 1 ++ toBytes 2 0 ++ toBytes 4 3309 ++ toBytes 16 0 ++ digest

/-- An image loads where its digest and its signature are right and it finds room: what the model leaves to
constants without a value (log entries 7 and 16). -/
theorem witness_CommandAgents_image (body sig : List Byte) (h : body = toBytes 8 0)
    (hd : Config.shake256 body 32 = ((headerOf (toBytes 32 5)).drop 0x20).take 32)
    (hs : signedOk one (headerOf (toBytes 32 5) ++ body) sig = true) :
    imageHeaderOk (headerOf (toBytes 32 5)) = true ∧ (loadImage one 1 (headerOf (toBytes 32 5)) body sig).isSome = true := by
  have hk : numAt (headerOf (toBytes 32 5)) 0x04 1 = 1 := by decide +kernel
  have hn : numAt (headerOf (toBytes 32 5)) 0x08 2 = 1 := by decide +kernel
  have hw : ((upTo 1).map fun i => BitVec.ofNat 64 (numAt (toBytes 8 0) (8 * i) 8)).all (microwordOk 1) = true := by
    decide +kernel
  have hr : residentWords one 1 1 + 1 ≤ 16384 := by
    have hi : one.images = [] := by decide +kernel
    simp only [residentWords, hi, List.filter_nil, List.map_nil, List.sum_nil, shippedWords, shippedBelow]
    have h : ∀ n, Nat.min 6140 n ≤ 6140 := fun n => Nat.min_le_left 6140 n
    have := h (Nat.min 6140 (0 + (Config.shippedLen 0).toNat) + (Config.shippedLen 1).toNat)
    omega
  have hb : (one.regions.any fun r => decide (r.2.state ≠ 3) && decide (at0 r.2.binds 1 = 1)) = false := by decide +kernel
  refine ⟨by decide +kernel, ?_⟩
  subst h
  simp [loadImage, hk, hn, hw, hd, hs, hr]
  simpa using hb

/-! A save record's internal bytes are free values (log entry 19), which no evaluation passes: the states for a save
and a restore have a block without shares, whose record is empty. -/

/-- The dispatch of a die is the one that p describes, no launch is past running, and the RCB can be read. -/
def dispatches (s : State) (p : Dispatch → Bool) : Bool :=
  (neverRuns s 0).isNone && okE (s.touchRcb 0 0x10000) (fun _ => true) && (s.dispatch 0).any p

/-- A launch with one block to place. -/
def ready : State :=
  { withLaunch.modRegion 0x10000 (fun r => { r with engines := [] }) with
    launches := [(1, { key := 1, lr := 0x20000, die := 0, rcb := 0x10000, entry := 0x400000 })] }
def bare : State := { ready with groups := [], blocks := [] }
def block3 : Block := { key := 3, launch := 1, bid := 0, rcb := 0x10000, engines := [0], lcores := [0] }
/-- The launch's one block was placed before. -/
def placedBefore (f : Launch → Launch) (B : Block) : State :=
  { bare with blocks := [(3, B)], launches := bare.launches.map fun l => (l.1, f { l.2 with next := 1 }) }
def flushed : State := placedBefore (fun L => { L with again := [0] }) { block3 with bstate := .queued }
def savedOne : State := placedBefore id { block3 with bstate := .saved, engines := [], lcores := [] }
def swarmLaunch : State := { bare with launches := bare.launches.map fun l => (l.1, { l.2 with flags := 2 }) }

/-- The threads of the block are done. -/
def finished : State := ready.modGroup 0 fun G => { G with gstate := .retired }
def released : State := finished.modBlock 0 fun B => { B with fence := some none, launch := 1 }
def doneBlock (s : State) : Bool :=
  let B := s.block 0
  (lget 0 s.blocks).isSome && B.bstate = .resident && threadsDone s B && !blockBusy s B

/-- A pre-emption with a bound of 100 clocks. -/
def urgent : Preemption :=
  { method := .drain, report := 0, bound := some 100, est := none, at_ := 0, reqlr := 0, die := 0, cmd := none
    infeasible := false, turn := 0 }
/-- The block drains; the region's save area of 1 MiB stands at 0x44_0000. -/
def draining : State :=
  let s := ready.modRegion 0x10000 fun r => { r with savearea := 0x440000 }
  let s := { s with cycle := 64, mem := writeBytes s.mem 0x440000 (toBytes 8 0x100000 ++ toBytes 8 128) }
  s.modBlock 0 fun B => { B with launch := 1, bstate := .draining, pre := some urgent }
/-- The same without a save area, in a launch that can be replayed. -/
def replayable : State :=
  { draining.modRegion 0x10000 (fun r => { r with savearea := 0 }) with
    launches := draining.launches.map fun l => (l.1, { l.2 with flags := 1 }) }
def savingBlock : Block := { block3 with bstate := .saving, engines := [], lcores := [], pre := some urgent }
def saving : State := { draining with blocks := [(3, savingBlock)] }
def flushing : State := ready.modBlock 0 fun B => { B with launch := 1, bstate := .flushing, pre := some urgent }
def exhausted : State := withLaunch.modRegion 0x10000 fun r => { r with cycles := 5, cycused := 5 }
def retiring : State :=
  { ({ bare with launches := [] } : State).modRegion 0x10000 (fun r => { r with retiring := true, state := 2 }) with
    tickets := [(1, heldTicket)] }
/-- The region's quota has been lowered to nothing. -/
def lowered : State := bare.modRegion 0x10000 fun r => { r with regq := 0 }
/-- Every word of the RCB is lost. -/
def lostRcb : State :=
  { bare with marks := (upTo 64).map fun i => 0x10000 + 4 * i, dies := bare.dies.map fun D => (D.1, { D.2 with rcbs := [] }) }
def formed_ : State :=
  { swarm.modRegion 0x10000 (fun r => { r with regq := 10000000, spmq := 100000, amq := 100 }) with formed := [[stitchReq]] }

theorem witness_SchedulerAgents :
    (let s := { withLaunch with inboxes := [(0, [(0x400800, 0x10000)])] }
     inboxHead s 0 = some (0x400800, 0x10000) ∧ (s.parkedOn (State.inboxDie 0)).length < 1024
     ∧ State.inboxDie 0 = 0 ∧ arrives s 0x400800 (some 0x10000) = true)
    ∧ one.cycle % 4096 = 0
    ∧ ((one.modDie 0 fun D => { D with reread := true }).die 0).reread = true
    ∧ (dispatches bare fun
      | .place _ (.fresh 0) [0] => true
      | _ => false) = true
    ∧ (dispatches flushed fun
      | .place _ (.again 3) [0] => true
      | _ => false) = true
    ∧ (dispatches swarmLaunch fun
      | .context _ (.fresh 0) 0 => true
      | _ => false) = true
    ∧ ((dispatches savedOne fun
      | .place _ (.saved 3) [] => true
      | _ => false) = true
      ∧ okE (savedOne.touchRcb 0 0x10000) (fun s0 => s0.block 3 = savedOne.block 3 && okE (readBack s0 0 (savedOne.block 3)) (fun s1 =>
        let u := placeSaved s1 (s1.block (savedOne.block 3).key) []
        (lget 3 (restate (u.freeArea 0 (u.supplier (savedOne.block 3).rcb 9)) (savedOne.block 3).launch).blocks).isSome))
        = true)
    ∧ ((neverRuns lowered 0).any fun L => okE (refuseLate lowered L) fun _ => true) = true
    ∧ ((lostRcb.dispatch 0).any (fun x => match x with
        | .place _ (.fresh 0) [0] => true
        | _ => false) && (neverRuns lostRcb 0).isNone && !okE (lostRcb.touchRcb 0 0x10000) fun _ => true) = true
    ∧ (doneBlock finished = true ∧ (finished.block 0).fence = none)
    ∧ (doneBlock released = true ∧ (released.block 0).fence = some none
      ∧ okE (completeBlock released (released.block 0)) (fun _ => true) = true)
    ∧ (let B := draining.block 0
       B.pre = some urgent ∧ urgent.checked = false ∧ B.bstate = .draining ∧ (draining.cycle - urgent.at_) % 64 = 0
       ∧ 100 ≤ draining.cycle - urgent.at_ + 64 + draining.tSave B ∧ draining.canSave 0 B = true)
    ∧ (let B := replayable.block 0
       B.pre = some urgent ∧ 100 ≤ replayable.cycle - urgent.at_ + 64 + replayable.tSave B
       ∧ replayable.canSave 0 B = false ∧ replayable.canReplay B = true)
    ∧ (saving.block 3 = savingBlock ∧ saving.blocks = [(3, savingBlock)] ∧ saving.settledBlock savingBlock = true
      ∧ okE (writeSave (captureBlock saving savingBlock) 0 ((captureBlock saving savingBlock).block 3)) (fun r =>
        let u := r.1.modBlock 3 fun C => { C with records := r.2 }
        okE (endMethod u (u.block 3)) fun _ => true) = true)
    ∧ (let B := flushing.block 0
       B.bstate = .flushing ∧ flushing.settledBlock B = true ∧ (flushing.region B.rcb).abort = none
       ∧ (flushing.launch B.launch).lstate ≠ .refused ∧ okE (endMethod flushing B) (fun _ => true) = true)
    ∧ (let r := exhausted.region 0x10000
       (lget 0x10000 exhausted.regions).isSome = true ∧ r.abort = none ∧ r.state ≠ 3 ∧ r.hold = false
       ∧ exhausted.spent 0x10000 = true)
    ∧ ((retiring.region 0x10000).retiring = true ∧ (retiring.region 0x10000).state ≠ 3
      ∧ retiring.idleRegion 0x10000 = true ∧ ∀ k ∈ retiring.tickets, k.2.ready = true)
    ∧ (let h := stitchShare formed_ 0x10000
       (formed_.formed.filter fun l => l.any fun q => q.cluster = 0) = [[stitchReq]]
       ∧ (lget stitchReq.g formed_.groups).isSome = true ∧ formed_.contextFits 0 0x10000 = true ∧ formed_.unheld 0x10000 = true
       ∧ formed_.overQuota 0x10000 (32 * h.alloc) h.lines 0 false = none
       ∧ (formed_.enginesFor (formed_.launchOfGroup (formed_.group stitchReq.g)).key 0x10000 false [h] 0).any (· ≠ [])
         = true) := by decide +kernel

/-! ### Partitions, traps, pages, errors, the package -/

def longActive : State := { queued with cycle := 2048 }
def waitingGroup : State := (one.modGroup 0 fun G => { G with gstate := .waiting }).modPart 0 fun _ => {}
def yielding : State := swarm.modCore 0 fun k => { k with yielded := true }
def longRun : State := swarm.modCore 0 fun k => { k with run := 64, ctx := 5 }
def aFail : ReplyFail := { info := { cause := 0x51 }, pc := 0x400000, words := [] }
def failing : State := one.modTh 0 fun h => { h with failed := [aFail] }
def aWait : AreaWait := { head := default, at_ := 0, since := 0 }
/-- The domain's abort has begun. -/
def aborted (s : State) : State := s.modRegion 0x10000 fun r => { r with abort := some 0x51 }
/-- A writer has found the trap area full. -/
def waitsForArea : State := (withArea one).modRegion 0x10000 fun r => { r with full := [aWait] }
def noRoom : State := { waitsForArea with mem := writeBytes waitsForArea.mem 0x480008 (toBytes 8 512), cycle := 65536 }

theorem witness_PartitionAgents :
    (longActive.partOf 0 = some 0 ∧ (longActive.group 0).gstate = .active
      ∧ 2048 ≤ longActive.cycle - (longActive.group 0).since ∧ (longActive.part 0).ready ≠ [])
    ∧ (waitingGroup.partOf 0 = some 0 ∧ (waitingGroup.group 0).gstate = .waiting ∧ waitingGroup.halted 0 = false
      ∧ (waitingGroup.pick 0).isSome = true ∧ (waitingGroup.part 0).ready.contains 0 = false
      ∧ (waitingGroup.part 0).active.contains (some 0) = false)
    ∧ ((yielding.core 0).yielded = true ∧ yielding.ringNext 0 = some 0)
    ∧ (64 ≤ (longRun.core 0).run ∧ longRun.ringNext 0 = some 0 ∧ (longRun.core 0).ctx = 5
      ∧ longRun.contextReady 0 5 = false)
    ∧ (failing.halted 0 = false ∧ (failing.thread 0 0).held = none ∧ (failing.thread 0 0).failed = [aFail]
      ∧ (failing.thread 0 0).slot = .live ∧ (failing.thread 0 0).wait = none)
    ∧ (∀ nested ∈ [false, true],
      let f := { aFail with nested := nested }
      let s := one.modTh 0 fun h => { h with held := some f }
      s.halted 0 = false ∧ (s.thread 0 0).held = some f ∧ f.nested = nested)
    ∧ ((waitsForArea.region 0x10000).full ≠ [] ∧ waitsForArea.areaRoom 0x10000 = true
      ∧ waitsForArea.untold = [])
    ∧ (∀ s ∈ [noRoom, aborted noRoom], (s.region 0x10000).full.find? (fun w => w.since + 65536 ≤ s.cycle) = some aWait
      ∧ s.areaRoom 0x10000 = false)
    ∧ (noRoom.region 0x10000).abort = none ∧ ((aborted noRoom).region 0x10000).abort ≠ none := by
  decide +kernel

/-- A walk of the pool for an address. -/
def aWalk (va : Nat) : Walk := { id := 4, unit := 0, table := 0x200000, va := va, acc := 0, user := true, g := 0, t := 0 }
/-- The walk reads its levels, and p holds of what it finds. -/
def walks (va : Nat) (p : State → Except Nat TlbEntry → Bool) : Bool :=
  let s := { paged one with walks := [aWalk va] }
  let u := { s with walks := s.walks.filter fun y => y.id ≠ 4 }
  s.walks.find? (fun y => y.id = 4) = some (aWalk va) && (u.walkFail (State.tlbDie 0) va walkLevels 0x200000).isNone
    && p u (u.walkGo (State.tlbDie 0) 0 0x200000 va walkLevels 0x200000)
def aShoot : Shoot := { id := 4, table := 0x200000, va := 0x400000, pages := 1, die := 0, dies := [0] }
def aMove : Move := { id := 4, page := 0x42, frame := 0x8000000000, die := 1, at_ := 0, left := [] }
/-- Die 1 has used page 0x42 of die 0 a thousand times in the epoch, and the region asks for its pages to move. -/
def counted_ : State :=
  { one.modRegion 0x10000 fun r => { r with kpol := 1 } with
    mem := writeBytes (writeBytes (paged one).mem 0x202010 (toBytes 8 0x203001)) 0x203100 (toBytes 8 0x4200CF)
    cycle := 2 ^ 24, kcounts := [{ page := 0x42, die := 1, cur := 1000, prev := 0, rcb := 0x10000 }] }
def moving_ (c : Nat) : State := { one with moves := [aMove], cycle := c }

theorem witness_PageAgents :
    (walks 0x401000 fun u r => okE r fun h => okE (u.permit 0 h 0x401000 0 true false) fun _ => true) = true
    ∧ (walks 0x10401000 fun _ r => match r with
      | .error _ => true
      | _ => false) = true
    ∧ shootBusy { one with shoots := [aShoot] } aShoot = false
    ∧ (one.cycle % 2 ^ 20 = 0 ∧ one.kcounts = [])
    ∧ (∀ l ∈ [[], [0x8000000000]], let s := counted_.modDie 1 fun D => { D with frees := l }
       s.cycle % 2 ^ 20 = 0 ∧ s.kcounts.map KCount.page = [0x42] ∧ pageDie 0x42 = 0 ∧ moveTarget s 0 0x42 = some 1
       ∧ s.moves = [])
    ∧ ((moving_ 65536).moves.find? (fun y => y.id = 4) = some aMove ∧ aMove.left = []
      ∧ (moving_ 65536).cycle ≤ aMove.at_ + 65536 ∧ leavesOf (moving_ 65536) aMove.page = [] ∧ (moving_ 65536).txs = [])
    ∧ ((moving_ 65537).moves.find? (fun y => y.id = 4) = some aMove ∧ aMove.at_ + 65536 < (moving_ 65537).cycle) := by
  decide +kernel

/-- Every die's ROM has made its checks. -/
def verified : State := (upTo 4).foldl (fun s d => s.modDie d fun D => { D with status := 1 }) State.reset

theorem witness_ErrorsAndPackage :
    ((ticketed heldTicket).ticket (1024 * 0 + 1)).tstate ≠ .free
    ∧ bit one.links 7 = true
    ∧ nextClock one.mhz 2401 50 ≠ one.mhz
    ∧ divisionOk [0x3, 0xC] [0, 2] = true
    ∧ (one.die 0).reporting = none
    ∧ (State.reset.die 0).status ≠ 0
    ∧ (verified.die 0).status = 1
    ∧ (State.reset.die 3).status = 0xFF
    ∧ ((verified.die 3).status = 1 ∧ verified.verified 0 = true ∧ ∀ k ∈ verified.partitionDies 3, verified.verified k = true)
    ∧ (let s := verified.modDie 2 fun D => { D with status := 2 }
       (s.die 3).status = 1 ∧ 2 ∈ s.partitionDies 3 ∧ s.verified 2 = false) := by decide +kernel

/-- The state right after reset with the word of MOVI x9, −1 in place, and what the issue acts on. -/
def placed : State := State.reset.withFetchWord 32 (0x0A#6 ++ 9#7 ++ 0x7FFFF#19 : Word).toNat
def placed0 : State := { placed with agenda := [], cycle := placed.cycle + 1 }
/-- Three words at the lone thread's PC: two prefixes and an LD. -/
def threeWords : List Word := [0xF80000A8#32, 0xFA000001#32, 0x8040A012#32]
def placed3 : State := { one with mem := writeBytes one.mem 0x400000 (bytesOf threeWords) }
/-- The state after k words of it have been read at home, and counted there (R95). -/
def fetching : Nat → State
  | 0 => placed3
  | k + 1 => (fetching k).countAccess (0x400000 + 4 * k) 0 0x10000

theorem witness_StepRunsDecodedInstruction :
    (placed.stopped = false ∧ placed.agenda = [{ clocks := 1, act := .issue (.part 0 0) }]
      ∧ placed0.issuer (.part 0 0) = some 0 ∧ placed0.halted 0 = false ∧ placed0.pick 0 = some 0
      ∧ spentStep placed0 0 0 = none ∧ placed0.bundle 0 0 = [0] ∧ placed0.hasWords 0 0 = true
      ∧ (match placed0.fetch 0 0 with
        | .words _ ws (.instr i _) => decide (ws.length = 1 ∧ i = .movi 9#7 0xFFFFFFFF#32)
        | _ => false) = true)
    ∧ ((placed3.thread 0 0).pc = 0x400000 ∧ threeWords.length ≤ 3
      ∧ decode threeWords = .instr (.ld { ord := .acq, scope := .dev } 8#7 10#7 514#34 .w) []
      ∧ (∀ k ∈ [0, 1, 2], decode (threeWords.take k) = .truncated)
      ∧ ∀ k ∈ [0, 1, 2], okX ((fetching k).translate 0 0 (0x400000 + 4 * k) 3) (fun u pa e =>
        (u.unitAt 0 0x10000 pa e 4).1 = fetching (k + 1) && okE (u.unitAt 0 0x10000 pa e 4).2 fun bs => bs = toBytes 4 (threeWords.getD k 0).toNat) = true) := by
  decide +kernel

/-- Memory in its canonical form, and a step from it that answers a next state. -/
theorem witness_StepKeepsMemoryWf : MemoryWf placed
    ∧ (match step placed with
      | .next s' => decide ((s'.thread 0 0).x.getD 9 0 = 0xFFFFFFFF#32)
      | _ => false) = true := by
  decide +kernel

end Sys2Proof.Tests
end

/-! SUPPORT and PROOFS. The frame of the instructions whose whole effect is one predicate (R8, R189, R206), and what
CSRW writes (R5, R141, R209, R210). -/

namespace Sys2Proof.Machine

/-! ## What every thread of a bundle keeps -/

namespace State

/-- What a thread holds after a change of some thread: what it held, or that changed. -/
theorem thread_modThread_or (s : State) (g t : Nat) (f : Thread → Thread) (h u : Nat) :
    (s.modThread g t f).thread h u = s.thread h u ∨ (s.modThread g t f).thread h u = f (s.thread h u) := by
  by_cases e : h = g ∧ u = t
  · obtain ⟨rfl, rfl⟩ := e
    by_cases hl : u < (s.group h).threads.length
    · exact .inr (thread_modThread_self hl f)
    · have hsame : (s.group h).threads.modify u f = (s.group h).threads := List.modify_eq_self (Nat.le_of_not_lt hl)
      refine .inl ?_
      unfold thread
      rw [group_modThread, hsame]
  · exact .inl (thread_modThread_ne (by omega) s f)

theorem modTh_iss (s : State) (t : Nat) (f : Thread → Thread) : (s.modTh t f).iss = s.iss := by rw [modTh_only]

/-- The issuing group after a change of one of its threads. -/
theorem cur_modTh (s : State) (t : Nat) (f : Thread → Thread) :
    (s.modTh t f).cur = { s.cur with threads := s.cur.threads.modify t f } := by
  unfold cur
  rw [modTh_iss]
  exact group_modThread s s.iss.g t f

/-- A thread of the issuing group after a change of some thread of it. -/
theorem th_modTh_or (s : State) (t : Nat) (f : Thread → Thread) (u : Nat) :
    (s.modTh t f).th u = s.th u ∨ (s.modTh t f).th u = f (s.th u) := by
  unfold th
  rw [modTh_iss]
  exact thread_modThread_or s s.iss.g t f s.iss.g u

/-- A change of a thread is no change outside the groups. -/
theorem onlyGroups_modTh (s : State) (t : Nat) (f : Thread → Thread) : OnlyGroups s (s.modTh t f) := by
  unfold OnlyGroups
  rw [modTh_only]

end State

/-- A reflexive and transitive relation that holds over each thread's part holds over the bundle. -/
theorem bundleDone_rel {R : State → State → Prop} {k : State → Nat → State} (refl : ∀ s, R s s)
    (trans : ∀ {a b c}, R a b → R b c → R a c) (lane : ∀ s t, R s (laneDone k s t)) (s : State) :
    R s (bundleDone k s) := by
  have fold : ∀ (ts : List Nat) (s : State), R s (ts.foldl (laneDone k) s) := by
    intro ts
    induction ts with
    | nil => exact refl
    | cons t r ih => exact fun s => trans (lane s t) (ih _)
  exact fold _ s

theorem OnlyGroups.trans {s s' s'' : State} (a : OnlyGroups s s') (b : OnlyGroups s' s'') : OnlyGroups s s'' := by
  unfold OnlyGroups at *
  rw [b, a]

/-! ## What a write of one predicate leaves as it was -/

/-- The thread is as before but for its PC, its wait, the pointer to return to, and predicate c. -/
structure Thread.SameButPred (c : BitVec 3) (h h' : Thread) : Prop where
  rest : h' = { h with pc := h'.pc, wait := h'.wait, undo := h'.undo, c := h'.c }
  preds : ∀ q : BitVec 3, q ≠ c → h'.c.getD q.toNat false = h.c.getD q.toNat false

namespace Thread.SameButPred
variable {c : BitVec 3}

theorem refl (h : Thread) : SameButPred c h h := ⟨rfl, fun _ _ => rfl⟩

theorem trans {h h' h'' : Thread} (a : SameButPred c h h') (b : SameButPred c h' h'') : SameButPred c h h'' where
  rest := by rw [b.rest, a.rest]
  preds q hq := (b.preds q hq).trans (a.preds q hq)

/-- Predicate c written, and nothing else. -/
theorem set (h : Thread) (v : Bool) : SameButPred c h { h with c := h.c.set c.toNat v } where
  rest := rfl
  preds q hq := by
    have hn : c.toNat ≠ q.toNat := fun e => hq (BitVec.eq_of_toNat_eq e.symm)
    simp only [List.getD_eq_getElem?_getD, List.getElem?_set_ne hn]

end Thread.SameButPred

/-- Of the issuing group's threads, all but PCs, waits, pointers to return to, and predicate c is as before, and so
is everything else but the faults of ended walks. -/
structure PredFrame (c : BitVec 3) (s s' : State) : Prop where
  only : OnlyGroups s s'
  others : ∀ g, g ≠ s.iss.g → s'.group g = s.group g
  cur : s'.cur = { s.cur with threads := s'.cur.threads }
  threads : ∀ t, (s.th t).SameButPred c (s'.th t)

namespace PredFrame
variable {c : BitVec 3}

theorem iss_eq {s s' : State} (a : PredFrame c s s') : s'.iss = s.iss := by rw [a.only]

theorem refl (s : State) : PredFrame c s s := ⟨rfl, fun _ _ => rfl, rfl, fun _ => .refl _⟩

theorem trans {s s' s'' : State} (a : PredFrame c s s') (b : PredFrame c s' s'') : PredFrame c s s'' where
  only := a.only.trans b.only
  others g hg := (b.others g (by rw [a.iss_eq]; exact hg)).trans (a.others g hg)
  cur := by rw [b.cur, a.cur]
  threads t := (a.threads t).trans (b.threads t)

/-- A change of one thread of the issuing group that keeps all but those parts of every thread. -/
theorem modTh {f : Thread → Thread} (hf : ∀ h, Thread.SameButPred c h (f h)) (s : State) (t : Nat) :
    PredFrame c s (s.modTh t f) where
  only := State.onlyGroups_modTh s t f
  others g hg := State.group_modThread_ne hg s t f
  cur := by rw [State.cur_modTh]
  threads u := by
    rcases State.th_modTh_or s t f u with e | e
    · exact e ▸ .refl _
    · exact e ▸ hf _

theorem dropFaults (s : State) (t : Nat) : PredFrame c s (s.dropFaults t) :=
  ⟨rfl, fun _ _ => rfl, rfl, fun _ => .refl _⟩

theorem advance (s : State) (t : Nat) : PredFrame c s (s.advance t) :=
  modTh (f := fun h => { h with pc := s.iss.npc, wait := none }) (fun _ => ⟨rfl, fun _ _ => rfl⟩) s t

theorem setPred (s : State) (t : Nat) (v : Bool) : PredFrame c s (s.setPred t c v) := modTh (fun h => .set h v) s t

theorem settle (s : State) (t : Nat) : PredFrame c s (s.settle t) :=
  (dropFaults s t).trans
    (modTh (f := fun h => { h with undo := none }) (fun _ => ⟨rfl, fun _ _ => rfl⟩) (s.dropFaults t) t)

/-- One thread's part of an instruction that writes predicate c: on to NPC, the write, and the wait's end. -/
theorem laneDone (v : Nat → Bool) (s : State) (t : Nat) :
    PredFrame c s (laneDone (fun st t => st.setPred t c (v t)) s t) :=
  (advance s t).trans ((setPred _ t (v t)).trans (settle _ t))

/-- A predicate that is not c reads the same, and so does c7, which discards its write (R8). -/
theorem pred_eq {s s' : State} (a : PredFrame c s s') (t : Nat) {q : BitVec 3} (hq : q ≠ c ∨ c = 7#3) :
    s'.pred t q = s.pred t q := by
  unfold State.pred
  by_cases h7 : q = 7#3
  · rw [if_pos h7, if_pos h7]
  · have hne : q ≠ c := hq.elim id fun hc => hc ▸ h7
    rw [if_neg h7, if_neg h7, (a.threads t).preds q hne]

end PredFrame

/-- The predicate-only instructions complete for their bundle with one write of the predicate. -/
theorem completes_setPred {i : Instr} {c : BitVec 3} {s : State} (hi : onlyPred i = some c) (h : Passes i s) :
    ∃ v : Nat → Bool, Completes i s fun st t => st.setPred t c (v t) := by
  unfold onlyPred at hi
  split at hi
  all_goals cases hi
  all_goals exact ⟨_, predLanes_done h⟩

/-- Settles O6: each thread's part keeps the frame, which is reflexive and transitive, so the bundle does. -/
theorem predicateResultFrame : Obligations.PredicateResultFrame := by
  intro i c s hi hp
  obtain ⟨v, hdone⟩ := completes_setPred hi hp
  have frame : PredFrame c s (bundleDone (fun st t => st.setPred t c (v t)) s) :=
    bundleDone_rel PredFrame.refl PredFrame.trans (PredFrame.laneDone v) s
  refine ⟨_, hdone, frame.only, frame.others, frame.cur, fun t => ?_, fun t q => frame.pred_eq t⟩
  rw [(frame.threads t).rest]
  exact ⟨rfl, rfl, rfl, rfl⟩

/-! ## CSRW -/

/-- A CSRW names a register pair exactly where the system register has 64 bits (R209). -/
theorem csrRegs_eq_two (n : Nat) : csrRegs n = 2 ↔ csrWidth n = some 64 := by
  unfold csrRegs
  split <;> simp_all

section
variable {n : Nat} (s : State) (t : Nat) (v : DWord)

theorem csrStore_trapcause (hn : n = 0x001) :
    csrStore s t n v = s.modTh t fun h => { h with trapcause := v.setWidth 32 } := by subst hn; rfl

theorem csrStore_trappc (hn : n = 0x002) : csrStore s t n v = s.modTh t fun h => { h with trappc := v } := by
  subst hn; rfl

theorem csrStore_trapaddr (hn : n = 0x003) : csrStore s t n v = s.modTh t fun h => { h with trapaddr := v } := by
  subst hn; rfl

theorem csrStore_trapaux (hn : n = 0x004) : csrStore s t n v = s.modTh t fun h => { h with trapaux := v } := by
  subst hn; rfl

theorem csrStore_fpstat (hn : n = 0x030) :
    csrStore s t n v = s.modTh t fun h => { h with fpstat := v.setWidth 32 &&& 0xFFFFFF3F#32 } := by subst hn; rfl

theorem csrStore_tkage (hn : n = 0x100) :
    csrStore s t n v = s.modDie s.cur.kind.die fun D => { D with tkage := v.toNat % 2 ^ 32 } := by subst hn; rfl

end

/-- The die of the issuing group is the same once a thread has moved on. -/
theorem advance_cur_kind (s : State) (t : Nat) : (s.advance t).cur.kind = s.cur.kind := by
  unfold State.cur
  rw [State.advance_iss, State.advance_kind]

/-- The value that CSRW reads from its operand (R209): a pair for a system register of 64 bits, else one register. -/
def csrOperand (s : State) (t n : Nat) (a : Field) : DWord :=
  if csrWidth n = some 64 then s.pair t a else (s.reg t a).setWidth 64

/-- A CSRW of a lone thread that passes the checks writes its operand to the system register. -/
theorem csrw_done {s s1 : State} {t : Nat} {n : BitVec 9} {a : Field} (h : Alone (.csrw n a) s t)
    (hs : csrStore (s.advance t) t n.toNat (csrOperand s t n.toNat a) = s1) : DoneAlone (.csrw n a) s t s1 := by
  refine runLanes_alone_ok h ?_
  simp only [csrRegs_eq_two]
  exact congrArg LaneRes.ok hs

/-- Outside a proofer the check of R174's step 4 is the first that a CSRW can fail. -/
theorem laneCheck_csrw {s : State} {t : Nat} {n : BitVec 9} {a : Field} {ti : TrapInfo}
    (hp : s.cur.kind.isProofer = false) (h : privCheck s t (.csrw n a) = some ti) :
    laneCheck (.csrw n a) s t = some ti := by
  have hg : (s.group s.iss.g).kind.isProofer = false := hp
  have hsimt : simtOnly (.csrw n a) = false := rfl
  simp [laneCheck, hg, hsimt, h]

/-- A CSRW of a read-only number, or of TKAGE at user level, fails the check of its level (R209, R210). -/
theorem privCheck_csrw {s : State} {t : Nat} {n : BitVec 9} (a : Field)
    (h : n.toNat ∉ [0x001, 0x002, 0x003, 0x004, 0x030, 0x100]
      ∨ n.toNat = 0x100 ∧ (s.th t).status.getLsbD 0 = false) :
    privCheck s t (.csrw n a) = some { cause := cPRIV, aux := n.toNat } := by
  refine if_pos ?_
  rcases h with readOnly | ⟨tkage, user⟩
  · have hw : csrWritable n.toNat = false := by simpa [csrWritable, and_assoc] using readOnly
    rw [hw]; rfl
  · rw [tkage, user]; rfl

/-- Settles O20: the six writable numbers are the six branches of the write, and every other fails the check. -/
theorem systemRegisterWrites : Obligations.SystemRegisterWrites := by
  intro s t n a
  refine ⟨fun h => ⟨?_, ?_, ?_, ?_, ?_, ?_⟩, fun hts hproofer _ hn => ?_⟩
  · exact fun hn => csrw_done h (csrStore_trapcause _ _ _ hn)
  · exact fun hn => csrw_done h (csrStore_trappc _ _ _ hn)
  · exact fun hn => csrw_done h (csrStore_trapaddr _ _ _ hn)
  · exact fun hn => csrw_done h (csrStore_trapaux _ _ _ hn)
  · exact fun hn => csrw_done h (csrStore_fpstat _ _ _ hn)
  · intro hn
    have hs := csrStore_tkage (s.advance t) t (csrOperand s t n.toNat a) hn
    rw [advance_cur_kind] at hs
    exact csrw_done h hs
  · exact runLanes_alone_check hts (laneCheck_csrw hproofer (privCheck_csrw a hn))

end Sys2Proof.Machine


/-! SUPPORT and PROOFS. Every step keeps the one form of memory (log entry 5). The operations that write memory keep the
form (Laws/Memory.lean); here every other function of the model is followed, in the order of the model's files, up to
`step`. One lemma per function says what the function does to memory:

* `f_mem`: a function that leaves memory alone;
* `f_wf`: a function that may write memory keeps its form, in every state that its result carries.

In the lists that `grind` is given, `→ f_wf` is used from a result that `f` has given, and `!f_wf` wherever `f` is
called. -/

namespace Sys2Proof.Machine

variable {s s' r : State}

/-! ### What the results of the model's functions carry -/

/-- The state that a computation leaves, if it does not fail, has memory in its form. -/
def OkWf {ε : Type} : Except ε State → Prop
  | .ok s => MemoryWf s
  | .error _ => True

/-- The same for the end of an attempt to write a record. -/
def Wrote.Wf : Wrote → Prop
  | .ok s => MemoryWf s
  | _ => True

/-- The same for a thread's part of an instruction. -/
def LaneRes.Wf : LaneRes → Prop
  | .ok s | .wait s _ | .part s _ => MemoryWf s
  | .trap _ => True

/-- The same for a translation. -/
def XRes.Wf : XRes → Prop
  | .ok s _ _ | .wait s _ => MemoryWf s
  | .fault _ => True

/-- The same for the translated pieces of an access. -/
def Pieces.Wf : Pieces → Prop
  | .ok s _ | .wait s _ => MemoryWf s
  | .fault _ => True

/-- The same for a store into an L1. -/
def StoreRes.Wf : StoreRes → Prop
  | .ok s | .wait s _ => MemoryWf s

/-- The same for a write of a unit. -/
def UnitRes.Wf : UnitRes → Prop
  | .ok s | .wait s => MemoryWf s
  | .fail _ => True

/-- The same for a write of a pixel. -/
def PixelRes.Wf : PixelRes → Prop
  | .ok s _ => MemoryWf s
  | _ => True

/-- The same for an item of a matrix sequencer. -/
def ItemRes.Wf : ItemRes → Prop
  | .ok s | .wait s => MemoryWf s
  | .fail _ => True

/-- The same for a fetch. -/
def Fetched.Wf : Fetched → Prop
  | .words s _ _ | .wait s _ => MemoryWf s
  | .fault _ _ => True

/-- The same for a request of the texture queue. -/
def ReqRes.Wf : ReqRes → Prop
  | .done s _ | .sent s _ _ | .fail s _ | .spent s => MemoryWf s
  | .wait => True

/-- The same for a microword. -/
def MicroStep.Wf : MicroStep → Prop
  | .go m => MemoryWf m.s
  | _ => True

/-- The same for a run of microwords. -/
def MicroEnd.Wf : MicroEnd → Prop
  | .halted m | .fault m _ | .spent m => MemoryWf m.s
  | .wait => True

/-- The same for the read of a copied element. -/
def ReadRes.Wf : ReadRes → Prop
  | .ok s _ => MemoryWf s
  | _ => True

/-- The same for the checks of a launch. -/
def Arrive.Wf : Arrive → Prop
  | .ok s _ _ => MemoryWf s
  | .refuse .. => True

/-- The same for a command. -/
def CmdRes.Wf : CmdRes → Prop
  | .done s _ | .begun s => MemoryWf s
  | _ => True

/-! ### Folds and choices -/

/-- A state with the memory of one in the form. -/
theorem wf_of_mem (e : s'.mem = s.mem) (h : MemoryWf s) : MemoryWf s' := by
  change Memory.wf s'.mem = true
  rwa [e]

/-- Steps folded over a list, each of which keeps the form. -/
theorem foldl_wf {α : Type} {f : State → α → State} {l : List α} (hf : ∀ s a, MemoryWf s → MemoryWf (f s a))
    (h : MemoryWf s) : MemoryWf (l.foldl f s) := by
  induction l generalizing s with
  | nil => exact h
  | cons a r ih => exact ih (hf s a h)

/-- Steps folded over a list, none of which touches memory. -/
theorem foldl_mem {α : Type} {f : State → α → State} (hf : ∀ s a, (f s a).mem = s.mem) (l : List α) (s) :
    (l.foldl f s).mem = s.mem := by
  induction l generalizing s with
  | nil => rfl
  | cons a r ih => exact (ih (f s a)).trans (hf s a)

/-- The same where the fold carries a value beside the state. -/
theorem foldl_fst_wf {α β : Type} {f : State × β → α → State × β} {l : List α} {p : State × β}
    (hf : ∀ p a, MemoryWf p.1 → MemoryWf (f p a).1) (h : MemoryWf p.1) : MemoryWf (l.foldl f p).1 := by
  induction l generalizing p with
  | nil => exact h
  | cons a r ih => exact ih (hf p a h)

theorem foldl_fst_mem {α β : Type} {f : State × β → α → State × β} (hf : ∀ p a, (f p a).1.mem = p.1.mem)
    (l : List α) (p : State × β) : (l.foldl f p).1.mem = p.1.mem := by
  induction l generalizing p with
  | nil => rfl
  | cons a r ih => exact (ih (f p a)).trans (hf p a)

/-- What follows a computation that succeeds. -/
theorem okWf_map {ε : Type} {t : Except ε State} {f : State → State} (hf : ∀ s, MemoryWf s → MemoryWf (f s))
    (ht : OkWf t) : OkWf (t.map f) := by
  cases t with
  | error e => trivial
  | ok s => exact hf s ht

/-- The first of several candidates that gives a state, or the state as it was. -/
theorem findSome_getD_wf {α : Type} {f : α → Option State} {l : List α}
    (hf : ∀ a s', f a = some s' → MemoryWf s') (h : MemoryWf s) : MemoryWf ((l.findSome? f).getD s) := by
  cases e : l.findSome? f with
  | none => exact h
  | some r =>
    obtain ⟨a, -, ha⟩ := List.exists_of_findSome?_eq_some e
    exact hf a r ha

/-- A write by physical address (R99), as a result. -/
theorem State.writePhys_wf {d pa bs} (h : MemoryWf s) : OkWf (s.writePhys d pa bs) := by
  unfold State.writePhys
  split
  · trivial
  · exact homeWrite_wf h _ _

/-! ### Access -/

@[simp] theorem State.modThread_mem (s : State) (g t f) : (s.modThread g t f).mem = s.mem :=
  State.modGroup_mem ..

@[simp] theorem State.fresh_mem (s : State) : s.fresh.2.mem = s.mem := rfl

@[simp] theorem State.freeBit_mem (s : State) : s.freeBit.2.mem = s.mem := rfl

@[simp] theorem State.modTh_mem (s : State) (t f) : (s.modTh t f).mem = s.mem :=
  State.modThread_mem ..

@[simp] theorem State.setPc_mem (s : State) (t pc) : (s.setPc t pc).mem = s.mem :=
  State.modTh_mem ..

@[simp] theorem State.writeX_mem (s : State) (g t n v) : (s.writeX g t n v).mem = s.mem :=
  State.modThread_mem ..

@[simp] theorem State.writeK_mem (s : State) (g n v) : (s.writeK g n v).mem = s.mem :=
  State.modGroup_mem ..

@[simp] theorem State.writeRegOf_mem (s : State) (g t f v) : (s.writeRegOf g t f v).mem = s.mem := by
  unfold State.writeRegOf
  grind [State.writeX_mem, State.writeK_mem]

@[simp] theorem State.setReg_mem (s : State) (t f v) : (s.setReg t f v).mem = s.mem :=
  State.writeRegOf_mem ..

@[simp] theorem State.setRun_mem (s : State) (t f vs) : (s.setRun t f vs).mem = s.mem := by
  unfold State.setRun
  grind +splitImp [State.writeRegOf_mem, foldl_mem]

@[simp] theorem State.setPair_mem (s : State) (t f v) : (s.setPair t f v).mem = s.mem :=
  State.setRun_mem ..

@[simp] theorem State.setPtr_mem (s : State) (t n v) : (s.setPtr t n v).mem = s.mem :=
  State.modTh_mem ..

@[simp] theorem State.setPred_mem (s : State) (t c v) : (s.setPred t c v).mem = s.mem :=
  State.modTh_mem ..

/-! ### Memory -/

@[simp] theorem State.dropL0_mem (s : State) (c ws) : (s.dropL0 c ws).mem = s.mem := rfl

@[simp] theorem State.dropAllL0_mem (s : State) (ws) : (s.dropAllL0 ws).mem = s.mem := rfl

@[simp] theorem State.noteOld_mem (s : State) (ws) : (s.noteOld ws).mem = s.mem := rfl

@[simp] theorem State.noteL2_mem (s : State) (newer line) : (s.noteL2 newer line).mem = s.mem := by
  unfold State.noteL2
  grind

theorem State.homeWriteNat_wf {pa n v} (h : MemoryWf s) : MemoryWf (s.homeWriteNat pa n v) := by
  unfold State.homeWriteNat
  grind [homeWrite_wf]

@[simp] theorem State.post_mem (s : State) (chan src dst b) : (s.post chan src dst b).mem = s.mem := rfl

theorem State.take_mem {n x} (he : s.take n = some x) : x.2.mem = s.mem := by
  unfold State.take at he
  grind

theorem State.setAside_wf {m k} (h : MemoryWf s) (h' : MemoryWf s') : MemoryWf (s.setAside s' m k) := by
  unfold State.setAside
  split
  · exact h
  · exact h'

/-! ### Translate -/

theorem State.walkNow_wf {d table va acc user ldt x} (h : MemoryWf s)
    (he : s.walkNow d table va acc user ldt = .ok x) : MemoryWf x.1 := by
  unfold State.walkNow at he
  grind [touch_wf]

theorem State.readVirt_wf {d table va n user x} (h : MemoryWf s) (he : s.readVirt d table va n user = .ok x) :
    MemoryWf x.1 := by
  unfold State.readVirt at he
  grind [→ State.walkNow_wf]

theorem State.writeVirt_wf {d table va bs user} (h : MemoryWf s) : OkWf (s.writeVirt d table va bs user) := by
  unfold State.writeVirt
  grind [→ State.walkNow_wf, !State.writePhys_wf, OkWf]

@[simp] theorem State.tlbAdd_mem (s : State) (a) : (s.tlbAdd a).mem = s.mem := by
  unfold State.tlbAdd
  grind

theorem State.translate.startWalk_wf {g t va acc} (h : MemoryWf s) : (State.translate.startWalk g t va acc s).Wf := by
  unfold State.translate.startWalk
  grind [State.fresh_mem, XRes.Wf]

theorem State.translate_wf {g t va acc ldt} (h : MemoryWf s) : (s.translate g t va acc ldt).Wf := by
  unfold State.translate
  grind [touch_wf, !State.translate.startWalk_wf, XRes.Wf]

theorem State.endWalk_wf {k} (h : MemoryWf s) : MemoryWf (s.endWalk k) := by
  unfold State.endWalk
  grind [touch_wf, State.tlbAdd_mem]

/-! ### Ops -/

theorem State.writeRecord_wf {d rcb bytes} (h : MemoryWf s) : (s.writeRecord d rcb bytes).Wf := by
  unfold State.writeRecord
  dsimp only
  split
  · trivial
  split
  · trivial
  split
  · trivial
  · grind [→ State.readVirt_wf, !State.writeVirt_wf, Wrote.Wf, OkWf]

@[simp] theorem State.relabel_mem (s : State) (k) : (s.relabel k).mem = s.mem := by
  unfold State.relabel
  grind +splitImp [State.modGroup_mem, foldl_mem]

@[simp] theorem State.swapIn_mem (s : State) (k) : (s.swapIn k).mem = s.mem := by
  unfold State.swapIn
  grind [State.modPart_mem, State.modGroup_mem]

@[simp] theorem State.fillActive_mem (s : State) (k) : (s.fillActive k).mem = s.mem := by
  unfold State.fillActive
  grind +splitImp [State.relabel_mem, State.swapIn_mem, foldl_mem]

@[simp] theorem State.leaveActive_mem (s : State) (g ready) : (s.leaveActive g ready).mem = s.mem := by
  unfold State.leaveActive
  grind [State.modPart_mem, State.fillActive_mem, State.modGroup_mem]

theorem State.freeArea_wf {d sup} (h : MemoryWf s) : MemoryWf (s.freeArea d sup) := by
  unfold State.freeArea
  grind [!State.writeVirt_wf, OkWf]

theorem State.dropWork_wf {rs} (h : MemoryWf s) : MemoryWf (s.dropWork rs) := by
  unfold State.dropWork
  grind +splitImp [State.post_mem, State.fillActive_mem, State.freeArea_wf, foldl_wf, foldl_mem]

theorem State.putTail_wf {rcb} (h : MemoryWf s) : OkWf (s.putTail rcb) := by
  unfold State.putTail
  grind [!State.writePhys_wf, OkWf]

theorem State.tellAbort_wf {a} (h : MemoryWf s) : MemoryWf (s.tellAbort a) := by
  unfold State.tellAbort
  grind +splitImp [!State.putTail_wf, !State.writeRecord_wf, State.notify_mem, OkWf, Wrote.Wf, foldl_wf, foldl_mem]

theorem State.tellAborts_wf (h : MemoryWf s) : MemoryWf s.tellAborts := by
  unfold State.tellAborts
  grind +splitImp [State.tellAbort_wf, foldl_wf]

theorem State.abort_wf {d rcb cause head origin acause area faddr} (h : MemoryWf s) :
    MemoryWf (s.abort d rcb cause head origin acause area faddr) := by
  unfold State.abort
  grind [State.dropWork_wf, State.tellAborts_wf]

theorem State.writeBack_wf {rcb} (h : MemoryWf s) : MemoryWf (s.writeBack rcb) := by
  unfold State.writeBack
  grind [!State.putTail_wf, State.abort_wf, OkWf]

@[simp] theorem State.noteReached_mem (s : State) (d rcb) : (s.noteReached d rcb).mem = s.mem := by
  unfold State.noteReached
  grind +splitImp [State.modRegion_mem, foldl_mem]

theorem State.counted_wf {d rcb} (h : MemoryWf s) : MemoryWf (s.counted d rcb) := by
  unfold State.counted
  grind [State.writeBack_wf, State.noteReached_mem]

theorem State.spend_wf {d rcb n} (h : MemoryWf s) : MemoryWf (s.spend d rcb n) := by
  unfold State.spend
  grind [State.counted_wf, State.modRegion_mem]

@[simp] theorem State.awaitArea_mem (s : State) (rcb a) : (s.awaitArea rcb a).mem = s.mem :=
  State.modRegion_mem ..

@[simp] theorem State.noteWritten_mem (s : State) (rcb a) : (s.noteWritten rcb a).mem = s.mem := by
  unfold State.noteWritten
  grind [State.modRegion_mem]

theorem State.reportAt_wf {d rcb cycle a tail} (h : MemoryWf s) : OkWf (s.reportAt d rcb cycle a tail) := by
  unfold State.reportAt
  grind [!State.writeRecord_wf, State.noteWritten_mem, State.abort_wf, OkWf, Wrote.Wf]

theorem State.report_wf {d rcb a tail} (h : MemoryWf s) : OkWf (s.report d rcb a tail) :=
  State.reportAt_wf h

theorem State.reportRest_wf {d rcb a} (h : MemoryWf s) : OkWf (s.reportRest d rcb a) := by
  fun_induction State.reportRest s d rcb a <;> grind [!State.report_wf, OkWf]

@[simp] theorem State.forgetTold_mem (s : State) (rcb hs) : (s.forgetTold rcb hs).mem = s.mem := by
  unfold State.forgetTold
  grind [State.modRegion_mem]

theorem State.reportAll_wf {d rcb l} (h : MemoryWf s) : OkWf (s.reportAll d rcb l) := by
  unfold State.reportAll
  grind [!State.reportRest_wf, State.forgetTold_mem, OkWf]

theorem State.noteRest_wf {d rcb l} (h : MemoryWf s) : MemoryWf (s.noteRest d rcb l) := by
  fun_induction State.noteRest s d rcb l <;> grind [!State.report_wf, State.awaitArea_mem, State.modRegion_mem, OkWf,
    foldl_mem]

theorem State.noteFull_wf {rcb a} (h : MemoryWf s) : MemoryWf (s.noteFull rcb a) :=
  State.noteRest_wf h

theorem State.orFull_wf {rcb t} (ht : OkWf t) (h : MemoryWf s) : MemoryWf (s.orFull rcb t) := by
  unfold State.orFull
  grind [State.noteFull_wf, OkWf]

theorem State.leaveRecord_wf {d rcb a tail} (h : MemoryWf s) : MemoryWf (s.leaveRecord d rcb a tail) := by
  unfold State.leaveRecord
  grind [!State.report_wf, State.awaitArea_mem, OkWf]

theorem State.discardMessage_wf {d m} (h : MemoryWf s) : MemoryWf (s.discardMessage d m) :=
  State.leaveRecord_wf h

@[simp] theorem State.sendMessage_mem (s : State) (src dst m) : (s.sendMessage src dst m).mem = s.mem := rfl

theorem State.bounceMessage_wf {d m} (h : MemoryWf s) : MemoryWf (s.bounceMessage d m) := by
  unfold State.bounceMessage
  grind [State.discardMessage_wf, State.post_mem]

theorem State.flushMail_wf {gs} (h : MemoryWf s) : MemoryWf (s.flushMail gs) := by
  unfold State.flushMail
  grind +splitImp [State.discardMessage_wf, State.modGroup_mem, State.bounceMessage_wf, foldl_wf, foldl_mem]

theorem State.returnMail_wf {g} (h : MemoryWf s) : MemoryWf (s.returnMail g) := by
  unfold State.returnMail
  grind +splitImp [State.modGroup_mem, State.bounceMessage_wf, foldl_wf]

@[simp] theorem State.leavePart_mem (s : State) (g) : (s.leavePart g).mem = s.mem := by
  unfold State.leavePart
  grind [State.fillActive_mem, State.modPart_mem]

@[simp] theorem State.keepFreed_mem (s : State) (B f) : (s.keepFreed B f).mem = s.mem := by
  unfold State.keepFreed
  grind [State.modLaunch_mem, State.modBlock_mem]

@[simp] theorem State.keepSlot_mem (s : State) (G) : (s.keepSlot G).mem = s.mem := by
  unfold State.keepSlot
  grind [State.keepFreed_mem]

theorem State.retireIfDone_wf {g} (h : MemoryWf s) : MemoryWf (s.retireIfDone g) := by
  unfold State.retireIfDone
  grind [State.leavePart_mem, State.keepSlot_mem, State.modGroup_mem, State.returnMail_wf]

theorem State.exitSlot_wf {g t} (h : MemoryWf s) : MemoryWf (s.exitSlot g t) := by
  unfold State.exitSlot
  grind [State.retireIfDone_wf, State.modGroup_mem]

@[simp] theorem State.sendResults_mem (s : State) (g t) : (s.sendResults g t).mem = s.mem := by
  unfold State.sendResults
  grind [State.sendMessage_mem]

theorem State.freeContext_wf {g} (h : MemoryWf s) : MemoryWf (s.freeContext g) :=
  State.returnMail_wf h

theorem State.endThread_wf {g t} (h : MemoryWf s) : MemoryWf (s.endThread g t) := by
  unfold State.endThread
  grind [State.exitSlot_wf, State.sendResults_mem, State.freeContext_wf]

@[simp] theorem State.enterTrap_mem (s : State) (g t f trapPc) : (s.enterTrap g t f trapPc).mem = s.mem :=
  State.modGroup_mem ..

@[simp] theorem State.startHandler_mem (s : State) (g t f) : (s.startHandler g t f).1.mem = s.mem := by
  unfold State.startHandler
  grind [State.modThread_mem]

theorem State.recordTrap_wf {g t f} (h : MemoryWf s) : MemoryWf (s.recordTrap g t f).1 := by
  unfold State.recordTrap
  grind [!State.writeRecord_wf, State.startHandler_mem, State.noteWritten_mem, State.modThread_mem,
    State.awaitArea_mem, Wrote.Wf]

theorem State.nestedTrap_wf {g t f} (h : MemoryWf s) : MemoryWf (s.nestedTrap g t f).1 := by
  unfold State.nestedTrap
  grind [State.endThread_wf, State.noteWritten_mem, !State.writeRecord_wf, State.modThread_mem, State.awaitArea_mem,
    Wrote.Wf]

theorem State.failInstance_wf {g ti} (h : MemoryWf s) : MemoryWf (s.failInstance g ti) := by
  unfold State.failInstance
  grind [!State.report_wf, State.freeContext_wf, State.modThread_mem, State.noteFull_wf, OkWf]

theorem State.trapWith_wf {g t ti recPc words trapPc late} (h : MemoryWf s) :
    MemoryWf (s.trapWith g t ti recPc words trapPc late).1 := by
  unfold State.trapWith
  grind [State.failInstance_wf, State.nestedTrap_wf, State.recordTrap_wf, State.enterTrap_mem]

theorem State.doomAll_wf {l} (h : MemoryWf s) : MemoryWf (s.doomAll l) := by
  unfold State.doomAll
  grind +splitImp [State.abort_wf, foldl_wf]

theorem State.trapAll_wf {g l recPc words trapPc} (h : MemoryWf s) : MemoryWf (s.trapAll g l recPc words trapPc) := by
  unfold State.trapAll
  grind +splitImp [State.trapWith_wf, State.doomAll_wf, foldl_fst_wf]

theorem State.trapLanes_wf {l} (h : MemoryWf s) : MemoryWf (s.trapLanes l) :=
  State.trapAll_wf h

@[simp] theorem State.eret_mem (s : State) (g t) : (s.eret g t).mem = s.mem :=
  State.modThread_mem ..

@[simp] theorem State.dropFaults_mem (s : State) (t) : (s.dropFaults t).mem = s.mem := rfl

@[simp] theorem State.settle_mem (s : State) (t) : (s.settle t).mem = s.mem := by
  unfold State.settle
  grind [State.modTh_mem, State.dropFaults_mem]

@[simp] theorem State.stay_mem (s : State) (t w) : (s.stay t w).mem = s.mem :=
  State.modTh_mem ..

theorem laneStep_wf {i f s0 t} {a : Lanes} (hf : ∀ s t, MemoryWf s → (f s0 s t).Wf) (h : MemoryWf a.s) :
    MemoryWf (laneStep i f s0 a t).s := by
  unfold laneStep
  grind [State.stay_mem, State.advance_mem, State.settle_mem, State.dropFaults_mem, LaneRes.Wf]

/-- The threads of a bundle, one after another. -/
theorem foldl_laneStep_wf {i f s0} (hf : ∀ s t, MemoryWf s → (f s0 s t).Wf) (ts : List Nat) {a : Lanes}
    (h : MemoryWf a.s) : MemoryWf (ts.foldl (laneStep i f s0) a).s := by
  induction ts generalizing a with
  | nil => exact h
  | cons t r ih => exact ih (laneStep_wf hf h)

theorem runLanes_wf {i f} (hf : ∀ s' t, MemoryWf s' → (f s s' t).Wf) (h : MemoryWf s)
    (he : runLanes i f s = .next r)
    : MemoryWf r := by
  unfold runLanes at he
  cases he
  exact State.trapLanes_wf (foldl_laneStep_wf hf _ h)

/-! ### Coherence -/

@[simp] theorem State.clearPend_mem (s : State) (g t dst) : (s.clearPend g t dst).mem = s.mem := by
  unfold State.clearPend
  grind [State.modGroup_mem, State.modThread_mem]

@[simp] theorem State.setPend_mem (s : State) (g t dst) : (s.setPend g t dst).mem = s.mem := by
  unfold State.setPend
  grind [State.modGroup_mem, State.modThread_mem]

@[simp] theorem State.writeDst_mem (s : State) (g t dst vs) : (s.writeDst g t dst vs).mem = s.mem := by
  unfold State.writeDst
  grind +splitImp [State.writeX_mem, State.writeK_mem, foldl_mem]

@[simp] theorem State.strikeLower_mem (s : State) (g t dst) : (s.strikeLower g t dst).mem = s.mem := by
  unfold State.strikeLower
  grind

@[simp] theorem State.landDst_mem (s : State) (g t skip dst vs) : (s.landDst g t skip dst vs).mem = s.mem := by
  unfold State.landDst
  grind [State.strikeLower_mem, State.writeDst_mem]

@[simp] theorem State.failReply_mem (s : State) (q ti) : (s.failReply q ti).mem = s.mem := by
  unfold State.failReply
  grind [State.modThread_mem, State.clearPend_mem]

@[simp] theorem State.finishLoad_mem (s : State) (q bs) : (s.finishLoad q bs).mem = s.mem := by
  unfold State.finishLoad
  grind [State.modThread_mem, State.landDst_mem, State.clearPend_mem]

@[simp] theorem State.toHome_mem (s : State) (c line b failed) : (s.toHome c line b failed).mem = s.mem := by
  unfold State.toHome
  grind [State.post_mem]

@[simp] theorem State.sendGets_mem (s : State) (c pa n rcb) : (s.sendGets c pa n rcb).mem = s.mem :=
  State.toHome_mem ..

@[simp] theorem State.sendGeto_mem (s : State) (c line ws rel rcb) : (s.sendGeto c line ws rel rcb).mem = s.mem := by
  unfold State.sendGeto
  grind [State.toHome_mem, State.modL1_mem]

@[simp] theorem State.sendWb_mem (s : State) (c ws) : (s.sendWb c ws).mem = s.mem := by
  unfold State.sendWb
  grind +splitImp [State.dropL0_mem, State.modL1_mem, State.toHome_mem, foldl_mem]

@[simp] theorem State.giveUp_mem (s : State) (c wa keep) : (s.giveUp c wa keep).mem = s.mem := by
  unfold State.giveUp
  grind [State.modL1_mem, State.dropL0_mem, State.toHome_mem]

@[simp] theorem State.startHand_mem (s : State) (c wa keep) : (s.startHand c wa keep).mem = s.mem := by
  unfold State.startHand
  grind [State.modL1_mem]

@[simp] theorem State.startOlder_mem (s : State) (c) : (s.startOlder c).mem = s.mem := by
  unfold State.startOlder
  grind +splitImp [State.startHand_mem, foldl_mem]

@[simp] theorem State.stepHand_mem (s : State) (c a) : (s.stepHand c a).mem = s.mem := by
  unfold State.stepHand
  grind [State.giveUp_mem, State.modL1_mem, State.sendWb_mem]

@[simp] theorem State.stepDrain_mem (s : State) (c e) : (s.stepDrain c e).mem = s.mem := by
  unfold State.stepDrain
  grind +splitImp [State.modL1_mem, State.startHand_mem, State.sendWb_mem, foldl_mem]

@[simp] theorem State.stepReleases_mem (s : State) (c) : (s.stepReleases c).mem = s.mem := by
  unfold State.stepReleases
  grind +splitImp [State.modL1_mem, State.sendGeto_mem, foldl_mem]

@[simp] theorem State.l1Advance_mem (s : State) (c) : (s.l1Advance c).mem = s.mem := by
  unfold State.l1Advance
  grind +splitImp [State.stepReleases_mem, State.startOlder_mem, State.stepDrain_mem, State.stepHand_mem, foldl_mem]

@[simp] theorem State.evictL1_mem (s : State) (c line) : (s.evictL1 c line).mem = s.mem := by
  unfold State.evictL1
  grind +splitImp [State.modL1_mem, State.l1Advance_mem, State.startHand_mem, State.sendWb_mem, foldl_mem]

@[simp] theorem State.l1Room_mem (s : State) (c line) : (s.l1Room c line).1.mem = s.mem := by
  unfold State.l1Room
  grind [State.evictL1_mem]

@[simp] theorem State.giveForRelease_mem (s : State) (c ws) : (s.giveForRelease c ws).mem = s.mem := by
  unfold State.giveForRelease
  grind +splitImp [State.startHand_mem, State.sendWb_mem, State.l1Advance_mem, foldl_mem]

theorem State.storeL1_wf {c pa bs who rel} (h : MemoryWf s) : (s.storeL1 c pa bs who rel).Wf := by
  unfold State.storeL1
  extract_lets
  refine iteInduction (motive := StoreRes.Wf) (fun _ => h) fun _ => ?_
  refine iteInduction (motive := StoreRes.Wf) (fun _ => wf_of_mem (State.giveForRelease_mem ..) h) fun _ => ?_
  refine iteInduction (motive := StoreRes.Wf) (fun _ => h) fun _ => ?_
  refine iteInduction (motive := StoreRes.Wf) (fun _ => wf_of_mem (State.giveForRelease_mem ..) h) fun _ => ?_
  refine iteInduction (motive := StoreRes.Wf) (fun _ => h) fun _ => ?_
  refine iteInduction (motive := StoreRes.Wf) (fun _ => h) fun _ => ?_
  refine iteInduction (motive := StoreRes.Wf) (fun _ => ?_) fun _ => ?_
  · exact wf_of_mem (State.l1Advance_mem ..) (foldl_wf (fun _ _ => wf_of_mem (State.startHand_mem ..)) h)
  · have hr := wf_of_mem (State.l1Room_mem s c (lineOf pa)) h
    split
    · rename_i hs
      rwa [hs] at hr
    · rename_i s1 hs
      replace hr : MemoryWf s1 := by rwa [hs] at hr
      extract_lets
      split
      · grind [State.l1Advance_mem, State.dropL0_mem, State.noteOld_mem, State.modL1_mem, StoreRes.Wf]
      · grind [State.dropL0_mem, State.noteOld_mem, State.modL1_mem, State.sendGeto_mem, StoreRes.Wf]

@[simp] theorem State.closeEpoch_mem (s : State) (c) : (s.closeEpoch c).2.mem = s.mem := by
  unfold State.closeEpoch
  grind [State.modL1_mem, State.l1Advance_mem]

@[simp] theorem State.poisonHome_mem (s : State) (wa) : (s.poisonHome wa).mem = s.mem := rfl

@[simp] theorem State.addSharer_mem (s : State) (line c) : (s.addSharer line c).mem = s.mem := rfl

@[simp] theorem State.openTx_mem (s : State) (line req queue) : (s.openTx line req queue).mem = s.mem := by
  unfold State.openTx
  grind +splitImp [State.poisonHome_mem, State.post_mem, foldl_mem]

@[simp] theorem State.rereadAll_mem (s : State) : s.rereadAll.mem = s.mem := rfl

theorem State.performAtom_wf {d a} (h : MemoryWf s) : MemoryWf (s.performAtom d a) := by
  unfold State.performAtom
  grind [State.homeWriteNat_wf, State.rereadAll_mem, State.post_mem]

@[simp] theorem State.modTicket_mem (s : State) (slot f) : (s.modTicket slot f).mem = s.mem := rfl

@[simp] theorem State.freeTicket_mem (s : State) (slot e) : (s.freeTicket slot e).mem = s.mem := rfl

theorem State.takeSlot_mem {slice x} (he : s.takeSlot slice = some x) : x.2.mem = s.mem := by
  unfold State.takeSlot at he
  split at he
  · simp at he
  · rw [← Option.some.inj he]

@[simp] theorem State.returnTicket_mem (s : State) (a val fail) : (s.returnTicket a val fail).mem = s.mem := by
  unfold State.returnTicket
  grind [State.post_mem]

@[simp] theorem State.sendPayload_mem (s : State) (slot c) : (s.sendPayload slot c).mem = s.mem := by
  unfold State.sendPayload
  grind [State.post_mem, State.freeTicket_mem]

@[simp] theorem State.readPayload_mem (s : State) (a) : (s.readPayload a).mem = s.mem := by
  unfold State.readPayload
  grind [State.modTicket_mem, State.sendPayload_mem]

@[simp] theorem State.allocTicket_mem (s : State) (d a) : (s.allocTicket d a).1.mem = s.mem := by
  unfold State.allocTicket
  grind [→ State.takeSlot_mem, State.returnTicket_mem, State.modTicket_mem]

@[simp] theorem State.roomFor_mem (s : State) (line) : (s.roomFor line).mem = s.mem := by
  unfold State.roomFor
  grind [State.openTx_mem]

theorem State.performTx_wf {line a} (h : MemoryWf s) : MemoryWf (s.performTx line a) := by
  unfold State.performTx
  grind +splitImp [State.post_mem, State.addSharer_mem, State.noteL2_mem, State.roomFor_mem, State.poisonHome_mem,
    State.performAtom_wf, State.readPayload_mem, State.allocTicket_mem, State.notify_mem, foldl_wf]

@[simp] theorem State.modTx_mem (s : State) (line f) : (s.modTx line f).mem = s.mem := rfl

@[simp] theorem State.askHost_mem (s : State) (line a) : (s.askHost line a).mem = s.mem := by
  unfold State.askHost
  grind [State.post_mem, State.modTx_mem]

theorem State.runTx_wf {line a} (h : MemoryWf s) : MemoryWf (s.runTx line a) := by
  fun_induction State.runTx s line a <;> grind +splitImp [State.performTx_wf, State.performAtom_wf,
    State.askHost_mem, State.openTx_mem, State.modTx_mem, foldl_wf]

theorem State.arrive_wf {line req} (h : MemoryWf s) : MemoryWf (s.arrive line req) := by
  unfold State.arrive
  grind [State.runTx_wf, State.openTx_mem]

theorem State.resumeTx_wf {line} (h : MemoryWf s) : MemoryWf (s.resumeTx line) :=
  State.runTx_wf h

theorem State.answered_wf {line c ack ws} (h : MemoryWf s) : MemoryWf (s.answered line c ack ws) :=
  State.resumeTx_wf h

@[simp] theorem State.countAccess_mem (s : State) (pa from_ rcb) : (s.countAccess pa from_ rcb).mem = s.mem := by
  unfold State.countAccess
  grind

/-! ### Operands -/

@[simp] theorem State.putTy_mem (s : State) (t ty f v) : (s.putTy t ty f v).mem = s.mem := by
  unfold State.putTy
  grind [State.setPair_mem, State.setReg_mem]

@[simp] theorem State.movePtr_mem (s : State) (t n u) : (s.movePtr t n u).mem = s.mem := by
  unfold State.movePtr
  grind [State.setPtr_mem]

@[simp] theorem State.movePtrWait_mem (s : State) (t n old u) : (s.movePtrWait t n old u).mem = s.mem := by
  unfold State.movePtrWait
  grind [State.modTh_mem, State.setPtr_mem]

@[simp] theorem State.nextEnt_mem (s : State) (g t key) : (s.nextEnt g t key).2.mem = s.mem :=
  State.modThread_mem ..

@[simp] theorem State.modLine_mem (s : State) (b l f) : (s.modLine b l f).mem = s.mem :=
  State.modBlock_mem ..

@[simp] theorem State.spmWrite_mem (s : State) (b a bs) : (s.spmWrite b a bs).mem = s.mem :=
  State.modBlock_mem ..

@[simp] theorem State.markLine_mem (s : State) (b l) : (s.markLine b l).mem = s.mem :=
  State.modLine_mem ..

@[simp] theorem State.callProofers_mem (s : State) (b l) : (s.callProofers b l).mem = s.mem := rfl

@[simp] theorem State.landLine_mem (s : State) (b l bad) : (s.landLine b l bad).mem = s.mem := by
  unfold State.landLine
  grind [State.modLine_mem, State.callProofers_mem]

@[simp] theorem State.fillL0_mem (s : State) (g pa n) : (s.fillL0 g pa n).mem = s.mem := by
  unfold State.fillL0
  grind [State.modCore_mem]

@[simp] theorem State.throughL0_mem (s s' : State) (g pa n) : (s.throughL0 s' g pa n).mem = s'.mem := by
  unfold State.throughL0
  grind [State.modCore_mem]

@[simp] theorem State.leaveCore_mem (s : State) (g) : (s.leaveCore g).mem = s.mem := by
  unfold State.leaveCore
  grind [State.modCore_mem]

@[simp] theorem State.ask_mem (s : State) (q) : (s.ask q).mem = s.mem := by
  unfold State.ask
  grind [State.fresh_mem, State.setPend_mem]

theorem State.loadAt.done_wf {q} (h : MemoryWf s) : (State.loadAt.done s q).Wf := by
  unfold State.loadAt.done
  grind [LaneRes.Wf]

theorem State.loadAt_wf {t va pa mt size sext acq dst ret} (h : MemoryWf s) :
    (s.loadAt t va pa mt size sext acq dst ret).Wf := by
  unfold State.loadAt
  grind [State.ask_mem, State.leaveCore_mem, State.post_mem, !State.loadAt.done_wf, State.finishLoad_mem,
    State.failReply_mem, State.fillL0_mem, State.sendGets_mem, LaneRes.Wf]

@[simp] theorem State.noteUnfenced_mem (s : State) (t c pa n) : (s.noteUnfenced t c pa n).mem = s.mem :=
  State.modTh_mem ..

theorem State.storeAt_wf {t pa mt bs mo eager} (h : MemoryWf s) : (s.storeAt t pa mt bs mo eager).Wf := by
  unfold State.storeAt
  extract_lets g G c rel sys dev close
  have hc : MemoryWf close.2 := by grind [State.closeEpoch_mem]
  refine iteInduction (motive := LaneRes.Wf) (fun _ => h) fun _ => ?_
  refine iteInduction (motive := LaneRes.Wf) (fun _ => h) fun _ => ?_
  refine iteInduction (motive := LaneRes.Wf) (fun _ => h) fun _ => ?_
  clear_value close
  split
  · exact hc
  · grind [State.post_mem, !State.storeL1_wf, State.noteUnfenced_mem, State.throughL0_mem, LaneRes.Wf, StoreRes.Wf]

theorem withPage_wf {r k} (hk : ∀ s pa mt, MemoryWf s → (k s pa mt).Wf) (h : XRes.Wf r) : (withPage r k).Wf := by
  unfold withPage
  grind [LaneRes.Wf, XRes.Wf]

/-! ### Flags -/

@[simp] theorem State.setFlags_mem (s : State) (t f) : (s.setFlags t f).mem = s.mem :=
  State.modTh_mem ..

@[simp] theorem State.advSrn_mem (s : State) (t k) : (s.advSrn t k).mem = s.mem :=
  State.modTh_mem ..

/-! ### Waits -/

@[simp] theorem State.admitCq_mem (s : State) (q rcb) : (s.admitCq q rcb).mem = s.mem := by
  unfold State.admitCq
  grind

/-! ### Device -/

theorem State.readSpan_wf {d table user a b c x} (h : MemoryWf s) (he : State.readSpan d table user a s b c = .ok x)
    : MemoryWf x.1 := by
  fun_induction State.readSpan d table user a s b c generalizing x <;> grind [→ State.readVirt_wf]

theorem State.readFar_wf {d table va n user x} (h : MemoryWf s) (he : s.readFar d table va n user = .ok x) :
    MemoryWf x.1 :=
  State.readSpan_wf h he

theorem translatePieces_wf {g t acc a} (h : MemoryWf s) : (translatePieces g t acc s a).Wf := by
  fun_induction translatePieces g t acc s a <;> grind [!State.translate_wf, Pieces.Wf, XRes.Wf]

/-! ### LoadStore -/

theorem loadGlobal_wf {t a size sext acq dst} (h : MemoryWf s) : (loadGlobal s t a size sext acq dst).Wf := by
  unfold loadGlobal
  grind [!withPage_wf, !State.translate_wf, !State.loadAt_wf, LaneRes.Wf, XRes.Wf]

theorem storeGlobal_wf {t a bs mo} (h : MemoryWf s') : (storeGlobal s s' t a bs mo).Wf := by
  unfold storeGlobal
  grind [!withPage_wf, !State.translate_wf, !State.storeAt_wf, LaneRes.Wf, XRes.Wf]

theorem loadSpm_wf {t a high size sext dst} (h : MemoryWf s) : (loadSpm s t a high size sext dst).Wf := by
  unfold loadSpm
  grind [State.landDst_mem, LaneRes.Wf]

theorem storeSpm_wf {t a high bs mo} (h : MemoryWf s') : (storeSpm s s' t a high bs mo).Wf := by
  unfold storeSpm
  grind [State.closeEpoch_mem, State.spmWrite_mem, LaneRes.Wf]

theorem execLd_wf {mo d a off sz} (h : MemoryWf s) (he : execLd mo d a off sz s = .next r) : MemoryWf r := by
  unfold execLd at he
  grind [→ runLanes_wf, !loadGlobal_wf]

theorem execSt_wf {mo d a off sz} (h : MemoryWf s) (he : execSt mo d a off sz s = .next r) : MemoryWf r := by
  unfold execSt at he
  grind [→ runLanes_wf, !storeGlobal_wf]

theorem execLds_wf {mo d a off sz} (h : MemoryWf s) (he : execLds mo d a off sz s = .next r) : MemoryWf r := by
  unfold execLds at he
  grind [→ runLanes_wf, !loadSpm_wf]

theorem execSts_wf {mo d a off sz} (h : MemoryWf s) (he : execSts mo d a off sz s = .next r) : MemoryWf r := by
  unfold execSts at he
  grind [→ runLanes_wf, !storeSpm_wf]

theorem withPtr_wf {t n u} {r : LaneRes} (h : r.Wf) : (withPtr s t n u r).Wf := by
  unfold withPtr
  split <;> grind [State.movePtr_mem, State.movePtrWait_mem, LaneRes.Wf]

@[simp] theorem notePtr_mem (s : State) (t n v pc) : (notePtr s t n v pc).mem = s.mem :=
  State.modTh_mem ..

theorem keepPtr_wf {t n v pc} {r : LaneRes} (h : r.Wf) : (keepPtr t n v pc r).Wf := by
  unfold keepPtr
  grind [notePtr_mem, LaneRes.Wf]

theorem execLdPointer_wf {mo d spm mode n sz} (h : MemoryWf s) (he : execLdPointer mo d spm mode n sz s = .next r) :
    MemoryWf r :=
  runLanes_wf (fun _ _ _ => by grind [!withPtr_wf, !loadSpm_wf, !keepPtr_wf, !loadGlobal_wf]) h he

theorem execStPointer_wf {mo d spm mode n sz} (h : MemoryWf s) (he : execStPointer mo d spm mode n sz s = .next r) :
    MemoryWf r := by
  unfold execStPointer at he
  grind [→ runLanes_wf, !withPtr_wf, !storeSpm_wf, !storeGlobal_wf]

theorem prefetch_wf {t va} (h : MemoryWf s) : MemoryWf (prefetch s t va) := by
  unfold prefetch
  grind [State.sendGets_mem, State.leaveCore_mem, !State.translate_wf, → State.walkNow_wf, XRes.Wf]

theorem execLdPf_wf {mo mode n sz} (h : MemoryWf s) (he : execLdPf mo mode n sz s = .next r) : MemoryWf r :=
  runLanes_wf (fun _ _ _ => by grind [State.movePtr_mem, prefetch_wf, LaneRes.Wf]) h he

theorem constAt_wf {t va pa mt size sext dst} (h : MemoryWf s) : (constAt s t va pa mt size sext dst).Wf := by
  unfold constAt
  grind [!State.loadAt_wf, State.freeBit_mem, State.landDst_mem, LaneRes.Wf]

theorem execLdc_wf {mo d a off sz} (h : MemoryWf s) (he : execLdc mo d a off sz s = .next r) : MemoryWf r := by
  unfold execLdc at he
  grind [→ runLanes_wf, !loadGlobal_wf, !withPage_wf, !State.translate_wf, !constAt_wf, LaneRes.Wf, XRes.Wf]

@[simp] theorem sendLanding_mem (s : State) (t spm va pa mt size olds) :
    (sendLanding s t spm va pa mt size olds).mem = s.mem := by
  unfold sendLanding
  grind [State.nextEnt_mem, State.fresh_mem, State.markLine_mem]

theorem execLdgs_wf {mo d a off sz} (h : MemoryWf s) (he : execLdgs mo d a off sz s = .next r) : MemoryWf r :=
  runLanes_wf (fun _ _ _ => by grind [State.modLine_mem, !State.translate_wf, sendLanding_mem, XRes.Wf, LaneRes.Wf])
    h he

theorem execWaitf_wf {a} (h : MemoryWf s) (he : execWaitf a s = .next r) : MemoryWf r :=
  runLanes_wf (fun _ _ _ => by grind [LaneRes.Wf]) h he

theorem execSete_wf {a} (h : MemoryWf s) (he : execSete a s = .next r) : MemoryWf r :=
  runLanes_wf (fun _ _ _ => by grind [State.modLine_mem, LaneRes.Wf]) h he

/-! ### Atomics -/

@[simp] theorem releaseFirst_mem (s s' : State) (t mo) : (releaseFirst s s' t mo).1.mem = s'.mem := by
  unfold releaseFirst
  grind [State.closeEpoch_mem]

@[simp] theorem State.sendAtoms_mem (s : State) (ch c mt rs) : (s.sendAtoms ch c mt rs).mem = s.mem := by
  unfold State.sendAtoms
  grind +splitImp [State.post_mem, foldl_mem]

@[simp] theorem State.sendAtom_mem (s : State) (g mt a) : (s.sendAtom g mt a).mem = s.mem :=
  State.sendAtoms_mem ..

theorem startWalks_wf {i addr width} (h : MemoryWf s) : MemoryWf (startWalks i addr width s).1 := by
  unfold startWalks
  grind +splitImp [!State.translate_wf, XRes.Wf, foldl_fst_wf]

theorem atomLanes_wf {i addr width go} (hg : ∀ s0 s t pa mt, MemoryWf s → (go s0 s t pa mt).Wf) (h : MemoryWf s)
    (he : atomLanes i addr width go s = .next r) : MemoryWf r := by
  unfold atomLanes at he
  grind [startWalks_wf, → runLanes_wf, !withPage_wf, !State.translate_wf, LaneRes.Wf, XRes.Wf]

@[simp] theorem atomWaits_mem (s s' : State) (t pa mo) : (atomWaits s s' t pa mo).1.mem = s'.mem := by
  unfold atomWaits
  grind [releaseFirst_mem]

theorem execAtom_wf {mo ty op d a b} (h : MemoryWf s) (he : execAtom mo ty op d a b s = .next r) : MemoryWf r := by
  refine atomLanes_wf (fun s0 s t pa mt h => ?_) h he
  grind [atomWaits_mem, State.ask_mem, State.modTh_mem, State.sendAtom_mem, LaneRes.Wf]

theorem execRed_wf {mo ty op a b} (h : MemoryWf s) (he : execRed mo ty op a b s = .next r) : MemoryWf r := by
  refine atomLanes_wf (fun s0 s t pa mt h => ?_) h he
  grind [atomWaits_mem, State.nextEnt_mem, State.sendAtom_mem, LaneRes.Wf]

theorem execJoin_wf {a} (h : MemoryWf s) (he : execJoin a s = .next r) : MemoryWf r := by
  refine atomLanes_wf (fun s0 s t pa mt h => ?_) h he
  grind [atomWaits_mem, State.ask_mem, State.sendAtom_mem, LaneRes.Wf]

theorem spmAtomic_wf {s0 s : State} {t mo ty op d a b k} (hk : ∀ s n r, MemoryWf s → (k s n r).Wf)
    (h : MemoryWf s) : (spmAtomic s0 s t mo ty op d a b k).Wf := by
  unfold spmAtomic
  grind [releaseFirst_mem, State.spmWrite_mem, LaneRes.Wf]

theorem execAtomSpm_wf {mo ty op d a b} (h : MemoryWf s) (he : execAtomSpm mo ty op d a b s = .next r) :
    MemoryWf r := by
  unfold execAtomSpm at he
  grind [→ runLanes_wf, !spmAtomic_wf, State.setPair_mem, State.setReg_mem, State.setPred_mem, LaneRes.Wf]

theorem execRedSpm_wf {mo ty op a b} (h : MemoryWf s) (he : execRedSpm mo ty op a b s = .next r) : MemoryWf r := by
  unfold execRedSpm at he
  grind [→ runLanes_wf, !spmAtomic_wf, LaneRes.Wf]

theorem execFence_wf {mo} (h : MemoryWf s) (he : execFence mo s = .next r) : MemoryWf r :=
  runLanes_wf (fun _ _ _ => by grind [releaseFirst_mem, State.modTh_mem, LaneRes.Wf]) h he

@[simp] theorem dropLine_mem (s : State) (c line) : (dropLine s c line).mem = s.mem := rfl

theorem flushLine_wf {c line} (h : MemoryWf s) : (flushLine s c line).Wf := by
  unfold flushLine
  grind +splitImp [dropLine_mem, State.startHand_mem, State.sendWb_mem, State.l1Advance_mem, LaneRes.Wf, foldl_wf]

theorem execCflush_wf {a} (h : MemoryWf s) (he : execCflush a s = .next r) : MemoryWf r := by
  unfold execCflush at he
  grind [→ runLanes_wf, !withPage_wf, !State.translate_wf, !flushLine_wf, LaneRes.Wf, XRes.Wf]

/-! ### Sync -/

@[simp] theorem State.barrier_mem (s : State) (b a arrivals bytes) : (s.barrier b a arrivals bytes).mem = s.mem := by
  unfold State.barrier
  simp only [State.modBlock_mem, State.spmWrite_mem]

theorem arrive_wf {i a bytes} (h : MemoryWf s) (he : arrive i a bytes s = .next r) : MemoryWf r :=
  runLanes_wf (fun _ _ _ => by grind [State.barrier_mem, LaneRes.Wf]) h he

theorem execBarw_wf {a b} (h : MemoryWf s) (he : execBarw a b s = .next r) : MemoryWf r :=
  runLanes_wf (fun _ _ _ => by grind [LaneRes.Wf]) h he

theorem State.complete_wf {e who fails} (h : MemoryWf s) : OkWf (s.complete e who fails) :=
  State.reportAll_wf h

@[simp] theorem State.afterRead_mem (s : State) (found a) : (s.afterRead found a).mem = s.mem := by
  unfold State.afterRead
  grind [State.modThread_mem]

@[simp] theorem State.stale_mem (s : State) (olds pa bs rd) : (s.stale olds pa bs rd).1.mem = s.mem := by
  unfold State.stale
  grind [State.afterRead_mem]

@[simp] theorem State.unitAt_mem (s : State) (cl rcb pa mt n) : (s.unitAt cl rcb pa mt n).1.mem = s.mem := by
  unfold State.unitAt
  grind [State.countAccess_mem]

theorem State.unitRead_wf {cl table rcb va olds rd a x} (h : MemoryWf s)
    (he : s.unitRead cl table rcb va olds rd a = .ok x) : MemoryWf x.1 := by
  fun_induction State.unitRead s cl table rcb va olds rd a generalizing x <;> grind [→ State.walkNow_wf,
    State.unitAt_mem, State.stale_mem]

theorem State.unitBytes_wf {cl table rcb va n olds rd x} (h : MemoryWf s)
    (he : s.unitBytes cl table rcb va n olds rd = .ok x) : MemoryWf x.1 :=
  State.unitRead_wf h he

theorem State.unitWrite_wf {u table va who a b} (h : MemoryWf s) : (s.unitWrite u table va who a b).Wf := by
  fun_induction State.unitWrite s u table va who a b <;> grind [→ State.walkNow_wf, State.post_mem,
    !State.storeL1_wf, UnitRes.Wf, StoreRes.Wf]

theorem State.unitStore_wf {u table va who bs} (h : MemoryWf s) : (s.unitStore u table va who bs).Wf :=
  State.unitWrite_wf h

/-! ### Copy -/

@[simp] theorem State.modCopy_mem (s : State) (id f) : (s.modCopy id f).mem = s.mem := rfl

@[simp] theorem State.pushCq_mem (s : State) (q a) : (s.pushCq q a).mem = s.mem := rfl

@[simp] theorem State.popCq_mem (s : State) (q) : (s.popCq q).mem = s.mem := rfl

@[simp] theorem entryWait_mem (s s' : State) (t mo) : (entryWait s s' t mo).1.mem = s'.mem := by
  unfold entryWait
  grind [releaseFirst_mem]

@[simp] theorem enqueueCopy_mem (s : State) (t n mo w) : (enqueueCopy s t n mo w).mem = s.mem := by
  unfold enqueueCopy
  grind +splitImp [State.nextEnt_mem, State.fresh_mem, State.markLine_mem, State.pushCq_mem, State.modTh_mem,
    foldl_mem]

theorem execAcpy_wf {mo q a} (h : MemoryWf s) (he : execAcpy mo q a s = .next r) : MemoryWf r :=
  runLanes_wf (fun _ _ _ => by grind [entryWait_mem, State.nextEnt_mem, enqueueCopy_mem, LaneRes.Wf]) h he

theorem execQjoin_wf {qs} (h : MemoryWf s) (he : execQjoin qs s = .next r) : MemoryWf r :=
  runLanes_wf (fun _ _ _ => by grind +splitImp [State.fresh_mem, State.pushCq_mem, LaneRes.Wf, foldl_wf]) h he

theorem execQwait_wf {q a} (h : MemoryWf s) (he : execQwait q a s = .next r) : MemoryWf r :=
  runLanes_wf (fun _ _ _ => by grind [LaneRes.Wf]) h he

theorem execMfree_wf {a} (h : MemoryWf s) (he : execMfree a s = .next r) : MemoryWf r :=
  runLanes_wf (fun _ _ _ => by grind [State.modBlock_mem, LaneRes.Wf]) h he

theorem execCopyEntry_wf {q} (h : MemoryWf s) (he : execCopyEntry q s = .next r) : MemoryWf r := by
  unfold execCopyEntry at he
  grind [State.modCopy_mem]

theorem execMulticastCredit_wf {q} (h : MemoryWf s) (he : execMulticastCredit q s = .next r) : MemoryWf r := by
  unfold execMulticastCredit at he
  split at he
  · cases he; exact h
  · extract_lets at he
    split at he
    · cases he; exact h
    · split at he
      · rw [← Host.Outcome.next.inj he]; exact h
      · rw [← Host.Outcome.next.inj he]
        refine foldl_wf (fun s x h => ?_) (by exact h)
        exact foldl_wf (fun s l h => wf_of_mem (State.markLine_mem ..) h) (wf_of_mem (State.modBlock_mem ..) h)

@[simp] theorem landBytes_mem (s : State) (e a bs) : (landBytes s e a bs).mem = s.mem := by
  unfold landBytes
  grind [State.spmWrite_mem, State.barrier_mem]

theorem readElement_wf {e i} (h : MemoryWf s) : (readElement s e i).Wf := by
  unfold readElement
  grind [→ State.unitBytes_wf, ReadRes.Wf]

theorem readElements_wf {e a x} (h : MemoryWf s) (he : readElements e a s = some x) : MemoryWf x.1 := by
  induction a generalizing s x with
  | nil => cases he; exact h
  | cons i rest ih =>
    rw [readElements] at he
    split at he
    · cases he
    all_goals
      obtain ⟨y, hy, rfl⟩ := Option.map_eq_some_iff.1 he
      grind [!readElement_wf, ReadRes.Wf]

theorem storeRuns_wf {e data a} (h : MemoryWf s) : (storeRuns e data a s).Wf := by
  fun_induction storeRuns e data a s <;> grind [!State.unitStore_wf, UnitRes.Wf]

theorem copyElements_wf {e is_ x} (h : MemoryWf s) (he : copyElements e is_ s = some x) : MemoryWf x.1 := by
  unfold copyElements at he
  grind +splitImp [→ readElements_wf, landBytes_mem, !storeRuns_wf, UnitRes.Wf, foldl_wf]

theorem readTile_wf {e a b} (h : MemoryWf s) : MemoryWf (readTile e a b s).1 := by
  fun_induction readTile e a b s <;> grind [→ State.unitBytes_wf]

theorem landCopy_wf {e i} (h : MemoryWf s) : MemoryWf (landCopy s e i) := by
  unfold landCopy
  grind +splitImp [readTile_wf, State.spmWrite_mem, State.modCopy_mem, → copyElements_wf, foldl_wf]

theorem landLdgs_wf {a} (h : MemoryWf s) : MemoryWf (landLdgs s a) := by
  unfold landLdgs
  grind [State.landLine_mem, State.unitAt_mem, State.stale_mem, State.spmWrite_mem, !State.complete_wf,
    State.noteFull_wf, OkWf]

theorem execElementLanding_wf {k i} (h : MemoryWf s) (he : execElementLanding k i s = .next r) : MemoryWf r := by
  unfold execElementLanding at he
  grind [landCopy_wf, landLdgs_wf]

@[simp] theorem landLines_mem (s : State) (e) : (landLines s e).mem = s.mem := by
  unfold landLines
  grind +splitImp [State.landLine_mem, foldl_mem]

theorem execEntryCompletion_wf {q} (h : MemoryWf s) (he : execEntryCompletion q s = .next r) : MemoryWf r := by
  unfold execEntryCompletion at he
  grind [!State.complete_wf, State.noteFull_wf, State.popCq_mem, landLines_mem, State.modThread_mem, OkWf]

theorem execJoinMarker_wf {m} (h : MemoryWf s) (he : execJoinMarker m s = .next r) : MemoryWf r := by
  unfold execJoinMarker at he
  grind

/-! ### Tickets -/

@[simp] theorem sendLdt_mem (s : State) (t va pa mt size dst mo) :
    (sendLdt s t va pa mt size dst mo).mem = s.mem := by
  unfold sendLdt
  grind [State.ask_mem, State.post_mem]

theorem execLdt_wf {mo d a sz} (h : MemoryWf s) (he : execLdt mo d a sz s = .next r) : MemoryWf r := by
  unfold execLdt at he
  grind [→ runLanes_wf, !withPage_wf, !State.translate_wf, sendLdt_mem, LaneRes.Wf, XRes.Wf]

theorem execLdtArrival_wf {n} (h : MemoryWf s) (he : execLdtArrival n s = .next r) : MemoryWf r := by
  unfold execLdtArrival at he
  grind [→ State.take_mem, State.allocTicket_mem, State.countAccess_mem, State.arrive_wf, State.post_mem]

theorem execTicketReturn_wf {n} (h : MemoryWf s) (he : execTicketReturn n s = .next r) : MemoryWf r := by
  unfold execTicketReturn at he
  grind [→ State.take_mem, State.failReply_mem, State.finishLoad_mem]

@[simp] theorem sendRedeem_mem (s : State) (t id k spm drop) : (sendRedeem s t id k spm drop).mem = s.mem := by
  unfold sendRedeem
  grind [State.post_mem]

theorem execRdm_wf {d a} (h : MemoryWf s) (he : execRdm d a s = .next r) : MemoryWf r :=
  runLanes_wf (fun _ _ _ => by grind [sendRedeem_mem, State.ask_mem, LaneRes.Wf]) h he

theorem execRdmSpm_wf {d a} (h : MemoryWf s) (he : execRdmSpm d a s = .next r) : MemoryWf r :=
  runLanes_wf (fun _ _ _ => by grind [State.nextEnt_mem, State.fresh_mem, State.markLine_mem, sendRedeem_mem,
    LaneRes.Wf]) h he

theorem execTkdrop_wf {a} (h : MemoryWf s) (he : execTkdrop a s = .next r) : MemoryWf r :=
  runLanes_wf (fun _ _ _ => by grind [sendRedeem_mem, LaneRes.Wf]) h he

theorem execRedemption_wf {n} (h : MemoryWf s) (he : execRedemption n s = .next r) : MemoryWf r := by
  unfold execRedemption at he
  grind [→ State.take_mem, State.post_mem, State.freeTicket_mem, State.modTicket_mem, State.sendPayload_mem]

@[simp] theorem deliverRegs_mem (s : State) (q k fail) : (deliverRegs s q k fail).mem = s.mem := by
  unfold deliverRegs
  grind [State.failReply_mem, State.freeTicket_mem, State.modTicket_mem, State.landDst_mem, State.clearPend_mem]

theorem deliverSpm_wf {l k fail} (h : MemoryWf s) : OkWf (deliverSpm s l k fail) := by
  unfold deliverSpm
  grind +splitImp [State.freeTicket_mem, State.landLine_mem, State.spmWrite_mem, !State.complete_wf, OkWf, okWf_map]

theorem execPayloadDelivery_wf {n} (h : MemoryWf s) (he : execPayloadDelivery n s = .next r) : MemoryWf r := by
  unfold execPayloadDelivery at he
  split at he
  · split at he
    · grind [→ State.take_mem, deliverRegs_mem, State.freeTicket_mem, !deliverSpm_wf, State.noteFull_wf,
      State.setAside_wf, OkWf]
    · grind
  · grind

theorem sweepRegion_wf {slice rcb} (h : MemoryWf s) : MemoryWf (sweepRegion slice s rcb) := by
  unfold sweepRegion
  grind +splitImp [State.leaveRecord_wf, State.freeTicket_mem, foldl_wf, foldl_mem]

theorem execAgeSweep_wf {slice} (h : MemoryWf s) (he : execAgeSweep slice s = .next r) : MemoryWf r := by
  unfold execAgeSweep at he
  grind +splitImp [sweepRegion_wf, foldl_wf]

/-! ### Home -/

theorem State.requestHome_wf {k line rcb req} (h : MemoryWf s) : MemoryWf (s.requestHome k line rcb req) := by
  unfold State.requestHome
  grind [State.post_mem, State.arrive_wf, State.countAccess_mem]

@[simp] theorem State.loseWords_mem (s : State) (ws) : (s.loseWords ws).mem = s.mem := by
  unfold State.loseWords
  grind +splitImp [State.poisonHome_mem, foldl_mem]

theorem State.forgetOwner_wf {c a} (h : MemoryWf s) : MemoryWf (s.forgetOwner c a) := by
  unfold State.forgetOwner
  grind +splitImp [State.loseWords_mem, State.resumeTx_wf, foldl_wf]

theorem execGets_wf {n} (h : MemoryWf s) (he : execGets n s = .next r) : MemoryWf r := by
  unfold execGets at he
  grind [→ State.take_mem, State.requestHome_wf]

theorem execGeto_wf {n} (h : MemoryWf s) (he : execGeto n s = .next r) : MemoryWf r := by
  unfold execGeto at he
  grind [→ State.take_mem, State.requestHome_wf]

theorem execIack_wf {n} (h : MemoryWf s) (he : execIack n s = .next r) : MemoryWf r := by
  unfold execIack at he
  grind [→ State.take_mem, State.forgetOwner_wf, State.answered_wf]

theorem execWb_wf {n} (h : MemoryWf s) (he : execWb n s = .next r) : MemoryWf r := by
  unfold execWb at he
  grind +splitImp [→ State.take_mem, takeWord_wf, State.addSharer_mem, State.post_mem, State.answered_wf, foldl_wf,
    foldl_mem]

theorem execAtomMessage_wf {n} (h : MemoryWf s) (he : execAtomMessage n s = .next r) : MemoryWf r := by
  unfold execAtomMessage at he
  grind +splitImp [→ State.take_mem, State.requestHome_wf, State.performAtom_wf, State.countAccess_mem, foldl_wf]

theorem execDirectoryEviction_wf {line} (h : MemoryWf s) (he : execDirectoryEviction line s = .next r) :
    MemoryWf r := by
  unfold execDirectoryEviction at he
  grind [State.arrive_wf]

/-! ### Caches -/

@[simp] theorem State.fillWords_mem (s : State) (c vals) : (s.fillWords c vals).mem = s.mem := rfl

@[simp] theorem State.dropClean_mem (s : State) (c line) : (s.dropClean c line).mem = s.mem := rfl

@[simp] theorem State.takeLoad_mem (s : State) (c q) : (s.takeLoad c q).mem = s.mem := by
  unfold State.takeLoad
  grind [State.failReply_mem, State.finishLoad_mem, State.fillL0_mem]

@[simp] theorem State.serveLoads_mem (s : State) (c) : (s.serveLoads c).mem = s.mem := by
  unfold State.serveLoads
  grind +splitImp [State.takeLoad_mem, State.sendGets_mem, foldl_mem]

@[simp] theorem State.failLoads_mem (s : State) (c line cause aux) : (s.failLoads c line cause aux).mem = s.mem := by
  unfold State.failLoads
  grind +splitImp [State.serveLoads_mem, State.takeLoad_mem, State.failReply_mem, foldl_mem]

@[simp] theorem State.takeData_mem (s : State) (c line vals) : (s.takeData c line vals).mem = s.mem := by
  unfold State.takeData
  grind [State.l1Room_mem, State.serveLoads_mem, State.fillWords_mem, State.dropClean_mem]

@[simp] theorem State.takeGrant_mem (s : State) (c ws vals rel) : (s.takeGrant c ws vals rel).mem = s.mem := by
  unfold State.takeGrant
  grind [State.l1Advance_mem, State.modL1_mem]

@[simp] theorem State.invWords_mem (s : State) (c ws) : (s.invWords c ws).mem = s.mem := rfl

@[simp] theorem State.answerHome_mem (s : State) (m b) : (s.answerHome m b).mem = s.mem := by
  unfold State.answerHome
  grind [State.post_mem]

@[simp] theorem State.giveWords_mem (s : State) (m line ws keep) : (s.giveWords m line ws keep).mem = s.mem := by
  unfold State.giveWords
  grind [State.modL1_mem, State.answerHome_mem, State.dropL0_mem]

@[simp] theorem State.takeRecall_mem (s : State) (m line ws keep) : (s.takeRecall m line ws keep).mem = s.mem := by
  unfold State.takeRecall
  grind +splitImp [State.giveWords_mem, State.startHand_mem, State.answerHome_mem, State.l1Advance_mem, foldl_mem]

@[simp] theorem State.takeWback_mem (s : State) (c ws) : (s.takeWback c ws).mem = s.mem := by
  unfold State.takeWback
  grind [State.modL1_mem, State.l1Advance_mem, State.dropL0_mem]

theorem execData_wf {n} (h : MemoryWf s) (he : execData n s = .next r) : MemoryWf r := by
  unfold execData at he
  grind [→ State.take_mem, State.takeData_mem, State.failLoads_mem]

theorem execGrant_wf {n} (h : MemoryWf s) (he : execGrant n s = .next r) : MemoryWf r := by
  unfold execGrant at he
  grind [→ State.take_mem, State.takeGrant_mem]

theorem execInv_wf {n} (h : MemoryWf s) (he : execInv n s = .next r) : MemoryWf r := by
  unfold execInv at he
  grind [→ State.take_mem, State.answerHome_mem, State.invWords_mem]

theorem execRecallMsg_wf {n} (h : MemoryWf s) (he : execRecallMsg n s = .next r) : MemoryWf r := by
  unfold execRecallMsg at he
  grind [→ State.take_mem, State.takeRecall_mem]

theorem execWback_wf {n} (h : MemoryWf s) (he : execWback n s = .next r) : MemoryWf r := by
  unfold execWback at he
  grind [→ State.take_mem, State.takeWback_mem]

theorem execRetry_wf {n} (h : MemoryWf s) (he : execRetry n s = .next r) : MemoryWf r := by
  unfold execRetry at he
  grind [→ State.take_mem, State.toHome_mem, State.sendAtoms_mem]

theorem takeAtom_wf {q a old} (h : MemoryWf s) : MemoryWf (takeAtom s q a old) := by
  unfold takeAtom
  grind [State.modThread_mem, State.endThread_wf, State.landDst_mem, State.clearPend_mem]

@[simp] theorem State.failSeqItems_mem (s : State) (e n fails) : (s.failSeqItems e n fails).mem = s.mem := rfl

theorem reportAtoms_wf {m a ti} (h : MemoryWf s) (h' : MemoryWf s') : MemoryWf (reportAtoms s s' m a ti) := by
  unfold reportAtoms
  grind +splitImp [State.failSeqItems_mem, State.setAside_wf, State.orFull_wf, !State.complete_wf, OkWf, okWf_map]

theorem execAtomr_wf {n} (h : MemoryWf s) (he : execAtomr n s = .next r) : MemoryWf r := by
  unfold execAtomr at he
  split at he <;> grind [→ State.take_mem, State.failReply_mem, takeAtom_wf, reportAtoms_wf]

@[simp] theorem dropStores_mem (s : State) (c cause ws) : (dropStores s c cause ws).mem = s.mem := by
  unfold dropStores
  grind [State.l1Advance_mem, State.dropL0_mem, State.modL1_mem]

theorem reportLost_wf {d a} (h : MemoryWf s) : OkWf (reportLost d s a) := by
  fun_induction reportLost d s a <;> grind [!State.reportAll_wf, OkWf]

theorem failStores_wf {c line cause ws} (h : MemoryWf s) : OkWf (failStores s c line cause ws) := by
  unfold failStores
  grind +splitImp [dropStores_mem, !reportLost_wf, okWf_map]

@[simp] theorem failJob_mem (s : State) (u cause job) : (failJob s u cause job).mem = s.mem := by
  unfold failJob
  grind [State.modCopy_mem, State.failSeqItems_mem]

theorem execStoreFailure_wf {n} (h : MemoryWf s) (he : execStoreFailure n s = .next r) : MemoryWf r := by
  unfold execStoreFailure at he
  split at he
  · split at he
    · dsimp only at he
      grind [→ State.take_mem, State.noteFull_wf, State.setAside_wf, !failStores_wf, failJob_mem,
        !State.reportAll_wf, OkWf]
    · grind
  · grind

theorem execL1Eviction_wf {c line} (h : MemoryWf s) (he : execL1Eviction c line s = .next r) : MemoryWf r := by
  unfold execL1Eviction at he
  grind [State.evictL1_mem]

/-! ### Integer -/

theorem putLanes_wf {i ty d v} (h : MemoryWf s) (he : putLanes i ty d v s = .next r) : MemoryWf r :=
  runLanes_wf (fun _ _ _ => by grind [State.putTy_mem, LaneRes.Wf]) h he

theorem regLanes_wf {i d v} (h : MemoryWf s) (he : regLanes i d v s = .next r) : MemoryWf r :=
  runLanes_wf (fun _ _ _ => by grind [State.setReg_mem, LaneRes.Wf]) h he

theorem predLanes_wf {i c v} (h : MemoryWf s) (he : predLanes i c v s = .next r) : MemoryWf r :=
  runLanes_wf (fun _ _ _ => by grind [State.setPred_mem, LaneRes.Wf]) h he

theorem extend_wf {i sg ty d a} (h : MemoryWf s) (he : extend i sg ty d a s = .next r) : MemoryWf r :=
  runLanes_wf (fun _ _ _ => by grind [State.setPair_mem, State.setReg_mem, LaneRes.Wf]) h he

theorem execLea_wf {ty d a b} (h : MemoryWf s) (he : execLea ty d a b s = .next r) : MemoryWf r :=
  runLanes_wf (fun _ _ _ => by grind [State.setPair_mem, LaneRes.Wf]) h he

theorem execMovhi_wf {d a} (h : MemoryWf s) (he : execMovhi d a s = .next r) : MemoryWf r := by
  unfold execMovhi at he
  exact regLanes_wf h he

theorem execAddpc_wf {d off} (h : MemoryWf s) (he : execAddpc d off s = .next r) : MemoryWf r :=
  runLanes_wf (fun _ _ _ => by grind [State.setPair_mem, LaneRes.Wf]) h he

/-! ### Float -/

theorem fpLanes_wf {i d f} (h : MemoryWf s) (he : fpLanes i d f s = .next r) : MemoryWf r :=
  runLanes_wf (fun _ _ _ => by grind [State.advSrn_mem, State.setFlags_mem, State.setRun_mem, LaneRes.Wf]) h he

theorem fpOne_wf {i d f} (h : MemoryWf s) (he : fpOne i d f s = .next r) : MemoryWf r :=
  fpLanes_wf h he

theorem execF2i_wf {ty m d a} (h : MemoryWf s) (he : execF2i ty m d a s = .next r) : MemoryWf r := by
  unfold execF2i at he
  exact fpLanes_wf h he

/-! ### Cross -/

theorem execCdet_wf {d a} (h : MemoryWf s) (he : execCdet d a s = .next r) : MemoryWf r :=
  runLanes_wf (fun _ _ _ => by grind [State.setPred_mem, State.setReg_mem, LaneRes.Wf]) h he

theorem scan_wf {i inc add d a} (h : MemoryWf s) (he : scan i inc add d a s = .next r) : MemoryWf r :=
  runLanes_wf (fun _ _ _ => by grind [State.setFlags_mem, State.setReg_mem, LaneRes.Wf]) h he

theorem execScanIncF32_wf {d a} (h : MemoryWf s) (he : execScanIncF32 d a s = .next r) : MemoryWf r := by
  unfold execScanIncF32 at he
  exact scan_wf h he

theorem execScanExcF32_wf {d a} (h : MemoryWf s) (he : execScanExcF32 d a s = .next r) : MemoryWf r := by
  unfold execScanExcF32 at he
  exact scan_wf h he

theorem execScanIncS32_wf {d a} (h : MemoryWf s) (he : execScanIncS32 d a s = .next r) : MemoryWf r := by
  unfold execScanIncS32 at he
  exact scan_wf h he

theorem execScanExcS32_wf {d a} (h : MemoryWf s) (he : execScanExcS32 d a s = .next r) : MemoryWf r := by
  unfold execScanExcS32 at he
  exact scan_wf h he

theorem mergeGo_wf {m kz d b t a c e f} (h : MemoryWf s) : (mergeGo m kz d b t a s c e f).Wf := by
  fun_induction mergeGo m kz d b t a s c e f <;> grind [State.setReg_mem, State.setFlags_mem, State.spmWrite_mem,
    LaneRes.Wf]

theorem merge_wf {i kz d a b} (h : MemoryWf s) (he : merge i kz d a b s = .next r) : MemoryWf r := by
  unfold merge at he
  grind [→ runLanes_wf, !mergeGo_wf, LaneRes.Wf]

/-! ### Micro -/

@[simp] theorem State.bindImage_mem (s : State) (rcb kind id) : (s.bindImage rcb kind id).mem = s.mem := by
  unfold State.bindImage
  grind [State.modRegion_mem]

theorem execCsld_wf {a} (h : MemoryWf s) (he : execCsld a s = .next r) : MemoryWf r :=
  runLanes_wf (fun _ _ _ => by grind [State.bindImage_mem, LaneRes.Wf]) h he

theorem execCsrel_wf {a} (h : MemoryWf s) (he : execCsrel a s = .next r) : MemoryWf r :=
  runLanes_wf (fun _ _ _ => by grind [State.bindImage_mem, LaneRes.Wf]) h he

theorem State.microPieces_wf {cl table rcb olds rd a x} (h : MemoryWf s)
    (he : State.microPieces cl table rcb olds rd s a = .ok x) : MemoryWf x.1 := by
  fun_induction State.microPieces cl table rcb olds rd s a generalizing x <;> grind [→ State.walkNow_wf,
    State.unitAt_mem, State.stale_mem]

theorem State.microRead_wf {cl table rcb va n olds rd x} (h : MemoryWf s)
    (he : s.microRead cl table rcb va n olds rd = .ok x) : MemoryWf x.1 :=
  State.microPieces_wf h he

theorem MicroReq.read_wf {q va n x} (h : MemoryWf s) (he : MicroReq.read q s va n = .ok x) : MemoryWf x.1 :=
  State.microRead_wf h he

/-- One pop of a traversal, through the functional behind its recursion: its equation lemmas compare the lengths of the
three reads, which is too deep for the elaborator. -/
theorem traverse_succ (q : MicroReq) (k : Nat) :
    ∃ b : Nat.below (motive := fun _ => State → Ray → List Nat → Except TrapInfo (State × Ray)) (k + 1),
      b.1 = traverse q k ∧ traverse q (k + 1) = traverse._f q (k + 1) b := by
  delta traverse
  exact ⟨_, rfl, rfl⟩

theorem microOp_wf {u w} {m : Micro} (h : MemoryWf m.s) : (microOp u w m).Wf := by
  unfold microOp
  grind [→ State.microRead_wf, !State.unitStore_wf, MicroStep.Wf, UnitRes.Wf]

theorem microRun_wf {u img n} {m : Micro} (h : MemoryWf m.s) : (microRun u img n m).Wf := by
  fun_induction microRun u img n m <;> grind [!microOp_wf, MicroEnd.Wf, MicroStep.Wf]

theorem microStart_wf {u img kind input} (h : MemoryWf s) : (microStart s u img kind input).Wf :=
  microRun_wf h

/-! ### Texture -/

theorem readDesc_wf {q va x} (h : MemoryWf s) (he : readDesc s q va = .ok x) : MemoryWf x.1 := by
  unfold readDesc at he
  grind [→ MicroReq.read_wf]

theorem fetchTexel_wf {q d l i j x} (h : MemoryWf s) (he : fetchTexel s q d l i j = .ok x) : MemoryWf x.1 := by
  unfold fetchTexel at he
  grind [→ MicroReq.read_wf]

theorem sampleSum_wf {q d a b x} (h : MemoryWf s) (he : sampleSum q d s a b = .ok x) : MemoryWf x.1 := by
  fun_induction sampleSum q d s a b <;> grind [→ fetchTexel_wf]

theorem texSample_wf {q d x} (h : MemoryWf s) (he : texSample s q d = .ok x) : MemoryWf x.1 :=
  sampleSum_wf h he

theorem texLoad_wf {q d x} (h : MemoryWf s) (he : texLoad s q d = .ok x) : MemoryWf x.1 := by
  unfold texLoad at he
  grind [→ MicroReq.read_wf]

theorem gatherTexels_wf {q d l ch a x} (h : MemoryWf s) (he : gatherTexels q d l ch s a = .ok x) : MemoryWf x.1 := by
  fun_induction gatherTexels q d l ch s a generalizing x <;> grind [→ fetchTexel_wf]

theorem texGather_wf {q d x} (h : MemoryWf s) (he : texGather s q d = .ok x) : MemoryWf x.1 :=
  gatherTexels_wf h he

theorem traverse_wf {q n r l x} (h : MemoryWf s) (he : traverse q n s r l = .ok x) : MemoryWf x.1 := by
  induction n generalizing s r l with
  | zero => 
    delta traverse traverse._f at he
    cases l with
    | nil =>  cases he; exact h
    | cons y l => cases he
  | succ k ih => 
    obtain ⟨b, hb, e⟩ := traverse_succ q k
    rw [e] at he
    delta traverse._f at he
    cases l with
    | nil => cases he; exact h
    | cons y l =>
      simp only [hb] at he
      clear e hb
      split at he
      · cases he
      split at he
      · cases he
      rename_i read1
      split at he
      · cases he
      rename_i read2
      split at he
      · cases he
      rename_i read3
      have h3 := MicroReq.read_wf (MicroReq.read_wf (MicroReq.read_wf h read1) read2) read3
      clear read1 read2 read3
      grind

/-- The body is taken as a function of its arguments: its literals are too deep for the kernel when an application
unfolds. -/
theorem traceRay_wf {q x} (h : MemoryWf s) (he : traceRay s q = .ok x) : MemoryWf x.1 := by
  obtain ⟨F, e⟩ : ∃ F, F = traceRay := ⟨_, rfl⟩
  rw [← e] at he
  delta traceRay at e
  subst e
  beta_reduce at he
  extract_lets at he
  split at he
  · simp at he
  · rw [← Except.ok.inj he]
    exact traverse_wf h ‹_›

@[simp] theorem queueRequest_mem (s : State) (t fn input dst mo) :
    (queueRequest s t fn input dst mo).mem = s.mem := by
  unfold queueRequest
  grind [State.nextEnt_mem, State.fresh_mem, State.setPend_mem]

theorem texLane_wf {fn n d a b t} (h : MemoryWf s') : (texLane fn n d a b s s' t).Wf := by
  unfold texLane
  grind [queueRequest_mem, LaneRes.Wf]

theorem execTex_wf {d a b} (h : MemoryWf s) (he : execTex d a b s = .next r) : MemoryWf r := by
  unfold execTex at he
  grind [→ runLanes_wf, !texLane_wf]

theorem execTld_wf {d a b} (h : MemoryWf s) (he : execTld d a b s = .next r) : MemoryWf r := by
  unfold execTld at he
  grind [→ runLanes_wf, !texLane_wf]

theorem execTgath_wf {d a b} (h : MemoryWf s) (he : execTgath d a b s = .next r) : MemoryWf r := by
  unfold execTgath at he
  grind [→ runLanes_wf, !texLane_wf]

theorem execTrav_wf {d a b} (h : MemoryWf s) (he : execTrav d a b s = .next r) : MemoryWf r := by
  unfold execTrav at he
  grind [→ runLanes_wf, !texLane_wf]

/-- The body is taken as a function of its arguments: its literals are too deep for the kernel when an application
unfolds. -/
theorem withDesc_wf {q f x} (hf : ∀ s q d x, MemoryWf s → f s q d = .ok x → MemoryWf x.1) (h : MemoryWf s)
    (he : withDesc s q f = .ok x) : MemoryWf x.1 := by
  obtain ⟨F, e⟩ : ∃ F, F = withDesc := ⟨_, rfl⟩
  rw [← e] at he
  delta withDesc at e
  subst e
  beta_reduce at he
  split at he
  · simp at he
  rename_i hr
  split at he
  · simp at he
  · exact hf _ _ _ _ (readDesc_wf h hr) he

/-! ### HashGrid -/

/-- The body is taken as a function of its arguments: its literals are too deep for the kernel when an application
unfolds. -/
theorem withGrid_wf {q x} (h : MemoryWf s) (he : withGrid s q = .ok x) : MemoryWf x.1 := by
  obtain ⟨F, e⟩ : ∃ F, F = withGrid := ⟨_, rfl⟩
  rw [← e] at he
  delta withGrid at e
  subst e
  beta_reduce at he
  split at he
  · simp at he
  rename_i hr
  split at he
  · simp at he
  extract_lets at he
  split at he
  · simp at he
  · rw [← Except.ok.inj he]
    exact readDesc_wf h hr

theorem readEntry_wf {q g l e x} (h : MemoryWf s) (he : readEntry s q g l e = .ok x) : MemoryWf x.1 := by
  unfold readEntry at he
  grind [→ MicroReq.read_wf]

theorem cornerSum_wf {q g l a b x} (h : MemoryWf s) (he : cornerSum q g l s a b = .ok x) : MemoryWf x.1 := by
  fun_induction cornerSum q g l s a b <;> grind [→ readEntry_wf]

theorem gridLevels_wf {q g a x} (h : MemoryWf s) (he : gridLevels q g s a = .ok x) : MemoryWf x.1 := by
  fun_induction gridLevels q g s a generalizing x <;> grind [→ cornerSum_wf]

/-- The body is taken as a function of its arguments: its literals are too deep for the kernel when an application
unfolds. -/
theorem gridFetch_wf {q x} (h : MemoryWf s) (he : gridFetch s q = .ok x) : MemoryWf x.1 := by
  obtain ⟨F, e⟩ : ∃ F, F = gridFetch := ⟨_, rfl⟩
  rw [← e] at he
  delta gridFetch at e
  subst e
  beta_reduce at he
  split at he
  · simp at he
  · exact gridLevels_wf (withGrid_wf h ‹_›) he

theorem sendContributions_wf {q a} (h : MemoryWf s) : MemoryWf (sendContributions q s a).1 := by
  fun_induction sendContributions q s a <;> grind [→ State.walkNow_wf, State.post_mem]

theorem reportEach_wf {rcb a} (h : MemoryWf s) : OkWf (reportEach s rcb a) := by
  fun_induction reportEach s rcb a <;> grind [!State.report_wf, OkWf]

theorem applyContribution_wf {c} (h : MemoryWf s) : MemoryWf (applyContribution s c) := by
  unfold applyContribution
  grind [homeWrite_wf]

@[simp] theorem modMicro_mem (s : State) (k f) : (modMicro s k f).mem = s.mem := rfl

@[simp] theorem countOff_mem (s : State) (slice c bad) : (countOff s slice c bad).mem = s.mem := rfl

theorem endGrads_wf {k} (h : MemoryWf s) : OkWf (endGrads s k) := by
  unfold endGrads
  grind +splitImp [!reportEach_wf, OkWf, okWf_map]

theorem settleContribution_wf {slice c bad} (h : MemoryWf s) : OkWf (settleContribution s slice c bad) := by
  unfold settleContribution
  grind [!endGrads_wf, countOff_mem]

theorem execHgsContribution_wf {n} (h : MemoryWf s) (he : execHgsContribution n s = .next r) : MemoryWf r := by
  unfold execHgsContribution at he
  grind [→ State.take_mem, State.orFull_wf, !settleContribution_wf, State.post_mem, State.countAccess_mem,
    applyContribution_wf]

theorem applyAll_wf {cs} (h : MemoryWf s) : MemoryWf (applyAll s cs).1 := by
  unfold applyAll
  grind +splitImp [applyContribution_wf, foldl_fst_wf]

@[simp] theorem noteMarked_mem (s : State) (a) : (noteMarked s a).mem = s.mem := rfl

theorem endAll_wf {a} (h : MemoryWf s) : OkWf (endAll s a) := by
  fun_induction endAll s a <;> grind [!endGrads_wf, OkWf]

theorem applyBuffered_wf {l n} (h : MemoryWf s) : OkWf (applyBuffered s l n) := by
  unfold applyBuffered
  grind +splitImp [applyAll_wf, noteMarked_mem, !endAll_wf, foldl_wf]

theorem execHgsfence_wf (h : MemoryWf s) (he : execHgsfence s = .next r) : MemoryWf r :=
  runLanes_wf (fun _ _ _ => by grind [!applyBuffered_wf, State.noteFull_wf, OkWf, LaneRes.Wf]) h he

theorem execHgf_wf {d a b} (h : MemoryWf s) (he : execHgf d a b s = .next r) : MemoryWf r :=
  runLanes_wf (fun _ _ _ => by grind [queueRequest_mem, LaneRes.Wf]) h he

theorem scatterLane_wf {fn mo d a b t} (h : MemoryWf s') : (scatterLane fn mo d a b s s' t).Wf := by
  unfold scatterLane
  grind [entryWait_mem, queueRequest_mem, LaneRes.Wf]

theorem execHgs_wf {mo d a b} (h : MemoryWf s) (he : execHgs mo d a b s = .next r) : MemoryWf r := by
  unfold execHgs at he
  grind [→ runLanes_wf, !scatterLane_wf]

theorem execHgsDet_wf {mo d a b} (h : MemoryWf s) (he : execHgsDet mo d a b s = .next r) : MemoryWf r := by
  unfold execHgsDet at he
  grind [→ runLanes_wf, !scatterLane_wf]

@[simp] theorem pushedResults_mem (s : State) (n ws) : (pushedResults n s ws).1.mem = s.mem := rfl

theorem shipped_wf {q} (h : MemoryWf s) : (shipped s q).Wf := by
  unfold shipped
  extract_lets out
  have hout : ∀ r, (∀ x, r = .ok x → MemoryWf x.1) → (out r).Wf := by
    intro r hr
    cases r with
    | error ti => exact h
    | ok x => exact hr x rfl
  generalize ht : traceRay s q = ray
  split
  · exact hout _ fun x hx => withDesc_wf (fun _ _ _ _ => texSample_wf) h hx
  · exact hout _ fun x hx => withDesc_wf (fun _ _ _ _ => texLoad_wf) h hx
  · exact hout _ fun x hx => withDesc_wf (fun _ _ _ _ => texGather_wf) h hx
  · exact hout _ fun x hx => gridFetch_wf h hx
  · exact hout _ fun x hx => traceRay_wf h (ht.trans hx)
  · split
    · exact h
    · exact sendContributions_wf (withGrid_wf h ‹_›)

theorem performRequest_wf {q} (h : MemoryWf s) : (performRequest s q).Wf := by
  unfold performRequest
  grind [!shipped_wf, !microStart_wf, pushedResults_mem, ReqRes.Wf, MicroEnd.Wf]

@[simp] theorem endRequest_mem (s : State) (q ws) : (endRequest s q ws).mem = s.mem := by
  unfold endRequest
  grind [State.landDst_mem, State.clearPend_mem]

theorem failRequest_wf {q ti} (h : MemoryWf s) : MemoryWf (failRequest s q ti) := by
  unfold failRequest
  grind [!State.complete_wf, State.noteFull_wf, endRequest_mem, OkWf]

theorem tellGrads_wf {k} (h : MemoryWf s) : MemoryWf (tellGrads s k) := by
  unfold tellGrads
  grind [State.orFull_wf, !endGrads_wf]

theorem execMicrocodeRequest_wf {k} (h : MemoryWf s) (he : execMicrocodeRequest k s = .next r) : MemoryWf r := by
  unfold execMicrocodeRequest at he
  grind [tellGrads_wf, !performRequest_wf, endRequest_mem, failRequest_wf, !reportEach_wf, State.noteFull_wf,
    ReqRes.Wf, OkWf]

theorem execMicrocodeWatchdog_wf {k} (h : MemoryWf s) (he : execMicrocodeWatchdog k s = .next r) : MemoryWf r := by
  unfold execMicrocodeWatchdog at he
  grind [!performRequest_wf, failRequest_wf, ReqRes.Wf]

/-! ### Matrix -/

@[simp] theorem State.modHandle_mem (s : State) (e n f) : (s.modHandle e n f).mem = s.mem := rfl

@[simp] theorem State.amWrite_mem (s : State) (e n t i j v) : (s.amWrite e n t i j v).mem = s.mem := rfl

theorem allocBanks_mem {e blk n x} (he : allocBanks s e blk n = some x) : x.2.mem = s.mem := by
  unfold allocBanks at he
  grind [State.modHandle_mem, State.modEngine_mem]

theorem execAmalloc_wf {d a} (h : MemoryWf s) (he : execAmalloc d a s = .next r) : MemoryWf r :=
  runLanes_wf (fun _ _ _ => by grind [→ allocBanks_mem, State.setPred_mem, State.setReg_mem, LaneRes.Wf]) h he

theorem execAmfree_wf {a} (h : MemoryWf s) (he : execAmfree a s = .next r) : MemoryWf r :=
  runLanes_wf (fun _ _ _ => by grind [State.modHandle_mem, LaneRes.Wf]) h he

theorem execAmshape_wf {a b} (h : MemoryWf s) (he : execAmshape a b s = .next r) : MemoryWf r :=
  runLanes_wf (fun _ _ _ => by grind [State.modHandle_mem, LaneRes.Wf]) h he

theorem withTile_wf {a tile k} (hk : ∀ n, (k n).Wf) (h : MemoryWf s) : (withTile s a tile k).Wf := by
  unfold withTile
  grind [LaneRes.Wf]

theorem execAmrd_wf {d a b} (h : MemoryWf s) (he : execAmrd d a b s = .next r) : MemoryWf r := by
  unfold execAmrd at he
  grind [→ runLanes_wf, !withTile_wf, State.setRun_mem, LaneRes.Wf]

theorem execAmwr_wf {d a b} (h : MemoryWf s) (he : execAmwr d a b s = .next r) : MemoryWf r := by
  unfold execAmwr at he
  grind +splitImp [→ runLanes_wf, !withTile_wf, State.amWrite_mem, LaneRes.Wf, foldl_wf]

@[simp] theorem zeroTile_mem (s : State) (e n tile) : (zeroTile s e n tile).mem = s.mem := by
  unfold zeroTile
  grind +splitImp [State.amWrite_mem, foldl_mem]

theorem execAmzero_wf {a b} (h : MemoryWf s) (he : execAmzero a b s = .next r) : MemoryWf r := by
  unfold execAmzero at he
  grind [→ runLanes_wf, !withTile_wf, zeroTile_mem, LaneRes.Wf]

@[simp] theorem sendLines_mem (s : State) (ch c rs) : (sendLines s ch c rs).mem = s.mem := by
  unfold sendLines
  grind +splitImp [State.sendAtoms_mem, foldl_mem]

@[simp] theorem addSpmTile_mem (s : State) (blk e a n tile base str) :
    (addSpmTile s blk e a n tile base str).mem = s.mem := by
  unfold addSpmTile
  grind +splitImp [State.spmWrite_mem, foldl_mem]

@[simp] theorem putSpmTile_mem (s : State) (blk e n tile base str) :
    (putSpmTile s blk e n tile base str).mem = s.mem := by
  unfold putSpmTile
  grind +splitImp [State.spmWrite_mem, foldl_mem]

theorem storeRows_wf {t bs a b} (h : MemoryWf s) : (storeRows t bs s a b).Wf := by
  fun_induction storeRows t bs s a b <;> grind [!State.storeAt_wf, LaneRes.Wf]

theorem drainGlobal_wf {add t base str e a n tile} (h : MemoryWf s) :
    (drainGlobal add s t base str e a n tile).Wf := by
  unfold drainGlobal
  grind [!translatePieces_wf, !storeRows_wf, State.nextEnt_mem, sendLines_mem, LaneRes.Wf, Pieces.Wf]

theorem drainSpm_wf {add t base str e a n tile} (h : MemoryWf s) : (drainSpm add s t base str e a n tile).Wf := by
  unfold drainSpm
  grind [putSpmTile_mem, addSpmTile_mem, LaneRes.Wf]

theorem drain_wf {i add d a b} (h : MemoryWf s) (he : drain i add d a b s = .next r) : MemoryWf r := by
  unfold drain at he
  grind [→ runLanes_wf, !withTile_wf, !drainSpm_wf, !drainGlobal_wf, LaneRes.Wf]

theorem performQuarter_wf {e q} (h : MemoryWf s) : MemoryWf (performQuarter s e q) := by
  unfold performQuarter
  grind +splitImp [State.amWrite_mem, State.spend_wf, foldl_wf]

theorem product_wf {m} (h : MemoryWf s) (he : product m s = .next r) : MemoryWf r := by
  unfold product at he
  grind +splitImp [State.stay_mem, State.trapLanes_wf, State.settle_mem, State.advance_mem, State.modEngine_mem,
    foldl_wf]

theorem execMma_wf {sa sb c a b t} (h : MemoryWf s) (he : execMma sa sb c a b t s = .next r) : MemoryWf r := by
  unfold execMma at he
  exact product_wf h he

theorem execMmaR_wf {sa sb c a b t} (h : MemoryWf s) (he : execMmaR sa sb c a b t s = .next r) : MemoryWf r := by
  unfold execMmaR at he
  exact product_wf h he

theorem execMmas_wf {sa sb p c a b e t} (h : MemoryWf s) (he : execMmas sa sb p c a b e t s = .next r) :
    MemoryWf r := by
  unfold execMmas at he
  exact product_wf h he

theorem execMatrixTurn_wf {e} (h : MemoryWf s) (he : execMatrixTurn e s = .next r) : MemoryWf r := by
  unfold execMatrixTurn at he
  grind [State.modEngine_mem]

theorem execQuarterOperation_wf {e} (h : MemoryWf s) (he : execQuarterOperation e s = .next r) : MemoryWf r := by
  unfold execQuarterOperation at he
  grind [State.modEngine_mem, performQuarter_wf]

theorem execWbld_wf {mo n d a b} (h : MemoryWf s) (he : execWbld mo n d a b s = .next r) : MemoryWf r :=
  runLanes_wf (fun _ _ _ => by grind [entryWait_mem, State.nextEnt_mem, State.advSrn_mem, State.modEngine_mem,
    LaneRes.Wf]) h he

@[simp] theorem loadUnit_mem (s : State) (e q u) : (loadUnit e q s u).mem = s.mem := rfl

theorem execWbLoaderEntry_wf {e} (h : MemoryWf s) (he : execWbLoaderEntry e s = .next r) : MemoryWf r := by
  unfold execWbLoaderEntry at he
  grind +splitImp [!State.complete_wf, State.noteFull_wf, loadUnit_mem, State.modEngine_mem, OkWf, foldl_wf]

/-! ### Issue -/

theorem State.fetchGo_wf {g t pc a b} (h : MemoryWf s) : (s.fetchGo g t pc a b).Wf := by
  fun_induction State.fetchGo s g t pc a b <;> grind [!State.translate_wf, State.unitAt_mem, Fetched.Wf, XRes.Wf]

theorem State.fetch_wf {g t} (h : MemoryWf s) : (s.fetch g t).Wf := by
  unfold State.fetch
  grind [!State.fetchGo_wf, Fetched.Wf]

theorem State.fetchFails_wf {g t} (h : MemoryWf s) : MemoryWf (s.fetchFails g t) := by
  unfold State.fetchFails
  grind [!State.fetch_wf, State.trapAll_wf, State.modThread_mem, Fetched.Wf]

@[simp] theorem State.countIssue_mem (s : State) (g t0 ts i) : (s.countIssue g t0 ts i).mem = s.mem := by
  unfold State.countIssue
  grind +splitImp [State.modRegion_mem, State.modCore_mem, State.modPart_mem, State.modGroup_mem,
    State.modThread_mem, foldl_mem]

@[simp] theorem State.setIssue_mem (s : State) (g ts pc ws) : (s.setIssue g ts pc ws).mem = s.mem := rfl

theorem State.trapReserved_wf {i} (h : MemoryWf s) : MemoryWf (s.trapReserved i) :=
  State.trapLanes_wf h

/-! ### Control -/

theorem execBra_wf {off} (h : MemoryWf s) (he : execBra off s = .next r) : MemoryWf r :=
  runLanes_wf (fun _ _ _ => by grind [State.setPc_mem, LaneRes.Wf]) h he

theorem execBrc_wf {c off} (h : MemoryWf s) (he : execBrc c off s = .next r) : MemoryWf r :=
  runLanes_wf (fun _ _ _ => by grind [State.setPc_mem, LaneRes.Wf]) h he

theorem execBrcNot_wf {c off} (h : MemoryWf s) (he : execBrcNot c off s = .next r) : MemoryWf r :=
  runLanes_wf (fun _ _ _ => by grind [State.setPc_mem, LaneRes.Wf]) h he

theorem callTo_wf {target t} (h : MemoryWf s') : (callTo target s s' t).Wf := by
  unfold callTo
  grind [!withPage_wf, !State.translate_wf, !State.storeAt_wf, State.setPc_mem, State.setPtr_mem, LaneRes.Wf, XRes.Wf]

theorem execCall_wf {off} (h : MemoryWf s) (he : execCall off s = .next r) : MemoryWf r := by
  unfold execCall at he
  grind [→ runLanes_wf, !callTo_wf]

theorem execJmpr_wf {a} (h : MemoryWf s) (he : execJmpr a s = .next r) : MemoryWf r :=
  runLanes_wf (fun _ _ _ => by grind [State.setPc_mem, LaneRes.Wf]) h he

theorem execCallr_wf {a} (h : MemoryWf s) (he : execCallr a s = .next r) : MemoryWf r := by
  unfold execCallr at he
  grind [→ runLanes_wf, !callTo_wf]

theorem execRet_wf (h : MemoryWf s) (he : execRet s = .next r) : MemoryWf r := by
  unfold execRet at he
  grind [→ runLanes_wf, !withPage_wf, !State.translate_wf, !State.loadAt_wf, LaneRes.Wf, XRes.Wf]

theorem execExit_wf (h : MemoryWf s) (he : execExit s = .next r) : MemoryWf r :=
  runLanes_wf (fun _ _ _ => by grind [State.endThread_wf, releaseFirst_mem, LaneRes.Wf]) h he

theorem execYield_wf (h : MemoryWf s) (he : execYield s = .next r) : MemoryWf r :=
  runLanes_wf (fun _ _ _ => by grind [State.modCore_mem, State.leaveActive_mem, LaneRes.Wf]) h he

theorem execSvc_wf {code} (h : MemoryWf s) (he : execSvc code s = .next r) : MemoryWf r :=
  runLanes_wf (fun _ _ _ => by grind [LaneRes.Wf]) h he

theorem execBkpt_wf {code} (h : MemoryWf s) (he : execBkpt code s = .next r) : MemoryWf r :=
  runLanes_wf (fun _ _ _ => by grind [LaneRes.Wf]) h he

theorem execEret_wf (h : MemoryWf s) (he : execEret s = .next r) : MemoryWf r :=
  runLanes_wf (fun _ _ _ => by grind [State.eret_mem, LaneRes.Wf]) h he

theorem execIllegalOp_wf (h : MemoryWf s) (he : execIllegalOp s = .next r) : MemoryWf r := by
  unfold execIllegalOp at he
  grind [State.trapLanes_wf]

theorem execSetwb_wf {n} (h : MemoryWf s) (he : execSetwb n s = .next r) : MemoryWf r :=
  runLanes_wf (fun _ _ _ => by grind [State.modTh_mem, LaneRes.Wf]) h he

theorem execSetkb_wf {n} (h : MemoryWf s) (he : execSetkb n s = .next r) : MemoryWf r :=
  runLanes_wf (fun _ _ _ => by grind [State.modGroup_mem, LaneRes.Wf]) h he

theorem execMjoin_wf {m} (h : MemoryWf s) (he : execMjoin m s = .next r) : MemoryWf r :=
  runLanes_wf (fun _ _ _ => by grind [State.modGroup_mem, LaneRes.Wf]) h he

theorem execMleave_wf {m} (h : MemoryWf s) (he : execMleave m s = .next r) : MemoryWf r :=
  runLanes_wf (fun _ _ _ => by grind [State.modGroup_mem, LaneRes.Wf]) h he

theorem execMwait_wf {m} (h : MemoryWf s) (he : execMwait m s = .next r) : MemoryWf r :=
  runLanes_wf (fun _ _ _ => by grind [State.modGroup_mem, State.setPc_mem, LaneRes.Wf]) h he

theorem execMwrite_wf {m a} (h : MemoryWf s) (he : execMwrite m a s = .next r) : MemoryWf r :=
  runLanes_wf (fun _ _ _ => by grind [State.modGroup_mem, LaneRes.Wf]) h he

theorem shuffle_wf {i d a b src} (h : MemoryWf s) (he : shuffle i d a b src s = .next r) : MemoryWf r :=
  regLanes_wf h he

theorem execShflIdx_wf {d a b} (h : MemoryWf s) (he : execShflIdx d a b s = .next r) : MemoryWf r := by
  unfold execShflIdx at he
  exact shuffle_wf h he

theorem execShflUp_wf {d a b} (h : MemoryWf s) (he : execShflUp d a b s = .next r) : MemoryWf r := by
  unfold execShflUp at he
  exact shuffle_wf h he

theorem execShflDown_wf {d a b} (h : MemoryWf s) (he : execShflDown d a b s = .next r) : MemoryWf r := by
  unfold execShflDown at he
  exact shuffle_wf h he

theorem execShflXor_wf {d a b} (h : MemoryWf s) (he : execShflXor d a b s = .next r) : MemoryWf r := by
  unfold execShflXor at he
  exact shuffle_wf h he

theorem storeChunk_wf {t d b pa mt bs} (h : MemoryWf s) : (storeChunk s t d b pa mt bs).Wf := by
  unfold storeChunk
  grind [!State.storeAt_wf, State.setReg_mem, State.setPair_mem, LaneRes.Wf]

theorem moveChunk_wf {d a b t} (h : MemoryWf s) : (moveChunk d a b s t).Wf := by
  unfold moveChunk
  dsimp only
  split
  · exact h
  · split <;> grind [!translatePieces_wf, !State.translate_wf, !storeChunk_wf, State.setPair_mem, LaneRes.Wf,
    Pieces.Wf, XRes.Wf]

theorem fillChunk_wf {d a b t} (h : MemoryWf s) : (fillChunk d a b s t).Wf := by
  unfold fillChunk
  grind [!State.translate_wf, !storeChunk_wf, LaneRes.Wf, XRes.Wf]

theorem chunks_wf {one b t a} (ho : ∀ s t, MemoryWf s → (one s t).Wf) (h : MemoryWf s) :
    (chunks one b t a s).Wf := by
  fun_induction chunks one b t a s <;> grind [LaneRes.Wf]

theorem execBmov_wf {d a b} (h : MemoryWf s) (he : execBmov d a b s = .next r) : MemoryWf r := by
  unfold execBmov at he
  grind [→ runLanes_wf, !chunks_wf, !moveChunk_wf]

theorem execBfill_wf {d a b} (h : MemoryWf s) (he : execBfill d a b s = .next r) : MemoryWf r := by
  unfold execBfill at he
  grind [→ runLanes_wf, !chunks_wf, !fillChunk_wf]

theorem execCsrr_wf {d n} (h : MemoryWf s) (he : execCsrr d n s = .next r) : MemoryWf r :=
  runLanes_wf (fun _ _ _ => by grind [State.setPair_mem, State.setReg_mem, LaneRes.Wf]) h he

@[simp] theorem csrStore_mem (s : State) (t n v) : (csrStore s t n v).mem = s.mem := by
  unfold csrStore
  grind [State.modTh_mem, State.modDie_mem]

theorem execCsrw_wf {n a} (h : MemoryWf s) (he : execCsrw n a s = .next r) : MemoryWf r :=
  runLanes_wf (fun _ _ _ => by grind [csrStore_mem, LaneRes.Wf]) h he

/-! ### Mailbox -/

theorem execMsend_wf {n a b} (h : MemoryWf s) (he : execMsend n a b s = .next r) : MemoryWf r :=
  runLanes_wf (fun _ _ _ => by grind [releaseFirst_mem, State.sendMessage_mem, LaneRes.Wf]) h he

theorem execMrecv_wf {d a} (h : MemoryWf s) (he : execMrecv d a s = .next r) : MemoryWf r :=
  runLanes_wf (fun _ _ _ => by grind [State.setReg_mem, State.setRun_mem, State.modGroup_mem, LaneRes.Wf]) h he

@[simp] theorem callSwarmProofer_mem (s : State) (g m) : (callSwarmProofer s g m).mem = s.mem := by
  unfold callSwarmProofer
  grind

@[simp] theorem acceptMessage_mem (s : State) (g m) : (acceptMessage s g m).mem = s.mem := by
  unfold acceptMessage
  grind [callSwarmProofer_mem, State.modGroup_mem]

theorem execMessageArrival_wf {n} (h : MemoryWf s) (he : execMessageArrival n s = .next r) : MemoryWf r := by
  unfold execMessageArrival at he
  grind [→ State.take_mem, State.bounceMessage_wf, acceptMessage_mem]

theorem execLaunch_wf {a} (h : MemoryWf s) (he : execLaunch a s = .next r) : MemoryWf r :=
  runLanes_wf (fun _ _ _ => by grind [LaneRes.Wf]) h he

theorem execStitch_wf {nr na1 a b} (h : MemoryWf s) (he : execStitch nr na1 a b s = .next r) : MemoryWf r :=
  runLanes_wf (fun _ _ _ => by grind [releaseFirst_mem, State.modGroup_mem, State.modTh_mem, State.post_mem,
    LaneRes.Wf]) h he

@[simp] theorem formGroup_mem (s : State) (q) : (formGroup s q).mem = s.mem := rfl

theorem execStitchRequestArrival_wf {n} (h : MemoryWf s) (he : execStitchRequestArrival n s = .next r) :
    MemoryWf r := by
  unfold execStitchRequestArrival at he
  grind [→ State.take_mem, formGroup_mem]

theorem execStwaitExpiry_wf {c target} (h : MemoryWf s) (he : execStwaitExpiry c target s = .next r) :
    MemoryWf r := by
  unfold execStwaitExpiry at he
  grind [formGroup_mem]

theorem withHeader_wf {t entry k} (hk : ∀ s n, MemoryWf s → (k s n).Wf) (h : MemoryWf s) :
    (withHeader s t entry k).Wf := by
  unfold withHeader
  refine iteInduction (motive := LaneRes.Wf) (fun _ => h) fun _ => ?_
  generalize pagePieces _ _ = a
  have hp := translatePieces_wf (g := s.iss.g) (t := t) (acc := 0) (a := a) h
  revert hp
  generalize translatePieces _ _ _ _ _ = p
  intro hp
  cases p <;> grind [LaneRes.Wf, Pieces.Wf]

@[simp] theorem armRange_mem (s : State) (t entry start stop) : (armRange s t entry start stop).mem = s.mem := by
  unfold armRange
  grind [State.nextEnt_mem, State.modEngine_mem, State.fresh_mem]

@[simp] theorem armMailbox_mem (s : State) (t u entry) : (armMailbox s t u entry).mem = s.mem := by
  unfold armMailbox
  grind [State.nextEnt_mem]

theorem execPfarm_wf {a} (h : MemoryWf s) (he : execPfarm a s = .next r) : MemoryWf r := by
  unfold execPfarm at he
  grind [→ runLanes_wf, !withHeader_wf, armMailbox_mem, armRange_mem, LaneRes.Wf]

theorem execPfstop_wf {a} (h : MemoryWf s) (he : execPfstop a s = .next r) : MemoryWf r :=
  runLanes_wf (fun _ _ _ => by grind [LaneRes.Wf]) h he

theorem execProoferInstanceStart_wf {k} (h : MemoryWf s) (he : execProoferInstanceStart k s = .next r) :
    MemoryWf r := by
  unfold execProoferInstanceStart at he
  grind [State.fresh_mem]

theorem execProoferWatchdog_wf {g} (h : MemoryWf s) (he : execProoferWatchdog g s = .next r) : MemoryWf r := by
  unfold execProoferWatchdog at he
  grind [State.failInstance_wf]

/-! ### Contexts -/

@[simp] theorem State.contextNumber_mem (s : State) (rcb ctx) : (s.contextNumber rcb ctx).2.mem = s.mem := by
  unfold State.contextNumber
  grind [State.modRegion_mem]

@[simp] theorem State.startContext_mem (s : State) (ctx G a k) : (s.startContext ctx G a k).mem = s.mem := by
  unfold State.startContext
  grind [State.contextNumber_mem, State.fresh_mem]

@[simp] theorem startMember_mem (s s' : State) (t d target n c j ctx) :
    (startMember s t d target n c s' j ctx).mem = s'.mem := by
  unfold startMember
  grind [State.contextNumber_mem, State.startContext_mem]

theorem execFork_wf {d a b} (h : MemoryWf s) (he : execFork d a b s = .next r) : MemoryWf r := by
  refine runLanes_wf (fun s t h => ?_) h he
  extract_lets
  split
  · trivial
  refine withPage_wf (fun s pa _ h => ?_) (State.translate_wf h)
  split
  · exact h
  split
  · grind [State.closeEpoch_mem, LaneRes.Wf]
  · grind +splitImp [State.closeEpoch_mem, !State.writePhys_wf, startMember_mem, State.setPair_mem, LaneRes.Wf, OkWf,
    foldl_mem]

theorem findPoint_wf {d table id user a b x} (h : MemoryWf s) (he : findPoint d table id user a s b = .ok x) :
    MemoryWf x.1 := by
  fun_induction findPoint d table id user a s b <;> grind [→ State.readFar_wf]

theorem migrationPoint_wf {g t id x} (h : MemoryWf s) (he : migrationPoint s g t id = .ok x) : MemoryWf x.1 := by
  unfold migrationPoint at he
  grind [→ State.readFar_wf, → findPoint_wf]

@[simp] theorem State.retag_mem (s : State) (g t g' t') : (s.retag g t g' t').mem = s.mem := rfl

@[simp] theorem migrateOut_mem (s : State) (g t npc live livek ctx) :
    (migrateOut s g t npc live livek ctx).mem = s.mem := by
  unfold migrateOut
  grind [State.modGroup_mem, State.retag_mem, State.modThread_mem, State.startContext_mem]

theorem migrateBack_wf {g npc live g0 t0} (h : MemoryWf s) : MemoryWf (migrateBack s g npc live g0 t0) := by
  unfold migrateBack
  grind [State.freeContext_wf, State.retag_mem, State.modThread_mem]

theorem migrate_wf {t id pt} (h : MemoryWf s) : (migrate s t id pt).Wf := by
  unfold migrate
  grind [migrateBack_wf, migrateOut_mem, LaneRes.Wf]

theorem execMigr_wf {id} (h : MemoryWf s) (he : execMigr id s = .next r) : MemoryWf r := by
  unfold execMigr at he
  grind [→ runLanes_wf, → migrationPoint_wf, !migrate_wf, LaneRes.Wf]

theorem execMigrationMove_wf {g t} (h : MemoryWf s) (he : execMigrationMove g t s = .next r) : MemoryWf r := by
  unfold execMigrationMove at he
  grind [→ migrationPoint_wf, State.modThread_mem, migrateOut_mem]

/-! ### Sequencer -/

@[simp] theorem captureSeq_mem (s : State) (e blk entry who w) : (captureSeq s e blk entry who w).2.mem = s.mem := rfl

theorem execMq_wf {mo d a} (h : MemoryWf s) (he : execMq mo d a s = .next r) : MemoryWf r :=
  runLanes_wf (fun _ _ _ => by grind [entryWait_mem, captureSeq_mem, State.setReg_mem, LaneRes.Wf]) h he

theorem execLrset_wf {l a} (h : MemoryWf s) (he : execLrset l a s = .next r) : MemoryWf r :=
  runLanes_wf (fun _ _ _ => by grind [State.modEngine_mem, LaneRes.Wf]) h he

theorem execMqwait_wf {a} (h : MemoryWf s) (he : execMqwait a s = .next r) : MemoryWf r := by
  refine runLanes_wf (fun _ _ h => ?_) h he
  dsimp only
  split <;> exact h

theorem State.devStore_mem {n x} (he : s.devStore n = some x) : x.2.mem = s.mem := by
  unfold State.devStore at he
  grind [→ State.take_mem]

@[simp] theorem State.discardSeq_mem (s : State) (e) : (s.discardSeq e).mem = s.mem := rfl

theorem portCommand_wf {op n} (h : MemoryWf s) (he : portCommand op n s = .next r) : MemoryWf r := by
  unfold portCommand at he
  grind [→ State.devStore_mem, State.discardSeq_mem, captureSeq_mem]

theorem execSeqCmdMma_wf {n} (h : MemoryWf s) (he : execSeqCmdMma n s = .next r) : MemoryWf r :=
  portCommand_wf h he

theorem execSeqCmdAmzero_wf {n} (h : MemoryWf s) (he : execSeqCmdAmzero n s = .next r) : MemoryWf r :=
  portCommand_wf h he

theorem execSeqCmdAmdrain_wf {n} (h : MemoryWf s) (he : execSeqCmdAmdrain n s = .next r) : MemoryWf r :=
  portCommand_wf h he

theorem execSeqCmdAmdrainAdd_wf {n} (h : MemoryWf s) (he : execSeqCmdAmdrainAdd n s = .next r) : MemoryWf r :=
  portCommand_wf h he

theorem seqProduct_wf {e c n tile i0 i1 i2} (h : MemoryWf s) : (seqProduct s e c n tile i0 i1 i2).Wf := by
  unfold seqProduct
  extract_lets L slot sa sb ta tb na row o size limit outside dry bad early q
  clear_value early dry bad outside limit size
  iterate 6 (split; · trivial)
  split
  · exact h
  iterate 3 (split; · trivial)
  exact performQuarter_wf h

theorem walkRows_wf {d table acc a x} (h : MemoryWf s) (he : walkRows d table acc s a = .ok x) : MemoryWf x.1 := by
  fun_induction walkRows d table acc s a generalizing x <;> grind [→ State.walkNow_wf]

theorem seqStoreRows_wf {u table who n k row a} (h : MemoryWf s)
    (he : seqStoreRows u table who n k row s a = some (.ok r)) : MemoryWf r := by
  fun_induction seqStoreRows u table who n k row s a <;> grind [!State.unitStore_wf, UnitRes.Wf]

theorem seqDrainGlobal_wf {e c add a n tile base k} (h : MemoryWf s) :
    (seqDrainGlobal s e c add a n tile base k).Wf := by
  unfold seqDrainGlobal
  grind [→ walkRows_wf, → seqStoreRows_wf, sendLines_mem, ItemRes.Wf]

theorem seqDrainSpm_wf {e c add a n tile base} (h : MemoryWf s) : (seqDrainSpm s e c add a n tile base).Wf := by
  unfold seqDrainSpm
  grind [putSpmTile_mem, addSpmTile_mem, ItemRes.Wf]

theorem seqItem_wf {e c k} (h : MemoryWf s) : (seqItem s e c k).Wf := by
  unfold seqItem
  grind [!seqProduct_wf, zeroTile_mem, !seqDrainSpm_wf, !seqDrainGlobal_wf, ItemRes.Wf]

theorem completeSeq_wf {e c} (h : MemoryWf s) : MemoryWf (completeSeq s e c) := by
  unfold completeSeq
  grind [!State.complete_wf, State.noteFull_wf, State.modEngine_mem, OkWf]

theorem nextItem_wf {e c fails} (h : MemoryWf s) : MemoryWf (nextItem s e c fails) := by
  unfold nextItem
  grind [State.modEngine_mem, completeSeq_wf]

theorem execSequencerItem_wf {e} (h : MemoryWf s) (he : execSequencerItem e s = .next r) : MemoryWf r := by
  unfold execSequencerItem at he
  grind [completeSeq_wf, !seqItem_wf, nextItem_wf, ItemRes.Wf]

/-! ### Place -/

@[simp] theorem State.engineNumber_mem (s : State) (rcb e) : (s.engineNumber rcb e).2.mem = s.mem := by
  unfold State.engineNumber
  grind [State.modRegion_mem]

@[simp] theorem State.groupNumber_mem (s : State) (rcb e) : (s.groupNumber rcb e).2.2.mem = s.mem :=
  State.engineNumber_mem ..

@[simp] theorem State.numbered_mem (s : State) (rcb es) : (s.numbered rcb es).1.mem = s.mem := by
  unfold State.numbered
  grind +splitImp [State.engineNumber_mem, foldl_fst_mem]

@[simp] theorem State.joinReady_mem (s : State) (g) : (s.joinReady g).mem = s.mem := by
  unfold State.joinReady
  grind [State.fillActive_mem, State.modPart_mem]

@[simp] theorem State.addGroup_mem (s : State) (G) : (s.addGroup G).mem = s.mem := rfl

@[simp] theorem startShare_mem (s : State) (L blk bid e first n) :
    (startShare L blk bid e first n s).mem = s.mem := by
  unfold startShare
  grind +splitImp [State.groupNumber_mem, State.addGroup_mem, State.joinReady_mem, foldl_mem]

@[simp] theorem startGridOn_mem (s : State) (l es) : (startGridOn l es s).mem = s.mem := by
  unfold startGridOn
  grind +splitImp [State.modLaunch_mem, State.modEngine_mem, foldl_mem]

@[simp] theorem placeOn_mem (s : State) (L bid es) : (placeOn s L bid es).mem = s.mem := by
  unfold placeOn
  grind +splitImp [State.numbered_mem, State.fresh_mem, startGridOn_mem, startShare_mem, foldl_mem]

@[simp] theorem placeContext_mem (s : State) (L bid ctx) : (placeContext s L bid ctx).mem = s.mem := by
  unfold placeContext
  grind [State.contextNumber_mem, State.fresh_mem, State.startContext_mem]

/-! ### Raster -/

theorem spanRead_wf {cl table rcb a b c x} (h : MemoryWf s) (he : spanRead cl table rcb a s b c = .ok x) :
    MemoryWf x.1 := by
  fun_induction spanRead cl table rcb a s b c generalizing x <;> grind [→ State.microRead_wf]

@[simp] theorem modBin_mem (s : State) (blk f) : (modBin s blk f).mem = s.mem :=
  State.modBlock_mem ..

theorem binMicro_wf {blk kind B b req prim input x} (h : MemoryWf s)
    (he : binMicro s blk kind B b req prim input = some x) : MemoryWf x.1 := by
  unfold binMicro at he
  grind [modBin_mem, !microStart_wf, MicroEnd.Wf]

theorem readBin_wf {B x} (h : MemoryWf s) (he : readBin s B = .ok x) : MemoryWf x.1 := by
  unfold readBin at he
  grind [→ spanRead_wf]

theorem execBinStart_wf {blk} (h : MemoryWf s) (he : execBinStart blk s = .next r) : MemoryWf r := by
  unfold execBinStart at he
  grind [modBin_mem, → readBin_wf, binFail, → binMicro_wf]

theorem execPrimitive_wf {blk} (h : MemoryWf s) (he : execPrimitive blk s = .next r) : MemoryWf r := by
  unfold execPrimitive at he
  grind [modBin_mem, → spanRead_wf, binFail, → binMicro_wf]

@[simp] theorem startPixels_mem (s : State) (L B key qs) : (startPixels s L B key qs).mem = s.mem := by
  unfold startPixels
  grind [State.addGroup_mem, State.joinReady_mem, modBin_mem]

theorem execPixelGroupStart_wf {blk} (h : MemoryWf s) (he : execPixelGroupStart blk s = .next r) : MemoryWf r := by
  unfold execPixelGroupStart at he
  grind [startPixels_mem]

theorem execPixout_wf {flags d a} (h : MemoryWf s) (he : execPixout flags d a s = .next r) : MemoryWf r :=
  runLanes_wf (fun _ _ _ => by grind [State.modTh_mem, modBin_mem, LaneRes.Wf]) h he

theorem pixelStores_wf {cl table who a} (h : MemoryWf s) : (pixelStores cl table who s a).Wf := by
  fun_induction pixelStores cl table who s a <;> grind [!State.unitStore_wf, PixelRes.Wf, UnitRes.Wf]

@[simp] theorem stencilPass_mem (s : State) (b v) : (stencilPass s b v).2.mem = s.mem := by
  unfold stencilPass
  grind [State.freeBit_mem]

@[simp] theorem zPass_mem (s : State) (b z stored) : (zPass s b z stored).2.mem = s.mem := by
  unfold zPass
  grind [State.freeBit_mem]

@[simp] theorem stencilNew_mem (s : State) (b v) : (stencilNew s b v).2.mem = s.mem := by
  unfold stencilNew
  grind

theorem readPixel_wf {B need va n x} (h : MemoryWf s) (he : readPixel s B need va n = .ok x) : MemoryWf x.1 := by
  unfold readPixel at he
  grind [→ State.microRead_wf]

theorem mergePixel_wf {B b o} (h : MemoryWf s) : (mergePixel s B b o).Wf := by
  unfold mergePixel
  grind [→ readPixel_wf, stencilPass_mem, zPass_mem, stencilNew_mem, !pixelStores_wf, PixelRes.Wf]

theorem execPixelWrite_wf {blk} (h : MemoryWf s) (he : execPixelWrite blk s = .next r) : MemoryWf r := by
  unfold execPixelWrite at he
  grind [modBin_mem, !mergePixel_wf, binFail, → binMicro_wf, PixelRes.Wf]

theorem execRscb_wf (h : MemoryWf s) (he : execRscb s = .next r) : MemoryWf r :=
  runLanes_wf (fun _ _ _ => by grind [State.modTh_mem, LaneRes.Wf]) h he

theorem execRsce_wf (h : MemoryWf s) (he : execRsce s = .next r) : MemoryWf r :=
  runLanes_wf (fun _ _ _ => by grind [entryWait_mem, State.modTh_mem, LaneRes.Wf]) h he

theorem execSectionWatchdog_wf {g t} (h : MemoryWf s) (he : execSectionWatchdog g t s = .next r) : MemoryWf r := by
  unfold execSectionWatchdog at he
  grind [!State.report_wf, State.endThread_wf, State.noteFull_wf, OkWf]

theorem execDraw_wf {n} (h : MemoryWf s) (he : execDraw n s = .next r) : MemoryWf r := by
  unfold execDraw at he
  grind [→ State.devStore_mem, State.modDie_mem]

/-! ### Launches -/

@[simp] theorem State.frontRcb_mem (s : State) (d rcb) : (s.frontRcb d rcb).mem = s.mem := rfl

theorem State.touchRcb_mem {d rcb} (he : s.touchRcb d rcb = .ok r) : r.mem = s.mem := by
  unfold State.touchRcb at he
  grind +splitImp [State.frontRcb_mem, foldl_mem]

theorem addAtHome_wf {d table va w n} (h : MemoryWf s) : OkWf (addAtHome s d table va w n) := by
  unfold addAtHome
  grind [→ State.walkNow_wf, State.freeBit_mem, State.homeWriteNat_wf, OkWf]

theorem decrementCells_wf {L a} (h : MemoryWf s) : OkWf (decrementCells L s a) := by
  fun_induction decrementCells L s a <;> grind [!addAtHome_wf, State.rereadAll_mem, !State.report_wf, OkWf]

theorem endLaunch_wf {L} (h : MemoryWf s) : OkWf (endLaunch s L) := by
  unfold endLaunch
  grind [!applyBuffered_wf, !decrementCells_wf, State.modDie_mem, OkWf]

theorem makeReady_wf {L} (h : MemoryWf s) : OkWf (makeReady s L) := by
  unfold makeReady
  grind [!endLaunch_wf, State.fresh_mem, OkWf]

theorem readLaunch_wf {d lr issuer x} (h : MemoryWf s) (he : readLaunch s d lr issuer = .ok x) : MemoryWf x.1 := by
  unfold readLaunch at he
  grind [→ State.readVirt_wf]

theorem checkLaunch_wf {bs L} (h : MemoryWf s) : (checkLaunch s bs L).Wf := by
  unfold checkLaunch
  grind [Arrive.Wf]

theorem arriveLaunch_wf {d lr issuer raster} (h : MemoryWf s) : (arriveLaunch s d lr issuer raster).Wf := by
  unfold arriveLaunch
  grind [→ readLaunch_wf, → State.touchRcb_mem, !checkLaunch_wf, Arrive.Wf]

theorem refuseLaunch_wf {d lr rcb cause faddr} (h : MemoryWf s) : OkWf (refuseLaunch s d lr rcb cause faddr) := by
  unfold refuseLaunch
  grind [!State.report_wf, OkWf]

theorem enterLaunch_wf {L zero} (h : MemoryWf s) : OkWf (enterLaunch s L zero) := by
  unfold enterLaunch
  grind [State.fresh_mem, !makeReady_wf, OkWf]

@[simp] theorem inboxPop_mem (s : State) (i) : (inboxPop s i).mem = s.mem := by
  unfold inboxPop
  grind [State.modDie_mem]

@[simp] theorem countDraw_mem (s : State) (i ok) : (countDraw s i ok).mem = s.mem := by
  unfold countDraw
  grind [State.modDie_mem]

theorem execLaunchArrival_wf {i} (h : MemoryWf s) (he : execLaunchArrival i s = .next r) : MemoryWf r := by
  unfold execLaunchArrival at he
  grind [!arriveLaunch_wf, !refuseLaunch_wf, countDraw_mem, inboxPop_mem, State.noteFull_wf, !enterLaunch_wf,
    Arrive.Wf, OkWf]

theorem rereadLaunch_wf {L} (h : MemoryWf s) : MemoryWf (rereadLaunch s L) := by
  unfold rereadLaunch
  grind +splitImp [State.orFull_wf, !makeReady_wf, !refuseLaunch_wf, okWf_map]

theorem rereadDie_wf {d} (h : MemoryWf s) : MemoryWf (rereadDie s d) := by
  unfold rereadDie
  grind +splitImp [rereadLaunch_wf, foldl_wf]

theorem execPeriodicReading_wf {d} (h : MemoryWf s) (he : execPeriodicReading d s = .next r) : MemoryWf r := by
  unfold execPeriodicReading at he
  grind [rereadDie_wf]

theorem execDecrementReading_wf {d} (h : MemoryWf s) (he : execDecrementReading d s = .next r) : MemoryWf r := by
  unfold execDecrementReading at he
  grind [rereadDie_wf, State.modDie_mem]

@[simp] theorem dropBlock_mem (s : State) (B) : (dropBlock s B).mem = s.mem := rfl

@[simp] theorem restate_mem (s : State) (l) : (restate s l).mem = s.mem :=
  State.modLaunch_mem ..

theorem queryAdds_wf {B w a} (h : MemoryWf s) : OkWf (queryAdds B w s a) := by
  fun_induction queryAdds B w s a <;> grind [!addAtHome_wf, !State.complete_wf, OkWf]

theorem endMethod_wf {B} (h : MemoryWf s) : OkWf (endMethod s B) := by
  unfold endMethod
  grind +splitImp [!State.report_wf, State.modDie_mem, State.modBlock_mem, OkWf, okWf_map]

@[simp] theorem keepDrained_mem (s : State) (B) : (keepDrained s B).mem = s.mem := by
  unfold keepDrained
  grind +splitImp [State.keepFreed_mem, foldl_mem]

theorem completeBlock_wf {B} (h : MemoryWf s) : OkWf (completeBlock s B) := by
  unfold completeBlock
  grind [!State.reportAll_wf, !queryAdds_wf, !endMethod_wf, keepDrained_mem, dropBlock_mem, State.modLaunch_mem,
    !endLaunch_wf, restate_mem, OkWf]

theorem execBlockCompletion_wf {blk} (h : MemoryWf s) (he : execBlockCompletion blk s = .next r) : MemoryWf r := by
  unfold execBlockCompletion at he
  grind [State.closeEpoch_mem, State.modBlock_mem, State.orFull_wf, !completeBlock_wf]

/-! ### Preempt -/

@[simp] theorem State.stopBlock_mem (s : State) (b) : (s.stopBlock b).mem = s.mem := by
  unfold State.stopBlock
  grind +splitImp [State.modGroup_mem, State.leavePart_mem, foldl_mem]

@[simp] theorem State.beginMethod_mem (s : State) (b p) : (s.beginMethod b p).mem = s.mem := by
  unfold State.beginMethod
  grind [State.modBlock_mem, State.fresh_mem, State.stopBlock_mem]

@[simp] theorem preemptOne_mem (q r b) : (preemptOne q r b).1.mem = r.1.mem :=
  State.beginMethod_mem ..

@[simp] theorem preemptAll_mem (s : State) (q bs) : (preemptAll s q bs).mem = s.mem := by
  unfold preemptAll
  exact foldl_fst_mem (fun r b => preemptOne_mem q r b) _ _

@[simp] theorem State.without_mem (s : State) (bs) : (s.without bs).mem = s.mem := rfl

@[simp] theorem preemptFor_mem (s : State) (l fits cls) : (preemptFor s l fits cls).mem = s.mem := by
  unfold preemptFor
  grind [State.modLaunch_mem, preemptAll_mem]

theorem execPreemptionCheck_wf {blk} (h : MemoryWf s) (he : execPreemptionCheck blk s = .next r) : MemoryWf r := by
  unfold execPreemptionCheck at he
  grind [State.beginMethod_mem, State.modBlock_mem]

@[simp] theorem State.dropWalks_mem (s : State) (b) : (s.dropWalks b).mem = s.mem := rfl

@[simp] theorem State.freeHandles_mem (s : State) (b) : (s.freeHandles b).mem = s.mem := rfl

theorem requeue_wf {B} (h : MemoryWf s) : MemoryWf (requeue s B) := by
  unfold requeue
  grind +splitImp [State.freeHandles_mem, State.dropWalks_mem, State.freeContext_wf, State.modGroup_mem,
    State.flushMail_wf, State.modBlock_mem, restate_mem, State.modLaunch_mem, foldl_wf, foldl_mem]

@[simp] theorem discardBlock_mem (s : State) (B) : (discardBlock s B).mem = s.mem := by
  unfold discardBlock
  grind [dropBlock_mem, State.dropWalks_mem]

theorem execFlushComplete_wf {blk} (h : MemoryWf s) (he : execFlushComplete blk s = .next r) : MemoryWf r := by
  unfold execFlushComplete at he
  grind +splitImp [State.tellAborts_wf, discardBlock_mem, State.orFull_wf, requeue_wf, !endMethod_wf, okWf_map]

/-! ### Save -/

@[simp] theorem takeAm_mem (s : State) (B) : (takeAm s B).mem = s.mem := by
  unfold takeAm
  grind +splitImp [State.modBlock_mem, State.modEngine_mem, foldl_mem]

theorem writeSpan_wf {d table a b c} (h : MemoryWf s) : OkWf (writeSpan d table a s b c) := by
  fun_induction writeSpan d table a s b c <;> grind [!State.writeVirt_wf, OkWf]

theorem markRecord_wf {d table va off} (h : MemoryWf s) : MemoryWf (markRecord d table va s off) := by
  unfold markRecord
  grind [→ State.walkNow_wf, State.poisonHome_mem]

theorem writeShares_wf {d table area B l n x} (h : MemoryWf s) (he : writeShares d table area B l s n = .ok x) :
    MemoryWf x.1 := by
  induction l generalizing s n x with
  | nil => cases he; exact h
  | cons i rest ih =>
    rw [writeShares] at he
    split at he
    · cases he
    · rename_i s' hs
      have h' : MemoryWf s' := by grind [!writeSpan_wf, OkWf]
      extract_lets s2 at he
      have h2 : MemoryWf s2 := foldl_wf (fun _ _ => markRecord_wf) h'
      split at he
      · cases he
      · rw [← Except.ok.inj he]
        rename_i hs
        have := ih h2 hs
        exact this

theorem writeSave_wf {d B x} (h : MemoryWf s) (he : writeSave s d B = .ok x) : MemoryWf x.1 := by
  unfold writeSave at he
  grind [→ State.readVirt_wf, → writeShares_wf, !State.writeVirt_wf, OkWf]

@[simp] theorem captureBlock_mem (s : State) (B) : (captureBlock s B).mem = s.mem := by
  unfold captureBlock
  grind [takeAm_mem, State.dropWalks_mem, State.fresh_mem, State.modBlock_mem]

theorem saveFailed_wf {B p ti} (h : MemoryWf s) : OkWf (saveFailed s B p ti) := by
  unfold saveFailed
  grind +splitImp [State.modBlock_mem, State.abort_wf, !State.report_wf, okWf_map]

theorem execSaveComplete_wf {blk} (h : MemoryWf s) (he : execSaveComplete blk s = .next r) : MemoryWf r := by
  unfold execSaveComplete at he
  grind +splitImp [captureBlock_mem, → writeSave_wf, State.orFull_wf, !saveFailed_wf, State.modBlock_mem,
    restate_mem, !endMethod_wf, okWf_map]

theorem rawSpan_wf {d table a b c e x} (h : MemoryWf s) (he : rawSpan d table a s b c e = .ok x) : MemoryWf x.1 := by
  fun_induction rawSpan d table a s b c e generalizing x <;> grind [→ State.walkNow_wf]

theorem readShares_wf {d table B a x} (h : MemoryWf s) (he : readShares d table B a s = .ok x) : MemoryWf x.1 := by
  fun_induction readShares d table B a s generalizing x <;> grind [→ rawSpan_wf]

theorem restoreLost_wf {d B ti} (h : MemoryWf s) : OkWf (restoreLost s d B ti) := by
  unfold restoreLost
  grind +splitImp [State.abort_wf, !State.report_wf, okWf_map]

@[simp] theorem applyRecord_mem (s : State) (B a) : (applyRecord B s a).mem = s.mem := by
  unfold applyRecord
  grind +splitImp [State.modGroup_mem, State.modBlock_mem, foldl_mem]

@[simp] theorem applyMarks_mem (s : State) (B a) : (applyMarks B s a).mem = s.mem := by
  unfold applyMarks
  grind +splitImp [State.modGroup_mem, State.modLine_mem, State.modBlock_mem, foldl_mem]

theorem readBack_wf {d B} (h : MemoryWf s) : OkWf (readBack s d B) := by
  unfold readBack
  grind +splitImp [→ readShares_wf, applyMarks_mem, State.freeBit_mem, applyRecord_mem, OkWf, foldl_wf, foldl_mem]

@[simp] theorem giveAm_mem (s : State) (B a) : (giveAm B s a).mem = s.mem := by
  unfold giveAm
  grind [State.modEngine_mem, State.modBlock_mem]

@[simp] theorem moveArms_mem (s : State) (b moves) : (moveArms s b moves).mem = s.mem := by
  unfold moveArms
  grind +splitImp [State.modEngine_mem, foldl_mem]

theorem alarmThread_wf {g t} (h : MemoryWf s) : MemoryWf (alarmThread g s t) := by
  unfold alarmThread
  grind [State.modThread_mem]

theorem placeSaved_wf {B es} (h : MemoryWf s) : MemoryWf (placeSaved s B es) := by
  unfold placeSaved
  grind +splitImp [State.numbered_mem, State.fresh_mem, startGridOn_mem, moveArms_mem, giveAm_mem,
    State.modGroup_mem, State.modBlock_mem, alarmThread_wf, foldl_wf, foldl_mem]

theorem restoreBlock_wf {d B es} (h : MemoryWf s) : OkWf (restoreBlock s d B es) := by
  unfold restoreBlock
  grind [!readBack_wf, !restoreLost_wf, placeSaved_wf, restate_mem, State.freeArea_wf, OkWf]

/-! ### Schedule -/

@[simp] theorem keptNumber_mem (s : State) (rcb olds e gid) : (keptNumber s rcb olds e gid).2.2.mem = s.mem := by
  unfold keptNumber
  grind [State.groupNumber_mem]

@[simp] theorem restartGroup_mem (s : State) (L B olds e i j) : (restartGroup L B olds e i s j).mem = s.mem := by
  unfold restartGroup
  grind [keptNumber_mem, State.addGroup_mem, State.joinReady_mem]

@[simp] theorem replaceOn_mem (s : State) (L b es) : (replaceOn s L b es).mem = s.mem := by
  unfold replaceOn
  grind +splitImp [State.numbered_mem, State.fresh_mem, startGridOn_mem, State.modBlock_mem, restartGroup_mem,
    foldl_mem]

@[simp] theorem afterPlacing_mem (s : State) (L nx) : (afterPlacing s L nx).mem = s.mem := by
  unfold afterPlacing
  grind [State.modLaunch_mem, restate_mem]

@[simp] theorem preemptStuck_mem (s : State) (L nx) : (preemptStuck s L nx).mem = s.mem := by
  unfold preemptStuck
  grind [preemptFor_mem]

@[simp] theorem preemptNext_mem (s : State) (d) : (preemptNext s d).mem = s.mem := by
  unfold preemptNext
  generalize hr : List.findSome? _ _ = r
  cases r with
  | none => rfl
  | some s' =>
    obtain ⟨x, -, hx⟩ := List.exists_of_findSome?_eq_some hr
    grind [preemptStuck_mem]

theorem withRcb_wf {d rcb k} (hk : ∀ s, MemoryWf s → MemoryWf (k s)) (h : MemoryWf s) :
    MemoryWf (withRcb s d rcb k) := by
  unfold withRcb
  grind [→ State.touchRcb_mem, State.abort_wf]

theorem refuseLate_wf {L} (h : MemoryWf s) : OkWf (refuseLate s L) := by
  unfold refuseLate
  grind +splitImp [dropBlock_mem, State.freeArea_wf, !refuseLaunch_wf, foldl_wf, okWf_map]

theorem execBlockPlacement_wf {d} (h : MemoryWf s) (he : execBlockPlacement d s = .next r) : MemoryWf r := by
  unfold execBlockPlacement at he
  grind [State.orFull_wf, !refuseLate_wf, withRcb_wf, afterPlacing_mem, placeOn_mem, replaceOn_mem, preemptNext_mem]

theorem execSwarmBlockPlacement_wf {d} (h : MemoryWf s) (he : execSwarmBlockPlacement d s = .next r) :
    MemoryWf r := by
  unfold execSwarmBlockPlacement at he
  grind [withRcb_wf, afterPlacing_mem, placeContext_mem]

theorem execRestore_wf {d} (h : MemoryWf s) (he : execRestore d s = .next r) : MemoryWf r := by
  unfold execRestore at he
  grind +splitImp [withRcb_wf, State.orFull_wf, afterPlacing_mem, !restoreBlock_wf, okWf_map]

@[simp] theorem holdSubtree_mem (s : State) (rcb) : (holdSubtree s rcb).mem = s.mem := by
  unfold holdSubtree
  grind +splitImp [State.modGroup_mem, State.leavePart_mem, State.modRegion_mem, foldl_mem]

theorem execBudgetHold_wf {rcb} (h : MemoryWf s) (he : execBudgetHold rcb s = .next r) : MemoryWf r := by
  unfold execBudgetHold at he
  grind [State.leaveRecord_wf, holdSubtree_mem]

theorem execRetireSweep_wf {rcb} (h : MemoryWf s) (he : execRetireSweep rcb s = .next r) : MemoryWf r := by
  unfold execRetireSweep at he
  grind +splitImp [State.freeTicket_mem, State.modRegion_mem, State.writeBack_wf, foldl_wf]

theorem execActiveTimeout_wf {g} (h : MemoryWf s) (he : execActiveTimeout g s = .next r) : MemoryWf r := by
  unfold execActiveTimeout at he
  grind [State.leaveActive_mem]

theorem execGroupReady_wf {g} (h : MemoryWf s) (he : execGroupReady g s = .next r) : MemoryWf r := by
  unfold execGroupReady at he
  grind [State.joinReady_mem]

theorem execContextSwitch_wf {core} (h : MemoryWf s) (he : execContextSwitch core s = .next r) : MemoryWf r := by
  unfold execContextSwitch at he
  grind [State.modCore_mem]

@[simp] theorem startStitched_mem (s : State) (l q e) : (startStitched s l q e).mem = s.mem := by
  unfold startStitched
  grind [State.groupNumber_mem, State.fresh_mem, State.joinReady_mem, State.addGroup_mem]

theorem tryStitched_mem {c a} (he : tryStitched c s a = some r) : r.mem = s.mem := by
  unfold tryStitched at he
  grind [startStitched_mem]

theorem execStitchedGroupStart_wf {c} (h : MemoryWf s) (he : execStitchedGroupStart c s = .next r) : MemoryWf r := by
  unfold execStitchedGroupStart at he
  grind +splitImp [→ tryStitched_mem, findSome_getD_wf]

/-! ### Commands -/

@[simp] theorem endCommand_mem (s : State) (d err) : (endCommand s d err).mem = s.mem := rfl

theorem command_wf {op d f} (hf : ∀ s o c, MemoryWf s → (f s o c).Wf) (h : MemoryWf s)
    (he : command op d f s = .next r) : MemoryWf r := by
  unfold command at he
  grind [endCommand_mem, State.modDie_mem, LaneRes.Wf, CmdRes.Wf]

theorem releaseHold_wf {d old} (h : MemoryWf s) : OkWf (releaseHold s d old) := by
  unfold releaseHold
  grind [State.modRegion_mem, !State.report_wf, OkWf]

theorem execRegister_wf {d} (h : MemoryWf s) (he : execRegister d s = .next r) : MemoryWf r :=
  command_wf (fun _ _ _ _ => by grind [!releaseHold_wf, State.frontRcb_mem, State.writeBack_wf, State.noteFull_wf,
    OkWf, CmdRes.Wf]) h he

theorem beginRetire_wf {rcb} (h : MemoryWf s) : MemoryWf (beginRetire s rcb) := by
  unfold beginRetire
  grind +splitImp [State.dropWork_wf, State.writeBack_wf, State.modRegion_mem, foldl_wf]

theorem execRetire_wf {d} (h : MemoryWf s) (he : execRetire d s = .next r) : MemoryWf r :=
  command_wf (fun _ _ _ _ => by grind [beginRetire_wf, CmdRes.Wf]) h he

theorem execPreempt_wf {d} (h : MemoryWf s) (he : execPreempt d s = .next r) : MemoryWf r :=
  command_wf (fun _ _ _ _ => by grind [preemptAll_mem, CmdRes.Wf]) h he

theorem execShoot_wf {d} (h : MemoryWf s) (he : execShoot d s = .next r) : MemoryWf r :=
  command_wf (fun _ _ _ _ => by grind [State.fresh_mem, CmdRes.Wf]) h he

@[simp] theorem setImageAside_mem (s : State) (kind id n) : (setImageAside s kind id n).mem = s.mem := rfl

theorem loadImage_mem {id hdr body sig} (he : loadImage s id hdr body sig = some r) : r.mem = s.mem := by
  unfold loadImage at he
  grind [State.fresh_mem, setImageAside_mem]

theorem execImage_wf {d} (h : MemoryWf s) (he : execImage d s = .next r) : MemoryWf r :=
  command_wf (fun _ _ _ _ => by grind [→ loadImage_mem, CmdRes.Wf]) h he

theorem execPeer_wf {d} (h : MemoryWf s) (he : execPeer d s = .next r) : MemoryWf r :=
  command_wf (fun _ _ _ _ => by grind [CmdRes.Wf]) h he

theorem execLaunchCommand_wf {d} (h : MemoryWf s) (he : execLaunchCommand d s = .next r) : MemoryWf r :=
  command_wf (fun _ _ _ _ => by grind [!arriveLaunch_wf, !refuseLaunch_wf, State.noteFull_wf, !enterLaunch_wf,
    Arrive.Wf, OkWf, CmdRes.Wf]) h he

theorem execFreeq_wf {n} (h : MemoryWf s) (he : execFreeq n s = .next r) : MemoryWf r := by
  unfold execFreeq at he
  grind [→ State.devStore_mem, State.modDie_mem]

theorem execNonce_wf {n} (h : MemoryWf s) (he : execNonce n s = .next r) : MemoryWf r := by
  unfold execNonce at he
  grind [→ State.devStore_mem, State.modDie_mem]

@[simp] theorem storeDest_mem (s : State) (a) : (storeDest s a).mem = s.mem := rfl

theorem execDeviceRegisterWrite_wf {n} (h : MemoryWf s) (he : execDeviceRegisterWrite n s = .next r) :
    MemoryWf r := by
  unfold execDeviceRegisterWrite at he
  grind [→ State.devStore_mem, State.modDie_mem, State.discardSeq_mem, State.modEngine_mem, storeDest_mem]

theorem execAttestationReportWritten_wf {d} (h : MemoryWf s) (he : execAttestationReportWritten d s = .next r) :
    MemoryWf r := by
  unfold execAttestationReportWritten at he
  grind [State.modDie_mem, State.notify_mem, homeWrite_wf]

/-! ### Errors -/

theorem systemEvent_wf {d event cause aux} (h : MemoryWf s) : MemoryWf (systemEvent s d event cause aux) := by
  unfold systemEvent
  grind +splitImp [State.leaveRecord_wf, State.notify_mem, foldl_wf, foldl_mem]

@[simp] theorem countError_mem (s : State) (unit) : (countError s unit).mem = s.mem := rfl

theorem execCorrectedError_wf {unit} (h : MemoryWf s) (he : execCorrectedError unit s = .next r) : MemoryWf r := by
  unfold execCorrectedError at he
  grind [countError_mem]

theorem loseThread_wf {g t} (h : MemoryWf s) : MemoryWf (loseThread s g t) := by
  unfold loseThread
  grind [State.nestedTrap_wf, State.doomAll_wf]

theorem loseRegion_wf {d rcb} (h : MemoryWf s) : MemoryWf (loseRegion s d rcb) :=
  State.abort_wf h

theorem trapState_wf {g t} (h : MemoryWf s) : MemoryWf (trapState s g t) := by
  unfold trapState
  grind [State.trapAll_wf]

theorem loseState_wf {g t pc} (h : MemoryWf s) : MemoryWf (loseState s g t pc) := by
  unfold loseState
  grind [State.freeBit_mem, trapState_wf, loseThread_wf]

theorem loseGroup_wf {g n} (h : MemoryWf s) : MemoryWf (loseGroup s g n) := by
  unfold loseGroup
  grind [State.freeBit_mem, State.modGroup_mem, loseRegion_wf]

@[simp] theorem failPending_mem (s : State) (c line ws) : (failPending s c line ws).mem = s.mem := by
  unfold failPending
  grind [State.post_mem]

@[simp] theorem loseL1Word_mem (s : State) (c wa) : (loseL1Word s c wa).mem = s.mem := by
  unfold loseL1Word
  grind [State.modL1_mem, failPending_mem, State.dropL0_mem]

@[simp] theorem loseHand_mem (s : State) (c a) : (loseHand c s a).mem = s.mem := by
  unfold loseHand
  grind [State.modL1_mem, State.post_mem]

@[simp] theorem loseL1Set_mem (s : State) (c line) : (loseL1Set s c line).mem = s.mem := by
  unfold loseL1Set
  grind +splitImp [State.dropL0_mem, State.modL1_mem, loseHand_mem, failPending_mem, State.l1Advance_mem, foldl_mem]

@[simp] theorem loseCopy_mem (s : State) (e) : (loseCopy s e).mem = s.mem := rfl

theorem loseMicroword_wf {kind n} (h : MemoryWf s) : MemoryWf (loseMicroword s kind n) := by
  unfold loseMicroword
  grind [failRequest_wf, binFail, modBin_mem]

theorem loseScatter_wf {n} (h : MemoryWf s) : MemoryWf (loseScatter s n) := by
  unfold loseScatter
  grind [noteMarked_mem, State.orFull_wf, !endGrads_wf]

@[simp] theorem loseTicket_mem (s : State) (slot) : (loseTicket s slot).mem = s.mem := by
  unfold loseTicket
  grind [State.modTicket_mem, State.post_mem]

theorem loseMemory_wf {a} (h : MemoryWf s) : MemoryWf (loseMemory s a) := by
  unfold loseMemory
  grind [loseL1Word_mem, countError_mem, systemEvent_wf, loseL1Set_mem, State.poisonHome_mem, State.arrive_wf,
    State.modTicket_mem, loseTicket_mem, loseCopy_mem, loseScatter_wf, State.modDie_mem, loseRegion_wf]

theorem execUncorrectableError_wf {site} (h : MemoryWf s) (he : execUncorrectableError site s = .next r) :
    MemoryWf r := by
  unfold execUncorrectableError at he
  grind [State.modThread_mem, State.modGroup_mem, loseState_wf, loseGroup_wf, State.modLine_mem, State.modEngine_mem,
    loseMicroword_wf, loseMemory_wf]

/-! ### Pages -/

theorem execPageWalk_wf {k} (h : MemoryWf s) (he : execPageWalk k s = .next r) : MemoryWf r := by
  unfold execPageWalk at he
  grind [State.endWalk_wf]

theorem execShootdownComplete_wf {k} (h : MemoryWf s) (he : execShootdownComplete k s = .next r) : MemoryWf r := by
  unfold execShootdownComplete at he
  grind

theorem startMove_wf {page e} (h : MemoryWf s) : MemoryWf (startMove s page e) := by
  unfold startMove
  grind +splitImp [State.modDie_mem, State.fresh_mem, State.arrive_wf, foldl_wf]

theorem testPage_wf {d page} (h : MemoryWf s) : MemoryWf (testPage d s page) := by
  unfold testPage
  grind [startMove_wf]

theorem execKneaderEpochEnd_wf {d} (h : MemoryWf s) (he : execKneaderEpochEnd d s = .next r) : MemoryWf r := by
  unfold execKneaderEpochEnd at he
  grind +splitImp [testPage_wf, foldl_wf]

@[simp] theorem State.mapOlds_mem (s : State) (to_) : (s.mapOlds to_).mem = s.mem := rfl

@[simp] theorem State.followPage_mem (s : State) (f) : (s.followPage f).mem = s.mem := rfl

theorem State.answerHeld_wf {d a line req} (h : MemoryWf s) : MemoryWf (State.answerHeld d a line s req) := by
  unfold State.answerHeld
  grind +splitImp [State.post_mem, State.arrive_wf, foldl_wf]

theorem execPageMoveComplete_wf {k} (h : MemoryWf s) (he : execPageMoveComplete k s = .next r) : MemoryWf r := by
  unfold execPageMoveComplete at he
  grind +splitImp [copyPage_wf, clearFrame_wf, homeWrite_wf, State.followPage_mem, State.answerHeld_wf, foldl_wf,
    foldl_mem]

theorem execPageMoveAbandon_wf {k} (h : MemoryWf s) (he : execPageMoveAbandon k s = .next r) : MemoryWf r := by
  unfold execPageMoveAbandon at he
  grind +splitImp [State.modDie_mem, State.resumeTx_wf, foldl_wf]

/-! ### HostLink -/

@[simp] theorem State.answerLoad_mem (s : State) (m g t id pa size) :
    (s.answerLoad m g t id pa size).mem = s.mem := by
  unfold State.answerLoad
  grind [State.countAccess_mem, State.post_mem]

@[simp] theorem State.takeUncached_mem (s : State) (id bs fail) : (s.takeUncached id bs fail).mem = s.mem := by
  unfold State.takeUncached
  grind [State.failReply_mem, State.finishLoad_mem]

theorem execUncachedAccess_wf {n} (h : MemoryWf s) (he : execUncachedAccess n s = .next r) : MemoryWf r := by
  unfold execUncachedAccess at he
  grind [→ State.take_mem, State.answerLoad_mem, State.takeUncached_mem, State.post_mem, homeWrite_wf,
    State.countAccess_mem]

@[simp] theorem failAtom_mem (s : State) (m a cause aux) : (failAtom s m a cause aux).mem = s.mem := by
  unfold failAtom
  grind [State.post_mem]

theorem dropAsk_wf {rs} (h : MemoryWf s) : MemoryWf (dropAsk s rs) := by
  unfold dropAsk
  grind [State.resumeTx_wf, State.modTx_mem]

theorem denyAtoms_wf {m rs own cause aux} (h : MemoryWf s) : MemoryWf (denyAtoms s m rs own cause aux) := by
  unfold denyAtoms
  grind +splitImp [failAtom_mem, dropAsk_wf, foldl_wf]

theorem grantAtoms_wf {m rs own} (h : MemoryWf s) : MemoryWf (grantAtoms s m rs own) := by
  unfold grantAtoms
  grind +splitImp [State.resumeTx_wf, State.modTx_mem, State.performAtom_wf, foldl_wf]

theorem execHostAtomic_wf {n} (h : MemoryWf s) (he : execHostAtomic n s = .next r) : MemoryWf r := by
  unfold execHostAtomic at he
  grind [→ State.take_mem, denyAtoms_wf, State.freeBit_mem, grantAtoms_wf]

theorem execHostSnoop_wf {pa excl} (h : MemoryWf s) (he : execHostSnoop pa excl s = .next r) : MemoryWf r := by
  unfold execHostSnoop at he
  grind [State.arrive_wf]

@[simp] theorem answerOutside_mem (s : State) (p pa n) : (answerOutside s p pa n).mem = s.mem := by
  unfold answerOutside
  grind [State.notify_mem]

theorem storeOutside_wf {p pa bs} (h : MemoryWf s) : MemoryWf (storeOutside s p pa bs) := by
  unfold storeOutside
  grind [State.notify_mem, homeWrite_wf]

theorem execHostAccess_wf {port pa size store} (h : MemoryWf s) (he : execHostAccess port pa size store s = .next r)
    : MemoryWf r := by
  unfold execHostAccess at he
  grind [storeOutside_wf, answerOutside_mem, State.post_mem, State.notify_mem]

theorem execPeerAccess_wf {port pa size store rmw} (h : MemoryWf s)
    (he : execPeerAccess port pa size store rmw s = .next r) : MemoryWf r := by
  unfold execPeerAccess at he
  grind [State.notify_mem, State.performAtom_wf, answerOutside_mem, homeWrite_wf]

/-! ### Links -/

theorem State.lostAtom_wf {m u a} (h : MemoryWf s) : MemoryWf (State.lostAtom m u s a) := by
  unfold State.lostAtom
  grind [State.freeBit_mem, State.homeWriteNat_wf, failAtom_mem]

theorem State.lostContribution_wf {m u c} (h : MemoryWf s) : MemoryWf (s.lostContribution m u c) := by
  unfold State.lostContribution
  grind [countOff_mem, State.orFull_wf, !endGrads_wf]

theorem State.loseItem_wf {u m} (h : MemoryWf s) : MemoryWf (State.loseItem u s m) := by
  unfold State.loseItem
  grind +splitImp [State.post_mem, State.lostAtom_wf, denyAtoms_wf, State.notify_mem, State.freeTicket_mem,
    State.lostContribution_wf, foldl_wf]

@[simp] theorem State.sever_mem (s : State) (c u hit) : (s.sever c u hit).mem = s.mem := by
  unfold State.sever
  grind +splitImp [State.loseWords_mem, State.dropL0_mem, State.modL1_mem, State.post_mem, State.l1Advance_mem,
    foldl_mem]

theorem State.resumeAll_wf (h : MemoryWf s) : MemoryWf s.resumeAll := by
  unfold State.resumeAll
  grind +splitImp [State.resumeTx_wf, foldl_wf]

@[simp] theorem State.endHold_mem (s : State) (u a) : (State.endHold u s a).mem = s.mem := by
  unfold State.endHold
  grind +splitImp [State.loseWords_mem, State.modTx_mem, failAtom_mem, foldl_mem]

theorem State.breakLink_wf {link} (h : MemoryWf s) : MemoryWf (s.breakLink link) := by
  unfold State.breakLink
  grind +splitImp [State.sever_mem, State.resumeAll_wf, State.endHold_mem, State.loseItem_wf, foldl_wf, foldl_mem]

theorem execLinkDown_wf {link} (h : MemoryWf s) (he : execLinkDown link s = .next r) : MemoryWf r := by
  unfold execLinkDown at he
  grind [systemEvent_wf, State.breakLink_wf]

/-! ### Package -/

theorem execPowerMeasurement_wf {watts10ms tempC} (h : MemoryWf s)
    (he : execPowerMeasurement watts10ms tempC s = .next r) : MemoryWf r := by
  unfold execPowerMeasurement at he
  grind [State.notify_mem]

theorem clearDies_wf {ds} (h : MemoryWf s) : MemoryWf (clearDies s ds) :=
  wf_filter h _

theorem execDieRelease_wf {d} (h : MemoryWf s) (he : execDieRelease d s = .next r) : MemoryWf r := by
  unfold execDieRelease at he
  grind [State.modDie_mem, clearDies_wf]

theorem execImageKeyEnrolment_wf {key} (h : MemoryWf s) (he : execImageKeyEnrolment key s = .next r) :
    MemoryWf r := by
  unfold execImageKeyEnrolment at he
  grind +splitImp [State.modDie_mem, foldl_wf]

theorem execI3cPrivateRead_wf (h : MemoryWf s) (he : execI3cPrivateRead s = .next r) : MemoryWf r := by
  unfold execI3cPrivateRead at he
  grind +splitImp [State.notify_mem, foldl_wf]

theorem execPartitionConfiguration_wf {parts hostPorts} (h : MemoryWf s)
    (he : execPartitionConfiguration parts hostPorts s = .next r) : MemoryWf r := by
  unfold execPartitionConfiguration at he
  grind

theorem execI3cAttestationRequest_wf {nonce dest} (h : MemoryWf s)
    (he : execI3cAttestationRequest nonce dest s = .next r) : MemoryWf r := by
  unfold execI3cAttestationRequest at he
  grind [State.modDie_mem]

theorem execCapabilityWord_wf {w} (h : MemoryWf s) (he : execCapabilityWord w s = .next r) : MemoryWf r := by
  unfold execCapabilityWord at he
  grind

theorem execRefreshManagementRequest_wf {die stack} (h : MemoryWf s)
    (he : execRefreshManagementRequest die stack s = .next r) : MemoryWf r :=
  Host.Outcome.next.inj he ▸ h

/-! ### Traps -/

theorem execReplyTrap_wf {g t} (h : MemoryWf s) (he : execReplyTrap g t s = .next r) : MemoryWf r := by
  unfold execReplyTrap at he
  grind [State.nestedTrap_wf, State.recordTrap_wf, State.doomAll_wf, State.trapWith_wf]

theorem writeUntold_wf {rcb} (h : MemoryWf s) : MemoryWf (writeUntold s rcb) := by
  unfold writeUntold
  grind +splitImp [!State.reportAt_wf, OkWf, foldl_wf]

theorem execTrapAreaTimeout_wf {rcb} (h : MemoryWf s) (he : execTrapAreaTimeout rcb s = .next r) : MemoryWf r := by
  unfold execTrapAreaTimeout at he
  grind [State.modRegion_mem, writeUntold_wf, State.abort_wf]

/-! ### Dispatch -/

/-- Every instruction, and every step of another agent, keeps the form of memory. -/
theorem exec_wf {i} (h : MemoryWf s) (he : exec i s = .next r) : MemoryWf r := by
  cases i with
  | add | sub | mul | mulhi | mad | div | rem | min | max | abs | neg | and | or | xor | andn | shl | shr | sar
    | popc | clz | ctz | brev | bfx | bfi | sel | mov =>
    exact putLanes_wf h he
  | fshl | fshr | addi | andi | ori | xori | shli | shri | sari | movi | lut3 | mread | voteBallot | dot4S8 =>
    exact regLanes_wf h he
  | sext | zext =>
    exact extend_wf h he
  | cmp | cmpi | voteAny | voteAll | plop | fcmp =>
    exact predLanes_wf h he
  | bara | baraTx =>
    exact arrive_wf h he
  | fadd | fsub | fmul | ffma | fmin | fmax | fabs | fneg | fclass | fround | fdiv | frcp | frsq | fsqrt |
    fexp2 | flog2 | fsin | fcos | i2f | hadd2F16 | hmul2F16 | hfma2F16 | hadd2Bf16 | hmul2Bf16 | hfma2Bf16 =>
    exact fpOne_wf h he
  | cvtTo | cvtFrom | pack | unpk | dot4 | prune =>
    exact fpLanes_wf h he
  | merge | mergeKz =>
    exact merge_wf h he
  | amdrain | amdrainAdd =>
    exact drain_wf h he
  | lea => exact execLea_wf h he
  | movhi => exact execMovhi_wf h he
  | addpc => exact execAddpc_wf h he
  | bra => exact execBra_wf h he
  | brc => exact execBrc_wf h he
  | brcNot => exact execBrcNot_wf h he
  | call => exact execCall_wf h he
  | jmpr => exact execJmpr_wf h he
  | callr => exact execCallr_wf h he
  | ret => exact execRet_wf h he
  | exit => exact execExit_wf h he
  | yield => exact execYield_wf h he
  | fork => exact execFork_wf h he
  | join => exact execJoin_wf h he
  | setwb => exact execSetwb_wf h he
  | setkb => exact execSetkb_wf h he
  | mjoin => exact execMjoin_wf h he
  | mleave => exact execMleave_wf h he
  | mwait => exact execMwait_wf h he
  | mwrite => exact execMwrite_wf h he
  | shflIdx => exact execShflIdx_wf h he
  | shflUp => exact execShflUp_wf h he
  | shflDown => exact execShflDown_wf h he
  | shflXor => exact execShflXor_wf h he
  | bmov => exact execBmov_wf h he
  | bfill => exact execBfill_wf h he
  | migr => exact execMigr_wf h he
  | ld => exact execLd_wf h he
  | st => exact execSt_wf h he
  | lds => exact execLds_wf h he
  | sts => exact execSts_wf h he
  | ldPointer => exact execLdPointer_wf h he
  | stPointer => exact execStPointer_wf h he
  | ldPf => exact execLdPf_wf h he
  | ldc => exact execLdc_wf h he
  | ldgs => exact execLdgs_wf h he
  | waitf => exact execWaitf_wf h he
  | sete => exact execSete_wf h he
  | acpy => exact execAcpy_wf h he
  | qjoin => exact execQjoin_wf h he
  | qwait => exact execQwait_wf h he
  | fence => exact execFence_wf h he
  | barw => exact execBarw_wf h he
  | msend => exact execMsend_wf h he
  | mrecv => exact execMrecv_wf h he
  | mfree => exact execMfree_wf h he
  | launch => exact execLaunch_wf h he
  | stitch => exact execStitch_wf h he
  | pfarm => exact execPfarm_wf h he
  | pfstop => exact execPfstop_wf h he
  | cflush => exact execCflush_wf h he
  | ldt => exact execLdt_wf h he
  | rdm => exact execRdm_wf h he
  | rdmSpm => exact execRdmSpm_wf h he
  | tkdrop => exact execTkdrop_wf h he
  | atom => exact execAtom_wf h he
  | atomSpm => exact execAtomSpm_wf h he
  | red => exact execRed_wf h he
  | redSpm => exact execRedSpm_wf h he
  | f2i => exact execF2i_wf h he
  | cdet => exact execCdet_wf h he
  | scanIncF32 => exact execScanIncF32_wf h he
  | scanExcF32 => exact execScanExcF32_wf h he
  | scanIncS32 => exact execScanIncS32_wf h he
  | scanExcS32 => exact execScanExcS32_wf h he
  | mma => exact execMma_wf h he
  | mmaR => exact execMmaR_wf h he
  | mmas => exact execMmas_wf h he
  | amalloc => exact execAmalloc_wf h he
  | amfree => exact execAmfree_wf h he
  | amshape => exact execAmshape_wf h he
  | amrd => exact execAmrd_wf h he
  | amwr => exact execAmwr_wf h he
  | amzero => exact execAmzero_wf h he
  | wbld => exact execWbld_wf h he
  | mq => exact execMq_wf h he
  | lrset => exact execLrset_wf h he
  | mqwait => exact execMqwait_wf h he
  | tex => exact execTex_wf h he
  | tld => exact execTld_wf h he
  | tgath => exact execTgath_wf h he
  | hgf => exact execHgf_wf h he
  | hgs => exact execHgs_wf h he
  | hgsDet => exact execHgsDet_wf h he
  | hgsfence => exact execHgsfence_wf h he
  | trav => exact execTrav_wf h he
  | rscb => exact execRscb_wf h he
  | rsce => exact execRsce_wf h he
  | pixout => exact execPixout_wf h he
  | csld => exact execCsld_wf h he
  | csrel => exact execCsrel_wf h he
  | csrr => exact execCsrr_wf h he
  | csrw => exact execCsrw_wf h he
  | svc => exact execSvc_wf h he
  | eret => exact execEret_wf h he
  | bkpt => exact execBkpt_wf h he
  | illegalOp => exact execIllegalOp_wf h he
  | replyTrap => exact execReplyTrap_wf h he
  | trapAreaTimeout => exact execTrapAreaTimeout_wf h he
  | register => exact execRegister_wf h he
  | retire => exact execRetire_wf h he
  | preempt => exact execPreempt_wf h he
  | shoot => exact execShoot_wf h he
  | image => exact execImage_wf h he
  | peer => exact execPeer_wf h he
  | launchCommand => exact execLaunchCommand_wf h he
  | attestationReportWritten => exact execAttestationReportWritten_wf h he
  | launchArrival => exact execLaunchArrival_wf h he
  | periodicReading => exact execPeriodicReading_wf h he
  | decrementReading => exact execDecrementReading_wf h he
  | blockPlacement => exact execBlockPlacement_wf h he
  | swarmBlockPlacement => exact execSwarmBlockPlacement_wf h he
  | restore => exact execRestore_wf h he
  | blockCompletion => exact execBlockCompletion_wf h he
  | preemptionCheck => exact execPreemptionCheck_wf h he
  | saveComplete => exact execSaveComplete_wf h he
  | flushComplete => exact execFlushComplete_wf h he
  | budgetHold => exact execBudgetHold_wf h he
  | retireSweep => exact execRetireSweep_wf h he
  | activeTimeout => exact execActiveTimeout_wf h he
  | groupReady => exact execGroupReady_wf h he
  | contextSwitch => exact execContextSwitch_wf h he
  | matrixTurn => exact execMatrixTurn_wf h he
  | quarterOperation => exact execQuarterOperation_wf h he
  | sequencerItem => exact execSequencerItem_wf h he
  | stwaitExpiry => exact execStwaitExpiry_wf h he
  | stitchedGroupStart => exact execStitchedGroupStart_wf h he
  | migrationMove => exact execMigrationMove_wf h he
  | pageWalk => exact execPageWalk_wf h he
  | shootdownComplete => exact execShootdownComplete_wf h he
  | kneaderEpochEnd => exact execKneaderEpochEnd_wf h he
  | pageMoveComplete => exact execPageMoveComplete_wf h he
  | pageMoveAbandon => exact execPageMoveAbandon_wf h he
  | copyEntry => exact execCopyEntry_wf h he
  | joinMarker => exact execJoinMarker_wf h he
  | multicastCredit => exact execMulticastCredit_wf h he
  | elementLanding => exact execElementLanding_wf h he
  | entryCompletion => exact execEntryCompletion_wf h he
  | prooferInstanceStart => exact execProoferInstanceStart_wf h he
  | prooferWatchdog => exact execProoferWatchdog_wf h he
  | wbLoaderEntry => exact execWbLoaderEntry_wf h he
  | ageSweep => exact execAgeSweep_wf h he
  | microcodeRequest => exact execMicrocodeRequest_wf h he
  | microcodeWatchdog => exact execMicrocodeWatchdog_wf h he
  | binStart => exact execBinStart_wf h he
  | primitive => exact execPrimitive_wf h he
  | pixelGroupStart => exact execPixelGroupStart_wf h he
  | pixelWrite => exact execPixelWrite_wf h he
  | sectionWatchdog => exact execSectionWatchdog_wf h he
  | dieRelease => exact execDieRelease_wf h he
  | gets => exact execGets_wf h he
  | geto => exact execGeto_wf h he
  | data => exact execData_wf h he
  | grant => exact execGrant_wf h he
  | inv => exact execInv_wf h he
  | iack => exact execIack_wf h he
  | recallMsg => exact execRecallMsg_wf h he
  | wb => exact execWb_wf h he
  | wback => exact execWback_wf h he
  | atomMessage => exact execAtomMessage_wf h he
  | atomr => exact execAtomr_wf h he
  | retry => exact execRetry_wf h he
  | storeFailure => exact execStoreFailure_wf h he
  | uncachedAccess => exact execUncachedAccess_wf h he
  | freeq => exact execFreeq_wf h he
  | seqCmdMma => exact execSeqCmdMma_wf h he
  | seqCmdAmzero => exact execSeqCmdAmzero_wf h he
  | seqCmdAmdrain => exact execSeqCmdAmdrain_wf h he
  | seqCmdAmdrainAdd => exact execSeqCmdAmdrainAdd_wf h he
  | draw => exact execDraw_wf h he
  | nonce => exact execNonce_wf h he
  | deviceRegisterWrite => exact execDeviceRegisterWrite_wf h he
  | hostAtomic => exact execHostAtomic_wf h he
  | ldtArrival => exact execLdtArrival_wf h he
  | ticketReturn => exact execTicketReturn_wf h he
  | redemption => exact execRedemption_wf h he
  | payloadDelivery => exact execPayloadDelivery_wf h he
  | messageArrival => exact execMessageArrival_wf h he
  | stitchRequestArrival => exact execStitchRequestArrival_wf h he
  | hgsContribution => exact execHgsContribution_wf h he
  | l1Eviction => exact execL1Eviction_wf h he
  | directoryEviction => exact execDirectoryEviction_wf h he
  | linkDown => exact execLinkDown_wf h he
  | uncorrectableError => exact execUncorrectableError_wf h he
  | correctedError => exact execCorrectedError_wf h he
  | powerMeasurement => exact execPowerMeasurement_wf h he
  | packageReset => exact packageReset_wf h he
  | i3cPrivateRead => exact execI3cPrivateRead_wf h he
  | partitionConfiguration => exact execPartitionConfiguration_wf h he
  | i3cAttestationRequest => exact execI3cAttestationRequest_wf h he
  | capabilityWord => exact execCapabilityWord_wf h he
  | hostSnoop => exact execHostSnoop_wf h he
  | hostAccess => exact execHostAccess_wf h he
  | peerAccess => exact execPeerAccess_wf h he
  | refreshManagementRequest die stack => exact execRefreshManagementRequest_wf (die := die) (stack := stack) h he
  | imageKeyEnrolment => exact execImageKeyEnrolment_wf h he

/-! ### Policy -/

@[simp] theorem State.restPart_mem (s : State) (k) : (s.restPart k).mem = s.mem := by
  unfold State.restPart
  grind +splitImp [State.leaveActive_mem, foldl_mem]

@[simp] theorem giveUpCore_mem (s s' : State) (g i) : (giveUpCore s s' g i).mem = s'.mem := by
  unfold giveUpCore
  grind [State.modCore_mem]

theorem runIssued_wf {r} (h : MemoryWf s) (he : runIssued r s = .next s') : MemoryWf s' := by
  unfold runIssued at he
  grind [→ exec_wf, giveUpCore_mem, State.trapReserved_wf]

@[simp] theorem goOn_mem (s : State) (a) : (goOn s a).mem = s.mem :=
  State.modGroup_mem ..

theorem afterCount_wf {d rcb o} (ho : ∀ s, o = .next s → MemoryWf s) (he : afterCount d rcb o = .next r) :
    MemoryWf r := by
  unfold afterCount at he
  grind [State.counted_wf, goOn_mem]

theorem issueThread_wf {g t0} (h : MemoryWf s) (he : issueThread s g t0 = .next r) : MemoryWf r := by
  unfold issueThread at he
  grind +splitImp [State.fetchFails_wf, !State.fetch_wf, → afterCount_wf, → runIssued_wf, State.setIssue_mem,
    State.countIssue_mem, Fetched.Wf, foldl_wf]

theorem issueGroup_wf {g} (h : MemoryWf s) (he : issueGroup s g = .next r) : MemoryWf r := by
  unfold issueGroup at he
  grind [→ exec_wf, → issueThread_wf]

theorem afterIssue_wf {u o} (ho : ∀ s, o = .next s → MemoryWf s) (he : afterIssue u o = .next r) : MemoryWf r := by
  unfold afterIssue at he
  grind [State.restPart_mem]

theorem firstChange_wf {l} (hl : ∀ f ∈ l, ∀ r, f s = .next r → MemoryWf r) (h : MemoryWf s)
    (he : firstChange s l = .next r) : MemoryWf r := by
  induction l with
  | nil => cases he; exact h
  | cons f l ih =>
    rw [firstChange] at he
    split at he
    · split at he
      · exact ih (fun f hf => hl f (List.mem_cons_of_mem _ hf)) he
      · cases he
        exact hl f List.mem_cons_self _ ‹_›
    · exact hl f List.mem_cons_self _ he

/-- The arrival of a message keeps it, whichever step its body calls for. -/
theorem runArrival_wf {n} (h : MemoryWf s) (he : runArrival s n = .next r) : MemoryWf r := by
  unfold runArrival at he
  split at he
  · cases he
    exact h
  split at he
  · exact execGets_wf h he
  · exact execGeto_wf h he
  · exact execData_wf h he
  · exact execData_wf h he
  · exact execGrant_wf h he
  · exact execInv_wf h he
  · exact execIack_wf h he
  · exact execRecallMsg_wf h he
  · exact execWb_wf h he
  · exact execWback_wf h he
  · exact execAtomMessage_wf h he
  · exact execAtomr_wf h he
  · exact execRetry_wf h he
  · exact execStoreFailure_wf h he
  · exact execUncachedAccess_wf h he
  · exact execUncachedAccess_wf h he
  · refine firstChange_wf ?_ h he
    simp only [List.forall_mem_cons]
    exact ⟨fun _ => execFreeq_wf h, fun _ => execSeqCmdMma_wf h, fun _ => execSeqCmdAmzero_wf h,
      fun _ => execSeqCmdAmdrain_wf h, fun _ => execSeqCmdAmdrainAdd_wf h, fun _ => execDraw_wf h,
      fun _ => execNonce_wf h, fun _ => execDeviceRegisterWrite_wf h, fun _ => execUncachedAccess_wf h, by simp⟩
  · exact execHostAtomic_wf h he
  · exact execLdtArrival_wf h he
  · exact execTicketReturn_wf h he
  · exact execRedemption_wf h he
  · exact execPayloadDelivery_wf h he
  · exact execMessageArrival_wf h he
  · exact execStitchRequestArrival_wf h he
  · exact execHgsContribution_wf h he

theorem runAct_wf {a} (h : MemoryWf s) (he : runAct s a = .next r) : MemoryWf r := by
  unfold runAct at he
  grind [→ runArrival_wf, → exec_wf, → afterIssue_wf, → issueGroup_wf]

theorem stoppedTurn_wf (h : MemoryWf s) (he : stoppedTurn s = .next r) : MemoryWf r := by
  unfold stoppedTurn at he
  split at he
  · exact exec_wf (by exact h) he
  · cases he

theorem takeTurn_wf {l} (h : MemoryWf s) (he : takeTurn s l = .next r) : MemoryWf r := by
  cases l with
  | nil => cases he; exact h
  | cons turn rest => exact runAct_wf (by exact h) he

/-! ### Step -/

theorem step_wf (h : MemoryWf s) (he : step s = .next r) : MemoryWf r := by
  unfold step at he
  grind [→ stoppedTurn_wf, → takeTurn_wf]

/-- Settles O59: a step is the first of its turns, and every act of a turn keeps the form. -/
theorem stepKeepsMemoryWf : Obligations.StepKeepsMemoryWf :=
  fun _ _ h he => step_wf h he

end Sys2Proof.Machine

/-! SUPPORT and PROOFS. The frame of a store that an L1 takes (R21, R102, R106, R217): what the work of one cluster's L1
leaves alone, what its bytes are after the store, and what the storing thread keeps. -/

namespace Sys2Proof.Machine

/-! ### Bytes of a word -/

/-- Byte i of a word. -/
def byteAt (w : Word) (i : Nat) : Byte := BitVec.ofNat 8 (w.toNat / 2 ^ (8 * i))

theorem getLsbD_byteAt (w : Word) (i j : Nat) : (byteAt w i).getLsbD j = (decide (j < 8) && w.getLsbD (8 * i + j)) := by
  rw [byteAt, BitVec.getLsbD_ofNat, Nat.testBit_div_two_pow, Nat.add_comm]
  rfl

/-- A number put together from chosen bits holds the chosen ones. -/
theorem getLsbD_foldl_bits (p : Nat → Bool) {i : Nat} (h : i < 4) :
    (BitVec.ofNat 4 ((upTo 4).foldl (fun a i => if p i then a + 2 ^ i else a) 0)).getLsbD i = p i := by
  have hu : upTo 4 = [0, 1, 2, 3] := rfl
  simp only [hu, List.foldl_cons, List.foldl_nil]
  obtain rfl | rfl | rfl | rfl : i = 0 ∨ i = 1 ∨ i = 2 ∨ i = 3 := by omega
  all_goals
    generalize p 0 = b0, p 1 = b1, p 2 = b2, p 3 = b3
    revert b0 b1 b2 b3
    decide

/-- Bit i of a byte mask says that the access covers byte i of the word. -/
theorem getLsbD_byteMask (pa n wa : Nat) {i : Nat} (h : i < 4) :
    (byteMask pa n wa).getLsbD i = (pa ≤ wa + i && wa + i < pa + n) :=
  getLsbD_foldl_bits (fun i => pa ≤ wa + i && wa + i < pa + n) h

/-- The mask of byte k of a word covers that byte alone. -/
theorem getLsbD_byteOnes : ∀ i < 4, ∀ k < 4, ∀ j < 8,
    (BitVec.ofNat 32 (0xFF * 2 ^ (8 * k))).getLsbD (8 * i + j) = decide (i = k) := by decide

/-- Byte k of a word replaced. -/
theorem byteAt_replace (new old : Word) {i k : Nat} (hi : i < 4) (hk : k < 4) :
    byteAt ((old &&& ~~~BitVec.ofNat 32 (0xFF * 2 ^ (8 * k))) ||| (new &&& BitVec.ofNat 32 (0xFF * 2 ^ (8 * k)))) i
      = if i = k then byteAt new i else byteAt old i := by
  apply BitVec.eq_of_getLsbD_eq
  intro j hj
  have hb : 8 * i + j < 32 := by omega
  rw [getLsbD_byteAt, BitVec.getLsbD_or, BitVec.getLsbD_and, BitVec.getLsbD_and, BitVec.getLsbD_not,
    getLsbD_byteOnes i hi k hk j hj]
  by_cases e : i = k
  · rw [if_pos e, decide_eq_true e, getLsbD_byteAt]
    simp
  · rw [if_neg e, decide_eq_false e, getLsbD_byteAt]
    simp [hb]

/-- A masked byte of a merged word is the new one's, another the old one's. -/
theorem byteAt_mergeBytes (m : BitVec 4) (new old : Word) {i : Nat} (h : i < 4) :
    byteAt (mergeBytes m new old) i = if m.getLsbD i then byteAt new i else byteAt old i := by
  have hu : upTo 4 = [0, 1, 2, 3] := rfl
  simp only [mergeBytes, hu, List.foldl_cons, List.foldl_nil, apply_ite (byteAt · i)]
  simp only [byteAt_replace _ _ h (show 0 < 4 by omega), byteAt_replace _ _ h (show 1 < 4 by omega),
    byteAt_replace _ _ h (show 2 < 4 by omega), byteAt_replace _ _ h (show 3 < 4 by omega),
     apply_ite (byteAt · i)]
  obtain rfl | rfl | rfl | rfl : i = 0 ∨ i = 1 ∨ i = 2 ∨ i = 3 := by omega
  all_goals simp

/-- A byte of the word that four bytes make. -/
theorem byteAt_ofBytes (f : Nat → Byte) {i : Nat} (h : i < 4) :
    byteAt (BitVec.ofNat 32 (ofBytes ((upTo 4).map f))) i = f i := by
  have hu : upTo 4 = [0, 1, 2, 3] := rfl
  apply BitVec.eq_of_toNat_eq
  simp only [byteAt, hu, List.map_cons, List.map_nil, ofBytes, BitVec.toNat_ofNat]
  have h0 := (f 0).isLt
  have h1 := (f 1).isLt
  have h2 := (f 2).isLt
  have h3 := (f 3).isLt
  obtain rfl | rfl | rfl | rfl : i = 0 ∨ i = 1 ∨ i = 2 ∨ i = 3 := by omega
  all_goals omega

/-- A byte of the word that an access gives. -/
theorem byteAt_wordFrom {pa wa i : Nat} (bs : List Byte) (h : i < 4) (hp : pa ≤ wa + i) :
    byteAt (wordFrom pa bs wa) i = bs.getD (wa + i - pa) 0 := by
  rw [wordFrom, byteAt_ofBytes _ h, if_pos hp]

/-! ### What the work of one L1 leaves alone -/

/-- s' differs from s in the L1 of cluster c, in L0s, in the messages on their way and in the engines' old copies at
most. -/
def OnlyAt (c : Nat) (s s' : State) : Prop :=
  (∃ l1s cores flight engines, s' = { s with l1s := l1s, cores := cores, flight := flight, engines := engines })
    ∧ ∀ c', c' ≠ c → s'.l1 c' = s.l1 c'

namespace OnlyAt

variable {c : Nat} {s s' s'' : State}

theorem refl (c : Nat) (s : State) : OnlyAt c s s := ⟨⟨_, _, _, _, rfl⟩, fun _ _ => rfl⟩

theorem trans (h : OnlyAt c s s') (h' : OnlyAt c s' s'') : OnlyAt c s s'' := by
  obtain ⟨⟨_, _, _, _, rfl⟩, hl⟩ := h
  obtain ⟨⟨_, _, _, _, rfl⟩, hl'⟩ := h'
  exact ⟨⟨_, _, _, _, rfl⟩, fun c' hc => (hl' c' hc).trans (hl c' hc)⟩

theorem foldl {α : Type} {f : State → α → State} (hf : ∀ s a, OnlyAt c s (f s a)) (l : List α) (s : State) :
    OnlyAt c s (l.foldl f s) := by
  induction l generalizing s with
  | nil => exact refl c s
  | cons a l ih => exact (hf s a).trans (ih _)

theorem ite {p : Prop} [Decidable p] (h : OnlyAt c s s') (h' : OnlyAt c s s'') :
    OnlyAt c s (if p then s' else s'') := by
  split
  · exact h
  · exact h'

theorem l1_ne (h : OnlyAt c s s') {c' : Nat} (hc : c' ≠ c) : s'.l1 c' = s.l1 c' := h.2 c' hc

theorem mem (h : OnlyAt c s s') : s'.mem = s.mem := by obtain ⟨⟨_, _, _, _, rfl⟩, _⟩ := h; rfl
theorem blocks (h : OnlyAt c s s') : s'.blocks = s.blocks := by obtain ⟨⟨_, _, _, _, rfl⟩, _⟩ := h; rfl
theorem groups (h : OnlyAt c s s') : s'.groups = s.groups := by obtain ⟨⟨_, _, _, _, rfl⟩, _⟩ := h; rfl
theorem iss (h : OnlyAt c s s') : s'.iss = s.iss := by obtain ⟨⟨_, _, _, _, rfl⟩, _⟩ := h; rfl

end OnlyAt

namespace State

theorem onlyAt_modL1 (s : State) (c : Nat) (f : L1 → L1) : OnlyAt c s (s.modL1 c f) :=
  ⟨⟨_, _, _, _, rfl⟩, fun c' hc => by simp only [l1, modL1, lmod, lgetD, lget_lput_ne hc]⟩

theorem onlyAt_dropL0 (s : State) (c k : Nat) (ws : List Nat) : OnlyAt c s (s.dropL0 k ws) :=
  ⟨⟨_, _, _, _, rfl⟩, fun _ _ => rfl⟩

theorem onlyAt_noteOld (s : State) (c : Nat) (ws : List Nat) : OnlyAt c s (s.noteOld ws) :=
  ⟨⟨_, _, _, _, rfl⟩, fun _ _ => rfl⟩

theorem onlyAt_post (s : State) (c chan src dst : Nat) (b : Body) : OnlyAt c s (s.post chan src dst b) :=
  ⟨⟨_, _, _, _, rfl⟩, fun _ _ => rfl⟩

theorem onlyAt_toHome (s : State) (c k line : Nat) (b : Body) (failed : Nat → Body) :
    OnlyAt c s (s.toHome k line b failed) := by
  unfold toHome
  dsimp only
  split
  · exact onlyAt_post ..
  · exact onlyAt_post ..

theorem onlyAt_sendGeto (s : State) (c line : Nat) (ws : List Nat) (rel : Bool) (rcb : Nat) :
    OnlyAt c s (s.sendGeto c line ws rel rcb) :=
  .ite (.refl c s) ((onlyAt_modL1 ..).trans (onlyAt_toHome ..))

theorem onlyAt_sendWb (s : State) (c : Nat) (ws : List Nat) : OnlyAt c s (s.sendWb c ws) := by
  refine .foldl (fun s wa => .ite ?_ (.refl c s)) ws s
  exact ((onlyAt_modL1 ..).trans (onlyAt_dropL0 ..)).trans (onlyAt_toHome ..)

theorem onlyAt_giveUp (s : State) (c wa : Nat) (keep : Bool) : OnlyAt c s (s.giveUp c wa keep) :=
  ((onlyAt_modL1 ..).trans (.ite (.refl c _) (onlyAt_dropL0 ..))).trans (onlyAt_toHome ..)

theorem onlyAt_startHand (s : State) (c wa : Nat) (keep : Bool) : OnlyAt c s (s.startHand c wa keep) :=
  .ite (.refl c s) (onlyAt_modL1 ..)

theorem onlyAt_startOlder (s : State) (c : Nat) : OnlyAt c s (s.startOlder c) :=
  .foldl (fun s _ => onlyAt_startHand s ..) _ s

theorem onlyAt_stepHand (s : State) (c : Nat) (h : HandOver) : OnlyAt c s (s.stepHand c h) :=
  .ite (.ite ((onlyAt_modL1 ..).trans (onlyAt_giveUp ..)) (onlyAt_sendWb ..)) (.refl c s)

theorem onlyAt_stepDrain (s : State) (c e : Nat) : OnlyAt c s (s.stepDrain c e) :=
  .ite (.ite (onlyAt_modL1 ..) ((onlyAt_sendWb ..).trans (.foldl (fun s _ => onlyAt_startHand s ..) _ _))) (.refl c s)

theorem onlyAt_stepReleases (s : State) (c : Nat) : OnlyAt c s (s.stepReleases c) := by
  refine .foldl (fun s r => .ite ?_ (.refl c s)) _ s
  dsimp only
  split
  · exact (onlyAt_modL1 ..).trans (onlyAt_sendGeto ..)
  · exact onlyAt_modL1 ..

theorem onlyAt_l1Advance (s : State) (c : Nat) : OnlyAt c s (s.l1Advance c) :=
  (onlyAt_stepReleases s c).trans <| .trans (.foldl (fun s e => onlyAt_stepDrain s c e) _ _) <|
    (onlyAt_startOlder _ c).trans (.foldl (fun s h => onlyAt_stepHand s c h) _ _)

theorem onlyAt_evictL1 (s : State) (c line : Nat) : OnlyAt c s (s.evictL1 c line) :=
  (onlyAt_modL1 s c _).trans <| (onlyAt_sendWb _ c _).trans <|
    .trans (.foldl (fun s _ => onlyAt_startHand s ..) _ _) (onlyAt_l1Advance _ c)

theorem onlyAt_l1Room (s : State) (c line : Nat) : OnlyAt c s (s.l1Room c line).1 := by
  unfold l1Room
  dsimp only
  split
  · exact .refl c s
  split
  · exact .refl c s
  split
  · exact .refl c s
  · dsimp only
    exact onlyAt_evictL1 ..

end State

/-! ### Bytes of an L1 after a store -/

theorem wordsIn_nodup (pa n : Nat) : (wordsIn pa n).Nodup := by
  unfold wordsIn
  split
  · exact List.nodup_nil
  · exact List.nodup_range.map fun i j h => by omega

/-- The word of a byte of an access is one of the words that the access touches. -/
theorem mem_wordsIn {pa n b : Nat} (h : pa ≤ b) (h' : b < pa + n) : b / 4 * 4 ∈ wordsIn pa n := by
  rw [wordsIn, if_neg (by omega), List.mem_map]
  exact ⟨b / 4 - pa / 4, List.mem_range.2 (by omega), by omega⟩

theorem bytesOf_length (ws : List Word) : (bytesOf ws).length = 4 * ws.length := by
  induction ws with
  | nil => rfl
  | cons w r ih =>
    have hw : (toBytes 4 w.toNat).length = 4 := rfl
    have he : bytesOf (w :: r) = toBytes 4 w.toNat ++ bytesOf r := rfl
    rw [he, List.length_append, ih, hw, List.length_cons]
    omega

@[simp] theorem storeBytes_length (s : State) (t : Nat) (d : Field) (sz : Size) :
    (storeBytes s t d sz).length = sz.bytes := by
  have hl : (s.run t d sz.regs).length = sz.regs := by simp [State.run, upTo]
  rw [storeBytes, List.length_take, bytesOf_length, hl]
  cases sz <;> rfl

/-- A word of an L1's list after a store of bytes to it. -/
def putStored (e pa : Nat) (bs : List Byte) (words : List (Nat × L1Word)) (wa : Nat) : List (Nat × L1Word) :=
  lput wa (State.storeWord e pa bs wa (lgetD wa words {})) words

/-- The words that a store touches are written once each, and no other word is. -/
theorem lgetD_foldl_putStored (e pa : Nat) (bs : List Byte) (k : Nat) {ws : List Nat} (hn : ws.Nodup)
    (words : List (Nat × L1Word)) : lgetD k (ws.foldl (putStored e pa bs) words) {} =
      if k ∈ ws then State.storeWord e pa bs k (lgetD k words {}) else lgetD k words {} := by
  induction ws generalizing words with
  | nil => rfl
  | cons wa r ih =>
    obtain ⟨hw, hr⟩ := List.nodup_cons.1 hn
    rw [List.foldl_cons, ih hr]
    by_cases hk : k = wa
    · subst hk
      rw [if_neg hw, if_pos List.mem_cons_self]
      simp only [putStored, lgetD, lget_lput_self, Option.getD_some]
    · have hput : lgetD k (putStored e pa bs words wa) {} = lgetD k words {} := by
        simp only [putStored, lgetD, lget_lput_ne hk]
      simp only [hput, List.mem_cons, hk, false_or]

/-- A byte of a word after a store: the stored one where the store covers it, or the one before. -/
theorem byteAt_storeWord (e pa : Nat) (bs : List Byte) (w : L1Word) (b : Nat) :
    byteAt (State.storeWord e pa bs (b / 4 * 4) w).val (b % 4) =
      if pa ≤ b ∧ b < pa + bs.length then bs.getD (b - pa) 0 else byteAt w.val (b % 4) := by
  have hi : b % 4 < 4 := Nat.mod_lt _ (by omega)
  have hb : b / 4 * 4 + b % 4 = b := by omega
  rw [State.storeWord, byteAt_mergeBytes _ _ _ hi, getLsbD_byteMask _ _ _ hi, hb]
  by_cases h : pa ≤ b ∧ b < pa + bs.length
  · rw [if_pos h, if_pos (by simpa using h), byteAt_wordFrom _ hi (by omega), hb]
  · rw [if_neg h, if_neg (by simpa using h)]

/-- The same in the L1's list. -/
theorem byteAt_foldl_putStored (e pa : Nat) (bs : List Byte) (words : List (Nat × L1Word)) (b : Nat) :
    byteAt (lgetD (b / 4 * 4) ((wordsIn pa bs.length).foldl (putStored e pa bs) words) {}).val (b % 4) =
      if pa ≤ b ∧ b < pa + bs.length then bs.getD (b - pa) 0
      else byteAt (lgetD (b / 4 * 4) words {}).val (b % 4) := by
  rw [lgetD_foldl_putStored _ _ _ _ (wordsIn_nodup ..)]
  by_cases hw : b / 4 * 4 ∈ wordsIn pa bs.length
  · rw [if_pos hw, byteAt_storeWord]
  · rw [if_neg hw, if_neg fun h => hw (mem_wordsIn h.1 h.2)]

namespace State

theorem l1_modL1_self (s : State) (c : Nat) (f : L1 → L1) : (s.modL1 c f).l1 c = f (s.l1 c) := by
  simp only [l1, modL1, lmod, lgetD, lget_lput_self, Option.getD_some]

/-- GETO for words leaves what the L1 holds of them. -/
theorem sendGeto_words (s : State) (c line : Nat) (ws : List Nat) (rel : Bool) (rcb : Nat) :
    ((s.sendGeto c line ws rel rcb).l1 c).words = (s.l1 c).words := by
  have hh (s : State) (b failed) : (s.toHome c line b failed).l1 c = s.l1 c := by
    unfold toHome
    dsimp only
    split <;> rfl
  unfold sendGeto
  split
  · rfl
  · rw [hh, l1_modL1_self]

/-- A relaxed store that an L1 takes has room there, and writes its own words alone (R102). -/
theorem storeL1_ok {s s2 : State} {c pa : Nat} {bs : List Byte} {who : Owner} (h : s.storeL1 c pa bs who = .ok s2) :
    OnlyAt c s s2 ∧ (s2.l1 c).words =
      (wordsIn pa bs.length).foldl (putStored (s.l1 c).epoch pa bs) ((s.l1Room c (lineOf pa)).1.l1 c).words := by
  have hroom := onlyAt_l1Room s c (lineOf pa)
  unfold storeL1 at h
  extract_lets ws line l lacking entry pairs split_ at h
  iterate 7
    split at h
    · cases h
  split at h
  · cases h
  · rename_i u hu
    rw [hu] at hroom ⊢
    dsimp only [Bool.false_eq_true, if_false] at h
    cases h
    refine ⟨hroom.trans ?_, ?_⟩
    · exact (onlyAt_noteOld u c ws).trans <| (onlyAt_dropL0 _ c c ws).trans <|
        (onlyAt_modL1 _ c _).trans (onlyAt_sendGeto _ c _ _ _ _)
    · rw [sendGeto_words, l1_modL1_self]
      rfl

/-- What a byte of an L1 is after a relaxed store that it takes. -/
theorem byteAt_storeL1 {s s2 : State} {c pa : Nat} {bs : List Byte} {who : Owner}
    (h : s.storeL1 c pa bs who = .ok s2) (b : Nat) : byteAt (s2.l1Word c (b / 4 * 4)).val (b % 4) =
      if pa ≤ b ∧ b < pa + bs.length then bs.getD (b - pa) 0
      else byteAt ((s.l1Room c (lineOf pa)).1.l1Word c (b / 4 * 4)).val (b % 4) := by
  unfold l1Word
  rw [(storeL1_ok h).2, byteAt_foldl_putStored]

/-- The bytes of an L1, one by one. -/
theorem l1Bytes_eq (s : State) (c pa n : Nat) :
    s.l1Bytes c pa n = (upTo n).map fun i => byteAt (s.l1Word c ((pa + i) / 4 * 4)).val ((pa + i) % 4) := rfl

/-- The bytes that a store wrote. -/
theorem l1Bytes_storeL1 {s s2 : State} {c pa : Nat} {bs : List Byte} {who : Owner}
    (h : s.storeL1 c pa bs who = .ok s2) : s2.l1Bytes c pa bs.length = bs := by
  rw [l1Bytes_eq]
  refine List.ext_getElem (by simp [upTo]) fun i hi hi' => ?_
  simp only [upTo, List.getElem_map, List.getElem_range, byteAt_storeL1 h]
  rw [if_pos (by omega), Nat.add_sub_cancel_left, List.getD_eq_getElem _ _ hi']

/-- A byte that a store did not write. -/
theorem l1Bytes_storeL1_out {s s2 : State} {c pa b : Nat} {bs : List Byte} {who : Owner}
    (h : s.storeL1 c pa bs who = .ok s2) (hb : b < pa ∨ pa + bs.length ≤ b) :
    s2.l1Bytes c b 1 = (s.l1Room c (lineOf pa)).1.l1Bytes c b 1 := by
  have hu : upTo 1 = [0] := rfl
  simp only [l1Bytes_eq, hu, List.map_cons, List.map_nil, Nat.add_zero, byteAt_storeL1 h]
  rw [if_neg (by omega)]

/-! ### A relaxed store of a lone thread -/

theorem onlyAt_throughL0 (s0 s : State) (c g pa n : Nat) : OnlyAt c s (throughL0 s0 s g pa n) := by
  unfold throughL0
  split
  · exact ⟨⟨_, _, _, _, rfl⟩, fun _ _ => rfl⟩
  · exact .refl c s

theorem throughL0_l1s (s0 s : State) (g pa n : Nat) : (throughL0 s0 s g pa n).l1s = s.l1s := by
  unfold throughL0
  split <;> rfl

/-- An L1 holds the same bytes where the L1s are the same. -/
theorem l1Bytes_congr {s s' : State} (h : s'.l1s = s.l1s) (c pa n : Nat) : s'.l1Bytes c pa n = s.l1Bytes c pa n := by
  unfold l1Bytes l1Word l1
  rw [h]

/-- A relaxed store to a cached page is the L1's store. -/
theorem storeAt_rlx {s s2 : State} {t pa mt : Nat} {bs : List Byte} {scope : Scope} {eager : Option Nat}
    (hr : s.reading s.iss.g t = false) (hm : mt ≠ 1) (hd : s.isRemote s.cur.kind.die pa = false)
    (ha : s.atomOn s.iss.g t pa bs.length = false) (hp : s.portBusy s.cur.kind.port pa = false)
    (hs : (s.noteUnfenced t s.cur.kind.cluster pa bs.length).storeL1 s.cur.kind.cluster pa bs (s.who t) = .ok s2) :
    s.storeAt t pa mt bs { ord := .rlx, scope := scope } eager = .ok (throughL0 s s2 s.iss.g pa bs.length) := by
  unfold cur at hd hp hs
  unfold storeAt
  simp [hr, hm, hd, ha, hp, hs]

/-- Threads read the same where groups and what issues are the same. -/
theorem th_congr {s s' : State} (hg : s'.groups = s.groups) (hi : s'.iss = s.iss) (t : Nat) : s'.th t = s.th t := by
  unfold th thread group
  rw [hg, hi]

end State

theorem misaligned_none {a n : Nat} (h : a % n = 0) : misaligned a n = none := by
  unfold misaligned
  rw [if_neg]
  exact fun hn => hn (by exact_mod_cast h)

namespace State

/-- A translation that a lone thread's instruction begins with leaves the group's core where it was. -/
theorem cur_kind_translate {s s1 : State} {t va acc pa mt : Nat}
    (h : (s.advance t).translate s.iss.g t va acc = .ok s1 pa mt) : s1.cur.kind = s.cur.kind := by
  obtain ⟨hg, hi, -⟩ := translate_groups h
  unfold cur
  rw [hi, advance_iss, group_congr hg, advance_kind]

@[simp] theorem settle_iss (s : State) (t : Nat) : (s.settle t).iss = s.iss := by rw [settle_only]
@[simp] theorem settle_l1s (s : State) (t : Nat) : (s.settle t).l1s = s.l1s := by rw [settle_only]
@[simp] theorem settle_blocks (s : State) (t : Nat) : (s.settle t).blocks = s.blocks := by rw [settle_only]
@[simp] theorem noteUnfenced_iss (s : State) (t c pa n : Nat) : (s.noteUnfenced t c pa n).iss = s.iss := by
  rw [noteUnfenced_only]
@[simp] theorem noteUnfenced_l1s (s : State) (t c pa n : Nat) : (s.noteUnfenced t c pa n).l1s = s.l1s := by
  rw [noteUnfenced_only]
@[simp] theorem noteUnfenced_blocks (s : State) (t c pa n : Nat) : (s.noteUnfenced t c pa n).blocks = s.blocks := by
  rw [noteUnfenced_only]

/-- An L1 reads the same where the L1s are the same. -/
theorem l1_congr {s s' : State} (h : s'.l1s = s.l1s) (c : Nat) : s'.l1 c = s.l1 c := by
  unfold l1
  rw [h]

/-- The program counter of a thread that has moved on. -/
theorem th_advance_pc {s : State} {t : Nat} (h : s.hasThread s.iss.g t = true) :
    ((s.advance t).th t).pc = s.iss.npc := by
  unfold th
  rw [advance_iss]
  exact congrArg Thread.pc (thread_modThread_self (hasThread_lt h) _)

/-- A part of the thread that has nothing to do with its progress, its waits and its stores to be fenced, through a
store that an L1 takes. -/
theorem th_stored_part {α : Type} (p : Thread → α) (hu : ∀ h u, p { h with undo := u } = p h)
    (hn : ∀ h a b, p { h with unfenced := a, uncopied := b } = p h) {s1 s2 s3 : State} {t c pa n : Nat}
    (h2 : OnlyAt c (s1.noteUnfenced t c pa n) s2) (h3 : OnlyAt c s2 s3) : p ((s3.settle t).th t) = p (s1.th t) := by
  have h := h2.trans h3
  calc p ((s3.settle t).th t)
      = p (s3.th t) := by
        unfold th
        rw [settle_iss]
        exact thread_modThread_part p (fun h => hu h _) _ _ _ _ _
    _ = p ((s1.noteUnfenced t c pa n).th t) := by rw [th_congr h.groups h.iss]
    _ = p (s1.th t) := by
        unfold th
        rw [noteUnfenced_iss]
        exact thread_modThread_part p (fun h => hn h _ _) _ _ _ _ _

end State

theorem Alone.execSt_rlx {s s1 s2 : State} {t pa mt : Nat} {d a : Field} {off : BitVec 34} {sz : Size} {scope : Scope}
    (h : Alone (.st { ord := .rlx, scope := scope } d a off sz) s t)
    (hva : s.globalAddr t a sz.bytes off % sz.bytes = 0)
    (hx : (s.advance t).translate s.iss.g t (s.globalAddr t a sz.bytes off) 1 = .ok s1 pa mt)
    (hs : s1.storeAt t pa mt (storeBytes s t d sz) { ord := .rlx, scope := scope } (fencedOn s t) = .ok s2) :
    exec (.st { ord := .rlx, scope := scope } d a off sz) s = .next (s2.settle t) := by
  refine runLanes_alone_ok h ?_
  unfold storeGlobal
  rw [storeBytes_length, misaligned_none hva, State.advance_iss, Int.toNat_natCast, hx]
  exact hs

/-- Settles O25: the store is the L1's store, which writes its own bytes of its own cluster. -/
theorem storedBytes : Obligations.StoredBytes := by
  intro s s1 s2 t d a off sz scope pa mt i k c size va hal hva _ hx hr hm hd ha hp hs ht
  obtain ⟨hgroups, hiss, hblocks, -⟩ := State.translate_groups hx
  rw [State.advance_iss] at hiss
  have hkind := State.cur_kind_translate hx
  have hlen : (storeBytes s t d sz).length = size := storeBytes_length s t d sz
  rw [← hiss] at hr ha
  have hstore := State.storeAt_rlx (scope := scope) (eager := fencedOn s t) hr hm (hkind ▸ hd) (hlen ▸ ha)
    (hkind ▸ hp) (by rw [hkind, hlen]; exact hs)
  obtain ⟨h2, -⟩ := State.storeL1_ok hs
  rw [hlen] at hstore
  have h3 := State.onlyAt_throughL0 s1 s2 c s1.iss.g pa size
  have hl1s := State.throughL0_l1s s1 s2 s1.iss.g pa size
  generalize State.throughL0 s1 s2 s1.iss.g pa size = s3 at hstore h3 hl1s
  have h := h2.trans h3
  have hth : s1.th t = (s.advance t).th t := State.th_congr hgroups (hiss.trans (State.advance_iss s t).symm) t
  have hpart {α : Type} (p : Thread → α) (hu : ∀ h u, p { h with undo := u } = p h)
      (hn : ∀ h a b, p { h with unfenced := a, uncopied := b } = p h) :
      p ((s3.settle t).th t) = p ((s.advance t).th t) :=
    (State.th_stored_part p hu hn h2 h3).trans (congrArg p hth)
  have hkept {α : Type} (p : Thread → α) (hu : ∀ h u, p { h with undo := u } = p h)
      (hn : ∀ h a b, p { h with unfenced := a, uncopied := b } = p h)
      (hw : ∀ h pc w, p { h with pc := pc, wait := w } = p h) : p ((s3.settle t).th t) = p (s.th t) := by
    rw [hpart p hu hn, State.th, State.advance_iss]
    exact State.thread_advance_part p hw ..
  have hl1s : (s3.settle t).l1s = s2.l1s := (State.settle_l1s s3 t).trans hl1s
  refine ⟨s3.settle t, hal.execSt_rlx hva hx hstore, ?_, fun b hb => ?_, fun c' hc => ?_, ?_, ?_,
    hkept _ ?_ ?_ ?_, hkept _ ?_ ?_ ?_, hkept _ ?_ ?_ ?_, hkept _ ?_ ?_ ?_, hkept _ ?_ ?_ ?_,
    (hpart Thread.pc (fun _ _ => rfl) fun _ _ _ => rfl).trans (State.th_advance_pc ht)⟩
  · rw [State.l1Bytes_congr hl1s]
    exact hlen ▸ State.l1Bytes_storeL1 hs
  · rw [State.l1Bytes_congr hl1s]
    exact State.l1Bytes_storeL1_out hs (hlen.symm ▸ hb)
  · rw [State.l1_congr (State.settle_l1s s3 t), h.l1_ne hc, State.l1_congr (State.noteUnfenced_l1s ..)]
  · rw [State.settle_mem, h.mem, State.noteUnfenced_mem]
  · rw [State.settle_blocks, h.blocks, State.noteUnfenced_blocks, hblocks, State.advance_blocks]
  all_goals intros; rfl

end Sys2Proof.Machine

/-! PROOFS. What a cluster does with the failure of a store (R379). -/

namespace Sys2Proof.Machine

/-- A failed store without a record of its own is dropped at the cluster that its channel names. -/
theorem execStoreFailure_dropped {s s1 s2 : State} {n line cause : Nat} {m : Msg} {ws : List Nat}
    (h : Arrives s n m (.storeFail line ws cause none) s1)
    (hf : failStores s1 (storeCluster s m.chan) line cause ws = .ok s2) : exec (.storeFailure n) s = .next s2 := by
  obtain ⟨ht, hb⟩ := h
  change execStoreFailure n s = _
  unfold execStoreFailure
  simp only [ht, hb, hf]

/-- A failed store of a word that no replay entry names has nothing to report. -/
theorem failStores_unreported {s : State} {c : Nat} {ws : List Nat} (h : lostEntries s c ws = []) (line cause : Nat) :
    failStores s c line cause ws = .ok (dropStores s c cause ws) := by
  unfold failStores
  rw [h]
  rfl

/-- The failure of a store of one word, on the channel of group 0 to its page 5: `chanCluster` reads cluster 5 in it. -/
def strayFailure : Msg :=
  { chan := chanPage 0 5, src := 0, dst := 0, body := .storeFail 0x400800 [0x400804] cLINK none }

/-- Group 0 is in cluster 0; cluster 5 holds the word, not yet owned. -/
def strayWord : State :=
  { State.reset with
    groups := [(0, default)]
    l1s := [(5, { words := [(0x400804, { valid := 15, dirty := 15 })] })] }

/-- The same state with the failure on its way. -/
def strayed : State := { strayWord with flight := [strayFailure] }

/-- A load and an atomic operation, of which the clause about failed stores says nothing. -/
def strayLoad : LoadReq :=
  { id := 0, g := 0, t := 0, pc := 0, words := [], va := 0, pa := 0, size := 4, dst := [] }

@[inherit_doc strayLoad]
def strayAtom : AtomReq :=
  { pa := 0, va := 0, width := 4, op := .add, signed := false, b := 0, e := 0, mo := {}, sink := .outside }

/-- Refutes O44, in its clause about failed stores: it reads the cluster by `chanCluster` on every channel, with no
premise that the message came from a home, and on a group's channel to a page the model takes the group's cluster
(`storeCluster`). The failure of a store to a word of cluster 5, on the channel of group 0, of cluster 0, to page 5,
leaves the word in cluster 5. -/
theorem not_clusterMessages : ¬ Obligations.ClusterMessages := by
  intro h
  obtain ⟨-, -, -, -, -, -, -, hfail, -⟩ := h strayed strayWord 0 strayFailure 0x400800 [0x400804] [] strayLoad
    false false 0 strayAtom 0 0 0 0 cLINK 0 none
  have hin : Arrives strayed 0 strayFailure (.storeFail 0x400800 [0x400804] cLINK none) strayWord := ⟨rfl, rfl⟩
  have hsaid := hfail _ hin (failStores_unreported (by decide) _ _)
  have hdone := execStoreFailure_dropped hin (failStores_unreported (by decide) _ _)
  have hsame := Host.Outcome.next.inj (hsaid.symm.trans hdone)
  have hgone : ((dropStores strayWord 5 cLINK [0x400804]).l1 5).words = [] := by decide
  have hstays : ((dropStores strayWord 0 cLINK [0x400804]).l1 5).words ≠ [] := by decide
  exact hstays (hsame ▸ hgone)

end Sys2Proof.Machine

/-! SUPPORT and PROOFS. Masks (R38, R39, R203, R345). -/

namespace Sys2Proof.Machine

/-- Settles O15: each of the four is one thread's change, which the bundle folds. -/
theorem maskUpdates : Obligations.MaskUpdates := by
  intro s m d a
  exact ⟨fun h => runLanes_done h fun _ _ _ => rfl, fun h => runLanes_done h fun _ _ _ => rfl,
    fun h => runLanes_done h fun _ _ _ => rfl, fun h => regLanes_done h⟩

/-! ### Bits of a mask -/

theorem bit_withBit (v i : Nat) : bit (withBit v i) i = true := by
  unfold withBit
  split
  · assumption
  · rename_i h
    simp only [bit, decide_eq_true_eq] at h ⊢
    rw [Nat.add_div_right _ (Nat.two_pow_pos i)]
    omega

theorem withBit_lt {v i n : Nat} (hv : v < 2 ^ n) (hi : i < n) : withBit v i < 2 ^ n := by
  unfold withBit
  split
  · exact hv
  · rename_i h
    simp only [bit, decide_eq_true_eq] at h
    have hn : 2 ^ n = 2 ^ i * (2 * 2 ^ (n - i - 1)) := by
      rw [← Nat.pow_succ', ← Nat.pow_add]; congr 1; omega
    rw [hn] at hv ⊢
    have hq : v / 2 ^ i < 2 * 2 ^ (n - i - 1) := Nat.div_lt_of_lt_mul hv
    calc v + 2 ^ i < 2 ^ i * (v / 2 ^ i + 1) + 2 ^ i := by
          have := Nat.lt_mul_div_succ v (Nat.two_pow_pos i); omega
      _ = 2 ^ i * (v / 2 ^ i + 2) := by ring
      _ ≤ _ := Nat.mul_le_mul_left _ (by omega)

theorem bit_zero (i : Nat) : bit 0 i = false := by simp [bit]

/-! ### The completion test (R39) -/

namespace Group

theorem arrived_setArrived {G : Group} {n v : Nat} (hn : n < G.arrive.length) (hv : v < 2 ^ 32) :
    (G.setArrived n v).arrived n = v := by
  simp only [setArrived, arrived, List.getD_eq_getElem?_getD, List.getElem?_set_self hn, Option.getD_some,
    BitVec.toNat_ofNat, Nat.mod_eq_of_lt hv]

/-- A mask that a live member has yet to join waits on. -/
theorem complete_open {G : Group} {n : Nat} (h : andNot (Nat.land (G.mask n) G.m0) (G.arrived n) ≠ 0) :
    G.complete n = G := if_pos (.inr h)

/-- A mask that its last live member has joined completes: its arrival set empties, and the threads in it go on. -/
theorem complete_full {G : Group} {n t : Nat} (h : andNot (Nat.land (G.mask n) G.m0) (G.arrived n) = 0)
    (hn : n < G.arrive.length) (ha : bit (G.arrived n) t = true) (ht : t < G.threads.length) :
    (G.complete n).arrived n = 0 ∧ (G.complete n).threads.getD t default =
      { G.threads.getD t default with wait := none, pc := (G.threads.getD t default).pc + 4 } := by
  have h0 : G.arrived n ≠ 0 := fun e => by rw [e, bit_zero] at ha; cases ha
  unfold complete
  rw [if_neg (by rintro (e | e)
                 · exact h0 e
                 · exact e h)]
  refine ⟨arrived_setArrived (G := { G with threads := _ }) hn (by decide), ?_⟩
  simp [setCredits, setArrived, upTo, List.getD_eq_getElem?_getD, ht, ha]

/-- The threads that a test on a part of them selects are the same after a change of a thread that keeps that part. -/
theorem threadBits_modify {p : Thread → Bool} {f : Thread → Thread} (hf : ∀ h, p (f h) = p h) (ts : List Thread)
    (t : Nat) : threadBits (ts.modify t f) p = threadBits ts p := by
  have hp : ∀ i, p ((ts.modify t f).getD i default) = p (ts.getD i default) := by
    intro i
    by_cases e : i = t
    · subst e
      by_cases hl : i < ts.length
      · rw [State.getD_modify_self hl, hf]
      · rw [List.modify_eq_self (Nat.le_of_not_lt hl)]
    · rw [State.getD_modify_ne e]
  simp only [threadBits, List.length_modify, hp]

variable {f : Thread → Thread} (hf : ∀ h, (f h).slot = h.slot) (G : Group) (t : Nat)
include hf

theorem m0_modify : { G with threads := G.threads.modify t f }.m0 = G.m0 :=
  threadBits_modify (fun h => by rw [hf]) G.threads t

theorem mask_modify (n : Nat) : { G with threads := G.threads.modify t f }.mask n = G.mask n := by
  unfold mask
  rw [m0_modify hf]

end Group

/-! ### A thread that waits at a mask -/

namespace State

/-- The group that a change of a group leaves, where it is there. -/
theorem lget_modGroup (s : State) (g : Nat) (f : Group → Group) :
    lget g (s.modGroup g f).groups = (lget g s.groups).map f := by
  unfold modGroup
  split
  · rename_i G h
    rw [h]
    exact lget_lput_self g (f G) s.groups
  · rename_i h
    rw [h, Option.map_none]

theorem group_modGroup_present {s : State} {g : Nat} (h : (lget g s.groups).isSome = true) (f : Group → Group) :
    (s.modGroup g f).group g = f (s.group g) := by
  obtain ⟨G, hG⟩ := Option.isSome_iff_exists.1 h
  rw [group_modGroup_self hG]
  simp only [group, lgetD, hG, Option.getD_some]

theorem hasThread_present {s : State} {g t : Nat} (h : s.hasThread g t = true) : (lget g s.groups).isSome = true := by
  unfold hasThread at h
  split at h
  · rename_i G e
    rw [e]
    rfl
  · cases h

end State

/-- A thread of the bundle back at the instruction that issues, with no wait. -/
def backAt (pc : DWord) (h : Thread) : Thread := { h with pc := pc, wait := none }

/-- The issuing group with thread t back at the instruction that issues and in the arrival set of mask n, before the
completion test. -/
def joined (s : State) (t n : Nat) : Group :=
  { s.cur with threads := s.cur.threads.modify t (backAt s.iss.pc) }.setArrived n (withBit (s.cur.arrived n) t)

/-- What MWAIT does for a thread that joins the arrival set (R39). -/
def joinMask (s : State) (t n : Nat) : State := ((s.advance t).setPc t s.iss.pc).modGroup s.iss.g fun G =>
  (G.setArrived n (withBit (G.arrived n) t)).complete n

section
variable {s : State} {t n : Nat}

theorem joinMask_iss : (joinMask s t n).iss = s.iss := by
  unfold joinMask
  rw [State.modGroup_only, State.setPc_only, State.advance_only]

theorem joinMask_cur (h : s.hasThread s.iss.g t = true) : (joinMask s t n).cur = (joined s t n).complete n := by
  have hp : (lget s.iss.g ((s.advance t).setPc t s.iss.pc).groups).isSome = true := by
    unfold State.setPc State.advance State.modTh State.modThread
    simp only [State.modGroup_iss, State.lget_modGroup, Option.isSome_map, State.hasThread_present h]
  have hg : ((s.advance t).setPc t s.iss.pc).group s.iss.g =
      { s.cur with threads := s.cur.threads.modify t (backAt s.iss.pc) } := by
    unfold State.setPc State.modTh
    rw [State.advance_iss, State.group_modThread, State.advance, State.modTh, State.group_modThread]
    simp only [List.modify_modify_eq]
    rfl
  unfold State.cur
  rw [joinMask_iss, joinMask, State.group_modGroup_present hp, hg]
  rfl

end

/-- What the completion test of a mask reads, once a thread has joined its arrival set. -/
theorem joined_test {s : State} {t n : Nat} (h : t < 32) (hn : n < s.cur.arrive.length) :
    (joined s t n).arrived n = withBit (s.cur.arrived n) t
      ∧ Nat.land ((joined s t n).mask n) (joined s t n).m0 = Nat.land (s.cur.mask n) s.cur.m0 := by
  constructor
  · exact Group.arrived_setArrived hn (withBit_lt (s.cur.arrive.getD n 0).isLt h)
  · exact congrArg₂ Nat.land (Group.mask_modify (f := backAt s.iss.pc) (fun _ => rfl) s.cur t n)
      (Group.m0_modify (f := backAt s.iss.pc) (fun _ => rfl) s.cur t)

theorem advance_mask (s : State) (t n : Nat) : ((s.advance t).group s.iss.g).mask n = s.cur.mask n :=
  State.group_modGroup_part (·.mask n) (f := fun G => { G with threads := G.threads.modify t (backAt s.iss.npc) })
    (fun G => Group.mask_modify (f := backAt s.iss.npc) (fun _ => rfl) G t n) s _ _

theorem advance_credits (s : State) (t n : Nat) : ((s.advance t).group s.iss.g).credits n = s.cur.credits n :=
  State.group_advance_part (·.credits n) (fun _ _ => rfl) s t _

/-- MWAIT of a thread that joins the arrival set goes on where the completion test empties it. -/
theorem mwait_joins {s : State} {t : Nat} {m : BitVec 4} (h : Alone (.mwait m) s t)
    (hh : (s.th t).status.getLsbD 1 = false) (hc : bit (s.cur.credits m.toNat) t = false)
    (hm : bit (s.cur.mask m.toNat) t = true) :
    exec (.mwait m) s = .next (if (joinMask s t m.toNat).cur.arrived m.toNat = 0 then (joinMask s t m.toNat).settle t
      else (joinMask s t m.toNat).stay t (.mask m.toNat)) := by
  have hj : (joinMask s t m.toNat).cur = (joinMask s t m.toNat).group s.iss.g := by rw [State.cur, joinMask_iss]
  rw [hj]
  split
  · rename_i h0
    refine runLanes_alone_ok h ?_
    simp only [inHandler, hh, State.advance_iss, advance_credits, hc, advance_mask, hm, Bool.false_eq_true, if_false,
      Bool.not_true]
    exact if_pos h0
  · rename_i h0
    refine runLanes_alone_wait h ?_
    simp only [inHandler, hh, State.advance_iss, advance_credits, hc, advance_mask, hm, Bool.false_eq_true, if_false,
      Bool.not_true]
    exact if_neg h0

namespace State

theorem cur_settle (s : State) (t : Nat) : (s.settle t).cur =
    { s.cur with threads := s.cur.threads.modify t fun h => { h with undo := none } } := cur_modTh (s.dropFaults t) t _

/-- A part of a thread that the pointer to return to is no part of, once a thread's instruction is done. -/
theorem th_settle_part {α : Type} (p : Thread → α) (hu : ∀ h u, p { h with undo := u } = p h) (s : State) (t u : Nat) :
    p ((s.settle t).th u) = p (s.th u) := by
  unfold th
  rw [settle_iss]
  exact thread_modThread_part p (fun h => hu h _) _ _ _ _ _

/-- A thread that stays at the instruction that issues. -/
theorem th_stay {s : State} {t : Nat} (h : t < s.cur.threads.length) (w : WaitOn) : (s.stay t w).th t =
    { s.th t with pc := s.iss.pc, wait := some w, pixel := uncounted w (s.th t).pixel } := by
  unfold th stay
  rw [modTh_iss]
  exact thread_modThread_self h _

end State

/-- Settles O16: a thread that joins the arrival set waits exactly where the completion test finds another live member
missing. -/
theorem maskWait : Obligations.MaskWait := by
  intro s t m hal hth ht ha
  have hlen (hn : m.toNat < 12) : m.toNat < s.cur.arrive.length := ha ▸ hn
  have hcur : (joinMask s t m.toNat).cur = (joined s t m.toNat).complete m.toNat := joinMask_cur hth
  have htt : t < (joined s t m.toNat).threads.length := by
    have := State.hasThread_lt hth
    rwa [joined, Group.setArrived, List.length_modify]
  refine ⟨fun hh => ?_, fun hh hc => ?_, fun hh hc hm => ?_, fun ⟨hh, hc, hm⟩ hn ho => ?_,
    fun ⟨hh, hc, hm⟩ hn ho => ?_⟩
  · refine runLanes_alone_ok hal ?_
    simp only [inHandler, hh, if_true]
  · refine runLanes_alone_ok hal ?_
    simp only [inHandler, hh, State.advance_iss, advance_credits, hc, if_true, Bool.false_eq_true, if_false]
  · refine runLanes_alone_ok hal ?_
    simp only [inHandler, hh, State.advance_iss, advance_credits, hc, advance_mask, hm, Bool.false_eq_true, if_false,
      Bool.not_false, if_true]
  · obtain ⟨harr, htest⟩ := joined_test ht (hlen hn)
    obtain ⟨h0, hthread⟩ := Group.complete_full (G := joined s t m.toNat) (t := t) (by rw [harr, htest]; exact ho)
      (by simpa [joined, Group.setArrived] using hlen hn) (by rw [harr]; exact bit_withBit _ _) htt
    rw [← hcur] at h0 hthread
    have hjoined : (joined s t m.toNat).threads.getD t default = backAt s.iss.pc (s.th t) :=
      State.getD_modify_self (State.hasThread_lt hth) _ _
    refine ⟨_, (mwait_joins hal hh hc hm).trans (by rw [if_pos h0]), ?_, ?_, ?_⟩
    · rw [State.cur_settle]
      exact h0
    · rw [State.th_settle_part Thread.pc (fun _ _ => rfl)]
      exact (congrArg Thread.pc hthread).trans (by rw [hjoined]; rfl)
    · rw [State.th_settle_part Thread.wait (fun _ _ => rfl)]
      exact congrArg Thread.wait hthread
  · obtain ⟨harr, htest⟩ := joined_test ht (hlen hn)
    rw [Group.complete_open (by rw [harr, htest]; exact ho)] at hcur
    have hne : (joinMask s t m.toNat).cur.arrived m.toNat ≠ 0 := by
      rw [hcur, harr]
      intro h0
      have := bit_withBit (s.cur.arrived m.toNat) t
      rw [h0, bit_zero] at this
      cases this
    have hstay := State.th_stay (s := joinMask s t m.toNat) (t := t) (by rw [hcur]; exact htt) (.mask m.toNat)
    refine ⟨_, (mwait_joins hal hh hc hm).trans (by rw [if_neg hne]), ?_, ?_, ?_⟩
    · rw [State.stay, State.cur_modTh, ← harr, ← hcur]
      rfl
    · rw [hstay, joinMask_iss]
    · rw [hstay]

end Sys2Proof.Machine

/-! PROOFS. EXIT of the last thread of a group whose unread message aborts its domain (R40, R195, R351, R375). -/

namespace Sys2Proof.Machine

/-- A message that nobody took and that has come back to its sender. -/
def cameBack : Message := { sender := 0, target := 256, words := [], bounced := true, rcb := 0x10000 }

/-- A SIMT group of one thread, which has that message unread, in a region that has no trap area. -/
def lastThread : State :=
  { State.reset with
    iss := { g := 0, ts := [0], pc := 0, words := [], npc := 4 }
    groups := [(0, { key := 0, kind := .simt 0 0, blk := 0, rcb := 0x10000, lr := 0, threads := [{}]
                     mail := [cameBack] })]
    regions := [(0x10000, { rcb := 0x10000 })] }

/-- The slot of thread 0 of group 0 in the state that an instruction leaves. -/
def slotLeft : Host.Outcome State Fault Refusal → Slot
  | .next s => (s.thread 0 0).slot
  | _ => .live

/-- Refutes O10, in its clause that the slot of a SIMT thread becomes Exited: with its last thread the group's mailbox
ends, and a message in it that had bounced is discarded (R375); where the region's trap area cannot take the record of
that (R351), the domain is aborted, and the group goes with it (R357), so that no slot is left to be Exited. -/
theorem not_exitEndsThread : ¬ Obligations.ExitEndsThread := by
  intro h
  obtain ⟨-, -, -, -, hexited, -⟩ := h lastThread lastThread 0 default
  obtain ⟨s', hexec, hslot, -⟩ := hexited ⟨rfl, by decide⟩ (by decide) (by decide) (by decide) ⟨0, 0, rfl⟩
  have hgone : slotLeft (exec .exit lastThread) ≠ .exited := by decide
  rw [hexec] at hgone
  exact hgone hslot

end Sys2Proof.Machine

/-! SUPPORT and PROOFS. Messages, launches from the device and Stitcher requests (R54, R55, R238 to R241, R397). -/

namespace Sys2Proof.Machine

/-- The cross-thread instructions of a lone thread see that thread. -/
theorem Alone.lanesOk {i : Instr} {s : State} {t : Nat} (h : Alone i s t) : lanesOk i s = [t] := by
  obtain ⟨hts, hcheck⟩ := h
  rw [lanesOk_all (by intro u hu; rw [hts, List.mem_singleton] at hu; rw [hu]; exact hcheck), hts]

theorem State.setReg_iss (s : State) (t : Nat) (f : Field) (v : Word) : (s.setReg t f v).iss = s.iss := by
  rw [setReg_only]

theorem State.setRun_iss (s : State) (t : Nat) (f : Field) (vs : List Word) : (s.setRun t f vs).iss = s.iss := by
  rw [setRun_only]

/-- Settles O33: each instruction of a lone thread goes through its checks in order, and the premises pass them. -/
theorem messageInstructions : Obligations.MessageInstructions := by
  intro s s1 t n nr na1 d a b m rest
  simp only [State.cur]
  refine ⟨fun hal hbits hroute hroom hread hrel => ?_, fun hal hmail => ?_, fun hal hmail => ?_,
    fun hal hlr hmet => ?_, fun hal hsw hlr hmet hread hrel => ?_, fun hal hsw => ?_⟩
  · refine runLanes_alone_ok hal ?_
    simp only [State.advance_iss, State.advance_rcb, State.advance_kind] at *
    simp [hbits, hroute, hroom, hread, hrel]
  · refine runLanes_alone_ok hal ?_
    simp only [State.cur, hmail, hal.lanesOk, State.setReg_iss, State.setRun_iss, State.advance_iss, List.head?_cons, if_true]
    rfl
  · refine runLanes_alone_wait hal ?_
    simp only [State.cur, hmail]
  · refine runLanes_alone_ok hal ?_
    simp only [State.advance_iss, State.advance_rcb, State.advance_kind] at *
    simp [misaligned_none hlr, hmet]
  · refine runLanes_alone_ok hal ?_
    simp only [State.advance_iss, State.advance_rcb, State.advance_kind] at *
    simp [misaligned_none hlr, hmet, hsw, hread, hrel]
  · refine runLanes_alone_trap hal ?_
    simp [hsw, cILLEGAL]

end Sys2Proof.Machine

/-! SUPPORT and PROOFS. FORK and MIGR (R51, R56 to R58, R199, R201). -/

namespace Sys2Proof.Machine

/-- The release part of FORK is done: the thread has waited for it, or no earlier epoch is left. -/
theorem fork_released {s s1 s2 : State} {t c : Nat}
    (h : if (fencedOn s t).isSome then s2 = s1 else s1.closeEpoch c = (none, s2)) :
    (if (fencedOn s t).isSome then (none, s1) else s1.closeEpoch c) = (none, s2) := by
  split
  · rename_i hf
    rw [if_pos hf] at h
    rw [h]
  · rename_i hf
    rwa [if_neg hf] at h

/-- A live register that reads as uncorrectable does so before and after a thread has moved on. -/
theorem liveBad_advance (s : State) (t g live livek : Nat) : liveBad ((s.advance t).group g) ((s.advance t).thread g t)
    live livek = liveBad (s.group g) (s.thread g t) live livek := by
  unfold liveBad
  simp only [State.advance_kwb, State.group_advance_part Group.badK (fun _ _ => rfl),
    State.thread_advance_part Thread.badX (fun _ _ _ => rfl), State.thread_advance_part Thread.xwb (fun _ _ _ => rfl)]

theorem State.thread_of_group {s s1 : State} {g : Nat} (h : s1.group g = s.group g) (t : Nat) :
    s1.thread g t = s.thread g t := by
  unfold thread
  rw [h]

theorem forkMembers_def (n cap idle : Nat) :
    Nat.max 1 (Nat.min ((n + 63) / 64) (Nat.min cap (1 + idle))) = forkMembers n cap idle := rfl

/-- Settles O35: the premises pass the checks of FORK and of MIGR in their order. -/
theorem forkAndMigrate : Obligations.ForkAndMigrate := by
  intro s s1 s2 s3 t d a b id pa mt live livek
  simp only [State.cur, State.th, forkMembers_def]
  refine ⟨fun hal hcell hx hrel hclose hbad hwrite _ => ?_, fun hal hpoint hsimt hlive => ?_,
    fun g0 t0 hal hpoint hsw hhome hlive => ?_⟩
  · refine runLanes_alone_ok hal ?_
    simp only [State.advance_iss, State.advance_rcb, State.advance_kind, hcell, ne_eq, not_true_eq_false, if_false, hx,
      withPage, hrel, fork_released hclose]
    rw [ite_eq_left_iff.2 fun hc => hbad.resolve_left hc]
    dsimp only
    rw [hwrite]
  · obtain ⟨ha, hb, hp, hg, hi, hl⟩ := hpoint
    have hth := State.thread_of_group hg t
    refine ⟨fun ctx more hidle => runLanes_alone_ok hal ?_, fun hidle => runLanes_alone_wait hal ?_⟩
    all_goals
      simp only [State.advance_iss, ha, hb, hp, migrate, hi, hg, hth, liveBad_advance, hl, State.advance_kind, hsimt,
        State.advance_alloc, State.thread_advance_part Thread.xwb (fun _ _ _ => rfl), hlive, hidle]
      simp only [ne_eq, not_true_eq_false, Option.isSome_none, Bool.false_eq_true, if_false]
  · obtain ⟨ha, hb, hp, hg, hi, hl⟩ := hpoint
    have hth := State.thread_of_group hg t
    refine runLanes_alone_ok hal ?_
    simp only [State.advance_iss, ha, hb, hp, migrate, hi, hg, hth, liveBad_advance, hl, State.advance_kind, hsw,
        State.thread_advance_part Thread.home (fun _ _ _ => rfl), hhome, hlive]
    simp only [ne_eq, not_true_eq_false, Option.isSome_none, Bool.false_eq_true, if_false, if_true]

end Sys2Proof.Machine

/-! PROOFS. Mailboxes, Stitcher requests, proofer instances and migration as steps of their agents (R53, R55, R57, R238,
R241 to R243, R375). -/

namespace Sys2Proof.Machine

/-- Settles O48: each step reads its message or its record, and the premises pass its checks. -/
theorem mailboxAgents : Obligations.MailboxAgents := by
  intro s s1 n g t id pc live livek ctx c target m x args nr rcb q d rest
  refine ⟨fun ⟨htake, hbody⟩ hat hsaved hcount => ?_, fun ⟨htake, hbody⟩ hat => ?_,
    fun ⟨htake, hbody⟩ hissuer => ⟨fun hlen => ?_, fun hlen => ?_⟩, fun hfind => ?_, fun hdue hbusy hfirst hline => ?_,
    fun hkind hexec => ?_, fun hwait hstop hidle hpoint hbad hctx => ?_⟩
  · change execMessageArrival n s = _
    simp only [execMessageArrival, htake, hbody, hat, hsaved, hcount, if_true, if_false, ite_self]
    rfl
  · change execMessageArrival n s = _
    simp only [execMessageArrival, htake, hbody, hat]
    split <;> rfl
  · change execStitchRequestArrival n s = _
    simp only [execStitchRequestArrival, htake, hbody]
    rw [if_neg (by simpa [Option.isSome_iff_ne_none] using hissuer), if_neg (by simpa using hlen)]
  · change execStitchRequestArrival n s = _
    simp only [execStitchRequestArrival, htake, hbody]
    rw [if_neg (by simpa [Option.isSome_iff_ne_none] using hissuer), if_pos hlen]
  · change execStwaitExpiry c target s = _
    simp only [execStwaitExpiry, hfind]
  · change execProoferInstanceStart n s = _
    simp only [execProoferInstanceStart, hdue]
    rw [if_neg (by simpa [hbusy] using ⟨hfirst, hline⟩)]
    rfl
  · change execProoferWatchdog g s = _
    simp only [execProoferWatchdog, hkind, hexec, decide_true, Bool.and_self, if_true]
  · change execMigrationMove g t s = _
    simp only [execMigrationMove, hwait, hstop, hidle, hpoint, hbad, hctx]
    simp

end Sys2Proof.Machine

/-! SUPPORT and PROOFS. The steps of the region schedulers (R46 to R85, R361, R365, R371, R386, R422). -/

namespace Sys2Proof.Machine

/-- A scheduler that can use the RCB goes on. -/
theorem withRcb_ok {s s0 : State} {d rcb : Nat} (h : s.touchRcb d rcb = .ok s0) (k : State → State) :
    withRcb s d rcb k = k s0 := by
  simp only [withRcb, h]

/-- The read of the state of a block that comes back is the whole of what can fail in its restore. -/
theorem restoreBlock_ok {s s1 : State} {d : Nat} {B : Block} {es : List Nat} (h : readBack s d B = .ok s1) :
    restoreBlock s d B es = .ok (restate ((placeSaved s1 (s1.block B.key) es).freeArea d
      ((placeSaved s1 (s1.block B.key) es).supplier B.rcb 9)) B.launch) := by
  simp only [restoreBlock, h]

/-- Where every request of the formed groups has its context, the start of a group drops none. -/
theorem formed_live {s : State} (h : ∀ l ∈ s.formed, l ≠ [] ∧ ∀ y ∈ l, (lget y.g s.groups).isSome = true) :
    ((s.formed.map fun l => l.filter fun q => (lget q.g s.groups).isSome).filter fun l => l ≠ []) = s.formed := by
  have hmap : (s.formed.map fun l => l.filter fun q => (lget q.g s.groups).isSome) = s.formed := by
    conv_rhs => rw [← List.map_id s.formed]
    exact List.map_congr_left fun l hl => List.filter_eq_self.2 (h l hl).2
  rw [hmap]
  exact List.filter_eq_self.2 fun l hl => decide_eq_true (h l hl).1

/-- The first formed group that can start is behind those that cannot. -/
theorem findSome_ahead {α β : Type} {f : α → Option β} {ahead more : List α} {a : α} {b : β}
    (hf : ∀ l ∈ ahead, f l = none) (h : f a = some b) : (ahead ++ a :: more).findSome? f = some b := by
  rw [List.findSome?_append, List.findSome?_eq_none_iff.2 hf, List.findSome?_cons, h]
  rfl

/-- A block that runs, and whose threads and items are done, passes the checks of BLOCK_COMPLETION. -/
theorem completion_runs {s : State} {blk : Nat} (hthere : (lget blk s.blocks).isSome = true)
    (hruns : (s.block blk).bstate = .resident ∨ (s.block blk).bstate = .draining)
    (hthreads : threadsDone s (s.block blk) = true) (hbusy : blockBusy s (s.block blk) = false) :
    ((lget blk s.blocks).isNone || !(decide ((s.block blk).bstate = .resident) || decide ((s.block blk).bstate = .draining))
      || !threadsDone s (s.block blk) || blockBusy s (s.block blk)) = false := by
  have hnone : (lget blk s.blocks).isNone = false := by rw [Option.isNone_eq_false_iff]; exact hthere
  rw [hnone, hthreads, hbusy]
  rcases hruns with h | h <;> rw [h] <;> rfl

/-- Settles O52: each step's premises pass its checks. -/
theorem schedulerAgents : Obligations.SchedulerAgents := by
  intro s s1 s2 i lr who d blk bid ctx b t c L zero es e p l q qs ahead more s0 f
  refine ⟨?launchArrival, ?periodic, ?decrement, ?refuse, ?fresh, ?abort, ?again, ?context, ?restore, ?release,
    ?completion, ?toSave, ?toFlush, ?save, ?flush, ?hold, ?retire, ?stitched⟩
  case launchArrival =>
    intro hhead hroom harrive henter
    change execLaunchArrival i s = _
    simp only [execLaunchArrival, hhead, harrive, henter, Nat.not_le.2 hroom, if_false]
  case periodic => exact fun h => if_pos h
  case decrement => exact fun h => if_pos h
  case refuse =>
    intro hnever hrefuse
    change execBlockPlacement d s = _
    simp only [execBlockPlacement, hnever, hrefuse]
    rfl
  case fresh =>
    intro hnever hplace hrcb
    change execBlockPlacement d s = _
    simp only [execBlockPlacement, hnever, hplace, withRcb_ok hrcb]
  case abort =>
    intro hnever hplace hrcb
    change execBlockPlacement d s = _
    simp only [execBlockPlacement, hnever, hplace, withRcb, hrcb]
  case again =>
    intro hnever hplace hrcb
    change execBlockPlacement d s = _
    simp only [execBlockPlacement, hnever, hplace, withRcb_ok hrcb]
  case context =>
    intro hplace hrcb
    change execSwarmBlockPlacement d s = _
    simp only [execSwarmBlockPlacement, hplace, withRcb_ok hrcb]
  case restore =>
    intro hplace hrcb hblock hread back hthere
    change execRestore d s = _
    simp only [execRestore, hplace, withRcb_ok hrcb, hblock, restoreBlock_ok hread]
    exact congrArg Host.Outcome.next (if_pos hthere)
  case release =>
    intro ⟨hthere, hruns, hthreads, hbusy⟩ hfence
    change execBlockCompletion blk s = _
    simp only [execBlockCompletion, completion_runs hthere hruns hthreads hbusy, hfence, Bool.false_eq_true, if_false]
  case completion =>
    intro ⟨hthere, hruns, hthreads, hbusy⟩ hfence hdrained hcomplete
    change execBlockCompletion blk s = _
    simp only [execBlockCompletion, completion_runs hthere hruns hthreads hbusy, hfence, Bool.false_eq_true, if_false]
    cases e with
    | none => exact congrArg (fun r => Host.Outcome.next (s.orFull (s.block blk).rcb r)) hcomplete
    | some n =>
      rw [if_neg (by simpa using hdrained n rfl), hcomplete]
      rfl
  case toSave =>
    intro ⟨hpre, hbound, hdrains, hchecked, h64, hlate⟩ hsave
    change execPreemptionCheck blk s = _
    simp [execPreemptionCheck, hpre, hbound, hdrains, hchecked, h64, Nat.not_lt.2 hlate, hsave]
  case toFlush =>
    intro ⟨hpre, hbound, hdrains, hchecked, h64, hlate⟩ hsave hreplay
    change execPreemptionCheck blk s = _
    simp [execPreemptionCheck, hpre, hbound, hdrains, hchecked, h64, Nat.not_lt.2 hlate, hsave, hreplay]
  case save =>
    intro hsaving hpre hsettled hothers hwrite u hend
    change execSaveComplete blk s = _
    simp only [execSaveComplete, hpre]
    rw [if_neg ?_, hwrite]
    · exact congrArg (fun r => Host.Outcome.next (s.orFull (s.block blk).rcb
        (Except.map (restate · (s.block blk).launch) r))) hend
    · simp only [hsaving, hsettled, ne_eq, not_true_eq_false, decide_false, Bool.not_true, Bool.or_self, Bool.false_or,
        List.any_eq_true, Bool.and_eq_true, decide_eq_true_eq, not_exists, not_and]
      intro C hC hCsaving
      obtain h | ⟨-, h⟩ := hothers C hC
      · exact absurd hCsaving h
      · rw [h, hpre]
        simp
  case flush =>
    intro hflushing hsettled habort hrefused hend
    change execFlushComplete blk s = _
    simp only [execFlushComplete, hflushing, hsettled, habort, hrefused, hend, ne_eq, not_true_eq_false, decide_false,
      Bool.not_true, Bool.or_self, Bool.false_eq_true, if_false, Option.isSome_none]
    rfl
  case hold =>
    intro hthere habort hstate hhold hspent
    change execBudgetHold t s = _
    simp only [execBudgetHold]
    rw [if_neg (by simpa [habort, hstate, Option.isSome_iff_ne_none] using hthere), if_pos (by rw [hhold, hspent]; rfl)]
  case retire =>
    intro hretiring hstate hidle hready
    change execRetireSweep t s = _
    simp only [execRetireSweep]
    rw [if_neg ?_]
    simpa [hretiring, hstate, hidle] using hready
  case stitched =>
    intro hlive hsplit hahead hfits hunheld hquota hengines
    change execStitchedGroupStart c s = _
    have hstart : tryStitched c s (q :: qs) =
        some (startStitched { s with formed := s.formed.erase (q :: qs) } (q :: qs) q ctx) := by
      simp only [tryStitched, hengines, hfits, hunheld, hquota, Option.isNone_none, Bool.and_self, if_true]
    simp only [execStitchedGroupStart, formed_live hlive, hsplit, findSome_ahead hahead hstart, Option.getD_some]

end Sys2Proof.Machine

/-! SUPPORT and PROOFS. Groups of a partition, contexts of a core, replies that trap, and trap areas that are full (R32,
R61, R72, R345, R351, R378). -/

namespace Sys2Proof.Machine

/-- Records of other regions wait on. -/
theorem writeUntold_none {s : State} {rcb : Nat} (h : ∀ x ∈ s.untold, x.rcb ≠ rcb) : writeUntold s rcb = s := by
  have hnone : (s.untold.filter fun x => x.rcb = rcb) = [] :=
    List.filter_eq_nil_iff.2 fun x hx => by simpa using h x hx
  rw [writeUntold, hnone]
  rfl

/-- A region for which a writer has waited too long has writers that wait. -/
theorem late_full {l : List AreaWait} {p : AreaWait → Bool} {w : AreaWait} (h : l.find? p = some w) : l ≠ [] :=
  fun e => by rw [e] at h; cases h

/-- Settles O53: each step's premises pass its checks. -/
theorem partitionAgents : Obligations.PartitionAgents := by
  intro s g t k rcb core x f fs w
  refine ⟨?timeout, ?ready, ?switch, ?failed, ?held, ?nested, ?room, ?abort, ?mute⟩
  case timeout =>
    intro hpart hactive hsince hready
    change execActiveTimeout g s = _
    simp only [execActiveTimeout, hpart, hactive, hsince, decide_true, Bool.true_and, ne_eq, hready,
      not_false_eq_true, if_true, State.leaveActive]
  case ready =>
    intro hpart hwaiting hfree hpick hnotReady hnotActive
    change execGroupReady g s = _
    simp only [execGroupReady, hpart, hwaiting, hfree, hpick, State.joinReady, hnotReady, hnotActive, Option.isSome_some,
      decide_true, Bool.not_false, Bool.and_self, if_true, Bool.or_self, Bool.false_eq_true, if_false]
  case switch =>
    intro hdue hnext
    change execContextSwitch core s = _
    have hswitch : s.switchDue core = true := by
      simpa [State.switchDue, or_assoc] using hdue
    simp only [execContextSwitch, hswitch, hnext, if_true]
  case failed =>
    intro hfree hheld hfailed hslot hstitched hreply
    change execReplyTrap g t s = _
    simp [execReplyTrap, hfree, hheld, hfailed, hslot, hstitched, hreply]
  case held =>
    intro hfree hheld hnested
    change execReplyTrap g t s = _
    simp [execReplyTrap, hfree, hheld, hnested]
  case nested =>
    intro hfree hheld hnested
    change execReplyTrap g t s = _
    simp [execReplyTrap, hfree, hheld, hnested]
  case room =>
    intro hfull hroom hothers
    change execTrapAreaTimeout rcb s = _
    obtain ⟨y, ys, hlist⟩ := List.exists_cons_of_ne_nil hfull
    simp only [execTrapAreaTimeout, hlist, hroom, writeUntold_none hothers, if_true]
  case abort =>
    intro hlate hroom habort
    change execTrapAreaTimeout rcb s = _
    obtain ⟨y, ys, hlist⟩ := List.exists_cons_of_ne_nil (late_full hlate)
    simp only [hlist] at hlate
    simp only [execTrapAreaTimeout, hlist, hlate, hroom, habort, Option.isSome_none, Bool.false_eq_true, if_false]
  case mute =>
    intro hlate hroom habort
    change execTrapAreaTimeout rcb s = _
    obtain ⟨y, ys, hlist⟩ := List.exists_cons_of_ne_nil (late_full hlate)
    simp only [hlist] at hlate
    simp only [execTrapAreaTimeout, hlist, hlate, hroom, Option.isSome_iff_ne_none.2 habort, Bool.false_eq_true, if_false,
      if_true, State.modRegion_untold]

end Sys2Proof.Machine

/-! SUPPORT and PROOFS. Atomics and JOIN at their issuer (R52, R91, R123, R124, R200, R233, R234). -/

namespace Sys2Proof.Machine

/-- Nothing is dirty up to the current epoch, so none is closed. -/
theorem closeEpoch_none {s s' : State} {c : Nat} (h : s.closeEpoch c = (none, s')) : s' = s := by
  simp only [State.closeEpoch] at h
  split at h <;> cases h
  rfl

/-- A release that need not wait changes nothing. -/
theorem releaseFirst_none {s0 s s' : State} {t : Nat} {mo : MemOrd} (h : releaseFirst s0 s t mo = (s', none)) :
    s' = s := by
  unfold releaseFirst at h
  grind [closeEpoch_none]

/-- An atomic that need not wait finds the state as it was. -/
theorem atomWaits_none {s0 s s' : State} {t pa : Nat} {mo : MemOrd} (h : atomWaits s0 s t pa mo = (s', none)) :
    s' = s := by
  unfold atomWaits at h
  grind [releaseFirst_none]

/-- Registers read the same where the group and what issues are the same. -/
theorem State.pair_congr {s s' : State} (hi : s'.iss = s.iss) (hg : s'.group s.iss.g = s.group s.iss.g) (t : Nat)
    (f : Field) : s'.pair t f = s.pair t f := by
  unfold pair reg regAt readRegOf xnum knum thread
  rw [hi, hg]

section
variable {i : Instr} {n : Nat} {go : State → State → Nat → Nat → Nat → LaneRes} {s s0 s1 s' : State} {t pa mt : Nat}
  {a : Field} {w : WaitOn} (hwalk : startWalks i (fun s t => (s.pair t a).toNat) n s = (s0, none)) (hal : Alone i s0 t)
  (hiss : s0.iss = s.iss) (hg : s0.group s.iss.g = s.group s.iss.g) (hva : (s.pair t a).toNat % n = 0)
  (htr : (s0.advance t).translate s.iss.g t (s.pair t a).toNat 2 = .ok s1 pa mt)
include hwalk hal hiss hg hva htr

/-- The atomic of a lone thread whose address translates, and which completes. -/
theorem atomLanes_ok (hgo : go s0 s1 t pa mt = .ok s') :
    atomLanes i (fun s t => (s.pair t a).toNat) n go s = .next (s'.settle t) := by
  unfold atomLanes
  rw [hwalk]
  refine runLanes_alone_ok hal ?_
  simp only [State.pair_congr hiss hg, misaligned_none hva, State.advance_iss, hiss, htr, withPage, hgo]

/-- The atomic of a lone thread whose address translates, and which waits. -/
theorem atomLanes_wait (hgo : go s0 s1 t pa mt = .wait s' w) :
    atomLanes i (fun s t => (s.pair t a).toNat) n go s = .next (s'.stay t w) := by
  unfold atomLanes
  rw [hwalk]
  refine runLanes_alone_wait hal ?_
  simp only [State.pair_congr hiss hg, misaligned_none hva, State.advance_iss, hiss, htr, withPage, hgo]

end

/-- The scratchpad after an atomic that writes v there, or nothing. -/
def atomPut (s : State) (blk x w : Nat) (v : Option Nat) : State := match v with
  | some v => s.spmWrite blk x (toBytes w v)
  | none => s

theorem State.spmRead_congr {s s' : State} {blk : Nat} (h : s'.block blk = s.block blk) (x n : Nat) :
    s'.spmRead blk x n = s.spmRead blk x n := by
  unfold spmRead
  rw [h]

/-- An atomic on the scratchpad whose words are full and good is performed at once. -/
theorem spmAtomic_ready {s s1 : State} {t : Nat} {mo : MemOrd} {ty : Ty} {op : AtomOp} {d a b : Field}
    (k : State → Nat → AtomReq → LaneRes)
    (hcheck : spmCheck (s.advance t) (s.reg t a).toNat false (4 * ty.regs) = none)
    (hread : (s.advance t).reading s.iss.g t = false) (hrel : releaseFirst s (s.advance t) t mo = (s1, none))
    (hfull : s1.emptyLine s.cur.blk (s.reg t a).toNat (4 * ty.regs) = none)
    (hgood : s1.poisoned s.cur.blk (s.reg t a).toNat (4 * ty.regs) = false)
    (hblk : s1.block s.cur.blk = s.block s.cur.blk) :
    spmAtomic s (s.advance t) t mo ty op d a b k =
      let x := (s.reg t a).toNat
      let r := atomReq s t x x {} ty op d b .outside
      let old := ofBytes (s.spmRead s.cur.blk x (4 * ty.regs))
      k (atomPut s1 s.cur.blk x (4 * ty.regs) (atomNew op ty.signed (4 * ty.regs) old r.b r.e)) old r := by
  have hcur : ((s.advance t).group s.iss.g).blk = s.cur.blk := State.advance_blk ..
  unfold spmAtomic State.spmReady
  simp only [hcheck, State.advance_iss, hcur, hread, hrel, hfull, hgood, State.spmRead_congr hblk, Bool.false_eq_true,
    if_false]
  rfl

theorem nextEnt_kind (s : State) (g t key h : Nat) : ((s.nextEnt g t key).2.group h).kind = (s.group h).kind := by
  refine State.group_modGroup_part Group.kind ?_ s g h
  exact fun _ => rfl

/-- Settles O31: the premises pass the checks of each instruction in their order, and none of the waits changes the
state. -/
theorem atomicInstructions : Obligations.AtomicInstructions := by
  intro s s0 s1 s2 t mo ty op d a b pa mt
  have hfound {mo' : MemOrd} (hiss : s0.iss = s.iss) (hg : s0.group s.iss.g = s.group s.iss.g)
      (htr : (s0.advance t).translate s.iss.g t (s.pair t a).toNat 2 = .ok s1 pa mt)
      (hwait : atomWaits s0 s1 t pa mo' = (s2, none)) : s2.iss = s.iss ∧ (s2.group s.iss.g).kind = s.cur.kind := by
    obtain ⟨hgroups, hiss1, -⟩ := State.translate_groups htr
    rw [atomWaits_none hwait, hiss1, State.advance_iss, State.group_congr hgroups, State.advance_kind, hg]
    exact ⟨hiss, rfl⟩
  refine ⟨fun hop ⟨_, hwalk, hal, hiss, hg, hva, htr, hwait⟩ => ?_,
    fun hop ⟨_, hwalk, hal, hiss, hg, hva, htr, hwait⟩ => ?_, fun ⟨_, hwalk, hal, hiss, hg, hva, htr, hwait⟩ => ?_,
    fun ⟨_, hwalk, hal, hiss, hg, hva, htr, hwait⟩ hreply => ?_,
    fun ⟨hal, hcheck, hread, hrel, hfull, hgood, hblk⟩ => ?_,
    fun r' hr ⟨hal, hcheck, hread, hrel, hfull, hgood, hblk⟩ => ?_⟩
  · obtain ⟨hiss2, -⟩ := hfound hiss hg htr hwait
    refine atomLanes_ok hwalk hal hiss hg hva htr ?_
    simp only [hwait, hiss2, State.pair_congr hiss hg]
    cases op with
    | cas => exact absurd rfl hop
    | _ => rfl
  · obtain ⟨hiss2, -⟩ := hfound hiss hg htr hwait
    refine atomLanes_ok hwalk hal hiss hg hva htr ?_
    simp only [hwait, hiss2, State.pair_congr hiss hg, hop, if_true]
  · obtain ⟨hiss2, hkind⟩ := hfound hiss hg htr hwait
    refine atomLanes_ok hwalk hal hiss hg hva htr ?_
    simp only [hwait, hiss2, State.pair_congr hiss hg, nextEnt_kind, hkind]
  · obtain ⟨hiss2, -⟩ := hfound hiss hg htr hwait
    have hiss1 := (State.translate_groups htr).2.1
    refine atomLanes_wait hwalk hal hiss hg hva htr ?_
    simp only [hiss1, State.advance_iss, hiss, hreply, hwait, hiss2, State.pair_congr hiss hg, Bool.false_eq_true,
      if_false]
  · refine runLanes_alone_ok hal ((spmAtomic_ready _ hcheck hread hrel hfull hgood hblk).trans ?_)
    cases op <;> rfl
  · subst hr
    exact runLanes_alone_ok hal (spmAtomic_ready _ hcheck hread hrel hfull hgood hblk)

end Sys2Proof.Machine

/-! SUPPORT and PROOFS. The four ways in which a global load is served (R90, R94, R102, R103, R217 to R219). -/

namespace Sys2Proof.Machine

namespace State

/-- The request of a load of thread t, whose group is of kind k. -/
def loadReq (s : State) (k : GroupKind) (t va pa size : Nat) (sext acq : Bool) (dst : List Nat) : LoadReq :=
  { s.request t va pa size dst with sext := sext, acquire := acq || s.isDone k.die pa size }

/-- A cached page, and no earlier access of the thread to the words on its way. -/
def Clear (s : State) (g : Nat) (k : GroupKind) (t pa mt size : Nat) : Prop :=
  ¬(mt = 1 ∨ s.isRemote k.die pa = true) ∧ s.atomOn g t pa size = false ∧ s.ldtOn g t pa size = false
    ∧ s.earlierLoad g t pa size = false

section
variable {s : State} {g t va pa mt size : Nat} {k : GroupKind} {sext acq : Bool} {dst : List Nat} (hg : s.iss.g = g)
  (hk : (s.group g).kind = k) (hacq : s.acquiring g t = false)
include hg hk hacq

theorem loadAt_away (haway : mt = 1 ∨ s.isRemote k.die pa = true) (hfail : s.accessFail k.die pa = none) :
    s.loadAt t va pa mt size sext acq dst =
      .ok (((s.leaveCore g).ask (s.loadReq k t va pa size sext acq dst)).post (chanPage g (pa / 4096)) k.die
        (s.homeDie k.die pa) (.uload g t (s.loadReq k t va pa size sext acq dst).id pa size)) := by
  subst hg hk
  simp only [loadAt, hacq, haway, ask_accessFail, leaveCore_accessFail, hfail, ask_homeDie, leaveCore_homeDie,
    loadAt.done, Bool.false_eq_true, if_false, if_true, Bool.or_eq_true, decide_eq_true_eq]
  rfl

variable (hclear : s.Clear g k t pa mt size)
include hclear

theorem loadAt_l0 {bs : List Byte} (hl0 : s.l0Bytes g pa size = some bs) :
    s.loadAt t va pa mt size sext acq dst = .ok (s.finishLoad (s.loadReq k t va pa size sext acq dst) bs) := by
  obtain ⟨hcached, hatom, hldt, hearlier⟩ := hclear
  subst hg hk
  simp only [loadAt, hacq, hcached, hatom, hldt, hearlier, hl0, Bool.false_eq_true, if_false, Bool.or_eq_true,
    decide_eq_true_eq]
  rfl

variable (hport : (s.leaveCore g).portBusy k.port pa = false) (hl0 : s.l0Bytes g pa size = none)
include hport hl0

theorem loadAt_l1 (hhas : s.l1Has k.cluster pa size = true) (hmark : s.l1Marked k.cluster pa size = false) :
    s.loadAt t va pa mt size sext acq dst = .ok (((s.leaveCore g).fillL0 g pa size).finishLoad
      (s.loadReq k t va pa size sext acq dst) (s.l1Bytes k.cluster pa size)) := by
  obtain ⟨hcached, hatom, hldt, hearlier⟩ := hclear
  subst hg hk
  simp only [loadAt, hacq, hcached, hatom, hldt, hearlier, hl0, hport, leaveCore_l1Has, hhas, leaveCore_l1Marked, hmark,
    leaveCore_l1Bytes, Bool.false_eq_true, if_false, if_true, Bool.or_eq_true, decide_eq_true_eq]
  rfl

theorem loadAt_gets (hhas : s.l1Has k.cluster pa size = false) :
    s.loadAt t va pa mt size sext acq dst = .ok (((s.leaveCore g).ask (s.loadReq k t va pa size sext acq dst)).sendGets
      k.cluster pa size (s.group g).rcb) := by
  obtain ⟨hcached, hatom, hldt, hearlier⟩ := hclear
  subst hg hk
  simp only [loadAt, hacq, hcached, hatom, hldt, hearlier, hl0, hport, leaveCore_l1Has, hhas, loadAt.done,
    Bool.false_eq_true, if_false, Bool.or_eq_true, decide_eq_true_eq]
  rfl

end

/-- The group that issues is of the kind and the region that it was of before a translation, and still issues. -/
theorem translate_issuing {s s1 : State} {t va acc pa mt : Nat}
    (h : (s.advance t).translate s.iss.g t va acc = .ok s1 pa mt) :
    s1.iss.g = s.iss.g ∧ (s1.group s.iss.g).kind = s.cur.kind ∧ (s1.group s.iss.g).rcb = s.cur.rcb := by
  obtain ⟨hg, hi, -⟩ := translate_groups h
  rw [hi, advance_iss, group_congr hg, advance_kind, advance_rcb]
  exact ⟨rfl, rfl, rfl⟩

end State

theorem misaligned_none_int {a : Int} {n : Nat} (h : a % n = 0) : misaligned a n = none := by
  unfold misaligned
  rw [if_neg (not_not_intro h)]

/-- A load at an aligned address that translates is the load at its page. -/
theorem loadGlobal_at {s s1 : State} {t size pa mt : Nat} {a : Int} {sext acq : Bool} {dst : List Nat}
    (hal : a % size = 0) (htr : (s.advance t).translate s.iss.g t a.toNat 0 = .ok s1 pa mt) :
    loadGlobal (s.advance t) t a size sext acq dst = s1.loadAt t a.toNat pa mt size sext acq dst := by
  simp only [loadGlobal, misaligned_none_int hal, State.advance_iss, htr, withPage]

/-- The load of an LDC without an acquire. -/
def constGlobal (s : State) (t va size : Nat) (sext : Bool) (dst : List Nat) : LaneRes :=
  match misaligned va size with
  | some ti => .trap ti
  | none => withPage (s.translate s.iss.g t va 0) fun s pa mt => constAt s t va pa mt size sext dst

/-- An LDC at an aligned address that translates goes through the constant cache at its page. -/
theorem constGlobal_at {s s1 : State} {t va size pa mt : Nat} {sext : Bool} {dst : List Nat}
    (hal : (va : Int) % size = 0) (htr : (s.advance t).translate s.iss.g t va 0 = .ok s1 pa mt) :
    constGlobal (s.advance t) t va size sext dst = constAt s1 t va pa mt size sext dst := by
  simp only [constGlobal, misaligned_none_int hal, State.advance_iss, htr, withPage]

/-- The constant cache has no say in a load of words that it holds no older value of, or of a swarm context. -/
theorem constAt_fresh {s : State} {g t va pa mt size : Nat} {k : GroupKind} {sext : Bool} {dst : List Nat}
    (hg : s.iss.g = g) (hk : (s.group g).kind = k)
    (h : ((wordsIn pa size).all fun wa => (lget wa (s.engine k.engine).olds).isNone) = true ∨ k.isSwarm = true) :
    constAt s t va pa mt size sext dst = s.loadAt t va pa mt size sext false dst := by
  subst hg hk
  unfold constAt
  refine if_pos ?_
  grind

/-- Where it holds an older value, a free choice takes that value or the load. -/
theorem constAt_old {s : State} {g t va pa mt size : Nat} {k : GroupKind} {sext : Bool} {dst : List Nat}
    (hg : s.iss.g = g) (hk : (s.group g).kind = k)
    (hold : ((wordsIn pa size).all fun wa => (lget wa (s.engine k.engine).olds).isNone) = false)
    (hsimt : k.isSwarm = false) (hcached : ¬(mt = 1 ∨ s.isRemote k.die pa = true)) (hacq : s.acquiring g t = false) :
    constAt s t va pa mt size sext dst = if s.freeBit.1 then .ok (s.freeBit.2.landDst g t [] dst
        (State.loadWords size sext (oldBytes s.freeBit.2 k.engine k.cluster pa size)))
      else s.freeBit.2.loadAt t va pa mt size sext false dst := by
  subst hg hk
  unfold constAt
  refine if_neg ?_
  grind

/-- Settles O21: every form comes to `State.loadAt` at the translated address, whose four outcomes are the four
clauses. -/
theorem globalLoadsComplete : Obligations.GlobalLoadsComplete := by
  intro s s1 t mo d a off sz mode n pa mt k c size g away s2 reaches served u moved va fresh
  have hserved : ∀ (i : Instr) (va : Int) (acq : Bool) (fin : State → State),
      (reaches i va → ∀ r, s1.loadAt t va.toNat pa mt size (Size.isSigned sz) acq (loadDst s t d sz) = .ok r →
        DoneAlone i s t (fin r)) → served i va acq fin := by
    intro i va acq fin hdone
    have hat : reaches i va → s1.iss.g = g ∧ (s1.group g).kind = k ∧ (s1.group g).rcb = s.cur.rcb :=
      fun ⟨_, _, htr, _⟩ => State.translate_issuing htr
    refine ⟨fun bs ⟨hreach, hclear⟩ hl0 => ?_, fun ⟨hreach, hclear⟩ hport hl0 hhas hmark => ?_,
      fun ⟨hreach, hclear⟩ hport hl0 hhas => ?_, fun hreach haway hfail => ?_⟩
    all_goals
      obtain ⟨hg, hkind, hrcb⟩ := hat hreach
      have hacq := hreach.2.2.2
      refine hdone hreach _ ?_
    · exact State.loadAt_l0 hg hkind hacq hclear hl0
    · exact State.loadAt_l1 hg hkind hacq hclear hport hl0 hhas hmark
    · rw [State.loadAt_gets hg hkind hacq hclear hport hl0 hhas, hrcb]
      rfl
    · exact State.loadAt_away hg hkind hacq haway hfail
  refine ⟨hserved _ _ _ _ fun ⟨hal, hva, htr, hacq⟩ r hr => ?_, hserved _ _ _ _ fun ⟨hal, hva, htr, hacq⟩ r hr => ?_,
    fun hnew => hserved _ _ _ _ fun ⟨hal, hva, htr, hacq⟩ r hr => ?_,
    fun hrlx hold hsimt ⟨hal, hva, htr, hacq⟩ hcached hatom hldt hearlier hport hl0 hhas hmark => ?_, fun hal => ?_⟩
  · exact runLanes_alone_ok hal ((loadGlobal_at hva htr).trans hr)
  · exact runLanes_alone_ok hal (congrArg (withPtr s t n.toNat u ∘ keepPtr t n.toNat (s.ptrBase t n.toNat) s.iss.pc.toNat)
      ((loadGlobal_at hva htr).trans hr))
  · refine runLanes_alone_ok hal ?_
    by_cases hord : mo.ord = .acq
    · simp only [hord, decide_true, if_true] at hr ⊢
      exact (loadGlobal_at hva htr).trans hr
    · obtain ⟨hg, hkind, -⟩ := State.translate_issuing htr
      simp only [hord, decide_false, if_false] at hr ⊢
      exact (constGlobal_at hva htr).trans ((constAt_fresh hg hkind (hnew.resolve_left hord)).trans hr)
  · refine runLanes_alone_ok hal ?_
    obtain ⟨hg, hkind, -⟩ := State.translate_issuing htr
    simp only [hrlx, if_false]
    refine (constGlobal_at hva htr).trans ((constAt_old hg hkind hold hsimt hcached hacq).trans ?_)
    by_cases hfree : s1.freeBit.1 = true
    · exact (if_pos hfree).trans (congrArg LaneRes.ok (if_pos hfree).symm)
    · exact (if_neg hfree).trans ((State.loadAt_l1 (s := s1.freeBit.2) hg hkind hacq ⟨hcached, hatom, hldt, hearlier⟩ hport
        hl0 hhas hmark).trans (congrArg LaneRes.ok (if_neg hfree).symm))
  · exact runLanes_alone_ok hal rfl

end Sys2Proof.Machine

/-! SUPPORT and PROOFS. A step of an issuing unit, and the fetch of its words (R34, R36, R392). -/

namespace Sys2Proof.Machine

namespace State

section
variable {s u s' : State} {g t pc pa e n : Nat} {ws l : List Word} {w : Word}
  (htr : s.translate g t ((pc + 4 * ws.length) % 2 ^ 64) 3 = .ok u pa e)
  (hread : u.unitAt (u.group g).kind.cluster (u.group g).rcb pa e 4 = (s', .ok (toBytes 4 w.toNat)))
include htr hread

/-- A word that does not complete the sequence: the fetch goes on with the next. -/
theorem fetchGo_more (hdec : decode (ws ++ [w]) = .truncated) :
    s.fetchGo g t pc (n + 1) ws = s'.fetchGo g t pc n (ws ++ [w]) := by
  simp only [fetchGo, htr, hread, wordsOf_toBytes, hdec]

/-- The word that completes an instruction ends the fetch. -/
theorem fetchGo_whole {i : Instr} (hdec : decode (ws ++ [w]) = .instr i l) :
    s.fetchGo g t pc (n + 1) ws = .words s' (ws ++ [w]) (.instr i l) := by
  simp only [fetchGo, htr, hread, wordsOf_toBytes, hdec]

end

/-- The words of an instruction, each read where its own address translates to, are fetched one after the other: k of
them have been, and the rest follow. -/
theorem fetchGo_words {g t pc : Nat} {ws l : List Word} {i : Instr} {after : Nat → State} (hdec : decode ws = .instr i l)
    (hpart : ∀ k, k < ws.length → decode (ws.take k) = .truncated)
    (hread : ∀ k, k < ws.length → ∃ u pa e, (after k).translate g t ((pc + 4 * k) % 2 ^ 64) 3 = .ok u pa e
      ∧ u.unitAt (u.group g).kind.cluster (u.group g).rcb pa e 4 = (after (k + 1), .ok (toBytes 4 (ws.getD k 0).toNat))) :
    ∀ (n k : Nat), k < ws.length → ws.length ≤ k + n →
      (after k).fetchGo g t pc n (ws.take k) = .words (after ws.length) ws (.instr i l) := by
  intro n
  induction n with
  | zero => intro k hk hn; omega
  | succ n ih =>
    intro k hk hn
    obtain ⟨u, pa, e, htr, hat⟩ := hread k hk
    have hlen : (ws.take k).length = k := List.length_take_of_le hk.le
    have hnext : ws.take k ++ [ws.getD k 0] = ws.take (k + 1) := by
      rw [List.getD_eq_getElem _ _ hk, List.take_append_getElem]
    by_cases hlast : k + 1 = ws.length
    · have hall : ws.take k ++ [ws.getD k 0] = ws := by rw [hnext, hlast, List.take_length]
      rw [fetchGo_whole (by rwa [hlen]) hat (by rwa [hall]), hall, hlast]
    · rw [fetchGo_more (by rwa [hlen]) hat (by rw [hnext]; exact hpart _ (by omega)), hnext]
      exact ih (k + 1) (by omega) (by omega)

end State

theorem filter_not_eq_nil {α : Type} {p : α → Bool} {l : List α} (h : ∀ x ∈ l, p x = true) :
    l.filter (fun x => !p x) = [] :=
  List.filter_eq_nil_iff.2 fun x hx => by simp [h x hx]

/-- A bundle whose words are all there issues the instruction that they decode to. -/
theorem issueThread_words {s s1 : State} {g t0 t : Nat} {ts : List Nat} {ws l : List Word} {i : Instr}
    (hb : s.bundle g t0 = t :: ts) (hall : ∀ r ∈ t :: ts, s.hasWords g r = true)
    (hf : s.fetch g t = .words s1 ws (.instr i l)) :
    issueThread s g t0 = afterCount (s.group g).kind.die (s.group g).rcb (runIssued (.instr i l)
      ((s1.countIssue g t0 (t :: ts) (some i)).setIssue g (t :: ts) (s.thread g t).pc ws)) := by
  simp only [issueThread, hb, List.filter_eq_self.2 hall, filter_not_eq_nil hall, hf, List.foldl_nil]
  rfl

/-- A turn of the schedule that names an issue of a unit. -/
theorem step_issue {s s0 : State} {u : Issuer} {clocks : Nat} {later : List Turn} (hrun : s.stopped = false)
    (hturn : s.agenda = { clocks := clocks, act := .issue u } :: later)
    (hs0 : s0 = { s with agenda := later, cycle := s.cycle + clocks }) : step s = runAct s0 (.issue u) := by
  rw [step, hrun, if_neg Bool.false_ne_true, State.turns, hturn, hs0]
  rfl

/-- A group that is not held, picks a thread and has no limit spent issues for that thread. -/
theorem issueGroup_picked {s : State} {g t0 : Nat} (hhalt : s.halted g = false) (hpick : s.pick g = some t0)
    (hspent : spentStep s g t0 = none) : issueGroup s g = issueThread s g t0 := by
  simp only [issueGroup, hhalt, hpick, hspent, Bool.false_eq_true, if_false]

/-- Settles O56: the premises choose the unit's group, its thread and its words; the words of the second part are fetched
by `State.fetchGo_words`. -/
theorem stepRunsDecodedInstruction : Obligations.StepRunsDecodedInstruction := by
  refine ⟨fun s s0 s1 u clocks later g t0 t ts ws l i hrun hturn hs0 hissuer hhalt hpick hspent hb hall hf => ?_,
    fun s g t ws i after hpc hlen hdec hpart hstart hread => ?_⟩
  · intro sc
    simp only [step_issue hrun hturn hs0, runAct, hissuer, issueGroup_picked hhalt hpick hspent,
      issueThread_words hb hall hf, runIssued]
    cases exec i sc <;> rfl
  · have hne : ws ≠ [] := by
      intro h
      rw [h] at hdec
      cases hdec
    have hwords := State.fetchGo_words hdec hpart hread 3 0 (List.length_pos_iff.2 hne) (by omega)
    rw [hstart, List.take_zero] at hwords
    exact (if_neg (not_not_intro hpc)).trans hwords

end Sys2Proof.Machine

/-! SUPPORT and PROOFS. A product enters its dispatch queue (R75, R145, R266 to R268). -/

namespace Sys2Proof.Machine

/-- A bundle of one quarter's threads has that quarter alone. -/
theorem quarters_one {ts : List Nat} {q : Nat} (hq : q < 4) (hne : ts ≠ []) (hall : ∀ t ∈ ts, t / 8 = q) :
    ((upTo 4).filter fun p => ts.any fun t => t / 8 = p) = [q] := by
  have hany : ∀ p, (ts.any fun t => t / 8 = p) = (p == q) := by
    intro p
    obtain ⟨t, ht⟩ := List.exists_mem_of_ne_nil ts hne
    rw [Bool.eq_iff_iff, List.any_eq_true, beq_iff_eq]
    refine ⟨fun ⟨u, hu, hup⟩ => ?_, fun hp => ⟨t, ht, ?_⟩⟩
    · rw [← hall u hu, of_decide_eq_true hup]
    · rw [hp, hall t ht, decide_eq_true rfl]
  simp only [hany, upTo, List.filter_beq, List.count_range, if_pos hq, List.replicate_one]

/-- A product of one quarter that passes every check and finds room: its threads go on, and its operation enters the
queue with the serial number of the product. -/
theorem product_queued {s : State} {m : Product} {en part q : Nat} {op : QuarterOp} (hkind : s.cur.kind = .simt en part)
    (hq : q < 4) (hne : s.iss.ts ≠ []) (hall : ∀ t ∈ s.iss.ts, t / 8 = q) (htile : pendingTile s m q = none)
    (hop : quarterOp s m q = .ok op) (hloads : quarterLoads s en op = none)
    (hown : quarterForeign s en (s.cur.lr, (s.owner s.iss.g (s.iss.ts.headD 0)).bid) op = none)
    (hroom : s.met s.iss.g 0 (.dispatch en part 1) = true) :
    product m s = .next
      (let st := s.iss.ts.foldl (fun (u : State) t => (u.advance t).settle t) s
       { st.modEngine en (fun E => { E with dispatch := E.dispatch ++ [{ op with serial := st.serial }] }) with
         serial := st.serial + 1 }) := by
  have hthreads : (s.iss.ts.filter fun t => [q].contains (t / 8)) = s.iss.ts :=
    List.filter_eq_self.2 fun t ht => by simp [hall t ht]
  have hnotraps : (s.iss.ts.filterMap fun t => (lget (t / 8) ([] : List (Nat × TrapInfo))).map fun ti => (t, ti)) = [] :=
    List.filterMap_eq_nil_iff.2 fun _ _ => rfl
  simp only [product, hkind, GroupKind.isSwarm, GroupKind.engine, quarters_one hq hne hall, htile, hop, hloads, hown,
    List.findSome?_cons, List.findSome?_nil, List.map_cons, List.map_nil, List.filterMap_cons, List.filterMap_nil,
    List.filter_cons, List.filter_nil, Option.map_none, Option.isNone_none, Option.isSome_none, if_true, List.length_cons,
    List.length_nil, Nat.zero_add, hroom, hthreads, hnotraps, trapLanes_nil, Bool.not_true, Bool.false_eq_true,
    if_false]

/-- Settles O39: the three forms are one product, which differs in the operand that B names and in the pattern. -/
theorem productsQueue : Obligations.ProductsQueue := by
  intro s q sa sb p h a b e tl op en part queued m
  have hqueued : ∀ (i : Instr) (m : Product), exec i s = product m s → queued i m := by
    intro i m hexec hkind hq hne hall htile hop hloads hown hroom
    exact hexec.trans (product_queued hkind hq hne hall htile hop hloads hown hroom)
  exact ⟨hqueued _ _ rfl, hqueued _ _ rfl, hqueued _ _ rfl⟩

end Sys2Proof.Machine

/-! PROOFS. A sequencer's command that completes without a record, where the regions do not stand in order (R273, R355). -/

namespace Sys2Proof.Machine

/-- A command whose loop bounds leave it no item, and of which nothing failed. -/
def emptyCommand : SeqCmd :=
  { number := 1, w := [], bounds := [0, 0, 0], blk := 0, entry := none, who := {}, serial := 0 }

/-- The command at the head of engine 0's queue. Its region, 0, keeps the header of a record that it was told of, and
stands in the list of regions behind region 1. -/
def disordered : State :=
  { State.reset with
    regions := [(1, default), (0, { (default : Region) with told := [{ kind := 2, cause := 0 }] })]
    engines := [(0, { (default : Engine) with queue := [emptyCommand] })] }

/-- A quarter operation, a loader's entry and a store to a device register, of which the clause about an ended command
says nothing. -/
def otherOp : QuarterOp :=
  { part := 0, blk := 0, entry := 0, tile := 0, sa := default, sb := default, rows := [], cols := [], wb := none
    sparse := none, serial := 0 }

@[inherit_doc otherOp]
def otherEntry : WbEntry :=
  { blk := 0, offset := 0, spm := 0, n := 0, raw := true, slot := default, srn := 0, key := 0, who := {}, ent := 0
    serial := 0 }

@[inherit_doc otherOp]
def otherStore : DevStore := { unit := 0, page := 0, off := 0, bytes := [], who := {} }

/-- The regions in the state that an instruction leaves. -/
def regionsLeft : Host.Outcome State Fault Refusal → List (Nat × Region)
  | .next s => s.regions
  | _ => []

/-- Refutes O49, in its clause about a head command without items left: the clause lets the completion change nothing
but the engine. To complete an entry the model also writes the entry's region back, without the headers of records that
the entry holds (`State.forgetTold`), of which there are none here. Where the keys of the table rise, that is no change;
where a greater key stands before the region's, `lput` binds the region a second time, and the table grows. Updates
keep the keys rising (`rising_lput`), but the statement is about every state, and no premise says that they rise. -/
theorem not_matrixAgents : ¬ Obligations.MatrixAgents := by
  intro h
  obtain ⟨-, -, -, hended, -⟩ := h disordered disordered 0 0 otherOp [] emptyCommand [] otherEntry [] otherStore 0 0
    (.sequencerItem 0)
  have hexec := hended rfl (by decide) rfl (by decide)
  have hgrown : regionsLeft (exec (.sequencerItem 0) disordered) ≠ disordered.regions := by decide
  rw [hexec] at hgrown
  exact hgrown rfl

end Sys2Proof.Machine

/-! SUPPORT and PROOFS. What the marking of a leaf changes (R88). -/

namespace Sys2Proof.Machine

/-- A list changed entry by entry, each keeping its key. -/
theorem lget_map_entries {α β : Type} {f : Nat × α → Nat × β} (hf : ∀ e, (f e).1 = e.1) (k : Nat)
    (l : List (Nat × α)) : lget k (l.map f) = (lget k l).map fun v => (f (k, v)).2 := by
  induction l with
  | nil => rfl
  | cons e r ih =>
    obtain ⟨j, v⟩ := e
    simp only [List.map_cons, lget, hf, ih]
    split
    · rename_i hj
      rw [hj, Option.map_some]
    · rfl

/-- A write that overtakes an L1 changes the words that it touches alone. -/
theorem lget_patchAll {wa : Nat} {ws : List Nat} (h : wa ∉ ws) (pa : Nat) (bs : List Byte) (l : L1) :
    lget wa (State.patchAll pa bs ws l).words = lget wa l.words := by
  unfold State.patchAll
  rw [lget_map_entries (fun e => by split <;> rfl)]
  simp [h]

namespace State

/-- A write at home changes the words that it touches alone in an L1. -/
theorem l1Word_homeWrite {pa wa : Nat} {bs : List Byte} (h : wa ∉ wordsIn pa bs.length) (s : State) (c : Nat) :
    (s.homeWrite pa bs).l1Word c wa = s.l1Word c wa := by
  have hl : (s.homeWrite pa bs).l1s = s.l1s.map fun e => (e.1, patchAll pa bs (wordsIn pa bs.length) e.2) := rfl
  unfold l1Word l1 lgetD
  rw [hl, lget_map_entries (f := fun e => (e.1, patchAll pa bs (wordsIn pa bs.length) e.2)) fun _ => rfl]
  cases lget c s.l1s with
  | none => rfl
  | some l => exact congrArg (Option.getD · {}) (lget_patchAll h pa bs l)

theorem homeWrite_flight_length (s : State) (pa : Nat) (bs : List Byte) :
    (s.homeWrite pa bs).flight.length = s.flight.length := List.length_map _

/-- A leaf with its bits set already stays as it is. -/
theorem touch_marked {s : State} {h : TlbEntry} {acc : Nat} (ha : h.leaf.testBit 6 = true)
    (hd : acc = 1 ∨ acc = 2 → h.leaf.testBit 7 = true) : s.touch h acc = s := by
  have hmark (i : Nat) (hi : h.leaf.testBit i = true) : h.leaf &&& 2 ^ i = 2 ^ i := by
    rw [Nat.and_two_pow, hi, Bool.toNat_true, one_mul]
  refine if_pos ?_
  change h.leaf &&& _ = _
  split
  · rename_i hw
    exact (Nat.and_or_distrib_left h.leaf (2 ^ 6) (2 ^ 7)).trans (by rw [hmark 6 ha, hmark 7 (hd hw)])
  · exact hmark 6 ha

/-- Setting A and D of a leaf writes the byte of the leaf alone. -/
theorem touch_keeps (s : State) (h : TlbEntry) (acc : Nat) :
    (s.touch h acc).flight.length = s.flight.length
      ∧ (∀ a, a ≠ h.slot → readByte (s.touch h acc).mem a = readByte s.mem a)
      ∧ ∀ c wa, wa ≠ h.slot / 4 * 4 → (s.touch h acc).l1Word c wa = s.l1Word c wa := by
  unfold touch
  dsimp only
  generalize (if acc = 1 ∨ acc = 2 then 0xC0 else 0x40) = want
  split
  · exact ⟨rfl, fun _ _ => rfl, fun _ _ _ => rfl⟩
  · generalize s.homeByte h.slot ||| BitVec.ofNat 8 want = b
    refine ⟨homeWrite_flight_length s h.slot [b], fun a ha => homeWrite_out s (by simp; omega), fun c wa hw => ?_⟩
    have hone : wordsIn h.slot [b].length = [h.slot / 4 * 4] := by
      have hlen : (h.slot % 4 + 1 + 3) / 4 = 1 := by omega
      simp [wordsIn, upTo, hlen]
    exact l1Word_homeWrite (by rwa [hone, List.mem_singleton]) s c

end State

/-- Settles O22: a translation that succeeds has at most marked the leaf that it found. -/
theorem translationMarksLeaf : Obligations.TranslationMarksLeaf := by
  intro s s1 g t va acc ldt pa mt G h
  obtain ⟨hgroups, -, hblocks, -⟩ := State.translate_groups h
  obtain ⟨e, hfind, rfl, -⟩ := State.translate_ok h
  obtain ⟨hflight, hmem, hl1⟩ := State.touch_keeps s e acc
  exact ⟨e, hfind, State.touch_marked, hgroups, hblocks, hflight, hmem, fun c a ha => hl1 c _ (by omega)⟩

end Sys2Proof.Machine

/-! SUPPORT. Accesses of a lone thread to the scratchpad: their checks, and what the lines that they meet decide (R109,
R215 to R217). -/

namespace Sys2Proof.Machine

namespace State

/-! What a thread's accesses ask of the state is the same once the thread has moved on. -/

@[simp] theorem advance_acquiring (s : State) (t g u : Nat) : (s.advance t).acquiring g u = s.acquiring g u := by
  rw [advance_only]; rfl
@[simp] theorem advance_reading (s : State) (t g u : Nat) : (s.advance t).reading g u = s.reading g u := by
  rw [advance_only]; rfl
@[simp] theorem advance_spmRead (s : State) (t b a n : Nat) : (s.advance t).spmRead b a n = s.spmRead b a n := by
  rw [advance_only]; rfl
@[simp] theorem advance_line (s : State) (t b l : Nat) : (s.advance t).line b l = s.line b l := by
  rw [advance_only]; rfl
@[simp] theorem advance_emptyLine (s : State) (t b a n : Nat) : (s.advance t).emptyLine b a n = s.emptyLine b a n := by
  rw [advance_only]; rfl
@[simp] theorem advance_poisoned (s : State) (t b a n : Nat) : (s.advance t).poisoned b a n = s.poisoned b a n := by
  rw [advance_only]; rfl
@[simp] theorem advance_spmSize (s : State) (t g : Nat) : (s.advance t).spmSize g = s.spmSize g := by
  simp only [spmSize, advance_kind, advance_blk, advance_block]

/-- The block of the group that issues. -/
theorem advance_cur_blk (s : State) (t : Nat) : ((s.advance t).group s.iss.g).blk = s.cur.blk := advance_blk ..

end State

section
variable {s : State} {t size : Nat} {a : Int} {sext : Bool} {dst : List Nat}

/-- An aligned access inside the allocation passes. -/
theorem spmCheck_inside (h : a % size = 0 ∧ 0 ≤ a ∧ a < 2 ^ 32 ∧ a.toNat + size ≤ s.spmSize s.iss.g) :
    spmCheck (s.advance t) a false size = none := by
  obtain ⟨hal, h0, hhigh, hend⟩ := h
  simp only [spmCheck, misaligned_none_int hal, State.spmBad, State.advance_iss, State.advance_spmSize, Int.not_lt.2 h0,
    Int.not_le.2 hhigh, Nat.not_lt.2 hend, or_self, Bool.false_eq_true, if_false]

/-- An aligned access past the allocation is out of bounds (R215, R381). -/
theorem spmCheck_past (hal : a % size = 0) (h0 : 0 ≤ a) (hhigh : a < 2 ^ 32)
    (hend : s.spmSize s.iss.g < a.toNat + size) :
    spmCheck (s.advance t) a false size = some { cause := cSPM, addr := Nat.max a.toNat (s.spmSize s.iss.g) } := by
  simp only [spmCheck, misaligned_none_int hal, State.spmBad, State.advance_iss, State.advance_spmSize, Int.not_lt.2 h0,
    Int.not_le.2 hhigh, hend, or_self, Bool.false_eq_true, if_false, if_true]

/-- An access that does not pass its checks traps. -/
theorem loadSpm_trap {high : Bool} {ti : TrapInfo} (h : spmCheck s a high size = some ti) :
    loadSpm s t a high size sext dst = .trap ti := by
  simp only [loadSpm, h]

@[inherit_doc loadSpm_trap]
theorem storeSpm_trap {s0 : State} {high : Bool} {bs : List Byte} {mo : MemOrd} {ti : TrapInfo}
    (h : spmCheck s a high bs.length = some ti) : storeSpm s0 s t a high bs mo = .trap ti := by
  simp only [storeSpm, h]

/-! ### Loads: a line is empty, or the lines are full, and good or poisoned (R216) -/

variable (hcheck : spmCheck (s.advance t) a false size = none) (hacq : s.acquiring s.iss.g t = false)
include hcheck hacq

theorem loadSpm_empty {l : Nat} (hl : s.emptyLine s.cur.blk a.toNat size = some l) :
    loadSpm (s.advance t) t a false size sext dst = .wait (s.advance t) (.full s.cur.blk l) := by
  simp only [loadSpm, hcheck, State.advance_iss, State.advance_acquiring, hacq, State.spmReady, State.advance_cur_blk,
    State.advance_emptyLine, hl, Bool.false_eq_true, if_false]

variable (hfull : s.emptyLine s.cur.blk a.toNat size = none)
include hfull

theorem loadSpm_full (hgood : s.poisoned s.cur.blk a.toNat size = false) :
    loadSpm (s.advance t) t a false size sext dst = .ok ((s.advance t).landDst s.iss.g t [] dst
      (State.loadWords size sext (s.spmRead s.cur.blk a.toNat size))) := by
  simp only [loadSpm, hcheck, State.advance_iss, State.advance_acquiring, hacq, State.spmReady, State.advance_cur_blk,
    State.advance_emptyLine, hfull, State.advance_poisoned, hgood, State.advance_spmRead, Bool.false_eq_true, if_false]

theorem loadSpm_poisoned (hbad : s.poisoned s.cur.blk a.toNat size = true) :
    loadSpm (s.advance t) t a false size sext dst = .trap { cause := cPOISON, addr := a.toNat } := by
  simp only [loadSpm, hcheck, State.advance_iss, State.advance_acquiring, hacq, State.spmReady, State.advance_cur_blk,
    State.advance_emptyLine, hfull, State.advance_poisoned, hbad, Bool.false_eq_true, if_false, if_true]

end

/-! ### Stores: what is written back first, and the bytes -/

/-- What a store on the scratchpad writes back first: at .rel.sys the cluster's earlier epochs (R109). -/
def spmClose (s0 s : State) (t : Nat) (mo : MemOrd) : Option Nat × State :=
  if mo.ord = .rel && mo.scope = .sys && (fencedOn s0 t).isNone then s.closeEpoch (s.group s.iss.g).kind.cluster
  else (none, s)

section
variable {s0 s : State} {t : Nat} {mo : MemOrd}

theorem spmClose_plain (h : ¬(mo.ord = .rel ∧ mo.scope = .sys)) : spmClose s0 s t mo = (none, s) :=
  if_neg (by simp_all)

theorem spmClose_sys (h : mo.ord = .rel ∧ mo.scope = .sys) (hf : fencedOn s0 t = none) :
    spmClose s0 s t mo = s.closeEpoch (s.group s.iss.g).kind.cluster := if_pos (by simp_all)

/-- A release that has nothing on its way does not wait for it, nor does another access. -/
theorem sent_idle (h : mo.ord = .rel → s.sentBusy s.iss.g t = none) :
    (decide (mo.ord = .rel) && (s.sentBusy s.iss.g t).isSome) = false := by
  by_cases hr : mo.ord = .rel
  · rw [h hr, Option.isSome_none, Bool.and_false]
  · rw [decide_eq_false hr, Bool.false_and]

/-- A store whose waits are over, and which has nothing to write back, writes its bytes. -/
theorem storeSpm_done {a : Int} {bs : List Byte} (hcheck : spmCheck (s.advance t) a false bs.length = none)
    (hread : s.reading s.iss.g t = false) (hsent : mo.ord = .rel → (s.advance t).sentBusy s.iss.g t = none)
    (hclose : spmClose s0 (s.advance t) t mo = (none, s.advance t)) :
    storeSpm s0 (s.advance t) t a false bs mo = .ok ((s.advance t).spmWrite s.cur.blk a.toNat bs) := by
  have hidle := sent_idle (by rwa [State.advance_iss])
  unfold spmClose at hclose
  simp only [storeSpm, hcheck, State.advance_iss] at hclose hidle ⊢
  simp only [State.advance_reading, hread, hidle, hclose, State.advance_cur_blk, Bool.false_eq_true, if_false]

end

/-! PROOFS. -/

/-- Settles O26: an access inside the allocation passes its checks, and what its lines hold decides the rest. -/
theorem scratchpadAccesses : Obligations.ScratchpadAccesses := by
  intro s s1 t mo d a off sz mode n g b size st x inside loaded full bytes plain sent u
  have hload {x : Int} (hin : inside x) (hacq : s.acquiring g t = false) (hfull : full x) :
      loadSpm st t x false size (Size.isSigned sz) (loadDst s t d sz) = .ok (loaded x) :=
    loadSpm_full (spmCheck_inside hin) hacq hfull.1 hfull.2
  have hcheck {x : Int} (hin : inside x) : spmCheck st x false bytes.length = none := by
    rw [storeBytes_length]
    exact spmCheck_inside hin
  refine ⟨fun hal hin hacq hfull => ?_, fun hal hin hacq l hl => ?_, fun hal hin hacq hfull hbad => ?_,
    fun hal hin hhigh hacq hfull => ?_, fun hal hin hread hsent hp => ?_, fun hal hin hread hsent hp hf hc => ?_,
    fun hal hin hhigh hread hsent hp => ?_⟩
  · exact runLanes_alone_ok hal (hload hin hacq hfull)
  · exact runLanes_alone_wait hal (loadSpm_empty (spmCheck_inside hin) hacq hl)
  · exact runLanes_alone_trap hal (loadSpm_poisoned (spmCheck_inside hin) hacq hfull hbad)
  · refine runLanes_alone_ok hal ?_
    change withPtr s t n.toNat u (if true = true then loadSpm st t u.addr u.high size _ _ else _) = _
    rw [if_pos rfl, hhigh, hload hin hacq hfull]
    rfl
  · exact runLanes_alone_ok hal (storeSpm_done (hcheck hin) hread hsent (spmClose_plain hp))
  · obtain rfl := closeEpoch_none hc
    refine runLanes_alone_ok hal (storeSpm_done (hcheck hin) hread hsent ((spmClose_sys (not_not.1 hp) hf).trans ?_))
    rwa [State.advance_iss, State.advance_kind]
  · refine runLanes_alone_ok hal ?_
    change withPtr s t n.toNat u (if true = true then storeSpm s st t u.addr u.high bytes mo else _) = _
    rw [if_pos rfl, hhigh, storeSpm_done (hcheck hin) hread hsent (spmClose_plain hp)]
    rfl

end Sys2Proof.Machine

/-! SUPPORT and PROOFS. Where loads and stores of a lone thread trap (R89, R215, R217, R343). -/

namespace Sys2Proof.Machine

/-- A global address is one of 64 bits. -/
theorem globalAddr_lt (s : State) (t : Nat) (a : Field) (size : Nat) (off : BitVec 34) :
    s.globalAddr t a size off < 2 ^ 64 := by
  unfold State.globalAddr wrap
  omega

/-- A misaligned address is named in the trap. -/
theorem misaligned_some {a n : Nat} (hn : a % n ≠ 0) (ha : a < 2 ^ 64) :
    misaligned a n = some { cause := cMISALIGN, addr := a } := by
  have hwrap : wrap 64 (a : Int) = a := by
    unfold wrap
    omega
  unfold misaligned
  rw [if_pos (by exact_mod_cast hn), hwrap]

section
variable {s0 s : State} {t : Nat} {a : Nat} {ti : TrapInfo}

theorem loadGlobal_misaligned {size : Nat} {sext acq : Bool} {dst : List Nat} (h : misaligned a size = some ti) :
    loadGlobal s t a size sext acq dst = .trap ti := by
  simp only [loadGlobal, h]

theorem constGlobal_misaligned {size : Nat} {sext : Bool} {dst : List Nat} (h : misaligned a size = some ti) :
    constGlobal s t a size sext dst = .trap ti := by
  simp only [constGlobal, h]

theorem storeGlobal_misaligned {bs : List Byte} {mo : MemOrd} (h : misaligned a bs.length = some ti) :
    storeGlobal s0 s t a bs mo = .trap ti := by
  simp only [storeGlobal, h]

theorem loadGlobal_fault {size : Nat} {sext acq : Bool} {dst : List Nat} (hal : a % size = 0)
    (h : s.translate s.iss.g t a 0 = .fault ti) : loadGlobal s t a size sext acq dst = .trap ti := by
  simp only [loadGlobal, misaligned_none hal, Int.toNat_natCast, h, withPage]

theorem constGlobal_fault {size : Nat} {sext : Bool} {dst : List Nat} (hal : a % size = 0)
    (h : s.translate s.iss.g t a 0 = .fault ti) : constGlobal s t a size sext dst = .trap ti := by
  simp only [constGlobal, misaligned_none hal, h, withPage]

theorem storeGlobal_fault {bs : List Byte} {mo : MemOrd} (hal : a % bs.length = 0)
    (h : s.translate s.iss.g t a 1 = .fault ti) : storeGlobal s0 s t a bs mo = .trap ti := by
  simp only [storeGlobal, misaligned_none hal, Int.toNat_natCast, h, withPage]

end

/-- Settles O27: the checks of an access come in the order of the clauses. -/
theorem accessTraps : Obligations.AccessTraps := by
  intro s t mo d a off sz ti size va x traps bound
  have hmis (h : va % size ≠ 0) : misaligned va size = some { cause := cMISALIGN, addr := va } :=
    misaligned_some h (globalAddr_lt ..)
  have hlen : (storeBytes s t d sz).length = size := storeBytes_length ..
  have hfault {acc : Nat} (h : (s.advance t).translate s.iss.g t va acc = .fault ti) :
      (s.advance t).translate (s.advance t).iss.g t va acc = .fault ti := by rwa [State.advance_iss]
  refine ⟨fun hal => ⟨fun hva => ?_, fun hva hx => ?_⟩, fun hal => ⟨fun hva => ?_, fun hva hx => ?_⟩,
    fun hal => ⟨fun hva => ?_, fun hva hx => ?_⟩, fun hal hx h0 hhigh hend => ?_, fun hal hx h0 hhigh hend => ?_⟩
  · exact runLanes_alone_trap hal (loadGlobal_misaligned (hmis hva))
  · exact runLanes_alone_trap hal (loadGlobal_fault hva (hfault hx))
  · refine runLanes_alone_trap hal ?_
    by_cases hord : mo.ord = .acq
    · exact (if_pos hord).trans (loadGlobal_misaligned (hmis hva))
    · exact (if_neg hord).trans (constGlobal_misaligned (hmis hva))
  · refine runLanes_alone_trap hal ?_
    by_cases hord : mo.ord = .acq
    · exact (if_pos hord).trans (loadGlobal_fault hva (hfault hx))
    · exact (if_neg hord).trans (constGlobal_fault hva (hfault hx))
  · exact runLanes_alone_trap hal (storeGlobal_misaligned (by rw [hlen]; exact hmis hva))
  · exact runLanes_alone_trap hal (storeGlobal_fault (by rwa [hlen]) (hfault hx))
  · exact runLanes_alone_trap hal (loadSpm_trap (spmCheck_past hx h0 hhigh hend))
  · exact runLanes_alone_trap hal (storeSpm_trap (by rw [hlen]; exact spmCheck_past hx h0 hhigh hend))

end Sys2Proof.Machine

/-! SUPPORT and PROOFS. The two ways in which a global store completes (R90, R102, R104, R109, R114, R167, R217). -/

namespace Sys2Proof.Machine

namespace State

/-- The page takes a store past the L1: it is uncached, or no L1 caches its target (R90). -/
def goesOut (s : State) (k : GroupKind) (pa mt : Nat) : Bool := mt = 1 || s.isRemote k.die pa

/-- What a global store writes back first: a release at .sys, or of an uncached page, the cluster's earlier epochs
(R109). -/
def storeClose (s : State) (k : GroupKind) (pa mt : Nat) (mo : MemOrd) (eager : Option Nat) : Option Nat × State :=
  if (mo.ord = .rel && mo.scope = .sys || mo.ord = .rel && s.goesOut k pa mt) && eager.isNone then
    s.closeEpoch k.cluster
  else (none, s)

section
variable {s : State} {g t pa mt : Nat} {k : GroupKind} {bs : List Byte} {mo : MemOrd} {eager : Option Nat}
  (hg : s.iss.g = g) (hk : (s.group g).kind = k) (hread : s.reading g t = false)
  (hsent : mo.ord = .rel → s.sentBusy g t = none) (hclose : s.storeClose k pa mt mo eager = (none, s))
include hg hk hread hsent hclose

/-- A store to an uncached page, its waits over, goes to its target. -/
theorem storeAt_out (hout : s.goesOut k pa mt = true) (hfail : s.accessFail k.die pa = none) :
    s.storeAt t pa mt bs mo eager = .ok (s.post (chanPage g (pa / 4096)) k.die (s.homeDie k.die pa)
      (.ustore pa bs (s.who t))) := by
  subst hg hk
  have hidle := sent_idle hsent
  have hnear : (decide (mt = 0) && !s.isRemote (s.group s.iss.g).kind.die pa) = false := by
    unfold goesOut at hout
    grind
  unfold storeClose goesOut at hclose
  unfold goesOut at hout
  simp only [storeAt, hread, hidle, hnear, hclose, Bool.false_and, Bool.false_eq_true, if_false]
  simp only [hout, hfail, if_true]

/-- A store to a cached page, its waits over, is the L1's store. -/
theorem storeAt_in {s' : State} (hin : s.goesOut k pa mt = false) (hatom : s.atomOn g t pa bs.length = false)
    (hport : s.portBusy k.port pa = false)
    (hstore : (s.noteUnfenced t k.cluster pa bs.length).storeL1 k.cluster pa bs (s.who t)
      (mo.ord = .rel && (mo.scope = .dflt || mo.scope = .die || mo.scope = .dev)) = .ok s') :
    s.storeAt t pa mt bs mo eager = .ok (throughL0 s s' g pa bs.length) := by
  subst hg hk
  have hidle := sent_idle hsent
  unfold storeClose goesOut at hclose
  unfold goesOut at hin
  simp only [storeAt, hread, hidle, hatom, hclose, Bool.and_false, Bool.false_eq_true, if_false]
  simp only [hin, hport, hstore, Bool.false_eq_true, if_false]

end

end State

/-- A store at an aligned address that translates is the store at its page. -/
theorem storeGlobal_at {s0 s s1 : State} {t pa mt : Nat} {a : Int} {bs : List Byte} {mo : MemOrd}
    (hal : a % bs.length = 0) (htr : (s.advance t).translate s.iss.g t a.toNat 1 = .ok s1 pa mt) :
    storeGlobal s0 (s.advance t) t a bs mo = s1.storeAt t pa mt bs mo (fencedOn s0 t) := by
  simp only [storeGlobal, misaligned_none_int hal, State.advance_iss, htr, withPage]

/-- Settles O24: both forms come to `State.storeAt` at the translated address, whose two ends are the two clauses. -/
theorem globalStoresComplete : Obligations.GlobalStoresComplete := by
  intro s s1 s2 s3 t mo d a off sz mode n pa mt k c size bs rel stored u
  have hlen : bs.length = size := storeBytes_length ..
  have hstored : ∀ (i : Instr) (va : Int) (fin : State → State),
      (Alone i s t → va % bs.length = 0 → (s.advance t).translate s.iss.g t va.toNat 1 = .ok s1 pa mt →
        ∀ r, s1.storeAt t pa mt bs mo (fencedOn s t) = .ok r → DoneAlone i s t (fin r)) → stored i va fin := by
    intro i va fin hdone hal hva htr hread hsent hatom hepoch
    obtain ⟨hg, hkind, -⟩ := State.translate_issuing htr
    have hends := hdone hal (by rwa [hlen]) htr
    obtain ⟨rfl, hclose⟩ : s2 = s1 ∧ s1.storeClose k pa mt mo (fencedOn s t) = (none, s2) := by
      unfold State.storeClose State.goesOut
      rw [← Bool.and_or_distrib_left]
      split at hepoch
      · rename_i hcloses
        exact ⟨closeEpoch_none hepoch, (if_pos hcloses).trans hepoch⟩
      · rename_i hcloses
        exact ⟨hepoch, by rw [hepoch]; exact if_neg hcloses⟩
    refine ⟨fun haway hport hstore => hends _ ?_, fun haway hfail => hends _ ?_⟩
    · rw [← hlen] at hstore ⊢
      exact State.storeAt_in hg hkind hread hsent hclose haway (by rw [hlen]; exact hatom haway) hport hstore
    · exact State.storeAt_out hg hkind hread hsent hclose haway hfail
  refine ⟨hstored _ _ id fun hal hva htr r hr => ?_,
    hstored _ u.addr (fun st => st.movePtr t n.toNat u) fun hal hva htr r hr => ?_⟩
  · exact runLanes_alone_ok hal ((storeGlobal_at hva htr).trans hr)
  · exact runLanes_alone_ok hal (congrArg (withPtr s t n.toNat u) ((storeGlobal_at hva htr).trans hr))

end Sys2Proof.Machine

/-! SUPPORT and PROOFS. ACPY, QJOIN, QWAIT and MFREE at their issuer (R111, R115, R222, R226 to R229). -/

namespace Sys2Proof.Machine

/-- An entry that need not wait for a release finds the state as it was. -/
theorem entryWait_none {s0 s s' : State} {t : Nat} {mo : MemOrd} (h : entryWait s0 s t mo = (s', none)) : s' = s := by
  unfold entryWait at h
  grind [releaseFirst_none]

/-- What the waits of a QWAIT read of its thread, once the thread has moved on. -/
theorem met_out_advance (s : State) (t q n : Nat) :
    (s.advance t).met s.iss.g t (.out q n) = decide ((s.th t).out.getD q 0 ≤ n) := by
  unfold State.met State.metOwn at0 State.th
  rw [State.thread_advance_part Thread.out fun _ _ _ => rfl]

/-- Settles O29: the premises pass the checks of each instruction in their order. -/
theorem copyQueueInstructions : Obligations.CopyQueueInstructions := by
  intro s s1 t mo q qs a
  simp only [State.cur]
  refine ⟨fun hal hcheck hwait hlines => ?_, fun hal hroom => ?_, fun hal => ⟨fun hout => ?_, fun hout => ?_⟩,
    fun hal => ?_⟩
  · obtain rfl := entryWait_none hwait
    have hfree : (if cqMarks (s.run t a 8) then cqLines (s.run t a 8) else []).find?
        (fun l => 15 ≤ ((s.advance t).line (s.group s.iss.g).blk l).count) = none :=
      List.find?_eq_none.2 fun l hl => by simpa using hlines l hl
    refine ⟨fun hitems hroom => runLanes_alone_ok hal ?_, fun hitems => runLanes_alone_ok hal ?_⟩
    · simp only [State.advance_iss, State.advance_kind, State.advance_blk, State.advance_rcb, hcheck, hwait, hfree,
        hitems, hroom, if_false, if_true]
    · simp only [State.advance_iss, State.advance_kind, State.advance_blk, State.advance_rcb, hcheck, hwait, hfree,
        hitems, if_true]
  · refine runLanes_alone_ok hal ?_
    simp only [State.advance_iss, State.advance_kind, hroom, State.fresh, if_true]
  · refine runLanes_alone_ok hal ?_
    simp only [State.advance_iss, met_out_advance, hout, decide_true, if_true]
  · refine runLanes_alone_wait hal ?_
    simp only [State.advance_iss, met_out_advance, Nat.not_le.2 hout, decide_false, Bool.false_eq_true, if_false]
  · refine runLanes_alone_ok hal ?_
    simp only [State.advance_iss, State.advance_blk]

end Sys2Proof.Machine

/-! SUPPORT and PROOFS. LDT, RDM, RDM.spm and TKDROP at their issuer (R121, R122, R230 to R232, R383). -/

namespace Sys2Proof.Machine

/-- A redemption that is no drop sends one message: its request, or its failure (R384). -/
theorem sendRedeem_sends (s : State) (t id k : Nat) (spm : Option Nat) :
    ∃ m, sendRedeem s t id k spm false = { s with flight := s.flight ++ [m] } := by
  unfold sendRedeem
  dsimp only
  split
  · exact ⟨_, rfl⟩
  · exact ⟨_, rfl⟩

namespace State

@[simp] theorem advance_lands (s : State) (t : Nat) : (s.advance t).lands = s.lands := by rw [advance_only]
@[simp] theorem settle_lands (s : State) (t : Nat) : (s.settle t).lands = s.lands := by rw [settle_only]
@[simp] theorem settle_flight (s : State) (t : Nat) : (s.settle t).flight = s.flight := by rw [settle_only]

theorem line_congr {s s' : State} (h : s'.blocks = s.blocks) (b l : Nat) : s'.line b l = s.line b l := by
  unfold line block
  rw [h]

theorem markLine_only (s : State) (b l : Nat) : s.markLine b l = { s with blocks := (s.markLine b l).blocks } := by
  unfold markLine modLine modBlock
  split <;> rfl

theorem markLine_blocks_congr {s s' : State} (h : s'.blocks = s.blocks) (b l : Nat) :
    (s'.markLine b l).blocks = (s.markLine b l).blocks := by
  unfold markLine modLine modBlock
  rw [h]
  split
  · rfl
  · exact h

theorem nextEnt_only (s : State) (g t key : Nat) :
    (s.nextEnt g t key).2 = { s with groups := (s.nextEnt g t key).2.groups } := modGroup_only _ _ _

end State

/-- A thread numbered in a queue, with a line of its block marked. -/
def enteredLine (s : State) (g t key b l : Nat) : State := (s.nextEnt g t key).2.markLine b l

section
variable (s : State) (g t key b l : Nat)

theorem enteredLine_only : enteredLine s g t key b l =
    { s with groups := (s.nextEnt g t key).2.groups, blocks := (s.markLine b l).blocks } := by
  unfold enteredLine
  rw [State.markLine_only, State.markLine_blocks_congr (s := s) (by rw [State.nextEnt_only]), State.nextEnt_only]

theorem enteredLine_iss : (enteredLine s g t key b l).iss = s.iss := by rw [enteredLine_only]
theorem enteredLine_lands : (enteredLine s g t key b l).lands = s.lands := by rw [enteredLine_only]
theorem enteredLine_flight : (enteredLine s g t key b l).flight = s.flight := by rw [enteredLine_only]
theorem enteredLine_blocks : (enteredLine s g t key b l).blocks = (s.markLine b l).blocks := by rw [enteredLine_only]
theorem enteredLine_groups : (enteredLine s g t key b l).groups = (s.nextEnt g t key).2.groups := by
  rw [enteredLine_only]

/-- The number and the mark leave a thread where it is. -/
theorem enteredLine_pc : ((enteredLine s g t key b l).th t).pc = (s.th t).pc := by
  have hiss : (s.nextEnt g t key).2.iss = s.iss := by rw [State.nextEnt_only]
  rw [State.th_congr (enteredLine_groups ..) ((enteredLine_iss ..).trans hiss.symm), State.th, hiss]
  exact State.thread_modThread_part Thread.pc
    (f := fun h => { h with ent := lput key (s.nextEnt g t key).1 h.ent }) (fun _ => rfl) s g t s.iss.g t

end

/-- RDM.spm of a thread whose address, ticket and line pass: the redemption takes its number and marks its line, and its
landing and its request are on their way. -/
theorem execRdmSpm_sent {s : State} {t : Nat} {d a : Field} (hal : Alone (.rdmSpm d a) s t)
    (hx : (s.reg t d).toNat % 64 = 0) (hin : (s.advance t).spmBad s.iss.g (s.reg t d).toNat 64 = none)
    (hcheck : ticketCheck (s.advance t) (s.reg t a).toNat = none)
    (hcount : (s.advance t).met s.iss.g t (.count (s.group s.iss.g).blk ((s.reg t d).toNat / 128)) = true) :
    ∃ (s' : State) (l : Landing) (m : Msg), exec (.rdmSpm d a) s = .next (s'.settle t)
      ∧ s'.lands = s.lands ++ [l] ∧ s'.flight = s.flight ++ [m]
      ∧ s'.blocks = ((s.advance t).markLine (s.group s.iss.g).blk ((s.reg t d).toNat / 128)).blocks
      ∧ (s'.th t).pc = ((s.advance t).th t).pc := by
  let u := enteredLine (s.advance t) s.iss.g t 36 (s.group s.iss.g).blk ((s.reg t d).toNat / 128)
  let l : Landing :=
    { id := u.nextKey, e := (s.group s.iss.g).kind.engine, blk := (s.group s.iss.g).blk
      spm := (s.reg t d).toNat, va := 0
      size := 64, who := u.fresh.2.who t, pa := 0, mt := 0, rcb := (s.group s.iss.g).rcb
      ent := ((s.advance t).nextEnt s.iss.g t 36).1, source := 9, index := 0, first := 0 }
  obtain ⟨m, hm⟩ := sendRedeem_sends { u.fresh.2 with lands := u.lands ++ [l] } t u.nextKey (s.reg t a).toNat
    (some (s.reg t d).toNat)
  have hlands : u.lands = s.lands := (enteredLine_lands ..).trans (State.advance_lands ..)
  have hflight : u.flight = s.flight := (enteredLine_flight ..).trans (State.advance_flight ..)
  have hpc : (u.th t).pc = ((s.advance t).th t).pc := enteredLine_pc ..
  refine ⟨{ u.fresh.2 with lands := u.lands ++ [l], flight := u.flight ++ [m] }, l, m, runLanes_alone_ok hal ?_,
    congrArg (· ++ [l]) hlands, congrArg (· ++ [m]) hflight, enteredLine_blocks .., hpc⟩
  simp only [misaligned_none hx, State.advance_iss, hin, hcheck, State.advance_blk, hcount, Bool.not_true,
    Bool.false_eq_true, if_false, State.advance_kind, State.advance_rcb]
  exact congrArg LaneRes.ok hm

/-- Settles O30: the premises pass the checks of each instruction in their order. -/
theorem ticketInstructions : Obligations.TicketInstructions := by
  intro s s1 t mo d a sz pa mt
  simp only [State.cur]
  refine ⟨fun hal hva htr hlimit hacq hload hldt hatom hrel => ?_, fun hal hcheck => ?_, fun hal hk => ?_,
    fun hal hx hin hcheck hcount hth => ?_, fun hal hcheck => ?_, fun hal hcheck => ?_⟩
  · refine runLanes_alone_ok hal ?_
    have hnear : (decide (mt = 0) && s1.atomOn s.iss.g t pa sz.bytes) = false := by
      by_cases h : mt = 0
      · rw [hatom h, Bool.and_false]
      · rw [decide_eq_false h, Bool.false_and]
    simp only [misaligned_none hva, State.advance_iss, htr, withPage, State.advance_rcb, State.advance_kind, hlimit,
      hacq, hload, hldt, hnear, hrel, Bool.or_self, Bool.false_eq_true, if_false]
  · refine runLanes_alone_ok hal ?_
    simp only [hcheck, State.advance_iss]
  · refine runLanes_alone_trap hal ?_
    simp only [hk, ticketCheck, if_true]
    rfl
  · obtain ⟨s', l, m, hexec, hlands, hflight, hblocks, hpc⟩ := execRdmSpm_sent hal hx hin hcheck hcount
    refine ⟨_, hexec, ?_, State.line_congr ((State.settle_blocks s' t).trans hblocks) .., ?_, ?_⟩
    · rw [State.settle_lands, hlands, List.length_append, List.length_singleton]
    · rw [State.settle_flight, hflight, List.length_append, List.length_singleton]
    · rw [State.th_settle_part Thread.pc fun _ _ => rfl, hpc, State.th_advance_pc hth]
  · refine runLanes_alone_ok hal ?_
    simp only [hcheck, Option.isSome_none, Bool.false_eq_true, if_false]
  · refine runLanes_alone_ok hal ?_
    exact congrArg LaneRes.ok (if_pos (Option.isSome_iff_ne_none.2 hcheck))

end Sys2Proof.Machine

/-! SUPPORT and PROOFS. FENCE, CFLUSH and the barriers on the scratchpad (R102, R105, R235 to R237, R245). -/

namespace Sys2Proof.Machine

namespace State

/-- What a barrier held before the clock's updates. -/
@[simp] theorem advance_barBase (s : State) (t b x : Nat) : (s.advance t).barBase b x = s.barBase b x := by
  rw [advance_only]; rfl

end State

/-- A line without grants, hand-overs or write-backs to wait for, and without a dirty word, is dropped. -/
theorem flushLine_clean {s : State} {c line : Nat} (hbusy : s.lineBusy c line = false)
    (hmet : s.met 0 0 (.flushed c line) = true) (hclean : dirtyIn s c line = []) :
    flushLine s c line = .ok (dropLine s c line) := by
  simp only [flushLine, hbusy, hmet, hclean, Bool.not_true, Bool.false_eq_true, if_false, if_true]

/-- A lone thread that waits for nothing is the one that arrives at its barrier. -/
theorem arrivers_alone {i : Instr} {s : State} {t : Nat} {a : Field} (h : Alone i s t)
    (hwait : arrivalWait s t = none) : arrivers i s a (s.reg t a).toNat = [t] := by
  simp only [arrivers, h.lanesOk, List.filter_cons, List.filter_nil, hwait, Option.isNone_none, decide_true,
    Bool.and_self, if_true]

/-- An arrival of a lone thread is one update of its barrier (R237). -/
theorem arrive_alone {i : Instr} {s : State} {t : Nat} {a : Field} {bytes : State → Nat → Nat} (h : Alone i s t)
    (hcheck : barrierCheck (s.advance t) (s.reg t a).toNat = none) (hwait : arrivalWait s t = none)
    (hwait' : arrivalWait (s.advance t) t = none) : arrive i a bytes s =
      .next (((s.advance t).barrier s.cur.blk (s.reg t a).toNat 1 (bytes s t)).settle t) := by
  refine runLanes_alone_ok h ?_
  simp only [hcheck, hwait', arrivers_alone h hwait, List.head?_cons, if_true, List.length_singleton, List.map_cons,
    List.map_nil, List.sum_singleton, State.advance_iss, State.advance_cur_blk]

/-- What a release fence ends: the stores of its thread that agents without a fence may still miss (R115, R302). -/
def afterFence (s : State) (t : Nat) (o : MemOrd) : State :=
  if Ord.releases o.ord && o.scope ≠ .grp then
    s.modTh t fun h =>
      { h with unfenced := if o.scope = .clu || Scope.wide o.scope then [] else h.unfenced, uncopied := [] }
  else s

/-- A FENCE whose waits are over. -/
theorem execFence_done {s s1 : State} {t : Nat} {mo : MemOrd} (hal : Alone (.fence mo) s t)
    (hread : (s.advance t).reading s.iss.g t = false)
    (hatom : Ord.acquires (fenceOrd mo).ord = true → (s.advance t).redding s.iss.g t (fun _ => true) = false)
    (hrel : releaseFirst s (s.advance t) t (fenceOrd mo) = (s1, none)) :
    exec (.fence mo) s = .next ((afterFence s1 t (fenceOrd mo)).settle t) := by
  refine runLanes_alone_ok hal ?_
  have hredding : (Ord.acquires (fenceOrd mo).ord && (s.advance t).redding s.iss.g t fun _ => true) = false := by
    cases h : Ord.acquires (fenceOrd mo).ord with
    | false => rfl
    | true => exact hatom h
  simp only [State.advance_iss, hread, hredding, hrel, Bool.false_eq_true, if_false, afterFence]
  cases Ord.releases (fenceOrd mo).ord <;> rfl

/-- Settles O32: the premises pass the checks of each instruction in their order. -/
theorem fencesAndBarriers : Obligations.FencesAndBarriers := by
  intro s s1 t mo a b pa mt
  refine ⟨fun hal hread hatom hrel => execFence_done hal hread hatom hrel,
    fun hal htr hcached hnear hbusy hmet hclean => ?_,
    fun hal hcheck hwait hwait' => arrive_alone hal hcheck hwait hwait',
    fun hal hcheck hwait hwait' => arrive_alone hal hcheck hwait hwait',
    fun hal hcheck => ⟨fun hphase => ?_, fun hphase => ?_⟩⟩
  · refine runLanes_alone_ok hal ?_
    simp only [State.cur] at hnear hbusy hmet hclean ⊢
    simp only [State.advance_iss, State.advance_kind, htr, withPage, hcached, hnear, decide_false,
      Bool.or_self, Bool.false_eq_true, if_false]
    exact flushLine_clean hbusy hmet hclean
  · refine runLanes_alone_ok hal ?_
    simp only [hcheck, State.advance_iss, State.advance_cur_blk, State.met, State.metOwn, State.advance_barBase]
    exact if_pos (decide_eq_true hphase)
  · refine runLanes_alone_wait hal ?_
    simp only [hcheck, State.advance_iss, State.advance_cur_blk, State.met, State.metOwn, State.advance_barBase]
    exact if_neg (by simpa using hphase)

end Sys2Proof.Machine

/-! PROOFS. A copy queue's entry that completes without a record, where the regions do not stand in order (R355). -/

namespace Sys2Proof.Machine

/-- An entry without elements, which has begun and of which nothing failed. Its region is 0. -/
def emptyEntry : CqEntry :=
  { id := 0, g := 0, t := 0, q := 0, blk := 0, w := [], who := {}, ent := 0, mo := {}, begun := true }

/-- The entry at the head of queue 0, in a state whose regions stand out of order (`disordered`). -/
def disorderedQueue : State := { disordered with queues := [(0, [.entry 0])], copies := [emptyEntry] }

/-- An LDGS, of which the clause about a completed entry says nothing. -/
def otherLanding : Landing :=
  { id := 0, e := 0, blk := 0, spm := 0, va := 0, size := 0, who := {}, pa := 0, mt := 0, rcb := 0, ent := 0
    source := 0, index := 0, first := 0 }

/-- Refutes O46, in its clause about a completed entry: where nothing failed the clause lets the completion change
nothing but the entry's lines, its queue and OUT. The model also writes the entry's region back, without the headers of
records that the entry holds (`State.forgetTold`), of which there are none here. Where the keys of the table rise, that
is no change; where a greater key stands before the region's, `lput` binds the region a second time, and the table grows
(as in `not_matrixAgents`). Updates keep the keys rising (`rising_lput`), but no premise says that they rise. -/
theorem not_copyAgents : ¬ Obligations.CopyAgents := by
  intro h
  obtain ⟨-, -, -, -, -, -, -, -, hended, -⟩ := h disorderedQueue disorderedQueue disorderedQueue 0 0 0 0 0 0 emptyEntry
    otherLanding [] [] []
  have hexec := hended rfl rfl (by decide) rfl (.inl ⟨rfl, rfl⟩)
  have hgrown : regionsLeft (exec (.entryCompletion 0) disorderedQueue) ≠ disorderedQueue.regions := by decide
  rw [hexec] at hgrown
  exact hgrown rfl

end Sys2Proof.Machine

/-! PROOFS. Uncached accesses at their target, and the traffic of the Floler Link ports (R90, R124, R310, R311, R314,
R315, R388). -/

namespace Sys2Proof.Machine

/-- What PEER_ACCESS executes. -/
theorem exec_peerAccess (port pa size : Nat) (store : Option (List Byte)) (rmw : Option (AtomOp × Bool)) (s : State) :
    exec (.peerAccess port pa size store rmw) s = execPeerAccess port pa size store rmw s := rfl

/-- Settles O45: each agent passes its checks in their order; a snoop is a request that waits for nobody. -/
theorem uncachedAndPorts : Obligations.UncachedAndPorts := by
  intro s s1 n m g t id pa size bs who q r rs port d op sg excl v
  refine ⟨?load, ?value, ?store, ?peerAtom, ?hostAtom, ?ownAtom, ?snoop, ?host, ?peer⟩
  case load =>
    rintro ⟨htake, hbody⟩ hfree hread
    change execUncachedAccess n s = _
    simp only [execUncachedAccess, htake, hbody, hfree, if_true, State.answerLoad, hread]
  case value =>
    rintro ⟨htake, hbody⟩ hload
    change execUncachedAccess n s = _
    simp only [execUncachedAccess, htake, hbody, State.takeUncached, hload]
  case store =>
    rintro ⟨htake, hbody⟩ htarget hfree hlink
    change execUncachedAccess n s = _
    simp only [execUncachedAccess, htake, hbody, htarget, hfree, hlink, if_true]
  case peerAtom =>
    rintro ⟨htake, hbody⟩ hlink htarget
    change execHostAtomic n s = _
    simp only [execHostAtomic, htake, hbody, hlink, htarget, grantAtoms]
  case hostAtom =>
    rintro ⟨htake, hbody⟩ hlink htarget
    change execHostAtomic n s = _
    simp only [execHostAtomic, htake, hbody, hlink, htarget, grantAtoms, denyAtoms, Bool.false_eq_true, if_false]
  case ownAtom =>
    rintro ⟨htake, hbody⟩ hlink htarget
    change execHostAtomic n s = _
    simp only [execHostAtomic, htake, hbody, hlink, htarget, grantAtoms, denyAtoms, dropAsk, if_true]
  case snoop =>
    intro hdie hkey htarget hup hidle hsharers howners
    change execHostSnoop pa excl s = _
    have hserved : s.arrive (lineOf pa) (.snoop excl) = s.performTx (lineOf pa) (.snoop excl) :=
      State.arrive_plain hidle (fun _ => HomeReq.noConfusion) (fun _ _ => rfl) howners
        (.inr fun k hk => absurd (hsharers ▸ hk) List.not_mem_nil)
    simp only [execHostSnoop, hdie, hkey, decide_true, Bool.and_self, if_true, htarget, hup, hserved, State.performTx]
  case host =>
    rintro ⟨hup, hline, hruns, hfree, htarget, hlink⟩ hhost hquiet
    refine ⟨fun hread => ?_, fun hlen => ?_⟩
    · change execHostAccess port pa size none s = _
      simp only [execHostAccess, hup, hhost, hline, hruns, hfree, htarget, hquiet, Bool.not_true, Bool.not_false,
        Bool.or_self, Bool.and_self, Bool.false_eq_true, if_false, if_true, answerOutside, hread]
    · subst hlen
      change execHostAccess port pa 0 (some v) s = _
      simp only [execHostAccess, hup, hhost, hline, hruns, hfree, htarget, hquiet, Bool.not_true, Bool.not_false,
        Bool.or_self, Bool.and_self, Bool.false_eq_true, if_false, if_true, storeOutside, hlink, Option.isSome_none]
  case peer =>
    rintro ⟨hup, hline, hruns, hfree, htarget, hlink⟩ hport hpeer
    refine ⟨fun hread => ?_, fun hlen => ?_, fun hwidth haligned hread => ?_⟩
    · refine (exec_peerAccess ..).trans ?_
      unfold execPeerAccess
      simp only [hup, hpeer, hline, hruns, hfree, htarget, hlink, hport, decide_false, Bool.not_true,
        Bool.or_self, Option.isSome_none, Bool.false_eq_true, if_false, answerOutside, hread]
    · subst hlen
      rw [exec_peerAccess]
      unfold execPeerAccess
      simp only [hup, hpeer, hline, hruns, hfree, htarget, hlink, hport, decide_false, Bool.not_true,
        Bool.or_self, Option.isSome_none, Bool.false_eq_true, if_false]
    · refine (exec_peerAccess ..).trans ?_
      have hshape : ((decide (size = 4) || decide (size = 8)) && decide (pa % size = 0)) = true := by
        simpa using ⟨hwidth, haligned⟩
      unfold execPeerAccess
      simp only [hup, hpeer, hline, hruns, hfree, htarget, hlink, hport, decide_false, Bool.not_true,
        Bool.or_self, Option.isSome_none, Bool.false_eq_true, if_false, hshape, if_true, answerOutside, hread]

end Sys2Proof.Machine

/-! SUPPORT. What the opening of a transaction at a home changes (R101, R390): it sends recalls and invalidations, and
takes words from owners that are out of reach. -/

namespace Sys2Proof.Machine

/-- A word without an owner has none either once another word has lost its owner. -/
theorem lget_ldel_none {α : Type} {j : Nat} {l : List (Nat × α)} (h : lget j l = none) (k : Nat) :
    lget j (ldel k l) = none := by
  by_cases hj : j = k
  · rw [hj]
    exact lget_ldel_self k l
  · rw [lget_ldel_ne hj, h]

namespace State

/-! ## The parts of an opening -/

/-- The words that a request recalls, each behind the cluster that owns it. -/
def ownersOf (s : State) (line : Nat) (req : HomeReq) : List (Nat × Nat) :=
  ((needs line req).1.filterMap fun wa => (lget wa s.owners).map fun o => (o.cluster, wa)).filter
    fun p => some p.1 ≠ (needs line req).2.1

/-- The clusters whose copies a request invalidates. -/
def copiesOf (s : State) (line : Nat) (req : HomeReq) : List Nat :=
  if (needs line req).2.2.2.1 = [] then []
  else (s.sharersOf line).filter fun c => some c ≠ (needs line req).2.2.2.2

/-- A link between a line's home and a cluster is down. -/
def outOfReach (s : State) (line c : Nat) : Bool := (s.pairFail (s.dieOfLine line) (c / 16)).isSome

/-- A word taken from an owner that cannot give it back. -/
def loseWord (s : State) (wa : Nat) : State := { s.poisonHome wa with owners := ldel wa s.owners }

/-- The words of a request recalled from one cluster, where the request was made in state s. -/
def recallFrom (s : State) (line : Nat) (req : HomeReq) (u : State) (c : Nat) : State :=
  let mine := ((s.ownersOf line req).filter fun p => p.1 = c).map Prod.snd
  if s.outOfReach line c then mine.foldl loseWord u
  else u.post (chanDown c (64 * s.dieOfLine line + sliceOf line)) (s.dieOfLine line) (c / 16)
    (.recallMsg line mine (needs line req).2.2.1 (u.askerOf req))

/-- The copy of one cluster invalidated, where the request was made in state s. -/
def invalidateAt (s : State) (line : Nat) (req : HomeReq) (u : State) (c : Nat) : State :=
  if s.outOfReach line c then { u with sharers := lput line ((u.sharersOf line).erase c) u.sharers }
  else u.post (chanDown c (64 * s.dieOfLine line + sliceOf line)) (s.dieOfLine line) (c / 16)
    (.inv line (needs line req).2.2.2.1)

/-- The recalls and invalidations of a request sent. -/
def sendAll (s : State) (line : Nat) (req : HomeReq) : State :=
  (s.copiesOf line req).foldl (s.invalidateAt line req)
    (((s.ownersOf line req).map Prod.fst).eraseDups.foldl (s.recallFrom line req) s)

/-- The transaction of a request: what it awaits. -/
def txOpened (s : State) (line : Nat) (req : HomeReq) (queue : List HomeReq) : Tx :=
  { line := line, req := req, acks := (s.copiesOf line req).filter fun c => !s.outOfReach line c
    recalls := (s.ownersOf line req).filter fun p => !s.outOfReach line p.1, queue := queue }

/-- To open a transaction is to send what it needs, and to put it first. -/
theorem openTx_eq (s : State) (line : Nat) (req : HomeReq) (queue : List HomeReq) :
    s.openTx line req queue =
      { s.sendAll line req with txs := s.txOpened line req queue :: (s.sendAll line req).txs } := rfl

/-! ## What an opening leaves as it was -/

/-- Messages, marks, owners, sharers and transactions alone differ, and no word has gained an owner. -/
def Opens (s u : State) : Prop := ∃ flight marks owners sharers txs,
  u = { s with flight := flight, marks := marks, owners := owners, sharers := sharers, txs := txs }
    ∧ ∀ wa, lget wa s.owners = none → lget wa owners = none

theorem Opens.refl (s : State) : Opens s s := ⟨_, _, _, _, _, rfl, fun _ => id⟩

theorem Opens.trans {s u v : State} (h : Opens s u) (h' : Opens u v) : Opens s v := by
  obtain ⟨_, _, _, _, _, rfl, hown⟩ := h
  obtain ⟨_, _, _, _, _, rfl, hown'⟩ := h'
  exact ⟨_, _, _, _, _, rfl, fun wa hwa => hown' wa (hown wa hwa)⟩

theorem Opens.foldl {α : Type} {f : State → α → State} (hf : ∀ u a, Opens u (f u a)) (l : List α) (s : State) :
    Opens s (l.foldl f s) :=
  List.foldlRecOn l f (.refl s) fun u hu a _ => hu.trans (hf u a)

theorem post_opens (s : State) (chan src dst : Nat) (b : Body) : Opens s (s.post chan src dst b) :=
  ⟨_, _, _, _, _, rfl, fun _ => id⟩

theorem loseWord_opens (s : State) (wa : Nat) : Opens s (s.loseWord wa) :=
  ⟨_, _, _, _, _, rfl, fun _ h => lget_ldel_none h wa⟩

theorem recallFrom_opens (s : State) (line : Nat) (req : HomeReq) (u : State) (c : Nat) :
    Opens u (s.recallFrom line req u c) := by
  unfold recallFrom
  dsimp only
  split
  · exact .foldl loseWord_opens _ u
  · exact post_opens ..

theorem invalidateAt_opens (s : State) (line : Nat) (req : HomeReq) (u : State) (c : Nat) :
    Opens u (s.invalidateAt line req u c) := by
  unfold invalidateAt
  split
  · exact ⟨_, _, _, _, _, rfl, fun _ => id⟩
  · exact post_opens ..

theorem openTx_opens (s : State) (line : Nat) (req : HomeReq) (queue : List HomeReq) :
    Opens s (s.openTx line req queue) := by
  rw [openTx_eq]
  have hsent : Opens s (s.sendAll line req) :=
    (Opens.foldl (s.recallFrom_opens line req) _ s).trans (.foldl (s.invalidateAt_opens line req) _ _)
  exact hsent.trans ⟨_, _, _, _, _, rfl, fun _ => id⟩

/-- Room for a line changes no more than the eviction of another line. -/
theorem roomFor_opens (s : State) (line : Nat) : Opens s (s.roomFor line) := by
  unfold roomFor
  extract_lets lines free out u
  have hopened : Opens s u := openTx_opens ..
  split
  · exact .refl s
  · split
    · exact .refl s
    · split
      · split
        · exact hopened.trans ⟨_, _, _, _, _, rfl, fun _ => id⟩
        · exact hopened
      · exact hopened

end State
end Sys2Proof.Machine

/-! SUPPORT and PROOFS. Page walks and shootdowns (R88, R92), and the placement engine (R95 to R98). -/

namespace Sys2Proof.Machine
namespace State

/-! ## The lines of a page that starts to move -/

/-- Dies, counts and memory are as they were, and every page move in hand is still in hand, for its page, to its frame,
and since its clock. -/
structure MovesKept (s u : State) : Prop where
  dies : u.dies = s.dies
  kcounts : u.kcounts = s.kcounts
  mem : u.mem = s.mem
  moves : ∀ y ∈ s.moves, ∃ y' ∈ u.moves, y'.page = y.page ∧ y'.frame = y.frame ∧ y'.die = y.die ∧ y'.at_ = y.at_

/-- Moves that are the same have been kept. -/
theorem MovesKept.of_eq {s u : State} (hdies : u.dies = s.dies) (hkcounts : u.kcounts = s.kcounts)
    (hmem : u.mem = s.mem) (hmoves : u.moves = s.moves) : MovesKept s u :=
  ⟨hdies, hkcounts, hmem, fun y hy => ⟨y, hmoves ▸ hy, rfl, rfl, rfl, rfl⟩⟩

theorem MovesKept.trans {s u v : State} (h : MovesKept s u) (h' : MovesKept u v) : MovesKept s v := by
  refine ⟨h'.dies.trans h.dies, h'.kcounts.trans h.kcounts, h'.mem.trans h.mem, fun y hy => ?_⟩
  obtain ⟨y1, hy1, hpage, hframe, hdie, hat⟩ := h.moves y hy
  obtain ⟨y2, hy2, hpage', hframe', hdie', hat'⟩ := h'.moves y1 hy1
  exact ⟨y2, hy2, hpage'.trans hpage, hframe'.trans hframe, hdie'.trans hdie, hat'.trans hat⟩

theorem openTx_movesKept (s : State) (line : Nat) (req : HomeReq) (queue : List HomeReq) :
    MovesKept s (s.openTx line req queue) := by
  obtain ⟨_, _, _, _, _, hu, -⟩ := s.openTx_opens line req queue
  rw [hu]
  exact .of_eq rfl rfl rfl rfl

/-- A line without a transaction takes the one that is opened. -/
theorem txOf_openTx (s : State) (line : Nat) (req : HomeReq) (queue : List HomeReq) :
    (s.openTx line req queue).txOf line = some (s.txOpened line req queue) := by
  rw [openTx_eq]
  exact List.find?_cons_of_pos (decide_eq_true rfl)

/-- A line that a page move holds waits, or is quiet and leaves the move's list. -/
theorem arrive_move_movesKept (s : State) (line k : Nat) : MovesKept s (s.arrive line (.move k)) := by
  unfold arrive
  split
  · exact .of_eq rfl rfl rfl rfl
  · have hopened := s.openTx_movesKept line (.move k) []
    unfold runTx
    rw [txOf_openTx]
    dsimp only
    split
    · exact hopened
    · refine hopened.trans ⟨rfl, rfl, rfl, fun y hy => ⟨_, List.mem_map_of_mem hy, ?_⟩⟩
      split <;> exact ⟨rfl, rfl, rfl, rfl⟩

theorem foldl_arrive_move_movesKept (lines : List Nat) (k : Nat) (s : State) :
    MovesKept s (lines.foldl (fun u line => u.arrive line (.move k)) s) :=
  List.foldlRecOn lines _ (.of_eq rfl rfl rfl rfl) fun u hu line _ => hu.trans (u.arrive_move_movesKept line k)

end State

/-- A move to a die that has a free frame takes the frame, and changes neither counts nor memory. -/
theorem startMove_frame {s : State} {p e frame : Nat} {rest : List Nat} (h : (s.die e).frees = frame :: rest) :
    ((startMove s p e).die e).frees = rest ∧ (startMove s p e).kcounts = s.kcounts ∧ (startMove s p e).mem = s.mem
      ∧ ∃ y ∈ (startMove s p e).moves, y.page = p ∧ y.frame = frame ∧ y.die = e ∧ y.at_ = s.cycle := by
  unfold startMove
  rw [h]
  dsimp only [State.fresh]
  obtain ⟨hdies, hkcounts, hmem, hmoves⟩ := State.foldl_arrive_move_movesKept (pageLines p) s.nextKey
    { ({ s with nextKey := s.nextKey + 1 } : State).modDie e fun D => { D with frees := rest } with
      moves := s.moves ++
        [{ id := s.nextKey, page := p, frame := frame, die := e, at_ := s.cycle, left := pageLines p }] }
  refine ⟨?_, hkcounts, hmem, ?_⟩
  · unfold State.die
    rw [hdies]
    simp only [State.modDie, lgetD, lmod, lget_lput_self, Option.getD_some]
  · obtain ⟨y, hy, hpage, hframe, hdie, hat⟩ := hmoves _ (List.mem_append_right _ (List.mem_singleton_self _))
    exact ⟨y, hy, hpage, hframe, hdie, hat⟩

/-! ## The pages of an epoch -/

/-- The pages of a die's share that were used in the epoch, in ascending order. -/
def usedPages (s : State) (d : Nat) : List Nat :=
  sortBy id (((s.kcounts.filter fun k => pageDie k.page = d && k.cur ≠ 0).map KCount.page).eraseDups)

/-- What the end of an epoch does: its share tests the pages that were used, and its counts start again. -/
theorem exec_kneaderEpochEnd {s : State} {d : Nat} (hd : d < 4) (hcycle : s.cycle % 2 ^ 20 = 0) :
    exec (.kneaderEpochEnd d) s =
      .next { (usedPages s d).foldl (testPage d) s with
        kcounts := rollCounts d ((usedPages s d).foldl (testPage d) s).kcounts } :=
  if_pos ⟨hd, hcycle⟩

theorem usedPages_none {s : State} {d : Nat} (h : ∀ c ∈ s.kcounts, pageDie c.page = d → c.cur = 0) :
    usedPages s d = [] := by
  have hunused : (s.kcounts.filter fun k => pageDie k.page = d && k.cur ≠ 0) = [] :=
    List.filter_eq_nil_iff.2 fun c hc => by simpa using h c hc
  unfold usedPages
  rw [hunused]
  rfl

/-- A list with members, all of them one, holds that one once its repetitions are erased. -/
theorem eraseDups_constant {l : List Nat} {p : Nat} (hne : l ≠ []) (h : ∀ a ∈ l, a = p) : l.eraseDups = [p] := by
  cases l with
  | nil => exact absurd rfl hne
  | cons a l =>
    obtain rfl := h a List.mem_cons_self
    have hrest : (l.filter fun b => !b == a) = [] :=
      List.filter_eq_nil_iff.2 fun b hb => by simp [h b (List.mem_cons_of_mem a hb)]
    rw [List.eraseDups_cons, hrest, List.eraseDups_nil]

theorem usedPages_one {s : State} {d p : Nat} (hused : ∃ c ∈ s.kcounts, pageDie c.page = d ∧ c.cur ≠ 0)
    (hone : ∀ c ∈ s.kcounts, pageDie c.page = d → c.cur ≠ 0 → c.page = p) : usedPages s d = [p] := by
  unfold usedPages
  rw [eraseDups_constant (p := p)]
  · rfl
  · obtain ⟨c, hc, hdie, hcur⟩ := hused
    exact List.ne_nil_of_mem (List.mem_map_of_mem (List.mem_filter.2 ⟨hc, by simp [hdie, hcur]⟩))
  · intro a ha
    obtain ⟨c, hc, rfl⟩ := List.mem_map.1 ha
    obtain ⟨hmem, hc⟩ := List.mem_filter.1 hc
    simp only [ne_eq, Bool.and_eq_true, decide_eq_true_eq, decide_not, Bool.not_eq_true', decide_eq_false_iff_not] at hc
    exact hone c hmem hc.1 hc.2

/-- A page that has a die to move to starts its move, where the share has room for one more. -/
theorem testPage_target {s : State} {d p e : Nat} (hroom : (s.moves.filter fun y => pageDie y.page = d).length < 4)
    (htarget : moveTarget s d p = some e) : testPage d s p = startMove s p e := by
  unfold testPage
  rw [if_neg (Nat.not_le.2 hroom), htarget]

/-- Settles O54: a page that starts to move has its lines held one after another, none of which ends the move. -/
theorem pageAgents : Obligations.PageAgents := by
  intro s k d w x m h lvl pa p e' frame rest
  refine ⟨?leaf, ?fault, ?shootdown, ?unused, ?used, ?moved, ?abandoned⟩
  case leaf =>
    rintro ⟨hwalk, hlink⟩ hgo hpermit
    change execPageWalk k s = _
    simp only [execPageWalk, State.endWalk, hwalk, hlink, hgo, hpermit]
  case fault =>
    rintro ⟨hwalk, hlink⟩ hgo
    change execPageWalk k s = _
    simp only [execPageWalk, State.endWalk, hwalk, hlink, hgo]
  case shootdown =>
    intro hshoot hquiet
    change execShootdownComplete k s = _
    simp only [execShootdownComplete, hshoot, hquiet, Bool.false_eq_true, if_false]
  case unused =>
    intro hd hcycle hnone
    rw [exec_kneaderEpochEnd hd hcycle, usedPages_none hnone, List.foldl_nil]
  case used =>
    intro hd hcycle hused hone htarget hroom
    rw [exec_kneaderEpochEnd hd hcycle, usedPages_one hused hone, List.foldl_cons, List.foldl_nil,
      testPage_target hroom htarget]
    refine ⟨fun hfrees => ?_, fun hfrees => ⟨_, rfl, ?_⟩⟩
    · unfold startMove
      rw [hfrees]
      rfl
    · obtain ⟨hrest, hkcounts, hmem, hmove⟩ := startMove_frame (p := p) hfrees
      exact ⟨hrest, congrArg (rollCounts d) hkcounts, hmem, hmove⟩
  case moved =>
    intro hmove hleft hclock hleaves hidle
    have hnone : (s.txs.filter fun y => y.line / 65536 = m.page) = [] :=
      List.filter_eq_nil_iff.2 fun y hy => by simpa using hidle y hy
    have hall : (((s.clearFrame m.frame).copyPage m.page m.frame).txs.filter
          fun y => !decide (y.line / 65536 = m.page)) =
        ((s.clearFrame m.frame).copyPage m.page m.frame).txs :=
      List.filter_eq_self.2 fun y hy => by simpa using hidle y hy
    change execPageMoveComplete k s = _
    simp only [execPageMoveComplete, hmove, hleft, Nat.not_lt.2 hclock, hleaves, hnone, ne_eq, not_true_eq_false,
      decide_false, Bool.or_self, Bool.false_eq_true, if_false, List.map_nil, List.foldl_nil, hall]
    rfl
  case abandoned =>
    intro hmove hclock
    change execPageMoveAbandon k s = _
    simp only [execPageMoveAbandon, hmove, if_neg (Nat.not_le.2 hclock)]

end Sys2Proof.Machine

/-! SUPPORT and PROOFS. The home's part of the protocol (R97, R101 to R106, R123, R390). -/

namespace Sys2Proof.Machine
namespace State

/-! ## An access that is counted -/

/-- What does not depend on the counts is as it was before an access was counted. -/
theorem countAccess_keeps {α : Type} {f : State → α} {s : State} (hf : ∀ l, f { s with kcounts := l } = f s)
    (pa d rcb : Nat) : f (s.countAccess pa d rcb) = f s := by
  obtain ⟨l, hl⟩ := s.countAccess_only pa d rcb
  rw [hl, hf]

section
variable (s : State) (pa d rcb line : Nat)

@[simp] theorem countAccess_txs : (s.countAccess pa d rcb).txs = s.txs := countAccess_keeps (fun _ => rfl) ..

@[simp] theorem countAccess_owners : (s.countAccess pa d rcb).owners = s.owners := countAccess_keeps (fun _ => rfl) ..

@[simp] theorem countAccess_txOf : (s.countAccess pa d rcb).txOf line = s.txOf line :=
  countAccess_keeps (f := (·.txOf line)) (fun _ => rfl) ..

@[simp] theorem countAccess_sharersOf : (s.countAccess pa d rcb).sharersOf line = s.sharersOf line :=
  countAccess_keeps (f := (·.sharersOf line)) (fun _ => rfl) ..

@[simp] theorem countAccess_dieOfLine : (s.countAccess pa d rcb).dieOfLine line = s.dieOfLine line :=
  countAccess_keeps (f := (·.dieOfLine line)) (fun _ => rfl) ..

@[simp] theorem countAccess_homeWord : (s.countAccess pa d rcb).homeWord = s.homeWord :=
  countAccess_keeps (f := homeWord) (fun _ => rfl) ..

@[simp] theorem countAccess_pairFail (e : Nat) : (s.countAccess pa d rcb).pairFail e line = s.pairFail e line :=
  countAccess_keeps (f := (·.pairFail e line)) (fun _ => rfl) ..

end

/-! ## A request that waits -/

/-- A line whose transaction awaits something waits. -/
theorem runTx_waits {s : State} {line : Nat} {x : Tx} (h : s.txOf line = some x) (hw : x.acks ≠ [] ∨ x.recalls ≠ [])
    (n : Nat) : s.runTx line n = s := by
  cases n with
  | zero => rfl
  | succ n =>
    unfold runTx
    rw [h]
    exact if_pos (by tauto)

/-- A request that awaits something, at an idle line, opens its transaction. -/
theorem arrive_waits {s : State} {line : Nat} {req : HomeReq} (h : s.txOf line = none)
    (hw : (s.txOpened line req []).acks ≠ [] ∨ (s.txOpened line req []).recalls ≠ []) :
    s.arrive line req = s.openTx line req [] := by
  unfold arrive
  rw [h]
  exact runTx_waits (s.txOf_openTx line req []) hw 1

theorem foldl_post_txs {α : Type} (chan src dst : α → Nat) (b : α → Body) (l : List α) (s : State) :
    (l.foldl (fun u k => u.post (chan k) (src k) (dst k) (b k)) s).txs = s.txs :=
  List.foldlRecOn (motive := fun u : State => u.txs = s.txs) l _ rfl fun _ hu _ _ => hu

/-- Where nobody owns a word of a request, nothing is recalled. -/
theorem ownersOf_none {s : State} {line : Nat} {req : HomeReq}
    (h : ∀ wa ∈ (needs line req).1, lget wa s.owners = none) :
    s.ownersOf line req = [] := by
  have hnone : ((needs line req).1.filterMap fun wa => (lget wa s.owners).map fun o => (o.cluster, wa)) = [] :=
    List.filterMap_eq_nil_iff.2 fun wa hwa => by rw [h wa hwa]; rfl
  unfold ownersOf
  rw [hnone]
  rfl

/-- A request that passes no cluster over and wants copies gone invalidates at every sharer. -/
theorem copiesOf_all {s : State} {line : Nat} {req : HomeReq} (hwords : (needs line req).2.2.2.1 ≠ [])
    (hskip : (needs line req).2.2.2.2 = none) : s.copiesOf line req = s.sharersOf line := by
  unfold copiesOf
  rw [if_neg hwords, hskip]
  exact List.filter_eq_self.2 fun k _ => by simp

/-- A request for words that nobody owns, of a line with sharers within reach: each is sent an INV, and its
acknowledgement awaited. -/
theorem arrive_invalidates {s : State} {line : Nat} {req : HomeReq} (h : s.txOf line = none)
    (hown : ∀ wa ∈ (needs line req).1, lget wa s.owners = none) (hwords : (needs line req).2.2.2.1 ≠ [])
    (hskip : (needs line req).2.2.2.2 = none) (hshared : s.sharersOf line ≠ [])
    (hreach : ∀ k ∈ s.sharersOf line, s.pairFail (s.dieOfLine line) (k / 16) = none) :
    s.arrive line req =
      { (s.sharersOf line).foldl (fun u k => u.post (chanDown k (64 * s.dieOfLine line + sliceOf line))
          (s.dieOfLine line) (k / 16) (.inv line (needs line req).2.2.2.1)) s with
        txs := { line := line, req := req, acks := s.sharersOf line, recalls := [], queue := [] } :: s.txs } := by
  have hnear : ∀ k ∈ s.sharersOf line, s.outOfReach line k = false := fun k hk => by
    unfold outOfReach
    rw [hreach k hk]
    rfl
  have htx : s.txOpened line req [] =
      { line := line, req := req, acks := s.sharersOf line, recalls := [], queue := [] } := by
    unfold txOpened
    rw [copiesOf_all hwords hskip, ownersOf_none hown, List.filter_eq_self.2 fun k hk => by rw [hnear k hk]; rfl]
    rfl
  have hsent : s.sendAll line req = (s.sharersOf line).foldl (fun u k => u.post
      (chanDown k (64 * s.dieOfLine line + sliceOf line)) (s.dieOfLine line) (k / 16)
      (.inv line (needs line req).2.2.2.1)) s := by
    unfold sendAll
    rw [copiesOf_all hwords hskip, ownersOf_none hown]
    refine List.foldl_ext _ _ s fun u k hk => ?_
    unfold invalidateAt
    rw [hnear k hk]
    rfl
  rw [arrive_waits h (.inl (by rw [htx]; exact hshared)), openTx_eq, htx, hsent, foldl_post_txs]

/-- GETS of one word that a cluster within reach owns: the word is recalled, and the owner keeps a clean copy. -/
theorem arrive_gets_owned {s : State} {line c wa : Nat} {o : OwnerState} (h : s.txOf line = none)
    (hown : lget wa s.owners = some o) (hreach : s.pairFail (s.dieOfLine line) (o.cluster / 16) = none) :
    s.arrive line (.gets c [wa]) =
      { s.post (chanDown o.cluster (64 * s.dieOfLine line + sliceOf line)) (s.dieOfLine line) (o.cluster / 16)
          (.recallMsg line [wa] true (some c)) with
        txs :=
          { line := line, req := .gets c [wa], acks := [], recalls := [(o.cluster, wa)], queue := [] } :: s.txs } := by
  have howners : s.ownersOf line (.gets c [wa]) = [(o.cluster, wa)] := by
    simp [ownersOf, needs, hown]
  have hnear : s.outOfReach line o.cluster = false := by
    unfold outOfReach
    rw [hreach]
    rfl
  have htx : s.txOpened line (.gets c [wa]) [] =
      { line := line, req := .gets c [wa], acks := [], recalls := [(o.cluster, wa)], queue := [] } := by
    simp [txOpened, copiesOf, needs, howners, hnear]
  have hsent : s.sendAll line (.gets c [wa]) =
      s.post (chanDown o.cluster (64 * s.dieOfLine line + sliceOf line)) (s.dieOfLine line) (o.cluster / 16)
        (.recallMsg line [wa] true (some c)) := by
    simp [sendAll, copiesOf, needs, howners, recallFrom, hnear, askerOf, List.eraseDups_cons]
  rw [arrive_waits h (.inr (by rw [htx]; exact List.cons_ne_nil _ _)), openTx_eq, htx, hsent]
  rfl

/-! ## A request that is performed -/

/-- GETS of words that nobody owns. -/
theorem performTx_gets {s : State} {line c : Nat} {ws : List Nat} (h : ∀ wa ∈ ws, lget wa s.owners = none) :
    s.performTx line (.gets c ws) = (((s.roomFor line).noteL2 false line).addSharer line c).post
      (chanDown c (64 * s.dieOfLine line + sliceOf line)) (s.dieOfLine line) (c / 16)
      (.data line (ws.map s.homeWord)) := by
  have hall : (ws.filter fun wa => (lget wa s.owners).isNone) = ws :=
    List.filter_eq_self.2 fun wa hwa => by rw [h wa hwa]; rfl
  simp only [performTx, hall]

/-- A word granted to a cluster, which keeps what an earlier grant to it said of releases. -/
def grantOwner (c : Nat) (rel : Bool) (l : List (Nat × OwnerState)) (wa : Nat) : List (Nat × OwnerState) :=
  lput wa { cluster := c, rel := rel || match lget wa l with
    | some o => o.cluster = c && o.rel
    | none => false } l

/-- Words that nobody owns, or that one GETO has named twice, are granted as the GETO says. -/
theorem foldl_grantOwner {c : Nat} {rel : Bool} {ws : List Nat} {l : List (Nat × OwnerState)}
    (h : ∀ wa ∈ ws, lget wa l = none ∨ lget wa l = some { cluster := c, rel := rel }) :
    ws.foldl (grantOwner c rel) l = ws.foldl (fun l wa => lput wa { cluster := c, rel := rel } l) l := by
  induction ws generalizing l with
  | nil => rfl
  | cons wa ws ih =>
    have hfirst : grantOwner c rel l wa = lput wa { cluster := c, rel := rel } l := by
      unfold grantOwner
      rcases h wa List.mem_cons_self with hl | hl <;> simp [hl]
    rw [List.foldl_cons, List.foldl_cons, hfirst]
    refine ih fun wb hwb => ?_
    by_cases hb : wb = wa
    · exact .inr (hb ▸ lget_lput_self ..)
    · rw [lget_lput_ne hb]
      exact h wb (List.mem_cons_of_mem wa hwb)

theorem noteL2_owners (s : State) (newer : Bool) (line : Nat) : (s.noteL2 newer line).owners = s.owners := by
  unfold noteL2
  split <;> rfl

/-- The words of a GETO that its cluster owns already, and so has lost (R389). -/
def lostWords (s : State) (c : Nat) (ws : List Nat) : List Nat :=
  ws.filter fun wa => match lget wa s.owners with
    | some o => o.cluster = c
    | none => false

/-- What GETO does: lost words take poison, and every word of the request is granted. -/
theorem performTx_geto (s : State) (line c : Nat) (ws : List Nat) (rel : Bool) :
    s.performTx line (.geto c ws rel) =
      let u := (s.lostWords c ws).foldl (fun u wa => u.poisonHome wa) ((s.roomFor line).noteL2 false line)
      { u with owners := ws.foldl (grantOwner c rel) u.owners }.post (chanDown c (64 * s.dieOfLine line + sliceOf line))
        (s.dieOfLine line) (c / 16) (.grant line ws (ws.map u.homeWord) rel) := rfl

/-- GETO of words that nobody owns. -/
theorem performTx_geto_unowned {s : State} {line c : Nat} {ws : List Nat} {rel : Bool}
    (h : ∀ wa ∈ ws, lget wa s.owners = none) :
    s.performTx line (.geto c ws rel) =
      { (s.roomFor line).noteL2 false line with
        owners := ws.foldl (fun l wa => lput wa { cluster := c, rel := rel } l)
          ((s.roomFor line).noteL2 false line).owners }.post
      (chanDown c (64 * s.dieOfLine line + sliceOf line)) (s.dieOfLine line) (c / 16)
      (.grant line ws (ws.map ((s.roomFor line).noteL2 false line).homeWord) rel) := by
  have hlost : s.lostWords c ws = [] :=
    List.filter_eq_nil_iff.2 fun wa hwa => by rw [h wa hwa]; exact Bool.false_ne_true
  have hentered : ∀ wa ∈ ws, lget wa ((s.roomFor line).noteL2 false line).owners = none := fun wa hwa => by
    obtain ⟨_, _, _, _, _, hu, hroom⟩ := s.roomFor_opens line
    rw [noteL2_owners, hu]
    exact hroom wa (h wa hwa)
  rw [performTx_geto, hlost, List.foldl_nil]
  dsimp only
  rw [foldl_grantOwner fun wa hwa => .inl (hentered wa hwa)]

/-- The device holds the lines of its own memory already. -/
theorem mustOwn_device {line : Nat} (h : line < 2 ^ 40) (s : State) (req : HomeReq) : s.mustOwn line req = false := by
  have hdevice : line / 2 ^ 40 = 0 := Nat.div_eq_of_lt h
  unfold mustOwn
  split
  · rw [hdevice]
    rfl
  · rfl

/-- Atomics on a line of device memory. -/
theorem performTx_atom {s : State} {line : Nat} (h : line < 2 ^ 40) (rs : List AtomReq) :
    s.performTx line (.atom rs) = rs.foldl (fun u r => u.performAtom (s.dieOfLine line) r) s := by
  have hdevice : line / 2 ^ 40 = 0 := Nat.div_eq_of_lt h
  unfold performTx
  simp only [hdevice, ne_eq, not_true_eq_false, decide_false, Bool.false_and, Bool.false_eq_true, if_false]

/-! ## An answer that reaches a home -/

/-- Every transaction keeps its line under a change that keeps it. -/
theorem txOf_modTx {s : State} {line : Nat} {x : Tx} (f : Tx → Tx) (hf : ∀ y, (f y).line = y.line)
    (h : s.txOf line = some x) : (s.modTx line f).txOf line = some (f x) := by
  have hline : x.line = line := by simpa using List.find?_some h
  have hsame : ((fun y : Tx => decide (y.line = line)) ∘ fun y => if y.line = line then f y else y) =
      fun y : Tx => decide (y.line = line) := by
    funext y
    simp only [Function.comp_apply]
    split <;> simp [hf]
  unfold txOf modTx
  rw [List.find?_map, hsame]
  simp only [txOf] at h
  rw [h, Option.map_some, if_pos hline]

/-- The other lines' transactions are as they were. -/
theorem modTx_others (s : State) (line : Nat) {f : Tx → Tx} (hf : ∀ y, (f y).line = y.line) :
    ((s.modTx line f).txs.filter fun y => y.line ≠ line) = s.txs.filter fun y => y.line ≠ line := by
  have hkept : ∀ y : Tx, (if y.line = line then f y else y).line = y.line := fun y => by
    split
    · exact hf y
    · rfl
  unfold modTx
  induction s.txs with
  | nil => rfl
  | cons y l ih =>
    simp only [List.map_cons, List.filter_cons, hkept, ih]
    split
    · rename_i hy
      rw [if_neg (by simpa using hy)]
    · rfl

/-- The acknowledgement of one cluster taken off a transaction. -/
def acked (c : Nat) (y : Tx) : Tx := { y with acks := y.acks.erase c }

/-- What the acknowledgement of an INV does. -/
theorem answered_ack (s : State) (line c : Nat) :
    s.answered line c true [] = (s.modTx line (acked c)).resumeTx line := by
  unfold answered modTx acked
  simp

/-- Words that no transaction waits for change no transaction. -/
theorem answered_idle {s : State} {line : Nat} (h : s.txOf line = none) (c : Nat) (ack : Bool) (ws : List Nat) :
    s.answered line c ack ws = s := by
  have hnone : ∀ y ∈ s.txs, y.line ≠ line := by simpa [txOf] using h
  have hsame : ∀ f : Tx → Tx, (s.txs.map fun y => if y.line = line then f y else y) = s.txs := fun f =>
    (List.map_congr_left fun y hy => if_neg (hnone y hy)).trans (List.map_id' _)
  unfold answered
  dsimp only
  rw [hsame]
  unfold resumeTx
  rw [h]
  unfold runTx
  rw [h]

/-- An eviction whose last acknowledgement is in, and behind which nothing waits, ends. -/
theorem resumeTx_evict {s : State} {line : Nat} {x : Tx} (h : s.txOf line = some x) (hacks : x.acks = [])
    (hrecalls : x.recalls = []) (hasked : x.asked = false) (hqueue : x.queue = []) (hreq : x.req = .evict) :
    s.resumeTx line = { s with txs := s.txs.filter fun y => y.line ≠ line, sharers := ldel line s.sharers } := by
  obtain ⟨y, req, acks, recalls, queue, asked, held, wrote⟩ := x
  subst hacks hrecalls hasked hqueue hreq
  have hfree : ∀ u : State, u.mustOwn line .evict = false := fun _ => rfl
  unfold resumeTx runTx
  cases held <;>
    simp only [h, hfree, performTx, nextReq, ne_eq, not_true_eq_false, Bool.false_eq_true, or_self, if_false,
      Bool.false_and]

/-! ## Words that come home -/

/-- Words that a cluster owns, each named once, are all taken home. -/
theorem foldl_takeWord_owned {c : Nat} {vals : List WordVal} {s : State} (hnodup : (vals.map WordVal.word).Nodup)
    (howned : ∀ v ∈ vals, s.ownedBy c v.word = true) :
    vals.foldl (fun s v => if s.ownedBy c v.word then s.takeWord v else s) s = vals.foldl takeWord s := by
  induction vals generalizing s with
  | nil => rfl
  | cons v vals ih =>
    obtain ⟨hv, hrest⟩ := List.nodup_cons.1 hnodup
    rw [List.foldl_cons, List.foldl_cons, if_pos (howned v List.mem_cons_self)]
    refine ih hrest fun w hw => ?_
    have hne : w.word ≠ v.word := fun h => hv (h ▸ List.mem_map_of_mem hw)
    have hkept := howned w (List.mem_cons_of_mem v hw)
    unfold ownedBy takeWord
    dsimp only
    rw [lget_ldel_ne hne]
    exact hkept

theorem foldl_takeWord_txOf (vals : List WordVal) (s : State) (line : Nat) :
    (vals.foldl takeWord s).txOf line = s.txOf line :=
  List.foldlRecOn (motive := fun u : State => u.txOf line = s.txOf line) vals _ rfl fun _ hu _ _ => hu

end State

/-- A request whose line has its home at the slice that it reaches is served in its turn. -/
theorem requestHome_here {s : State} {k line : Nat}
    (h : s.homeSlice (chanCluster k / 16) line = chanSlice k) (rcb : Nat)
    (req : HomeReq) : s.requestHome k line rcb req = (s.countAccess line (chanCluster k / 16) rcb).arrive line req :=
  if_neg (not_not_intro h)

/-- A request whose line has moved goes back. -/
theorem requestHome_moved {s : State} {k line : Nat}
    (h : s.homeSlice (chanCluster k / 16) line ≠ chanSlice k) (rcb : Nat)
    (req : HomeReq) : s.requestHome k line rcb req =
      s.post (chanDown (chanCluster k) (chanSlice k)) (chanSlice k / 64) (chanCluster k / 16) (.retry line req) :=
  if_pos h

theorem exec_gets {s s1 : State} {n line rcb : Nat} {m : Msg} {ws : List Nat}
    (h : Arrives s n m (.gets line ws rcb) s1) :
    exec (.gets n) s = .next (s1.requestHome m.chan line rcb (.gets (chanCluster m.chan) ws)) := by
  obtain ⟨htake, hbody⟩ := h
  change execGets n s = _
  simp only [execGets, htake, hbody]

theorem exec_geto {s s1 : State} {n line rcb : Nat} {m : Msg} {ws : List Nat} {rel : Bool}
    (h : Arrives s n m (.geto line ws rel rcb) s1) :
    exec (.geto n) s = .next (s1.requestHome m.chan line rcb (.geto (chanCluster m.chan) ws rel)) := by
  obtain ⟨htake, hbody⟩ := h
  change execGeto n s = _
  simp only [execGeto, htake, hbody]

/-- Atomics of a cached page come as a request of their line. -/
theorem exec_atomMessage {s s1 : State} {n : Nat} {m : Msg} {r : AtomReq} {rs : List AtomReq}
    (h : Arrives s n m (.atom (r :: rs)) s1) (hcached : m.chan % 4 = 0) :
    exec (.atomMessage n) s = .next (s1.requestHome m.chan (lineOf r.pa) (s.atomRegion r) (.atom (r :: rs))) := by
  obtain ⟨htake, hbody⟩ := h
  change execAtomMessage n s = _
  simp only [execAtomMessage, htake, hbody, hcached, if_true]

theorem exec_iack {s s1 : State} {n line : Nat} {m : Msg} {ws : List Nat}
    (h : Arrives s n m (.iack line ws false) s1) :
    exec (.iack n) s = .next (s1.answered line (chanCluster m.chan) true []) := by
  obtain ⟨htake, hbody⟩ := h
  change execIack n s = _
  simp only [execIack, htake, hbody, Bool.false_eq_true, if_false]

/-- Settles O43: what the request needs first decides between its performance and the opening of a transaction. An
access is counted before its request arrives, and the counts alone differ. -/
theorem homeRequests : Obligations.HomeRequests := by
  intro s s1 n m line ws rcb rel x r rs vals wa o c h e slice counted here idle entered alone atomWords counted'
  refine ⟨?gets, ?recalls, ?waits, ?moved, ?geto, ?uncached, ?atoms, ?shared, ?iack, ?last, ?wb, ?evicts⟩
  case gets =>
    intro harrives hhere hidle halone
    have hnone : ∀ wa ∈ ws, lget wa counted.owners = none := by simpa [counted] using halone
    have hserved : counted.arrive line (.gets c ws) = counted.performTx line (.gets c ws) :=
      State.arrive_plain (by simpa [counted] using hidle) (fun _ => HomeReq.noConfusion) (fun _ _ => rfl) hnone
        (.inl rfl)
    rw [exec_gets harrives, requestHome_here hhere, hserved, State.performTx_gets hnone, State.countAccess_dieOfLine,
      State.countAccess_homeWord]
  case recalls =>
    intro harrives hhere hidle howned hreach
    rw [exec_gets harrives, requestHome_here hhere, State.arrive_gets_owned (o := o) (by simpa using hidle)
      (by simpa using howned) (by simpa using hreach), State.countAccess_dieOfLine, State.countAccess_txs]
  case waits =>
    intro harrives hhere hbusy
    rw [exec_gets harrives, requestHome_here hhere, State.arrive_busy (x := x) (by simpa using hbusy),
      State.countAccess_txs]
  case moved =>
    intro harrives hmoved
    rw [exec_gets harrives, requestHome_moved hmoved]
  case geto =>
    intro harrives hhere hidle halone hshared
    have hnone : ∀ wa ∈ ws, lget wa counted.owners = none := by simpa [counted] using halone
    have hserved : counted.arrive line (.geto c ws rel) = counted.performTx line (.geto c ws rel) :=
      State.arrive_plain (by simpa [counted] using hidle) (fun _ => HomeReq.noConfusion) (fun _ _ => rfl) hnone
        (.inr fun k hk => by rw [hshared k (by simpa [counted] using hk)]; rfl)
    rw [exec_geto harrives, requestHome_here hhere, hserved, State.performTx_geto_unowned hnone,
      State.countAccess_dieOfLine]
  case uncached =>
    rintro ⟨htake, hbody⟩ huncached hfree
    change execAtomMessage n s = _
    simp only [execAtomMessage, htake, hbody, if_neg huncached, hfree, if_true]
  case atoms =>
    intro harrives hcached hline hhere hidle hdevice hnone hshared
    have hfree : ∀ wa ∈ atomWords, lget wa counted'.owners = none := by simpa [counted'] using hnone
    have hserved : counted'.arrive line (.atom (r :: rs)) = counted'.performTx line (.atom (r :: rs)) :=
      State.arrive_plain (by simpa [counted'] using hidle) (fun _ => HomeReq.noConfusion)
        (fun u _ => State.mustOwn_device hdevice u _) hfree
        (.inr fun k hk => by rw [State.countAccess_sharersOf, hshared] at hk; exact absurd hk List.not_mem_nil)
    rw [exec_atomMessage harrives hcached, ← hline, requestHome_here hhere, hserved, State.performTx_atom hdevice,
      State.countAccess_dieOfLine]
  case shared =>
    intro harrives hcached hline hhere hidle hwords hnone hshared hreach
    have hfree : ∀ wa ∈ atomWords, lget wa counted'.owners = none := by simpa [counted'] using hnone
    have hserved := State.arrive_invalidates (s := counted') (line := line) (req := .atom (r :: rs))
      (by simpa [counted'] using hidle) hfree hwords rfl (by simpa [counted'] using hshared)
      (by simpa [counted'] using hreach)
    rw [exec_atomMessage harrives hcached, ← hline, requestHome_here hhere, hserved, State.countAccess_dieOfLine,
      State.countAccess_sharersOf, State.countAccess_txs]
    rfl
  case iack =>
    intro harrives hbusy hleft
    rw [exec_iack harrives, State.answered_ack]
    unfold State.resumeTx
    have hwaits := State.txOf_modTx (State.acked c) (fun _ => rfl) hbusy
    rw [State.runTx_waits hwaits (.inl hleft)]
    rfl
  case last =>
    intro harrives hbusy hacks hrecalls hasked hqueue hreq
    have hdone : x.acks.erase c = [] := by simp [hacks]
    have hends := State.txOf_modTx (State.acked c) (fun _ => rfl) hbusy
    rw [exec_iack harrives, State.answered_ack, State.resumeTx_evict hends hdone hrecalls hasked hqueue hreq,
      State.modTx_others (f := State.acked c) _ _ fun _ => rfl]
    rfl
  case wb =>
    rintro ⟨htake, hbody⟩ (hidle : s1.txOf line = none) hnodup howned
    have hhome := State.foldl_takeWord_owned (c := chanCluster m.chan) hnodup howned
    change execWb n s = _
    simp only [execWb, htake, hbody, hidle, Bool.false_eq_true, if_false, hhome]
    refine congrArg Host.Outcome.next (State.answered_idle ?_ ..)
    exact (State.foldl_takeWord_txOf vals s1 line).trans hidle
  case evicts =>
    intro haligned hidle hshared hnone hreach
    have hentry : (hasEntry s line && decide (line % 128 = 0) && (s.txOf line).isNone) = true := by
      simp [hasEntry, hshared, haligned, hidle]
    have hwords : State.lineWords line ≠ [] := fun h => absurd (List.map_eq_nil_iff.1 h) (by decide)
    change execDirectoryEviction line s = _
    unfold execDirectoryEviction
    rw [if_pos hentry, State.arrive_invalidates (req := .evict) hidle hnone hwords rfl hshared hreach]
    rfl

end Sys2Proof.Machine

/-! SUPPORT and PROOFS. What CSRR reads (R133, R209, R210). -/

namespace Sys2Proof.Machine

section
variable {n : Nat} (s : State) (t : Nat)

/-- FS0 to FS7 are the format slots of the thread's grid, or of a stitched thread's issuer (R53, R133). -/
theorem csrValue_fs (hfs : 0x020 ≤ n ∧ n < 0x028) :
    csrValue s t n = ((s.slotsOf s.iss.g t).1.getD (n - 0x020) 0).setWidth 64 := by
  unfold csrValue
  iterate 13 rw [if_neg (by omega)]
  rw [if_pos hfs.2]
  rfl

/-- FSSC0 to FSSC7 are the scales of the same slots. -/
theorem csrValue_fssc (hfssc : 0x028 ≤ n ∧ n < 0x030) :
    csrValue s t n = ((s.slotsOf s.iss.g t).2.getD (n - 0x028) 0).setWidth 64 := by
  unfold csrValue
  iterate 14 rw [if_neg (by omega)]
  rw [if_pos hfssc.2]
  rfl

end

/-- A CSRR that passes the checks gives D what register k holds for the thread that the issue reads it from: a pair for
a register of 64 bits, else one register (R209). -/
theorem csrr_completes {s : State} {d : Field} {n : BitVec 9} {k : Nat} {v : Nat → DWord} (h : Passes (.csrr d n) s)
    (hn : n.toNat = k) (hv : ∀ t, csrValue s (leadOf (.csrr d n) s t) k = v t) :
    Completes (.csrr d n) s fun st t =>
      if csrWidth n.toNat = some 64 then st.setPair t d (v t) else st.setReg t d ((v t).setWidth 32) :=
  runLanes_done h fun _ _ _ => by simp only [csrRegs_eq_two, hn, hv]

/-- Settles O19: the format slots are two ranges of numbers; of every other number the table has one row, which is the
branch of the read for that number. -/
theorem systemRegisterReads : Obligations.SystemRegisterReads := by
  intro s d n v of h id_ hv hp
  rcases hv with ⟨hn, rfl⟩ | ⟨hn, rfl⟩ | ⟨hn, rfl⟩ | ⟨hn, rfl⟩ | ⟨hn, rfl⟩ | ⟨hn, rfl⟩ | ⟨hn, rfl⟩ | ⟨hn, rfl⟩
    | ⟨hn, rfl⟩ | ⟨hn, rfl⟩ | ⟨hn, rfl⟩ | ⟨hn, rfl⟩ | ⟨hn, rfl⟩ | ⟨hfs, rfl⟩ | ⟨hfssc, rfl⟩ | ⟨hn, rfl⟩
    | ⟨hn, rfl⟩ | ⟨hn, rfl⟩ | ⟨hn, rfl⟩
  on_goal 14 => exact csrr_completes hp rfl fun t => csrValue_fs s (of t) hfs
  on_goal 14 => exact csrr_completes hp rfl fun t => csrValue_fssc s (of t) hfssc
  all_goals exact csrr_completes hp hn fun _ => rfl

end Sys2Proof.Machine

/-! PROOFS. The decoder reads back what the encoder writes (R149 to R174, R178), and words of the encoding tables. -/

namespace Sys2Proof.Laws.Encoding

/-- A row without words is not well formed. -/
theorem statement_of_wordless {i : Instr} (h : Machine.isLpi i = false) : Statement i := fun hw => by
  simp [Instr.wf, h] at hw

/-- The decoder reads back what the encoder writes: row by row, by the lemma of the row's own form. -/
theorem decode_encode (i : Instr) : Statement i := by
  cases i with
  -- integer R group, major 0x01 (R162, R188, R189)
  | add => apply add | sub => apply sub | mul => apply mul | mulhi => apply mulhi | mad => apply mad
  | div => apply div | rem => apply rem | min => apply min | max => apply max | abs => apply abs | neg => apply neg
  | and => apply and | or => apply or | xor => apply xor | andn => apply andn | shl => apply shl | shr => apply shr
  | sar => apply sar | fshl => apply fshl | fshr => apply fshr | popc => apply popc | clz => apply clz
  | ctz => apply ctz | brev => apply brev | bfx => apply bfx | bfi => apply bfi | sext => apply sext
  | zext => apply zext | sel => apply sel | mov => apply mov | lea => apply lea | cmp => apply cmp
  -- immediate forms, majors 0x02 to 0x0C (R190, R191)
  | addi => apply addi | andi => apply andi | ori => apply ori | xori => apply xori | shli => apply shli
  | shri => apply shri | sari => apply sari | cmpi => apply cmpi | movi => apply movi | movhi => apply movhi
  | addpc => apply addpc | lut3 => apply lut3
  -- transfers and control, majors 0x18 to 0x1E (R193 to R203)
  | bra => apply bra | brc => apply brc | brcNot => apply brcNot | call => apply call | jmpr => apply jmpr
  | callr => apply callr | ret => apply ret | exit => apply exit | yield => apply yield | fork => apply fork
  | join => apply join | setwb => apply setwb | setkb => apply setkb | mjoin => apply mjoin | mleave => apply mleave
  | mwait => apply mwait | mread => apply mread | mwrite => apply mwrite | voteAny => apply voteAny
  | voteAll => apply voteAll | voteBallot => apply voteBallot | shflIdx => apply shflIdx | shflUp => apply shflUp
  | shflDown => apply shflDown | shflXor => apply shflXor | plop => apply plop | bmov => apply bmov
  | bfill => apply bfill | migr => apply migr
  -- loads and stores, majors 0x20 to 0x27 (R217 to R220)
  | ld => apply ld | st => apply st | lds => apply lds | sts => apply sts | ldPointer => apply ldPointer
  | stPointer => apply stPointer | ldPf => apply ldPf | ldc => apply ldc | ldgs => apply ldgs
  -- queue, barrier, mailbox and launch group, major 0x28 (R221 to R229, R235 to R245)
  | waitf => apply waitf | sete => apply sete | acpy => apply acpy | qjoin => apply qjoin | qwait => apply qwait
  | fence => apply fence | bara => apply bara | baraTx => apply baraTx | barw => apply barw | msend => apply msend
  | mrecv => apply mrecv | mfree => apply mfree | launch => apply launch | stitch => apply stitch
  | pfarm => apply pfarm | pfstop => apply pfstop | cflush => apply cflush
  -- tickets, major 0x29 (R230 to R232)
  | ldt => apply ldt | rdm => apply rdm | rdmSpm => apply rdmSpm | tkdrop => apply tkdrop
  -- atomics, majors 0x2A and 0x2B (R233)
  | atom => apply atom | atomSpm => apply atomSpm | red => apply red | redSpm => apply redSpm
  -- vector groups, majors 0x2C to 0x30 (R246 to R259)
  | fadd => apply fadd | fsub => apply fsub | fmul => apply fmul | ffma => apply ffma | fmin => apply fmin
  | fmax => apply fmax | fabs => apply fabs | fneg => apply fneg | fcmp => apply fcmp | fclass => apply fclass
  | fround => apply fround | fdiv => apply fdiv | frcp => apply frcp | frsq => apply frsq | fsqrt => apply fsqrt
  | fexp2 => apply fexp2 | flog2 => apply flog2 | fsin => apply fsin | fcos => apply fcos | f2i => apply f2i
  | i2f => apply i2f | cvtTo => apply cvtTo | cvtFrom => apply cvtFrom | pack => apply pack | unpk => apply unpk
  | hadd2F16 => apply hadd2F16 | hmul2F16 => apply hmul2F16 | hfma2F16 => apply hfma2F16
  | hadd2Bf16 => apply hadd2Bf16 | hmul2Bf16 => apply hmul2Bf16 | hfma2Bf16 => apply hfma2Bf16 | dot4 => apply dot4
  | dot4S8 => apply dot4S8 | cdet => apply cdet | scanIncF32 => apply scanIncF32 | scanExcF32 => apply scanExcF32
  | scanIncS32 => apply scanIncS32 | scanExcS32 => apply scanExcS32 | merge => apply merge | mergeKz => apply mergeKz
  | prune => apply prune
  -- matrix, majors 0x34 to 0x37 (R260 to R275)
  | mma => apply mma | mmaR => apply mmaR | mmas => apply mmas | amalloc => apply amalloc | amfree => apply amfree
  | amshape => apply amshape | amrd => apply amrd | amwr => apply amwr | amzero => apply amzero
  | amdrain => apply amdrain | amdrainAdd => apply amdrainAdd | wbld => apply wbld | mq => apply mq
  | lrset => apply lrset | mqwait => apply mqwait
  -- texture, hash grid, raster, control store, majors 0x3B and 0x3C (R283, R293 to R308)
  | tex => apply tex | tld => apply tld | tgath => apply tgath | hgf => apply hgf | hgs => apply hgs
  | hgsDet => apply hgsDet | hgsfence => apply hgsfence | trav => apply trav | rscb => apply rscb | rsce => apply rsce
  | pixout => apply pixout | csld => apply csld | csrel => apply csrel
  -- system, major 0x3D (R197, R198, R209)
  | csrr => apply csrr | csrw => apply csrw | svc => apply svc | eret => apply eret | bkpt => apply bkpt
  -- rows without words
  | _ => exact statement_of_wordless rfl

end Sys2Proof.Laws.Encoding

namespace Sys2Proof.Machine

/-- Settles O60: each row's form has its lemma, and a row without words is not well formed. -/
theorem decodeReadsEncode : Obligations.DecodeReadsEncode := Laws.Encoding.decode_encode

/-- Settles O57: the decoder runs on each of the words. -/
theorem wordsOfTheTables : Obligations.WordsOfTheTables := by
  unfold Obligations.WordsOfTheTables
  decide

end Sys2Proof.Machine

/-! PROOFS. The next PC after BRA, BRC and JMPR (R152, R193, R194). -/

namespace Sys2Proof.Machine

/-- Settles O7: each of the four sets the PC of every thread of the bundle, or leaves it at NPC. -/
theorem transferTargets : Obligations.TransferTargets := by
  intro s c off a target
  refine ⟨?bra, ?brc, ?brcNot, ?jmpr⟩
  all_goals exact fun h => runLanes_done h fun _ _ _ => rfl

end Sys2Proof.Machine

/-! SUPPORT and PROOFS. The frame of the instructions that write one run of registers (R150, R154, R155, R187). -/

namespace Sys2Proof.Machine

/-! ## Threads and registers of the issuing group -/

/-- Thread t of the issuing group after a change of thread u. -/
theorem State.th_modTh (s : State) (u t : Nat) (f : Thread → Thread) :
    (s.modTh u f).th t = if t = u ∧ t < s.cur.threads.length then f (s.th t) else s.th t := by
  unfold th
  rw [modTh_iss]
  split
  case isTrue h => obtain ⟨rfl, hl⟩ := h; exact thread_modThread_self hl f
  case isFalse h =>
    by_cases hu : t = u
    · subst hu
      have hl : s.cur.threads.length ≤ t := Nat.le_of_not_lt fun hl => h ⟨rfl, hl⟩
      have hsame : (s.group s.iss.g).threads.modify t f = (s.group s.iss.g).threads := List.modify_eq_self hl
      unfold thread modTh
      rw [group_modThread, hsame]
    · exact thread_modThread_ne (.inr hu) s f

/-- The issuing group after a change of itself, or as before where there is no such group. -/
theorem State.cur_modGroup (s : State) (f : Group → Group) :
    (s.modGroup s.iss.g f).cur = f s.cur ∨ (s.modGroup s.iss.g f).cur = s.cur := by
  have hiss : (s.modGroup s.iss.g f).iss = s.iss := by rw [modGroup_only]
  unfold cur
  rw [hiss]
  cases e : lget s.iss.g s.groups with
  | none => exact .inr (by rw [modGroup_absent e])
  | some G =>
    refine .inl ?_
    rw [group_modGroup_self e]
    simp only [group, lgetD, e, Option.getD_some]

/-- A write of a k register leaves threads alone. -/
theorem th_writeK (s : State) (m : Nat) (v : Word) (t : Nat) : (s.writeK s.iss.g m v).th t = s.th t := by
  have hiss : (s.writeK s.iss.g m v).iss = s.iss := by rw [State.writeK, State.modGroup_only]
  have hthreads : ((s.writeK s.iss.g m v).group s.iss.g).threads = (s.group s.iss.g).threads := by
    unfold State.writeK
    apply State.group_modGroup_part Group.threads
    exact fun _ => rfl
  unfold State.th State.thread
  rw [hiss, hthreads]

/-- The threads that are there are those of the group. -/
theorem hasThread_cur (s : State) (t : Nat) : s.hasThread s.iss.g t = true ↔ t < s.cur.threads.length := by
  unfold State.hasThread State.cur State.group lgetD
  cases lget s.iss.g s.groups with
  | none => exact ⟨fun h => absurd h Bool.false_ne_true, fun h => absurd h (Nat.not_lt_zero t)⟩
  | some G => simp

/-- A thread that is not there has no wait to end. -/
theorem waits_absent {s : State} {t : Nat} (h : ¬t < s.cur.threads.length) :
    (s.th t).wait = none ∧ (s.th t).undo = none := by
  have hdefault : s.th t = default := List.getD_eq_default _ _ (Nat.le_of_not_lt h)
  rw [hdefault]
  exact ⟨rfl, rfl⟩

/-- The first m registers of the run at field d, written in ascending order with the values w. -/
def State.writeFields (s : State) (t : Nat) (d : Field) (w : Nat → Word) (m : Nat) : State :=
  (upTo m).foldl (fun st i => st.writeRegOf s.iss.g t (d.toNat + i) (w i)) s

theorem State.writeFields_succ (s : State) (t : Nat) (d : Field) (w : Nat → Word) (m : Nat) :
    s.writeFields t d w (m + 1) = (s.writeFields t d w m).writeRegOf s.iss.g t (d.toNat + m) (w m) := by
  simp [writeFields, upTo, List.range_succ]

/-- A run written is its registers written. -/
theorem State.setRun_eq_writeFields (s : State) (t : Nat) (d : Field) (vs : List Word) :
    s.setRun t d vs = s.writeFields t d (vs.getD · 0) vs.length := rfl

/-! ## Lists that agree outside a run -/

/-- The registers outside the n at lo read the same. -/
def SameOutside (lo n : Nat) (l l' : List Word) : Prop := ∀ m, m < lo ∨ lo + n ≤ m → l'.getD m 0 = l.getD m 0

namespace SameOutside
variable {lo n : Nat} {l l' l'' : List Word}

theorem refl : SameOutside lo n l l := fun _ _ => rfl

theorem trans (a : SameOutside lo n l l') (b : SameOutside lo n l' l'') : SameOutside lo n l l'' :=
  fun m hm => (b m hm).trans (a m hm)

/-- A register of the run, written. -/
theorem set {i : Nat} (h : lo ≤ i ∧ i < lo + n) (l : List Word) (v : Word) : SameOutside lo n l (l.set i v) := by
  intro m hm
  have hne : i ≠ m := by omega
  simp only [List.getD_eq_getElem?_getD, List.getElem?_set_ne hne]

end SameOutside

/-! ## What a write of a run leaves as it was -/

/-- The thread is as before but for its PC, its wait, the pointer to return to, and x registers: those that field d and
the n − 1 above it name, and none where they are k registers. -/
structure Thread.SameButRun (d : Field) (n : Nat) (h h' : Thread) : Prop where
  rest : h' = { h with pc := h'.pc, wait := h'.wait, undo := h'.undo, x := h'.x, badX := h'.badX }
  outside : SameOutside (h.xwb.toNat + d.toNat) n h.x h'.x
  kept : isK d = true → h'.x = h.x

namespace Thread.SameButRun
variable {d : Field} {n : Nat} {h h' h'' : Thread}

theorem refl (h : Thread) : SameButRun d n h h := ⟨rfl, .refl, fun _ => rfl⟩

theorem xwb_eq (a : SameButRun d n h h') : h'.xwb = h.xwb := by rw [a.rest]

theorem trans (a : SameButRun d n h h') (b : SameButRun d n h' h'') : SameButRun d n h h'' where
  rest := by rw [b.rest, a.rest]
  outside := a.outside.trans (a.xwb_eq ▸ b.outside)
  kept hk := (b.kept hk).trans (a.kept hk)

/-- One x register of the run, written. -/
theorem writeX {i : Nat} (hk : isK d = false) (hi : i < n) (h : Thread) (v : Word) (bad : List Nat) :
    SameButRun d n h { h with x := h.x.set (h.xwb.toNat + (d.toNat + i)) v, badX := bad } where
  rest := rfl
  outside := .set (by omega) h.x v
  kept hd := absurd hd (by simp [hk])

end Thread.SameButRun

/-- Of the issuing group, all is as before but k registers of the run and, of the threads ts, PCs, waits, pointers to
return to and x registers of the run; and so is everything else but the faults of ended walks. -/
structure RunFrame (d : Field) (n : Nat) (ts : List Nat) (s s' : State) : Prop where
  only : OnlyGroups s s'
  others : ∀ g, g ≠ s.iss.g → s'.group g = s.group g
  cur : s'.cur = { s.cur with threads := s'.cur.threads, k := s'.cur.k, badK := s'.cur.badK }
  count : s'.cur.threads.length = s.cur.threads.length
  outside : SameOutside (s.knum s.iss.g d.toNat) n s.cur.k s'.cur.k
  kept : isK d = false → s'.cur.k = s.cur.k
  threads : ∀ t, (s.th t).SameButRun d n (s'.th t)
  idle : ∀ t, t ∉ ts → s'.th t = s.th t

namespace RunFrame
variable {d : Field} {n : Nat} {ts : List Nat} {s s' s'' : State}

theorem iss_eq (a : RunFrame d n ts s s') : s'.iss = s.iss := by rw [a.only]

theorem refl (s : State) : RunFrame d n ts s s :=
  ⟨rfl, fun _ _ => rfl, rfl, rfl, .refl, fun _ => rfl, fun _ => .refl _, fun _ _ => rfl⟩

/-- Fields name the k registers that they named. -/
theorem knum_eq (a : RunFrame d n ts s s') (f : Nat) : s'.knum s'.iss.g f = s.knum s.iss.g f := by
  have h : s'.cur.kwb = s.cur.kwb := by rw [a.cur]
  exact congrArg (fun w : BitVec 8 => w.toNat + f - 96) h

/-- Fields name the x registers that they named. -/
theorem xnum_eq (a : RunFrame d n ts s s') (t f : Nat) : s'.xnum s'.iss.g t f = s.xnum s.iss.g t f :=
  congrArg (fun w : BitVec 8 => w.toNat + f) (a.threads t).xwb_eq

theorem trans (a : RunFrame d n ts s s') (b : RunFrame d n ts s' s'') : RunFrame d n ts s s'' where
  only := a.only.trans b.only
  others g hg := (b.others g (by rw [a.iss_eq]; exact hg)).trans (a.others g hg)
  cur := by rw [b.cur, a.cur]
  count := b.count.trans a.count
  outside := a.outside.trans (a.knum_eq d.toNat ▸ b.outside)
  kept hk := (b.kept hk).trans (a.kept hk)
  threads t := (a.threads t).trans (b.threads t)
  idle t ht := (b.idle t ht).trans (a.idle t ht)

/-- A change of one of the threads that keeps all but those parts of it. -/
theorem modTh {t : Nat} {f : Thread → Thread} (ht : t ∈ ts) (hf : (s.th t).SameButRun d n (f (s.th t))) :
    RunFrame d n ts s (s.modTh t f) where
  only := State.onlyGroups_modTh s t f
  others g hg := State.group_modThread_ne hg s t f
  cur := by rw [State.cur_modTh]
  count := by rw [State.cur_modTh]; exact List.length_modify ..
  outside := by rw [State.cur_modTh]; exact .refl
  kept _ := by rw [State.cur_modTh]
  threads u := by
    rw [State.th_modTh]
    split
    case isTrue h => obtain ⟨rfl, -⟩ := h; exact hf
    case isFalse => exact .refl _
  idle u hu := by
    rw [State.th_modTh, if_neg]
    rintro ⟨rfl, -⟩
    exact hu ht

theorem advance {t : Nat} (ht : t ∈ ts) (s : State) : RunFrame d n ts s (s.advance t) :=
  modTh ht ⟨rfl, .refl, fun _ => rfl⟩

theorem dropFaults (s : State) (t : Nat) : RunFrame d n ts s (s.dropFaults t) :=
  ⟨rfl, fun _ _ => rfl, rfl, rfl, .refl, fun _ => rfl, fun _ => .refl _, fun _ _ => rfl⟩

theorem settle {t : Nat} (ht : t ∈ ts) (s : State) : RunFrame d n ts s (s.settle t) :=
  (dropFaults s t).trans (modTh ht ⟨rfl, .refl, fun _ => rfl⟩)

/-- A k register of the run, written. -/
theorem writeK {i : Nat} (hk : isK d = true) (hi : i < n) (s : State) (v : Word) :
    RunFrame d n ts s (s.writeK s.iss.g (s.knum s.iss.g (d.toNat + i)) v) where
  only := by unfold OnlyGroups State.writeK; rw [State.modGroup_only]
  others g hg := State.group_modGroup_ne hg s _
  cur := by rcases State.cur_modGroup s _ with e | e <;> rw [State.writeK, e]
  count := by rcases State.cur_modGroup s _ with e | e <;> rw [State.writeK, e]
  outside := by
    have hd : 96 ≤ d.toNat := by simpa [isK] using hk
    have hin : s.knum s.iss.g d.toNat ≤ s.knum s.iss.g (d.toNat + i)
        ∧ s.knum s.iss.g (d.toNat + i) < s.knum s.iss.g d.toNat + n := by unfold State.knum; omega
    rcases State.cur_modGroup s _ with e | e <;> rw [State.writeK, e]
    · exact .set hin _ _
    · exact .refl
  kept hx := absurd hk (by simp [hx])
  threads t := th_writeK s _ v t ▸ .refl _
  idle t _ := th_writeK s _ v t

/-- A register of the run, written: the run lies in one window (R155). -/
theorem writeRegOf {t i : Nat} (ht : t ∈ ts) (hrun : runOk d n = true) (hi : i < n) (s : State) (v : Word) :
    RunFrame d n ts s (s.writeRegOf s.iss.g t (d.toNat + i) v) := by
  unfold State.writeRegOf
  cases hk : isK d with
  | false =>
    have hx : d.toNat + i < 96 := by simp [runOk, hk] at hrun; omega
    rw [if_pos hx]
    exact modTh ht (.writeX hk hi (s.th t) v _)
  | true =>
    have hx : ¬d.toNat + i < 96 := by simp [isK] at hk; omega
    rw [if_neg hx]
    exact writeK hk hi s v

/-- The first m registers of the run, written. -/
theorem writeFields {t m : Nat} (ht : t ∈ ts) (hrun : runOk d n = true) (hm : m ≤ n) (s : State) (w : Nat → Word) :
    RunFrame d n ts s (s.writeFields t d w m) := by
  induction m with
  | zero => exact refl s
  | succ m ih =>
    have h := ih (by omega)
    rw [State.writeFields_succ, ← h.iss_eq]
    exact h.trans (writeRegOf ht hrun hm _ _)

/-- The run, written. -/
theorem setRun {t : Nat} {vs : List Word} (ht : t ∈ ts) (hrun : runOk d n = true) (hn : vs.length ≤ n) (s : State) :
    RunFrame d n ts s (s.setRun t d vs) := writeFields ht hrun hn s _

/-- One thread's part of an instruction that writes the run. -/
theorem laneDone {t : Nat} {vs : Nat → List Word} (ht : t ∈ ts) (hrun : runOk d n = true) (hn : (vs t).length ≤ n)
    (s : State) : RunFrame d n ts s (laneDone (fun st t => st.setRun t d (vs t)) s t) :=
  (advance ht s).trans ((setRun ht hrun hn _).trans (settle ht _))

end RunFrame

/-! ## The threads of the bundle go on at NPC -/

/-- Where a thread stands in its program: its PC, its wait and the pointer to return to. -/
def Thread.course (h : Thread) : DWord × Option WaitOn × Option (Nat × DWord) := (h.pc, h.wait, h.undo)

/-- The course of a thread that has done its instruction: on at npc, with nothing of a wait left. -/
def gone (npc : DWord) : DWord × Option WaitOn × Option (Nat × DWord) := (npc, none, none)

/-- A run written leaves courses alone. -/
theorem course_setRun (s : State) (t : Nat) (d : Field) (vs : List Word) (u : Nat) :
    ((s.setRun t d vs).th u).course = (s.th u).course := by
  refine (List.foldlRecOn (motive := fun st : State => st.iss = s.iss ∧ (st.th u).course = (s.th u).course)
    (upTo vs.length) _ ⟨rfl, rfl⟩ fun st ⟨hiss, hcourse⟩ i _ => ?_).2
  refine ⟨by rw [State.writeRegOf_only]; exact hiss, ?_⟩
  rw [← hcourse, ← hiss]
  unfold State.writeRegOf
  split
  case isTrue => exact (congrArg Thread.course (State.th_modTh ..)).trans (by split <;> rfl)
  case isFalse => rw [th_writeK]

theorem course_advance (s : State) (t u : Nat) : ((s.advance t).th u).course =
    if u = t ∧ u < s.cur.threads.length then (s.iss.npc, none, (s.th u).undo) else (s.th u).course :=
  (congrArg Thread.course (State.th_modTh ..)).trans (apply_ite Thread.course ..)

theorem course_settle (s : State) (t u : Nat) : ((s.settle t).th u).course =
    if u = t ∧ u < s.cur.threads.length then ((s.th u).course.1, (s.th u).course.2.1, none) else (s.th u).course :=
  (congrArg Thread.course (State.th_modTh (s.dropFaults t) ..)).trans (apply_ite Thread.course ..)

section
variable {d : Field} {n : Nat} {vs : Nat → List Word} (hrun : runOk d n = true) (hn : ∀ t, (vs t).length = n)
include hrun hn

/-- One thread's part sets the course of that thread. -/
theorem course_laneDone (s : State) (t u : Nat) : ((laneDone (fun st t => st.setRun t d (vs t)) s t).th u).course =
    if u = t ∧ u < s.cur.threads.length then gone s.iss.npc else (s.th u).course := by
  have hcount : ((s.advance t).setRun t d (vs t)).cur.threads.length = s.cur.threads.length :=
    ((RunFrame.advance (List.mem_singleton_self t) s).trans
      (.setRun (List.mem_singleton_self t) hrun (hn t).le _)).count
  rw [laneDone, course_settle, course_setRun, course_advance, hcount]
  split <;> rfl

/-- The parts of threads set the courses of those threads. -/
theorem course_lanes (ts : List Nat) (s : State) (u : Nat) :
    ((ts.foldl (laneDone fun st t => st.setRun t d (vs t)) s).th u).course =
      if u ∈ ts ∧ u < s.cur.threads.length then gone s.iss.npc else (s.th u).course := by
  induction ts generalizing s with
  | nil => simp
  | cons t r ih =>
    have hframe := RunFrame.laneDone (List.mem_singleton_self t) hrun (hn t).le s
    rw [List.foldl_cons, ih, hframe.count, hframe.iss_eq, course_laneDone hrun hn]
    simp only [List.mem_cons]
    grind

/-- The threads of the bundle go on at NPC, and nothing of their waits is left. -/
theorem course_bundleDone (s : State) (t : Nat) : ((bundleDone (fun st t => st.setRun t d (vs t)) s).th t).course =
    (if t ∈ s.iss.ts ∧ s.hasThread s.iss.g t then s.iss.npc else (s.th t).pc,
      if t ∈ s.iss.ts then none else (s.th t).wait, if t ∈ s.iss.ts then none else (s.th t).undo) := by
  have habsent := waits_absent (s := s) (t := t)
  simp only [bundleDone, course_lanes hrun hn, hasThread_cur]
  by_cases ht : t ∈ s.iss.ts <;> by_cases hl : t < s.cur.threads.length <;>
    simp [ht, hl, gone, Thread.course, habsent]

end

/-! ## The instructions whose whole effect is one run of registers -/

/-- The instruction completes for its bundle with one write of a run of n registers at field d. -/
def WritesRun (i : Instr) (d : Field) (n : Nat) (s : State) : Prop :=
  ∃ vs : Nat → List Word, (∀ t, (vs t).length = n) ∧ Completes i s fun st t => st.setRun t d (vs t)

section
variable {i : Instr} {d : Field} {s : State} (h : Passes i s)
include h

/-- One register for each thread is a run of one. -/
theorem regLanes_writesRun {v : State → Nat → Word} (he : exec i s = regLanes i d v s) : WritesRun i d 1 s :=
  ⟨fun t => [v s t], fun _ => rfl, he.trans (regLanes_done h)⟩

/-- A pair for each thread is a run of two. -/
theorem pairLanes_writesRun {v : State → Nat → DWord}
    (he : exec i s = runLanes i (fun s0 s t => .ok (s.setPair t d (v s0 t))) s) : WritesRun i d 2 s :=
  ⟨fun t => [(v s t).setWidth 32, (v s t >>> 32).setWidth 32], fun _ => rfl,
    he.trans (runLanes_done h fun _ _ _ => rfl)⟩

/-- A value of a type for each thread is a run as long as the type has registers. -/
theorem putLanes_writesRun {ty : Ty} {v : State → Nat → Int} (he : exec i s = putLanes i ty d v s) :
    WritesRun i d ty.regs s := by
  unfold Ty.regs
  split
  case isTrue h64 =>
    exact pairLanes_writesRun h (v := fun s t => BitVec.ofNat 64 (wrap 64 (v s t)))
      (he.trans (by simp only [putLanes, State.putTy, h64, if_true]))
  case isFalse h64 =>
    refine regLanes_writesRun h (v := fun s t => if ty.width = 32 then BitVec.ofNat 32 (wrap 32 (v s t))
      else BitVec.ofNat 32 (wrap 32 (extOf ty.signed ty.width (wrap ty.width (v s t))))) (he.trans ?_)
    by_cases h32 : ty.width = 32 <;> simp [putLanes, regLanes, State.putTy, h64, h32]

/-- SEXT and ZEXT write what the type has registers for. -/
theorem extend_writesRun {sg : Bool} {ty : Ty} {a : Field} (he : exec i s = extend i sg ty d a s) :
    WritesRun i d ty.regs s := by
  unfold Ty.regs
  split
  case isTrue h64 =>
    exact pairLanes_writesRun h (v := fun s t => BitVec.ofInt 64
      (extOf sg (Nat.min ty.width 32) ((s.reg t a).toNat % 2 ^ Nat.min ty.width 32)))
      (he.trans (by simp only [extend, h64, if_true]))
  case isFalse h64 =>
    exact regLanes_writesRun h (v := fun s t => BitVec.ofInt 32
      (extOf sg (Nat.min ty.width 32) ((s.reg t a).toNat % 2 ^ Nat.min ty.width 32)))
      (he.trans (by simp only [extend, regLanes, h64, if_false]))

end

/-- The register-only instructions write the run that their fields name first. -/
theorem writesRun_of_onlyRegs {i : Instr} {d : Field} {s : State} (hi : onlyRegs i = some d) (h : Passes i s) :
    WritesRun i d ((uses i).headD (d, 1)).2 s := by
  cases i with
  | add | sub | mul | mulhi | mad | div | rem | min | max | abs | neg | and | or | xor | andn | shl | shr | sar
  | popc | clz | ctz | brev | bfx | bfi | sel | mov => cases hi; exact putLanes_writesRun h rfl
  | fshl | fshr | addi | andi | ori | xori | shli | shri | sari | movi | movhi | lut3 | mread | voteBallot
  | shflIdx | shflUp | shflDown | shflXor => cases hi; exact regLanes_writesRun h rfl
  | sext | zext => cases hi; exact extend_writesRun h rfl
  | lea | addpc => cases hi; exact pairLanes_writesRun h rfl
  | _ => cases hi

/-- The run that a register-only instruction writes is the first operand that it names (R155). -/
theorem uses_of_onlyRegs {i : Instr} {d : Field} (hi : onlyRegs i = some d) : ∃ n r, uses i = (d, n) :: r := by
  cases i
  all_goals cases hi
  all_goals exact ⟨_, _, rfl⟩

/-- The run of a well-formed register-only instruction lies in one window (R155). -/
theorem runOk_of_onlyRegs {i : Instr} {d : Field} (hi : onlyRegs i = some d) (hw : i.wf = true) :
    runOk d ((uses i).headD (d, 1)).2 = true := by
  obtain ⟨n, r, huses⟩ := uses_of_onlyRegs hi
  simp only [Instr.wf, fieldsOk, huses, List.all_cons, Bool.and_eq_true] at hw
  rw [huses]
  exact hw.2.2.1

/-- Settles O5: each instruction writes one run, which lies in one window; from that follow the frame and the threads'
courses, one thread's part after the other. -/
theorem registerResultFrame : Obligations.RegisterResultFrame := by
  intro i d s hi hw hp
  obtain ⟨vs, hn, hdone⟩ := writesRun_of_onlyRegs hi hp
  have hrun := runOk_of_onlyRegs hi hw
  generalize ((uses i).headD (d, 1)).2 = n at hn hrun ⊢
  have frame : RunFrame d n s.iss.ts s (bundleDone (fun st t => st.setRun t d (vs t)) s) :=
    List.foldlRecOn (motive := RunFrame d n s.iss.ts s) s.iss.ts _ (.refl s) fun st h t ht =>
      h.trans (.laneDone ht hrun (hn t).le st)
  refine ⟨_, hdone, ⟨frame.only, frame.others, frame.cur, fun t => ?_⟩, fun t ht => by rw [frame.idle t ht],
    fun hx => ⟨frame.kept hx, fun t m hm => (frame.threads t).outside m hm⟩,
    fun hk => ⟨fun t => (frame.threads t).kept hk, fun m hm => frame.outside m hm⟩⟩
  have hcourse := course_bundleDone hrun hn s t
  simp only [Thread.course, Prod.mk.injEq] at hcourse
  obtain ⟨hpc, hwait, hundo⟩ := hcourse
  exact (frame.threads t).rest.trans (by rw [hpc, hwait, hundo])

end Sys2Proof.Machine

/-! SUPPORT and PROOFS. The registers after a load that the core's L0 or its L1 serves (R153, R217). -/

namespace Sys2Proof.Machine

/-! ## Bytes as words -/

theorem ofBytes_lt (bs : List Byte) : ofBytes bs < 256 ^ bs.length := by
  induction bs with
  | nil => exact Nat.one_pos
  | cons b r ih =>
    have hb := b.isLt
    rw [ofBytes, List.length_cons, Nat.pow_succ]
    omega

theorem ofBytes_append (l r : List Byte) : ofBytes (l ++ r) = ofBytes l + 256 ^ l.length * ofBytes r := by
  induction l with
  | nil => simp [ofBytes]
  | cons b l ih =>
    rw [List.cons_append, ofBytes, ofBytes, ih, List.length_cons, Nat.pow_succ]
    ring

section
variable {bs : List Byte} {sext : Bool}

/-- A load writes as many words as its size names registers. -/
theorem loadWords_length (sz : Size) (bs : List Byte) (sext : Bool) :
    (State.loadWords sz.bytes sext bs).length = sz.regs := by
  unfold State.loadWords
  cases sz <;> simp [Size.bytes, Size.regs, wordsOf]

/-- Four bytes are a word. -/
theorem loadWords_word (h : bs.length = 4) : ∃ w, State.loadWords 4 sext bs = [w] ∧ w.toNat = ofBytes bs := by
  have hlt := h ▸ ofBytes_lt bs
  exact ⟨BitVec.ofNat 32 (ofBytes bs), by simp [State.loadWords, wordsOf, List.take_of_length_le h.le],
    by simpa using hlt⟩

/-- The two words of eight bytes are the halves of their number. -/
theorem loadWords_pair (h : bs.length = 8) : ∃ lo hi, State.loadWords 8 sext bs = [lo, hi]
    ∧ (hi ++ lo).toNat = ofBytes bs := by
  have hlo : (bs.take 4).length = 4 := by simp [h]
  have hhi : (bs.drop 4).length = 4 := by simp [h]
  have hnum : ofBytes bs = ofBytes (bs.take 4) + 256 ^ 4 * ofBytes (bs.drop 4) := by
    simpa [hlo] using ofBytes_append (bs.take 4) (bs.drop 4)
  have l1 := hlo ▸ ofBytes_lt (bs.take 4)
  have l2 := hhi ▸ ofBytes_lt (bs.drop 4)
  refine ⟨BitVec.ofNat 32 (ofBytes (bs.take 4)), BitVec.ofNat 32 (ofBytes (bs.drop 4)), ?_, ?_⟩
  · simp [State.loadWords, wordsOf, List.take_of_length_le hhi.le]
  · rw [BitVec.toNat_append, ← Nat.shiftLeft_add_eq_or_of_lt (BitVec.isLt _), Nat.shiftLeft_eq, hnum,
      BitVec.toNat_ofNat, BitVec.toNat_ofNat]
    omega

/-- Below four bytes without extension by the sign the number itself is written. -/
theorem loadWords_narrow {size : Nat} (h : bs.length = size) (hsize : size < 4) :
    ∃ w, State.loadWords size false bs = [w] ∧ w.toNat = ofBytes bs := by
  have hlt : ofBytes bs < 2 ^ 32 :=
    calc ofBytes bs < 256 ^ size := h ▸ ofBytes_lt bs
      _ ≤ 256 ^ 4 := Nat.pow_le_pow_right (by decide) hsize.le
  exact ⟨_, if_pos hsize, by simpa using hlt⟩

/-- Below four bytes with extension by the sign the number read as signed is written. -/
theorem loadWords_signed {size : Nat} (h : bs.length = size) (hsize : size = 1 ∨ size = 2) :
    ∃ w, State.loadWords size true bs = [w] ∧ w.toInt = extOf true (8 * size) (ofBytes bs) := by
  have hlt := h ▸ ofBytes_lt bs
  refine ⟨_, if_pos (by omega), ?_⟩
  unfold extOf
  rw [BitVec.toInt_eq_toNat_cond, BitVec.toNat_ofNat]
  by_cases hneg : 2 ^ (8 * size - 1) ≤ ofBytes bs
  · simp only [hneg, and_self, if_true]
    rcases hsize with rfl | rfl <;> simp only [Nat.reduceMul, Nat.reduceSub, Nat.reducePow] at hneg hlt ⊢ <;> omega
  · simp only [hneg, and_false, if_false]
    rcases hsize with rfl | rfl <;> simp only [Nat.reduceMul, Nat.reduceSub, Nat.reducePow] at hneg hlt ⊢ <;> omega
end

theorem l1Bytes_length (s : State) (c pa n : Nat) : (s.l1Bytes c pa n).length = n := by simp [State.l1Bytes, upTo]

theorem l0Bytes_length {s : State} {g pa n : Nat} {bs : List Byte} (h : s.l0Bytes g pa n = some bs) :
    bs.length = n := by
  unfold State.l0Bytes at h
  split at h
  · cases h
  · dsimp only at h
    split at h
    · cases h; simp [upTo]
    · cases h

/-! ## Registers inside the allocation -/

theorem leastBy_none {α : Type} {f : α → Nat} {l : List α} (h : leastBy f l = none) : l = [] := by
  cases l with
  | nil => rfl
  | cons a r => unfold leastBy at h; split at h <;> [cases h; split at h <;> cases h]

/-- The x registers that an instruction names for a thread that passes the checks lie in its allocation (R154). -/
theorem room_of_laneCheck {i : Instr} {s : State} {t n : Nat} {f : Field} (h : laneCheck i s t = none)
    (hf : (f, n) ∈ uses i) (hx : isK f = false) : s.xnum s.iss.g t f.toNat + n ≤ s.cur.alloc := by
  have houtside : regOutside s s.iss.g t i = none := by
    unfold laneCheck at h
    grind
  have hnone := List.filterMap_eq_nil_iff.1 (leastBy_none houtside) (f, n) hf
  simp only [hx, Bool.false_or, decide_eq_true_eq] at hnone
  by_contra hroom
  exact absurd ((if_neg hroom).symm.trans hnone) (Option.some_ne_none _)

/-! ## A load's registers, written -/

theorem isK_of_room {d : Field} {n : Nat} (h0 : 0 < n) (hd : d.toNat + n ≤ 96) : isK d = false := by
  simp only [isK, decide_eq_false_iff_not]
  omega

theorem runOk_of_room {d : Field} {n : Nat} (h0 : 0 < n) (hd : d.toNat + n ≤ 96) : runOk d n = true := by
  simp [runOk, isK_of_room h0 hd, hd]

theorem Size.bytes_narrow {sz : Size} (h : sz.bytes < 4) : sz.bytes = 1 ∨ sz.bytes = 2 := by
  revert h
  cases sz <;> decide

theorem Size.regs_pos (sz : Size) : 0 < sz.regs := by cases sz <;> decide

namespace State

/-- A write of an x register is a change of the thread alone. -/
theorem writeRegOf_x {f : Nat} (hf : f < 96) (s : State) (t : Nat) (v : Word) :
    s.writeRegOf s.iss.g t f v = s.modTh t fun h =>
      { h with x := h.x.set (s.xnum s.iss.g t f) v, badX := h.badX.filter (· ≠ s.xnum s.iss.g t f) } := if_pos hf

/-- The x registers of a thread that is there, one of them written. -/
theorem x_writeRegOf {s : State} {t f : Nat} (hf : f < 96) (ht : t < s.cur.threads.length) (v : Word) :
    ((s.writeRegOf s.iss.g t f v).th t).x = (s.th t).x.set (s.xnum s.iss.g t f) v := by
  rw [writeRegOf_x hf, th_modTh, if_pos ⟨rfl, ht⟩]

/-- The numbers of a run of x registers. -/
theorem runNums_x {f n : Nat} (h : f + n ≤ 96) (s : State) (g t : Nat) :
    s.runNums g t f n = (upTo n).map fun i => 2 * s.xnum g t (f + i) :=
  List.map_congr_left fun i hi => if_pos (by simp [upTo] at hi; omega)

/-- Registers written by absolute number are the run at a field below 96. -/
theorem writeDst_eq_setRun {s : State} {t n : Nat} {d : Field} {vs : List Word} (h0 : 0 < n) (hd : d.toNat + n ≤ 96)
    (hn : vs.length = n) : s.writeDst s.iss.g t (s.runNums s.iss.g t d.toNat n) vs = s.setRun t d vs := by
  have hrun := runOk_of_room h0 hd
  have hlen : (s.runNums s.iss.g t d.toNat n).length = n := by simp [runNums, upTo]
  unfold writeDst
  rw [hlen, setRun_eq_writeFields, hn]
  refine (List.foldl_rel (r := fun a b => a = b ∧ RunFrame d n [t] s a) ⟨rfl, .refl s⟩ ?_).1
  rintro i hi st _ ⟨rfl, frame⟩
  have hi : i < n := by simpa [upTo] using hi
  have hat : (s.runNums s.iss.g t d.toNat n).getD i 0 = 2 * st.xnum st.iss.g t (d.toNat + i) := by
    rw [runNums_x hd, frame.xnum_eq]
    simp [upTo, List.getD_eq_getElem?_getD, hi]
  have hwrite : st.writeX st.iss.g t (st.xnum st.iss.g t (d.toNat + i)) (vs.getD i 0)
      = st.writeRegOf st.iss.g t (d.toNat + i) (vs.getD i 0) := (if_pos (by omega)).symm
  rw [hat, ← frame.iss_eq]
  simp only [Nat.mul_mod_right, if_true, Nat.mul_div_cancel_left _ Nat.two_pos, hwrite]
  exact ⟨trivial, frame.trans (.writeRegOf (List.mem_singleton_self t) hrun hi st _)⟩

/-- The registers of a run read as they were written, where the allocation has room for them. -/
theorem x_writeFields {s : State} {t m : Nat} {d : Field} {w : Nat → Word} (hd : d.toNat + m ≤ 96)
    (ht : t < s.cur.threads.length) (hroom : s.xnum s.iss.g t d.toNat + m ≤ (s.th t).x.length) :
    ((s.writeFields t d w m).th t).x.length = (s.th t).x.length
      ∧ ∀ i < m, ((s.writeFields t d w m).th t).x.getD (s.xnum s.iss.g t (d.toNat + i)) 0 = w i := by
  induction m with
  | zero => exact ⟨rfl, fun i hi => absurd hi (Nat.not_lt_zero i)⟩
  | succ m ih =>
    obtain ⟨hlen, hread⟩ := ih (by omega) (by omega)
    have frame : RunFrame d (m + 1) [t] s (s.writeFields t d w m) :=
      .writeFields (List.mem_singleton_self t) (runOk_of_room m.succ_pos hd) m.le_succ s w
    have hset := x_writeRegOf (f := d.toNat + m) (by omega) (frame.count ▸ ht) (w m)
    rw [frame.xnum_eq, frame.iss_eq, ← writeFields_succ] at hset
    refine ⟨by rw [hset, List.length_set, hlen], fun i hi => ?_⟩
    rw [hset, List.getD_eq_getElem?_getD]
    rcases Nat.lt_succ_iff_lt_or_eq.1 hi with hlt | rfl
    · have hne : s.xnum s.iss.g t (d.toNat + m) ≠ s.xnum s.iss.g t (d.toNat + i) := by unfold xnum; omega
      rw [List.getElem?_set_ne hne, ← List.getD_eq_getElem?_getD, hread i hlt]
    · have hin : s.xnum s.iss.g t (d.toNat + i) < ((s.writeFields t d w i).th t).x.length := by
        rw [hlen]; unfold xnum at hroom ⊢; omega
      rw [List.getElem?_set_self hin, Option.getD_some]

/-- A run that a thread has written at the end of its instruction. -/
theorem regAt_setRun_settle {s : State} {t i : Nat} {d : Field} {vs : List Word} (hd : d.toNat + vs.length ≤ 96)
    (ht : t < s.cur.threads.length) (hroom : s.xnum s.iss.g t d.toNat + vs.length ≤ (s.th t).x.length)
    (hi : i < vs.length) : ((s.setRun t d vs).settle t).regAt t d i = vs.getD i 0 := by
  have frame : RunFrame d vs.length [t] s ((s.setRun t d vs).settle t) :=
    (RunFrame.setRun (List.mem_singleton_self t) (runOk_of_room (by omega) hd) le_rfl s).trans
      (.settle (List.mem_singleton_self t) _)
  have hx := th_settle_part Thread.x (fun _ _ => rfl) (s.setRun t d vs) t t
  unfold regAt readRegOf
  rw [if_pos (by omega), frame.xnum_eq]
  exact (congrArg (List.getD · _ 0) hx).trans ((x_writeFields hd ht hroom).2 i hi)

/-! ## The reply of a load, and its end -/

/-- A part of every thread that its pending registers are no part of. -/
theorem clearPend_thread_part {α : Type} (p : Thread → α) (hp : ∀ (h : Thread) l, p { h with pendX := l } = p h)
    (s : State) (g t : Nat) (dst : List Nat) (h u : Nat) :
    p ((s.clearPend g t dst).thread h u) = p (s.thread h u) := by
  have hthreads : ∀ r : State, ((r.modGroup g fun G =>
      { G with pendK := (dst.filter (· % 2 = 1)).foldl (fun l n => l.erase (n / 2)) G.pendK }).group h).threads
        = (r.group h).threads := fun r => by
    apply group_modGroup_part Group.threads
    exact fun _ => rfl
  unfold clearPend thread
  rw [hthreads]
  exact thread_modThread_part p (fun h => hp h _) s g t h u

/-- A part of every group that neither a change of one of its threads nor its pending registers change. -/
theorem clearPend_group_part {α : Type} (p : Group → α) {t : Nat}
    (hthread : ∀ (G : Group) f, p { G with threads := G.threads.modify t f } = p G)
    (hpend : ∀ (G : Group) l, p { G with pendK := l } = p G) (s : State) (g : Nat) (dst : List Nat) (h : Nat) :
    p ((s.clearPend g t dst).group h) = p (s.group h) :=
  (group_modGroup_part p (fun G => hpend G _) _ g h).trans (group_modGroup_part p (fun G => hthread G _) s g h)

/-- The state in which the registers of a reply are written: the load has gone, and nothing of it is pending. -/
def landing (s : State) (q : LoadReq) : State :=
  { s with loads := s.loads.filter fun x => x.id ≠ q.id }.clearPend q.g q.t q.dst

section
variable {s : State} {q : LoadReq}

@[simp] theorem landing_iss : (s.landing q).iss = s.iss := by rw [landing, clearPend_only]
@[simp] theorem landing_mem : (s.landing q).mem = s.mem := by rw [landing, clearPend_only]
@[simp] theorem landing_l1s : (s.landing q).l1s = s.l1s := by rw [landing, clearPend_only]
@[simp] theorem landing_blocks : (s.landing q).blocks = s.blocks := by rw [landing, clearPend_only]

end

/-- A load of the issuing group that is no RET and that no higher thread has overtaken writes its run. -/
theorem finishLoad_eq_setRun {s : State} {q : LoadReq} {bs : List Byte} {d : Field} {n : Nat} (hret : q.ret = false)
    (hskip : q.skip = []) (hg : q.g = s.iss.g) (hdst : q.dst = s.runNums s.iss.g q.t d.toNat n) (h0 : 0 < n)
    (hd : d.toNat + n ≤ 96) (hn : (loadWords q.size q.sext bs).length = n) :
    s.finishLoad q bs = (s.landing q).setRun q.t d (loadWords q.size q.sext bs) := by
  have hnums : q.dst = (s.landing q).runNums (s.landing q).iss.g q.t d.toNat n := by
    rw [hdst, landing_iss, runNums_x hd, runNums_x hd]
    have hxwb : ((s.landing q).thread s.iss.g q.t).xwb = (s.thread s.iss.g q.t).xwb :=
      clearPend_thread_part Thread.xwb (fun _ _ => rfl) ..
    unfold xnum
    rw [hxwb]
  have hodd : q.dst.filter (· % 2 = 1) = [] := by
    rw [hdst, runNums_x hd, List.filter_eq_nil_iff]
    simp
  unfold finishLoad landDst strikeLower
  rw [hret, hskip]
  simp only [Bool.false_eq_true, if_false, if_true, hodd]
  have hwrite := writeDst_eq_setRun (s := s.landing q) (t := q.t) h0 hd hn
  rw [← hnums, landing_iss, ← hg] at hwrite
  exact hwrite

/-- An entry in the L0 of a core changes cores alone. -/
theorem fillL0_only (s : State) (g pa n : Nat) : s.fillL0 g pa n = { s with cores := (s.fillL0 g pa n).cores } := by
  unfold fillL0
  split <;> rfl

theorem fillL0_leaveCore (s : State) (g pa n : Nat) :
    ∃ cs, (s.leaveCore g).fillL0 g pa n = { s with cores := cs } := by
  rw [fillL0_only, leaveCore_only]
  exact ⟨_, rfl⟩

/-- The numbers of a run of x registers are the same once the thread has moved on. -/
theorem runNums_advance {s u : State} {t n : Nat} {d : Field} (hd : d.toNat + n ≤ 96)
    (hgroups : u.groups = (s.advance t).groups) (hiss : u.iss = s.iss) :
    u.runNums u.iss.g t d.toNat n = s.runNums s.iss.g t d.toNat n := by
  have hxwb : (u.thread s.iss.g t).xwb = (s.thread s.iss.g t).xwb := by
    rw [thread, group_congr hgroups]
    exact thread_advance_part Thread.xwb (fun _ _ _ => rfl) s t _ t
  rw [runNums_x hd, runNums_x hd, hiss]
  unfold xnum
  rw [hxwb]

end State

/-- The state w in which a load that is served at once writes its registers: thread t has moved on from s, and memory,
L1s and blocks are as its translation left them in s1. -/
structure Landed (s s1 w : State) (t : Nat) : Prop where
  iss : w.iss = s.iss
  mem : w.mem = s1.mem
  l1s : w.l1s = s1.l1s
  blocks : w.blocks = s1.blocks
  k : w.cur.k = s.cur.k
  count : w.cur.threads.length = s.cur.threads.length
  pc : s.hasThread s.iss.g t = true → (w.th t).pc = s.iss.npc
  part : ∀ {α : Type} (p : Thread → α), (∀ h l, p { h with pendX := l } = p h) →
    (∀ h pc x, p { h with pc := pc, wait := x } = p h) → p (w.th t) = p (s.th t)

/-- A reply's registers are written in such a state, where the access before it changed cores alone. -/
theorem landed_landing {s s1 : State} {t : Nat} {q : LoadReq} (cs : List (Nat × Core)) (ht : q.t = t)
    (hgroups : s1.groups = (s.advance t).groups) (hiss : s1.iss = s.iss) :
    Landed s s1 (State.landing { s1 with cores := cs } q) t := by
  have hth : ∀ {α : Type} (p : Thread → α), (∀ h l, p { h with pendX := l } = p h) →
      p ((State.landing { s1 with cores := cs } q).th t) = p ((s.advance t).th t) := by
    intro α p hp
    have hth : State.th { s1 with cores := cs } t = (s.advance t).th t :=
      State.th_congr hgroups (hiss.trans (State.advance_iss s t).symm) t
    rw [← hth, State.th, State.landing_iss]
    exact State.clearPend_thread_part p hp ..
  have hgroup : ∀ {α : Type} (p : Group → α), (∀ G f, p { G with threads := G.threads.modify t f } = p G) →
      (∀ G l, p { G with pendK := l } = p G) → p (State.landing { s1 with cores := cs } q).cur = p s.cur := by
    intro α p hthread hpend
    have hcur : State.cur { s1 with cores := cs } = (s.advance t).group s.iss.g := by
      rw [← hiss]; exact State.group_congr hgroups _
    have hadvance : p ((s.advance t).group s.iss.g) = p s.cur :=
      State.group_modGroup_part p (fun G => hthread G _) s _ _
    rw [← hadvance, ← hcur, State.cur, State.landing_iss]
    subst ht
    exact State.clearPend_group_part p hthread hpend ..
  exact {
    iss := State.landing_iss.trans hiss
    mem := State.landing_mem
    l1s := State.landing_l1s
    blocks := State.landing_blocks
    k := hgroup Group.k (fun _ _ => rfl) fun _ _ => rfl
    count := hgroup (fun G => G.threads.length) (fun _ _ => List.length_modify ..) fun _ _ => rfl
    pc := fun h => (hth Thread.pc fun _ _ => rfl).trans (State.th_advance_pc h)
    part := fun p hpend hmove => (hth p hpend).trans (by
      rw [State.th, State.advance_iss]
      exact State.thread_advance_part p hmove ..) }

/-- A load that the core's L0 or its L1 serves has its value at once, and writes it as one run of registers. -/
theorem execLd_served {s s1 : State} {t va pa mt : Nat} {mo : MemOrd} {d a : Field} {off : BitVec 34} {sz : Size}
    {bs : List Byte} (hal : Alone (.ld mo d a off sz) s t) (hat : s.globalAddr t a sz.bytes off = va)
    (hd : d.toNat + sz.regs ≤ 96) (hva : va % sz.bytes = 0)
    (htr : (s.advance t).translate s.iss.g t va 0 = .ok s1 pa mt)
    (hacq : s1.acquiring s.iss.g t = false) (hclear : s1.Clear s.iss.g s.cur.kind t pa mt sz.bytes)
    (hbytes : s1.l0Bytes s.iss.g pa sz.bytes = some bs ∨ s1.l0Bytes s.iss.g pa sz.bytes = none
      ∧ (s1.leaveCore s.iss.g).portBusy s.cur.kind.port pa = false ∧ s1.l1Has s.cur.kind.cluster pa sz.bytes = true
      ∧ s1.l1Marked s.cur.kind.cluster pa sz.bytes = false ∧ s1.l1Bytes s.cur.kind.cluster pa sz.bytes = bs) :
    ∃ w, Landed s s1 w t ∧ exec (.ld mo d a off sz) s =
      .next ((w.setRun t d (State.loadWords sz.bytes (Size.isSigned sz) bs)).settle t) := by
  obtain ⟨hg, hkind, -⟩ := State.translate_issuing htr
  obtain ⟨hgroups, hiss, -⟩ := State.translate_groups htr
  rw [State.advance_iss] at hiss
  have haligned : (va : Int) % sz.bytes = 0 := by exact_mod_cast hva
  let q := s1.loadReq s.cur.kind t va pa sz.bytes (Size.isSigned sz) (mo.ord = .acq) (loadDst s t d sz)
  have hdone : ∀ cs : List (Nat × Core), s1.loadAt t va pa mt sz.bytes (Size.isSigned sz) (mo.ord = .acq)
      (loadDst s t d sz) = .ok (State.finishLoad { s1 with cores := cs } q bs) →
      ∃ w, Landed s s1 w t ∧ exec (.ld mo d a off sz) s =
        .next ((w.setRun t d (State.loadWords sz.bytes (Size.isSigned sz) bs)).settle t) := by
    intro cs hload
    have hrun : State.finishLoad { s1 with cores := cs } q bs = _ :=
      State.finishLoad_eq_setRun rfl rfl rfl (State.runNums_advance hd hgroups hiss).symm (Size.regs_pos sz) hd
        (loadWords_length ..)
    refine ⟨State.landing { s1 with cores := cs } q, landed_landing cs rfl hgroups hiss, ?_⟩
    subst hat
    exact runLanes_alone_ok hal ((loadGlobal_at haligned htr).trans (hload.trans (congrArg LaneRes.ok hrun)))
  rcases hbytes with hl0 | ⟨hl0, hport, hhas, hmark, rfl⟩
  · exact hdone s1.cores (State.loadAt_l0 hg hkind hacq hclear hl0)
  · obtain ⟨cs, hcores⟩ := State.fillL0_leaveCore s1 s.iss.g pa sz.bytes
    have hload := State.loadAt_l1 (t := t) (va := va) (sext := Size.isSigned sz) (acq := mo.ord = .acq)
      (dst := loadDst s t d sz) hg hkind hacq hclear hport hl0 hhas hmark
    rw [hcores] at hload
    exact hdone cs hload

section
variable {s s1 w : State} {t : Nat} {d : Field} {vs : List Word} (hland : Landed s s1 w t)
include hland

/-- Registers outside the run are as they were. -/
theorem Landed.sameOutside {n : Nat} {u : State} (frame : RunFrame d n [t] w u) :
    SameOutside (s.xnum s.iss.g t d.toNat) n (s.th t).x (u.th t).x := by
  have houtside := (frame.threads t).outside
  rw [hland.part Thread.x (fun _ _ => rfl) fun _ _ _ => rfl, hland.part Thread.xwb (fun _ _ => rfl) fun _ _ _ => rfl]
    at houtside
  exact houtside

variable (hthere : s.hasThread s.iss.g t = true)
include hthere

/-- The registers of the run read as they were written, where the allocation has room for them. -/
theorem Landed.regAt (hd : d.toNat + vs.length ≤ 96)
    (hroom : s.xnum s.iss.g t d.toNat + vs.length ≤ (s.th t).x.length) :
    ∀ i < vs.length, ((w.setRun t d vs).settle t).regAt t d i = vs.getD i 0 := by
  have hx := hland.part Thread.x (fun _ _ => rfl) fun _ _ _ => rfl
  have hxwb := hland.part Thread.xwb (fun _ _ => rfl) fun _ _ _ => rfl
  have hnum : w.xnum w.iss.g t d.toNat = s.xnum s.iss.g t d.toNat :=
    congrArg (fun b : BitVec 8 => b.toNat + d.toNat) hxwb
  exact fun i hi => State.regAt_setRun_settle hd (hland.count ▸ (hasThread_cur s t).1 hthere)
    (by rw [hnum, hx]; exact hroom) hi

/-- The thread goes on at NPC. -/
theorem Landed.pc_setRun (d : Field) (vs : List Word) : (((w.setRun t d vs).settle t).th t).pc = s.iss.npc :=
  calc (((w.setRun t d vs).settle t).th t).pc
      = ((w.setRun t d vs).th t).pc := State.th_settle_part Thread.pc (fun _ _ => rfl) ..
    _ = (w.th t).pc := congrArg Prod.fst (course_setRun w t d vs t)
    _ = s.iss.npc := hland.pc hthere

end

/-- The registers that hold a load's words hold its value, extended below four bytes (R153, R217). -/
theorem registers_of_loadWords {u : State} {t : Nat} {d : Field} {sz : Size} {bs : List Byte}
    (hlen : bs.length = sz.bytes)
    (hread : ∀ i < (State.loadWords sz.bytes (Size.isSigned sz) bs).length,
      u.regAt t d i = (State.loadWords sz.bytes (Size.isSigned sz) bs).getD i 0) :
    (sz.bytes = 4 → (u.reg t d).toNat = ofBytes bs) ∧ (sz.bytes = 8 → (u.pair t d).toNat = ofBytes bs)
      ∧ (sz.bytes < 4 → Size.isSigned sz = false → (u.reg t d).toNat = ofBytes bs)
      ∧ (sz.bytes < 4 → Size.isSigned sz = true → (u.reg t d).toInt = extOf true (8 * sz.bytes) (ofBytes bs)) := by
  have hone : ∀ {x}, State.loadWords sz.bytes (Size.isSigned sz) bs = [x] → u.reg t d = x := fun hvs =>
    (hread 0 (by rw [hvs]; exact Nat.one_pos)).trans (by rw [hvs]; rfl)
  refine ⟨fun h4 => ?word, fun h8 => ?pair, fun hsize hsigned => ?narrow, fun hsize hsigned => ?signed⟩
  case word =>
    obtain ⟨x, hvs, hx⟩ := loadWords_word (sext := Size.isSigned sz) (hlen.trans h4)
    rw [hone (h4 ▸ hvs), hx]
  case pair =>
    obtain ⟨lo, hi, hvs, hx⟩ := loadWords_pair (sext := Size.isSigned sz) (hlen.trans h8)
    rw [h8, hvs] at hread
    have hlo : u.reg t d = lo := hread 0 Nat.two_pos
    have hhi : u.regAt t d 1 = hi := hread 1 Nat.one_lt_two
    rw [State.pair, hlo, hhi, hx]
  case narrow =>
    obtain ⟨x, hvs, hx⟩ := loadWords_narrow hlen hsize
    rw [hone (hsigned ▸ hvs), hx]
  case signed =>
    obtain ⟨x, hvs, hx⟩ := loadWords_signed hlen (Size.bytes_narrow hsize)
    rw [hone (hsigned ▸ hvs), hx]

/-- Settles O23: the load is one run of registers written in the state that its translation left, but for its thread's
progress and its core. -/
theorem loadedValue : Obligations.LoadedValue := by
  intro s s1 t mo d a off sz pa mt bs k c size va v hal hwhole hd hva htr hacq hmt hremote hatom hldt hearlier hbytes
  have hclear : s1.Clear s.iss.g s.cur.kind t pa mt sz.bytes :=
    ⟨not_or.2 ⟨hmt, Bool.eq_false_iff.1 hremote⟩, hatom, hldt, hearlier⟩
  obtain ⟨w, hland, hdone⟩ := execLd_served hal rfl hd hva htr hacq hclear hbytes
  have hlen : bs.length = sz.bytes := hbytes.elim l0Bytes_length fun ⟨_, _, _, _, h⟩ => h ▸ l1Bytes_length ..
  have hwords := loadWords_length sz bs (Size.isSigned sz)
  have hpos := Size.regs_pos sz
  simp only [State.wholeThread, Bool.and_eq_true, decide_eq_true_eq] at hwhole
  obtain ⟨⟨⟨⟨hthere, hx⟩, -⟩, -⟩, -⟩ := hwhole
  have hroom : s.xnum s.iss.g t d.toNat + sz.regs ≤ (s.th t).x.length :=
    hx ▸ room_of_laneCheck hal.2 (List.mem_cons_self ..) (isK_of_room hpos hd)
  have hread := hland.regAt hthere (hwords.symm ▸ hd) (hwords.symm ▸ hroom)
  have hpc := hland.pc_setRun hthere d (State.loadWords sz.bytes (Size.isSigned sz) bs)
  have frame : RunFrame d sz.regs [t] w ((w.setRun t d (State.loadWords sz.bytes (Size.isSigned sz) bs)).settle t) :=
    (RunFrame.setRun (List.mem_singleton_self t) (runOk_of_room hpos hd) hwords.le w).trans
      (.settle (List.mem_singleton_self t) _)
  obtain ⟨hword, hpair, hnarrow, hsigned⟩ := registers_of_loadWords hlen hread
  generalize (w.setRun t d (State.loadWords sz.bytes (Size.isSigned sz) bs)).settle t = s'
    at hdone hpc frame hword hpair hnarrow hsigned
  have hrest := (frame.threads t).rest
  obtain ⟨-, -, hblocks, -⟩ := State.translate_groups htr
  refine ⟨s', hdone, hword, hpair, hnarrow, hsigned, hland.sameOutside frame, ?_, ?_, ?_, hpc,
    (frame.kept (isK_of_room hpos hd)).trans hland.k, (congrArg State.mem frame.only).trans hland.mem,
    (congrArg State.l1s frame.only).trans hland.l1s, ?_⟩
  · exact (congrArg Thread.p hrest).trans (hland.part Thread.p (fun _ _ => rfl) fun _ _ _ => rfl)
  · exact (congrArg Thread.c hrest).trans (hland.part Thread.c (fun _ _ => rfl) fun _ _ _ => rfl)
  · exact (congrArg Thread.status hrest).trans (hland.part Thread.status (fun _ _ => rfl) fun _ _ _ => rfl)
  · have hw : s'.blocks = s1.blocks := (congrArg State.blocks frame.only).trans hland.blocks
    rw [hw, hblocks, State.advance_blocks]

end Sys2Proof.Machine

/-! SUPPORT and PROOFS. The values of the integer group, the immediate forms, constants and LUT3 (R187 to R192). -/

namespace Sys2Proof.Machine

/-- Settles O1: each row is one Put of the value that the row gives. -/
theorem integerGroupValues : Obligations.IntegerGroupValues := by
  intro s ty d a b c put x y n m w
  refine ⟨?add, ?sub, ?mul, ?mulhi, ?mad, ?div, ?rem, ?min, ?max, ?abs, ?neg, ?and, ?or, ?xor, ?andn, ?shl, ?shr, ?sar,
    ?popc, ?clz, ?ctz, ?brev, ?mov, ?sel⟩
  all_goals exact putLanes_done

/-- Settles O2: the funnel shifts write one register, the bit fields are one Put, SEXT, ZEXT and LEA write what their
type has registers for, and CMP one predicate. -/
theorem integerFieldValues : Obligations.IntegerFieldValues := by
  intro s ty d a b cc c w both by_ pos len field low wide
  refine ⟨regLanes_done, regLanes_done, putLanes_done, putLanes_done, ?sext, ?zext, ?lea, predLanes_done⟩
  all_goals exact fun h => runLanes_done h fun _ _ _ => rfl

/-- Settles O3: each form writes one register, and CMPI one predicate. -/
theorem immediateGroupValues : Obligations.ImmediateGroupValues := by
  intro s ty cc d a i n c put
  refine ⟨?addi, ?andi, ?ori, ?xori, ?shli, ?shri, ?sari, predLanes_done⟩
  all_goals exact regLanes_done

/-! ## A word given bit by bit -/

/-- The powers of 2 below n that a test selects sum to a number below 2^n whose bits they are. -/
theorem sum_pow_bits (p : Nat → Bool) (n j : Nat) :
    ((upTo n).map fun i => if p i then 2 ^ i else 0).sum < 2 ^ n
      ∧ ((upTo n).map fun i => if p i then 2 ^ i else 0).sum.testBit j = (decide (j < n) && p j) := by
  induction n with
  | zero => simp [upTo]
  | succ n ih =>
    obtain ⟨hlt, hbit⟩ := ih
    have hsucc : ((upTo (n + 1)).map fun i => if p i then 2 ^ i else 0).sum =
        2 ^ n * (p n).toNat + ((upTo n).map fun i => if p i then 2 ^ i else 0).sum := by
      simp only [upTo, List.range_succ, List.map_append, List.sum_append, List.map_singleton, List.sum_singleton]
      cases p n <;> simp [Nat.add_comm]
    rw [hsucc]
    constructor
    · cases p n <;> simp [Nat.pow_succ] <;> omega
    · rw [Nat.testBit_two_pow_mul_add _ hlt, hbit, Nat.testBit_bool_toNat]
      rcases Nat.lt_trichotomy j n with h | rfl | h
      · simp [h, Nat.lt_succ_of_lt h]
      · simp
      · simp [Nat.not_lt_of_gt h, Nat.sub_ne_zero_of_lt h, Nat.not_lt.2 (Nat.succ_le_of_lt h)]

/-- Each bit of LUT3 is the table's entry for the bits of the old D, A and B (R192). -/
theorem getLsbD_lutWord (table : BitVec 8) (d a b : Word) {i : Nat} (hi : i < 32) :
    (lutWord table d a b).getLsbD i = table.getLsbD ((if d.getLsbD i then 4 else 0) + (if a.getLsbD i then 2 else 0)
      + (if b.getLsbD i then 1 else 0)) := by
  rw [lutWord, BitVec.getLsbD_ofNat, (sum_pow_bits _ 32 i).2]
  simp [hi]

/-- Settles O4: LUT3 writes a word that is given bit by bit. -/
theorem constantAndTableValues : Obligations.ConstantAndTableValues := by
  intro s d a b i h off table
  exact ⟨regLanes_done, regLanes_done, fun hp => runLanes_done hp fun _ _ _ => rfl,
    fun hp => ⟨fun t => lutWord table (s.reg t d) (s.reg t a) (s.reg t b), regLanes_done hp,
      fun _ _ hi => getLsbD_lutWord table _ _ _ hi⟩⟩

end Sys2Proof.Machine

/-! SUPPORT and PROOFS. CALL, CALLR, RET and YIELD of a lone thread (R193, R194, R196). -/

namespace Sys2Proof.Machine

/-! ## The push of CALL and CALLR -/

section
variable {s s1 s2 : State} {t pa mt : Nat} {target : DWord} {ti : TrapInfo}

theorem callTo_misaligned (target : DWord) (hodd : (s.ptr t 7 - 8).toNat % 8 ≠ 0) :
    callTo target s (s.advance t) t = .trap { cause := cMISALIGN, addr := (s.ptr t 7 - 8).toNat } := if_pos hodd

variable (heven : (s.ptr t 7 - 8).toNat % 8 = 0)
include heven

theorem callTo_fault (hpush : (s.advance t).translate s.iss.g t (s.ptr t 7 - 8).toNat 1 = .fault ti) :
    callTo target s (s.advance t) t = .trap ti := by
  simp only [callTo, heven, ne_eq, not_true, if_false, State.advance_iss, hpush, withPage]

theorem callTo_pushed (hpush : (s.advance t).translate s.iss.g t (s.ptr t 7 - 8).toNat 1 = .ok s1 pa mt)
    (hstore : s1.storeAt t pa mt (toBytes 8 s1.iss.npc.toNat) {} (fencedOn s t) = .ok s2) :
    callTo target s (s.advance t) t = .ok ((s2.setPtr t 7 (s.ptr t 7 - 8)).setPc t target) := by
  simp only [callTo, heven, ne_eq, not_true, if_false, State.advance_iss, hpush, withPage, hstore]

end

/-- Settles O8: both forms are `callTo`, whose three ends are the clauses. -/
theorem callPushesAndJumps : Obligations.CallPushesAndJumps := by
  intro s s1 s2 t off a pa mt ti sp push pushed
  exact ⟨fun hal heven hpush hstore => runLanes_alone_ok hal (callTo_pushed heven hpush hstore),
    fun hal heven hpush hstore => runLanes_alone_ok hal (callTo_pushed heven hpush hstore),
    fun hal hodd => runLanes_alone_trap hal (callTo_misaligned _ hodd),
    fun hal hodd => runLanes_alone_trap hal (callTo_misaligned _ hodd),
    fun hal heven hpush => runLanes_alone_trap hal (callTo_fault heven hpush),
    fun hal heven hpush => runLanes_alone_trap hal (callTo_fault heven hpush)⟩

/-! ## The pop of RET -/

namespace State

/-- The request of a RET's pop at its translated address (R194). -/
def popReq (s : State) (t va pa : Nat) : LoadReq := { s.request t va pa 8 [] with ret := true }

/-- A thread to which a RET's value has come. -/
def returned (bs : List Byte) (h : Thread) : Thread :=
  { h with pc := BitVec.ofNat 64 (ofBytes bs), p := h.p.modify 7 (· + 8), wait := none }

/-- The value of a RET changes its thread alone, and the loads under way. -/
theorem finishLoad_ret {s : State} {q : LoadReq} (h : q.ret = true) (bs : List Byte) :
    s.finishLoad q bs = { s with loads := s.loads.filter fun x => x.id ≠ q.id }.modThread q.g q.t (returned bs) :=
  if_pos h

/-- The thread of a RET to which its value has come. -/
theorem thread_finishLoad_ret {s : State} {q : LoadReq} (h : q.ret = true) (hthere : s.hasThread q.g q.t = true)
    (bs : List Byte) : (s.finishLoad q bs).thread q.g q.t = returned bs (s.thread q.g q.t) := by
  rw [finishLoad_ret h]
  exact thread_modThread_self (s := { s with loads := s.loads.filter fun x => x.id ≠ q.id }) (hasThread_lt hthere) _

/-! The load of a RET on a cached page: served from the L0 or the L1, or asked for. -/

section
variable {s : State} {g t va pa mt : Nat} {k : GroupKind} (hg : s.iss.g = g) (hk : (s.group g).kind = k)
  (hacq : s.acquiring g t = false) (hclear : s.Clear g k t pa mt 8)
include hg hk hacq hclear

theorem loadAt_ret_l0 {bs : List Byte} (hl0 : s.l0Bytes g pa 8 = some bs) :
    s.loadAt t va pa mt 8 false false [] true = .ok (s.finishLoad (s.popReq t va pa) bs) := by
  obtain ⟨hcached, hatom, hldt, hearlier⟩ := hclear
  subst hg hk
  have hdone := isDone_remote 8 (Bool.eq_false_iff.2 fun h => hcached (.inr h))
  simp only [loadAt, hacq, hcached, hatom, hldt, hearlier, hl0, hdone, Bool.false_eq_true, if_false, Bool.or_eq_true,
    Bool.or_self, decide_eq_true_eq]
  rfl

variable (hport : (s.leaveCore g).portBusy k.port pa = false) (hl0 : s.l0Bytes g pa 8 = none)
include hport hl0

theorem loadAt_ret_l1 (hhas : s.l1Has k.cluster pa 8 = true) (hmark : s.l1Marked k.cluster pa 8 = false) :
    s.loadAt t va pa mt 8 false false [] true =
      .ok (((s.leaveCore g).fillL0 g pa 8).finishLoad (s.popReq t va pa) (s.l1Bytes k.cluster pa 8)) := by
  obtain ⟨hcached, hatom, hldt, hearlier⟩ := hclear
  subst hg hk
  have hdone := isDone_remote 8 (Bool.eq_false_iff.2 fun h => hcached (.inr h))
  simp only [loadAt, hacq, hcached, hatom, hldt, hearlier, hl0, hdone, hport, leaveCore_l1Has, hhas, leaveCore_l1Marked,
    hmark, leaveCore_l1Bytes, Bool.false_eq_true, if_false, if_true, Bool.or_eq_true, Bool.or_self, decide_eq_true_eq]
  rfl

theorem loadAt_ret_gets (hhas : s.l1Has k.cluster pa 8 = false) :
    s.loadAt t va pa mt 8 false false [] true =
      .wait (((s.leaveCore g).ask (s.popReq t va pa)).sendGets k.cluster pa 8 (s.group g).rcb) .reply := by
  obtain ⟨hcached, hatom, hldt, hearlier⟩ := hclear
  subst hg hk
  have hdone := isDone_remote 8 (Bool.eq_false_iff.2 fun h => hcached (.inr h))
  simp only [loadAt, hacq, hcached, hatom, hldt, hearlier, hl0, hdone, hport, leaveCore_l1Has, hhas, loadAt.done,
    Bool.false_eq_true, if_false, if_true, Bool.or_eq_true, Bool.or_self, decide_eq_true_eq]
  rfl

end

/-- A thread of the issuing group that is there, changed. -/
theorem th_modTh_self {s : State} {t : Nat} (h : t < s.cur.threads.length) (f : Thread → Thread) :
    (s.modTh t f).th t = f (s.th t) := by rw [th_modTh, if_pos ⟨rfl, h⟩]

theorem threads_modTh (s : State) (t : Nat) (f : Thread → Thread) :
    (s.modTh t f).cur.threads.length = s.cur.threads.length := by rw [cur_modTh]; exact List.length_modify ..

theorem th_settle_self {s : State} {t : Nat} (h : t < s.cur.threads.length) :
    (s.settle t).th t = { s.th t with undo := none } := th_modTh_self (s := s.dropFaults t) h _

/-- The thread after a RET whose value came at once, in a state whose groups are those in which the thread had just
moved on. -/
theorem th_popped {s u : State} {t : Nat} {q : LoadReq} (hthere : s.hasThread s.iss.g t = true)
    (hgroups : u.groups = (s.advance t).groups) (hiss : u.iss = s.iss) (hret : q.ret = true) (hg : q.g = s.iss.g)
    (ht : q.t = t) (bs : List Byte) :
    ((u.finishLoad q bs).settle t).th t = { returned bs (s.th t) with undo := none } := by
  have hl := (hasThread_cur s t).1 hthere
  let v : State := { u with loads := u.loads.filter fun x => x.id ≠ q.id }
  have hfin : u.finishLoad q bs = v.modTh t (returned bs) := by
    rw [finishLoad_ret hret, hg, ht, ← hiss]
    rfl
  have hv : v.th t = (s.advance t).th t := th_congr hgroups (hiss.trans (advance_iss s t).symm) t
  have hlv : t < v.cur.threads.length := by
    have hcur : v.cur = (s.advance t).cur := by
      rw [cur, cur, advance_iss, ← hiss]
      exact group_congr hgroups _
    rwa [hcur, advance, threads_modTh]
  rw [hfin, th_settle_self (by rwa [threads_modTh]), th_modTh_self hlv, hv, advance, th_modTh_self hl]
  rfl

end State

/-- RET of one thread: the check of P7, and the load (R194). -/
def popReturn (s0 s : State) (t : Nat) : LaneRes :=
  if (s0.ptr t 7).toNat % 8 ≠ 0 then .trap { cause := cMISALIGN, addr := (s0.ptr t 7).toNat }
  else withPage (s.translate s.iss.g t (s0.ptr t 7).toNat 0) fun s pa mt =>
    s.loadAt t (s0.ptr t 7).toNat pa mt 8 false false [] true

/-- What RET executes. -/
theorem exec_ret (s : State) : exec .ret s = runLanes .ret popReturn s := rfl

section
variable {s : State} {t : Nat}

theorem popReturn_misaligned (hodd : (s.ptr t 7).toNat % 8 ≠ 0) :
    popReturn s (s.advance t) t = .trap { cause := cMISALIGN, addr := (s.ptr t 7).toNat } := if_pos hodd

variable (heven : (s.ptr t 7).toNat % 8 = 0)
include heven

theorem popReturn_fault {ti : TrapInfo} (hpop : (s.advance t).translate s.iss.g t (s.ptr t 7).toNat 0 = .fault ti) :
    popReturn s (s.advance t) t = .trap ti := by
  simp only [popReturn, heven, ne_eq, not_true, if_false, State.advance_iss, hpop, withPage]

theorem popReturn_page {s1 : State} {pa mt : Nat}
    (hpop : (s.advance t).translate s.iss.g t (s.ptr t 7).toNat 0 = .ok s1 pa mt) :
    popReturn s (s.advance t) t = s1.loadAt t (s.ptr t 7).toNat pa mt 8 false false [] true := by
  simp only [popReturn, heven, ne_eq, not_true, if_false, State.advance_iss, hpop, withPage]

end

/-- Pointer n of a thread to which a RET's value has come: P7 has moved up by 8, and the others are as before. -/
theorem p_returned {h : Thread} (hp : h.p.length = 8) (bs : List Byte) :
    (State.returned bs h).p.getD 7 0 = h.p.getD 7 0 + 8
      ∧ ∀ n, n < 7 → (State.returned bs h).p.getD n 0 = h.p.getD n 0 :=
  ⟨State.getD_modify_self (by rw [hp]; decide) .., fun _ hn => State.getD_modify_ne (Nat.ne_of_lt hn) ..⟩

/-- Settles O9: the load of a RET has the outcomes of `State.loadAt`; a value that comes, at once or later, is one
change of its thread. -/
theorem returnPopsAndJumps : Obligations.ReturnPopsAndJumps := by
  intro s s1 t pa mt bs r ti g sp k c pop q pops open_ returns
  have hclear (hpops : pops) : s1.iss.g = g ∧ (s1.group g).kind = k ∧ (s1.group g).rcb = s.cur.rcb
      ∧ s1.acquiring g t = false ∧ s1.Clear g k t pa mt 8 := by
    obtain ⟨-, -, -, hpop, hmt, hremote, hacq, hatom, hldt, hearlier⟩ := hpops
    obtain ⟨hg, hk, hrcb⟩ := State.translate_issuing hpop
    exact ⟨hg, hk, hrcb, hacq, not_or.2 ⟨hmt, Bool.eq_false_iff.1 hremote⟩, hatom, hldt, hearlier⟩
  -- the load may have changed cores before its value comes
  have hreturns (hpops : pops) (cs : List (Nat × Core)) (bs : List Byte)
      (hload : s1.loadAt t sp.toNat pa mt 8 false false [] true =
        .ok (State.finishLoad { s1 with cores := cs } (s1.popReq t sp.toNat pa) bs)) : returns bs := by
    obtain ⟨hal, hwhole, heven, hpop, -⟩ := hpops
    obtain ⟨hgroups, hiss, -⟩ := State.translate_groups hpop
    rw [State.advance_iss] at hiss
    simp only [State.wholeThread, Bool.and_eq_true, decide_eq_true_eq] at hwhole
    obtain ⟨⟨⟨⟨hthere, -⟩, -⟩, hp⟩, -⟩ := hwhole
    have hth := State.th_popped (u := { s1 with cores := cs }) (q := s1.popReq t sp.toNat pa) hthere hgroups hiss rfl
      (congrArg Issue.g hiss) rfl bs
    obtain ⟨hp7, hpn⟩ := p_returned hp bs
    refine ⟨_, (exec_ret s).trans (runLanes_alone_ok hal ((popReturn_page heven hpop).trans hload)), ?_⟩
    unfold State.ptr
    rw [hth]
    exact ⟨rfl, hp7, rfl, rfl, rfl, hpn⟩
  refine ⟨fun hpops hl0 => ?l0, fun hpops hopen hl0 hhas hmark => ?l1, fun hpops hopen hl0 hhas => ?asked,
    fun hret hthere hp => ?reply,
    fun hal hodd => (exec_ret s).trans (runLanes_alone_trap hal (popReturn_misaligned hodd)),
    fun hal heven hpop => (exec_ret s).trans (runLanes_alone_trap hal (popReturn_fault heven hpop))⟩
  case l0 =>
    obtain ⟨hg, hk, -, hacq, hc⟩ := hclear hpops
    exact hreturns hpops s1.cores bs (State.loadAt_ret_l0 hg hk hacq hc hl0)
  case l1 =>
    obtain ⟨hg, hk, -, hacq, hc⟩ := hclear hpops
    obtain ⟨cs, hcores⟩ := State.fillL0_leaveCore s1 g pa 8
    exact hreturns hpops cs _ (hcores ▸ State.loadAt_ret_l1 hg hk hacq hc hopen hl0 hhas hmark)
  case asked =>
    obtain ⟨hg, hk, hrcb, hacq, hc⟩ := hclear hpops
    obtain ⟨hal, -, heven, hpop, -⟩ := hpops
    refine (exec_ret s).trans (runLanes_alone_wait hal ((popReturn_page heven hpop).trans ?_))
    rw [State.loadAt_ret_gets hg hk hacq hc hopen hl0 hhas, hrcb]
    rfl
  case reply =>
    intro h
    have hh : h = State.returned bs (s.thread r.g r.t) := State.thread_finishLoad_ret hret hthere bs
    rw [hh]
    exact ⟨rfl, (p_returned hp bs).1, rfl⟩

/-! ## YIELD -/

@[simp] theorem State.advance_part (s : State) (t k : Nat) : (s.advance t).part k = s.part k := by
  rw [advance_only]; rfl

/-- Settles O11: the kind of the group, and the ready queue of a SIMT group's partition, choose the clause. -/
theorem yieldStepsAside : Obligations.YieldStepsAside := by
  intro s t hal
  have hlead : t = s.iss.ts.headD t := by rw [hal.1]; rfl
  have hkind {k : GroupKind} (hk : s.cur.kind = k) : ((s.advance t).group s.iss.g).kind = k :=
    (State.advance_kind ..).trans hk
  refine ⟨fun c x hk => runLanes_alone_ok hal ?swarm, fun e p hk hready => runLanes_alone_ok hal ?ready,
    fun e p hk hready => runLanes_alone_ok hal ?empty⟩
  case swarm => simp only [State.advance_iss, hkind hk]
  case ready =>
    simp only [State.advance_iss, hkind hk, State.advance_part]
    exact if_pos ⟨hlead, hready⟩
  case empty =>
    simp only [State.advance_iss, hkind hk, State.advance_part]
    exact if_neg fun h => h.2 hready

end Sys2Proof.Machine

/-! SUPPORT and PROOFS. Trap entry of SVC, BKPT and words that are no instruction, and ERET (R40, R197, R198, R211,
R343, R391). -/

namespace Sys2Proof.Machine

/-! ## What completion tests leave as it was (R39) -/

namespace Group

/-- A completion test leaves alone what is neither masks, arrivals and credits nor threads. -/
theorem complete_part {α : Type} (p : Group → α)
    (hp : ∀ (G : Group) ts a c, p { G with threads := ts, arrive := a, credit := c } = p G) (G : Group) (n : Nat) :
    p (G.complete n) = p G := by
  unfold complete
  dsimp only
  split
  · rfl
  · exact hp G ..

/-- A completion test changes nothing of a thread but its PC and its wait. -/
theorem complete_thread_part {α : Type} (p : Thread → α)
    (hp : ∀ (h : Thread) w pc, p { h with wait := w, pc := pc } = p h) (G : Group) (n t : Nat) :
    p ((G.complete n).threads.getD t default) = p (G.threads.getD t default)
      ∧ (G.complete n).threads.length = G.threads.length := by
  unfold complete
  dsimp only
  split
  · exact ⟨rfl, rfl⟩
  · refine ⟨?_, by simp [setCredits, setArrived, upTo]⟩
    by_cases ht : t < G.threads.length
    · simp only [setCredits, setArrived, upTo, List.getD_eq_getElem?_getD, List.getElem?_map, List.getElem?_range ht,
        Option.map_some, Option.getD_some]
      split
      · exact hp ..
      · rfl
    · simp [setCredits, setArrived, upTo, List.getD_eq_getElem?_getD, ht]

theorem completeAll_part {α : Type} (p : Group → α)
    (hp : ∀ (G : Group) ts a c, p { G with threads := ts, arrive := a, credit := c } = p G) (G : Group) :
    p G.completeAll = p G :=
  List.foldlRecOn (motive := fun H => p H = p G) (upTo 12) _ rfl fun H hH n _ => (complete_part p hp H n).trans hH

theorem completeAll_thread_part {α : Type} (p : Thread → α)
    (hp : ∀ (h : Thread) w pc, p { h with wait := w, pc := pc } = p h) (G : Group) (t : Nat) :
    p (G.completeAll.threads.getD t default) = p (G.threads.getD t default)
      ∧ G.completeAll.threads.length = G.threads.length :=
  List.foldlRecOn (motive := fun H : Group => p (H.threads.getD t default) = p (G.threads.getD t default)
    ∧ H.threads.length = G.threads.length) (upTo 12) _ ⟨rfl, rfl⟩ fun H ⟨hpart, hlen⟩ n _ =>
      have ⟨hpart', hlen'⟩ := complete_thread_part p hp H n t
      ⟨hpart'.trans hpart, hlen'.trans hlen⟩

end Group

namespace State

/-! ## A record written to a trap area leaves groups and what issues alone (R350, R351) -/

/-- Groups and what issues are the same. -/
def SameThreads (s s' : State) : Prop := s'.groups = s.groups ∧ s'.iss = s.iss

theorem SameThreads.trans {s s' s'' : State} (h : SameThreads s s') (h' : SameThreads s' s'') : SameThreads s s'' :=
  ⟨h'.1.trans h.1, h'.2.trans h.2⟩

theorem walkNow_sameThreads {s s' : State} {d table va acc pa mt : Nat} {user ldt : Bool}
    (h : s.walkNow d table va acc user ldt = .ok (s', pa, mt)) : SameThreads s s' := by
  unfold walkNow at h
  split at h
  · cases h
  split at h
  · cases h
  split at h
  · cases h
  split at h
  · cases h
  cases h
  rw [SameThreads, touch_only]
  exact ⟨rfl, rfl⟩

theorem readVirt_sameThreads {s s' : State} {d table va n : Nat} {user : Bool} {bs : List Byte}
    (h : s.readVirt d table va n user = .ok (s', bs)) : SameThreads s s' := by
  unfold readVirt at h
  split at h
  · cases h
  rename_i hwalk
  split at h
  · cases h
  cases h
  exact walkNow_sameThreads hwalk

theorem writePhys_sameThreads {s s' : State} {d pa : Nat} {bs : List Byte} (h : s.writePhys d pa bs = .ok s') :
    SameThreads s s' := by
  unfold writePhys at h
  split at h
  · cases h
  cases h
  exact ⟨rfl, rfl⟩

theorem writeVirt_sameThreads {s s' : State} {d table va : Nat} {user : Bool} {bs : List Byte}
    (h : s.writeVirt d table va bs user = .ok s') : SameThreads s s' := by
  unfold writeVirt at h
  split at h
  · cases h
  rename_i hwalk
  split at h
  · cases h
  rename_i hwrite
  cases h
  exact (walkNow_sameThreads hwalk).trans (writePhys_sameThreads hwrite)

theorem writeRecord_sameThreads {s s' : State} {d rcb : Nat} {bytes : List Byte}
    (h : s.writeRecord d rcb bytes = .ok s') : SameThreads s s' := by
  unfold writeRecord at h
  dsimp only at h
  split at h
  · cases h
  split at h
  · cases h
  rename_i hheader
  split at h
  · cases h
  split at h
  · cases h
  split at h
  · cases h
  rename_i hbytes
  split at h
  · cases h
  rename_i hwr
  split at h
  · cases h
  rename_i htotal
  cases h
  exact (readVirt_sameThreads hheader).trans ((writeVirt_sameThreads hbytes).trans
    ((writeVirt_sameThreads hwr).trans (writeVirt_sameThreads htotal)))

/-- A part of every region that the records that wait for its area are no part of. -/
theorem noteWritten_region_part {α : Type} (p : Region → α) (hp : ∀ (r : Region) l, p { r with full := l } = p r)
    (s : State) (rcb : Nat) (head : RecHead) (q : Nat) : p ((s.noteWritten rcb head).region q) = p (s.region q) := by
  unfold noteWritten
  split
  · rfl
  · rename_i r hr
    split
    · rfl
    · unfold modRegion
      rw [hr]
      by_cases hq : q = rcb
      · subst hq
        simp only [region, lgetD, lget_lput_self, hr, Option.getD_some, hp]
      · simp only [region, lgetD, lget_lput_ne hq]

/-- Each field is supplied by the same region in states whose regions have the same parents and inherit bits (R45). -/
theorem supplier_congr {s s' : State} (hparent : ∀ q, (s'.region q).parent = (s.region q).parent)
    (hovr : ∀ q, (s'.region q).ovr = (s.region q).ovr) (r b : Nat) : s'.supplier r b = s.supplier r b := by
  have hpath : ∀ n r, s'.pathFrom n r = s.pathFrom n r := by
    intro n
    induction n with
    | zero => exact fun _ => rfl
    | succ n ih => intro r; simp only [pathFrom, hparent, ih]
  simp only [supplier, path, hpath, hparent, hovr]

/-- A region's handler is the same once its record is written. -/
theorem noteWritten_handler (s : State) (rcb : Nat) (head : RecHead) (r b : Nat) :
    ((s.noteWritten rcb head).resolved r b).handler = (s.resolved r b).handler := by
  unfold resolved
  rw [noteWritten_region_part Region.handler (fun _ _ => rfl),
    supplier_congr (noteWritten_region_part Region.parent (fun _ _ => rfl) s rcb head)
      (noteWritten_region_part Region.ovr (fun _ _ => rfl) s rcb head)]

theorem noteWritten_sameThreads (s : State) (rcb : Nat) (head : RecHead) : SameThreads s (s.noteWritten rcb head) := by
  unfold noteWritten
  split
  · exact ⟨rfl, rfl⟩
  split
  · exact ⟨rfl, rfl⟩
  rw [modRegion_only]
  exact ⟨rfl, rfl⟩

/-! ## Trap entry of one thread (R343, R393) -/

/-- A thread that enters a trap (R343, R393): the supervisor level of its handler, the report, and TRAPPC. -/
def entered (sup : Bool) (f : ReplyFail) (trapPc : DWord) (h : Thread) : Thread := { h with
  trapcause := BitVec.ofNat 32 f.info.cause
  trappc := trapPc
  trapaddr := BitVec.ofNat 64 f.info.addr
  trapaux := BitVec.ofNat 64 f.info.aux
  status := (h.status &&& 0xFFFFFEFC#32) ||| (if h.status.getLsbD 0 then 0x100#32 else 0#32)
    ||| (if sup then 1#32 else 0#32) ||| 2#32
  slot := .trapped
  wait := none
  undo := none
  p := match h.undo with
    | some (n, v) => h.p.set n v
    | none => h.p
  failed := h.failed.drop 1 }

/-- A thread that begins its handler. -/
def atHandler (handler : Nat) (h : Thread) : Thread :=
  { h with pc := BitVec.ofNat 64 handler, wait := none, held := none }

section
variable {s : State} {g t : Nat} {f : ReplyFail} {trapPc : DWord}

theorem enterTrap_iss : (s.enterTrap g t f trapPc).iss = s.iss := modGroup_iss ..

theorem enterTrap_group (hthere : s.hasThread g t = true) : (s.enterTrap g t f trapPc).group g =
    ({ s.group g with threads := (s.group g).threads.modify t (entered (s.suph (s.group g).rcb) f trapPc) }.unarrive
      t).completeAll := group_modGroup_present (hasThread_present hthere) _

/-- The thread that enters a trap, but for its PC and its wait, which the completion tests of its departure may change
in any thread (R40). -/
theorem enterTrap_thread_part (hthere : s.hasThread g t = true) {α : Type} (p : Thread → α)
    (hp : ∀ (h : Thread) w pc, p { h with wait := w, pc := pc } = p h) :
    p ((s.enterTrap g t f trapPc).thread g t) = p (entered (s.suph (s.group g).rcb) f trapPc (s.thread g t))
      ∧ t < ((s.enterTrap g t f trapPc).group g).threads.length := by
  have hl := hasThread_lt hthere
  rw [thread, enterTrap_group hthere]
  have ⟨hpart, hlen⟩ := Group.completeAll_thread_part p hp ({ s.group g with
    threads := (s.group g).threads.modify t (entered (s.suph (s.group g).rcb) f trapPc) }.unarrive t) t
  refine ⟨hpart.trans (congrArg p (getD_modify_self hl _ _)), ?_⟩
  rw [hlen]
  simpa [Group.unarrive] using hl

theorem enterTrap_group_part (hthere : s.hasThread g t = true) {α : Type} (p : Group → α)
    (hp : ∀ (G : Group) ts a c, p { G with threads := ts, arrive := a, credit := c } = p G) :
    p ((s.enterTrap g t f trapPc).group g) = p (s.group g) := by
  rw [enterTrap_group hthere, Group.completeAll_part p hp]
  exact hp (s.group g) _ _ (s.group g).credit

end

/-- A thread begins the handler that its region names. -/
theorem startHandler_begins {s : State} {g t handler : Nat} (f : ReplyFail)
    (hhandler : (s.resolved (s.group g).rcb 11).handler = handler) (h0 : handler ≠ 0)
    (ht : t < (s.group g).threads.length) :
    ∃ s', s.startHandler g t f = (s', []) ∧ s'.iss = s.iss ∧ s'.thread g t = atHandler handler (s.thread g t) := by
  refine ⟨(s.modThread g t fun h => { h with wait := none, held := none }).modThread g t fun h =>
    { h with pc := BitVec.ofNat 64 handler }, ?_, ?_, ?_⟩
  · unfold startHandler
    simp only [hhandler, h0, if_false]
  · rw [modThread_only, modThread_only]
  · rw [thread_modThread_self (by rw [group_modThread, List.length_modify]; exact ht), thread_modThread_self ht]
    rfl

/-- A thread whose record is written begins its handler (R343). -/
theorem recordTrap_written {s s1 : State} {g t handler : Nat} {f : ReplyFail}
    (hrec : s.writeRecord (s.group g).kind.die (s.group g).rcb
      (recordBytes f.at_ (s.trapHead g t f false) (trapTail f)) = .ok s1)
    (hhandler : (s1.resolved (s.group g).rcb 11).handler = handler) (h0 : handler ≠ 0)
    (ht : t < (s.group g).threads.length) :
    ∃ s', s.recordTrap g t f = (s', []) ∧ s'.iss = s.iss ∧ s'.thread g t = atHandler handler (s.thread g t) := by
  have hsame := (writeRecord_sameThreads hrec).trans
    (noteWritten_sameThreads s1 (s.group g).rcb (s.trapHead g t f false))
  have hgroup := group_congr hsame.1 g
  obtain ⟨s', hstart, hiss, hth⟩ := startHandler_begins f (by rw [hgroup, noteWritten_handler]; exact hhandler) h0
    (by rwa [hgroup])
  refine ⟨s', ?_, hiss.trans hsame.2, hth.trans ?_⟩
  · unfold recordTrap
    simp only [hrec]
    exact hstart
  · unfold thread
    rw [hgroup]

/-- A lone thread whose trap calls for no abort. -/
theorem trapLanes_one {s s' : State} {t : Nat} {ti : TrapInfo}
    (h : s.trapWith s.iss.g t ti s.iss.pc s.iss.words
      (if ti.cause = cSERVICE then s.iss.npc else s.iss.pc) = (s', [])) :
    s.trapLanes [(t, ti)] = s' := by
  simp only [trapLanes, trapAll, List.zipIdx_cons, List.zipIdx_nil, List.foldl_cons, List.foldl_nil, h, List.append_nil]
  rfl

/-- What a thread reports of a trap on the instruction that issues. -/
def trapReport (s : State) (t : Nat) (ti : TrapInfo) : ReplyFail :=
  { info := ti, pc := s.iss.pc.toNat, words := s.iss.words, status := (s.th t).status, at_ := s.cycle }

/-- A lone thread outside handlers and proofers that traps, whose record finds room, begins the handler that its region
names (R343). -/
theorem trapLanes_enters {s s1 : State} {t handler : Nat} {ti : TrapInfo} {trapPc : DWord}
    (hthere : s.hasThread s.iss.g t = true) (hproofer : s.cur.kind.isProofer = false)
    (hhnd : (s.th t).status.getLsbD 1 = false) (hpc : trapPc = if ti.cause = cSERVICE then s.iss.npc else s.iss.pc)
    (hrec : RecordWritten s s.iss.g t (s.trapReport t ti) trapPc s1)
    (hhandler : (s1.resolved s.cur.rcb 11).handler = handler) (h0 : handler ≠ 0) :
    (s.trapLanes [(t, ti)]).th t =
      atHandler handler (entered (s.suph s.cur.rcb) (s.trapReport t ti) trapPc (s.th t)) := by
  have hkind := enterTrap_group_part (f := s.trapReport t ti) (trapPc := trapPc) hthere Group.kind fun _ _ _ _ => rfl
  have hrcb := enterTrap_group_part (f := s.trapReport t ti) (trapPc := trapPc) hthere Group.rcb fun _ _ _ _ => rfl
  obtain ⟨hth, hl⟩ := enterTrap_thread_part (f := s.trapReport t ti) (trapPc := trapPc) hthere (atHandler handler)
    fun _ _ _ => rfl
  obtain ⟨s', htrap, hiss, hs'⟩ := recordTrap_written (f := s.trapReport t ti) (by rw [hkind, hrcb]; exact hrec)
    (by rw [hrcb]; exact hhandler) h0 hl
  have hone : s.trapLanes [(t, ti)] = s' := by
    refine trapLanes_one ?_
    rw [← hpc, trapWith]
    have hp : (s.group s.iss.g).kind.isProofer = false := hproofer
    have hh : (s.thread s.iss.g t).status.getLsbD 1 = false := hhnd
    simp only [hp, hh, Bool.false_eq_true, if_false]
    exact htrap
  rw [hone, th, hiss, enterTrap_iss, hs', hth]
  rfl

/-- STATUS at trap entry: HND rises, PSUP takes SUP, and SUP the level of the region's handlers (R211, R343). -/
theorem entered_status (sup : Bool) (f : ReplyFail) (trapPc : DWord) (h : Thread) :
    (entered sup f trapPc h).status.getLsbD 1 = true
      ∧ (entered sup f trapPc h).status.getLsbD 8 = h.status.getLsbD 0
      ∧ (entered sup f trapPc h).status.getLsbD 0 = sup := by
  unfold entered
  cases h.status.getLsbD 0 <;> cases sup <;> simp

end State

/-- Settles O12: each of the three is a trap of the lone thread, in the state as it was or without the faults of its
ended walks. -/
theorem trapEntryRegisters : Obligations.TrapEntryRegisters := by
  intro s s1 t code g h sup handler enters
  have henters {i : Instr} {cause aux : Nat} {trapPc : DWord} {u : State}
      (hexec : Alone i s t → exec i s = .next (u.trapLanes [(t, { cause := cause, aux := aux })]))
      (hu : u = if cause = 0x01 then s else s.dropFaults t)
      (hpc : trapPc = if cause = cSERVICE then s.iss.npc else s.iss.pc) : enters i cause aux trapPc := by
    intro hal hthere hproofer hhnd hrec h0
    rw [← hu] at hrec
    obtain ⟨hsup, hstatus, hlevel⟩ := State.entered_status sup (s.trapReport t { cause := cause, aux := aux }) trapPc h
    have hth : (u.trapLanes [(t, { cause := cause, aux := aux })]).th t =
        State.atHandler handler (State.entered sup (s.trapReport t { cause := cause, aux := aux }) trapPc h) := by
      split at hu <;> subst hu
      · exact State.trapLanes_enters hthere hproofer hhnd hpc hrec rfl h0
      · exact State.trapLanes_enters (s := s.dropFaults t) hthere hproofer hhnd hpc hrec rfl h0
    refine ⟨_, hexec hal, ?_⟩
    rw [hth]
    refine ⟨rfl, rfl, rfl, rfl, hsup, hstatus, hlevel, rfl, rfl, rfl, rfl, rfl, rfl, fun hundo => ?_⟩
    simp only [State.atHandler, State.entered, hundo]
  refine ⟨henters (fun hal => runLanes_alone_trap hal rfl) rfl rfl,
    henters (fun hal => runLanes_alone_trap hal rfl) rfl rfl, henters (fun hal => ?_) rfl rfl⟩
  change execIllegalOp s = _
  rw [execIllegalOp, hal.1]
  rfl

/-! ## ERET -/

/-- The bit of a thread among those that satisfy a test. -/
theorem bit_threadBits (ts : List Thread) (p : Thread → Bool) (t : Nat) :
    bit (threadBits ts p) t = (decide (t < ts.length) && p (ts.getD t default)) := by
  have hsum : threadBits ts p = ((upTo ts.length).map fun i => if p (ts.getD i default) then 2 ^ i else 0).sum := by
    rw [threadBits, List.sum_eq_foldl, List.foldl_map]
    congr 1
    funext a i
    split <;> rfl
  rw [hsum, ← (sum_pow_bits (fun i => p (ts.getD i default)) ts.length t).2, bit, Nat.testBit_eq_decide_div_mod_eq]

/-- m0 holds the threads that are there and live. -/
theorem bit_m0 (s : State) (t : Nat) :
    bit s.cur.m0 t = (decide (t < s.cur.threads.length) && decide ((s.th t).slot = .live)) := bit_threadBits ..

/-- A thread whose handler has returned (R198). -/
def handled (h : Thread) : Thread :=
  { h with status := (h.status &&& 0xFFFFFFFC#32) ||| (if h.status.getLsbD 8 then 1#32 else 0#32), pc := h.trappc
           slot := .live }

/-- STATUS after ERET: SUP takes PSUP, and HND falls (R198, R211). -/
theorem handled_status (h : Thread) :
    (handled h).status.getLsbD 0 = h.status.getLsbD 8 ∧ (handled h).status.getLsbD 1 = false := by
  unfold handled
  cases h.status.getLsbD 8 <;> simp

section
variable {s : State} {t : Nat}

/-- ERET of a lone thread that passes the checks. -/
theorem exec_eret (hal : Alone .eret s t) : exec .eret s = .next (((s.advance t).modTh t handled).settle t) :=
  runLanes_alone_ok hal rfl

/-- Outside a handler and a proofer the check of R174's step 4 is the first that an ERET fails. -/
theorem laneCheck_eret (hproofer : s.cur.kind.isProofer = false) (hhnd : (s.th t).status.getLsbD 1 = false) :
    laneCheck .eret s t = some { cause := cPRIV } := by
  have hpriv : privCheck s t .eret = some { cause := cPRIV } := if_neg (by rw [hhnd]; decide)
  have hg : (s.group s.iss.g).kind.isProofer = false := hproofer
  have hsimt : simtOnly .eret = false := rfl
  simp [laneCheck, hg, hsimt, hpriv]

/-- A part of the issuing group that its threads are no part of, after ERET. -/
theorem cur_eret_part {α : Type} (p : Group → α) (hp : ∀ (G : Group) ts, p { G with threads := ts } = p G) (s : State)
    (t : Nat) : p (((s.advance t).modTh t handled).settle t).cur = p s.cur := by
  rw [State.cur_settle, State.cur_modTh, State.advance, State.cur_modTh]
  exact hp s.cur _

/-- The thread after ERET. -/
theorem th_eret (hl : t < s.cur.threads.length) : (((s.advance t).modTh t handled).settle t).th t =
    { handled { s.th t with pc := s.iss.npc, wait := none } with undo := none } := by
  have hl' : t < (s.advance t).cur.threads.length := by rwa [State.advance, State.threads_modTh]
  rw [State.th_settle_self (by rwa [State.threads_modTh]), State.th_modTh_self hl', State.advance,
    State.th_modTh_self hl]

end

/-- Settles O13: in a handler ERET is one change of the thread, and outside one it fails the check of its level. -/
theorem eretReturns : Obligations.EretReturns := by
  intro s t
  refine ⟨fun hal hthere _ => ?_, fun hts hproofer hhnd => runLanes_alone_check hts (laneCheck_eret hproofer hhnd)⟩
  have hl := (hasThread_cur s t).1 hthere
  obtain ⟨hsup, hhnd⟩ := handled_status { s.th t with pc := s.iss.npc, wait := none }
  have hlive : bit (((s.advance t).modTh t handled).settle t).cur.m0 t = true := by
    rw [bit_m0, th_eret hl, State.cur_settle, List.length_modify, State.threads_modTh, State.advance,
      State.threads_modTh]
    exact Bool.and_eq_true_iff.2 ⟨decide_eq_true hl, rfl⟩
  refine ⟨_, exec_eret hal, ?_⟩
  rw [th_eret hl]
  refine ⟨hsup, hhnd, rfl, rfl, fun _ => hlive, cur_eret_part Group.masks (fun _ _ => rfl) s t,
    cur_eret_part Group.arrive (fun _ _ => rfl) s t, cur_eret_part Group.credit (fun _ _ => rfl) s t, rfl, rfl, ?_, ?_⟩
  · rw [State.settle_only, State.modTh_only, State.advance_only]
  · rw [State.settle_only, State.modTh_only, State.advance_only]

end Sys2Proof.Machine

/-! SUPPORT and PROOFS. Windows, votes and exchanges, and block moves (R202, R204 to R208). -/

namespace Sys2Proof.Machine

/-- Settles O14: the checks of SETWB and SETKB in their order, and the write. -/
theorem windowMoves : Obligations.WindowMoves := by
  intro s t n m
  refine ⟨fun hal hn hroom => runLanes_alone_ok hal ?wb, fun hal hswarm hn => runLanes_alone_trap hal ?wbSwarm,
    fun hal hsimt hout => runLanes_alone_trap hal ?wbOut, fun hal hm => runLanes_alone_ok hal ?kb,
    fun hal hswarm hm => runLanes_alone_trap hal ?kbSwarm⟩
  case wb => rw [if_neg fun h => h.2 (hn h.1), if_neg (Nat.not_le.2 hroom)]
  case wbSwarm => exact if_pos ⟨hswarm, hn⟩
  case wbOut =>
    rw [if_neg fun h => Bool.eq_false_iff.1 hsimt h.1, if_pos hout]
    rfl
  case kb => rw [if_neg fun h => h.2 (hm h.1), State.advance_iss]
  case kbSwarm => exact if_pos ⟨hswarm, hm⟩

/-- Where all threads of the bundle pass the checks, SHFL takes A of its source where that is in the bundle (R205). -/
theorem shuffle_done {i : Instr} {s : State} (h : Passes i s) (d a b : Field) (src : Nat → Nat → Nat) :
    shuffle i d a b src s = .next (bundleDone (fun st t => st.setReg t d (s.reg
      (if src t ((s.reg t b).toNat % 32) ∈ s.iss.ts then src t ((s.reg t b).toNat % 32) else t) a)) s) := by
  refine (regLanes_done h).trans ?_
  simp only [lanesOk_all h, List.contains_iff_mem]

/-- Settles O17: the threads that pass the checks, which votes and exchanges see, are here all of the bundle. -/
theorem voteShuffleLogic : Obligations.VoteShuffleLogic := by
  intro s p q c d a b table ts k from_
  refine ⟨fun h => ?any, fun h => ?all, fun h => ?ballot, fun h => shuffle_done h d a b fun _ k => k,
    fun h => shuffle_done h d a b fun t k => if t < k then t else t - k,
    fun h => shuffle_done h d a b fun t k => if 31 < t + k then t else t + k,
    fun h => shuffle_done h d a b fun t k => Nat.xor t k, predLanes_done⟩
  case any => exact (predLanes_done h).trans (by rw [lanesOk_all h])
  case all => exact (predLanes_done h).trans (by rw [lanesOk_all h])
  case ballot => exact (regLanes_done h).trans (by rw [lanesOk_all h])

/-! ## Chunks of a block move -/

namespace State

@[simp] theorem advance_reg (s : State) (t u : Nat) (f : Field) : (s.advance t).reg u f = s.reg u f := by
  unfold reg
  rw [advance_iss, advance_readRegOf]

@[simp] theorem advance_pair (s : State) (t u : Nat) (f : Field) : (s.advance t).pair u f = s.pair u f := by
  unfold pair regAt
  rw [advance_reg, advance_iss, advance_readRegOf]

end State

section
variable {one : State → Nat → LaneRes} {s s' : State} {b : Field} {t k : Nat}

/-- A count of 0 leaves nothing to do. -/
theorem chunks_zero (hcount : s.reg t b = 0#32) : chunks one b t (k + 1) s = .ok s := if_pos hcount

/-- The chunks end where the first of them leaves a count of 0. -/
theorem chunks_one (hcount : s.reg t b ≠ 0#32) (hone : one s t = .ok s') (hend : s'.reg t b = 0#32) :
    chunks one b t (k + 2) s = .ok s' := by
  simp only [chunks, hcount, if_false, hone, hend, if_true]

end

/-- A chunk stored whose bytes are all that remains of the count: D moves on by the count, and the count is 0. -/
theorem storeChunk_all {s s' : State} {t pa mt n : Nat} {d b : Field} {bs : List Byte}
    (hstore : s.storeAt t pa mt bs {} none = .ok s') (hlen : bs.length = n) (hcount : (s'.reg t b).toNat = n) :
    storeChunk s t d b pa mt bs = .ok ((s'.setPair t d (s'.pair t d + BitVec.ofNat 64 n)).setReg t b 0) := by
  have hleft : s'.reg t b - BitVec.ofNat 32 n = 0 := by
    rw [← hcount, BitVec.ofNat_toNat, BitVec.setWidth_eq, BitVec.sub_self]
    rfl
  simp only [storeChunk, hstore, hlen, hleft]

section
variable {s s1 s2 s3 : State} {t n dst pa mt : Nat} {d a b : Field} (hn : (s.reg t b).toNat = n)
  (hdst : (s.pair t d).toNat = dst) (hroom : n ≤ 128 - dst % 128)
include hn hdst hroom

/-- A count that one chunk serves is the length of the chunk (R207). -/
theorem chunkLen_all : chunkLen s t d b = n := by
  subst hn hdst
  exact Nat.min_eq_left hroom

/-- BFILL of a count that one chunk serves. -/
theorem fillChunk_all {w : Nat} (hw : (s.reg t a).toNat = w) (hacq : s.acquiring s.iss.g t = false)
    (hpage : s.translate s.iss.g t dst 1 = .ok s1 pa mt)
    (hstore : s1.storeAt t pa mt ((upTo n).map fun i => BitVec.ofNat 8 (w / 2 ^ (8 * ((dst + i) % 4)))) {} none =
      .ok s2)
    (hcount : (s2.reg t b).toNat = n) :
    fillChunk d a b s t = .ok ((s2.setPair t d (s2.pair t d + BitVec.ofNat 64 n)).setReg t b 0) := by
  have hchunk := chunkLen_all hn hdst hroom
  subst hdst hw
  simp only [fillChunk, hchunk, hacq, hpage, Bool.false_eq_true, if_false]
  exact storeChunk_all hstore (by simp [upTo]) hcount

/-- BMOV of a count that one chunk serves. -/
theorem moveChunk_all {src : Nat} {ps : List (Nat × Nat × Nat × Nat)} {bs : List Byte} (hsrc : (s.pair t a).toNat = src)
    (hread : s.reading s.iss.g t = false) (hpages : translatePieces s.iss.g t 0 s (pagePieces src n) = .ok s1 ps)
    (hpage : s1.translate s.iss.g t dst 1 = .ok s2 pa mt) (hbytes : readPieces s2 s.iss.g t ps = .ok bs)
    (hlen : bs.length = n) (hstore : s2.storeAt t pa mt bs {} none = .ok s3) (hcount : (s3.reg t b).toNat = n)
    {u : State} (hu : u = (s3.setPair t d (s3.pair t d + BitVec.ofNat 64 n)).setReg t b 0) :
    moveChunk d a b s t = .ok (u.setPair t a (u.pair t a + BitVec.ofNat 64 n)) := by
  have hchunk := chunkLen_all hn hdst hroom
  subst hdst hsrc hu
  simp only [moveChunk, hchunk, hread, hpages, hpage, hbytes, storeChunk_all hstore hlen hcount, Bool.false_eq_true,
    if_false]

end

/-- Settles O18: the first chunk takes all of the count, and a second finds nothing to do. -/
theorem blockMoveChunk : Obligations.BlockMoveChunk := by
  intro s s1 s2 s3 t d a b pa mt ps bs g n dst w at1 bump
  have hn : (at1.reg t b).toNat = n := congrArg BitVec.toNat (State.advance_reg ..)
  have hdst : (at1.pair t d).toNat = dst := congrArg BitVec.toNat (State.advance_pair ..)
  have hw : (at1.reg t a).toNat = w := congrArg BitVec.toNat (State.advance_reg ..)
  have hsrc : (at1.pair t a).toNat = (s.pair t a).toNat := congrArg BitVec.toNat (State.advance_pair ..)
  have hzero (h0 : n = 0) : at1.reg t b = 0#32 := BitVec.eq_of_toNat_eq (hn.trans h0)
  have hsome (hpos : 0 < n) : at1.reg t b ≠ 0#32 := fun h0 => hpos.ne' (hn.symm.trans (congrArg BitVec.toNat h0))
  have hg : at1.iss.g = g := congrArg Issue.g (State.advance_iss s t)
  refine ⟨fun hal h0 => runLanes_alone_ok hal (chunks_zero (hzero h0)),
    fun hal h0 => runLanes_alone_ok hal (chunks_zero (hzero h0)),
    fun hal hpos hroom hacq hpage hstore hkept hend => runLanes_alone_ok hal (chunks_one (hsome hpos) ?fill hend),
    fun hal hpos hroom hread hpages hpage hbytes hlen hstore hkept hend =>
      runLanes_alone_ok hal (chunks_one (hsome hpos) ?move hend)⟩
  case fill =>
    rw [← hg] at hacq hpage
    exact fillChunk_all hn hdst hroom hw hacq hpage hstore (congrArg BitVec.toNat hkept)
  case move =>
    rw [← hg] at hread hpages hpage hbytes
    exact moveChunk_all hn hdst hroom hsrc hread hpages hpage hbytes hlen hstore (congrArg BitVec.toNat hkept) rfl

end Sys2Proof.Machine

/-! SUPPORT and PROOFS. FP32, conversion, packed and dot results (R137, R141, R186, R246 to R254). -/

namespace Sys2Proof.Machine

/-- Of two bindings of one key the second remains. -/
theorem lput_lput {α : Type} (k : Nat) (v w : α) (l : List (Nat × α)) : lput k w (lput k v l) = lput k w l := by
  induction l with
  | nil => simp [lput]
  | cons e r ih =>
    simp only [lput]
    split
    · simp [lput]
    · split
      · simp [lput]
      · rename_i hne hlt
        simp only [lput, hne, hlt, if_false, ih]

namespace State

/-- Two changes of a group are one. -/
theorem modGroup_modGroup (s : State) (g : Nat) (f h : Group → Group) :
    (s.modGroup g f).modGroup g h = s.modGroup g fun G => h (f G) := by
  unfold modGroup
  cases e : lget g s.groups with
  | none => simp only [e]
  | some G => simp only [lget_lput_self, lput_lput]

/-- Two changes of a thread are one. -/
theorem modTh_modTh (s : State) (t : Nat) (f h : Thread → Thread) :
    (s.modTh t f).modTh t h = s.modTh t fun x => h (f x) := by
  unfold modTh modThread
  rw [modGroup_iss, modGroup_modGroup]
  congr 1
  funext G
  rw [List.modify_modify_eq]
  rfl

/-- A thread that drew nothing keeps its counter (R137). -/
theorem setFlags_advSrn_zero (s : State) (t : Nat) (f : Flags) : (s.setFlags t f).advSrn t 0 = s.setFlags t f := by
  unfold setFlags advSrn
  rw [modTh_modTh]
  congr 1
  funext h
  have hkept : ∀ w : Word, BitVec.ofNat 32 ((w.toNat / 256 + 0) % 2 ^ 24 * 256 + w.toNat % 256) = w := by
    intro w
    have hlt := w.isLt
    refine BitVec.eq_of_toNat_eq ?_
    rw [BitVec.toNat_ofNat]
    omega
  rw [hkept]

end State

section
variable {i : Instr} {s : State}

/-- A vector instruction gives each thread its words, its flags and its draws. -/
theorem fpLanes_done (h : Passes i s) {d : Field} {f : State → Nat → Except TrapInfo FpRes} {r : Nat → FpRes}
    (hf : ∀ t ∈ s.iss.ts, f s t = .ok (r t)) : fpLanes i d f s = .next (bundleDone (fun st t =>
      ((st.setRun t d (r t).words).setFlags t (r t).flags).advSrn t (r t).draws) s) :=
  runLanes_done h fun _ t ht => by simp only [hf t ht]

/-- One word for each thread, and its flags. -/
theorem fpLanes_one (h : Passes i s) {d : Field} {f : State → Nat → Except TrapInfo FpRes} {r : Nat → Word × Flags}
    (hf : ∀ t ∈ s.iss.ts, f s t = .ok { words := [(r t).1], flags := (r t).2 }) :
    fpLanes i d f s = .next (bundleDone (fun st t => (st.setReg t d (r t).1).setFlags t (r t).2) s) := by
  refine (fpLanes_done h hf).trans ?_
  simp only [State.setFlags_advSrn_zero]
  rfl

/-- One word for each thread, and its flags, by a function of the state and the thread. -/
theorem fpOne_done (h : Passes i s) {d : Field} {f : State → Nat → Word × Flags} {r : Nat → Word × Flags}
    (hf : ∀ t, f s t = r t) :
    fpOne i d f s = .next (bundleDone (fun st t => (st.setReg t d (r t).1).setFlags t (r t).2) s) :=
  fpLanes_one h fun t _ => by rw [hf]

end

/-- A byte of a register read as signed. -/
theorem extOf_byte (w : Word) (i : Nat) :
    extOf true 8 (w.toNat / 2 ^ (8 * i) % 256) = (w.extractLsb' (8 * i) 8).toInt := by
  unfold extOf
  rw [BitVec.toInt_eq_toNat_cond, BitVec.extractLsb'_toNat, Nat.shiftRight_eq_div_pow]
  simp only [true_and, Nat.reduceSub, Nat.reducePow]
  split <;> split <;> omega

/-- A sum with a register is the same modulo 2^32 whether the register is read as signed or not. -/
theorem ofNat_wrap_add (d : Word) (v : Int) :
    BitVec.ofNat 32 (wrap 32 (d.toNat + v)) = BitVec.ofInt 32 (d.toInt + v) := by
  refine BitVec.eq_of_toNat_eq ?_
  rw [wrap, BitVec.toNat_ofNat, BitVec.toNat_ofInt, BitVec.toInt_eq_toNat_cond]
  split <;> omega

/-- What F2I executes. -/
theorem exec_f2i (ty : Ty) (m : RMode) (d a : Field) (s : State) :
    exec (.f2i ty m d a) s = execF2i ty m d a s := rfl

/-- Settles O36: every row but FCMP and DOT4.s8 gives its thread words, flags and draws; a row of one word draws
nothing, and the counter stays. The checks that only values fix pass by hypothesis. -/
theorem vectorResults : Obligations.VectorResults := by
  intro s d a b cc c n rm ty one many all x y z v vt plain
  have gives {i : Instr} {f : Nat → Word × Flags} {g : State → Nat → Except TrapInfo FpRes}
      (he : exec i s = fpLanes i d g s)
      (hg : ∀ t ∈ s.iss.ts, g s t = .ok { words := [(f t).1], flags := (f t).2 }) : one i f :=
    fun h => he.trans (fpLanes_one h hg)
  have givesOne {i : Instr} {f : Nat → Word × Flags} {g : State → Nat → Word × Flags}
      (he : exec i s = fpOne i d g s) (hg : ∀ t, g s t = f t) : one i f :=
    fun h => he.trans (fpOne_done h hg)
  have givesRun {i : Instr} {f : Nat → FpRes} {g : State → Nat → Except TrapInfo FpRes} (h : Passes i s)
      (he : exec i s = fpLanes i d g s) (hg : ∀ t ∈ s.iss.ts, g s t = .ok (f t)) : many i f :=
    he.trans (fpLanes_done h hg)
  refine ⟨?fadd, ?fsub, ?fmul, ?ffma, ?fdiv, ?fmin, ?fmax, ?fabs, ?fneg, ?fround, ?fclass, fun h => predLanes_done h,
    ?frcp, ?frsq, ?fsqrt, ?fexp2, ?flog2, ?fsin, ?fcos, ?f2i, ?i2f,
    fun h hplain => givesRun h rfl fun t ht => if_neg (Bool.eq_false_iff.1 (hplain t ht)),
    fun hplain => gives rfl fun t ht => if_neg (Bool.eq_false_iff.1 (hplain t ht)),
    fun ⟨h, hruns⟩ => givesRun h rfl fun t ht => ?pack, fun ⟨h, hruns⟩ => givesRun h rfl fun t ht => ?unpk,
    ?hadd2F16, ?hmul2F16, ?hfma2F16, ?hadd2Bf16, ?hmul2Bf16, ?hfma2Bf16,
    fun hbytes => gives rfl fun t ht => ?dot4, fun h => (regLanes_done h).trans ?dot4S8⟩
  case f2i => exact fun h => givesRun h (exec_f2i ty rm d a s) fun _ _ => rfl
  case pack => simp only [show _ = none from hruns t ht, v, vt]
  case unpk => simp only [show _ = none from hruns t ht, v, vt]
  case dot4 =>
    rcases hbytes t ht with he | he | he
    all_goals simp only [show slotTy (s.slot t n.toNat).fs = _ from he]
    all_goals rfl
  case dot4S8 => simp only [extOf_byte, ofNat_wrap_add]
  all_goals exact givesOne rfl fun _ => rfl

end Sys2Proof.Machine

/-! PROOFS. The values that the rules give for reset (R210, R214, R270, R275, R284, R311, R315, R319, R321, R383). -/

namespace Sys2Proof.Machine

/-- Settles O58: every table is empty at reset, so each of its rows reads as the default. -/
theorem resetState : Obligations.ResetState := by
  have hdivided : Divided State.reset := by
    unfold Divided
    decide
  exact ⟨rfl, rfl, fun _ => rfl, fun _ => ⟨rfl, rfl⟩, fun _ => ⟨rfl, rfl, rfl, rfl, rfl⟩,
    fun _ => ⟨rfl, rfl, rfl, rfl, rfl, rfl, rfl, rfl⟩, rfl, reset_wf, hdivided⟩

end Sys2Proof.Machine

/-! SUPPORT and PROOFS. LDGS, WAITF and SETE at their issuer (R216, R220, R221). -/

namespace Sys2Proof.Machine

@[simp] theorem State.advance_spmBad (s : State) (t g : Nat) (a : Int) (size : Nat) :
    (s.advance t).spmBad g a size = s.spmBad g a size := by
  simp only [spmBad, advance_spmSize]

/-- A release without anything to wait for goes on, as does an access that releases nothing. -/
theorem release_idle {s : State} {g t : Nat} {mo : MemOrd} (h : mo.ord = .rel → s.releaseWait g t = none) :
    (decide (mo.ord = .rel) && (s.releaseWait g t).isSome) = false := by
  by_cases hr : mo.ord = .rel
  · rw [h hr, Option.isSome_none, Bool.and_false]
  · rw [decide_eq_false hr, Bool.false_and]

/-- Settles O28: the premises pass the checks of LDGS in their order; WAITF and SETE have the bounds of their line's
byte to check, and WAITF what the line holds. -/
theorem landingsAndLines : Obligations.LandingsAndLines := by
  intro s s1 t mo d a off sz pa mt
  simp only [State.cur]
  refine ⟨fun hal hva hsink htr hin hrel hacq hplace hcount => ?_, fun hal hin hfull => ?_, fun hal hin hempty => ?_,
    fun hal hin hread => ?_⟩
  · refine runLanes_alone_ok hal ?_
    simp only [misaligned_none hva, misaligned_none hsink, State.advance_iss, State.advance_kind, State.advance_blk, htr,
      hin, release_idle hrel, hacq, hplace, hcount, Bool.not_true, Bool.false_eq_true, if_false]
  · refine runLanes_alone_ok hal ?_
    simp only [State.advance_iss, State.advance_blk, State.advance_line, hin, hfull, if_true]
  · refine runLanes_alone_wait hal ?_
    simp only [State.advance_iss, State.advance_blk, State.advance_line, hin, hempty, Bool.false_eq_true, if_false]
  · refine runLanes_alone_ok hal ?_
    simp only [State.advance_iss, State.advance_blk, hin, hread, Bool.false_eq_true, if_false]

end Sys2Proof.Machine

/-! SUPPORT and PROOFS. PFARM and PFSTOP at their issuer (R180, R242, R244). -/

namespace Sys2Proof.Machine

/-- The header before an entry, once its pieces translate and are read: what follows goes by its flags (R180). -/
theorem withHeader_read {s s1 : State} {t entry : Nat} {ps : List (Nat × Nat × Nat × Nat)} {bs : List Byte}
    (hacq : (s.advance t).acquiring s.iss.g t = false)
    (hpieces : translatePieces s.iss.g t 0 (s.advance t) (pagePieces ((entry + 2 ^ 64 - 16) % 2 ^ 64) 16) = .ok s1 ps)
    (hread : readPieces s1 s.iss.g t ps = .ok bs) (k : State → Nat → LaneRes) :
    withHeader (s.advance t) t entry k = k s1 (ofBytes ((bs.drop 7).take 1)) := by
  simp only [withHeader, State.advance_iss, hacq, hpieces, hread, Bool.false_eq_true, if_false]

/-- Settles O34: the premises pass the checks of the range and of the header, and the kind of the group says whether a
range or a mailbox is armed or stopped. -/
theorem prooferArming : Obligations.ProoferArming := by
  intro s s1 t a ps bs
  simp only [State.cur]
  refine ⟨fun hal hkind hrange ⟨hacq, hpieces, hread, hflag⟩ hmet => ?_,
    fun c x hkind hal ⟨hacq, hpieces, hread, hflag⟩ hroom => ?_, fun hal hkind => ?_, fun hal hkind => ?_⟩
  · refine runLanes_alone_ok hal ?_
    simp only [State.advance_iss, State.advance_kind]
    cases hk : (s.group s.iss.g).kind with
    | swarm c x => rw [hk] at hkind; cases hkind
    | _ =>
      rw [hk] at hmet
      simp only [hrange, withHeader_read hacq hpieces hread, hflag, hmet, Bool.not_true, Bool.false_eq_true, if_false]
  · refine runLanes_alone_ok hal ?_
    have hplace : (!(s1.swarmArms.any fun b => b.g = s.iss.g) &&
        !s1.met s.iss.g t (.proofer (swarmProofer c))) = false := by
      rcases hroom with h | h
      · rw [h, Bool.not_true, Bool.false_and]
      · rw [h, Bool.not_true, Bool.and_false]
    simp only [State.advance_iss, State.advance_kind, hkind, withHeader_read hacq hpieces hread, hflag, hplace,
      Bool.not_true, Bool.false_eq_true, if_false]
  · refine runLanes_alone_ok hal ?_
    simp only [State.advance_iss, State.advance_kind, State.advance_blk, hkind, Bool.false_eq_true, if_false]
    rfl
  · refine runLanes_alone_ok hal ?_
    simp only [State.advance_iss, State.advance_kind, hkind, if_true]

end Sys2Proof.Machine

/-! SUPPORT. The ticket table: which slots a slice has, what their tickets say, and what a read of a home does not see
of a ticket's message (R121, R230). -/

namespace Sys2Proof.Machine

/-- A die has 64 home slices (R18). -/
theorem sliceOf_lt (pa : Nat) : sliceOf pa < 64 := by
  unfold sliceOf
  refine List.foldlRecOn (motive := (· < 64)) _ _ (by decide) fun x hx a ha => Nat.xor_lt_two_pow (n := 6) hx ?_
  simp only [List.mem_cons, List.not_mem_nil, or_false] at ha
  rcases ha with rfl | rfl | rfl | rfl | rfl <;> exact Nat.mod_lt _ (by decide)

section
variable {slot gen : Nat} (hgen : gen < 16384)
include hgen

theorem ticketGen_ticketOf : ticketGen (ticketOf slot gen) = gen := by
  simp only [ticketGen, ticketOf, bits]
  omega

theorem ticketSlot_ticketOf (hslot : slot < 262144) : ticketSlot (ticketOf slot gen) = slot := by
  simp only [ticketSlot, ticketOf, bits]
  omega

end

/-- The generation after another: 0 is none, and after 16,383 comes 1 (R121). -/
def nextGen (gen : Nat) : Nat := if gen = 16383 then 1 else gen + 1

theorem nextGen_range {gen : Nat} (h : gen < 16384) : 0 < nextGen gen ∧ nextGen gen < 16384 := by
  unfold nextGen
  split <;> omega

namespace State

@[simp] theorem ticket_modTicket_self (s : State) (slot : Nat) (f : Ticket → Ticket) :
    (s.modTicket slot f).ticket slot = f (s.ticket slot) := by
  simp only [ticket, modTicket, lmod, lgetD, lget_lput_self, Option.getD_some]

/-- A ticket's message brings no word home. -/
theorem homeWord_post_ticket (s : State) (chan src dst g t id val : Nat) (fail : Option TrapInfo) :
    (s.post chan src dst (.ticket g t id val fail)).homeWord = s.homeWord := by
  funext wa
  have hflying : (s.post chan src dst (.ticket g t id val fail)).flyingHome wa = s.flyingHome wa := by
    simp [flyingHome, post, List.findSome?_append]
  unfold homeWord
  rw [hflying]
  rfl

theorem homeBytes_congr {s s' : State} (h : s'.homeWord = s.homeWord) (a n : Nat) :
    s'.homeBytes a n = s.homeBytes a n := by
  simp only [homeBytes, homeByte, h]

theorem markedIn_congr {s s' : State} (h : s'.homeWord = s.homeWord) (a n : Nat) :
    s'.markedIn a n = s.markedIn a n := by
  simp only [markedIn, h]

/-- The free entries of a slice are among its 1,024. -/
theorem lt_of_mem_freeSlots {s : State} {slice slot : Nat} (h : slot ∈ s.freeSlots slice) :
    slot < 1024 * (slice + 1) := by
  obtain ⟨i, hi, rfl⟩ := List.mem_map.1 (List.mem_filter.1 h).1
  have := List.mem_range.1 hi
  omega

/-- A pick from a list, by a number that wraps round, is one of its members. -/
theorem mem_of_eq_getD_mod {l : List Nat} {a k : Nat} (h : l ≠ []) (ha : a = l.getD (k % l.length) 0) : a ∈ l := by
  have hlt : k % l.length < l.length := Nat.mod_lt _ (List.length_pos_iff.2 h)
  rw [ha, List.getD_eq_getElem l 0 hlt]
  exact List.getElem_mem hlt

end State
end Sys2Proof.Machine

/-! SUPPORT and PROOFS. The slices perform ticket requests (R230, R231, R382 to R385). -/

namespace Sys2Proof.Machine
namespace State

/-- The entry that an LDT takes: held, of the next generation, and not read yet (R230). -/
def heldEntry (s : State) (d slot : Nat) (r : LdtReq) : Ticket :=
  { gen := nextGen (s.ticket slot).gen, rcb := r.rcb, tstate := .held, end_ := (s.ticket slot).end_, born := s.cycle
    limit := (s.die d).tkage }

/-- An entry taken for an LDT, and its ticket on the way back. -/
def takenFor (s : State) (d slot : Nat) (r : LdtReq) : State :=
  let kind := (s.group r.g).kind
  (s.modTicket slot fun _ => s.heldEntry d slot r).post (chanDown kind.cluster (s.homeSlice kind.die r.pa))
    (s.homeDie kind.die r.pa) kind.die (.ticket r.g r.t r.id (ticketOf slot (nextGen (s.ticket slot).gen)) none)

/-- The LDT with the ticket of its entry. -/
def withTicket (s : State) (slot : Nat) (r : LdtReq) : LdtReq :=
  { r with ticket := ticketOf slot (nextGen (s.ticket slot).gen) }

/-- What the read of an LDT's payload makes of its entry (R230, R382, R387). -/
def payloadRead (s : State) (slot : Nat) (r : LdtReq) (k : Ticket) : Ticket :=
  { k with payload := s.homeBytes r.pa r.size, bad := s.markedIn r.pa r.size, ready := true, claim := none
           link := s.accessFail (slot / 65536) r.pa }

section
variable {s u : State} {d slot : Nat} {r : LdtReq}

/-- Where the way back is up, the answer to an LDT is sent (R230). -/
theorem returnTicket_sent (hback : s.routeFail (s.homeDie (s.group r.g).kind.die r.pa) (s.group r.g).kind.die = none)
    (val : Nat) (fail : Option TrapInfo) : s.returnTicket r val fail = s.post
      (chanDown (s.group r.g).kind.cluster (s.homeSlice (s.group r.g).kind.die r.pa))
      (s.homeDie (s.group r.g).kind.die r.pa) (s.group r.g).kind.die (.ticket r.g r.t r.id val fail) := by
  simp only [returnTicket, hback]

theorem takeSlot_free {slice : Nat} (hfree : s.freeSlots slice ≠ [])
    (hslot : slot = (s.freeSlots slice).getD (Config.freePick s.free % (s.freeSlots slice).length) 0) :
    s.takeSlot slice = some (slot, { s with free := s.free + 1 }) := by
  unfold takeSlot
  split
  · contradiction
  · rw [hslot]

theorem takeSlot_full {slice : Nat} (hfree : s.freeSlots slice = []) : s.takeSlot slice = none := by
  unfold takeSlot
  rw [hfree]

theorem allocTicket_taken (htake : s.takeSlot (64 * d + sliceOf r.pa) = some (slot, u))
    (hback : u.routeFail (u.homeDie (u.group r.g).kind.die r.pa) (u.group r.g).kind.die = none) :
    s.allocTicket d r = (u.takenFor d slot r, some (u.withTicket slot r)) := by
  have halloc : s.allocTicket d r = ((u.modTicket slot fun _ => u.heldEntry d slot r).returnTicket r
      (ticketOf slot (nextGen (u.ticket slot).gen)) none, some (u.withTicket slot r)) := by
    unfold allocTicket
    rw [htake]
    rfl
  rw [halloc, returnTicket_sent (s := u.modTicket slot fun _ => u.heldEntry d slot r) hback]
  rfl

/-- A slice without a free entry answers that its table is full (R382). -/
theorem allocTicket_full (hfree : s.freeSlots (64 * d + sliceOf r.pa) = []) :
    s.allocTicket d r = (s.returnTicket r 0 (some { cause := cTKFULL, addr := r.va }), none) := by
  unfold allocTicket
  rw [takeSlot_full hfree]

/-- A read for an LDT of words that nobody owns, at an idle line, is performed at once. -/
theorem arrive_ldt {line : Nat} (htx : s.txOf line = none) (hown : ∀ wa ∈ wordsIn r.pa r.size, lget wa s.owners = none)
    (hticket : r.ticket ≠ 0) : s.arrive line (.ldt r) = s.readPayload r := by
  have hperform : s.performTx line (.ldt r) = s.readPayload r := by
    unfold performTx
    exact if_pos hticket
  rw [← hperform]
  exact arrive_plain htx (fun _ => HomeReq.noConfusion) (fun _ _ => rfl) hown (.inl rfl)

/-- The payload of a held entry that no redemption waits for is read into the entry. -/
theorem readPayload_held (hslot : ticketSlot r.ticket = slot) (hgen : (s.ticket slot).gen = ticketGen r.ticket)
    (hheld : (s.ticket slot).tstate = .held) (hclaim : (s.ticket slot).claim = none) :
    s.readPayload r = s.modTicket slot (s.payloadRead slot r) := by
  simp only [readPayload, hslot, hgen, hheld, hclaim, ne_eq, not_true_eq_false, reduceCtorEq, decide_false, Bool.or_self,
    Bool.false_eq_true, if_false]
  rfl

theorem ticket_takenFor (s : State) (d slot : Nat) (r : LdtReq) :
    (s.takenFor d slot r).ticket slot = s.heldEntry d slot r :=
  ticket_modTicket_self s slot fun _ => s.heldEntry d slot r

/-- A read for an LDT sees what it would have seen before the LDT took its entry. -/
theorem payloadRead_takenFor (s : State) (d slot : Nat) (r : LdtReq) :
    (s.takenFor d slot r).payloadRead slot (s.withTicket slot r) = s.payloadRead slot r := by
  have hword : (s.takenFor d slot r).homeWord = s.homeWord := homeWord_post_ticket ..
  unfold payloadRead
  rw [homeBytes_congr hword, markedIn_congr hword]
  rfl

/-- An LDT takes its entry and reads its payload. -/
theorem arrive_takenFor {line : Nat} (hd : d < 4) (hgen : (s.ticket slot).gen < 16384)
    (hmem : slot ∈ s.freeSlots (64 * d + sliceOf r.pa)) (htx : s.txOf line = none)
    (hown : ∀ wa ∈ wordsIn r.pa r.size, lget wa s.owners = none) :
    (s.takenFor d slot r).arrive line (.ldt (s.withTicket slot r)) =
      (s.takenFor d slot r).modTicket slot (s.payloadRead slot r) := by
  obtain ⟨hpos, hlt⟩ := nextGen_range hgen
  have hslot : slot < 262144 := by
    have hlast := lt_of_mem_freeSlots hmem
    have hslice := sliceOf_lt r.pa
    omega
  have hticket : ticketOf slot (nextGen (s.ticket slot).gen) ≠ 0 := by
    unfold ticketOf
    omega
  have hentry := ticket_takenFor s d slot r
  rw [arrive_ldt (s := s.takenFor d slot r) (r := s.withTicket slot r) htx hown hticket,
    readPayload_held (s := s.takenFor d slot r) (ticketSlot_ticketOf hlt hslot)
      (by rw [hentry]; exact (ticketGen_ticketOf hlt).symm) (by rw [hentry]; rfl) (by rw [hentry]; rfl),
    payloadRead_takenFor]

/-- An LDT for which its slice has taken an entry goes on to its line. -/
def onToLine (line : Nat) : State × Option LdtReq → State
  | (s, some r) => s.arrive line (.ldt r)
  | (s, none) => s

/-- An LDT whose slice has a free entry, and whose line is idle, has its payload in its entry. -/
theorem onToLine_taken {line : Nat} (hd : d < 4) (hgen : (s.ticket slot).gen < 16384)
    (hfree : s.freeSlots (64 * d + sliceOf r.pa) ≠ [])
    (hslot : slot = (s.freeSlots (64 * d + sliceOf r.pa)).getD
      (Config.freePick s.free % (s.freeSlots (64 * d + sliceOf r.pa)).length) 0)
    (hback : s.routeFail (s.homeDie (s.group r.g).kind.die r.pa) (s.group r.g).kind.die = none)
    (htx : s.txOf line = none) (hown : ∀ wa ∈ wordsIn r.pa r.size, lget wa s.owners = none) :
    onToLine line (s.allocTicket d r) =
      (({ s with free := s.free + 1 } : State).takenFor d slot r).modTicket slot (s.payloadRead slot r) := by
  rw [allocTicket_taken (takeSlot_free hfree hslot) hback]
  exact arrive_takenFor (s := { s with free := s.free + 1 }) hd hgen (mem_of_eq_getD_mod hfree hslot) htx hown

end
end State

/-- An LDT that reaches the home slice of its line, where no transaction is in hand, is counted and takes an entry. -/
theorem exec_ldtArrival {s s1 : State} {n : Nat} {m : Msg} {r : LdtReq} (h : Arrives s n m (.ldt r) s1)
    (htx : s.txOf (lineOf r.pa) = none) (hslice : s1.homeSlice m.src r.pa = 64 * m.dst + sliceOf r.pa)
    (hcached : m.chan % 4 ≠ 2) : exec (.ldtArrival n) s =
      .next (State.onToLine (lineOf r.pa) ((s1.countAccess r.pa m.src r.rcb).allocTicket m.dst r)) := by
  obtain ⟨htake, hbody⟩ := h
  have hhome : s.homeSlice = s1.homeSlice := by
    rw [(State.take_some htake).2]
    rfl
  have hmoving : s.moving (lineOf r.pa) = false := by
    unfold State.moving
    rw [htx]
  change execLdtArrival n s = _
  simp only [execLdtArrival, htake, hbody, hcached, hhome, hslice, hmoving, if_false, ne_eq, not_true_eq_false,
    Bool.false_eq_true]
  obtain ⟨u, _ | r'⟩ := (s1.countAccess r.pa m.src r.rcb).allocTicket m.dst r
  · rfl
  · rfl

/-- A payload that its entry holds goes to the thread that redeems it, where the way back is up and its read met no link
that was down (R231, R384, R387). -/
theorem State.sendPayload_sent {s : State} {slot : Nat} {c : Redeemer}
    (hroute : s.routeFail (slot / 65536) (c.cluster / 16) = none) (hlink : (s.ticket slot).link = none) :
    s.sendPayload slot c = s.post (chanDown c.cluster (slot / 1024)) (slot / 65536) (c.cluster / 16)
      (.payload c.g c.t c.id (ticketOf slot (s.ticket slot).gen) [] c.spm none) := by
  simp only [sendPayload, hroute, hlink]

/-- A redemption of a held entry claims it, where the way back is up; its payload goes out once it has been read, and
until then the redemption waits in the entry (R231, R383). -/
theorem exec_redemption_held {s s1 : State} {n g t id k rcb : Nat} {m : Msg}
    (h : Arrives s n m (.redeem g t id k rcb none false) s1) (hheld : ticketVerdict s1 k rcb = none)
    (hback : s1.routeFail m.dst m.src = none) :
    let claimed := s1.modTicket (ticketSlot k) fun e => { e with tstate := .claimed }
    let c : Redeemer := { g := g, t := t, id := id, spm := none, cluster := (s.group g).kind.cluster }
    exec (.redemption n) s = .next (if (claimed.ticket (ticketSlot k)).ready then claimed.sendPayload (ticketSlot k) c
      else claimed.modTicket (ticketSlot k) fun e => { e with claim := some c }) := by
  obtain ⟨htake, hbody⟩ := h
  change execRedemption n s = _
  simp only [execRedemption, htake, hbody, hheld, hback]

/-- The entries of one region that have aged are freed and reported together. -/
theorem exec_ageSweep_region {s : State} {slice rcb : Nat} (hclock : s.cycle % 1024 = 0)
    (hregion : ∀ x ∈ agedOf s slice, x.2.rcb = rcb) (hsome : agedOf s slice ≠ []) :
    exec (.ageSweep slice) s = .next (sweepRegion slice s rcb) := by
  have hregions : ((agedOf s slice).map fun k => k.2.rcb).eraseDups = [rcb] :=
    eraseDups_constant (by simpa using hsome) fun a ha => by
      obtain ⟨x, hx, rfl⟩ := List.mem_map.1 ha
      exact hregion x hx
  change execAgeSweep slice s = _
  simp only [execAgeSweep, hclock, hregions, ne_eq, not_true_eq_false, if_false, List.foldl_cons, List.foldl_nil]

/-- Settles O47: each step reads its message, and the premises pass its checks; an LDT takes its entry, and reads its
payload in the state that this leaves. -/
theorem ticketMessages : Obligations.TicketMessages := by
  intro s s1 n slice k g t id val rcb c m r slot q
  refine ⟨?taken, ?full, ?ticket, ?send, ?claim, ?refuse, ?drop, ?deliver, ?poison, ?idle, ?sweep⟩
  case taken =>
    rintro ⟨harr, htx, hslice, hback, hcached⟩ hd hgen hfree hslot hown
    have hidle : s1.txOf (lineOf r.pa) = none := by rw [(State.take_some harr.1).2]; exact htx
    have hcycle : s1.cycle = s.cycle := by rw [(State.take_some harr.1).2]
    obtain ⟨l, hcount⟩ := s1.countAccess_only r.pa m.src r.rcb
    have hexec := exec_ldtArrival harr htx hslice hcached
    rw [hcount, State.onToLine_taken (s := { s1 with kcounts := l }) hd hgen hfree hslot hback hidle hown] at hexec
    refine ⟨_, hexec, ?_, rfl⟩
    rw [State.ticket_modTicket_self, State.ticket_takenFor, ← hcycle]
    rfl
  case full =>
    rintro ⟨harr, htx, hslice, hback, hcached⟩ hfree
    obtain ⟨l, hcount⟩ := s1.countAccess_only r.pa m.src r.rcb
    rw [exec_ldtArrival harr htx hslice hcached, hcount, State.allocTicket_full (s := { s1 with kcounts := l }) hfree,
      State.onToLine, State.returnTicket_sent (s := { s1 with kcounts := l }) hback]
    rfl
  case ticket =>
    rintro ⟨htake, hbody⟩ hload hret
    change execTicketReturn n s = _
    simp only [execTicketReturn, htake, hbody, hload, State.finishLoad, hret, Bool.false_eq_true, if_false]
  case send =>
    intro harr hheld hback hready hlink hroute
    rw [exec_redemption_held harr hheld hback, if_pos hready]
    exact congrArg _ (State.sendPayload_sent hroute hlink)
  case claim =>
    intro harr hheld hback hready
    rw [exec_redemption_held harr hheld hback]
    exact congrArg _ (if_neg (Bool.eq_false_iff.1 hready))
  case refuse =>
    rintro ⟨htake, hbody⟩ hverdict
    change execRedemption n s = _
    simp only [execRedemption, htake, hbody, hverdict]
  case drop =>
    rintro ⟨htake, hbody⟩ hheld
    change execRedemption n s = _
    simp only [execRedemption, htake, hbody, hheld]
  case deliver =>
    rintro ⟨⟨htake, hbody⟩, hload⟩ hgood hroom
    change execPayloadDelivery n s = _
    simp only [execPayloadDelivery, htake, hbody, hload, deliverRegs, hgood, Nat.not_lt.2 hroom, Bool.false_eq_true,
      if_false]
  case poison =>
    rintro ⟨⟨htake, hbody⟩, hload⟩ hbad
    change execPayloadDelivery n s = _
    simp only [execPayloadDelivery, htake, hbody, hload, deliverRegs, hbad, if_true]
    rfl
  case idle =>
    intro hidle
    change execAgeSweep slice s = _
    unfold execAgeSweep
    rcases hidle with hnone | hclock
    · rw [hnone]
      exact ite_self _
    · exact if_pos hclock
  case sweep =>
    intro hclock hregion haged
    exact exec_ageSweep_region hclock hregion fun hnone => haged (by simp only [hnone, List.filter_nil])

end Sys2Proof.Machine

/-! SUPPORT and PROOFS. CDET, SCAN, MERGE and PRUNE (R255 to R259). -/

namespace Sys2Proof.Machine

section
variable {i : Instr} {s : State}

/-- A scan sees the bundle, or on the uniform pipe its lowest thread (R36, R256). -/
theorem scanned_all (h : Passes i s) : scanned i s = if uniformPipe i then s.iss.ts.take 1 else s.iss.ts := by
  rw [scanned, lanesOk_all h]

/-- A scan gives each thread the sum of the thread whose values it reads, before or after that thread's own value. -/
theorem scan_done (h : Passes i s) (inc : Bool) (add : Word → Word → Word × Flags) (d a : Field) :
    scan i inc add d a s = .next (bundleDone (fun st t =>
      match (scanFrom add 0#32 ((if uniformPipe i then s.iss.ts.take 1 else s.iss.ts).map fun t =>
          (t, s.reg t a))).find? fun r => r.1 = leadOf i s t with
      | some (_, e, v, f) => (st.setReg t d (if inc then v else e)).setFlags t f
      | none => st) s) := by
  rw [← scanned_all h]
  refine runLanes_done h fun st t _ => ?_
  dsimp only
  cases (scanFrom add 0#32 ((scanned i s).map fun t => (t, s.reg t a))).find? fun r => r.1 = leadOf i s t <;> rfl

/-- A lone thread merges its two runs once they pass the checks and its loads are there. -/
theorem merge_alone {s1 : State} {t : Nat} {kz : Bool} {d a b : Field} {m : MergeArgs} (h : Alone i s t)
    (hm : m = { s1 := (s.reg t a).toNat, n1 := (s.regAt t a 1).toNat, s2 := (s.regAt t a 2).toNat
                n2 := (s.regAt t a 3).toNat, o := (s.reg t b).toNat })
    (hcheck : mergeCheck (s.advance t) m = none) (hread : (s.advance t).reading s.iss.g t = false)
    (hgo : mergeGo m kz d s.cur.blk t (m.n1 + m.n2 + 1) (s.advance t) 0 0 0 = .ok s1) :
    merge i kz d a b s = .next (s1.settle t) := by
  subst hm
  refine runLanes_alone_ok h ?_
  rw [State.cur] at hgo
  simp only [State.advance_iss, State.advance_blk, hcheck, hread, hgo, Bool.false_eq_true, if_false]

/-- The words, flags and draws of a PRUNE: its metadata word, then the kept elements in the storage type (R259). -/
def pruneResult (p : Pattern) (n : BitVec 3) (d a : Field) (s : State) (t : Nat) : FpRes :=
  let v := s.slot t n.toNat
  let regs := pruneRegs p (slotTy v.fs)
  let kept := pruned p (s.run t a 8) (Nat.min ((s.reg t d).toNat % 16) 8)
  let r := packWords v (s.streamKey t) (s.srn t) (kept.map Prod.snd)
  { words := pruneMeta p kept :: wordsOf regs (toBytes (4 * regs) r.1), flags := r.2
    draws := v.draws ((Pattern.shape p).2.1 * (Pattern.shape p).2.2) }

theorem exec_prune (p : Pattern) (n : BitVec 3) (d a : Field) (s : State) :
    exec (.prune p n d a) s = execPrune p n d a s := rfl

/-- A slot without blocks and a destination run inside its window pass the checks of PRUNE. -/
theorem prune_done {p : Pattern} {n : BitVec 3} {d a : Field} (h : Passes (.prune p n d a) s)
    (hplain : ∀ t ∈ s.iss.ts, (s.slot t n.toNat).isBlock = false)
    (hruns : ∀ t ∈ s.iss.ts, runChecks s t [(d, 1 + pruneRegs p (slotTy (s.slot t n.toNat).fs), false)] = none) :
    exec (.prune p n d a) s = .next (bundleDone (fun st t =>
      ((st.setRun t d (pruneResult p n d a s t).words).setFlags t (pruneResult p n d a s t).flags).advSrn t
        (pruneResult p n d a s t).draws) s) := by
  rw [exec_prune]
  refine fpLanes_done h fun t ht => ?_
  simp only [hplain t ht, hruns t ht, Bool.false_eq_true, if_false]
  rfl

end

/-- Settles O37: the threads that pass the checks, which CDET and SCAN see, are all of the bundle; the premises pass the
checks of MERGE and PRUNE in their order. -/
theorem crossThreadResults : Obligations.CrossThreadResults := by
  intro s s1 t d a b p n seen lead before scans m merges v keep regs
  refine ⟨fun h => ?cdet, fun h => scan_done h _ _ _ _, fun h => scan_done h _ _ _ _, fun h => scan_done h _ _ _ _,
    fun h => scan_done h _ _ _ _, fun h => merge_alone h rfl, fun h => merge_alone h rfl, prune_done⟩
  case cdet =>
    refine runLanes_done h fun st t _ => ?_
    simp only [earlier, lanesOk_all h, before]

end Sys2Proof.Machine

/-! SUPPORT and PROOFS. The instructions of the accumulator memory (R260 to R265). -/

namespace Sys2Proof.Machine

namespace State

theorem group_issuing (s : State) : s.group s.iss.g = s.cur := rfl

@[simp] theorem advance_handle (s : State) (t e n : Nat) : (s.advance t).handle e n = s.handle e n := by
  unfold handle
  rw [advance_engine]

@[simp] theorem advance_amRead (s : State) (t e n tile i j : Nat) :
    (s.advance t).amRead e n tile i j = s.amRead e n tile i j := by
  unfold amRead
  rw [advance_handle, advance_engine]

end State

section
variable {s : State} {t : Nat} {h : Word} {tile : Nat} {k : Option Nat → LaneRes}

/-- The issuing group may use handle h, and tile of it is allocated, once thread t has moved on. -/
def tileHeld (s : State) (t : Nat) (h : Word) (tile : Nat) : Bool :=
  (s.advance t).handleOk s.cur.kind.engine s.cur.blk h
    && tileOk ((s.advance t).handle s.cur.kind.engine (hEntry h)) tile

/-- A tile that is not allocated makes nothing wait. -/
theorem withTile_none (hheld : tileHeld s t h tile = false) : withTile (s.advance t) h tile k = k none := by
  unfold tileHeld State.cur at hheld
  simp only [withTile, State.advance_iss, State.advance_kind, State.advance_blk, hheld, Bool.false_eq_true, if_false]

/-- An allocated tile with no operation pending goes to its entry. -/
theorem withTile_some (hheld : tileHeld s t h tile = true)
    (hidle : (s.advance t).tilePending s.cur.kind.engine (hEntry h) tile = false) :
    withTile (s.advance t) h tile k = k (some (hEntry h)) := by
  unfold tileHeld at hheld
  unfold State.cur at hheld hidle
  simp only [withTile, State.advance_iss, State.advance_kind, State.advance_blk, hheld, hidle, Bool.false_eq_true,
    if_true, if_false]

/-- A tile with no operation pending goes on as its entry, or as none where it is not allocated. -/
theorem withTile_quiet
    (hidle : tileHeld s t h tile = true → (s.advance t).tilePending s.cur.kind.engine (hEntry h) tile = false) :
    withTile (s.advance t) h tile k = k (if tileHeld s t h tile then some (hEntry h) else none) := by
  cases hheld : tileHeld s t h tile with
  | false => exact withTile_none hheld
  | true => exact withTile_some hheld (hidle hheld)

end

section
variable {i : Instr} {add : Bool} {s s1 : State} {t : Nat} {d a b : Field}

/-- The tile that AMDRAIN names. -/
abbrev drainTile (s : State) (t : Nat) (a b : Field) : Nat := selTile (s.reg t a) (s.reg t b)

/-- The entry of the handle that AMDRAIN names, where it is valid. -/
abbrev drainHandle (s : State) (t : Nat) (a : Field) : Option Nat :=
  if (s.advance t).handleOk s.cur.kind.engine s.cur.blk (s.reg t a) then some (hEntry (s.reg t a)) else none

/-- The entry of the tile that AMDRAIN names, where it is allocated. -/
abbrev drainEntry (s : State) (t : Nat) (a b : Field) : Option Nat :=
  if tileHeld s t (s.reg t a) (drainTile s t a b) then some (hEntry (s.reg t a)) else none

/-- The checks of AMDRAIN before its own move (R265): no operation is pending on its tile, the thread may drain it, and
its words can be read. -/
structure Drainable (s : State) (t : Nat) (a b : Field) : Prop where
  idle : tileHeld s t (s.reg t a) (drainTile s t a b) = true →
    (s.advance t).tilePending s.cur.kind.engine (hEntry (s.reg t a)) (drainTile s t a b) = false
  owned : ownsBand (s.advance t) s.cur.kind.engine (drainEntry s t a b) (drainTile s t a b)
    (s.th t).ident.gid.toNat = true
  good : tileHeld s t (s.reg t a) (drainTile s t a b) = true →
    (s.advance t).amBadWord s.cur.kind.engine (hEntry (s.reg t a)) (drainTile s t a b) (upTo 16) = none

theorem Drainable.entry_good (h : Drainable s t a b) :
    ((drainEntry s t a b).bind fun n => (s.advance t).amBadWord s.cur.kind.engine n (drainTile s t a b) (upTo 16)) =
      none := by
  unfold drainEntry
  split
  · exact h.good ‹_›
  · rfl

/-- A drain that passes its checks is the move of its form. -/
theorem drain_moves (hal : Alone i s t) (hdr : Drainable s t a b) {base : Nat}
    (hbase : (if (s.reg t b).getLsbD 14 then (s.reg t d).toNat else (s.pair t d).toNat) = base) (halign : base % 64 = 0)
    (hrun : (if (s.reg t b).getLsbD 14 then none else runChecks s t [(d, 2, true)]) = none)
    (hmove : (if (s.reg t b).getLsbD 14 then drainSpm else drainGlobal) add (s.advance t) t base
      (bits (s.reg t b).toNat 31 16) s.cur.kind.engine (drainHandle s t a) (drainEntry s t a b) (drainTile s t a b) =
        .ok s1) :
    drain i add d a b s = .next (s1.settle t) := by
  refine runLanes_alone_ok hal ?_
  simp only [hrun, hbase, withTile_quiet hdr.idle, State.advance_iss, State.advance_kind, State.advance_blk,
    State.group_issuing, hdr.owned, misaligned_none halign, hdr.entry_good, Bool.not_true, Bool.false_eq_true, if_false]
  rw [← hmove]
  split <;> rfl

end

/-- Settles O38: what the handle and its tile are decides each instruction, and the premises pass the other checks. -/
theorem accumulatorInstructions : Obligations.AccumulatorInstructions := by
  intro s s1 t d a b h G e st H n sel tile valid held quiet rows own place drains
  have hdrains {i : Instr} {add : Bool} (hi : exec i s = drain i add d a b s) : drains i add := by
    intro hal hidle howned hgood
    have hdr : Drainable s t a b := ⟨hidle, howned, hgood⟩
    refine ⟨fun hsp hbase hmove => ?_, fun hsp hrun hbase hmove => ?_⟩
    · exact hi.trans (drain_moves hal hdr (if_pos hsp) hbase (if_pos hsp) (by rwa [if_pos hsp]))
    · have hnot := Bool.eq_false_iff.1 hsp
      exact hi.trans (drain_moves hal hdr (if_neg hnot) hbase (by rwa [if_neg hnot]) (by rwa [if_neg hnot]))
  refine ⟨fun hal => ⟨fun halloc => runLanes_alone_ok hal ?alloc, fun halloc => runLanes_alone_ok hal ?allocFails⟩,
    fun hal hvalid hbusy => runLanes_alone_ok hal ?free, fun hal hvalid => runLanes_alone_ok hal ?freeNone,
    fun hal hvalid hbusy hshape => runLanes_alone_ok hal ?shape, fun hal hheld => runLanes_alone_ok hal ?readNone,
    fun hal hquiet hgood => runLanes_alone_ok hal ?read, fun hal hquiet => runLanes_alone_ok hal ?write,
    fun hal hheld => runLanes_alone_trap hal ?writeNone, fun hal hquiet => runLanes_alone_ok hal ?zero,
    hdrains rfl, hdrains rfl⟩
  all_goals simp only [State.advance_iss, State.advance_kind, State.advance_blk, State.group_issuing]
  case alloc => rw [halloc]
  case allocFails => rw [halloc]
  case free => rw [if_neg (by simpa using hvalid), if_neg (by simpa using hbusy)]
  case freeNone => rw [if_pos (by simpa using hvalid)]
  case shape =>
    rw [if_neg (by simpa using fun _ => hbusy), if_neg (by simpa using hshape), if_neg (by simpa using hvalid)]
  case readNone => exact withTile_none hheld
  case read =>
    refine (withTile_some hquiet.1 hquiet.2).trans ?_
    simp +zetaDelta only [State.advance_amRead] at hgood ⊢
    rw [hgood]
  case write => exact withTile_some hquiet.1 hquiet.2
  case writeNone => exact withTile_none hheld
  case zero => exact withTile_some hquiet.1 hquiet.2

end Sys2Proof.Machine

/-! SUPPORT and PROOFS. The loader of the weight buffer and the sequencer at their issuers (R269 to R272, R274). -/

namespace Sys2Proof.Machine

namespace State

/-- A change of an engine is what the engine reads as. -/
theorem engine_modEngine_self (s : State) (e : Nat) (f : Engine → Engine) :
    (s.modEngine e f).engine e = f (s.engine e) := by
  unfold engine modEngine lmod lgetD
  rw [lget_lput_self, Option.getD_some]

theorem advance_handleOwner (s : State) (t e : Nat) (h : Word) :
    (s.advance t).handleOwner e h = s.handleOwner e h := by
  have hshare (b : Nat) : (s.advance t).shareOf b e = s.shareOf b e := by rw [shareOf, advance_block, shareOf]
  unfold handleOwner
  dsimp only
  rw [advance_handle]
  split
  · rw [hshare]
  · rfl

@[simp] theorem advance_handleOk (s : State) (t e blk : Nat) (h : Word) :
    (s.advance t).handleOk e blk h = s.handleOk e blk h := by
  rw [handleOk, advance_handleOwner, handleOk]

/-- The wait of MQWAIT ends once the count of completed commands has reached its number (R274). -/
theorem met_command (s : State) (g t e n : Nat) :
    s.met g t (.command e n) = decide (((s.engine e).done + 2 ^ 32 - n) % 2 ^ 32 < 2 ^ 31) := rfl

end State

/-- MQ checks a command the same once the thread has moved on. -/
theorem mqCheck_advance (s : State) (t : Nat) (w : List Word) : mqCheck (s.advance t) w = mqCheck s w := by
  unfold mqCheck State.cur
  dsimp only
  rw [State.advance_iss, State.advance_kind, State.advance_blk, State.advance_handleOk]

/-- The state once an entry has joined the loader of engine e. -/
def State.enterLoader (s : State) (e : Nat) (q : WbEntry) : State :=
  { s.modEngine e fun E => { E with loader := E.loader ++ [q] } with serial := s.serial + 1 }

/-- The groups aside, the only trace of an entry of the loader is the entry and its serial number. -/
theorem enterLoader_settled {s s1 : State} (h : OnlyGroups s1 s) (t e : Nat) (q : WbEntry) :
    (((s.enterLoader e q).settle t).engine e).loader = (s1.engine e).loader ++ [q]
      ∧ ((s.enterLoader e q).settle t).serial = s1.serial + 1 := by
  have hengine : s.engine e = s1.engine e := by rw [h]; rfl
  have hserial : s.serial = s1.serial := by rw [h]
  rw [State.settle_only, ← hengine, ← hserial]
  exact ⟨congrArg Engine.loader (State.engine_modEngine_self s e fun E => { E with loader := E.loader ++ [q] }), rfl⟩

/-- The entry that a WBLD of thread t makes of its registers, its slot and its next number, after its wait. -/
def loaderEntry (s s1 : State) (t : Nat) (n : BitVec 3) (d a b : Field) : WbEntry :=
  let u := (s1.nextEnt s.iss.g t 16).2
  { blk := s.cur.blk, offset := (s.reg t d).toNat, spm := (s.reg t a).toNat, n := bits (s.reg t b).toNat 23 0
    raw := (s.reg t b).getLsbD 31, slot := (s.advance t).slot t n.toNat, srn := u.srn t
    key := BitVec.ofNat 64 (u.streamKey t), who := u.who t, ent := (s1.nextEnt s.iss.g t 16).1, serial := u.serial }

/-- The draws of a WBLD, which a raw copy does not make, after its number is taken. -/
def loaderDrawn (s s1 : State) (t : Nat) (n : BitVec 3) (b : Field) : State :=
  let u := (s1.nextEnt s.iss.g t 16).2
  if (s.reg t b).getLsbD 31 then u else u.advSrn t (((s.advance t).slot t n.toNat).draws (bits (s.reg t b).toNat 23 0))

theorem loaderDrawn_onlyGroups (s s1 : State) (t : Nat) (n : BitVec 3) (b : Field) :
    OnlyGroups s1 (loaderDrawn s s1 t n b) := by
  have hnumber : OnlyGroups s1 (s1.nextEnt s.iss.g t 16).2 := by
    unfold OnlyGroups
    rw [State.nextEnt_only]
  unfold loaderDrawn
  split
  · exact hnumber
  · exact hnumber.trans (State.onlyGroups_modTh _ _ _)

/-- A WBLD of a lone thread that passes its checks, and finds room, enters the loader. -/
theorem wbld_enters {s s1 : State} {t : Nat} {mo : MemOrd} {n : BitVec 3} {d a b : Field}
    (hal : Alone (.wbld mo n d a b) s t)
    (hcheck : wbldCheck (s.advance t) ((s.advance t).slot t n.toNat) (s.reg t d).toNat (s.reg t a).toNat (s.reg t b)
      = none)
    (hwait : entryWait s (s.advance t) t mo = (s1, none))
    (hroom : s1.met s.iss.g t (.loader s.cur.kind.engine) = true) :
    exec (.wbld mo n d a b) s = .next
      (((loaderDrawn s s1 t n b).enterLoader s.cur.kind.engine (loaderEntry s s1 t n d a b)).settle t) := by
  refine runLanes_alone_ok hal ?_
  simp only [State.advance_iss, State.advance_kind, State.advance_blk, State.group_issuing, hcheck, hwait, hroom,
    Bool.not_true, Bool.false_eq_true, if_false]
  rfl

/-- Settles O40: the premises pass the checks of each instruction in their order. -/
theorem loaderAndSequencer : Obligations.LoaderAndSequencer := by
  intro s s1 t mo n l d a b g G e st c w num
  refine ⟨fun hal hcheck hwait hroom => ?wbld, fun hal hcheck hwait hroom => runLanes_alone_ok hal ?mq,
    fun hal => runLanes_alone_ok hal ?lrset, fun hal => ⟨fun hdone => runLanes_alone_ok hal ?done,
      fun hwaits => runLanes_alone_wait hal ?waits⟩⟩
  case wbld =>
    let q := loaderEntry s s1 t n d a b
    obtain ⟨hloader, hserial⟩ := enterLoader_settled (loaderDrawn_onlyGroups s s1 t n b) t e q
    refine ⟨_, wbld_enters hal hcheck hwait hroom, ?_, hserial, q, ?_, rfl, rfl, rfl, rfl, rfl⟩
    · exact (congrArg List.length hloader).trans List.length_append
    · exact (congrArg List.getLast? hloader).trans List.getLast?_concat
  case mq =>
    simp +zetaDelta only [State.advance_iss, State.advance_kind, State.advance_blk, State.group_issuing,
      mqCheck_advance] at hcheck hwait hroom ⊢
    simp only [hcheck, hwait, hroom, Bool.not_true, Bool.false_eq_true, if_false]
  case lrset => simp +zetaDelta only [State.advance_iss, State.advance_kind, State.group_issuing]
  case done =>
    simp +zetaDelta only [State.advance_iss, State.advance_kind, State.group_issuing, State.met_command,
      State.advance_engine] at hdone ⊢
    rw [if_pos (decide_eq_true hdone)]
  case waits =>
    simp +zetaDelta only [State.advance_iss, State.advance_kind, State.group_issuing, State.met_command,
      State.advance_engine] at hwaits ⊢
    rw [if_neg (by simpa using hwaits)]

end Sys2Proof.Machine

/-! SUPPORT and PROOFS. The commands of supervisor pages and the stores to device registers (R275, R278, R284, R311,
R312, R315, R319, R321, R402, R411, R413). -/

namespace Sys2Proof.Machine

/-! ## The head of a command queue -/

/-- Command c, well-formed and with OP op, is at the head of the queue of die d, which runs. -/
abbrev HeadCommand (s : State) (d : Nat) (c : Command) (rest : List Command) (op : Nat) : Prop :=
  (s.die d).cmds = c :: rest ∧ s.running d = true ∧ cmdFieldsOk c.w = true ∧ cmdOp c.w = op

/-- What an answer to the head command of die d makes of the state. -/
def CmdRes.outcome (s : State) (d : Nat) : CmdRes → Host.Outcome State Fault Refusal
  | .refuse cause => .next (endCommand s d cause)
  | .done s1 err => .next (endCommand s1 d err)
  | .begun s1 => .next (s1.modDie d fun D => { D with cmds := D.cmds.modify 0 fun c => { c with begun := true } })
  | .wait => .next s

section
variable {s s1 : State} {d op err : Nat} {c : Command} {rest : List Command} {f : State → Operands → Command → CmdRes}
  (h : HeadCommand s d c rest op)
include h

/-- A well-formed command at the head of its queue is answered by the meaning of its OP. -/
theorem command_head : command op d f s = (f s (cmdOperands c.w) c).outcome s d := by
  obtain ⟨hcmds, hrun, hok, hop⟩ := h
  simp only [command, hcmds, hrun, hok, hop, Bool.not_true, Bool.false_eq_true, if_false, ne_eq, not_true_eq_false]
  cases f s (cmdOperands c.w) c <;> rfl

theorem command_refuse (hf : f s (cmdOperands c.w) c = .refuse err) :
    command op d f s = .next (endCommand s d err) := by rw [command_head h, hf, CmdRes.outcome]

theorem command_done (hf : f s (cmdOperands c.w) c = .done s1 err) :
    command op d f s = .next (endCommand s1 d err) := by rw [command_head h, hf, CmdRes.outcome]

theorem command_begun (hf : f s (cmdOperands c.w) c = .begun s1) : command op d f s = .next (s1.modDie d fun D =>
    { D with cmds := D.cmds.modify 0 fun c => { c with begun := true } }) := by rw [command_head h, hf, CmdRes.outcome]

end

/-- A region that is not held has no hold to end. -/
theorem releaseHold_unheld {old : Region} (h : old.hold = false) (s : State) (d : Nat) :
    releaseHold s d old = .ok s := by
  simp only [releaseHold, h, Bool.not_false, if_true]

/-! ## Stores to device registers -/

namespace DevStore
variable {x : DevStore} {s : State}

/-- The store has a step of its own: a sequencer command, DRAW, NONCE or a free frame. -/
def hasStep (s : State) (x : DevStore) : Bool := x.isSeqOp || x.isDraw || x.isNonce || freesFrame s x

theorem isCommand_place (h : x.isCommand = true) :
    x.isPort = false ∧ x.unit % 256 = 64 ∧ x.page = 0 ∧ x.off = 0 := by
  simp only [isCommand, isSup, Bool.and_eq_true, Bool.not_eq_true', decide_eq_true_eq] at h
  obtain ⟨⟨⟨⟨hport, hunit⟩, hpage⟩, hoff⟩, -⟩ := h
  exact ⟨hport, hunit, hpage, hoff⟩

theorem hasStep_command (h : x.isCommand = true) : x.hasStep s = false := by
  obtain ⟨hport, hunit, hpage, hoff⟩ := isCommand_place h
  simp [hasStep, isSeqOp, isCmd, isDraw, isNonce, freesFrame, hport, hunit, hpage, hoff]

theorem hasStep_port (hport : x.isPort = true) (hoff : x.off ≠ 0x40) : x.hasStep s = false := by
  simp [hasStep, isSeqOp, isCmd, isDraw, isNonce, freesFrame, hport, hoff]

theorem hasStep_mailbox (hport : x.isPort = false) (hunit : x.unit % 256 = 67) (hnonce : x.isNonce = false) :
    x.hasStep s = false := by
  simp [hasStep, isSeqOp, isCmd, isDraw, freesFrame, isSup, hport, hunit, hnonce]

theorem hasStep_drawPage (hport : x.isPort = false) (hunit : x.unit % 256 = 64) (hpage : x.page = 1)
    (hdraw : x.isDraw = false) : x.hasStep s = false := by
  simp [hasStep, isSeqOp, isCmd, isNonce, freesFrame, isSup, hport, hunit, hpage, hdraw]

theorem isCommand_port (h : x.isPort = true) : x.isCommand = false := by simp [isCommand, isSup, h]
theorem isCommand_unit (h : x.unit % 256 ≠ 64) : x.isCommand = false := by simp [isCommand, isSup, h]
theorem isCommand_page (h : x.page ≠ 0) : x.isCommand = false := by simp [isCommand, isSup, h]

end DevStore

section
variable {s s1 : State} {n : Nat} {x : DevStore} (hstore : s.devStore n = some (x, s1)) (hstep : x.hasStep s = false)
include hstore hstep

/-- A command joins a queue that has room. -/
theorem deviceRegisterWrite_command (hcmd : x.isCommand = true) (hroom : (s.die (x.unit / 16384)).cmds.length < 16) :
    exec (.deviceRegisterWrite n) s = .next (s1.modDie (x.unit / 16384) fun D =>
      { D with cmds := D.cmds ++ [{ w := wordsOf 8 x.bytes }] }) := by
  change execDeviceRegisterWrite n s = _
  rw [DevStore.hasStep] at hstep
  simp only [execDeviceRegisterWrite, hstore, hstep, hcmd, Nat.not_le.2 hroom, Bool.false_eq_true, if_false, if_true]

/-- A store of a word to a loop register of a sequencer port sets it. -/
theorem deviceRegisterWrite_loop (hport : x.isPort = true) (hoff : x.off < 0x20) (hword : x.off % 4 = 0)
    (hlen : x.bytes.length = 4) :
    exec (.deviceRegisterWrite n) s = .next (s1.modEngine (portEngine x.unit) fun E =>
      { E with li := E.li.set (x.off / 4) (BitVec.ofNat 32 (ofBytes x.bytes)) }) := by
  have hcmd : x.isCmd = false := by simp [DevStore.isCmd, hlen]
  change execDeviceRegisterWrite n s = _
  rw [DevStore.hasStep] at hstep
  simp only [execDeviceRegisterWrite, hstore, hstep, DevStore.isCommand_port hport, hport, hcmd, hoff, hword, hlen,
    Bool.false_eq_true, if_false, if_true, decide_true, Bool.and_self]

/-- Any other store to the management mailbox goes to DEST. -/
theorem deviceRegisterWrite_dest (hport : x.isPort = false) (hunit : x.unit % 256 = 67) :
    exec (.deviceRegisterWrite n) s = .next (storeDest s1 x) := by
  change execDeviceRegisterWrite n s = _
  rw [DevStore.hasStep] at hstep
  simp only [execDeviceRegisterWrite, hstore, hstep, DevStore.isCommand_unit (x := x) (by omega), hport, hunit,
    Bool.false_eq_true, if_false, if_true]

/-- Any other store to a draw page is counted. -/
theorem deviceRegisterWrite_drawPage (hport : x.isPort = false) (hunit : x.unit % 256 = 64) (hpage : x.page = 1) :
    exec (.deviceRegisterWrite n) s = .next (s1.modDie (x.unit / 16384) fun D =>
      { D with drawDisc := (D.drawDisc + 1) % 2 ^ 32 }) := by
  change execDeviceRegisterWrite n s = _
  rw [DevStore.hasStep] at hstep
  simp only [execDeviceRegisterWrite, hstore, hstep, DevStore.isCommand_page (x := x) (by omega), hport, hunit, hpage,
    Bool.false_eq_true, if_false, if_true, Nat.reduceEqDiff]

end

section
variable (d : Nat) (s : State)

theorem exec_register : exec (.register d) s = execRegister d s := rfl
theorem exec_retire : exec (.retire d) s = execRetire d s := rfl
theorem exec_preempt : exec (.preempt d) s = execPreempt d s := rfl
theorem exec_shoot : exec (.shoot d) s = execShoot d s := rfl
theorem exec_image : exec (.image d) s = execImage d s := rfl
theorem exec_peer : exec (.peer d) s = execPeer d s := rfl
theorem exec_launchCommand : exec (.launchCommand d) s = execLaunchCommand d s := rfl

end

/-- Settles O51: each command passes the checks of its head and its own, and a store to a device register is the one
that its place makes it. -/
theorem commandAgents : Obligations.CommandAgents := by
  intro s s1 s2 d n cause c rest bs body sig L zero x nonce dest o head ended begun a root r e store
  have ho : cmdOperands c.w = o := rfl
  have ha : s.ownAddr d o.addr = a := rfl
  have hr : { regionOf bs a with parent := s.ownAddr d (regionOf bs a).parent } = r := rfl
  have hroot : s.ownAddr d o.addr2 = root := rfl
  refine ⟨fun h halign hread => ⟨fun k hbad => (exec_register d s).trans (command_refuse h ?registerBad),
      fun hgood hheld => (exec_register d s).trans (command_done h ?register)⟩,
    fun h halign => (exec_register d s).trans (command_refuse h (if_pos halign)),
    fun h hfirst halign hnamed => (exec_retire d s).trans (command_begun h ?retire),
    fun h hlater hstate => (exec_retire d s).trans (command_done h ?retired),
    fun h hfirst halign hnamed => (exec_preempt d s).trans (command_begun h ?preempt),
    fun h hlater hends => (exec_preempt d s).trans (command_done h ?preempted),
    fun h hfirst hnamed hparent => (exec_shoot d s).trans (command_begun h ?shoot),
    fun h hlater hends => (exec_shoot d s).trans (command_done h ?shot),
    fun h halign hhead hok hbody hsig => ⟨fun hload => (exec_image d s).trans (command_done h ?image),
      fun hload => (exec_image d s).trans (command_refuse h ?imageBad)⟩,
    fun h => (exec_peer d s).trans (command_done h rfl),
    fun h halign hroom harrive hthen => (exec_launchCommand d s).trans (command_done h ?launch),
    fun h halign hroom q f harrive hthen => (exec_launchCommand d s).trans (command_done h ?launchRefused),
    fun hstore hframe => ?freeq, fun hstore hnonce hidle => ?nonce,
    fun hstore hcmd => deviceRegisterWrite_command hstore (DevStore.hasStep_command hcmd) hcmd,
    fun hstore hport hoff => deviceRegisterWrite_loop hstore (DevStore.hasStep_port hport (by omega)) hport hoff,
    fun hstore hport hunit hnonce =>
      deviceRegisterWrite_dest hstore (DevStore.hasStep_mailbox hport hunit hnonce) hport hunit,
    fun hstore hport hunit hpage hdraw =>
      deviceRegisterWrite_drawPage hstore (DevStore.hasStep_drawPage hport hunit hpage hdraw) hport hunit hpage,
    fun hreport hrun halign hfail => ?report⟩
  case registerBad => simp only [ho, ha, hr, halign, hread, hbad, ne_eq, not_true_eq_false, if_false]
  case register =>
    simp only [ho, ha, hr, hroot, halign, hread, hgood, releaseHold_unheld hheld, ne_eq, not_true_eq_false, if_false]
  case retire | preempt =>
    simp only [ho, ha, hfirst, halign, hnamed, ne_eq, not_true_eq_false, if_false, Bool.not_true, Bool.false_eq_true]
  case retired => simp only [ho, ha, hlater, hstate, if_true]
  case preempted =>
    have hnone : ((preemptable s a).any fun B => B.bstate ≠ .resident && B.pre.isSome) = false := by
      rw [List.any_eq_false]
      intro B hB
      rcases hends B hB with hb | hb
      · simp [hb]
      · simp [hb]
    simp only [ho, ha, hlater, hnone, if_true, Bool.false_eq_true, if_false]
  case shoot =>
    simp only [ho, hroot, hfirst, hnamed, hparent, ne_eq, not_true_eq_false, if_false, Bool.not_true,
      Bool.false_eq_true, decide_false, Bool.or_self]
    rfl
  case shot =>
    have hnone : (s.shoots.any fun y => y.die = d) = false := by simpa using hends
    simp only [hlater, hnone, if_true, Bool.false_eq_true, if_false]
  case image | imageBad =>
    simp only [ho, halign, hhead, hok, hbody, hsig, hload, ne_eq, not_true_eq_false, if_false, Bool.not_true,
      Bool.false_eq_true]
  case launch | launchRefused =>
    simp only [ho, halign, Nat.not_le.2 hroom, harrive, hthen, ne_eq, not_true_eq_false, if_false]
  case freeq =>
    change execFreeq n s = _
    simp only [execFreeq, show _ = _ from hstore, hframe, if_true]
    rfl
  case nonce =>
    change execNonce n s = _
    simp only [execNonce, show _ = _ from hstore, hnonce, show (s.die (x.unit / 16384)).reporting = _ from hidle,
      Bool.not_true, Option.isSome_none, Bool.or_self, Bool.false_eq_true, if_false]
    rfl
  case report =>
    change execAttestationReportWritten d s = _
    simp only [execAttestationReportWritten, hrun, hreport, halign, hfail, if_true, ne_eq, not_true_eq_false, if_false]

end Sys2Proof.Machine

/-! SUPPORT and PROOFS. Texture, traversal, hash-grid and pixel instructions, and the control-store instructions, at
their issuer (R276, R282, R283, R293, R295, R301 to R303, R306 to R308). -/

namespace Sys2Proof.Machine

/-! ## The texture queue -/

/-- A texture, traversal or gather instruction of a lone thread enters the queue. -/
theorem texLane_queued {i : Instr} {s : State} {t fn n : Nat} {d a b : Field}
    (hexec : exec i s = runLanes i (texLane fn n d a b) s) (hal : Alone i s t) :
    DoneAlone i s t
      (queueRequest (s.advance t) t fn (s.run t a n ++ s.run t b 2) (s.runNums s.iss.g t d.toNat 4)) :=
  hexec.trans (runLanes_alone_ok hal (by rw [texLane, State.advance_iss]))

/-- A scatter of a lone thread that passes its check and need not wait for a release enters the queue. -/
theorem scatterLane_queued {i : Instr} {s s1 : State} {t fn : Nat} {mo : MemOrd} {d a b : Field}
    (hexec : exec i s = runLanes i (scatterLane fn mo d a b) s) (hal : Alone i s t)
    (hcheck : gridCheck s t d (s.regAt t a 3) true = none) (hwait : entryWait s (s.advance t) t mo = (s1, none)) :
    DoneAlone i s t (queueRequest s1 t fn
      (s.run t a 4 ++ s.run t b 2 ++ s.run t d (selCount (s.regAt t a 3) * selFeat (s.regAt t a 3))) [] mo) :=
  hexec.trans (runLanes_alone_ok hal (by simp only [scatterLane, hcheck, hwait]))

/-- The number below which requests come before an HGSFENCE: the one that its wait holds, or the next. -/
def fenceBound (w : Option WaitOn) (next : Nat) : Nat := match w with
  | some (.scatter _ n) => n
  | _ => next

/-- An HGSFENCE of a lone thread whose launch's earlier contributions are all in applies them. -/
theorem hgsfence_applies {s s1 : State} {t : Nat} (hal : Alone .hgsfence s t)
    (hmet : (s.advance t).met s.iss.g t (.scatter (s.block s.cur.blk).launch (fenceBound (s.th t).wait s.nextKey)) = true)
    (happly : applyBuffered (s.advance t) (s.block s.cur.blk).launch (fenceBound (s.th t).wait s.nextKey) = .ok s1) :
    DoneAlone .hgsfence s t s1 := by
  refine runLanes_alone_ok hal ?_
  change (if !(s.advance t).met (s.advance t).iss.g t (.scatter
        ((s.advance t).block ((s.advance t).group (s.advance t).iss.g).blk).launch
        (fenceBound (s.th t).wait (s.advance t).nextKey)) then _
    else match applyBuffered (s.advance t) ((s.advance t).block ((s.advance t).group (s.advance t).iss.g).blk).launch
        (fenceBound (s.th t).wait (s.advance t).nextKey) with
      | .ok s2 => LaneRes.ok s2
      | .error _ => _) = _
  simp only [State.advance_iss, State.advance_blk, State.advance_block, State.advance_nextKey, State.group_issuing, hmet,
    happly, Bool.not_true, Bool.false_eq_true, if_false]

/-- Settles O41: each instruction's lane is one entry into the queue, and the premises pass the checks before it. -/
theorem textureInstructions : Obligations.TextureInstructions := by
  intro s s1 t mo d a b g G st sel four k l n queued scatters
  have hlaunch : l = (s.block s.cur.blk).launch := by
    simp +zetaDelta only [State.advance_block]
  refine ⟨texLane_queued rfl, texLane_queued rfl, texLane_queued rfl, texLane_queued rfl, fun hal hcheck => ?hgf,
    scatterLane_queued rfl, scatterLane_queued rfl, fun hal hmet happly => ?fence⟩
  case hgf =>
    refine runLanes_alone_ok hal ?_
    simp +zetaDelta only at hcheck ⊢
    simp only [hcheck, State.advance_iss]
  case fence =>
    rw [hlaunch] at hmet happly
    exact hgsfence_applies hal hmet happly

/-! ## Pixels -/

/-- The block of the issuing group, once thread t has moved on and has been changed. -/
theorem advance_modTh_blk (s : State) (t : Nat) (f : Thread → Thread) :
    (((s.advance t).modTh t f).group ((s.advance t).modTh t f).iss.g).blk = s.cur.blk := by
  have hiss : ((s.advance t).modTh t f).iss = s.iss := by rw [State.modTh_only, State.advance_iss]
  rw [hiss]
  refine (State.group_modGroup_part Group.blk ?_ ..).trans (s.advance_blk t s.iss.g)
  exact fun _ => rfl

/-- Whether a region has a graphics context does not depend on the threads. -/
@[simp] theorem State.advance_gfx (s : State) (t r : Nat) : (s.advance t).gfx r = s.gfx r := by
  have hregion (q : Nat) : (s.advance t).region q = s.region q := s.advance_region t q
  have hsupplier :=
    supplier_congr (fun q => congrArg Region.parent (hregion q)) (fun q => congrArg Region.ovr (hregion q))
  unfold gfx resolved
  rw [hsupplier, hregion]

@[simp] theorem State.advance_imageAt (s : State) (t kind id : Nat) :
    (s.advance t).imageAt kind id = s.imageAt kind id := by rw [advance_only]; rfl

/-- Settles O42: the premises decide each check of the instructions in turn. -/
theorem pixelAndImageInstructions : Obligations.PixelAndImageInstructions := by
  intro s s1 t flags d a p g G st v out o
  subst st G g
  refine ⟨fun hal hpixel hout => runLanes_alone_ok hal ?pixout, fun hal hpixel => runLanes_alone_trap hal ?noPixel,
    fun hal hpixel hopen hturn => runLanes_alone_ok hal ?rscb, fun hal hpixel => runLanes_alone_trap hal ?noSection,
    fun hal hpixel hopen hwait => runLanes_alone_ok hal ?rsce, fun hal hgfx himage => runLanes_alone_ok hal ?csld,
    fun hal hgfx => runLanes_alone_trap hal ?noContext, fun hal => runLanes_alone_ok hal ?csrel⟩
  case pixout =>
    simp only [hpixel, hout, advance_modTh_blk, Bool.false_eq_true, if_false]
    exact (apply_ite LaneRes.ok ..).symm
  case noPixel | noSection =>
    simp only [hpixel]
    rfl
  case rscb =>
    simp only [hpixel, hopen, State.advance_iss, hturn, Bool.not_true, Bool.false_eq_true, if_false]
  case rsce =>
    simp only [hpixel, hopen, hwait, Bool.not_true, Bool.false_eq_true, if_false]
  case csld =>
    have hpresent : (bits v 2 0 ≠ 0 && (s.imageAt (bits v 5 4) (bits v 2 0)).isNone) = false := by
      rcases himage with h | h <;> simp [h]
    simp +zetaDelta only [State.advance_iss, State.advance_rcb, State.group_issuing, State.advance_gfx,
      State.advance_imageAt] at hgfx hpresent ⊢
    simp only [hgfx, hpresent, Bool.not_true, Bool.false_eq_true, if_false]
  case noContext =>
    simp +zetaDelta only [State.advance_iss, State.advance_rcb, State.group_issuing, State.advance_gfx] at hgfx ⊢
    simp only [hgfx, Bool.not_false, if_true]
    rfl
  case csrel => simp +zetaDelta only [State.advance_iss, State.advance_rcb, State.group_issuing]

end Sys2Proof.Machine

/-! SUPPORT and PROOFS. The texture, raster, merge and hash-grid units (R281, R284 to R296, R307, R401 to R404, R407). -/

namespace Sys2Proof.Machine

/-! ## A contribution at its slice -/

/-- After a write of one word at home, its four bytes read as the word. -/
theorem homeWrite_word (s : State) (pa : Nat) (w : Word) :
    ofBytes ((upTo 4).map fun i => readByte (s.homeWrite pa (toBytes 4 w.toNat)).mem (pa + i)) = w.toNat := by
  have hbytes : ((upTo 4).map fun i => readByte (s.homeWrite pa (toBytes 4 w.toNat)).mem (pa + i))
      = toBytes 4 w.toNat :=
    List.ext_getElem rfl fun i _ hi => by simp [upTo, homeWrite_reads s pa _ hi]
  rw [hbytes, ofBytes_toBytes]
  exact Nat.mod_eq_of_lt w.isLt

/-- A request none of whose contributions failed has no record to write. -/
theorem requestRecords_nil {q : MicroReq} (h : q.fails = []) : requestRecords q = [] := by
  unfold requestRecords
  rw [h]
  rfl

/-- A contribution that is applied adds no failure to its request. -/
theorem countOff_fails {s : State} {slice : Nat} {c : Contribution}
    (h : ∀ x ∈ s.micro, x.id = c.req → x.fails = []) :
    ∀ q ∈ (countOff s slice c none).micro, q.id = c.req → q.fails = [] := by
  intro q hq hid
  obtain ⟨x, hx, rfl⟩ := List.mem_map.1 hq
  by_cases hreq : x.id = c.req
  · simp [hreq, h x hx hreq]
  · simp [hreq] at hid

/-- A contribution that is applied writes no record where no other of its request has failed, and so leaves memory as
it is then. -/
theorem settleContribution_keeps_mem {s : State} {slice : Nat} {c : Contribution}
    (h : ∀ x ∈ s.micro, x.id = c.req → x.fails = []) :
    ∃ s1, settleContribution s slice c none = .ok s1 ∧ s1.mem = s.mem := by
  unfold settleContribution endGrads
  split
  · exact ⟨_, rfl, rfl⟩
  · rename_i q hq
    split
    · exact ⟨_, rfl, rfl⟩
    · have hfails : q.fails = [] :=
        countOff_fails h q (List.mem_of_find?_eq_some hq) (by simpa using List.find?_some hq)
      rw [requestRecords_nil hfails]
      exact ⟨_, rfl, rfl⟩

section
variable {s s1 : State} {n : Nat} {m : Msg} {c : Contribution} (harrives : Arrives s n m (.hgs c) s1)
  (hstill : s.moving (lineOf c.pa) = false) (hhome : s.homeDie m.src c.pa = m.dst) (hplain : c.det = false)
  (hgood : s1.markedIn c.pa 4 = false)
include harrives hstill hhome hplain hgood

/-- A contribution of HGS that has come to its slice, for a word with no mark, is applied there. -/
theorem hgsContribution_applied :
    exec (.hgsContribution n) s = .next (s.orFull c.who.rcb (settleContribution
      (applyContribution (s1.countAccess c.pa m.src c.who.rcb) c) (64 * m.dst + sliceOf c.pa) c none)) := by
  obtain ⟨htake, hbody⟩ := harrives
  have hmark : (s1.countAccess c.pa m.src c.who.rcb).markedIn c.pa 4 = false :=
    (State.markedIn_congr (State.countAccess_homeWord ..) c.pa 4).trans hgood
  change execHgsContribution n s = _
  simp only [execHgsContribution, htake, hbody, hstill, hhome, hplain, hmark, ne_eq, not_true_eq_false, Bool.not_false,
    Bool.false_eq_true, if_true, if_false]

/-- Where no other of its request has failed, memory then holds the word with the contribution added (R307). -/
theorem hgsContribution_adds (hnone : ∀ x ∈ s1.micro, x.id = c.req → x.fails = []) :
    ∃ s2, exec (.hgsContribution n) s = .next s2
      ∧ ofBytes ((upTo 4).map fun i => readByte s2.mem (c.pa + i))
        = (applyGrad (BitVec.ofNat 32 (s1.homeNat c.pa 4)) c).toNat := by
  have happlied := hgsContribution_applied harrives hstill hhome hplain hgood
  generalize hcounted : s1.countAccess c.pa m.src c.who.rcb = counted at happlied
  have hmicro : (applyContribution counted c).micro = s1.micro := by
    rw [← hcounted]
    exact State.countAccess_keeps (f := (·.micro)) (fun _ => rfl) ..
  have hword : counted.homeNat c.pa 4 = s1.homeNat c.pa 4 := by
    rw [← hcounted]
    exact congrArg ofBytes (State.homeBytes_congr (State.countAccess_homeWord ..) c.pa 4)
  obtain ⟨s2, hsettled, hmem⟩ := settleContribution_keeps_mem (slice := 64 * m.dst + sliceOf c.pa)
    (s := applyContribution counted c) (hmicro ▸ hnone)
  rw [hsettled] at happlied
  refine ⟨s2, happlied, ?_⟩
  rw [hmem, applyContribution, hword]
  exact homeWrite_word ..

end

/-! ## The units -/

/-- Settles O50: each premise passes one check of its unit, and a contribution that no failure accompanies writes no
record. -/
theorem graphicsAgents : Obligations.GraphicsAgents := by
  intro s s1 s2 k n g t q ws ti m c blk B b b' rec e o passed x bin p f
  refine ⟨fun hhead hroom hdone => ?done, fun hhead hroom hfail hfn htold => ?failed, fun hhead hspent => ?spent,
    hgsContribution_adds, fun hbin hnew hread himage => ?start,
    fun hbin hstarted hmore himage hread => ?primitive, fun hbin hquads hslot => ?group,
    fun hbin hout himage hmerge => ?pixel, fun hspent hreport => ?section_, fun hstore hdraw hroom => ?draw⟩
  case done =>
    change execMicrocodeRequest k s = _
    simp only [execMicrocodeRequest, hhead, hroom, hdone, Bool.false_eq_true, if_false]
  case failed =>
    change execMicrocodeRequest k s = _
    simp only [execMicrocodeRequest, hhead, hroom, hfail, failRequest, htold, hfn, Bool.false_eq_true, if_false]
    rfl
  case spent =>
    change execMicrocodeWatchdog k s = _
    simp only [execMicrocodeWatchdog, hhead, hspent]
  case start =>
    obtain ⟨hlive, hroom⟩ := hbin
    change execBinStart blk s = _
    simp only [execBinStart, hlive, hnew, hroom, hread, himage, Bool.or_self, Bool.false_eq_true, if_false, if_true]
  case primitive =>
    subst p
    obtain ⟨hlive, hroom⟩ := hbin
    change execPrimitive blk s = _
    simp only [execPrimitive, hlive, hstarted, hroom, Nat.not_le.2 hmore, hread, himage, Bool.not_true, decide_false,
      Bool.or_self, Bool.false_eq_true, if_false, if_true]
  case group =>
    obtain ⟨hlive, -⟩ := hbin
    obtain ⟨quad, quads, hcons⟩ := List.exists_cons_of_ne_nil hquads
    change execPixelGroupStart blk s = _
    simp only [execPixelGroupStart, hlive, hcons, hslot]
  case pixel =>
    obtain ⟨hlive, hroom⟩ := hbin
    change execPixelWrite blk s = _
    simp only [execPixelWrite, hlive, hout, hroom, himage, hmerge, Bool.false_eq_true, if_false, if_true]
  case section_ =>
    subst f
    change execSectionWatchdog g t s = _
    simp only [execSectionWatchdog, hspent, hreport, Bool.not_true, Bool.false_eq_true, if_false]
  case draw =>
    change execDraw n s = _
    simp only [execDraw, hstore, hdraw, Nat.not_le.2 hroom, Bool.not_true, decide_false, Bool.or_self,
      Bool.false_eq_true, if_false]

end Sys2Proof.Machine

/-! SUPPORT and PROOFS. Errors, links, reset and boot (R315 to R323, R358 to R360, R389, R390, R410 to R412). -/

namespace Sys2Proof.Machine

/-! ## A die after an update -/

namespace State

theorem die_modDie_self (s : State) (d : Nat) (f : Die → Die) : (s.modDie d f).die d = f (s.die d) := by
  simp only [die, modDie, lgetD, lmod, lget_lput_self, Option.getD_some]

theorem die_modDie_ne {d e : Nat} (h : e ≠ d) (s : State) (f : Die → Die) : (s.modDie d f).die e = s.die e := by
  simp only [die, modDie, lgetD, lmod, lget_lput_ne h]

end State

/-! ## Power and reset -/

/-- Above 105 °C the package stops, whatever its clock (R323). -/
theorem exec_powerMeasurement_hot (s : State) (watts : Nat) {temp : Nat} (h : 105 < temp) :
    ∃ s1, exec (.powerMeasurement watts temp) s = .next s1 ∧ s1.stopped = true := by
  refine ⟨_, rfl, ?_⟩
  rw [if_pos h]
  rfl

/-- A byte left out of a store reads as an unlisted one. -/
theorem readByte_filter_out {p : Host.Cell → Bool} {a : Nat} (h : ∀ b, p (a, b) = false) (m : List Host.Cell) :
    readByte (m.filter p) a = 0 := by
  have hnone : lget a (m.filter p) = none := by
    induction m with
    | nil => rfl
    | cons c m ih =>
      obtain ⟨k, b⟩ := c
      rw [List.filter_cons]
      split
      case isTrue hkept =>
        have hne : k ≠ a := fun hka => Bool.false_ne_true ((h b).symm.trans (hka ▸ hkept))
        rw [lget, if_neg hne, ih]
      case isFalse => exact ih
  rw [readByte, lgetD, hnone]
  rfl

/-- What a package reset leaves: the division and ports named for it, nothing that ran, every link, and HBM4 at 0
(R319, R320; log entry 93). -/
theorem exec_packageReset (s : State) :
    ∃ s1, exec .packageReset s = .next s1 ∧ s1.division = s.nextDivision ∧ s1.hostPorts = s.nextPorts
      ∧ s1.groups = [] ∧ s1.blocks = [] ∧ s1.regions = [] ∧ s1.flight = [] ∧ s1.links = State.reset.links
      ∧ ∀ a, a < 2 ^ 40 → readByte s1.mem a = 0 :=
  ⟨_, rfl, rfl, rfl, rfl, rfl, rfl, rfl, rfl, fun _ ha =>
    readByte_filter_out (fun _ => decide_eq_false (Nat.not_le.2 ha)) s.mem⟩

/-! ## The enrolment of a key -/

/-- A die that awaits release measures a key (R320). -/
def measureKey (key : List Byte) (s : State) (d : Nat) : State :=
  if (s.die d).status = 1 then s.modDie d fun D => { D with m := measureKeys D.m [key] } else s

/-- While die 0 awaits release, an enrolled key is measured on every die that does. -/
theorem exec_imageKeyEnrolment {s : State} (h : (s.die 0).status = 1) (key : List Byte) :
    exec (.imageKeyEnrolment key) s =
      .next ((upTo 4).foldl (measureKey key) { s with keys := s.keys ++ [key] }) :=
  if_pos h

theorem measureKey_keys (key : List Byte) (s : State) (d : Nat) : (measureKey key s d).keys = s.keys := by
  unfold measureKey
  split <;> rfl

theorem foldl_measureKey_keys (key : List Byte) (ds : List Nat) (s : State) :
    (ds.foldl (measureKey key) s).keys = s.keys :=
  List.foldlRecOn (motive := fun u => u.keys = s.keys) ds _ rfl fun u hu d _ => (measureKey_keys key u d).trans hu

theorem measureKey_die_self {s : State} {d : Nat} (h : (s.die d).status = 1) (key : List Byte) :
    ((measureKey key s d).die d).m = extendM (s.die d).m (Config.shake256 key 32) := by
  rw [measureKey, if_pos h, State.die_modDie_self]
  rfl

theorem measureKey_die_ne {d e : Nat} (h : d ≠ e) (key : List Byte) (s : State) :
    (measureKey key s e).die d = s.die d := by
  unfold measureKey
  split
  · exact State.die_modDie_ne h ..
  · rfl

theorem foldl_measureKey_die_out {d : Nat} {ds : List Nat} (h : d ∉ ds) (key : List Byte) (s : State) :
    (ds.foldl (measureKey key) s).die d = s.die d :=
  List.foldlRecOn (motive := fun u => u.die d = s.die d) ds _ rfl fun u hu _ he =>
    (measureKey_die_ne (ne_of_mem_of_not_mem he h).symm key u).trans hu

/-- Each die of a list that awaits release measures the key once. -/
theorem foldl_measureKey_die {d : Nat} {ds : List Nat} (hnodup : ds.Nodup) (hd : d ∈ ds) (key : List Byte)
    {s : State} (h : (s.die d).status = 1) :
    ((ds.foldl (measureKey key) s).die d).m = extendM (s.die d).m (Config.shake256 key 32) := by
  induction ds generalizing s with
  | nil => exact absurd hd List.not_mem_nil
  | cons e ds ih =>
    obtain ⟨hout, hnodup⟩ := List.nodup_cons.1 hnodup
    rw [List.foldl_cons]
    rcases List.mem_cons.1 hd with rfl | hd
    · rw [foldl_measureKey_die_out hout, measureKey_die_self h]
    · have hsame := measureKey_die_ne (ne_of_mem_of_not_mem hd hout) key s
      rw [ih hnodup hd (hsame ▸ h), hsame]

/-! ## The release of a die -/

section
variable {s : State} {d : Nat}

/-- A die whose ROM makes its checks answers with its code, or not at all (R412). -/
theorem exec_dieRelease_answers (hd : d < 4) (hstatus : (s.die d).status = 0xFF) :
    exec (.dieRelease d) s = .next (if bootStatus d = 0xFF then s
      else s.modDie d fun D => { D with status := bootStatus d, m := bootMeasure s d D.m }) := by
  change execDieRelease d s = _
  simp only [execDieRelease, Nat.not_le.2 hd, hstatus, if_false, if_true]
  exact (apply_ite Host.Outcome.next ..).symm

/-- A verified die is released when die 0 and its partition's dies are verified; the first clears their memory
(R320). -/
theorem exec_dieRelease_releases (hd : d < 4) (hstatus : (s.die d).status = 1) (hzero : s.verified 0 = true)
    (hall : ∀ k ∈ s.partitionDies d, s.verified k = true) :
    exec (.dieRelease d) s = .next (State.modDie
      (if ∀ k ∈ s.partitionDies d, (s.die k).status ≠ 0 then clearDies s (s.partitionDies d) else s) d fun D =>
        { D with status := 0, m := extendM D.m (Config.divisionDigest s.division) }) := by
  have hfirst : (if (s.partitionDies d).all (fun e => (s.die e).status ≠ 0) then clearDies s (s.partitionDies d)
      else s) = if ∀ k ∈ s.partitionDies d, (s.die k).status ≠ 0 then clearDies s (s.partitionDies d) else s :=
    if_congr (by simp only [List.all_eq_true, decide_eq_true_eq]) rfl rfl
  have hdivision : (if ∀ k ∈ s.partitionDies d, (s.die k).status ≠ 0 then clearDies s (s.partitionDies d)
      else s).division = s.division := by
    split <;> rfl
  change execDieRelease d s = _
  simp only [execDieRelease, Nat.not_le.2 hd, hstatus, hzero, List.all_eq_true.2 hall, hfirst, hdivision]
  rfl

/-- A die of a partition with a die that is not verified stays as it is (R320). -/
theorem exec_dieRelease_waits (hstatus : (s.die d).status = 1)
    (hsome : ∃ k ∈ s.partitionDies d, s.verified k = false) : exec (.dieRelease d) s = .next s := by
  have hall : (s.partitionDies d).all s.verified = false := List.all_eq_false.2 <| by
    simpa only [Bool.not_eq_true] using hsome
  change execDieRelease d s = _
  simp only [execDieRelease, hstatus, hall, Bool.and_false, Bool.false_eq_true, if_false]
  exact ite_self _

end

/-! ## The package -/

/-- Settles O55: each premise is the guard under which its row acts. -/
theorem errorsAndPackage : Obligations.ErrorsAndPackage := by
  intro s g t n w e gr blk line unit link watts temp d parts ports nonce key dest stack slice entry cw D
  refine ⟨rfl, rfl, rfl, rfl, fun hused => ?payload, rfl, fun hlink hup => ?down, fun hcool hstep => ?power,
    exec_powerMeasurement_hot s watts, exec_packageReset s, rfl, fun hok => ?divide, fun hlen hfree => ?attest,
    fun htraining => ?capability, rfl, fun hawait => ?enrol, exec_dieRelease_answers,
    exec_dieRelease_releases, fun _ => exec_dieRelease_waits⟩
  case payload => exact congrArg Host.Outcome.next (if_neg hused)
  case down => exact if_pos ⟨hlink, hup⟩
  case power =>
    change execPowerMeasurement watts temp s = _
    simp only [execPowerMeasurement, hstep, Nat.not_lt.2 hcool, if_false]
  case divide => exact if_pos hok
  case capability => exact if_pos htraining
  case attest =>
    change execI3cAttestationRequest nonce dest s = _
    simp only [execI3cAttestationRequest, hlen, hfree, Option.isNone_none, decide_true, Bool.and_self, if_true]
  case enrol =>
    refine ⟨_, exec_imageKeyEnrolment hawait key, foldl_measureKey_keys key _ _, fun k hk hstatus => ?_⟩
    exact foldl_measureKey_die (s := { s with keys := s.keys ++ [key] }) (ds := upTo 4) List.nodup_range
      (List.mem_range.2 hk) key hstatus

end Sys2Proof.Machine
